-- ==== Sys2Proof/Word.lean ====
section
/-! DEFINITION. The word types of the Horain T4 model: what the spec treats as bits. -/

namespace Sys2Proof

/-- One byte of memory, of a frame or of a flash record. -/
abbrev Byte := BitVec 8
/-- A 16-bit field: BF16 values, tags, descriptor fields read as bits. -/
abbrev Half := BitVec 16
/-- A 32-bit register, an FP32 value. -/
abbrev Word := BitVec 32
/-- A 64-bit descriptor word or counter. -/
abbrev DWord := BitVec 64
/-- A byte string, first byte first. -/
abbrev Bytes := List (BitVec 8)

end Sys2Proof
end

