-- ==== Sys2Proof/Syntax.lean ====
section
/-! DEFINITION. The commands of the Horain T4: one constructor of `Instr` for each row of
spec/opcode_table.json, with the operands the rules give the row. Where a row is an event of the
outside world (a packet, a sensor report, the end of some work whose length the spec bounds but does
not fix), its operands carry what the outside world brings. -/

namespace Sys2Proof

/-- What the adapter answered for the host addresses of a command (R484). -/
inductive HostFault where
  | none | input | output
  deriving DecidableEq, Repr

/-- The fields of a submission entry that every host command carries (R457), as the ring gave them.
`resv` says that some reserved field of the command's parameters is nonzero. -/
structure HostHdr where
  ring      : Nat
  tag       : Half
  flags     : Byte
  partition : Nat
  byte5     : Byte
  signal    : Half
  resv      : Bool
  fault     : HostFault
  deriving DecidableEq, Repr

/-- A tile reference (R25), decoded. -/
structure TileRef where
  handle : Nat
  t0 : Nat
  t1 : Nat
  t2 : Nat
  t3 : Nat
  deriving DecidableEq, Repr

/-- The two masters of the object dictionary (R393). -/
inductive Master where
  | host | mgmt
  deriving DecidableEq, Repr

/-- A dictionary request without its entry's name: the frame header's other fields and its data (R389). -/
structure DictReq where
  master  : Master
  version : Byte
  flags   : Byte
  tag     : Half
  typ     : Byte
  offset  : Nat
  data    : Bytes
  bcast   : Bool := false      -- a management frame sent to the broadcast address (R397)
  flashBad : Bool := false     -- the flash operation that the write waits for fails, and its retry (R405)
  deriving DecidableEq, Repr

/-- The header of a transport packet (R310). -/
structure PktHdr where
  flags     : Byte
  dstModule : Nat
  srcModule : Nat
  flow      : Byte
  tseq      : Nat
  signal    : Half
  offset    : Nat
  epoch     : Word
  resv      : Bool
  deriving DecidableEq, Repr

/-- The extension of COLL_CHUNK and NOTICE packets (R326): `level` is the byte level_kind, `resv` says that a reserved byte is not
zero. -/
structure ExtHdr where
  defTag     : Word
  generation : Nat
  cgroup     : Nat
  level      : Nat
  bucket     : DWord
  chunk      : Nat
  sender     : Nat
  sumcheck   : Word
  elements   : Nat
  resv       : Bool
  deriving DecidableEq, Repr

/-- What a physical fault makes of one row of one reduction tile on a bench (R336 to R341): errors of band sums, as sub-cycle, band,
column and error; column totals that promotion, Cullet or the tree made wrong; products of significands that Cullet formed wrong,
as reduction index, column and the product formed;
the values that a stage after them made wrong (1 the accumulator's addition, 2 the addition to prior content, 3 the conversion to
BF16); for a fault of the Strain itself, the cause it gives where its checks would agree (0 none); and errors of symbols of the
accumulator's codeword of columns 4 × `entry` to 4 × `entry` + 3, met when the row's sum so far is read (R340). -/
structure BenchFault where
  red     : Nat
  row     : Nat
  bands   : List (Nat × Nat × Nat × Int)
  totals  : List (Nat × Word)
  prods   : List (Nat × Nat × Nat)
  stage   : Nat
  sums    : List (Nat × Word)
  checker : Nat
  entry   : Nat
  upset   : List (Nat × Nat)
  deriving DecidableEq, Repr

/-- One run of a part of a bench test (R348, R350): the bench, the part, and what a physical fault made of a row of it. -/
structure FritRun where
  bench : Nat
  part  : Nat
  fault : Option BenchFault
  deriving DecidableEq, Repr

/-- What an instance gave for its known-answer vectors (R349): the bytes of its result that differ from the stored answer, as offset
and difference. -/
abbrev KavResult := List (Nat × Nat)

/-- What a physical fault makes of a fold of a chunk of a reducing collective (R352): the level and the chunk, which run of the fold
(0 the first), the values it makes wrong, by their place in the chunk, and whether the engine's check errs. -/
structure FoldFault where
  level   : Nat
  chunk   : Nat
  run     : Nat
  values  : List (Nat × Word)
  checker : Bool
  deriving DecidableEq, Repr

/-- A COLLECTIVE that issues: the Pontil instance it asks for, and what physical faults will make of its folds. -/
structure CollIssue where
  inst   : Nat
  faults : List FoldFault
  deriving DecidableEq, Repr

/-- What a collective watchdog times (R295): an operation of a context, or a round of a group. -/
inductive CollSubject where
  | op (ctx opIdx : Nat)
  | round (part group : Nat)
  deriving DecidableEq, Repr

/-- The kinds of station instance (R10, R44). -/
inductive StKind where
  | bench | marver | gather | jacks | lehr | pontil
  deriving DecidableEq, Repr

/-- A station instance: its kind, its die and its index within the die (R10). -/
structure Inst where
  kind : StKind
  die  : Nat
  idx  : Nat
  deriving DecidableEq, Repr

/-- A memory channel: LP or HBM, its die and its index within the die (R248, R251). -/
structure Chan where
  lp  : Bool
  die : Nat
  idx : Nat
  deriving DecidableEq, Repr

/-- A port that has trained (R307): the lanes in use, the peer found, and the credits that the peer grants by class (R306). -/
structure PortObs where
  port    : Nat
  lanes   : Nat
  module  : Nat
  part    : Nat
  peer    : Nat
  credits : List Nat
  deriving DecidableEq, Repr

/-- The other end of a port that has trained: its port number and the credits that it grants by class (R306). -/
structure PortPeer where
  port    : Nat
  credits : List Nat
  deriving DecidableEq, Repr

/-- What the patrol meets (R248, R261): the address, the symbols of its codeword that have been upset, each with the bits that
flipped, whether the read met a parity error (0 none, 1 one that the retry passes, 2 one that stands), and addresses whose next
access by anyone meets one that stands. -/
structure PatrolObs where
  addr   : Nat
  upset  : List (Nat × Nat)
  parity : Nat
  later  : List Nat
  deriving DecidableEq, Repr

/-- What a parity scan meets (R375): a register of the block and the bits of it that have flipped. -/
structure CsrObs where
  off  : Nat
  flip : Nat
  deriving DecidableEq, Repr

/-- What the outside world brings to a bring-up (R423): the value K read from the SRAM-PUF area (none: not
accepted, R435), which dies' PLLs lock, which channels fail training, whether the host link trains and on how
many lanes, which fabric ports come up on how many lanes, with the peer found, and of each memory unit (HBM stacks 0 to 7, then LP
packages 0 to 15) its temperature in eighths of a degree and the values that a full training gives it (R270). -/
structure BootObs where
  pufK      : Option Bytes
  pll0      : Bool
  pll1      : Bool
  badChans  : List Chan
  hostLanes : Nat
  ports     : List PortObs
  temps     : List Int
  trained   : List (List (BitVec 8))
  deriving DecidableEq, Repr

/-- A clock-fault source (R419). -/
inductive ClockSrc where
  | die (d : Nat)
  | chan (c : Chan)
  | port (q : Nat)
  deriving DecidableEq, Repr

/-- The commands: one constructor per row of spec/opcode_table.json, in the table's order. -/
inductive Instr where
  -- host commands (R459)
  | handleWrite (h : HostHdr) (handle : Nat) (words : List DWord)
  | handleRead (h : HostHdr) (handle : Nat) (addr : DWord)
  | handleFree (h : HostHdr) (handle : Nat)
  | programLoad (h : HostHdr) (byteLength : Nat) (image : Bytes)
  | programUnload (h : HostHdr) (program : Nat)
  | groupCreate (h : HostHdr) (group kind : Nat) (seed first rpt : DWord)
  | bind (h : HostHdr) (group program pick : Nat)
  | start (h : HostHdr) (group : Nat)
  | pause (h : HostHdr) (group : Nat)
  | resume (h : HostHdr) (group : Nat)
  | stop (h : HostHdr) (group : Nat)
  | unbind (h : HostHdr) (context : Nat)
  | groupDestroy (h : HostHdr) (group : Nat)
  | ckptRead (h : HostHdr) (module partition slot : Nat) (addr : DWord) (length : Nat)
  | ckptRestore (h : HostHdr) (group source slot module partition : Nat) (image : Bytes)
  | oap (h : HostHdr) (respAddr : DWord) (bufLen : Nat) (frame : Bytes)
  | nop (h : HostHdr)
  | dmaWrite (h : HostHdr) (length : Nat) (tile : TileRef) (mode offset : Nat) (data : Bytes)
  | dmaRead (h : HostHdr) (addr : DWord) (length : Nat) (tile : TileRef) (mode offset : Nat)
  | signal (h : HostHdr) (counter : Half)
  | wait (h : HostHdr) (counter : Half) (count timeout : Nat)
  | hostWaitTimeout (ring : Nat) (tag : Half)
  | timeExchange (h : HostHdr) (hostTime addr : DWord)
  | detach (h : HostHdr)
  -- tile operations (R30), issued from a context to a station instance
  | copy (ctx inst : Nat)
  | bagSum (ctx inst : Nat)
  | bagMean (ctx inst : Nat)
  | bagMax (ctx inst : Nat)
  | gradMerge (ctx inst : Nat)
  | quant (ctx inst : Nat)
  | measure (ctx inst : Nat)
  | dequant (ctx inst : Nat)
  | gemm (ctx inst : Nat) (cuts : List (Nat × Nat)) (fault : Option BenchFault)
  | elementwise (ctx inst : Nat)
  | norm (ctx inst : Nat)
  | softmax (ctx inst : Nat)
  | reduceSum (ctx inst : Nat)
  | reduceMax (ctx inst : Nat)
  | reduceMin (ctx inst : Nat)
  | update (ctx inst : Nat)
  | rowUpdate (ctx inst : Nat)
  | snapshot (ctx inst : Nat)
  | put (ctx inst : Nat)
  | get (ctx inst : Nat)
  | putSignal (ctx inst : Nat)
  | collective (ctx : Nat) (issue : CollIssue)
  | sync (ctx : Nat)
  | barrier (ctx : Nat)
  | stepBoundary (ctx : Nat)
  | opEnd (ctx : Nat)
  -- stream events
  | opComplete (ctx opIdx : Nat)
  | waitWatchdogExpire (ctx : Nat)
  | collectiveWatchdogExpire (subject : CollSubject)
  | syncFwSignal (die : Nat) (w : Word)
  | syncFwWait (die : Nat) (w : Word)
  -- steps, checkpoints, digests
  | agreedStatus (part group : Nat)
  | abortNotice (port : Nat) (hdr : PktHdr) (ext : ExtHdr) (payload : Bytes)
  | commitAck (port : Nat) (hdr : PktHdr) (ext : ExtHdr)
  | ckptShipped (part : Nat)
  | digestNotice (port : Nat) (hdr : PktHdr) (ext : ExtHdr) (payload : Bytes)
  | digestTimeout (part : Nat)
  | journalRoomResume (ctx : Nat)
  -- silent errors
  | strainRerunDone (bench run : Nat) (fault : Option BenchFault) (origAgrees : Bool)
  | strikeExpire
  | fritTestStart (bench partner : Nat)
  | fritTestDone (bench : Nat) (runs : List FritRun)
  | fritLendExpire (bench : Nat)
  | knownAnswerTest (inst : Inst) (got1 got1again : KavResult) (second : Nat) (got2 : KavResult)
  | selftestRolling (rq : DictReq)
  | selftestWholeModule (rq : DictReq)
  | unfence (rq : DictReq)
  | jacksReserveGrant (cgroup : Nat)
  -- fabric
  | pktWrite (port : Nat) (hdr : PktHdr) (payload : Bytes)
  | pktWriteSignal (port : Nat) (hdr : PktHdr) (payload : Bytes)
  | pktReadReq (port : Nat) (hdr : PktHdr) (payload : Bytes)
  | pktReadResp (port : Nat) (hdr : PktHdr) (payload : Bytes)
  | pktCollChunk (port : Nat) (hdr : PktHdr) (ext : ExtHdr) (payload : Bytes)
  | noticeStatus (port : Nat) (hdr : PktHdr) (ext : ExtHdr) (payload : Bytes)
  | noticeBarrierArrive (port : Nat) (hdr : PktHdr) (ext : ExtHdr) (payload : Bytes)
  | noticeResend (port : Nat) (hdr : PktHdr) (ext : ExtHdr) (payload : Bytes)
  | pktTack (port : Nat) (hdr : PktHdr)
  | pktRefuse (port : Nat) (hdr : PktHdr) (payload : Bytes)
  | retxTimerExpire (flow : Nat)
  | destUnreachable (part module dstPart : Nat)
  | flitReceive (port : Nat) (symbols : List (List Nat))
  | flitReplayTimeout (port : Nat)
  | portFastRetrain (port : Nat)
  | portDown (port : Nat)
  | portTrained (port lanes module part : Nat) (peer : PortPeer)
  | portModeWrite (rq : DictReq)
  | groupDefinitionWrite (cgroup : Nat) (rq : DictReq)
  -- dictionary entries with rows of their own
  | partitionModeWrite (rq : DictReq)
  | handleCountWrite (part : Nat) (rq : DictReq)
  | optSlotWrite (part slot : Nat) (rq : DictReq)
  | lrScheduleWrite (part slot : Nat) (rq : DictReq)
  | tableMapWrite (part rec : Nat) (rq : DictReq)
  | hbmInterleaveWrite (rq : DictReq)
  -- planner and memory service
  | plannerTick
  | countersWarm (part : Nat)
  | tableCounterHalve (part : Nat)
  | migrationCopyDone (part handle tile : Nat)
  | scrubPatrol (o : PatrolObs)
  | recalibrationTrigger (chan : Chan)
  | recalHold (chan : Chan)
  | svcDrain (rq : DictReq)
  | svcReturn (rq : DictReq)
  | svcRecalibrate (rq : DictReq)
  | svcMargin (rq : DictReq)
  | channelDrained (chan : Chan)
  | marginDone (chan : Chan) (result : Bytes)
  | memcRecalReq (die inst : Nat) (w : Word)
  -- stations and registers
  | benchDrain (die idx : Nat) (w : Word)
  | benchYield (die idx : Nat) (w : Word)
  | stationDrained (inst : Inst)
  | stationGate (inst : Inst)
  | stationWake (inst : Inst)
  | stationRetain (inst : Inst)
  | retainedAccess (inst : Inst)
  | csrWrite (addr size : Nat) (w : Word)
  | counterReadClear (addr size : Nat)
  | gcntLoRead (die : Nat) (ao : Bool)
  | aliasSetClearToggle (addr : Nat) (w : Word)
  | aliasBitWrite (addr : Nat) (w : Word)
  | csrmapModeWrite (die n : Nat) (w : Word)
  /-- `flip`: the bits of the register that an upset has inverted since it was written. -/
  | parityScan (die slot : Nat) (o : CsrObs)
  | cfgParityReload (die slot : Nat)
  | gcntParityInject (die : Nat) (w : Word)
  | eventPop (die : Nat) (w : Word)
  | aopmBlockReset (w : Word)
  | aopmWarm (w : Word)
  | dieHold (w : Word)
  -- object access protocol and management
  | oapRead (rq : DictReq) (index sub : Nat)
  | oapWrite (rq : DictReq) (index sub : Nat)
  | oapInfo (rq : DictReq) (index sub : Nat)
  | oapStagingTimeout (m : Master) (index sub : Nat)
  | controlTokenWrite (rq : DictReq)
  | mgmtTakeover
  | restoreDefaults (rq : DictReq)
  | logClear (rq : DictReq)
  | csrDataRead (rq : DictReq)
  | csrDataWrite (rq : DictReq)
  | sweepBegin
  | addressOffer (node : Nat)
  | mgmtBeaconLost
  | mgmtBeaconResumed
  | mgmtChainInLost
  | storeCopyWrite (flashOk : Bool)
  | poweredTimeRecord
  | nvInhibitBegin
  | nvInhibitEnd
  -- power, clocks, reset
  | supplyGood (obs : BootObs)
  | supplyLow
  | supplyWarnEnd
  | brownOut
  | auxLoss
  | overvoltage
  | overvoltageEnd
  | modResetN
  | resetCmdCold (rq : DictReq)
  | resetCmdWarm (rq : DictReq)
  | resetCmdDie (rq : DictReq)
  | powerLimitTick (meanMw : Nat)
  | powerComparatorTrip
  | powerComparatorRelease
  | thermalSample (die : Nat) (eighthsC : Int)
  | thermalDieReset (die : Nat)
  | clockFault (src : ClockSrc)
  | deepCmd (rq : DictReq)
  | wake (source : Nat)
  -- security and firmware
  | fwImageWrite (slot : Nat) (rq : DictReq)
  | fwActivateMgmt (rq : DictReq)
  | fwActivateGaffer (rq : DictReq)
  | liveUpdateDieHeld (die : Nat)
  | fwConfirm (rq : DictReq)
  | keyRecordWrite (rq : DictReq)
  | waiverWrite (rq : DictReq)
  | quoteNonceWrite (rq : DictReq)
  | quoteRead (rq : DictReq)
  -- host link
  | hlFlitReceive (flit : Bytes)
  | hlReplayTimeout
  | hostLinkRetrained
  | hostLinkDown
  | hostLinkUp (lanes : Nat)
  | sqDoorbell (ring : Nat) (tail : Half)
  | cqDoorbell (ring : Nat) (head : Half)
  | eventHeadDoorbell (head : Half)
  | hlCtrlWrite (w : DWord)
  | ctrlWrite (offset : Nat) (w : DWord)
  | ringPairWrite (ring : Nat) (rq : DictReq)
  | ringPairDrained (ring : Nat)
  | commandComplete (ring : Nat) (tag : Half) (fault : HostFault) (done : Nat)
  | recalibrationEnd (chan : Chan) (holdNs : Nat)
  | digestsComputed (part : Nat)
  | thermalResetEnd (die : Nat)
  | modResetNRelease
  | mgmtChainInAsserted
  | selftestComplete (results : List (Nat × Bool × Nat))
  | mgmtFwRestarted
  | quoteReady (m : Master)
  | oapSnapshotExpire (m : Master) (index sub : Nat)
  | oapKeptResponseExpire (m : Master) (tag : Half)
  | mgmtFrameDiscarded
  deriving DecidableEq, Repr

end Sys2Proof
end

