-- ==== Sys2Proof/Machine/Bits.lean ====
section
/-! DEFINITION. Bit fields (R2), little-endian byte strings (R3) and the small list helpers the model uses. -/

namespace Sys2Proof.Machine

/-- The unsigned integer in bits [hi:lo] of `v` (R2). -/
def fld (v hi lo : Nat) : Nat := (v >>> lo) % 2 ^ (hi + 1 - lo)

/-- Bit `i` of `v`. -/
def bitAt (v i : Nat) : Bool := v.testBit i

/-- `v` with bits [hi:lo] replaced by the low bits of `x`. -/
def setFld (v hi lo x : Nat) : Nat :=
  let w := hi + 1 - lo
  (v >>> (hi + 1)) <<< (hi + 1) + (x % 2 ^ w) <<< lo + v % 2 ^ lo

/-- A field read as two's complement of width `w`. -/
def signedOf (w v : Nat) : Int :=
  let x := v % 2 ^ w
  if x < 2 ^ (w - 1) then (x : Int) else (x : Int) - (2 ^ w : Nat)

/-- The two's complement field of width `w` that holds `i`. -/
def unsignedOf (w : Nat) (i : Int) : Nat := (i % ((2 ^ w : Nat) : Int)).toNat

/-- The integer a little-endian byte string holds (R3). -/
def ofLe : Bytes → Nat
  | [] => 0
  | b :: bs => b.toNat + 256 * ofLe bs

/-- `v` as `n` little-endian bytes (R3). -/
def toLe : Nat → Nat → Bytes
  | 0, _ => []
  | n + 1, v => BitVec.ofNat 8 v :: toLe n (v / 256)

/-- `n` zero bytes. -/
def zeroBytes (n : Nat) : Bytes := List.replicate n 0

/-- Exactly `n` bytes: the string cut, or followed by zeros. -/
def fitBytes (n : Nat) (bs : Bytes) : Bytes := bs.take n ++ zeroBytes (n - bs.length)

/-- The `n` bytes of `bs` from offset `o`, zeros beyond its end. -/
def subBytes (bs : Bytes) (o n : Nat) : Bytes := fitBytes n (bs.drop o)

/-- The little-endian integer of `n` bytes of `bs` from offset `o`. -/
def leAt (bs : Bytes) (o n : Nat) : Nat := ofLe (subBytes bs o n)

/-- `bs` with the bytes `ws` written from offset `o`; the string keeps its length. -/
def overlay (bs : Bytes) (o : Nat) (ws : Bytes) : Bytes :=
  (bs.take o ++ ws ++ bs.drop (o + ws.length)).take bs.length

/-- The list split into pieces of `n` elements (`k` of them). -/
def pieces {α : Type} (n : Nat) : Nat → List α → List (List α)
  | 0, _ => []
  | k + 1, xs => xs.take n :: pieces n k (xs.drop n)

def ceilDiv (a b : Nat) : Nat := (a + b - 1) / b

/-- The next multiple of `n` at or above `a`. -/
def roundUp (a n : Nat) : Nat := ceilDiv a n * n

/-- A counter that stops at its largest value. -/
def satAdd (lim a b : Nat) : Nat := min lim (a + b)

/-- Replace the element at an index; a list too short is left alone. -/
def setAt {α : Type} (xs : List α) (i : Nat) (x : α) : List α := xs.set i x

/-- Change the element at an index. -/
def updAt {α : Type} (xs : List α) (i : Nat) (f : α → α) : List α := xs.modify i f

/-- Does every element satisfy `p`, given its index? -/
def allIdx {α : Type} (xs : List α) (p : Nat → α → Bool) : Bool :=
  (xs.zipIdx).all fun q => p q.2 q.1

/-- Is the list strictly ascending? -/
def strictAsc : List Nat → Bool
  | [] => true
  | [_] => true
  | a :: b :: xs => decide (a < b) && strictAsc (b :: xs)

/-- A list without repeats? -/
def noDup : List Nat → Bool
  | [] => true
  | a :: xs => !xs.contains a && noDup xs

/-! ### Sparse maps: a list of keys and values, keys strictly rising. -/

/-- The value at a key. -/
def mapGet {α : Type} (m : List (Nat × α)) (k : Nat) : Option α :=
  match m with
  | [] => none
  | (j, v) :: r => if j = k then some v else mapGet r k

/-- Set the value at a key, keeping the keys in order. -/
def mapSet {α : Type} (m : List (Nat × α)) (k : Nat) (v : α) : List (Nat × α) :=
  match m with
  | [] => [(k, v)]
  | (j, u) :: r =>
    if k < j then (k, v) :: (j, u) :: r
    else if j = k then (k, v) :: r
    else (j, u) :: mapSet r k v

/-- Remove a key. -/
def mapDel {α : Type} (m : List (Nat × α)) (k : Nat) : List (Nat × α) :=
  m.filter fun q => q.1 != k

/-- The value at a key, or a default. -/
def mapGetD {α : Type} (m : List (Nat × α)) (k : Nat) (d : α) : α :=
  (mapGet m k).getD d

/-- Insert into a list ordered by a key function, keeping order; equal keys go after. -/
def insertBy {α : Type} (key : α → Nat) (x : α) : List α → List α
  | [] => [x]
  | y :: ys => if key x < key y then x :: y :: ys else y :: insertBy key x ys

/-- Sort by a key, ascending; equal keys keep their order. -/
def sortBy {α : Type} (key : α → Nat) (xs : List α) : List α :=
  xs.foldl (fun acc x => insertBy key x acc) []

/-- Without repeats, in order of first occurrence. -/
def dedup {α : Type} [BEq α] (xs : List α) : List α := xs.foldl (fun a x => if a.contains x then a else a ++ [x]) []

/-- The integer square root of `n`, bit by bit from bit `k - 1` of the root down. -/
def isqrtAux (n : Nat) : Nat → Nat → Nat
  | 0, r => r
  | k + 1, r =>
    let c := r + 2 ^ k
    isqrtAux n k (if c * c ≤ n then c else r)

/-- floor (sqrt n). -/
def isqrt (n : Nat) : Nat := isqrtAux n (n.log2 / 2 + 1) 0

/-- The nearest integer to n / d (d > 0), ties to even. -/
def rneDivNat (n d : Nat) : Nat :=
  let q := n / d
  let r := n % d
  if 2 * r > d then q + 1 else if 2 * r = d then q + q % 2 else q

/-- The nearest integer to m × 2^k, ties to even (R66). -/
def rneScale (m : Nat) (k : Int) : Nat :=
  if 0 ≤ k then m <<< k.toNat else rneDivNat m (2 ^ (-k).toNat)

end Sys2Proof.Machine
end

