-- ==== Sys2Proof/Machine/Desc.lean ====
section
/-! DEFINITION. The structures of spec/02: handle descriptors (R21, R22), tile references (R25, R26), program
headers and operation descriptors (R28, R29), each with its words, its decoding and its encoding. -/

namespace Sys2Proof.Machine

/-- Four numbers, one for each dimension of a tensor. -/
structure Dim4 where
  d0 : Nat
  d1 : Nat
  d2 : Nat
  d3 : Nat
  deriving DecidableEq, Repr

def Dim4.get (x : Dim4) : Nat → Nat
  | 0 => x.d0
  | 1 => x.d1
  | 2 => x.d2
  | _ => x.d3

def Dim4.toList (x : Dim4) : List Nat := [x.d0, x.d1, x.d2, x.d3]
def Dim4.prod (x : Dim4) : Nat := x.d0 * x.d1 * x.d2 * x.d3
def Dim4.zip (f : Nat → Nat → Nat) (x y : Dim4) : Dim4 :=
  ⟨f x.d0 y.d0, f x.d1 y.d1, f x.d2 y.d2, f x.d3 y.d3⟩
/-- The number of a place in a box of extents `n`: t0 + n0 × (t1 + n1 × (t2 + n2 × t3)). -/
def Dim4.lin (n t : Dim4) : Nat := t.d0 + n.d0 * (t.d1 + n.d1 * (t.d2 + n.d2 * t.d3))
/-- The place in a box of extents `n` whose number is `k`. -/
def Dim4.ofLin (n : Dim4) (k : Nat) : Dim4 :=
  ⟨k % n.d0, k / n.d0 % n.d1, k / n.d0 / n.d1 % n.d2, k / n.d0 / n.d1 / n.d2⟩
def Dim4.set (x : Dim4) (i v : Nat) : Dim4 :=
  match i with
  | 0 => { x with d0 := v }
  | 1 => { x with d1 := v }
  | 2 => { x with d2 := v }
  | _ => { x with d3 := v }

/-- Element formats, by their codes (R21). -/
inductive Fmt where
  | q4 | q8 | w16 | bf16 | fp32 | u32 | u64
  deriving DecidableEq, Repr

def Fmt.code : Fmt → Nat
  | .q4 => 0 | .q8 => 1 | .w16 => 2 | .bf16 => 3 | .fp32 => 4 | .u32 => 5 | .u64 => 6
def Fmt.ofCode : Nat → Option Fmt
  | 0 => some .q4 | 1 => some .q8 | 2 => some .w16 | 3 => some .bf16 | 4 => some .fp32
  | 5 => some .u32 | 6 => some .u64 | _ => none
/-- Is it a block format (R55)? -/
def Fmt.isBlock : Fmt → Bool
  | .q4 | .q8 | .w16 => true
  | _ => false
def Fmt.isFloat : Fmt → Bool
  | .bf16 | .fp32 => true
  | _ => false
def Fmt.isIndex : Fmt → Bool
  | .u32 | .u64 => true
  | _ => false
/-- Bytes per element of a plain format (R54). -/
def Fmt.eltBytes : Fmt → Nat
  | .bf16 => 2 | .u64 => 8 | _ => 4

/-- A handle descriptor (R21), its fields read out of the eight words. -/
structure HDesc where
  handle   : Nat
  fmtCode  : Nat
  cls      : Nat
  rankM1   : Nat
  redAxis  : Nat
  scaleBase : Nat
  fixedScale : Bool
  valid    : Bool
  rotSize  : Nat
  ovfThreshold : Nat
  hotLimit : Nat
  ext      : Dim4
  tile     : Dim4
  layer    : Nat
  rotSeed  : Nat
  placeMap : Nat
  placeGen : Nat
  histAddr : Nat
  deriving DecidableEq, Repr

def HDesc.fmt (d : HDesc) : Fmt := (Fmt.ofCode d.fmtCode).getD .q4

/-- The reserved bits of words 0 to 5 are zero (R21). -/
def descResvOk (ws : List Nat) : Bool :=
  fld (ws.getD 0 0) 47 44 == 0 && fld (ws.getD 5 0) 31 16 == 0

/-- The descriptor that eight words hold. -/
def HDesc.ofWords (ws : List Nat) : HDesc :=
  let w (i : Nat) : Nat := ws.getD i 0
  { handle := fld (w 0) 19 0, fmtCode := fld (w 0) 23 20, cls := fld (w 0) 27 24
    rankM1 := fld (w 0) 29 28, redAxis := fld (w 0) 31 30, scaleBase := fld (w 0) 39 32
    fixedScale := bitAt (w 0) 40, valid := bitAt (w 0) 41, rotSize := fld (w 0) 43 42
    ovfThreshold := fld (w 0) 55 48, hotLimit := fld (w 0) 63 56
    ext := ⟨fld (w 1) 47 0, fld (w 2) 47 0, fld (w 3) 47 0, fld (w 4) 47 0⟩
    tile := ⟨fld (w 1) 63 48, fld (w 2) 63 48, fld (w 3) 63 48, fld (w 4) 63 48⟩
    layer := fld (w 5) 15 0, rotSeed := fld (w 5) 63 32
    placeMap := fld (w 6) 47 0, placeGen := fld (w 6) 63 48, histAddr := fld (w 7) 47 0 }

/-- The eight words of a descriptor. -/
def HDesc.toWords (d : HDesc) : List Nat :=
  [ d.handle + d.fmtCode * 2 ^ 20 + d.cls * 2 ^ 24 + d.rankM1 * 2 ^ 28 + d.redAxis * 2 ^ 30
      + d.scaleBase * 2 ^ 32 + d.fixedScale.toNat * 2 ^ 40 + d.valid.toNat * 2 ^ 41
      + d.rotSize * 2 ^ 42 + d.ovfThreshold * 2 ^ 48 + d.hotLimit * 2 ^ 56,
    d.ext.d0 + d.tile.d0 * 2 ^ 48, d.ext.d1 + d.tile.d1 * 2 ^ 48,
    d.ext.d2 + d.tile.d2 * 2 ^ 48, d.ext.d3 + d.tile.d3 * 2 ^ 48,
    d.layer + d.rotSeed * 2 ^ 32, d.placeMap + d.placeGen * 2 ^ 48, d.histAddr ]

/-- Every field of the descriptor fits its bits. -/
def HDesc.fits (d : HDesc) : Bool :=
  d.handle < 2 ^ 20 && d.fmtCode < 16 && d.cls < 16 && d.rankM1 < 4 && d.redAxis < 4
  && d.scaleBase < 256 && d.rotSize < 4 && d.ovfThreshold < 256 && d.hotLimit < 256
  && d.ext.toList.all (· < 2 ^ 48) && d.tile.toList.all (· < 2 ^ 16)
  && d.layer < 2 ^ 16 && d.rotSeed < 2 ^ 32 && d.placeMap < 2 ^ 48 && d.placeGen < 2 ^ 16
  && d.histAddr < 2 ^ 48

/-- Tiles along each dimension: ceil(extent / tile) (R26). -/
def HDesc.tiles (d : HDesc) : Dim4 := Dim4.zip ceilDiv d.ext d.tile
/-- The tensor's number of tiles. -/
def HDesc.tileCount (d : HDesc) : Nat := d.tiles.prod
/-- A tile's extent along the reduction axis, R of R55. -/
def HDesc.red (d : HDesc) : Nat := d.tile.get d.redAxis
/-- N of R54. -/
def HDesc.elts (d : HDesc) : Nat := d.tile.prod
/-- P = N / R of R63. -/
def HDesc.others (d : HDesc) : Nat := d.elts / d.red

/-- The checks of R22 on the words of a HANDLE_WRITE to entry `index`. -/
def descOk (index : Nat) (ws : List Nat) : Bool :=
  let d := HDesc.ofWords ws
  let used (i : Nat) : Bool := decide (i ≤ d.rankM1)
  let dimOk (i : Nat) : Bool :=
    if used i then d.ext.get i != 0 && d.tile.get i != 0 else d.ext.get i == 1 && d.tile.get i == 1
  descResvOk ws && (Fmt.ofCode d.fmtCode).isSome && d.cls ≤ 8 && d.valid && d.handle == index
  && dimOk 0 && dimOk 1 && dimOk 2 && dimOk 3
  && d.elts ≤ 1048576
  && d.tiles.d0 ≤ 2 ^ 32 && d.tiles.d1 ≤ 2 ^ 32 && d.tiles.d2 ≤ 2 ^ 16 && d.tiles.d3 ≤ 2 ^ 16
  && (if d.fmt.isBlock then d.red % 32 == 0 && d.redAxis ≤ d.rankM1
      else d.scaleBase == 0 && !d.fixedScale && d.rotSize == 0 && d.ovfThreshold == 0
        && d.hotLimit == 0 && d.rotSeed == 0)
  && d.hotLimit ≤ 16

/-! ### Tile references (R25) -/

def refOfWords (a b : Nat) : TileRef :=
  { handle := fld a 19 0, t0 := fld a 63 32, t1 := fld b 31 0, t2 := fld b 47 32, t3 := fld b 63 48 }
def refResvOk (a : Nat) : Bool := fld a 31 20 == 0
def refWords (r : TileRef) : List Nat :=
  [r.handle + r.t0 * 2 ^ 32, r.t1 + r.t2 * 2 ^ 32 + r.t3 * 2 ^ 48]
def refCoord (r : TileRef) : Dim4 := ⟨r.t0, r.t1, r.t2, r.t3⟩
/-- Do the coordinates name a tile of the tensor (R25)? -/
def refInRange (d : HDesc) (r : TileRef) : Bool :=
  let n := d.tiles
  r.t0 < n.d0 && r.t1 < n.d1 && r.t2 < n.d2 && r.t3 < n.d3
/-- The logical tile number (R26). -/
def refTile (d : HDesc) (r : TileRef) : Nat := Dim4.lin d.tiles (refCoord r)
def refFits (r : TileRef) : Bool :=
  r.handle < 2 ^ 20 && r.t0 < 2 ^ 32 && r.t1 < 2 ^ 32 && r.t2 < 2 ^ 16 && r.t3 < 2 ^ 16

/-! ### Operation descriptors (R29) -/

/-- The tile operations of R30. -/
inductive OpKind where
  | copy | bagSum | bagMean | bagMax | gradMerge
  | quant | measure | dequant
  | gemm
  | elementwise | norm | softmax | reduceSum | reduceMax | reduceMin
  | update | rowUpdate | snapshot
  | put | get | putSignal | collective
  | sync | barrier | stepBoundary | opEnd
  deriving DecidableEq, Repr

/-- The station code and opcode of an operation (R30). -/
def OpKind.codes : OpKind → Nat × Nat
  | .copy => (1, 1) | .bagSum => (1, 2) | .bagMean => (1, 3) | .bagMax => (1, 4) | .gradMerge => (1, 5)
  | .quant => (2, 1) | .measure => (2, 2) | .dequant => (2, 3)
  | .gemm => (3, 1)
  | .elementwise => (4, 1) | .norm => (4, 2) | .softmax => (4, 3) | .reduceSum => (4, 4)
  | .reduceMax => (4, 5) | .reduceMin => (4, 6)
  | .update => (5, 1) | .rowUpdate => (5, 2) | .snapshot => (5, 3)
  | .put => (6, 1) | .get => (6, 2) | .putSignal => (6, 3) | .collective => (6, 4)
  | .sync => (15, 1) | .barrier => (15, 2) | .stepBoundary => (15, 3) | .opEnd => (15, 4)

/-- Every operation of R30. -/
def OpKind.all : List OpKind :=
  [.copy, .bagSum, .bagMean, .bagMax, .gradMerge, .quant, .measure, .dequant, .gemm, .elementwise, .norm,
   .softmax, .reduceSum, .reduceMax, .reduceMin, .update, .rowUpdate, .snapshot, .put, .get, .putSignal,
   .collective, .sync, .barrier, .stepBoundary, .opEnd]

def OpKind.ofCodes (st opc : Nat) : Option OpKind :=
  OpKind.all.find? fun k => k.codes == (st, opc)

/-- The station kind that runs the operation; none for the control operations. -/
def OpKind.station : OpKind → Option StKind
  | .copy | .bagSum | .bagMean | .bagMax | .gradMerge => some .gather
  | .quant | .measure | .dequant => some .marver
  | .gemm => some .bench
  | .elementwise | .norm | .softmax | .reduceSum | .reduceMax | .reduceMin => some .jacks
  | .update | .rowUpdate | .snapshot => some .lehr
  | .put | .get | .putSignal | .collective => some .pontil
  | .sync | .barrier | .stepBoundary | .opEnd => none

/-- How many tile references the operation may have (R30). -/
def OpKind.nrefsOk (k : OpKind) (n : Nat) : Bool :=
  match k with
  | .copy | .quant | .dequant | .softmax | .reduceSum | .put | .get | .putSignal | .snapshot => n == 2
  | .bagSum | .bagMean | .gradMerge => n == 4
  | .bagMax => n == 5
  | .measure | .sync | .barrier | .stepBoundary | .opEnd => n == 1
  | .gemm | .norm | .reduceMax | .reduceMin | .update | .rowUpdate => n == 3
  | .elementwise => 2 ≤ n && n ≤ 4
  | .collective => 1 ≤ n && n ≤ 6

/-- An operation descriptor (R29), decoded. -/
structure Op where
  kind      : OpKind
  waitEn    : Bool
  signalEn  : Bool
  acc       : Bool
  waitCtr   : Nat
  waitCount : Nat
  signalCtr : Nat
  param     : Nat
  refs      : List TileRef
  deriving DecidableEq, Repr

/-- The words of an operation. -/
def Op.toWords (o : Op) : List Nat :=
  (o.kind.codes.1 + o.kind.codes.2 * 2 ^ 4 + o.refs.length * 2 ^ 12 + o.waitEn.toNat * 2 ^ 16
    + o.signalEn.toNat * 2 ^ 17 + o.acc.toNat * 2 ^ 18 + o.waitCtr * 2 ^ 32 + o.waitCount * 2 ^ 48)
  :: (o.signalCtr + o.param * 2 ^ 32)
  :: o.refs.flatMap refWords

/-- The reference words of `n` references. -/
def refsOfWords : Nat → List Nat → List TileRef
  | 0, _ => []
  | n + 1, ws => refOfWords (ws.getD 0 0) (ws.getD 1 0) :: refsOfWords n (ws.drop 2)

def refsResvOk : Nat → List Nat → Bool
  | 0, _ => true
  | n + 1, ws => refResvOk (ws.getD 0 0) && refsResvOk n (ws.drop 2)

/-- Decode one operation from words; none where a reserved field, a reserved encoding, a station, opcode or
reference count is not of R29 and R30, or where wait or signal fields are nonzero without their flag. -/
def Op.ofWords (ws : List Nat) : Option Op :=
  let w0 := ws.getD 0 0
  let w1 := ws.getD 1 0
  let n := fld w0 14 12
  match OpKind.ofCodes (fld w0 3 0) (fld w0 11 4) with
  | none => none
  | some k =>
    let o : Op :=
      { kind := k, waitEn := bitAt w0 16, signalEn := bitAt w0 17, acc := bitAt w0 18
        waitCtr := fld w0 43 32, waitCount := fld w0 55 48, signalCtr := fld w1 11 0, param := fld w1 63 32
        refs := refsOfWords n (ws.drop 2) }
    if k.nrefsOk n && !bitAt w0 15 && fld w0 31 19 == 0 && fld w0 47 44 == 0 && fld w0 63 56 == 0
        && fld w1 31 12 == 0 && refsResvOk n (ws.drop 2)
        && (o.waitEn || (o.waitCtr == 0 && o.waitCount == 0)) && (o.signalEn || o.signalCtr == 0)
        && (!o.waitEn || o.waitCount != 0)
    then some o else none

/-- The number of words the operation at the head of `ws` claims: 2 + 2 × nrefs (R29). -/
def opWords (ws : List Nat) : Nat := 2 + 2 * fld (ws.getD 0 0) 14 12

/-- Split the operation words into operations' words, `n` of them; none where they do not fill the words exactly. -/
def splitOps : Nat → List Nat → Option (List (List Nat))
  | 0, ws => if ws.isEmpty then some [] else none
  | n + 1, ws =>
    let k := opWords ws
    if ws.length < k then none
    else match splitOps n (ws.drop k) with
      | none => none
      | some r => some (ws.take k :: r)

/-- An operation whose fields fit their bits and that R29 and R30 accept by form. -/
def Op.wf (o : Op) : Bool :=
  o.kind.nrefsOk o.refs.length && o.waitCtr < 2 ^ 12 && o.waitCount < 2 ^ 8 && o.signalCtr < 2 ^ 12
  && o.param < 2 ^ 32 && o.refs.all refFits
  && (o.waitEn || (o.waitCtr == 0 && o.waitCount == 0)) && (o.signalEn || o.signalCtr == 0)
  && (!o.waitEn || o.waitCount != 0)

/-! ### Programs (R28) -/

/-- Kinds of program (R28). -/
inductive ProgKind where
  | inference | forward | backward | update | general
  deriving DecidableEq, Repr

def ProgKind.ofCode : Nat → Option ProgKind
  | 0 => some .inference | 1 => some .forward | 2 => some .backward | 3 => some .update | 4 => some .general
  | _ => none
def ProgKind.code : ProgKind → Nat
  | .inference => 0 | .forward => 1 | .backward => 2 | .update => 3 | .general => 4

/-- The words of a byte string. -/
def wordsOf (bs : Bytes) : List Nat := (pieces 8 (bs.length / 8) bs).map ofLe
/-- The bytes of 64-bit words. -/
def bytesOf (ws : List Nat) : Bytes := ws.flatMap (toLe 8)

/-- The four header words of a program. -/
def headerWords (k : ProgKind) (opCount numerics byteLength : Nat) : List Nat :=
  [1 + k.code * 2 ^ 8 + opCount * 2 ^ 32, numerics, byteLength, 0]

/-- The header's own checks of R33, check 1: version, kind, op_count, reserved fields, byte_length. -/
def headerOk (ws : List Nat) (cmdLength : Nat) : Bool :=
  let w (i : Nat) : Nat := ws.getD i 0
  4 ≤ ws.length && fld (w 0) 7 0 == 1 && (ProgKind.ofCode (fld (w 0) 11 8)).isSome
  && fld (w 0) 31 12 == 0 && 1 ≤ fld (w 0) 63 32 && fld (w 0) 63 32 ≤ 1048576
  && fld (w 1) 63 32 == 0 && fld (w 2) 63 32 == 0 && w 3 == 0 && fld (w 2) 31 0 == cmdLength

/-- A program's words from its operations. -/
def programWords (k : ProgKind) (numerics : Nat) (ops : List Op) : List Nat :=
  let body := ops.flatMap Op.toWords
  headerWords k ops.length numerics (32 + 8 * body.length) ++ body

end Sys2Proof.Machine
end

