-- ==== Sys2Proof/Machine/Fp.lean ====
section
/-! DEFINITION. Binary floating point as the tensor path uses it: FP32 and BF16 (R75 to R79), binary64 where R173
asks for it, and the correctly rounded primitives of R137. Every operation converts its operands to exact
numbers, computes exactly, and rounds once, to nearest even. -/

namespace Sys2Proof.Machine

/-- A binary format: fraction bits and exponent bias. -/
structure FpFmt where
  mb : Nat
  bias : Nat
  deriving DecidableEq, Repr

def f32 : FpFmt := ⟨23, 127⟩
def f64 : FpFmt := ⟨52, 1023⟩

/-- A decoded floating-point datum. A NaN keeps its bits, already made quiet (R78); a finite number is
(-1)^neg × m × 2^e. -/
inductive Num where
  | nan (bits : Nat)
  | inf (neg : Bool)
  | fin (neg : Bool) (m : Nat) (e : Int)
  deriving DecidableEq, Repr

/-- Bits in the encoding, without the sign. -/
def FpFmt.top (f : FpFmt) : Nat := 2 * (f.bias + 1) * 2 ^ f.mb
/-- The encoding of infinity. -/
def FpFmt.infBits (f : FpFmt) : Nat := (2 * f.bias + 1) * 2 ^ f.mb
/-- The default NaN (R78). -/
def FpFmt.defNan (f : FpFmt) : Nat := f.infBits + 2 ^ (f.mb - 1)
/-- The exponent of the least significant bit of a subnormal. -/
def FpFmt.qmin (f : FpFmt) : Int := 1 - (f.bias : Int) - (f.mb : Int)

/-- The datum that bits stand for. -/
def FpFmt.decode (f : FpFmt) (w : Nat) : Num :=
  let neg := decide (f.top ≤ w)
  let a := w % f.top
  let ex := a / 2 ^ f.mb
  let fr := a % 2 ^ f.mb
  if f.infBits < a then .nan (if bitAt w (f.mb - 1) then w else w + 2 ^ (f.mb - 1))
  else if a = f.infBits then .inf neg
  else if ex = 0 then .fin neg fr f.qmin
  else .fin neg (fr + 2 ^ f.mb) (f.qmin + ((ex : Int) - 1))

/-- Put a sign on the bits of a magnitude. -/
def FpFmt.sign (f : FpFmt) (neg : Bool) (a : Nat) : Nat := if neg then f.top + a else a

/-- Round (-1)^neg × m × 2^e to nearest even, subnormals kept, overflow to infinity (R75). -/
def FpFmt.round (f : FpFmt) (neg : Bool) (m : Nat) (e : Int) : Nat :=
  if m = 0 then f.sign neg 0 else
  let q := max ((m.log2 : Int) + e - (f.mb : Int)) f.qmin
  let mant := rneScale m (e - q)
  let bits := (q - f.qmin).toNat * 2 ^ f.mb + mant
  f.sign neg (min bits f.infBits)

/-- Encode a datum. -/
def FpFmt.encode (f : FpFmt) : Num → Nat
  | .nan b => b
  | .inf n => f.sign n f.infBits
  | .fin n m e => f.round n m e

/-- An integer times 2^e as a datum; zero is +0. -/
def Num.ofInt (i : Int) (e : Int) : Num := .fin (decide (i < 0)) i.natAbs e

/-- The signed integer of a finite datum aligned to exponent `q` (q at most its own). -/
def Num.align (neg : Bool) (m : Nat) (e q : Int) : Int :=
  let v : Int := ((m <<< (e - q).toNat : Nat) : Int)
  if neg then -v else v

/-- An exact sum with one rounding (R75, R78). -/
def FpFmt.addN (f : FpFmt) (a b : Num) : Nat :=
  match a, b with
  | .nan x, _ => x
  | _, .nan y => y
  | .inf s, .inf t => if s = t then f.sign s f.infBits else f.defNan
  | .inf s, _ => f.sign s f.infBits
  | _, .inf t => f.sign t f.infBits
  | .fin s m e, .fin t n g =>
    let q := min e g
    let v := Num.align s m e q + Num.align t n g q
    if v = 0 then f.sign (s && t && m == 0 && n == 0) 0
    else f.round (decide (v < 0)) v.natAbs q

/-- The datum with its sign changed; a NaN stays as it is. -/
def Num.neg : Num → Num
  | .nan b => .nan b
  | .inf s => .inf (!s)
  | .fin s m e => .fin (!s) m e

/-- The exact product as a datum (infinity times zero gives the default NaN). -/
def FpFmt.mulX (f : FpFmt) (a b : Num) : Num :=
  match a, b with
  | .nan x, _ => .nan x
  | _, .nan y => .nan y
  | .inf s, .inf t => .inf (s != t)
  | .inf s, .fin t n _ => if n = 0 then .nan f.defNan else .inf (s != t)
  | .fin s m _, .inf t => if m = 0 then .nan f.defNan else .inf (s != t)
  | .fin s m e, .fin t n g => .fin (s != t) (m * n) (e + g)

/-- A quotient with one rounding. x / 0 is an infinity, 0 / 0 and inf / inf the default NaN. -/
def FpFmt.divN (f : FpFmt) (a b : Num) : Nat :=
  match a, b with
  | .nan x, _ => x
  | _, .nan y => y
  | .inf _, .inf _ => f.defNan
  | .inf s, .fin t _ _ => f.sign (s != t) f.infBits
  | .fin s _ _, .inf t => f.sign (s != t) 0
  | .fin s m e, .fin t n g =>
    if n = 0 then (if m = 0 then f.defNan else f.sign (s != t) f.infBits)
    else
      let k := 2 * f.mb + 8 + n.log2
      let num := m <<< k
      let q := num / n
      let st := if num % n = 0 then 0 else 1
      f.round (s != t) (2 * q + st) (e - g - k - 1)

/-- A square root with one rounding. The root of a negative number other than −0 is the default NaN. -/
def FpFmt.sqrtN (f : FpFmt) (a : Num) : Nat :=
  match a with
  | .nan x => x
  | .inf s => if s then f.defNan else f.infBits
  | .fin s m e =>
    if m = 0 then f.sign s 0 else if s then f.defNan else
    let k : Nat := 2 * f.mb + 16
    -- make the exponent even
    let odd := if e % 2 = 0 then 0 else 1
    let n := m <<< (2 * k + odd)
    let r := isqrt n
    let st := if r * r = n then 0 else 1
    f.round false (2 * r + st) ((e - odd) / 2 - k - 1)

/-- 1 / sqrt(x) with one rounding. rsqrt(±0) is an infinity of its sign. -/
def FpFmt.rsqrtN (f : FpFmt) (a : Num) : Nat :=
  match a with
  | .nan x => x
  | .inf s => if s then f.defNan else 0
  | .fin s m e =>
    if m = 0 then f.sign s f.infBits else if s then f.defNan else
    let odd := if e % 2 = 0 then 0 else 1
    let n := m <<< odd
    let k : Nat := 2 * f.mb + 16 + n.log2
    let num := 2 ^ (2 * k)
    let r := isqrt (num / n)
    let st := if r * r * n = num then 0 else 1
    f.round false (2 * r + st) (-((e - odd) / 2) - k - 1)

/-! ### FP32 -/

def dec32 (w : Word) : Num := f32.decode w.toNat
def enc32 (n : Nat) : Word := BitVec.ofNat 32 n
def fpAdd (a b : Word) : Word := enc32 (f32.addN (dec32 a) (dec32 b))
def fpSub (a b : Word) : Word := enc32 (f32.addN (dec32 a) (dec32 b).neg)
def fpMul (a b : Word) : Word := enc32 (f32.encode (f32.mulX (dec32 a) (dec32 b)))
def fpDiv (a b : Word) : Word := enc32 (f32.divN (dec32 a) (dec32 b))
def fpSqrt (a : Word) : Word := enc32 (f32.sqrtN (dec32 a))
def fpRsqrt (a : Word) : Word := enc32 (f32.rsqrtN (dec32 a))

/-- Is it a NaN? -/
def isNan (w : Word) : Bool := match dec32 w with | .nan _ => true | _ => false
/-- Is it an infinity? -/
def isInf (w : Word) : Bool := match dec32 w with | .inf _ => true | _ => false
/-- Is it finite? -/
def isFin (w : Word) : Bool := match dec32 w with | .fin _ _ _ => true | _ => false
/-- A NaN made quiet (R78). -/
def quiet (w : Word) : Word := if isNan w then w ||| 0x00400000#32 else w
def defNan32 : Word := 0x7FC00000#32
def one32 : Word := 0x3F800000#32
/-- The sign bit. -/
def signBit (w : Word) : Bool := w.getLsbD 31
def fpNeg (w : Word) : Word := w ^^^ 0x80000000#32
def fpAbs (w : Word) : Word := w &&& 0x7FFFFFFF#32

/-- An order on non-NaN bits that puts −0 below +0. -/
def totalKey (w : Word) : Int :=
  if signBit w then -((fpAbs w).toNat : Int) - 1 else (w.toNat : Int)

/-- IEEE 754-2019 less-than: false when unordered, −0 and +0 equal (R79). -/
def fpLt (a b : Word) : Bool :=
  if isNan a || isNan b then false
  else
    let v (w : Word) : Int := if signBit w then -((fpAbs w).toNat : Int) else (w.toNat : Int)
    decide (v a < v b)

def fpEq (a b : Word) : Bool :=
  if isNan a || isNan b then false
  else decide (a = b) || decide (fpAbs a = 0 ∧ fpAbs b = 0)

/-- IEEE 754-2019 maximum (R79). -/
def fpMax (a b : Word) : Word :=
  if isNan a then quiet a else if isNan b then quiet b
  else if totalKey a < totalKey b then b else a

/-- IEEE 754-2019 minimum (R79). -/
def fpMin (a b : Word) : Word :=
  if isNan a then quiet a else if isNan b then quiet b
  else if totalKey b < totalKey a then b else a

/-- Conversion to BF16, bit for bit (R77). -/
def toBf16 (f : Word) : Half :=
  if f &&& 0x7F800000#32 = 0x7F800000#32 ∧ f &&& 0x007FFFFF#32 ≠ 0 then
    ((f >>> 16).setWidth 16) ||| 0x0040#16
  else
    let lsb := (f >>> 16) &&& 1#32
    ((f + 0x00007FFF#32 + lsb) >>> 16).setWidth 16

/-- BF16 widened exactly (R76). -/
def ofBf16 (h : Half) : Word := (h.setWidth 32) <<< 16

/-- An FP32 result rounded again to BF16 and widened: the second rounding of R76. -/
def bfRound (w : Word) : Word := ofBf16 (toBf16 w)

/-- i × 2^e rounded once to FP32; zero is +0 (R61). -/
def fpOfInt (i : Int) (e : Int) : Word := enc32 (f32.encode (Num.ofInt i e))

/-- The FP32 value of n / d, one rounding. -/
def fpOfRatio (n d : Int) : Word := enc32 (f32.divN (Num.ofInt n 0) (Num.ofInt d 0))

/-- The exact dot product of pairs and an addend, rounded once. Used where a rule asks for exact products and one
rounding of their sum: any NaN operand wins in operand order; opposite infinities give the default NaN. -/
def sumExact (f : FpFmt) (xs : List Num) : Nat :=
  match xs.findSome? fun n => match n with | .nan b => some b | _ => none with
  | some b => b
  | none =>
    let infs := xs.filterMap fun n => match n with | .inf s => some s | _ => none
    if infs.contains true && infs.contains false then f.defNan
    else match infs with
    | s :: _ => f.sign s f.infBits
    | [] =>
      let fins := xs.filterMap fun n => match n with | .fin s m e => some (s, m, e) | _ => none
      let q := fins.foldl (fun a t => min a t.2.2) 0
      let v := fins.foldl (fun a t => a + Num.align t.1 t.2.1 t.2.2 q) (0 : Int)
      if v = 0 then
        f.sign (!fins.isEmpty && fins.all fun t => t.1 && t.2.1 == 0) 0
      else f.round (decide (v < 0)) v.natAbs q

/-- a × b + c with one rounding. -/
def fpFma (a b c : Word) : Word :=
  enc32 (sumExact f32 [f32.mulX (dec32 a) (dec32 b), dec32 c])

/-! ### Correctly rounded exp, log and tanh (R137), by fixed-point integers of 256 fraction bits.
A value of these functions at a nonzero FP32 argument is never a rounding tie, so the appended sticky bit stands
for the discarded tail. -/

def fxP : Nat := 256
def fxOne : Int := ((2 ^ fxP : Nat) : Int)
/-- Fixed-point product. -/
def fxMul (a b : Int) : Int := a * b / fxOne

/-- atanh z in fixed point by its series, `k` terms left, term index `i`, power `p = z^(2i+1)`. -/
def fxAtanhAux (z2 : Int) : Nat → Nat → Int → Int → Int
  | 0, _, _, acc => acc
  | k + 1, i, p, acc => fxAtanhAux z2 k (i + 1) (fxMul p z2) (acc + p / ((2 * i + 1 : Nat) : Int))
/-- atanh z for |z| at most 1/3. -/
def fxAtanh (z : Int) : Int := fxAtanhAux (fxMul z z) 100 0 z 0
/-- ln 2. -/
def fxLn2 : Int := 2 * fxAtanh (fxOne / 3)

/-- The Taylor series of exp at a small argument. -/
def fxExpAux (x : Int) : Nat → Nat → Int → Int → Int
  | 0, _, _, acc => acc
  | k + 1, i, t, acc => fxExpAux x k (i + 1) (fxMul t x / ((i + 1 : Nat) : Int)) (acc + t)
/-- exp r for 0 ≤ r < ln 2. -/
def fxExpSmall (r : Int) : Int := fxExpAux r 70 0 fxOne 0

/-- A finite datum in fixed point, truncated. -/
def fxOf (neg : Bool) (m : Nat) (e : Int) : Int :=
  let k := e + fxP
  let v : Int := if 0 ≤ k then ((m <<< k.toNat : Nat) : Int) else ((m >>> (-k).toNat : Nat) : Int)
  if neg then -v else v

/-- exp x as (mantissa, exponent): the value is about mantissa × 2^exponent. -/
def fxExp (x : Int) : Nat × Int :=
  let k := x / fxLn2
  let r := x - k * fxLn2
  ((fxExpSmall r).toNat, k - fxP)

/-- The correctly rounded exponential. -/
def fpExp (w : Word) : Word :=
  match dec32 w with
  | .nan b => enc32 b
  | .inf true => 0
  | .inf false => 0x7F800000#32
  | .fin s m e =>
    if m = 0 then one32
    else if (m.log2 : Int) + e ≥ 8 then (if s then 0 else 0x7F800000#32)
    else
      let (a, g) := fxExp (fxOf s m e)
      enc32 (f32.round false (2 * a + 1) (g - 1))

/-- The correctly rounded natural logarithm: log(±0) is −infinity, of a negative number the default NaN. -/
def fpLog (w : Word) : Word :=
  match dec32 w with
  | .nan b => enc32 b
  | .inf true => defNan32
  | .inf false => 0x7F800000#32
  | .fin s m e =>
    if m = 0 then 0xFF800000#32 else if s then defNan32
    else if w = one32 then 0
    else
      let k : Int := (m.log2 : Int) + e
      let f : Int := ((m <<< (fxP - m.log2) : Nat) : Int)
      let z := (f - fxOne) * fxOne / (f + fxOne)
      let v := 2 * fxAtanh z + k * fxLn2
      enc32 (f32.round (decide (v < 0)) (2 * v.natAbs + 1) (-(fxP : Int) - 1))

/-- The correctly rounded hyperbolic tangent; tanh(±0) is ±0. -/
def fpTanh (w : Word) : Word :=
  match dec32 w with
  | .nan b => enc32 b
  | .inf s => if s then 0xBF800000#32 else one32
  | .fin s m e =>
    if m = 0 then w
    else
      let top : Int := (m.log2 : Int) + e
      if top ≤ -14 then w
      else if top ≥ 5 then (if s then 0xBF800000#32 else one32)
      else
        let x := fxOf false m e
        let (a, g) := fxExp (-2 * x)
        -- e^(−2x) in fixed point
        let t : Int := (rneScale a (g + fxP) : Int)
        let q := (fxOne - t) * fxOne / (fxOne + t)
        enc32 (f32.round s (2 * q.natAbs + 1) (-(fxP : Int) - 1))

end Sys2Proof.Machine
end

