-- ==== Sys2Proof/Machine/Operands.lean ====
section
/-! DEFINITION. The operand forms: how a tile of each format lies in bytes, and how values turn into codes and back
(spec/03, R54 to R83). -/

namespace Sys2Proof.Machine

/-- The geometry of one tile: the tensor's extents, the tile's extents, its coordinates and the reduction axis. -/
structure Geom where
  ext   : Dim4
  tile  : Dim4
  coord : Dim4
  red   : Nat
  deriving DecidableEq, Repr

def geomOf (d : HDesc) (c : Dim4) : Geom := ⟨d.ext, d.tile, c, d.redAxis⟩

/-- N, R, P and Nb of R54, R55 and R63. -/
def Geom.n (g : Geom) : Nat := g.tile.prod
def Geom.r (g : Geom) : Nat := g.tile.get g.red
def Geom.p (g : Geom) : Nat := g.n / g.r
def Geom.nb (g : Geom) : Nat := g.n / 32
/-- Escape segments, S = ceil(Nb / 2,048). -/
def Geom.segs (g : Geom) : Nat := ceilDiv g.nb 2048

/-- Local indices of the element at linear position `p` (R54). -/
def Geom.idx (g : Geom) (p : Nat) : Dim4 := Dim4.ofLin g.tile p
/-- The element's index in the tensor. -/
def Geom.glob (g : Geom) (i : Dim4) : Dim4 :=
  ⟨g.coord.d0 * g.tile.d0 + i.d0, g.coord.d1 * g.tile.d1 + i.d1,
   g.coord.d2 * g.tile.d2 + i.d2, g.coord.d3 * g.tile.d3 + i.d3⟩
/-- Does the element lie inside the tensor's extent (R27)? -/
def Geom.inside (g : Geom) (i : Dim4) : Bool :=
  let x := g.glob i
  x.d0 < g.ext.d0 && x.d1 < g.ext.d1 && x.d2 < g.ext.d2 && x.d3 < g.ext.d3
/-- The other extents, with the reduction axis counted as 1. -/
def Geom.otherBox (g : Geom) : Dim4 := g.tile.set g.red 1
/-- o of R55. -/
def Geom.oOf (g : Geom) (i : Dim4) : Nat := Dim4.lin g.otherBox (i.set g.red 0)
/-- The local indices of the element at position `o` of the other coordinates and reduction index `r`. -/
def Geom.at (g : Geom) (o r : Nat) : Dim4 := (Dim4.ofLin g.otherBox o).set g.red r
/-- Linear position of local indices. -/
def Geom.pos (g : Geom) (i : Dim4) : Nat := Dim4.lin g.tile i
/-- The element of block `b`, lane `l` (R55). -/
def Geom.ofBlock (g : Geom) (b l : Nat) : Dim4 :=
  let k := g.r / 32
  g.at (b / k) (b % k * 32 + l)
/-- The block and lane of an element. -/
def Geom.block (g : Geom) (i : Dim4) : Nat × Nat :=
  let r := i.get g.red
  (r / 32 + g.r / 32 * g.oOf i, r % 32)
/-- The channel of an element: its reduction index over the whole tensor. -/
def Geom.channel (g : Geom) (i : Dim4) : Nat := (g.glob i).get g.red

/-! ### Block formats -/

/-- The value codes and the escape code of a block format (R57 to R59). -/
def Fmt.loCode : Fmt → Int
  | .q4 => 0 | .q8 => -127 | _ => -32767
def Fmt.hiCode : Fmt → Int
  | .q4 => 14 | .q8 => 127 | _ => 32767
def Fmt.escCode : Fmt → Int
  | .q4 => 15 | .q8 => -128 | _ => -32768
/-- Bytes of codes per block. -/
def Fmt.codeBytes : Fmt → Nat
  | .q4 => 16 | .q8 => 32 | _ => 64

/-- Bytes of one hot slice (R63, R70). -/
def hotSliceBytes (p : Nat) : Nat := roundUp (8 + 2 * p) 16

/-- Offsets of the areas of a tile record and its length (R63). -/
def recHdrOff (f : Fmt) (g : Geom) : Nat := 16 + f.codeBytes * g.nb
def recSideOff (f : Fmt) (g : Geom) : Nat := recHdrOff f g + roundUp (2 * g.nb) 16
def recHotOff (f : Fmt) (g : Geom) : Nat := recSideOff f g + 2064 * g.segs
def recLen (f : Fmt) (g : Geom) (hotLimit : Nat) : Nat := recHotOff f g + hotLimit * hotSliceBytes g.p

/-- The bytes a tile of a format takes as stored (R54, R63). -/
def tileBytes (f : Fmt) (g : Geom) (hotLimit : Nat) : Nat :=
  if f.isBlock then recLen f g hotLimit else f.eltBytes * g.n

/-- A block header's fields. -/
structure BlkHdr where
  delta : Nat
  z     : Int
  x     : Nat
  deriving DecidableEq, Repr

/-- Read a 16-bit block header (R57 to R59). -/
def blkHdrOf (f : Fmt) (h : Nat) : BlkHdr :=
  match f with
  | .q4 => ⟨fld h 15 13, (fld h 12 9 : Nat), fld h 8 7⟩
  | .q8 => ⟨fld h 15 13, signedOf 8 (fld h 7 0), fld h 12 11⟩
  | _ => ⟨fld h 15 13, 0, fld h 12 11⟩

/-- Are the header's reserved bits zero, and Z legal? -/
def blkHdrResvOk (f : Fmt) (h : Nat) : Bool :=
  match f with
  | .q4 => fld h 6 0 == 0 && fld h 12 9 != 15
  | .q8 => fld h 10 8 == 0
  | _ => fld h 10 0 == 0

/-- Write a block header. -/
def blkHdrWord (f : Fmt) (b : BlkHdr) : Nat :=
  match f with
  | .q4 => b.delta * 2 ^ 13 + b.z.toNat * 2 ^ 9 + b.x * 2 ^ 7
  | .q8 => b.delta * 2 ^ 13 + b.x * 2 ^ 11 + unsignedOf 8 b.z
  | _ => b.delta * 2 ^ 13 + b.x * 2 ^ 11

/-- A tile record taken apart (R63 to R65, R70), with no judgement of it. -/
structure RawRec where
  fmt      : Fmt
  base     : Nat
  segCount : Nat
  hotCount : Nat
  flags    : Nat
  hdrResv  : Bool
  bytes    : Bytes
  deriving DecidableEq, Repr

/-- The code of lane `l` of block `b`. -/
def recCode (f : Fmt) (bs : Bytes) (b l : Nat) : Int :=
  match f with
  | .q4 => let v := leAt bs (16 + 16 * b + l / 2) 1
    ((if l % 2 = 0 then v % 16 else v / 16 : Nat) : Int)
  | .q8 => signedOf 8 (leAt bs (16 + 32 * b + l) 1)
  | _ => signedOf 16 (leAt bs (16 + 64 * b + 2 * l) 2)

def recBlkWord (f : Fmt) (g : Geom) (bs : Bytes) (b : Nat) : Nat := leAt bs (recHdrOff f g + 2 * b) 2
def recBlkHdr (f : Fmt) (g : Geom) (bs : Bytes) (b : Nat) : BlkHdr := blkHdrOf f (recBlkWord f g bs b)

/-- entry_count, sat_count and nonfinite_lost of a segment (R64). -/
def segHdr (f : Fmt) (g : Geom) (bs : Bytes) (s : Nat) : Nat × Nat × Nat :=
  let o := recSideOff f g + 2064 * s
  (leAt bs o 2, leAt bs (o + 2) 2, leAt bs (o + 4) 2)

/-- Blocks in escape segment `s`. -/
def segBlocks (g : Geom) (s : Nat) : Nat := min 2048 (g.nb - 2048 * s)

/-- The first `entry_count` places of a segment, at most 512 (R65). -/
def segEntries (f : Fmt) (g : Geom) (bs : Bytes) (s : Nat) : List Nat :=
  let o := recSideOff f g + 2064 * s
  (List.range (min 512 (segHdr f g bs s).1)).map fun i => leAt bs (o + 16 + 4 * i) 4

/-- The value of the first usable entry of a segment that names (block, lane) (R74). -/
def escValue (f : Fmt) (g : Geom) (bs : Bytes) (b l : Nat) : Option Half :=
  let s := b / 2048
  match (segEntries f g bs s).find? fun e =>
      fld e 31 21 == b % 2048 && fld e 20 16 == l && fld e 31 21 < segBlocks g s with
  | some e => some (BitVec.ofNat 16 (fld e 15 0))
  | none => none

/-- Hot slice `i`: valid bit, reserved bits zero, channel, and offset of its values. -/
def hotSlice (f : Fmt) (g : Geom) (bs : Bytes) (i : Nat) : Bool × Bool × Nat × Nat :=
  let o := recHotOff f g + i * hotSliceBytes g.p
  let h := leAt bs o 8
  (bitAt h 63, fld h 62 48 == 0, fld h 47 0, o + 8)

/-- The hot slices a station uses, as (channel, offset) (R74): among the first min(hot_count, hot_limit), those
valid, inside the tile's reduction range, and the first to name their channel. -/
def usedSlices (f : Fmt) (g : Geom) (hotLimit : Nat) (bs : Bytes) : List (Nat × Nat) :=
  let n := min (leAt bs 3 1) hotLimit
  let lo := g.coord.get g.red * g.r
  (List.range n).foldl (fun acc i =>
    let (v, _, ch, o) := hotSlice f g bs i
    if v && lo ≤ ch && ch < lo + g.r && !(acc.any fun q => q.1 == ch) then acc ++ [(ch, o)] else acc) []

/-- The form a stored record is decoded as: its own format where the tensor can hold it, else the descriptor's. -/
def recFmt (allowed : List Fmt) (dflt : Fmt) (bs : Bytes) : Fmt :=
  match Fmt.ofCode (leAt bs 0 1) with
  | some f => if allowed.contains f then f else dflt
  | none => dflt

/-- The well-formedness of a record (R73). -/
def recWf (allowed : List Fmt) (g : Geom) (hotLimit : Nat) (bs : Bytes) : Bool :=
  match Fmt.ofCode (leAt bs 0 1) with
  | none => false
  | some f =>
    allowed.contains f && f.isBlock
    && leAt bs 2 1 == g.segs && fld (leAt bs 4 1) 7 2 == 0 && leAt bs 5 11 == 0
    && (List.range g.nb).all (fun b =>
        let w := recBlkWord f g bs b
        let s := b / 2048
        let escs := (List.range 32).countP fun l => recCode f bs b l == f.escCode
        blkHdrResvOk f w && (blkHdrOf f w).x == escs
        && ((segEntries f g bs s).countP fun e => fld e 31 21 == b % 2048) == escs)
    && (List.range g.segs).all (fun s =>
        let es := segEntries f g bs s
        let o := recSideOff f g + 2064 * s
        (segHdr f g bs s).1 ≤ 512 && leAt bs (o + 6) 10 == 0
        && strictAsc (es.map fun e => fld e 31 16)
        && es.all (fun e => fld e 31 21 < segBlocks g s
             && recCode f bs (2048 * s + fld e 31 21) (fld e 20 16) == f.escCode))
    && leAt bs 3 1 ≤ hotLimit
    && (let hs := (List.range hotLimit).map (hotSlice f g bs)
        (allIdx hs fun i h => h.1 == decide (i < leAt bs 3 1) && h.2.1)
        && strictAsc ((hs.filter fun h => h.1).map fun h => h.2.2.1))

/-- What one lane of a block tile holds, as the bench and Cullet see it (R72). -/
inductive Lane where
  | zero                          -- beyond the extent, or an escape code that no entry names (R74, R147)
  | hot (v : Half)                -- a hot channel's value
  | esc (v : Half)                -- an escaped value
  | code (c : Int) (delta : Nat)  -- c − Z and the block's delta
  deriving DecidableEq, Repr

/-- A block tile as decoded: its form, its base and its lanes by local indices. -/
structure BlkTile where
  fmt   : Fmt
  base  : Nat
  lane  : Dim4 → Lane
  delta : Dim4 → Nat

/-- Decode a record (R72, R74). A lane of a hot channel is an outlier lane beyond the extent too, where its value reads as zero (R27,
R147). -/
def readBlk (allowed : List Fmt) (dflt : Fmt) (g : Geom) (hotLimit : Nat) (bs : Bytes) : BlkTile :=
  let f := recFmt allowed dflt bs
  let hs := usedSlices f g hotLimit bs
  { fmt := f, base := leAt bs 1 1
    lane := fun i =>
      let (b, l) := g.block i
      match hs.find? fun q => q.1 == g.channel i with
      | some q => .hot (if g.inside i then BitVec.ofNat 16 (leAt bs (q.2 + 2 * g.oOf i) 2) else 0)
      | none =>
        if !g.inside i then .zero else
        let c := recCode f bs b l
        let h := recBlkHdr f g bs b
        if c = f.escCode then (match escValue f g bs b l with | some v => .esc v | none => .zero)
        else .code (c - h.z) h.delta
    delta := fun i => (recBlkHdr f g bs (g.block i).1).delta }

/-- The value of a lane, rounded once to FP32 (R61, R72). -/
def Lane.value (base : Nat) : Lane → Word
  | .zero => 0
  | .hot v => ofBf16 v
  | .esc v => ofBf16 v
  | .code c dl => fpOfInt c ((base : Int) - 127 - dl)

/-- The value of an element of a plain tile, widened to FP32 (R54, R76). Index formats are not read this way. -/
def plainValue (f : Fmt) (g : Geom) (bs : Bytes) (i : Dim4) : Word :=
  if !g.inside i then 0 else
  match f with
  | .bf16 => ofBf16 (BitVec.ofNat 16 (leAt bs (2 * g.pos i) 2))
  | _ => BitVec.ofNat 32 (leAt bs (4 * g.pos i) 4)

/-- An index element (R80). -/
def indexValue (f : Fmt) (g : Geom) (bs : Bytes) (i : Dim4) : Nat :=
  if f = .u64 then leAt bs (8 * g.pos i) 8 else leAt bs (4 * g.pos i) 4

/-- All elements of a tile's plain bytes from a value function; an element beyond the extent keeps the byte it had
(R27), so `old` is the tile's prior content. -/
def writePlain (f : Fmt) (g : Geom) (old : Bytes) (v : Dim4 → Word) : Bytes :=
  (List.range g.n).flatMap fun p =>
    let i := g.idx p
    if !g.inside i then subBytes old (f.eltBytes * p) f.eltBytes
    else if f = .bf16 then toLe 2 (toBf16 (v i)).toNat else toLe 4 (v i).toNat

/-- As writePlain for index elements. -/
def writeIndex (f : Fmt) (g : Geom) (old : Bytes) (v : Dim4 → Nat) : Bytes :=
  (List.range g.n).flatMap fun p =>
    let i := g.idx p
    if !g.inside i then subBytes old (f.eltBytes * p) f.eltBytes else toLe f.eltBytes (v i)

/-! ### Encoding (R66 to R70) -/

/-- The scale choice of an encoding: the base and, for each block, delta and Z. -/
structure Scales where
  base  : Nat
  delta : Nat → Nat
  z     : Nat → Int

/-- q of R66 step 1 for a finite input. -/
def quantOne (w : Word) (base delta : Nat) (z : Int) : Int :=
  match dec32 w with
  | .fin s m e =>
    let q : Int := (rneScale m (e - ((base : Int) - 127 - delta)) : Nat)
    (if s then -q else q) + z
  | _ => z

/-- The running state of escape allocation in a segment (R67): escapes per block, entries, counts, codes given. -/
structure EscSt where
  perBlk : List (Nat × Nat)
  count  : Nat
  sat    : Nat
  lost   : Nat
  given  : List (Nat × Int)
  sides  : List Nat
  deriving DecidableEq, Repr

def EscSt.init : EscSt := ⟨[], 0, 0, 0, [], []⟩

/-- Offer escape room to one candidate (block-in-segment, lane, value, code if refused, counted as lost). -/
def offerEsc (f : Fmt) (st : EscSt) (c : Nat × Nat × Word × Int × Bool) : EscSt :=
  let (b, l, v, refusedCode, isLost) := c
  let n := mapGetD st.perBlk b 0
  let key := b * 32 + l
  if n < 3 && st.count < 512 then
    { st with perBlk := mapSet st.perBlk b (n + 1), count := st.count + 1
              given := mapSet st.given key f.escCode
              sides := st.sides ++ [key * 65536 + (toBf16 v).toNat] }
  else if isLost then { st with lost := satAdd 65535 st.lost 1, given := mapSet st.given key refusedCode }
  else { st with sat := satAdd 65535 st.sat 1, given := mapSet st.given key refusedCode }

/-- Encode one escape segment: `v` and `skip` by block in segment and lane, `sc` by block in segment (R66, R67). -/
def encSegment (f : Fmt) (nb : Nat) (sc : Scales) (v : Nat → Nat → Word) (skip : Nat → Nat → Bool) : EscSt :=
  let places := (List.range nb).flatMap fun b => (List.range 32).map fun l => (b, l)
  let live := places.filter fun q => !skip q.1 q.2
  let pass1 := live.filterMap fun q =>
    let w := v q.1 q.2
    if isFin w then none
    else some (q.1, q.2, w,
      (if isInf w then (if signBit w then f.loCode else f.hiCode) else sc.z q.1), true)
  let pass2 := live.filterMap fun q =>
    let w := v q.1 q.2
    if !isFin w then none else
    let c := quantOne w sc.base (sc.delta q.1) (sc.z q.1)
    if f.loCode ≤ c ∧ c ≤ f.hiCode then none
    else some (q.1, q.2, w, (if c > f.hiCode then f.hiCode else f.loCode), false)
  (pass1 ++ pass2).foldl (offerEsc f) EscSt.init

/-- The code of a lane after the segment's escapes were given out. -/
def laneCode (sc : Scales) (st : EscSt) (v : Nat → Nat → Word) (skip : Nat → Nat → Bool) (b l : Nat) : Int :=
  if skip b l then sc.z b
  else match mapGet st.given (b * 32 + l) with
    | some c => c
    | none => quantOne (v b l) sc.base (sc.delta b) (sc.z b)

/-- The code bytes of one block. -/
def codeBytesOf (f : Fmt) (code : Nat → Int) : Bytes :=
  match f with
  | .q4 => (List.range 16).map fun k =>
      BitVec.ofNat 8 (unsignedOf 4 (code (2 * k)) + 16 * unsignedOf 4 (code (2 * k + 1)))
  | .q8 => (List.range 32).map fun l => BitVec.ofNat 8 (unsignedOf 8 (code l))
  | _ => (List.range 32).flatMap fun l => toLe 2 (unsignedOf 16 (code l))

/-- The counts an encoding leaves (R64, R68): saturated, lost, escapes in use. -/
structure EncStat where
  sat  : Nat
  lost : Nat
  esc  : Nat
  deriving DecidableEq, Repr

/-- Encode a whole tile to a record (R63 to R70). `v` gives the values by local indices, `hot` the hot channels in
ascending order, `raised` whether the base is above the B in force. -/
def encodeTile (f : Fmt) (g : Geom) (hotLimit : Nat) (sc : Scales) (hot : List Nat) (raised : Bool)
    (v : Dim4 → Word) : Bytes × EncStat :=
  let lo := g.coord.get g.red * g.r
  let mine := (hot.filter fun c => lo ≤ c && c < lo + g.r).take hotLimit
  let skipAt (i : Dim4) : Bool := !g.inside i || mine.contains (g.channel i)
  let segs := (List.range g.segs).map fun s =>
    let scS : Scales := ⟨sc.base, fun b => sc.delta (2048 * s + b), fun b => sc.z (2048 * s + b)⟩
    let vS := fun b l => v (g.ofBlock (2048 * s + b) l)
    let skS := fun b l => skipAt (g.ofBlock (2048 * s + b) l)
    (scS, vS, skS, encSegment f (segBlocks g s) scS vS skS)
  let blocks := segs.zipIdx.flatMap fun q =>
    let ((scS, vS, skS, st), s) := q
    (List.range (segBlocks g s)).map fun b =>
      (codeBytesOf f (laneCode scS st vS skS b),
       blkHdrWord f ⟨scS.delta b, scS.z b, mapGetD st.perBlk b 0⟩)
  let stat : EncStat := segs.foldl (fun a q =>
    ⟨a.sat + q.2.2.2.sat, a.lost + q.2.2.2.lost, a.esc + q.2.2.2.count⟩) ⟨0, 0, 0⟩
  let hdr : Bytes :=
    [BitVec.ofNat 8 f.code, BitVec.ofNat 8 sc.base, BitVec.ofNat 8 g.segs, BitVec.ofNat 8 mine.length,
     BitVec.ofNat 8 (raised.toNat + (if stat.lost = 0 then 0 else 2))] ++ zeroBytes 11
  let codes := blocks.flatMap (·.1)
  let hdrs := fitBytes (roundUp (2 * g.nb) 16) (blocks.flatMap fun q => toLe 2 q.2)
  let sides := segs.flatMap fun q =>
    let st := q.2.2.2
    toLe 2 st.count ++ toLe 2 st.sat ++ toLe 2 st.lost ++ zeroBytes 10
    ++ fitBytes 2048 ((sortBy (fun e => e / 65536) st.sides).flatMap (toLe 4))
  let slice (ch : Nat) : Bytes :=
    fitBytes (hotSliceBytes g.p) (toLe 8 (ch + 2 ^ 63) ++ (List.range g.p).flatMap fun o =>
      let i := g.at o (ch - lo)
      if g.inside i then toLe 2 (toBf16 (v i)).toNat else [0, 0])
  let hotArea := fitBytes (hotLimit * hotSliceBytes g.p) (mine.flatMap slice)
  (hdr ++ codes ++ hdrs ++ sides ++ hotArea, stat)

/-! ### Stringer images (R81 to R83) -/

/-- Is a Q4 block of a record a zero block: X is 0 and every code equals Z? -/
def zeroBlock (g : Geom) (bs : Bytes) (b : Nat) : Bool :=
  let h := recBlkHdr .q4 g bs b
  h.x == 0 && (List.range 32).all fun l => recCode .q4 bs b l == h.z

/-- Block records, in block order, from block `b` with `n` blocks left; `run` is the zero run open before `b`
as (header, length). -/
def packBlocks (g : Geom) (bs : Bytes) : Nat → Nat → Option (Nat × Nat) → Bytes
  | 0, _, run => flushRun run
  | n + 1, b, run =>
    let h := recBlkWord .q4 g bs b
    if zeroBlock g bs b then
      match run with
      | some (k, c) =>
        if k = h && c < 32768 then packBlocks g bs n (b + 1) (some (k, c + 1))
        else flushRun run ++ packBlocks g bs n (b + 1) (some (h, 1))
      | none => packBlocks g bs n (b + 1) (some (h, 1))
    else flushRun run ++ toLe 2 h ++ subBytes bs (16 + 16 * b) 16 ++ packBlocks g bs n (b + 1) none
where
  /-- Close a run of zero blocks (R83). -/
  flushRun : Option (Nat × Nat) → Bytes
    | none => []
    | some (h, 1) => toLe 2 (h + 1)
    | some (h, c) => toLe 2 (h + 2) ++ toLe 2 c

/-- The Stringer image of a well-formed Q4 record (R81). -/
def stringerPack (g : Geom) (hotLimit : Nat) (bs : Bytes) : Bytes :=
  let blk := packBlocks g bs g.nb 0 none
  let blkP := fitBytes (roundUp blk.length 16) blk
  let sides := (List.range g.segs).flatMap fun s =>
    let o := recSideOff .q4 g + 2064 * s
    let n := 16 + 4 * (segHdr .q4 g bs s).1
    fitBytes (roundUp n 16) (subBytes bs o n)
  let hot := subBytes bs (recHotOff .q4 g) (hotLimit * hotSliceBytes g.p)
  let len := 16 + blkP.length + sides.length + hot.length
  (0x80#8 :: subBytes bs 1 7) ++ toLe 4 len ++ toLe 4 g.nb ++ blkP ++ sides ++ hot

/-- Read block records back: (codes and header of each block, bytes used); a malformed record stops the reading. -/
def unpackBlocks (bs : Bytes) : Nat → Nat → Nat → List (Bytes × Nat) → List (Bytes × Nat) × Nat
  | 0, _, o, acc => (acc, o)
  | fuel + 1, left, o, acc =>
    if left = 0 then (acc, o) else
    let w := leAt bs o 2
    let h := w - w % 128
    let z := fld w 12 9
    let zb : Bytes × Nat := (List.replicate 16 (BitVec.ofNat 8 (z + 16 * z)), h)
    match w % 128 with
    | 0 => unpackBlocks bs fuel (left - 1) (o + 18) (acc ++ [(subBytes bs (o + 2) 16, w)])
    | 1 => unpackBlocks bs fuel (left - 1) (o + 2) (acc ++ [zb])
    | 2 => let n := leAt bs (o + 2) 2
      unpackBlocks bs fuel (left - n) (o + 4) (acc ++ List.replicate n zb)
    | _ => (acc, o)

/-- Read the side lists of an image: full segments of 2,064 bytes, and the offset after them. -/
def unpackSides (bs : Bytes) : Nat → Nat → Bytes × Nat
  | 0, o => ([], o)
  | s + 1, o =>
    let n := 16 + 4 * leAt bs o 2
    let (r, e) := unpackSides bs s (o + roundUp n 16)
    (fitBytes 2064 (subBytes bs o n) ++ r, e)

/-- The tile record an image holds (R81, R83). -/
def stringerUnpack (g : Geom) (hotLimit : Nat) (im : Bytes) : Bytes :=
  let (blks, used) := unpackBlocks im (g.nb + 1) g.nb 16 []
  let (sides, o) := unpackSides im g.segs (16 + roundUp (used - 16) 16)
  (0x00#8 :: subBytes im 1 7) ++ zeroBytes 8 ++ blks.flatMap (·.1)
  ++ fitBytes (roundUp (2 * g.nb) 16) (blks.flatMap fun q => toLe 2 q.2)
  ++ sides ++ subBytes im o (hotLimit * hotSliceBytes g.p)

end Sys2Proof.Machine
end

