-- ==== Sys2Proof/Machine/Marver.lean ====
section
/-! DEFINITION. Marver: rotation, statistics, scale choice and the scale-history record (spec/04, R84 to R107). -/

namespace Sys2Proof.Machine

/-- The scale policy of a partition (R109). -/
structure ScalePolicy where
  window     : Nat
  headroom   : Nat
  zpMode     : Bool
  allowQ4    : Nat
  allowQ8    : Nat
  allowW16   : Nat
  entryBits  : Nat
  exitBits   : Nat
  entrySteps : Nat
  exitSteps  : Nat
  minActive  : Nat
  deriving DecidableEq, Repr

def ScalePolicy.allow (p : ScalePolicy) : Fmt → Nat
  | .q4 => p.allowQ4 | .q8 => p.allowQ8 | _ => p.allowW16

/-- A hot-channel descriptor in use (R71). -/
structure HotDesc where
  channel   : Nat
  entryStep : Nat
  belowRun  : Nat
  deriving DecidableEq, Repr

/-- A scale-history record (R102). `chan` maps a channel to (e_c, above_run); a channel not listed holds zeros. -/
structure Hist where
  lastStep : Nat
  base     : Nat
  cold     : Bool
  restored : Bool
  nRec     : Nat
  head     : Nat
  curMax   : Word
  ovfStep  : Nat
  lostStep : Nat
  reheats  : Nat
  chanCount : Nat
  ring     : List Word
  hot      : List HotDesc
  chan     : List (Nat × (Nat × Nat))
  deriving DecidableEq, Repr

/-- The record of a tensor just written (R95, R102). -/
def Hist.fresh (chanCount : Nat) : Hist :=
  { lastStep := 0, base := 0, cold := true, restored := false, nRec := 0, head := 0, curMax := 0
    ovfStep := 0, lostStep := 0, reheats := 0, chanCount := chanCount, ring := List.replicate 64 0
    hot := [], chan := [] }

/-- The record's bytes (R102). -/
def Hist.toBytes (h : Hist) : Bytes :=
  toLe 8 h.lastStep ++ toLe 1 h.base ++ toLe 1 (h.cold.toNat + 2 * h.restored.toNat) ++ toLe 1 h.nRec
  ++ toLe 1 h.head ++ toLe 4 h.curMax.toNat ++ toLe 4 h.ovfStep ++ toLe 4 h.lostStep ++ toLe 2 h.reheats
  ++ zeroBytes 2 ++ toLe 4 h.chanCount ++ zeroBytes 32
  ++ fitBytes 256 (h.ring.flatMap fun w => toLe 4 w.toNat)
  ++ fitBytes 256 (h.hot.flatMap fun d =>
      toLe 8 (d.channel + 2 ^ 63) ++ toLe 8 (d.entryStep + d.belowRun * 2 ^ 32))
  ++ fitBytes (roundUp (2 * h.chanCount) 64) ((List.range h.chanCount).flatMap fun c =>
      let (e, r) := mapGetD h.chan c (0, 0)
      toLe 2 (e + r * 256))

/-- Bytes of a record (R102). -/
def histLen (chanCount : Nat) : Nat := 576 + roundUp (2 * chanCount) 64

/-- The record that bytes hold. -/
def Hist.ofBytes (bs : Bytes) : Hist :=
  let n := leAt bs 28 4
  { lastStep := leAt bs 0 8, base := leAt bs 8 1, cold := bitAt (leAt bs 9 1) 0, restored := bitAt (leAt bs 9 1) 1
    nRec := leAt bs 10 1, head := leAt bs 11 1 % 64, curMax := BitVec.ofNat 32 (leAt bs 12 4)
    ovfStep := leAt bs 16 4, lostStep := leAt bs 20 4, reheats := leAt bs 24 2, chanCount := n
    ring := (List.range 64).map fun i => BitVec.ofNat 32 (leAt bs (64 + 4 * i) 4)
    hot := (List.range 16).filterMap fun i =>
      let w := leAt bs (320 + 16 * i) 8
      let v := leAt bs (328 + 16 * i) 8
      if bitAt w 63 then some ⟨fld w 47 0, fld v 31 0, fld v 37 32⟩ else none
    chan := (List.range n).filterMap fun c =>
      let w := leAt bs (576 + 2 * c) 2
      if w = 0 then none else some (c, (fld w 7 0, fld w 11 8)) }

/-! ### Rotation (R86 to R89) -/

/-- The integer mixing function of R86. -/
def mix32 (x : Word) : Word :=
  let x := x ^^^ (x >>> 16)
  let x := x * 0x7FEB352D#32
  let x := x ^^^ (x >>> 15)
  let x := x * 0x846CA68B#32
  x ^^^ (x >>> 16)

/-- Is the sign of channel `c` negative (R86)? -/
def rotNeg (seed c : Nat) : Bool :=
  let w := mix32 (BitVec.ofNat 32 seed ^^^ BitVec.ofNat 32 (c >>> 5) ^^^ BitVec.ofNat 32 (c >>> 37))
  w.getLsbD (c % 32)

/-- The block size for a rot_size code. -/
def rotN : Nat → Nat
  | 1 => 32 | 2 => 64 | 3 => 128 | _ => 1

/-- One butterfly stage at distance `half`. -/
def butterfly (half : Nat) (y : List Word) : List Word :=
  (List.range y.length).map fun j =>
    if (j / half) % 2 = 0 then fpAdd (y.getD j 0) (y.getD (j + half) 0)
    else fpSub (y.getD (j - half) 0) (y.getD j 0)

/-- Stages at half = 1, 2, 4, … (`k` of them). -/
def butterflies : Nat → Nat → List Word → List Word
  | 0, _, y => y
  | k + 1, half, y => butterflies k (2 * half) (butterfly half y)

/-- Change the sign of the values whose channel sign is negative. -/
def rotSigns (seed c0 : Nat) (y : List Word) : List Word :=
  (y.zipIdx).map fun q => if rotNeg seed (c0 + q.2) then fpNeg q.1 else q.1

/-- rotate_block of R86. -/
def rotateBlock (n seed c0 : Nat) (y : List Word) : List Word :=
  butterflies n.log2 1 (rotSigns seed c0 y)

/-- w × 2^-k, rounded to nearest even. -/
def scaleDown (k : Nat) (w : Word) : Word :=
  match dec32 w with
  | .fin s m e => enc32 (f32.round s m (e - k))
  | _ => w

/-- unrotate_block of R88. -/
def unrotateBlock (n seed c0 : Nat) (y : List Word) : List Word :=
  rotSigns seed c0 ((butterflies n.log2 1 y).map (scaleDown n.log2))

/-- Apply a block transform along the reduction axis of a tile. -/
def alongRed (g : Geom) (n : Nat) (f : Nat → List Word → List Word) (v : Dim4 → Word) (i : Dim4) : Word :=
  let r := i.get g.red
  let r0 := r / n * n
  let c0 := g.coord.get g.red * g.r + r0
  (f c0 ((List.range n).map fun j => v (i.set g.red (r0 + j)))).getD (r % n) 0

/-- The rotated values of a tile (R84 stage 2). -/
def rotated (g : Geom) (rotSize seed : Nat) (v : Dim4 → Word) : Dim4 → Word :=
  if rotSize = 0 then v else alongRed g (rotN rotSize) (rotateBlock (rotN rotSize) seed) v

/-- The values of a rotated tensor's tile in the unrotated basis (R88). -/
def unrotated (g : Geom) (rotSize seed : Nat) (v : Dim4 → Word) : Dim4 → Word :=
  if rotSize = 0 then v else alongRed g (rotN rotSize) (unrotateBlock (rotN rotSize) seed) v

/-- Local indices of every element. -/
def Geom.all (g : Geom) : List Dim4 := (List.range g.n).map g.idx

/-- Rotation blocks of the tile that hold a NaN or an infinity (R89). -/
def rotNonfinite (g : Geom) (rotSize : Nat) (v : Dim4 → Word) : Nat :=
  if rotSize = 0 then 0 else
  let n := rotN rotSize
  (List.range g.p).foldl (fun acc o =>
    acc + (List.range (g.r / n)).countP fun b =>
      (List.range n).any fun j => let i := g.at o (b * n + j); g.inside i && !isFin (v i)) 0

/-! ### Statistics (R90) -/

/-- The larger of two magnitudes. -/
def maxMag (a b : Word) : Word := if (fpAbs a).toNat < (fpAbs b).toNat then fpAbs b else fpAbs a

/-- The tile maximum and the non-finite count over lanes that `skip` does not leave out. -/
def tileMax (g : Geom) (skip : Dim4 → Bool) (v : Dim4 → Word) : Word :=
  g.all.foldl (fun a i => if g.inside i && !skip i && isFin (v i) then maxMag a (v i) else a) 0
def nonfiniteCount (g : Geom) (v : Dim4 → Word) : Nat :=
  g.all.countP fun i => g.inside i && !isFin (v i)

/-- The exponent of each channel's maximum, for the channels of the tile with a nonzero one. -/
def chanExps (g : Geom) (v : Dim4 → Word) : List (Nat × Nat) :=
  (List.range g.r).filterMap fun r =>
    let m := (List.range g.p).foldl (fun a o =>
      let i := g.at o r
      if g.inside i && isFin (v i) then maxMag a (v i) else a) (0 : Word)
    let e := fld m.toNat 30 23
    if e = 0 then none else some (g.coord.get g.red * g.r + r, e)

/-- floor(log2 m) of a positive finite FP32 value. -/
def floorLog2 (w : Word) : Int :=
  match dec32 w with
  | .fin _ m e => (m.log2 : Int) + e
  | _ => 128

/-- k = floor(log2 Ls) (R92). -/
def formK : Fmt → Int
  | .q4 => 2 | .q8 => 6 | _ => 14

def clampBase (x : Int) : Nat := (max 0 (min 255 x)).toNat

/-- B from a window maximum, or Bt from a tile maximum (R92, R94). -/
def baseFor (form : Fmt) (headroom : Nat) (m : Word) : Nat :=
  clampBase (127 + floorLog2 m - formK form + headroom)

/-- The tile base of a cold encoding (R94). -/
def coldBase (form : Fmt) (headroom : Nat) (m : Word) : Nat :=
  if m = 0 then 127 else baseFor form headroom m

/-! ### Zero point and block offset (R98, R99) -/

/-- The Z and code limit of a block with the signs present. -/
def zChoice (form : Fmt) (zp : Bool) (anyNeg anyPos : Bool) : Int × Nat :=
  match form with
  | .q4 => if !zp || (anyNeg && anyPos) then (7, 7) else if anyPos then (0, 14) else (14, 14)
  | .q8 => if !zp || (anyNeg && anyPos) then (0, 127) else if anyPos then (-127, 254) else (127, 254)
  | _ => (0, 32767)

/-- delta under R99 step 3: the largest that fits. -/
def deltaFor (base limit : Nat) (m : Word) : Nat :=
  let fits (dl : Nat) : Bool :=
    match dec32 m with
    | .fin _ mm e => decide (rneScale mm (e - ((base : Int) - 127 - dl)) ≤ limit)
    | _ => false
  ((List.range 8).reverse.find? fits).getD 0

/-- delta and Z of one block from its counted lanes; none where the block is empty (R99). -/
def blockChoice (form : Fmt) (zp : Bool) (allow base : Nat) (lanes : List Word) : Option (Nat × Int) :=
  let live := lanes.filter fun w => isFin w && fpAbs w != 0
  if live.isEmpty then none else
  let (z, lim) := zChoice form zp (live.any signBit) (live.any fun w => !signBit w)
  let desc := (sortBy (fun w => 2 ^ 31 - (fpAbs w).toNat) live)
  let a := min allow (live.length - 1)
  some (deltaFor base lim (desc.getD a 0), z)

/-- The Z that block 0 takes when empty (R99 step 1). -/
def emptyZ (form : Fmt) (zp : Bool) : Int := (zChoice form zp false true).1

/-- delta and Z of every block, in block order (R99). -/
def blockChoices (form : Fmt) (zp : Bool) (allow base : Nat) (blocks : List (List Word)) : List (Nat × Int) :=
  (blocks.foldl (fun (acc : List (Nat × Int) × (Nat × Int)) b =>
    let c := (blockChoice form zp allow base b).getD acc.2
    (acc.1 ++ [c], c)) ([], (0, emptyZ form zp))).1

/-! ### The pipeline (R84) -/

/-- What an encoding works from: the tile's geometry, the form, the descriptor's hot limit and rotation, the hot set in
force and the policy. -/
structure EncCtx where
  g        : Geom
  form     : Fmt
  hotLimit : Nat
  rotSize  : Nat
  rotSeed  : Nat
  hot      : List Nat
  pol      : ScalePolicy

/-- The statistics of an encoding (R90, R89). -/
structure EncMeasure where
  tmax    : Word
  exps    : List (Nat × Nat)
  nonfin  : Nat
  rotBad  : Nat
  deriving DecidableEq, Repr

/-- Stages 2 and 3: the rotated values and what is measured of them. -/
def EncCtx.rot (c : EncCtx) (v : Dim4 → Word) : Dim4 → Word := rotated c.g c.rotSize c.rotSeed v
def EncCtx.skip (c : EncCtx) (i : Dim4) : Bool := c.hot.contains (c.g.channel i)
def EncCtx.measure (c : EncCtx) (v : Dim4 → Word) : EncMeasure :=
  let y := c.rot v
  { tmax := tileMax c.g c.skip y
    exps := if c.hotLimit = 0 then [] else chanExps c.g y
    nonfin := nonfiniteCount c.g y
    rotBad := rotNonfinite c.g c.rotSize v }

/-- Stages 5 to 8 at tile base `bt`: the record and its counts. -/
def EncCtx.encode (c : EncCtx) (bt : Nat) (raised : Bool) (v : Dim4 → Word) : Bytes × EncStat :=
  let y := c.rot v
  let blocks := (List.range c.g.nb).map fun b =>
    ((List.range 32).map fun l => c.g.ofBlock b l).filterMap fun i =>
      if c.g.inside i && !c.skip i then some (y i) else none
  let ch := blockChoices c.form c.pol.zpMode (c.pol.allow c.form) bt blocks
  let sc : Scales := ⟨bt, fun b => (ch.getD b (0, 0)).1, fun b => (ch.getD b (0, 0)).2⟩
  encodeTile c.form c.g c.hotLimit sc c.hot raised y

/-! ### The step record and the history boundary (R91, R92, R95, R96, R100, R101, R103, R104) -/

/-- Fold one encoding's statistics into the step record (R91, R100). -/
def Hist.fold (h : Hist) (m : EncMeasure) (st : EncStat) (reheated : Bool) : Hist :=
  { h with
    curMax := maxMag h.curMax m.tmax
    ovfStep := satAdd 0xFFFFFFFF h.ovfStep st.sat
    lostStep := satAdd 0xFFFFFFFF h.lostStep st.lost
    reheats := if reheated then satAdd 65535 h.reheats 1 else h.reheats
    chan := m.exps.foldl (fun c q =>
      let (e, r) := mapGetD c q.1 (0, 0)
      mapSet c q.1 (max e q.2, r)) h.chan }

/-- Raise the step record for a reheat at base `bt` (R96). -/
def Hist.raise (h : Hist) (form : Fmt) (headroom bt : Nat) : Hist :=
  let e : Int := (bt : Int) - 127 + formK form - headroom
  let m : Word := if e ≥ 128 then 0x7F7FFFFF#32 else fpOfInt 1 e
  { h with curMax := maxMag h.curMax m }

/-- The window maximum of R92. -/
def Hist.windowMax (h : Hist) (w : Nat) : Word :=
  (List.range (min w h.nRec)).foldl (fun a i => maxMag a (h.ring.getD ((h.head + 63 - i) % 64) 0)) 0

/-- R95 and R92 at a boundary, or at a restore, in the form the tensor takes next. -/
def Hist.rebase (h : Hist) (pol : ScalePolicy) (form : Fmt) : Hist :=
  let m := h.windowMax pol.window
  if h.cold then
    if pol.window ≤ h.nRec ∧ m ≠ 0 then { h with cold := false, base := baseFor form pol.headroom m } else h
  else if m = 0 then h else { h with base := baseFor form pol.headroom m }

/-- The hot-channel rules (R101). -/
def Hist.hotRules (h : Hist) (pol : ScalePolicy) (hotLimit step : Nat) : Hist :=
  if hotLimit = 0 then h else
  let es := (h.chan.map fun q => q.2.1).filter (· ≠ 0)
  let q := es.length
  if q < pol.minActive then { h with chan := h.chan.map fun c => (c.1, (c.2.1, 0)) }
  else
    let med := (sortBy id es).getD ((q - 1) / 2) 0
    let e (c : Nat) : Nat := (mapGetD h.chan c (0, 0)).1
    let stay := (h.hot.map fun d =>
        if e d.channel < med + pol.exitBits then { d with belowRun := d.belowRun + 1 }
        else { d with belowRun := 0 }).filter fun d => d.belowRun < pol.exitSteps
    let isHot (c : Nat) : Bool := stay.any fun d => d.channel == c
    -- every channel with a word of its own, and those that left the hot set
    let counted := h.chan.map fun c =>
      if isHot c.1 then c
      else if c.2.1 ≠ 0 ∧ med + pol.entryBits ≤ c.2.1 then (c.1, (c.2.1, min pol.entrySteps (c.2.2 + 1)))
      else (c.1, (c.2.1, 0))
    let cand := counted.filter fun c => !isHot c.1 && c.2.2 == pol.entrySteps
    let pick := ((sortBy (fun c => 255 - c.2.1) cand).take (hotLimit - stay.length)).map (·.1)
    let entered := pick.map fun c => (⟨c, step % 2 ^ 32, 0⟩ : HotDesc)
    { h with
      hot := sortBy (fun d => d.channel) (stay ++ entered)
      chan := counted.map fun c => if pick.contains c.1 then (c.1, (c.2.1, 0)) else c }

/-- Clear the step statistics (R103 step 4, R104). -/
def Hist.clearStep (h : Hist) : Hist :=
  { h with curMax := 0, ovfStep := 0, lostStep := 0, reheats := 0
           chan := (h.chan.map fun c => (c.1, (0, c.2.2))).filter fun c => c.2.2 ≠ 0 }

/-- One history boundary (R103). `form` is the form in which the tensor is encoded after it. -/
def Hist.boundary (h : Hist) (pol : ScalePolicy) (form : Fmt) (hotLimit step : Nat) : Hist :=
  let h := { h with ring := h.ring.set h.head h.curMax, head := (h.head + 1) % 64, nRec := min 64 (h.nRec + 1) }
  let h := ((h.rebase pol form).hotRules pol hotLimit step).clearStep
  { h with lastStep := step }

/-- A record written back by a restore (R95, R105): the restored flag set, cold left under R95. -/
def Hist.restore (h : Hist) (pol : ScalePolicy) (form : Fmt) : Hist :=
  let h := { h with restored := true }
  if h.cold then h.rebase pol form else h

end Sys2Proof.Machine
end

