-- ==== Sys2Proof/Machine/Bench.lean ====
section
/-! DEFINITION. The bench's arithmetic: expansion, band sums, promotion, Cullet terms, the combination tree and the
accumulator (spec/05, R111 to R130; spec/06, R147 to R151). -/

namespace Sys2Proof.Machine

/-- The integer a lane brings to the cells: c − Z, or 0 for an outlier lane or a lane beyond the extent (R113). -/
def Lane.cell : Lane → Int
  | .code c _ => c
  | _ => 0

/-- The high and low parts of a W16 lane (R60). -/
def hiPart (c : Int) : Int := c / 256
def loPart (c : Int) : Int := c % 256

/-- Is the lane an outlier lane (spec/06, R147)? -/
def Lane.outlier : Lane → Bool
  | .hot _ => true
  | .esc _ => true
  | _ => false

/-- The exact value of a lane (R72, R148). -/
def Lane.num (base : Nat) : Lane → Num
  | .zero => .fin false 0 0
  | .hot v => dec32 (ofBf16 v)
  | .esc v => dec32 (ofBf16 v)
  | .code c dl => Num.ofInt c ((base : Int) - 127 - dl)

/-- The pass count p of R115. -/
def passCount (a b : Fmt) : Nat :=
  1 + (if a = .w16 then 1 else 0) + (if b = .w16 then 1 else 0)

/-- The weighted sum over sub-cycles of one cell's products (R115, R118): two W16 lanes never form u × u. -/
def cellProduct (fa fb : Fmt) (a b : Int) : Int :=
  if fa = .w16 then
    if fb = .w16 then
      65536 * (hiPart a * hiPart b) + 256 * (hiPart a * loPart b) + 256 * (loPart a * hiPart b)
    else 256 * (hiPart a * b) + loPart a * b
  else if fb = .w16 then 256 * (a * hiPart b) + a * loPart b
  else a * b

/-- The counters a GEMM advances (R144, R167). -/
structure GemmCounts where
  promoRounded : Nat := 0
  promoInf     : Nat := 0
  accNan       : Nat := 0
  products     : Nat := 0
  escLanes     : Nat := 0
  hotLanes     : Nat := 0
  stallRows    : Nat := 0
  stallCycles  : Nat := 0
  nanResults   : Nat := 0
  prodRounded  : Nat := 0
  rowCycles    : Nat := 0
  cNonfinite   : Bool := false
  deriving DecidableEq, Repr

def GemmCounts.add (a b : GemmCounts) : GemmCounts :=
  ⟨a.promoRounded + b.promoRounded, a.promoInf + b.promoInf, a.accNan + b.accNan, a.products + b.products,
   a.escLanes + b.escLanes, a.hotLanes + b.hotLanes, a.stallRows + b.stallRows, a.stallCycles + b.stallCycles,
   a.nanResults + b.nanResults, a.prodRounded + b.prodRounded, a.rowCycles + b.rowCycles,
   a.cNonfinite || b.cNonfinite⟩

def GemmCounts.sum (l : List GemmCounts) : GemmCounts := l.foldl GemmCounts.add {}

/-- Does the encoding of a datum have exactly its value? -/
def encodesExactly (n : Num) : Bool :=
  match n, f32.decode (f32.encode n) with
  | .fin _ m e, .fin _ m' e' =>
    let q := min e e'
    m <<< (e - q).toNat == m' <<< (e' - q).toNat
  | .fin _ _ _, _ => false
  | _, _ => true

/-- Promotion of a band value (R119): one rounding, +0 for 0. -/
def promoteExact (s : Int) (ea eb rho : Int) : Num := Num.ofInt s (ea + eb - rho)
def promote (s : Int) (ea eb rho : Int) : Word := enc32 (f32.encode (promoteExact s ea eb rho))

/-- An addition of the tree or the accumulator, with 1 where it creates a default NaN (R130). -/
def addNan (x y : Word) : Word × Nat :=
  let t := fpAdd x y
  (t, if isNan t && !isNan x && !isNan y then 1 else 0)

/-- One operand as the bench sees a reduction tile of it: lanes by (reduction index, other index). -/
structure BenchOperand where
  fmt   : Fmt
  base  : Nat
  lane  : Nat → Nat → Lane
  delta : Nat → Nat → Nat

/-- The lanes of a tile by reduction index and index along its other axis (R31, R111). -/
def benchOperand (t : BlkTile) (red other : Nat) : BenchOperand :=
  let at_ (i x : Nat) : Dim4 := ((⟨0, 0, 0, 0⟩ : Dim4).set red i).set other x
  { fmt := t.fmt, base := t.base, lane := fun i x => t.lane (at_ i x), delta := fun i x => t.delta (at_ i x) }

/-- The Cullet product of a lane pair, where it forms one, as an exact datum (R147, R148). -/
def culletNum (a b : BenchOperand) (rho : Int) (i j m : Nat) : Option Num :=
  let x := a.lane i j
  let y := b.lane i m
  if x.outlier || y.outlier then
    some (match f32.mulX (x.num a.base) (y.num b.base) with
      | .fin s mm e => .fin s mm (e - rho)
      | n => n)
  else none
/-- The Cullet products of band `q`, in ascending reduction index (R147, R148). -/
def culletNums (a b : BenchOperand) (rho : Int) (q j m : Nat) : List Num :=
  (List.range 32).filterMap fun k => culletNum a b rho (32 * q + k) j m

/-- The Cullet term of products in their order, and its counts (R149): a NaN result is counted at each product and each addition that gives one,
propagated ones too (the model's choice, log entry 58). -/
def culletSum (ns : List Num) : Word × GemmCounts :=
  let ps := ns.map fun n => enc32 (f32.encode n)
  let rounded := ns.countP fun n => !encodesExactly n
  match ps with
  | [] => (0, {})
  | p :: r =>
    let (c, nans) := r.foldl (fun acc x => let t := fpAdd acc.1 x; (t, acc.2 + (isNan t).toNat)) (p, 0)
    (c, { products := ps.length, prodRounded := rounded, nanResults := nans + ps.countP isNan
          cNonfinite := !isFin c || ps.any fun x => !isFin x })
def culletTerm (a b : BenchOperand) (rho : Int) (q j m : Nat) : Word × GemmCounts := culletSum (culletNums a b rho q j m)

/-- The band value S of R118. -/
def bandValue (a b : BenchOperand) (q j m : Nat) : Int :=
  (List.range 32).foldl (fun s k =>
    s + cellProduct a.fmt b.fmt (a.lane (32 * q + k) j).cell (b.lane (32 * q + k) m).cell) 0

/-- P_q + C_q's parts: the promoted band value with its counts (R119, R120). -/
def bandPromoted (a b : BenchOperand) (rho : Int) (q j m : Nat) : Word × GemmCounts :=
  let s := bandValue a b q j m
  let ea : Int := (a.base : Int) - 127 - a.delta (32 * q) j
  let eb : Int := (b.base : Int) - 127 - b.delta (32 * q) m
  let n := promoteExact s ea eb rho
  let p := enc32 (f32.encode n)
  (p, { promoRounded := (!encodesExactly n).toNat, promoInf := (isInf p).toNat })

/-- The column total T of one column and streaming row (R121). -/
def columnTotal (a b : BenchOperand) (rho : Int) (j m : Nat) : Word × GemmCounts :=
  let leaf (q : Nat) : Word × GemmCounts :=
    let (p, c1) := bandPromoted a b rho q j m
    let (c, c2) := culletTerm a b rho q j m
    let (t, k) := addNan p c
    (t, (c1.add c2).add { accNan := k })
  let l0 := leaf 0
  let l1 := leaf 1
  let l2 := leaf 2
  let l3 := leaf 3
  let (x, k1) := addNan l0.1 l1.1
  let (y, k2) := addNan l2.1 l3.1
  let (t, k3) := addNan x y
  (t, GemmCounts.sum [l0.2, l1.2, l2.2, l3.2, { accNan := k1 + k2 + k3 }])

/-- What one reduction tile costs beside its column totals: outlier lanes loaded and stalled rows (R151, R167). -/
def tileCounts (a b : BenchOperand) (mRows : Nat) : GemmCounts :=
  let p := passCount a.fmt b.fmt
  let isHot (x : Lane) : Bool := match x with | .hot _ => true | _ => false
  let lanesOf (o : BenchOperand) (n : Nat) : List Lane :=
    (List.range n).flatMap fun x => (List.range 128).map fun i => o.lane i x
  let all := lanesOf a 256 ++ lanesOf b mRows
  let perRow := (List.range mRows).map fun m =>
    let t := (List.range 128).countP fun i => (b.lane i m).outlier
    max 1 (ceilDiv t 8)
  { escLanes := all.countP fun x => x.outlier && !isHot x
    hotLanes := all.countP isHot
    stallRows := perRow.countP fun c => decide (p < c)
    stallCycles := perRow.foldl (fun s c => s + (c - p)) 0
    rowCycles := p * mRows }

/-- The accumulated value A_{k−1} of output element (j, m) over the reduction tiles, in ascending order (R122);
`total r` gives T_r. -/
def accumulate (k : Nat) (total : Nat → Word) : Word × Nat :=
  (List.range (k - 1)).foldl (fun acc i =>
    let (t, n) := addNan acc.1 (total (i + 1))
    (t, acc.2 + n)) (total 0, 0)

/-- A row whose values a fault made wrong, or a vote adopted (R342, R344): the row's values after a stage, 0 the column totals,
1 the accumulator's addition, 2 the addition to prior content, 3 the conversion of the output. -/
structure RowFix where
  red   : Nat
  row   : Nat
  stage : Nat
  value : List Word
  deriving DecidableEq, Repr
/-- The value that the fixes give an element of a row at a stage, where they give one. -/
def fixOf (fixes : List RowFix) (red row stage j : Nat) : Option Word :=
  (fixes.find? fun f => f.red == red && f.row == row && f.stage == stage).map fun f => f.value.getD j 0

/-- A segment of a GEMM (R122, R124): the value of output element (j, m) after reduction tiles `lo` to `hi` − 1, from the value
`prior` that the segment before left, with what it counts. A value that a fault made wrong, or a vote adopted, changes no
count. -/
def gemmSpan (a b : Nat → BenchOperand) (rho : Int) (fixes : List RowFix) (lo hi : Nat) (prior : Option Word) (j m : Nat) :
    Word × GemmCounts :=
  let (v, n) := (List.range (hi - lo)).foldl (fun (s : Option Word × GemmCounts) x =>
    let r := lo + x
    let (t, c) := columnTotal (a r) (b r) rho j m
    let t := (fixOf fixes r m 0 j).getD t
    let (v, k) := match s.1 with
      | none => (t, 0)
      | some w => addNan w t
    (some ((fixOf fixes r m 1 j).getD v), (s.2.add c).add { accNan := k })) (prior, {})
  (v.getD 0, n)

/-- R32: the result added to the prior content, left operand the prior content. -/
def accInto (acc : Bool) (prior v : Word) : Word := if acc then fpAdd prior v else v

end Sys2Proof.Machine
end

