-- ==== Sys2Proof/Machine/Jacks.lean ====
section
/-! DEFINITION. The vector operations of the Jacks engines and the winner rules (spec/05, R134 to R143). -/

namespace Sys2Proof.Machine

/-- One level of the balanced tree of R180; an absent input passes the other on (R138). -/
def laneTreeLevel : List (Option Word) → List (Option Word)
  | a :: b :: r =>
    (match a, b with
      | some x, some y => some (fpAdd x y)
      | some x, none => some x
      | none, y => y) :: laneTreeLevel r
  | l => l

/-- The lane order sum of R138 and R180 over (position, value) pairs in ascending position; none when empty. -/
def laneSum? (xs : List (Nat × Word)) : Option Word :=
  let lanes := (List.range 32).map fun l =>
    (xs.filter fun q => q.1 % 32 == l).foldl (fun (a : Option Word) q =>
      match a with
      | none => some q.2
      | some s => some (fpAdd s q.2)) none
  (laneTreeLevel (laneTreeLevel (laneTreeLevel (laneTreeLevel (laneTreeLevel lanes))))).headD none

def laneSum (xs : List (Nat × Word)) : Word := (laneSum? xs).getD 0

/-- A float source tile: its geometry and its values. -/
structure Src where
  g : Geom
  v : Dim4 → Word

/-- The indices along `axis` of the elements of the row through `i` that lie inside the extent, with their values. -/
def Src.row (s : Src) (axis : Nat) (i : Dim4) : List (Nat × Word) :=
  (List.range (s.g.tile.get axis)).filterMap fun k =>
    let j := i.set axis k
    if s.g.inside j then some (k, s.v j) else none

/-- The value of a source at an output position, extents of 1 serving every position (R139). -/
def Src.bcast (s : Src) (i : Dim4) : Word :=
  let f (d : Nat) : Nat := if s.g.tile.get d = 1 then 0 else i.get d
  s.v ⟨f 0, f 1, f 2, f 3⟩

/-- How many sources an ELEMENTWISE function takes; none for a reserved code (R139). -/
def ewSources (code : Nat) : Option Nat :=
  if 0x01 ≤ code ∧ code ≤ 0x0D then some 1
  else if 0x20 ≤ code ∧ code ≤ 0x26 then some 2
  else if code = 0x40 ∨ code = 0x41 then some 3
  else none

/-- SIGMOID as its written sequence of primitives. -/
def sigmoid (a : Word) : Word := fpDiv one32 (fpAdd one32 (fpExp (fpNeg a)))

/-- GELU_TANH as its written sequence of primitives. -/
def geluTanh (a : Word) : Word :=
  let t := fpMul a a
  let t := fpMul t a
  let t := fpMul 0x3D372713#32 t
  let t := fpAdd a t
  let u := fpMul 0x3F4C422A#32 t
  let g := fpAdd one32 (fpTanh u)
  let h := fpMul 0x3F000000#32 a
  fpMul h g

/-- The functions of R139. Each but NEG and ABS makes a NaN that it gives quiet (R78). -/
def ewFunc (code : Nat) (a b c : Word) : Word :=
  match code with
  | 0x01 => quiet a
  | 0x02 => fpNeg a
  | 0x03 => fpAbs a
  | 0x04 => fpMax a 0
  | 0x05 => fpExp a
  | 0x06 => fpLog a
  | 0x07 => fpSqrt a
  | 0x08 => fpRsqrt a
  | 0x09 => fpDiv one32 a
  | 0x0A => fpTanh a
  | 0x0B => sigmoid a
  | 0x0C => fpMul a (sigmoid a)
  | 0x0D => geluTanh a
  | 0x20 => fpAdd a b
  | 0x21 => fpSub a b
  | 0x22 => fpMul a b
  | 0x23 => fpDiv a b
  | 0x24 => fpMax a b
  | 0x25 => fpMin a b
  | 0x26 => if isNan a then quiet a else if fpLt 0 a then quiet b else 0
  | 0x40 => fpAdd (fpMul a b) c
  | _ => quiet (if fpAbs a = 0 then c else b)

/-- NORM of one element (R140): `layer` chooses LAYER over RMS, `gain` gives g_i by index along the axis. -/
def normElement (layer : Bool) (eps : Word) (s : Src) (gain : Nat → Word) (axis : Nat) (i : Dim4) : Word :=
  let xs := s.row axis i
  let n := fpOfInt xs.length 0
  let x := s.v i
  let gi := gain (i.get axis)
  if layer then
    let mu := fpDiv (laneSum xs) n
    let dev (w : Word) : Word := fpSub w mu
    let v := fpDiv (laneSum (xs.map fun q => (q.1, fpMul (dev q.2) (dev q.2)))) n
    let r := fpRsqrt (fpAdd v eps)
    fpMul (fpMul (dev x) r) gi
  else
    let sq := laneSum (xs.map fun q => (q.1, fpMul q.2 q.2))
    let m := fpDiv sq n
    let r := fpRsqrt (fpAdd m eps)
    fpMul (fpMul x r) gi

/-- SOFTMAX of one element (R141). -/
def softmaxElement (s : Src) (axis : Nat) (i : Dim4) : Word :=
  let xs := s.row axis i
  let m := match xs with
    | [] => (0 : Word)
    | q :: r => r.foldl (fun a t => fpMax a t.2) (quiet q.2)
  let e (w : Word) : Word := fpExp (fpSub w m)
  fpDiv (e (s.v i)) (laneSum (xs.map fun q => (q.1, e q.2)))

/-- Does candidate `b` beat `a`, for a maximum or a minimum (R135)? Equal candidates keep the earlier. -/
def beats (isMax : Bool) (a b : Word) : Bool :=
  if isNan a then false
  else if isNan b then true
  else if isMax then totalKey a < totalKey b else totalKey b < totalKey a

/-- The winner among (logical index, value) candidates in ascending index (R135); the value is made quiet if NaN. -/
def winner (isMax : Bool) : List (Nat × Word) → Option (Nat × Word)
  | [] => none
  | q :: r =>
    let w := r.foldl (fun a b => if beats isMax a.2 b.2 then b else a) q
    some (w.1, quiet w.2)

/-- REDUCE_MAX and REDUCE_MIN of the row through `i`: the winner's index along the axis in the tensor and its value
(R134, R135). -/
def reduceWinner (isMax : Bool) (s : Src) (axis : Nat) (i : Dim4) : Nat × Word :=
  match winner isMax (s.row axis i) with
  | some (k, w) => (s.g.coord.get axis * s.g.tile.get axis + k, w)
  | none => (0, 0)

end Sys2Proof.Machine
end

