-- ==== Sys2Proof/Machine/Symbol.lean ====
section
/-! DEFINITION. The symbol code of memory (spec/10, R255 to R257, R259) and the decode of addresses to channels
(R246, R249 to R254). -/

namespace Sys2Proof.Machine

/-- An element of GF(16) = GF(2)[x] / (x^4 + x + 1). -/
abbrev Gf := BitVec 4

/-- a × x. -/
def gfX (a : Gf) : Gf := if a.getLsbD 3 then (a <<< 1) ^^^ 3#4 else a <<< 1

/-- gf16_mul of R255. -/
def gfMul (a b : Gf) : Gf :=
  (if b.getLsbD 0 then a else 0) ^^^ (if b.getLsbD 1 then gfX a else 0)
  ^^^ (if b.getLsbD 2 then gfX (gfX a) else 0) ^^^ (if b.getLsbD 3 then gfX (gfX (gfX a)) else 0)

/-- a^14, the inverse of R257. -/
def gfInv (a : Gf) : Gf :=
  let a2 := gfMul a a
  let a4 := gfMul a2 a2
  let a8 := gfMul a4 a4
  gfMul a8 (gfMul a4 a2)

/-- λ of R255. -/
def gfLambda : Gf := 0x8#4

/-- quad(s, t) = s² + st + λt². -/
def quad (s t : Gf) : Gf := gfMul s s ^^^ gfMul s t ^^^ gfMul gfLambda (gfMul t t)

/-- A vector of four field elements: a column or a syndrome. -/
structure Syn where
  s0 : Gf
  s1 : Gf
  s2 : Gf
  s3 : Gf
  deriving DecidableEq, Repr

def Syn.zero : Syn := ⟨0, 0, 0, 0⟩
def Syn.xor (a b : Syn) : Syn := ⟨a.s0 ^^^ b.s0, a.s1 ^^^ b.s1, a.s2 ^^^ b.s2, a.s3 ^^^ b.s3⟩
def Syn.smul (c : Gf) (a : Syn) : Syn := ⟨gfMul c a.s0, gfMul c a.s1, gfMul c a.s2, gfMul c a.s3⟩

/-- The point of the quadric at (s, t). -/
def quadPoint (s t : Gf) : Syn := ⟨1, quad s t, s, t⟩

/-- sym_column of R255. -/
def symColumn (i : Nat) : Syn :=
  if i = 32 then ⟨0, 1, 0, 0⟩
  else if i < 32 then quadPoint (BitVec.ofNat 4 (i % 16)) (BitVec.ofNat 4 (2 + i / 16))
  else if i = 33 then quadPoint 0 0
  else if i = 34 then quadPoint 1 0
  else quadPoint 0 1

/-- Data symbol `i` of a codeword's 16 bytes: symbol 2j in [3:0] of byte j, symbol 2j + 1 in [7:4] (R249). -/
def dataSym (d : Bytes) (i : Nat) : Gf :=
  let b := d.getD (i / 2) 0
  if i % 2 = 0 then b.setWidth 4 else (b >>> 4).setWidth 4

/-- σ of R256. -/
def sigma (d : Bytes) : Syn :=
  (List.range 32).foldl (fun a i => a.xor ((symColumn i).smul (dataSym d i))) Syn.zero

/-- The check symbols P, Q, R, T in [3:0] to [15:12] (R254, R256). -/
def checkBits (d : Bytes) : BitVec 16 :=
  let s := sigma d
  let p := s.s1 ^^^ s.s2 ^^^ gfMul gfLambda s.s3
  let q := s.s0 ^^^ s.s2 ^^^ s.s3
  s.s3.setWidth 16 <<< 12 ||| s.s2.setWidth 16 <<< 8 ||| q.setWidth 16 <<< 4 ||| p.setWidth 16

/-- Check symbol `k` (0 P to 3 T). -/
def checkSym (c : BitVec 16) (k : Nat) : Gf := (c >>> (4 * k)).setWidth 4

/-- What the check symbols contribute to the syndrome. -/
def checkSyn (c : BitVec 16) : Syn :=
  (((symColumn 32).smul (checkSym c 0)).xor ((symColumn 33).smul (checkSym c 1))).xor
    (((symColumn 34).smul (checkSym c 2)).xor ((symColumn 35).smul (checkSym c 3)))

/-- The syndrome of a received codeword (R255). -/
def syndrome (d : Bytes) (c : BitVec 16) : Syn := (sigma d).xor (checkSyn c)

/-- The classes of R257; a correction names its symbol and the value to exclusive-or into it. -/
inductive CwClass where
  | clean
  | poison
  | fix (sym : Nat) (err : Gf)
  | bad
  deriving DecidableEq, Repr

/-- The syndrome of a poisoned codeword (R259). -/
def poisonSyn : Syn := ⟨0, 0, 1, 0⟩

/-- The symbol that a normalised (s, t) names, if any (R257). -/
def symbolAt (s t : Gf) : Option Nat :=
  if t = 2 then some s.toNat
  else if t = 3 then some (s.toNat + 16)
  else if s = 0 ∧ t = 0 then some 33
  else if s = 1 ∧ t = 0 then some 34
  else if s = 0 ∧ t = 1 then some 35
  else none

/-- Decode a syndrome (R257). -/
def classify (y : Syn) : CwClass :=
  if y = Syn.zero then .clean
  else if y = poisonSyn then .poison
  else if y.s0 ≠ 0 then
    let k := gfInv y.s0
    let u := gfMul y.s1 k
    let s := gfMul y.s2 k
    let t := gfMul y.s3 k
    match symbolAt s t with
    | some i => if u = quad s t then .fix i y.s0 else .bad
    | none => .bad
  else if y.s2 = 0 ∧ y.s3 = 0 then .fix 32 y.s1
  else .bad

/-- A syndrome as 16 bits, S0 in [3:0] to S3 in [15:12] (R262). -/
def Syn.bits (y : Syn) : Nat := y.s0.toNat + 16 * y.s1.toNat + 256 * y.s2.toNat + 4096 * y.s3.toNat

/-- Exclusive-or a value into symbol `i` of the data bytes; a check symbol leaves them alone. -/
def flipData (d : Bytes) (i : Nat) (e : Gf) : Bytes :=
  if i < 32 then d.modify (i / 2) fun b => b ^^^ (if i % 2 = 0 then e.setWidth 8 else e.setWidth 8 <<< 4)
  else d

/-- A codeword of given data read after errors of its symbols: the data as it is taken, and its class (R255, R257). -/
def readUpset (old : Bytes) (errs : List (Nat × Nat)) : Bytes × CwClass :=
  let (d, c) := errs.foldl (fun (x : Bytes × BitVec 16) q =>
    (flipData x.1 q.1 (BitVec.ofNat 4 q.2),
     if q.1 < 32 then x.2 else x.2 ^^^ (BitVec.ofNat 16 (q.2 % 16) <<< (4 * (q.1 - 32))))) (old, checkBits old)
  match classify (syndrome d c) with
  | .fix i e => (flipData d i e, .fix i e)
  | k => (d, k)

/-- The exclusive-or that poison applies to the check symbols: P, Q and R each with 0x1 (R259). -/
def poisonMask : BitVec 16 := 0x0111#16

/-! ### Addresses (R246 to R254) -/

/-- The tiers of the address map. -/
inductive Tier where
  | hbm | lp | cru
  deriving DecidableEq, Repr

/-- The tier and die of an address (R246); none for CSR space and unmapped addresses. -/
def tierOf (a : Nat) : Option (Tier × Nat) :=
  if a < 0x003000000000 then some (.hbm, 0)
  else if a < 0x006000000000 then some (.hbm, 1)
  else if 0x010000000000 ≤ a ∧ a < 0x017000000000 then some (.lp, 0)
  else if 0x017000000000 ≤ a ∧ a < 0x01E000000000 then some (.lp, 1)
  else if 0x040000000000 ≤ a ∧ a < 0x040010000000 then some (.cru, 0)
  else if 0x040010000000 ≤ a ∧ a < 0x040020000000 then some (.cru, 1)
  else none

/-- Is the address in CSR space? Its die. -/
def csrDie (a : Nat) : Option Nat :=
  if 0x080000000000 ≤ a ∧ a < 0x080004000000 then some 0
  else if 0x080004000000 ≤ a ∧ a < 0x080008000000 then some 1
  else none

/-- HBM decode (R250): channel within the die, pseudo-channel of the channel, byte offset in it. -/
def hbmDecode (fine : Bool) (o : Nat) : Nat × Nat × Nat :=
  if fine then
    let u := o / 256
    let i := Nat.xor (Nat.xor (u % 128) (u / 128 % 128)) (u / 16384 % 128)
    (i / 2, i % 2, u / 128 * 256 + o % 256)
  else
    let f := o / 2097152
    let r := o % 2097152
    let v := r / 256
    (Nat.xor (f % 64) (f / 64 % 64), v % 2, f / 64 * 1048576 + v / 2 * 256 + r % 256)

/-- The address within the die of a byte of a pseudo-channel: `hbmDecode` undone (R250). -/
def hbmEncode (fine : Bool) (c p off : Nat) : Nat :=
  if fine then
    let hi := off / 256
    (hi * 128 + Nat.xor (Nat.xor (2 * c + p) (hi % 128)) (hi / 128 % 128)) * 256 + off % 256
  else
    let f := off / 1048576
    let w := off % 1048576
    (64 * f + Nat.xor c (f % 64)) * 2097152 + (2 * (w / 256) + p) * 256 + w % 256
/-- The address that the byte at an HBM address has after a change of the interleave: the byte stays where it is (R250). -/
def hbmMoved (old new : Bool) (a : Nat) : Nat :=
  let d := a / 0x003000000000
  let (c, p, o) := hbmDecode old (a % 0x003000000000)
  d * 0x003000000000 + hbmEncode new c p o

/-- LP decode (R253): channel within the die and raw channel address. -/
def lpDecode (o : Nat) : Nat × Nat :=
  let f := o / 1835008
  let r := o % 1835008
  let n := r / 256
  (Nat.xor (f % 32) (f / 32 % 32), f / 32 * 2097152 + 2048 * (n / 7) + 256 * (n % 7) + r % 256)

/-- The address within the die of the chunk at position `q` of a channel's group `g`: `lpDecode` undone (R253). -/
def lpChunk (c g q : Nat) : Nat :=
  let f := g / 1024
  (32 * f + Nat.xor c (f % 32)) * 1835008 + (7 * (g % 1024) + q) * 256
/-- The raw channel address of the two check bytes of the codeword at a raw channel address (R252). -/
def lpCheckAt (raw : Nat) : Nat := raw / 2048 * 2048 + 1792 + 32 * (raw % 2048 / 256) + 2 * (raw % 256 / 16)

/-- Crucible bank (R254). -/
def cruBank (o : Nat) : Nat := Nat.xor (o / 64 % 512) (o / 64 / 512 % 512)

/-- The unit that serves an address: tier, die, channel (0 for a Crucible), pseudo-channel (R262). -/
structure MemUnit where
  tier   : Tier
  die    : Nat
  chan   : Nat
  pseudo : Nat
  deriving DecidableEq, Repr

def memUnitOf (fine : Bool) (a : Nat) : Option MemUnit :=
  match tierOf a with
  | none => none
  | some (.hbm, d) =>
    let (c, p, _) := hbmDecode fine (a - d * 0x003000000000)
    some ⟨.hbm, d, c, p⟩
  | some (.lp, d) => some ⟨.lp, d, (lpDecode (a - 0x010000000000 - d * 0x007000000000)).1, 0⟩
  | some (.cru, d) => some ⟨.cru, d, 0, 0⟩

/-- Sectors of 64 bytes that a run of bytes at an address spans (R225). -/
def sectorsOf (addr len : Nat) : Nat := if len = 0 then 0 else (addr + len - 1) / 64 - addr / 64 + 1
/-- Bytes of a write unit: 32 in HBM, 16 elsewhere (R258). -/
def writeUnit : Tier → Nat
  | .hbm => 32
  | _ => 16

end Sys2Proof.Machine
end

