-- ==== Sys2Proof/Machine/Gather.lean ====
section
/-! DEFINITION. Gather: bags, pooling, sparse-gradient merging, the shard map and row packets (spec/09, R224 to R239). -/

namespace Sys2Proof.Machine

/-- The checks of R224 on a class-5 descriptor. -/
def tableDescOk (d : HDesc) : Bool :=
  (d.fmt == .q4 || d.fmt == .q8) && d.rankM1 == 1 && d.redAxis == 0 && d.ext.d0 ≤ d.tile.d0 && d.hotLimit == 0

/-- Is it the all-ones index of R229? -/
def padIndex (f : Fmt) (x : Nat) : Bool := if f = .u64 then x == 2 ^ 64 - 1 else x == 2 ^ 32 - 1
/-- The all-ones index. -/
def onesIndex (f : Fmt) : Nat := if f = .u64 then 2 ^ 64 - 1 else 2 ^ 32 - 1

/-- Bag bounds: f_b = min(offsets[b], n_t) (R228). -/
def bagBounds (nt : Nat) (offsets : List Nat) : List Nat := offsets.map fun o => min o nt

/-- Offsets elements that exceed n_t or are smaller than the one before (R228). -/
def badOffsets (nt : Nat) (offsets : List Nat) : Nat :=
  (offsets.zipIdx).countP fun q => nt < q.1 || (q.2 != 0 && q.1 < offsets.getD (q.2 - 1) 0)

/-- Index positions of bag `b`. -/
def bagPositions (bounds : List Nat) (b : Nat) : List Nat :=
  let lo := bounds.getD b 0
  let hi := bounds.getD (b + 1) 0
  (List.range (hi - lo)).map fun k => lo + k

/-- The kinds of pooling. -/
inductive Pool where
  | sum | mean | max
  deriving DecidableEq, Repr

/-- Pool one element over a bag's non-padding (position in bag, row index, value) (R230, R136); the winner's row
index is all ones for an empty bag. -/
def poolElement (k : Pool) (f : Fmt) (xs : List (Nat × Nat × Word)) : Word × Nat :=
  match xs with
  | [] => (0, onesIndex f)
  | q :: r =>
    match k with
    | .sum => (r.foldl (fun a t => fpAdd a t.2.2) q.2.2, 0)
    | .mean => (fpDiv (r.foldl (fun a t => fpAdd a t.2.2) q.2.2) (fpOfInt (r.length + 1) 0), 0)
    | .max =>
      match winner true (xs.map fun t => (t.1, t.2.2)) with
      | some (p, w) => (w, ((xs.find? fun t => t.1 == p).map fun t => t.2.1).getD 0)
      | none => (0, onesIndex f)

/-- Merge rows by index (R237): distinct indices ascending, each with the left fold of its rows in position order. -/
def mergeRows (xs : List (Nat × List Word)) : List (Nat × List Word) :=
  let keys := sortBy id ((xs.map (·.1)).foldl (fun acc k => if acc.contains k then acc else acc ++ [k]) [])
  keys.map fun k =>
    match xs.filter fun q => q.1 == k with
    | [] => (k, [])
    | q :: r => (k, r.foldl (fun a t => List.zipWith fpAdd a t.2) q.2)

/-- The union with a prior merged list (R238): prior + fold where both hold the index. -/
def mergeUnion (prior new : List (Nat × List Word)) : List (Nat × List Word) :=
  let both := prior.map fun p =>
    match new.find? fun q => q.1 == p.1 with
    | some q => (p.1, List.zipWith fpAdd p.2 q.2)
    | none => p
  sortBy (·.1) (both ++ new.filter fun q => !prior.any fun p => p.1 == q.1)

/-! ### The shard map (R231, R232, R243) -/

/-- A table-map record. -/
structure TableMap where
  table  : Nat
  merge  : Nat
  rows   : Nat
  seed   : Nat
  shards : Nat
  rank   : Nat
  cgroup : Nat
  deriving DecidableEq, Repr

def TableMap.ofBytes (bs : Bytes) : TableMap :=
  { table := leAt bs 0 4 % 2 ^ 20, merge := leAt bs 4 4 % 2 ^ 20, rows := leAt bs 8 8, seed := leAt bs 16 8
    shards := leAt bs 24 2, rank := leAt bs 26 2, cgroup := leAt bs 28 1 }

def tableMapResvOk (bs : Bytes) : Bool :=
  bs.length == 32 && leAt bs 0 4 < 2 ^ 20 && leAt bs 4 4 < 2 ^ 20 && leAt bs 29 3 == 0

/-- One pass of the loop body of row_perm over k bits. -/
def permPass (k seed x : Nat) : Nat :=
  let m := 2 ^ k
  let s := (k + 1) / 2
  let x := Nat.xor x seed % m
  let x := x * 0x9E3779B97F4A7C15 % m
  let x := Nat.xor x (x >>> s)
  let x := x * 0xBF58476D1CE4E5B9 % m
  Nat.xor x (x >>> s)

/-- Walk back into [0, N): at most `fuel` passes. -/
def permWalk (n k seed : Nat) : Nat → Nat → Nat
  | 0, x => x
  | fuel + 1, x =>
    let y := permPass k seed x
    if y < n then y else permWalk n k seed fuel y

/-- The smallest k ≥ 1 with 2^k ≥ N. -/
def permBits (n : Nat) : Nat := if n ≤ 2 then 1 else (n - 1).log2 + 1

/-- row_perm of R231. The cycle through a value below 2^k has at most 2^k members. -/
def rowPerm (g n seed : Nat) : Nat :=
  if n = 1 then 0 else permWalk n (permBits n) seed (2 ^ permBits n) g

/-- The owner and local row of a global row (R231). -/
def shardOf (t : TableMap) (g : Nat) : Nat × Nat :=
  let p := rowPerm g t.rows t.seed
  (p % t.shards, p / t.shards)

/-- Rows the shard of rank k holds: ceil((N − k) / S) (R232). -/
def shardRows (t : TableMap) : Nat := ceilDiv (t.rows - t.rank) t.shards

/-! ### Row packets (R235) -/

/-- The packet of row `o` of a table tile record. -/
def rowPacket (f : Fmt) (g : Geom) (bs : Bytes) (o : Nat) : Bytes :=
  let nb := g.r / 32
  let b0 := nb * o
  let esc := (List.range nb).flatMap fun q =>
    (List.range 32).filterMap fun l =>
      if recCode f bs (b0 + q) l = f.escCode then
        (escValue f g bs (b0 + q) l).map fun v => (q * 32 + l) * 65536 + v.toNat
      else none
  let body := toLe 1 f.code ++ toLe 1 (leAt bs 1 1) ++ toLe 2 esc.length ++ zeroBytes 4
    ++ (List.range nb).flatMap (fun q => toLe 2 (recBlkWord f g bs (b0 + q)))
    ++ subBytes bs (16 + f.codeBytes * b0) (f.codeBytes * nb)
    ++ esc.flatMap (toLe 4)
  fitBytes (roundUp body.length 16) body

/-- Bytes of a row packet of a table's format, as its header states. -/
def rowPacketLen (f : Fmt) (nb : Nat) (p : Bytes) : Nat := roundUp (8 + 2 * nb + f.codeBytes * nb + 4 * leAt p 2 2) 16
/-- The code of a lane of a row packet. -/
def packetCode (f : Fmt) (nb : Nat) (p : Bytes) (r : Nat) : Int :=
  let codes := p.drop (8 + 2 * nb)
  if f = .q4
  then let v := leAt codes (16 * (r / 32) + r % 32 / 2) 1; ((if r % 2 = 0 then v % 16 else v / 16 : Nat) : Int)
  else signedOf 8 (leAt codes r 1)
/-- The escape entries of a row packet. -/
def packetEscs (f : Fmt) (nb : Nat) (p : Bytes) : List Nat :=
  (List.range (leAt p 2 2)).map fun i => leAt p (8 + 2 * nb + f.codeBytes * nb + 4 * i) 4

/-- Decode the value at index `r` along the embedding dimension from a row packet, in the table's format (R236, R74). -/
def packetValue (f : Fmt) (nb : Nat) (p : Bytes) (r : Nat) : Word :=
  let h := blkHdrOf f (leAt p (8 + 2 * (r / 32)) 2)
  let c := packetCode f nb p r
  if c = f.escCode then
    match (packetEscs f nb p).find? fun e => e / 65536 == r with
    | some e => ofBf16 (BitVec.ofNat 16 e)
    | none => 0
  else (Lane.code (c - h.z) h.delta).value (leAt p 1 1)
/-- Is a row packet well formed, as the record it comes from would be (R73, R235, R245)? -/
def rowPacketOk (f : Fmt) (nb : Nat) (p : Bytes) : Bool :=
  let esc (r : Nat) : Bool := packetCode f nb p r == f.escCode
  let es := packetEscs f nb p
  leAt p 0 1 == f.code && leAt p 4 4 == 0 && p.length == rowPacketLen f nb p
  && (List.range nb).all (fun q =>
      let w := leAt p (8 + 2 * q) 2
      blkHdrResvOk f w && (blkHdrOf f w).x == (List.range 32).countP fun l => esc (32 * q + l))
  && es.length == (List.range (32 * nb)).countP esc && strictAsc (es.map fun e => e / 65536)
  && es.all (fun e => e / 65536 < 32 * nb && esc (e / 65536))
  && (p.drop (8 + 2 * nb + f.codeBytes * nb + 4 * es.length)).all (· == 0)

/-- The sectors of a side list that a binary search visits after the first one: `key j` is the block of the first entry in sector `j`,
and sectors lo to hi − 1 are in question (R225). The last interval's sector is visited already. -/
def sectorSearch (key : Nat → Nat) (want : Nat) : Nat → Nat → Nat → List Nat
  | 0, _, _ => []
  | fuel + 1, lo, hi =>
    if hi ≤ lo + 1 then [] else
    let mid := (lo + hi) / 2
    mid :: (if key mid < want then sectorSearch key want fuel mid hi else sectorSearch key want fuel lo mid)
/-- The sectors of a side list that the read of a row visits, the list beginning at address `a`: the first, those of the search, and
those that hold the row's entries, without which its values are not known: a row with more entries than two sectors hold may pass
R225's bound (log entry 77). -/
def sideSectors (a : Nat) (entries : List Nat) (want nb : Nat) : List Nat :=
  let total := sectorsOf a (16 + 4 * entries.length)
  let sector (e : Nat) : Nat := (a + 16 + 4 * e) / 64 - a / 64
  let firstOf (j : Nat) : Nat := (64 * (a / 64 + j) - a - 16) / 4
  let key (j : Nat) : Nat := fld (entries.getD (firstOf j) 0) 31 21
  let own := (entries.zipIdx.filter fun q => want ≤ fld q.1 31 21 && fld q.1 31 21 < want + nb).map fun q => sector q.2
  dedup (0 :: sectorSearch key want total 0 total ++ own)

end Sys2Proof.Machine
end

