-- ==== Sys2Proof/Machine/Lehr.lean ====
section
/-! DEFINITION. Lehr's arithmetic: optimiser slots, the update, stochastic rounding, the ratio monitor and the row
update (spec/07, R170 to R184). -/

namespace Sys2Proof.Machine

/-- An optimiser slot (R170). -/
structure OptSlot where
  kind      : Nat
  m16       : Bool
  mom16     : Bool
  trust     : Bool
  clip      : Bool
  nfApply   : Bool
  lr        : Word
  b1        : Word
  b2        : Word
  eps       : Word
  wd        : Word
  gscale    : Word
  trustCoef : Word
  trustMax  : Word
  tBase     : Nat
  deriving DecidableEq, Repr

def OptSlot.ofBytes (bs : Bytes) : OptSlot :=
  let fl := leAt bs 1 1
  let w (o : Nat) : Word := BitVec.ofNat 32 (leAt bs o 4)
  { kind := leAt bs 0 1, m16 := bitAt fl 0, mom16 := bitAt fl 1, trust := bitAt fl 2, clip := bitAt fl 3
    nfApply := bitAt fl 4, lr := w 4, b1 := w 8, b2 := w 12, eps := w 16, wd := w 20, gscale := w 24
    trustCoef := w 28, trustMax := w 32, tBase := leAt bs 56 8 }

/-- a ≤ b, both numbers. -/
def fpLe (a b : Word) : Bool := fpLt a b || fpEq a b
/-- 0 ≤ x < 1. -/
def unitRange (x : Word) : Bool := isFin x && fpLe 0 x && fpLt x one32
/-- Finite and at least zero. -/
def finNonneg (x : Word) : Bool := isFin x && fpLe 0 x
/-- Finite and above zero. -/
def finPos (x : Word) : Bool := isFin x && fpLt 0 x

/-- May the record be written as a slot (R170)? -/
def optSlotOk (bs : Bytes) : Bool :=
  let s := OptSlot.ofBytes bs
  bs.length == 64 && fld (leAt bs 1 1) 7 5 == 0 && leAt bs 2 2 == 0 && leAt bs 36 20 == 0
  && (s.kind == 0 ||
      (s.kind ≤ 3 && finNonneg s.lr && isFin s.gscale
        && (if s.kind == 3 then true else unitRange s.b1)
        && (if s.kind == 2 then unitRange s.b2 else s.b2 == 0)
        && (if s.kind == 1 then s.eps == 0 else finPos s.eps)
        && (if s.kind == 3 then s.wd == 0 else finNonneg s.wd)
        && (!s.trust || (s.kind != 3 && finPos s.trustCoef && isFin s.trustMax && fpLe one32 s.trustMax))))

/-- The generator of R180. -/
def lehrRand (seed step handle stream index : Nat) : Word :=
  let w (n : Nat) : Word := BitVec.ofNat 32 n
  let k := mix32 (w seed ^^^ w step)
  let k := mix32 (k ^^^ w (seed >>> 32))
  let k := mix32 (k ^^^ w (step >>> 32))
  let k := mix32 (k ^^^ w ((handle % 2 ^ 20) * 16) ^^^ w (stream % 16))
  let k := mix32 (k ^^^ w (index >>> 32))
  mix32 (k ^^^ w index)

/-- The stochastic store to BF16 (R179). -/
def toBf16Sr (f : Word) (r : Half) : Half :=
  if f &&& 0x7F800000#32 = 0x7F800000#32 then toBf16 f
  else ((f + r.setWidth 32) >>> 16).setWidth 16

/-- bias_corr of R173: 1 − β^t in binary64, one rounding to FP32. -/
def biasCorrAux (beta : Num) (t : Nat) : Nat → Nat → Nat
  | 0, p => p
  | i + 1, p =>
    let q := f64.encode (f64.mulX (f64.decode p) (f64.decode p))
    let q := if bitAt t i then f64.encode (f64.mulX (f64.decode q) beta) else q
    biasCorrAux beta t i q
def biasCorr (beta : Word) (t : Nat) : Word :=
  let one64 : Nat := 0x3FF0000000000000
  let b64 := f64.decode (f64.encode (dec32 beta))
  let p := biasCorrAux b64 t 64 one64
  let d := f64.addN (f64.decode one64) (f64.decode p).neg
  enc32 (f32.encode (f64.decode d))

/-- t of R173. -/
def adamT (step tBase : Nat) : Nat := max 1 (step + 1 - tBase)

/-- The per-step constants of an UPDATE (R172, R175, R184). -/
structure UpdConst where
  slot  : OptSlot
  lrEff : Word
  bc1   : Word
  bc2   : Word
  deriving DecidableEq, Repr

def updConst (slot : OptSlot) (step : Nat) (tau c : Word) (clipped : Bool) : UpdConst :=
  let e := fpMul slot.lr tau
  { slot := slot, lrEff := if clipped then fpMul e c else e
    bc1 := biasCorr slot.b1 (adamT step slot.tBase), bc2 := biasCorr slot.b2 (adamT step slot.tBase) }

/-- One element of an UPDATE before its stores (R172, R174). -/
structure UpdElt where
  left  : Bool   -- left unchanged under R174
  m     : Word
  v     : Word
  d     : Word
  delta : Word
  wNew  : Word
  keepW : Bool   -- the master is not stored (lr_eff is +0)
  deriving DecidableEq, Repr

def updElement (k : UpdConst) (gIn w m v : Word) : UpdElt :=
  let s := k.slot
  let g := fpMul s.gscale gIn
  if !isFin g && !s.nfApply then ⟨true, m, v, 0, 0, w, true⟩
  else
    let m' := if s.kind = 1 then fpAdd (fpMul s.b1 m) g
              else fpAdd (fpMul s.b1 m) (fpMul (fpSub one32 s.b1) g)
    let v' := if s.kind = 1 then v
              else fpAdd (fpMul s.b2 v) (fpMul (fpSub one32 s.b2) (fpMul g g))
    let d := if s.kind = 1 then fpAdd m' (fpMul s.wd w)
             else fpAdd (fpDiv (fpDiv m' k.bc1) (fpAdd (fpSqrt (fpDiv v' k.bc2)) s.eps)) (fpMul s.wd w)
    if k.lrEff = 0 then ⟨false, m', v', d, 0, w, true⟩
    else
      let delta := fpMul k.lrEff d
      ⟨false, m', v', d, delta, fpSub w delta, false⟩

/-- The three sums of R182 over the elements of a tile, by linear position. -/
def ratioSums (xs : List (Nat × Word × UpdElt)) : Word × Word × Word :=
  let live := xs.filter fun q => !q.2.2.left
  (laneSum (xs.map fun q => (q.1, fpMul q.2.1 q.2.1)),
   laneSum (live.map fun q => (q.1, fpMul q.2.2.d q.2.2.d)),
   laneSum (live.map fun q => (q.1, fpMul q.2.2.delta q.2.2.delta)))

/-- The ratio sqrt(num / sw), +0 when both are +0 (R183). -/
def ratioOf (num sw : Word) : Word := if num = 0 ∧ sw = 0 then 0 else fpSqrt (fpDiv num sw)

/-- τ from the direction ratio agreed in the step before (R175); none when there is no agreed value. -/
def trustTau (slot : OptSlot) (rhoD : Option Word) : Word :=
  if !slot.trust then one32 else
  match rhoD with
  | none => one32
  | some r =>
    if isNan r then one32
    else if r = 0 then slot.trustMax
    else fpMin slot.trustMax (fpDiv slot.trustCoef r)

/-- One row of a ROW_UPDATE (R176): the new row and accumulator, or none where the row is left unchanged. -/
def rowUpdate (slot : OptSlot) (g w : List Word) (acc : Word) : Option (List Word × Word) :=
  let gs := g.map fun x => fpMul slot.gscale x
  if !slot.nfApply && gs.any (fun x => !isFin x) then none
  else
    let s := laneSum ((gs.zipIdx).map fun q => (q.2, fpMul q.1 q.1))
    let acc' := fpAdd acc (fpDiv s (fpOfInt gs.length 0))
    let den := fpAdd (fpSqrt acc') slot.eps
    some ((w.zip gs).map fun q => fpSub q.1 (fpMul slot.lr (fpDiv q.2 den)), acc')

/-! ### Re-encoding the updated rows of a table tile in place (R177) -/

/-- A re-encoding's outcome: the record and the counts of the re-encoded blocks. -/
structure ReEnc where
  bytes : Bytes
  stat  : EncStat
  deriving DecidableEq, Repr

/-- Re-encode the blocks that `upd` names, from the (rotated) values `y`, keeping the tile's base and every other
block's codes and entries. A segment header's counts become the new counts where the old ones were zero; where the old
ones were not, the spec does not say what remains of them, and `fv` supplies a free value, by old count, new count, segment
and which of the two. -/
def reencodeBlocks (f : Fmt) (g : Geom) (pol : ScalePolicy) (old : Bytes) (upd : Nat → Bool) (y : Dim4 → Word)
    (fv : List Nat → Nat) : ReEnc :=
  let base := leAt old 1 1
  let lanes (b : Nat) : List Word :=
    ((List.range 32).map fun l => g.ofBlock b l).filterMap fun i => if g.inside i then some (y i) else none
  -- delta and Z: an empty updated block follows the block before it (R99), which may be an old one
  let choices := ((List.range g.nb).foldl (fun (acc : List (Nat × Int) × (Nat × Int)) b =>
    let c :=
      if upd b then (blockChoice f pol.zpMode (pol.allow f) base (lanes b)).getD acc.2
      else let h := recBlkHdr f g old b; (h.delta, h.z)
    (acc.1 ++ [c], c)) ([], (0, emptyZ f pol.zpMode))).1
  let seg (s : Nat) : EscSt × List Nat :=
    let nb := segBlocks g s
    let kept := (segEntries f g old s).filter fun e => fld e 31 21 < nb && !upd (2048 * s + fld e 31 21)
    let sc : Scales := ⟨base, fun b => (choices.getD (2048 * s + b) (0, 0)).1, fun b => (choices.getD (2048 * s + b) (0, 0)).2⟩
    let v := fun b l => y (g.ofBlock (2048 * s + b) l)
    let skip := fun b l => !upd (2048 * s + b) || !g.inside (g.ofBlock (2048 * s + b) l)
    let places := ((List.range nb).flatMap fun b => (List.range 32).map fun l => (b, l)).filter
      fun q => !skip q.1 q.2
    let p1 := places.filterMap fun q =>
      let w := v q.1 q.2
      if isFin w then none
      else some (q.1, q.2, w, (if isInf w then (if signBit w then f.loCode else f.hiCode) else sc.z q.1), true)
    let p2 := places.filterMap fun q =>
      let w := v q.1 q.2
      if !isFin w then none else
      let c := quantOne w base (sc.delta q.1) (sc.z q.1)
      if f.loCode ≤ c ∧ c ≤ f.hiCode then none
      else some (q.1, q.2, w, (if c > f.hiCode then f.hiCode else f.loCode), false)
    ((p1 ++ p2).foldl (offerEsc f) { EscSt.init with count := kept.length }, kept)
  let segs := (List.range g.segs).map seg
  let stat : EncStat := segs.foldl (fun a q => ⟨a.sat + q.1.sat, a.lost + q.1.lost, a.esc + q.1.sides.length⟩) ⟨0, 0, 0⟩
  let blockOut (b : Nat) : Bytes × Nat :=
    if upd b then
      let st := (segs.getD (b / 2048) (EscSt.init, [])).1
      let c := choices.getD b (0, 0)
      let sc : Scales := ⟨base, fun _ => c.1, fun _ => c.2⟩
      (codeBytesOf f (fun l =>
          let i := g.ofBlock b l
          if !g.inside i then c.2
          else match mapGet st.given (b % 2048 * 32 + l) with
            | some k => k
            | none => quantOne (y i) base (sc.delta 0) (sc.z 0)),
        blkHdrWord f ⟨c.1, c.2, mapGetD st.perBlk (b % 2048) 0⟩)
    else (subBytes old (16 + f.codeBytes * b) f.codeBytes, recBlkWord f g old b)
  let blocks := (List.range g.nb).map blockOut
  let count (oldC newC s which : Nat) : Nat := if oldC = 0 then min 65535 newC else fv [oldC, newC, s, which]
  let sides := (segs.zipIdx).flatMap fun q =>
    let (_, os, ol) := segHdr f g old q.2
    toLe 2 q.1.1.count ++ toLe 2 (count os q.1.1.sat q.2 0) ++ toLe 2 (count ol q.1.1.lost q.2 1)
    ++ zeroBytes 10
    ++ fitBytes 2048 ((sortBy (fun e => e / 65536) (q.1.2 ++ q.1.1.sides)).flatMap (toLe 4))
  let lossy := (segs.zipIdx).any fun q =>
    count (segHdr f g old q.2).2.2 q.1.1.lost q.2 1 != 0
  let hdr := overlay (subBytes old 0 16) 4
    (toLe 1 (leAt old 4 1 % 2 + (if lossy then 2 else 0)))
  ⟨hdr ++ blocks.flatMap (·.1) ++ fitBytes (roundUp (2 * g.nb) 16) (blocks.flatMap fun q => toLe 2 q.2)
    ++ sides ++ old.drop (recHotOff f g), stat⟩

end Sys2Proof.Machine
end

