-- ==== Sys2Proof/Machine/Codes.lean ====
section
/-! DEFINITION. The published codes the module uses: CRC-32C, SHAKE256 (FIPS 202) and RS(136, 128) over GF(2^8)
(R303). -/

namespace Sys2Proof.Machine

/-! ### CRC-32C -/

/-- Eight steps of the reflected CRC-32C register. -/
def crcBits : Nat → Word → Word
  | 0, c => c
  | n + 1, c => crcBits n (if c.getLsbD 0 then (c >>> 1) ^^^ 0x82F63B78#32 else c >>> 1)

/-- CRC-32C of a byte string. -/
def crc32c (bs : Bytes) : Word :=
  (bs.foldl (fun c b => crcBits 8 (c ^^^ b.setWidth 32)) 0xFFFFFFFF#32) ^^^ 0xFFFFFFFF#32

/-! ### SHAKE256 -/

/-- The round constants of Keccak-f[1600]. -/
def keccakRc : List DWord :=
  [0x0000000000000001#64, 0x0000000000008082#64, 0x800000000000808A#64, 0x8000000080008000#64,
   0x000000000000808B#64, 0x0000000080000001#64, 0x8000000080008081#64, 0x8000000000008009#64,
   0x000000000000008A#64, 0x0000000000000088#64, 0x0000000080008009#64, 0x000000008000000A#64,
   0x000000008000808B#64, 0x800000000000008B#64, 0x8000000000008089#64, 0x8000000000008003#64,
   0x8000000000008002#64, 0x8000000000000080#64, 0x000000000000800A#64, 0x800000008000000A#64,
   0x8000000080008081#64, 0x8000000000008080#64, 0x0000000080000001#64, 0x8000000080008008#64]

/-- The rotation of lane x + 5y. -/
def keccakRot : List Nat :=
  [0, 1, 62, 28, 27, 36, 44, 6, 55, 20, 3, 10, 43, 25, 39, 41, 45, 15, 21, 8, 18, 2, 61, 56, 14]

/-- One round on 25 lanes (lane x + 5y). -/
def keccakRound (rc : DWord) (a : List DWord) : List DWord :=
  let g (l : List DWord) (i : Nat) : DWord := l.getD i 0
  let c := (List.range 5).map fun x => g a x ^^^ g a (x + 5) ^^^ g a (x + 10) ^^^ g a (x + 15) ^^^ g a (x + 20)
  let d := (List.range 5).map fun x => g c ((x + 4) % 5) ^^^ (g c ((x + 1) % 5)).rotateLeft 1
  let a := (List.range 25).map fun i => g a i ^^^ g d (i % 5)
  -- rho and pi: lane (x, y) goes to (y, 2x + 3y)
  let b := (List.range 25).map fun i =>
    let x := i % 5
    let y := i / 5
    -- the source of target (x, y) is (x + 3y, x)
    let sx := (x + 3 * y) % 5
    let s := sx + 5 * x
    (g a s).rotateLeft (keccakRot.getD s 0)
  let e := (List.range 25).map fun i =>
    let x := i % 5
    let y := i / 5
    g b i ^^^ (~~~ (g b ((x + 1) % 5 + 5 * y)) &&& g b ((x + 2) % 5 + 5 * y))
  e.modify 0 fun w => w ^^^ rc

def keccakF (a : List DWord) : List DWord := keccakRc.foldl (fun s rc => keccakRound rc s) a

/-- Absorb `n` blocks of 136 bytes. -/
def shakeAbsorb : Nat → Bytes → List DWord → List DWord
  | 0, _, a => a
  | n + 1, bs, a =>
    let a := (List.range 25).map fun i =>
      if i < 17 then a.getD i 0 ^^^ BitVec.ofNat 64 (leAt bs (8 * i) 8) else a.getD i 0
    shakeAbsorb n (bs.drop 136) (keccakF a)

/-- Squeeze `n` blocks of 136 bytes. -/
def shakeSqueeze : Nat → List DWord → Bytes
  | 0, _ => []
  | n + 1, a => (a.take 17).flatMap (fun w => toLe 8 w.toNat) ++ shakeSqueeze n (keccakF a)

/-- The first `len` bytes of SHAKE256 of a byte string. -/
def shake256 (bs : Bytes) (len : Nat) : Bytes :=
  let blocks := bs.length / 136 + 1
  let padded := fitBytes (136 * blocks) (bs ++ [0x1F#8])
  let last := 136 * blocks - 1
  let padded := padded.modify last fun b => b ^^^ 0x80#8
  (shakeSqueeze (len / 136 + 1) (shakeAbsorb blocks padded (List.replicate 25 0))).take len

/-! ### RS(136, 128) (R303). Codeword byte 0 is the coefficient of the highest power. -/

/-- a × x in GF(2^8) modulo x^8 + x^4 + x^3 + x^2 + 1. -/
def g8X (a : Byte) : Byte := if a.getLsbD 7 then (a <<< 1) ^^^ 0x1D#8 else a <<< 1

def g8MulAux (b : Byte) : Nat → Byte → Byte
  | 0, _ => 0
  | n + 1, a => (if b.getLsbD (7 - n) then a else 0) ^^^ g8MulAux b n (g8X a)
/-- The field product. -/
def g8Mul (a b : Byte) : Byte := g8MulAux b 8 a

def g8Pow (a : Byte) : Nat → Byte
  | 0 => 1
  | n + 1 => g8Mul a (g8Pow a n)
/-- a^254, the inverse. -/
def g8Inv (a : Byte) : Byte :=
  let a2 := g8Mul a a
  let a4 := g8Mul a2 a2
  let a8 := g8Mul a4 a4
  let a16 := g8Mul a8 a8
  let a32 := g8Mul a16 a16
  let a64 := g8Mul a32 a32
  let a128 := g8Mul a64 a64
  g8Mul a128 (g8Mul a64 (g8Mul a32 (g8Mul a16 (g8Mul a8 (g8Mul a4 a2)))))

/-- A polynomial, lowest coefficient first, at a point. -/
def g8Eval (p : Bytes) (x : Byte) : Byte := p.foldr (fun c acc => c ^^^ g8Mul x acc) 0

/-- The eight syndromes of a received codeword. -/
def rsSyndromes (cw : Bytes) : Bytes :=
  (List.range 8).map fun j =>
    let x := g8Pow 2 j
    cw.foldl (fun acc b => g8Mul acc x ^^^ b) 0

/-- The coefficients of g(x) below x^8, highest first, from (x + α^0) … (x + α^7). -/
def rsGenerator : Bytes :=
  let g := (List.range 8).foldl (fun (p : Bytes) i =>
    let a := g8Pow 2 i
    List.zipWith (fun x y => x ^^^ y) (p ++ [0]) (0 :: p.map fun c => g8Mul a c)) [1]
  g.drop 1

/-- The eight parity bytes of 128 data bytes. -/
def rsParity (data : Bytes) : Bytes :=
  let g := rsGenerator
  data.foldl (fun (r : Bytes) b =>
    let f := b ^^^ r.headD 0
    List.zipWith (fun x y => x ^^^ g8Mul f y) (r.drop 1 ++ [0]) g) (List.replicate 8 0)

def rsEncode (data : Bytes) : Bytes := data ++ rsParity data

/-- The state of the Berlekamp–Massey iteration. -/
structure BmState where
  c : Bytes
  b : Bytes
  l : Nat
  m : Nat
  bb : Byte
  deriving DecidableEq, Repr

/-- c − f x^m b, padded. -/
def polySub (c b : Bytes) (f : Byte) (m : Nat) : Bytes :=
  let sh := List.replicate m (0 : Byte) ++ b.map fun x => g8Mul f x
  let n := max c.length sh.length
  (List.range n).map fun i => c.getD i 0 ^^^ sh.getD i 0

def bmStep (s : Bytes) (st : BmState) (n : Nat) : BmState :=
  let d := (List.range st.l).foldl (fun acc i => acc ^^^ g8Mul (st.c.getD (i + 1) 0) (s.getD (n - 1 - i) 0)) (s.getD n 0)
  if d = 0 then { st with m := st.m + 1 }
  else
    let f := g8Mul d (g8Inv st.bb)
    let c' := polySub st.c st.b f st.m
    if 2 * st.l ≤ n then { c := c', b := st.c, l := n + 1 - st.l, m := 1, bb := d }
    else { st with c := c', m := st.m + 1 }

/-- The 128 data bytes of a codeword, up to four byte errors corrected; none where it cannot be corrected. The number of bytes
corrected is answered with it. -/
def rsDecode (cw : Bytes) : Option (Bytes × Nat) :=
  let s := rsSyndromes cw
  if s.all (· == 0) then some (cw.take 128, 0)
  else
    let st := (List.range 8).foldl (bmStep s) ⟨[1], [1], 0, 1, 1⟩
    if 4 < st.l then none else
    let roots := (List.range 136).filter fun i => g8Eval st.c (g8Inv (g8Pow 2 i)) == 0
    if roots.length ≠ st.l then none else
    let omega := (List.range 8).map fun k =>
      (List.range (k + 1)).foldl (fun acc i => acc ^^^ g8Mul (st.c.getD i 0) (s.getD (k - i) 0)) (0 : Byte)
    -- the formal derivative keeps the odd coefficients
    let deriv := (List.range st.c.length).map fun i => if i % 2 = 0 then st.c.getD (i + 1) 0 else 0
    let fixed := roots.foldl (fun (w : Bytes) i =>
      let x := g8Pow 2 i
      let xi := g8Inv x
      let e := g8Mul x (g8Mul (g8Eval omega xi) (g8Inv (g8Eval deriv xi)))
      w.modify (135 - i) fun b => b ^^^ e) cw
    if (rsSyndromes fixed).all (· == 0) then some (fixed.take 128, st.l) else none

/-! ### The line (R302): the scrambler x^58 + x^39 + 1, and PAM4

A stream of bits is a number, its first bit the lowest. What the scrambler holds is the last 58 bits sent, the first of them the
lowest. -/

/-- Scramble a run of bits, up to 39 at a time: the bits sent, and what the scrambler then holds. -/
def scramble : Nat → Nat → Nat → Nat × Nat
  | n, x, h =>
    (List.range (ceilDiv n 39)).foldl (fun (a : Nat × Nat) i =>
      let k := min 39 (n - 39 * i)
      let y := ((x >>> (39 * i)) ^^^ (a.2 >>> 19) ^^^ a.2) % 2 ^ k
      (a.1 ||| (y <<< (39 * i)), (a.2 >>> k) ||| (y <<< (58 - k)))) (0, h)
/-- The bits that a run of received bits carries, and what the descrambler then holds. -/
def descramble (n y h : Nat) : Nat × Nat :=
  let s := h ||| (y <<< 58)
  ((y ^^^ (s >>> 19) ^^^ s) % 2 ^ n, s >>> n)
/-- The level of a pair of bits, and the pair of a level: 00, 01, 11 and 10 map to 0, 1, 2 and 3. -/
def pamLevel (b : Nat) : Nat := match b with | 0 => 0 | 1 => 1 | 3 => 2 | _ => 3
def pamPair (l : Nat) : Nat := match l with | 0 => 0 | 1 => 1 | 2 => 3 | _ => 2
/-- A codeword as the symbols of its lane, the lower pair of each byte first, and what the lane's scrambler then holds. -/
def lineOut (h : Nat) (cw : Bytes) : List Nat × Nat :=
  let n := 8 * cw.length
  let (y, h) := scramble n (ofLe cw) h
  ((List.range (n / 2)).map fun i => pamLevel ((y >>> (2 * i)) % 4), h)
/-- The bytes that the symbols of a lane carry, and what its descrambler then holds. -/
def lineIn (h : Nat) (ls : List Nat) : Bytes × Nat :=
  let y := ls.foldr (fun l a => pamPair l + 4 * a) 0
  let (x, h) := descramble (2 * ls.length) y h
  (toLe (ls.length / 4) x, h)

end Sys2Proof.Machine
end

