-- ==== Sys2Proof/Machine/DictTable.lean ====
section
/-! DEFINITION. The object dictionary's entries: every row of the entry tables of spec/02 and spec/04 to spec/18, with its
type, access, default, persistence, range and the longest value of a STRING or BLOB (R384 to R388). -/

namespace Sys2Proof.Machine

/-- Entry types (R385). -/
inductive DType where
  | u8 | u16 | u32 | u64 | i32 | f32 | string | blob | handle
  deriving DecidableEq, Repr

/-- The code of a type on the wire (R385). -/
def DType.code : DType → Nat
  | .u8 => 1 | .u16 => 2 | .u32 => 3 | .u64 => 4 | .i32 => 5 | .f32 => 6 | .string => 7 | .blob => 8 | .handle => 9
/-- Size in bytes of a fixed-size type; none for STRING and BLOB. -/
def DType.size : DType → Option Nat
  | .u8 => some 1 | .u16 => some 2 | .u32 => some 4 | .u64 => some 8 | .i32 => some 4 | .f32 => some 4
  | .handle => some 4 | .string => none | .blob => none

/-- Access codes (R8). -/
inductive DAccess where
  | ro | rw | wo | rwIdle
  deriving DecidableEq, Repr
/-- Persistence classes (R386); `computed` is the dash of the tables. -/
inductive DPers where
  | volatile | stored | computed
  deriving DecidableEq, Repr

/-- The stated range of an entry: a span, a span or one further value, some values, the bits a mask allows, a finite
F32, an F32 between two values, or a rule of the owning chapter. -/
inductive DRange where
  | any
  | span (lo hi : Nat)
  | spanOr (lo hi other : Nat)
  | oneOf (vs : List Nat)
  | mask (m : Nat)
  | f32fin
  | f32span (lo hi : Nat)
  | special
  deriving DecidableEq, Repr

/-- One row: the index and how many further indices hold a copy of it (one per partition, group or ring), the first and
last subindex, and what the table says of it. -/
structure DictRow where
  idx    : Nat
  copies : Nat
  first  : Nat
  last   : Nat
  typ    : DType
  acc    : DAccess
  dflt   : Nat
  pers   : DPers
  range  : DRange
  maxLen : Nat
  deriving DecidableEq, Repr

/-- Entries of spec/02. -/
def dictRows02 : List DictRow :=
  [ ⟨0x2001, 1, 0x01, 0x01, .u8, .rwIdle, 1, .stored, .oneOf [1, 2, 4], 0⟩,
    ⟨0x2001, 1, 0x02, 0x02, .u8, .ro, 0, .volatile, .any, 0⟩,
    ⟨0x2010, 4, 0x01, 0x01, .u32, .rwIdle, 0x10000, .stored, .span 4096 1048576, 0⟩,
    ⟨0x2010, 4, 0x02, 0x02, .u32, .ro, 0, .volatile, .any, 0⟩,
    ⟨0x2010, 4, 0x03, 0x03, .u8, .ro, 0, .volatile, .any, 0⟩,
    ⟨0x2010, 4, 0x04, 0x04, .u8, .ro, 0, .volatile, .any, 0⟩,
    ⟨0x2010, 4, 0x05, 0x05, .u32, .ro, 0, .volatile, .any, 0⟩,
    ⟨0x2010, 4, 0x06, 0x06, .blob, .ro, 0, .volatile, .any, 48⟩ ]

/-- Entries of spec/04. -/
def dictRows04 : List DictRow :=
  [ ⟨0x4100, 4, 0x01, 0x01, .u8, .rwIdle, 0x10, .stored, .span 4 64, 0⟩,
    ⟨0x4100, 4, 0x02, 0x02, .u8, .rwIdle, 1, .stored, .span 0 4, 0⟩,
    ⟨0x4100, 4, 0x03, 0x03, .u8, .rwIdle, 1, .stored, .span 0 1, 0⟩,
    ⟨0x4100, 4, 0x04, 0x04, .u8, .rwIdle, 1, .stored, .span 0 3, 0⟩,
    ⟨0x4100, 4, 0x05, 0x05, .u8, .rwIdle, 2, .stored, .span 0 3, 0⟩,
    ⟨0x4100, 4, 0x06, 0x06, .u8, .rwIdle, 0, .stored, .span 0 3, 0⟩,
    ⟨0x4100, 4, 0x07, 0x07, .u8, .rwIdle, 4, .stored, .span 2 8, 0⟩,
    ⟨0x4100, 4, 0x08, 0x08, .u8, .rwIdle, 3, .stored, .special, 0⟩,
    ⟨0x4100, 4, 0x09, 0x09, .u8, .rwIdle, 3, .stored, .span 1 8, 0⟩,
    ⟨0x4100, 4, 0x0A, 0x0A, .u8, .rwIdle, 0x20, .stored, .span 1 32, 0⟩,
    ⟨0x4100, 4, 0x0B, 0x0B, .u16, .rwIdle, 0x20, .stored, .span 8 1024, 0⟩,
    ⟨0x4100, 4, 0x10, 0x10, .u32, .ro, 0, .volatile, .any, 0⟩,
    ⟨0x4100, 4, 0x11, 0x11, .u32, .ro, 0, .volatile, .any, 0⟩,
    ⟨0x4100, 4, 0x12, 0x12, .u32, .ro, 0, .volatile, .any, 0⟩,
    ⟨0x4100, 4, 0x13, 0x13, .u32, .ro, 0, .volatile, .any, 0⟩,
    ⟨0x4100, 4, 0x14, 0x14, .u32, .ro, 0, .volatile, .any, 0⟩ ]

/-- Entries of spec/06. -/
def dictRows06 : List DictRow :=
  [ ⟨0x4110, 4, 0x01, 0x01, .u8, .rwIdle, 3, .stored, .span 1 8, 0⟩,
    ⟨0x4110, 4, 0x02, 0x02, .u16, .rwIdle, 4, .stored, .span 1 1024, 0⟩,
    ⟨0x4110, 4, 0x03, 0x03, .u16, .rwIdle, 0x40, .stored, .span 8 4096, 0⟩,
    ⟨0x4110, 4, 0x04, 0x04, .u8, .rw, 0, .volatile, .span 0 4, 0⟩,
    ⟨0x4110, 4, 0x05, 0x05, .u8, .rwIdle, 0x14, .stored, .span 0 50, 0⟩,
    ⟨0x4110, 4, 0x10, 0x10, .u64, .ro, 0, .volatile, .any, 0⟩,
    ⟨0x4110, 4, 0x11, 0x11, .u64, .ro, 0, .volatile, .any, 0⟩,
    ⟨0x4110, 4, 0x12, 0x12, .u64, .ro, 0, .volatile, .any, 0⟩,
    ⟨0x4110, 4, 0x13, 0x13, .u64, .ro, 0, .volatile, .any, 0⟩,
    ⟨0x4110, 4, 0x14, 0x14, .u32, .ro, 0, .volatile, .any, 0⟩,
    ⟨0x4110, 4, 0x15, 0x15, .u32, .ro, 0, .volatile, .any, 0⟩,
    ⟨0x4110, 4, 0x16, 0x16, .blob, .ro, 0, .volatile, .any, 20⟩,
    ⟨0x4110, 4, 0x17, 0x17, .u32, .ro, 0, .volatile, .any, 0⟩,
    ⟨0x4110, 4, 0x20, 0x20, .u16, .rw, 0, .volatile, .any, 0⟩,
    ⟨0x4110, 4, 0x21, 0x21, .blob, .ro, 0, .volatile, .any, 32768⟩ ]

/-- Entries of spec/07. -/
def dictRows07 : List DictRow :=
  [ ⟨0x4120, 4, 0x01, 0x01, .f32, .rw, 0x358637BD, .stored, .special, 0⟩,
    ⟨0x4120, 4, 0x02, 0x02, .f32, .rw, 0x3C23D70A, .stored, .special, 0⟩,
    ⟨0x4120, 4, 0x03, 0x03, .f32, .rw, 0x3D4CCCCD, .stored, .special, 0⟩,
    ⟨0x4120, 4, 0x04, 0x04, .u32, .rwIdle, 0x1000, .stored, .span 0 65536, 0⟩,
    ⟨0x4120, 4, 0x10, 0x10, .u64, .ro, 0, .volatile, .any, 0⟩,
    ⟨0x4120, 4, 0x11, 0x11, .u64, .ro, 0, .volatile, .any, 0⟩,
    ⟨0x4120, 4, 0x12, 0x12, .u32, .ro, 0, .volatile, .any, 0⟩,
    ⟨0x4120, 4, 0x13, 0x13, .u32, .ro, 0, .volatile, .any, 0⟩,
    ⟨0x4120, 4, 0x14, 0x14, .u32, .ro, 0, .volatile, .any, 0⟩,
    ⟨0x4120, 4, 0x20, 0x20, .u16, .rw, 0, .volatile, .any, 0⟩,
    ⟨0x4120, 4, 0x21, 0x21, .blob, .ro, 0, .volatile, .any, 65536⟩,
    ⟨0x4120, 4, 0x22, 0x22, .u64, .ro, 0, .volatile, .any, 0⟩,
    ⟨0x4130, 4, 0x01, 0x10, .blob, .rwIdle, 0, .volatile, .any, 64⟩,
    ⟨0x4130, 4, 0x21, 0x30, .blob, .rw, 0, .volatile, .any, 16⟩ ]

/-- Entries of spec/08. -/
def dictRows08 : List DictRow :=
  [ ⟨0x2030, 4, 0x01, 0x01, .u16, .rwIdle, 0, .stored, .any, 0⟩,
    ⟨0x2030, 4, 0x02, 0x02, .u8, .rwIdle, 0, .stored, .span 0 31, 0⟩,
    ⟨0x2030, 4, 0x03, 0x03, .u32, .rw, 0, .stored, .span 0 1000000, 0⟩,
    ⟨0x2030, 4, 0x04, 0x04, .u16, .rw, 0xFFFF, .stored, .spanOr 0 4095 65535, 0⟩,
    ⟨0x2030, 4, 0x05, 0x05, .u8, .rw, 0, .stored, .span 0 3, 0⟩,
    ⟨0x2030, 4, 0x06, 0x06, .u32, .rwIdle, 0, .stored, .special, 0⟩,
    ⟨0x2030, 4, 0x07, 0x07, .u8, .rw, 0x10, .stored, .span 1 255, 0⟩,
    ⟨0x2030, 4, 0x08, 0x08, .u32, .rw, 1, .stored, .span 1 1000000, 0⟩,
    ⟨0x2030, 4, 0x10, 0x10, .u64, .ro, 0, .volatile, .any, 0⟩,
    ⟨0x2030, 4, 0x11, 0x11, .u64, .ro, 0xFFFFFFFFFFFFFFFF, .volatile, .any, 0⟩,
    ⟨0x2030, 4, 0x12, 0x12, .u8, .ro, 0, .volatile, .any, 0⟩,
    ⟨0x2030, 4, 0x13, 0x13, .u32, .ro, 0, .volatile, .any, 0⟩,
    ⟨0x2030, 4, 0x14, 0x14, .u32, .ro, 0, .volatile, .any, 0⟩,
    ⟨0x2030, 4, 0x15, 0x15, .u32, .ro, 0, .volatile, .any, 0⟩,
    ⟨0x2030, 4, 0x16, 0x16, .blob, .ro, 0, .volatile, .any, 64⟩,
    ⟨0x2030, 4, 0x17, 0x17, .u32, .ro, 0, .volatile, .any, 0⟩,
    ⟨0x2030, 4, 0x18, 0x18, .blob, .ro, 0, .volatile, .any, 65536⟩ ]

/-- Entries of spec/09. -/
def dictRows09 : List DictRow :=
  [ ⟨0x2040, 4, 0x01, 0x20, .blob, .rwIdle, 0, .volatile, .any, 32⟩,
    ⟨0x2048, 4, 0x01, 0x01, .u32, .rwIdle, 0x4000, .stored, .special, 0⟩,
    ⟨0x2048, 4, 0x02, 0x02, .u8, .ro, 0, .volatile, .any, 0⟩,
    ⟨0x2048, 4, 0x03, 0x03, .u32, .ro, 0x3E8, .volatile, .any, 0⟩,
    ⟨0x2048, 4, 0x10, 0x10, .u64, .ro, 0, .volatile, .any, 0⟩,
    ⟨0x2048, 4, 0x11, 0x11, .u64, .ro, 0, .volatile, .any, 0⟩,
    ⟨0x2048, 4, 0x12, 0x12, .u64, .ro, 0, .volatile, .any, 0⟩,
    ⟨0x2048, 4, 0x13, 0x13, .u32, .ro, 0, .volatile, .any, 0⟩,
    ⟨0x2048, 4, 0x14, 0x14, .u32, .ro, 0, .volatile, .any, 0⟩,
    ⟨0x2048, 4, 0x15, 0x15, .u32, .ro, 0, .volatile, .any, 0⟩,
    ⟨0x2048, 4, 0x16, 0x16, .u32, .ro, 0, .volatile, .any, 0⟩ ]

/-- Entries of spec/10. -/
def dictRows10a : List DictRow :=
  [ ⟨0x6001, 1, 0x01, 0x01, .u8, .rwIdle, 0, .stored, .span 0 1, 0⟩,
    ⟨0x6001, 1, 0x02, 0x02, .f32, .ro, 0x4019999A, .computed, .any, 0⟩,
    ⟨0x6001, 1, 0x03, 0x03, .f32, .ro, 0x41100000, .computed, .any, 0⟩,
    ⟨0x6001, 1, 0x04, 0x04, .u32, .rw, 0x186A0, .stored, .span 0 400000, 0⟩,
    ⟨0x6001, 1, 0x05, 0x05, .u8, .ro, 0, .volatile, .any, 0⟩,
    ⟨0x6001, 1, 0x10, 0x10, .u64, .ro, 0, .volatile, .any, 0⟩,
    ⟨0x6001, 1, 0x11, 0x11, .u32, .ro, 0, .volatile, .any, 0⟩,
    ⟨0x6001, 1, 0x12, 0x12, .u64, .ro, 0, .volatile, .any, 0⟩,
    ⟨0x6002, 1, 0x01, 0x01, .u16, .rw, 0x18, .stored, .span 1 168, 0⟩,
    ⟨0x6002, 1, 0x02, 0x02, .u16, .rw, 0x18, .stored, .span 1 168, 0⟩,
    ⟨0x6002, 1, 0x03, 0x03, .u16, .rw, 0x3C, .stored, .span 1 1440, 0⟩,
    ⟨0x6002, 1, 0x04, 0x04, .u8, .rw, 2, .stored, .span 1 16, 0⟩,
    ⟨0x6002, 1, 0x05, 0x05, .u16, .rw, 0x18, .stored, .span 1 720, 0⟩,
    ⟨0x6002, 1, 0x06, 0x06, .u32, .rw, 0x3E8, .stored, .span 10 1000000, 0⟩,
    ⟨0x6002, 1, 0x10, 0x10, .u64, .ro, 0, .volatile, .any, 0⟩,
    ⟨0x6002, 1, 0x11, 0x11, .u64, .ro, 0, .volatile, .any, 0⟩,
    ⟨0x6002, 1, 0x12, 0x12, .u32, .ro, 0, .volatile, .any, 0⟩,
    ⟨0x6002, 1, 0x13, 0x13, .blob, .ro, 0, .volatile, .any, 24⟩,
    ⟨0x6002, 1, 0x20, 0x20, .blob, .ro, 0, .volatile, .any, 2048⟩,
    ⟨0x6003, 1, 0x01, 0x01, .u8, .rw, 5, .stored, .span 2 20, 0⟩,
    ⟨0x6003, 1, 0x02, 0x02, .u16, .rw, 0x3C, .stored, .span 10 3600, 0⟩,
    ⟨0x6003, 1, 0x03, 0x03, .u8, .rw, 0, .stored, .span 0 1, 0⟩,
    ⟨0x6003, 1, 0x10, 0x10, .u64, .ro, 0, .volatile, .any, 0⟩,
    ⟨0x6003, 1, 0x11, 0x11, .u32, .ro, 0, .volatile, .any, 0⟩,
    ⟨0x6010, 1, 0x01, 0x01, .u16, .rw, 0, .volatile, .special, 0⟩,
    ⟨0x6010, 1, 0x02, 0x02, .u8, .wo, 0, .volatile, .span 1 4, 0⟩,
    ⟨0x6010, 1, 0x03, 0x03, .u8, .ro, 0, .volatile, .any, 0⟩,
    ⟨0x6010, 1, 0x04, 0x04, .u8, .ro, 0, .volatile, .any, 0⟩,
    ⟨0x6020, 1, 0x01, 0x01, .u8, .rw, 0, .volatile, .span 0 4, 0⟩,
    ⟨0x6020, 1, 0x02, 0x02, .u8, .rw, 0, .volatile, .span 0 2, 0⟩ ]

/-- Entries of spec/10. -/
def dictRows10b : List DictRow :=
  [ ⟨0x6020, 1, 0x03, 0x03, .u16, .rw, 0xA, .volatile, .span 1 1000, 0⟩,
    ⟨0x6020, 1, 0x10, 0x10, .blob, .ro, 0, .volatile, .any, 144⟩ ]

/-- Entries of spec/11. -/
def dictRows11 : List DictRow :=
  [ ⟨0x5040, 4, 0x01, 0x01, .u32, .rwIdle, 0x64, .stored, .special, 0⟩,
    ⟨0x5040, 4, 0x02, 0x02, .u32, .rwIdle, 0x1388, .stored, .special, 0⟩,
    ⟨0x5040, 4, 0x03, 0x03, .u32, .rwIdle, 0, .volatile, .span 0 4294967294, 0⟩,
    ⟨0x5040, 4, 0x04, 0x04, .u32, .ro, 0, .volatile, .any, 0⟩,
    ⟨0x5040, 4, 0x10, 0x10, .u32, .ro, 0, .volatile, .any, 0⟩,
    ⟨0x5040, 4, 0x11, 0x11, .u32, .ro, 0, .volatile, .any, 0⟩,
    ⟨0x5040, 4, 0x12, 0x12, .u32, .ro, 0, .volatile, .any, 0⟩,
    ⟨0x5040, 4, 0x13, 0x13, .u32, .ro, 0, .volatile, .any, 0⟩,
    ⟨0x5040, 4, 0x14, 0x14, .u32, .ro, 0, .volatile, .any, 0⟩,
    ⟨0x5040, 4, 0x15, 0x15, .u32, .ro, 0, .volatile, .any, 0⟩,
    ⟨0x5040, 4, 0x20, 0x20, .u16, .rw, 0, .volatile, .special, 0⟩,
    ⟨0x5040, 4, 0x21, 0x21, .u32, .ro, 0, .volatile, .any, 0⟩,
    ⟨0x5040, 4, 0x22, 0x22, .u16, .rw, 0, .volatile, .special, 0⟩,
    ⟨0x5040, 4, 0x23, 0x23, .u32, .ro, 0, .volatile, .any, 0⟩ ]

/-- Entries of spec/12. -/
def dictRows12 : List DictRow :=
  [ ⟨0x5001, 1, 0x01, 0x01, .u8, .rwIdle, 1, .stored, .span 0 1, 0⟩,
    ⟨0x5001, 1, 0x02, 0x02, .u16, .rwIdle, 0xFFFF, .stored, .spanOr 0 4095 65535, 0⟩,
    ⟨0x5001, 1, 0x03, 0x03, .u16, .rw, 0x64, .stored, .span 10 10000, 0⟩,
    ⟨0x5001, 1, 0x04, 0x04, .u16, .rw, 0x14, .stored, .span 5 1000, 0⟩,
    ⟨0x5001, 1, 0x05, 0x05, .u16, .rw, 0xA, .stored, .span 1 10000, 0⟩,
    ⟨0x5001, 1, 0x06, 0x06, .u8, .rw, 0x10, .stored, .span 1 255, 0⟩,
    ⟨0x5001, 1, 0x10, 0x10, .u16, .ro, 0, .volatile, .any, 0⟩,
    ⟨0x5001, 1, 0x11, 0x11, .blob, .ro, 0, .volatile, .any, 256⟩,
    ⟨0x5001, 1, 0x12, 0x12, .u64, .ro, 0, .volatile, .any, 0⟩,
    ⟨0x5001, 1, 0x13, 0x13, .u64, .ro, 0, .volatile, .any, 0⟩,
    ⟨0x5001, 1, 0x14, 0x14, .u64, .ro, 0, .volatile, .any, 0⟩,
    ⟨0x5001, 1, 0x15, 0x15, .u32, .ro, 0, .volatile, .any, 0⟩,
    ⟨0x5001, 1, 0x16, 0x16, .u64, .ro, 0, .volatile, .any, 0⟩,
    ⟨0x5001, 1, 0x17, 0x17, .u32, .ro, 0, .volatile, .any, 0⟩,
    ⟨0x5008, 4, 0x01, 0x01, .blob, .rw, 0, .stored, .any, 8192⟩,
    ⟨0x5100, 32, 0x01, 0x01, .blob, .rwIdle, 0, .stored, .any, 16416⟩,
    ⟨0x5100, 32, 0x02, 0x02, .u8, .ro, 0, .volatile, .any, 0⟩,
    ⟨0x5100, 32, 0x03, 0x03, .u32, .ro, 0, .volatile, .any, 0⟩,
    ⟨0x5100, 32, 0x04, 0x04, .blob, .ro, 0, .volatile, .any, 8192⟩,
    ⟨0x5100, 32, 0x10, 0x10, .u64, .ro, 0, .volatile, .any, 0⟩,
    ⟨0x5100, 32, 0x11, 0x11, .u32, .ro, 0, .volatile, .any, 0⟩,
    ⟨0x5100, 32, 0x12, 0x12, .u32, .ro, 0, .volatile, .any, 0⟩,
    ⟨0x5100, 32, 0x13, 0x13, .u64, .ro, 0, .volatile, .any, 0⟩ ]

/-- Entries of spec/13. -/
def dictRows13a : List DictRow :=
  [ ⟨0x7001, 1, 0x01, 0x01, .u8, .rw, 2, .stored, .span 1 8, 0⟩,
    ⟨0x7001, 1, 0x02, 0x02, .u16, .rw, 0x18, .stored, .span 1 720, 0⟩,
    ⟨0x7001, 1, 0x03, 0x03, .u8, .rw, 4, .stored, .span 3 8, 0⟩,
    ⟨0x7001, 1, 0x10, 0x10, .u64, .ro, 0, .volatile, .any, 0⟩,
    ⟨0x7001, 1, 0x11, 0x11, .u32, .ro, 0, .volatile, .any, 0⟩,
    ⟨0x7001, 1, 0x12, 0x12, .u32, .ro, 0, .volatile, .any, 0⟩,
    ⟨0x7001, 1, 0x13, 0x13, .u32, .ro, 0, .volatile, .any, 0⟩,
    ⟨0x7001, 1, 0x20, 0x20, .blob, .ro, 0, .stored, .any, 2048⟩,
    ⟨0x7002, 1, 0x01, 0x01, .blob, .ro, 0, .stored, .any, 512⟩,
    ⟨0x7002, 1, 0x02, 0x02, .u16, .wo, 0, .computed, .any, 0⟩,
    ⟨0x7002, 1, 0x03, 0x03, .u16, .ro, 0, .volatile, .any, 0⟩,
    ⟨0x7010, 1, 0x01, 0x01, .u32, .rw, 0x258, .stored, .span 60 86400, 0⟩,
    ⟨0x7010, 1, 0x02, 0x02, .u16, .rw, 0x7D0, .stored, .span 200 2000, 0⟩,
    ⟨0x7010, 1, 0x03, 0x03, .u8, .rw, 1, .stored, .span 1 4, 0⟩,
    ⟨0x7010, 1, 0x04, 0x04, .u64, .rw, 0, .stored, .any, 0⟩,
    ⟨0x7010, 1, 0x05, 0x05, .u8, .wo, 0, .computed, .span 1 2, 0⟩,
    ⟨0x7010, 1, 0x06, 0x06, .u8, .ro, 0, .volatile, .any, 0⟩,
    ⟨0x7010, 1, 0x07, 0x07, .blob, .ro, 0, .volatile, .any, 1024⟩,
    ⟨0x7010, 1, 0x10, 0x10, .u64, .ro, 0, .volatile, .any, 0⟩,
    ⟨0x7010, 1, 0x11, 0x11, .u32, .ro, 0, .volatile, .any, 0⟩,
    ⟨0x7020, 4, 0x01, 0x01, .u32, .rwIdle, 8, .stored, .span 1 1024, 0⟩,
    ⟨0x7020, 4, 0x02, 0x02, .u8, .rwIdle, 0, .stored, .span 0 31, 0⟩,
    ⟨0x7020, 4, 0x03, 0x03, .u16, .rwIdle, 0, .stored, .any, 0⟩,
    ⟨0x7020, 4, 0x04, 0x04, .u16, .rwIdle, 0, .stored, .any, 0⟩,
    ⟨0x7020, 4, 0x10, 0x10, .u64, .ro, 0xFFFFFFFFFFFFFFFF, .volatile, .any, 0⟩,
    ⟨0x7020, 4, 0x11, 0x11, .u8, .ro, 0, .volatile, .any, 0⟩,
    ⟨0x7020, 4, 0x12, 0x12, .blob, .ro, 0, .volatile, .any, 8192⟩,
    ⟨0x7020, 4, 0x13, 0x13, .u32, .ro, 0, .volatile, .any, 0⟩,
    ⟨0x7020, 4, 0x14, 0x14, .u32, .ro, 0, .volatile, .any, 0⟩,
    ⟨0x7020, 4, 0x15, 0x15, .blob, .ro, 0, .volatile, .any, 64⟩ ]

/-- Entries of spec/13. -/
def dictRows13b : List DictRow :=
  [ ⟨0x7020, 4, 0x16, 0x16, .u16, .ro, 0, .volatile, .any, 0⟩,
    ⟨0x7030, 4, 0x01, 0x01, .u8, .rw, 0, .stored, .span 0 1, 0⟩,
    ⟨0x7030, 4, 0x02, 0x02, .u32, .rw, 0, .stored, .any, 0⟩,
    ⟨0x7030, 4, 0x03, 0x03, .u32, .rw, 0, .stored, .any, 0⟩,
    ⟨0x7030, 4, 0x04, 0x04, .u32, .rw, 0xFFFFFFFF, .stored, .any, 0⟩,
    ⟨0x7030, 4, 0x05, 0x05, .u8, .rw, 8, .stored, .span 0 32, 0⟩,
    ⟨0x7030, 4, 0x06, 0x06, .u8, .rw, 0, .stored, .special, 0⟩,
    ⟨0x7030, 4, 0x07, 0x07, .f32, .rw, 0, .stored, .f32fin, 0⟩,
    ⟨0x7030, 4, 0x10, 0x10, .u32, .ro, 0, .volatile, .any, 0⟩,
    ⟨0x7030, 4, 0x11, 0x11, .u64, .ro, 0, .volatile, .any, 0⟩,
    ⟨0x7030, 4, 0x12, 0x12, .u32, .ro, 0, .volatile, .any, 0⟩ ]

/-- Entries of spec/15. -/
def dictRows15a : List DictRow :=
  [ ⟨0x1000, 1, 0x01, 0x01, .u32, .ro, 0x47A53, .computed, .any, 0⟩,
    ⟨0x1000, 1, 0x02, 0x02, .string, .ro, 0, .computed, .any, 16⟩,
    ⟨0x1000, 1, 0x03, 0x03, .string, .ro, 0, .computed, .any, 16⟩,
    ⟨0x1000, 1, 0x04, 0x04, .u16, .ro, 0xB0B0, .computed, .any, 0⟩,
    ⟨0x1000, 1, 0x05, 0x05, .u8, .ro, 0, .computed, .any, 0⟩,
    ⟨0x1001, 1, 0x01, 0x01, .u8, .ro, 0, .volatile, .any, 0⟩,
    ⟨0x1001, 1, 0x02, 0x02, .u32, .ro, 0, .volatile, .any, 0⟩,
    ⟨0x1001, 1, 0x03, 0x03, .u64, .ro, 0, .computed, .any, 0⟩,
    ⟨0x1001, 1, 0x04, 0x04, .u32, .ro, 0, .computed, .any, 0⟩,
    ⟨0x1002, 1, 0x01, 0x06, .u8, .ro, 0, .volatile, .any, 0⟩,
    ⟨0x1002, 1, 0x07, 0x07, .u8, .ro, 0, .volatile, .any, 0⟩,
    ⟨0x1002, 1, 0x08, 0x08, .u8, .ro, 0, .volatile, .any, 0⟩,
    ⟨0x1002, 1, 0x09, 0x09, .blob, .ro, 0, .volatile, .any, 48⟩,
    ⟨0x1003, 1, 0x01, 0x01, .u32, .ro, 0, .computed, .any, 0⟩,
    ⟨0x1003, 1, 0x02, 0x02, .u32, .ro, 0, .computed, .any, 0⟩,
    ⟨0x1003, 1, 0x03, 0x03, .u32, .ro, 0, .computed, .any, 0⟩,
    ⟨0x1004, 1, 0x01, 0x01, .u32, .ro, 0, .volatile, .any, 0⟩,
    ⟨0x1004, 1, 0x02, 0x02, .u8, .ro, 0xFF, .volatile, .any, 0⟩,
    ⟨0x1004, 1, 0x03, 0x03, .u32, .ro, 0, .volatile, .any, 0⟩,
    ⟨0x1004, 1, 0x04, 0x04, .u16, .ro, 0, .volatile, .any, 0⟩,
    ⟨0x1004, 1, 0x05, 0x05, .u8, .ro, 0, .volatile, .any, 0⟩,
    ⟨0x1004, 1, 0x10, 0x10, .u32, .wo, 0, .computed, .oneOf [1145849428], 0⟩,
    ⟨0x9001, 1, 0x01, 0x01, .u8, .ro, 0xFF, .volatile, .any, 0⟩,
    ⟨0x9001, 1, 0x02, 0x02, .u8, .ro, 0, .volatile, .any, 0⟩,
    ⟨0x9001, 1, 0x03, 0x03, .u8, .rw, 0x20, .stored, .span 20 255, 0⟩,
    ⟨0x9001, 1, 0x04, 0x04, .u16, .rw, 0x64, .stored, .span 20 10000, 0⟩,
    ⟨0x9001, 1, 0x10, 0x10, .u32, .ro, 0, .volatile, .any, 0⟩,
    ⟨0x9001, 1, 0x11, 0x11, .u32, .ro, 0, .volatile, .any, 0⟩,
    ⟨0x9001, 1, 0x12, 0x12, .u32, .ro, 0, .volatile, .any, 0⟩,
    ⟨0x9001, 1, 0x13, 0x13, .u32, .ro, 0, .volatile, .any, 0⟩ ]

/-- Entries of spec/15. -/
def dictRows15b : List DictRow :=
  [ ⟨0x9001, 1, 0x14, 0x14, .u32, .ro, 0, .volatile, .any, 0⟩,
    ⟨0x9010, 1, 0x01, 0x01, .u16, .rw, 0, .volatile, .any, 0⟩,
    ⟨0x9010, 1, 0x02, 0x02, .u32, .rw, 0x7D0, .stored, .span 500 60000, 0⟩,
    ⟨0x9010, 1, 0x03, 0x03, .u16, .ro, 0, .volatile, .any, 0⟩,
    ⟨0x9010, 1, 0x04, 0x04, .u32, .ro, 0, .volatile, .any, 0⟩,
    ⟨0x9020, 1, 0x01, 0x01, .u8, .rw, 1, .stored, .span 0 1, 0⟩,
    ⟨0x9020, 1, 0x02, 0x02, .u16, .ro, 0, .volatile, .any, 0⟩,
    ⟨0xA001, 1, 0x01, 0x01, .blob, .ro, 0, .volatile, .any, 8192⟩,
    ⟨0xA001, 1, 0x02, 0x02, .u64, .ro, 0, .volatile, .any, 0⟩,
    ⟨0xA001, 1, 0x03, 0x03, .u32, .ro, 0, .volatile, .any, 0⟩,
    ⟨0xA001, 1, 0x04, 0x04, .u8, .wo, 0, .computed, .span 1 1, 0⟩,
    ⟨0xA002, 1, 0x01, 0x01, .blob, .ro, 0, .computed, .any, 524288⟩,
    ⟨0xA002, 1, 0x02, 0x02, .blob, .ro, 0, .computed, .any, 524288⟩,
    ⟨0xA003, 1, 0x01, 0x01, .u64, .rw, 0, .volatile, .special, 0⟩,
    ⟨0xA003, 1, 0x02, 0x02, .u32, .rw, 0, .computed, .any, 0⟩,
    ⟨0xA003, 1, 0x03, 0x03, .u8, .rwIdle, 0, .volatile, .span 0 1, 0⟩ ]

/-- Entries of spec/16. -/
def dictRows16 : List DictRow :=
  [ ⟨0x3001, 1, 0x01, 0x01, .u16, .rw, 0x4B0, .stored, .span 400 1200, 0⟩,
    ⟨0x3001, 1, 0x02, 0x02, .f32, .ro, 0, .computed, .any, 0⟩,
    ⟨0x3001, 1, 0x03, 0x03, .f32, .ro, 0, .computed, .any, 0⟩,
    ⟨0x3001, 1, 0x04, 0x04, .f32, .ro, 0, .computed, .any, 0⟩,
    ⟨0x3001, 1, 0x05, 0x05, .u8, .ro, 0, .volatile, .any, 0⟩,
    ⟨0x3001, 1, 0x06, 0x06, .u64, .ro, 0, .volatile, .any, 0⟩,
    ⟨0x3002, 1, 0x01, 0x01, .u8, .rw, 0x5F, .stored, .span 80 100, 0⟩,
    ⟨0x3002, 1, 0x02, 0x02, .blob, .ro, 0, .computed, .any, 4⟩,
    ⟨0x3002, 1, 0x03, 0x03, .blob, .ro, 0, .computed, .any, 16⟩,
    ⟨0x3002, 1, 0x04, 0x04, .u32, .ro, 0, .volatile, .any, 0⟩,
    ⟨0x3003, 1, 0x01, 0x01, .f32, .rw, 0x423C0000, .stored, .f32span 0x423A0000 0x42480000, 0⟩,
    ⟨0x3003, 1, 0x02, 0x02, .u32, .ro, 0, .stored, .any, 0⟩,
    ⟨0x3004, 1, 0x01, 0x01, .u8, .rw, 1, .stored, .span 0 1, 0⟩,
    ⟨0x3004, 1, 0x02, 0x02, .u8, .rw, 1, .stored, .span 0 1, 0⟩,
    ⟨0x3004, 1, 0x03, 0x03, .u32, .rw, 0x64, .stored, .span 10 1000000, 0⟩,
    ⟨0x3004, 1, 0x04, 0x04, .u8, .ro, 0, .volatile, .any, 0⟩,
    ⟨0x3004, 1, 0x05, 0x05, .u8, .wo, 0, .computed, .span 1 1, 0⟩,
    ⟨0x3004, 1, 0x06, 0x06, .u16, .ro, 0, .volatile, .any, 0⟩,
    ⟨0x3005, 1, 0x01, 0x01, .u8, .rw, 7, .stored, .span 0 7, 0⟩,
    ⟨0x3005, 1, 0x02, 0x02, .u16, .rw, 0x3E8, .stored, .span 100 3000, 0⟩,
    ⟨0x3005, 1, 0x03, 0x03, .u16, .rw, 0x32, .stored, .span 10 500, 0⟩,
    ⟨0x3005, 1, 0x04, 0x04, .u8, .ro, 0, .volatile, .any, 0⟩,
    ⟨0x3005, 1, 0x05, 0x05, .u32, .ro, 0, .volatile, .any, 0⟩,
    ⟨0x3006, 1, 0x01, 0x01, .u32, .wo, 0, .computed, .oneOf [1129270340, 1463898701, 1145652528, 1145652529], 0⟩,
    ⟨0x3006, 1, 0x02, 0x02, .u8, .ro, 0, .volatile, .any, 0⟩,
    ⟨0x3006, 1, 0x03, 0x03, .u32, .ro, 0, .volatile, .any, 0⟩ ]

/-- Entries of spec/17. -/
def dictRows17 : List DictRow :=
  [ ⟨0x8001, 1, 0x01, 0x01, .blob, .ro, 0, .computed, .any, 64⟩,
    ⟨0x8002, 1, 0x01, 0x02, .blob, .wo, 0, .computed, .any, 4194304⟩,
    ⟨0x8002, 1, 0x03, 0x04, .blob, .wo, 0, .computed, .any, 16777216⟩,
    ⟨0x8003, 1, 0x01, 0x01, .u8, .wo, 0, .computed, .span 1 2, 0⟩,
    ⟨0x8003, 1, 0x02, 0x02, .u8, .wo, 0, .computed, .span 1 2, 0⟩,
    ⟨0x8003, 1, 0x03, 0x03, .u8, .rw, 1, .stored, .span 1 3, 0⟩,
    ⟨0x8003, 1, 0x04, 0x04, .u8, .ro, 0, .volatile, .any, 0⟩,
    ⟨0x8004, 1, 0x01, 0x01, .u8, .ro, 0, .volatile, .any, 0⟩,
    ⟨0x8004, 1, 0x02, 0x02, .blob, .rw, 0, .computed, .any, 3405⟩,
    ⟨0x8004, 1, 0x03, 0x03, .u32, .ro, 0, .volatile, .any, 0⟩,
    ⟨0x8010, 1, 0x01, 0x01, .blob, .wo, 0, .computed, .any, 8192⟩,
    ⟨0x8010, 1, 0x02, 0x02, .u16, .ro, 0, .computed, .any, 0⟩,
    ⟨0x8010, 1, 0x03, 0x03, .blob, .ro, 0, .computed, .any, 1952⟩,
    ⟨0x8011, 1, 0x01, 0x01, .u32, .ro, 0, .computed, .any, 0⟩,
    ⟨0x8011, 1, 0x02, 0x02, .u32, .ro, 0, .computed, .any, 0⟩,
    ⟨0x8020, 1, 0x01, 0x01, .blob, .ro, 0, .computed, .any, 1952⟩,
    ⟨0x8020, 1, 0x02, 0x02, .blob, .ro, 0, .computed, .any, 5279⟩,
    ⟨0x8020, 1, 0x03, 0x03, .u8, .ro, 0, .volatile, .any, 0⟩,
    ⟨0x8030, 1, 0x01, 0x01, .blob, .rw, 0, .volatile, .any, 32⟩,
    ⟨0x8030, 1, 0x02, 0x02, .blob, .ro, 0, .computed, .any, 3565⟩,
    ⟨0x8030, 1, 0x03, 0x03, .blob, .ro, 0, .computed, .any, 128⟩,
    ⟨0x8030, 1, 0x04, 0x04, .blob, .ro, 0, .computed, .any, 49152⟩ ]

/-- Entries of spec/18. -/
def dictRows18 : List DictRow :=
  [ ⟨0x9101, 1, 0x01, 0x01, .u8, .ro, 0, .volatile, .any, 0⟩,
    ⟨0x9101, 1, 0x02, 0x02, .u8, .ro, 0, .volatile, .any, 0⟩,
    ⟨0x9101, 1, 0x03, 0x03, .u16, .rw, 0x64, .stored, .span 10 10000, 0⟩,
    ⟨0x9101, 1, 0x10, 0x10, .u64, .ro, 0, .volatile, .any, 0⟩,
    ⟨0x9101, 1, 0x11, 0x11, .u32, .ro, 0, .volatile, .any, 0⟩,
    ⟨0x9101, 1, 0x12, 0x12, .u32, .ro, 0, .volatile, .any, 0⟩,
    ⟨0x9101, 1, 0x13, 0x13, .u64, .ro, 0, .volatile, .any, 0⟩,
    ⟨0x9101, 1, 0x14, 0x14, .u64, .ro, 0, .volatile, .any, 0⟩,
    ⟨0x9101, 1, 0x15, 0x15, .u32, .ro, 0, .volatile, .any, 0⟩,
    ⟨0x9121, 15, 0x01, 0x01, .blob, .rw, 0, .volatile, .any, 32⟩ ]

/-- Every row. -/
def dictRows : List DictRow :=
  dictRows02 ++ dictRows04 ++ dictRows06 ++ dictRows07 ++ dictRows08 ++ dictRows09 ++ dictRows10a ++ dictRows10b ++ dictRows11 ++ dictRows12 ++ dictRows13a ++ dictRows13b ++ dictRows15a ++ dictRows15b ++ dictRows16 ++ dictRows17 ++ dictRows18

/-- The row of an entry; none where the manual defines no such entry (R384). Subindex 0 is not in the rows. -/
def dictRow (index sub : Nat) : Option DictRow :=
  dictRows.find? fun r => r.idx ≤ index && index < r.idx + r.copies && r.first ≤ sub && sub ≤ r.last

/-- The highest subindex in use at an index (R384); none where the index does not exist. -/
def dictTop (index : Nat) : Option Nat :=
  let rs := dictRows.filter fun r => r.idx ≤ index && index < r.idx + r.copies
  if rs.isEmpty then none else some (rs.foldl (fun a r => max a r.last) 0)

/-- The key of an entry in the state's map. -/
def dictKey (index sub : Nat) : Nat := index * 256 + sub

end Sys2Proof.Machine
end

