-- ==== Sys2Proof/Config.lean ====
section
/-! DEFINITION. What an implementation fixes and the values the spec leaves open. Every constant here is opaque: no
statement can rest on what it is. -/

namespace Sys2Proof.Config

/-- A byte the spec leaves undefined, by the number of the draw (log entry 3). -/
opaque freeByte : Nat → Byte
/-- What a byte whose unit lost its contents is left with: by the free number of the loss and the byte's place (R272, R414). -/
opaque lostByte : Nat → Nat → Byte
/-- A 32-bit value the spec leaves undefined, by the number of the draw (log entry 3). -/
opaque freeWord : Nat → Word
/-- Does the planner retain a tile as an opportunistic save (R198)? By the number of the draw (log entry 73). -/
opaque retain : Nat → Bool
/-- What a segment header's count holds after a table tile's blocks have been re-encoded in part, where the old count was not zero
(R177): by the old count, the new one, the handle, the tile, the step, the round, the segment and which count (log entry 11). -/
opaque segCount : List Nat → Half
/-- The placement-map address of a tensor, by partition and handle (R21: planner-owned; log entry 4). -/
opaque placeMap : Nat → Nat → BitVec 48
/-- ML-DSA-65 verification with an empty context: public key, message, signature (FIPS 204; log entry 5). -/
opaque mldsaVerify : Bytes → Bytes → Bytes → Bool
/-- ML-DSA-65 key generation from a seed: the public key (FIPS 204; log entry 5). -/
opaque mldsaPublic : Bytes → Bytes
/-- ML-DSA-65 hedged signing: the seed of the key pair, the message, the number of the draw of randomness. -/
opaque mldsaSign : Bytes → Bytes → Nat → Bytes
/-- pk_0, the original root public key, whose hash the boot ROM holds (R428): 1,952 bytes. -/
opaque rootKey : Nat → Byte
/-- The boot ROM's version (0x1003.03). -/
opaque romVersion : Word
/-- The module serial number of the calibration record (0x1000.03), 16 characters. -/
opaque serial : Nat → Byte
/-- The module board revision of the calibration record (0x1000.05). -/
opaque boardRev : Byte
/-- Does the signed calibration record verify (R441)? -/
opaque calibrationOk : Bool
/-- H of the calibration record (R438), 32 bytes. -/
opaque calibrationDigest : Nat → Byte
/-- K, which the helper data of module test let the module's SRAM-PUF area reconstruct (R435): 32 bytes. -/
opaque pufKey : Nat → Byte
/-- The index of the root key that signed the identity certificate, and the seed of that key's pair (R437). -/
opaque certIndex : Half
opaque certSeed : Bytes
end Sys2Proof.Config
end

