-- ==== Sys2Proof/Machine/RegTable.lean ====
section
/-! DEFINITION. The register maps of the CSR space: every register of every block, with its class, its reset value and
the places of its RW, W1C and WO bits (R49, R110, R144, R167, R191, R244, R275, R299, R334, R364, R366, R379 to R383,
R426). A bit in none of the three masks is read-only or reserved. -/

namespace Sys2Proof.Machine

/-- The register classes (R368). -/
inductive RegClass where
  | config | control | status | counter
  deriving DecidableEq, Repr

/-- One row of a register map: the offsets first, first + 4, …, last, all alike. -/
structure RegRow where
  first : Nat
  last  : Nat
  cls   : RegClass
  reset : Nat
  rw    : Nat
  w1c   : Nat
  wo    : Nat
  deriving DecidableEq, Repr

/-- The kinds of block (R366, R426). -/
inductive Blk where
  | ident | event | gcnt | csrmap | sync | part | marver | gather | lehr | pontil | jacks | bench | cullet | strain
  | memc | aopm
  deriving DecidableEq, Repr

/-- The PART block (R49). -/
def partMap : List RegRow :=
  [/-  PART_CTRL -/ ⟨0x0, 0x0, .control, 0x0, 0x1, 0x0, 0x0⟩,
    /-  PART_STATUS -/ ⟨0x4, 0x4, .status, 0x1, 0x0, 0x6, 0x0⟩,
    /-  PART_CFG -/ ⟨0x8, 0x8, .config, 0x0, 0xF, 0x0, 0x0⟩,
    /-  PART_HBM_BASE -/ ⟨0x10, 0x10, .config, 0x0, 0xFFFFFFFF, 0x0, 0x0⟩,
    /-  PART_HBM_LIMIT -/ ⟨0x14, 0x14, .config, 0x0, 0xFFFFFFFF, 0x0, 0x0⟩,
    /-  PART_LP_BASE -/ ⟨0x18, 0x18, .config, 0x0, 0xFFFFFFFF, 0x0, 0x0⟩,
    /-  PART_LP_LIMIT -/ ⟨0x1C, 0x1C, .config, 0x0, 0xFFFFFFFF, 0x0, 0x0⟩,
    /-  PART_CRU_BASE -/ ⟨0x20, 0x20, .config, 0x0, 0xFFFFFFFF, 0x0, 0x0⟩,
    /-  PART_CRU_LIMIT -/ ⟨0x24, 0x24, .config, 0x0, 0xFFFFFFFF, 0x0, 0x0⟩,
    /-  PART_HTAB_BASE -/ ⟨0x28, 0x28, .config, 0x0, 0xFFFFFFFF, 0x0, 0x0⟩,
    /-  PART_HTAB_COUNT -/ ⟨0x2C, 0x2C, .config, 0x0, 0x1FFFFF, 0x0, 0x0⟩,
    /-  PART_BENCH_MASK0 -/ ⟨0x30, 0x30, .config, 0x0, 0xFFFFFFFF, 0x0, 0x0⟩,
    /-  PART_BENCH_MASK1 -/ ⟨0x34, 0x34, .config, 0x0, 0xFFFFFFFF, 0x0, 0x0⟩,
    /-  PART_LANE_MASK -/ ⟨0x38, 0x38, .config, 0x0, 0xFFFFFFFF, 0x0, 0x0⟩,
    /-  PART_BOUNDS_FAULTS -/ ⟨0x40, 0x40, .counter, 0x0, 0x0, 0x0, 0x0⟩,
    /-  PART_FAULT_ADDR_LO -/ ⟨0x44, 0x44, .status, 0x0, 0x0, 0x0, 0x0⟩,
    /-  PART_FAULT_ADDR_HI -/ ⟨0x48, 0x48, .status, 0x0, 0x0, 0x0, 0x0⟩,
    /-  PART_SECOND_FAULTS -/ ⟨0x4C, 0x4C, .counter, 0x0, 0x0, 0x0, 0x0⟩]

/-- The MARVER block (R110). -/
def marverMap : List RegRow :=
  [/-  MARVER_CTRL -/ ⟨0x0, 0x0, .control, 0x0, 0x3, 0x0, 0x0⟩,
    /-  MARVER_STATUS -/ ⟨0x4, 0x4, .status, 0x3, 0x0, 0x1C, 0x0⟩,
    /-  MARVER_CFG -/ ⟨0x8, 0x8, .config, 0x0, 0x3, 0x0, 0x0⟩,
    /-  MARVER_POLICY -/ ⟨0xC, 0xC, .config, 0x49, 0x7F, 0x0, 0x0⟩,
    /-  MARVER_TILES -/ ⟨0x10, 0x10, .counter, 0x0, 0x0, 0x0, 0x0⟩,
    /-  MARVER_ESCAPES -/ ⟨0x14, 0x14, .counter, 0x0, 0x0, 0x0, 0x0⟩,
    /-  MARVER_SATURATED -/ ⟨0x18, 0x18, .counter, 0x0, 0x0, 0x0, 0x0⟩,
    /-  MARVER_NONFINITE_LOST -/ ⟨0x1C, 0x1C, .counter, 0x0, 0x0, 0x0, 0x0⟩,
    /-  MARVER_COLD_ENCODES -/ ⟨0x20, 0x20, .counter, 0x0, 0x0, 0x0, 0x0⟩,
    /-  MARVER_ROT_NONFINITE -/ ⟨0x24, 0x24, .counter, 0x0, 0x0, 0x0, 0x0⟩,
    /-  MARVER_FORMAT_ERRORS -/ ⟨0x28, 0x28, .counter, 0x0, 0x0, 0x0, 0x0⟩,
    /-  MARVER_BUSY_CYCLES -/ ⟨0x2C, 0x2C, .counter, 0x0, 0x0, 0x0, 0x0⟩,
    /-  MARVER_ERR_HANDLE -/ ⟨0x30, 0x30, .status, 0x0, 0x0, 0x0, 0x0⟩]

/-- The BENCH block (R144). -/
def benchMap : List RegRow :=
  [/-  BENCH_CTRL -/ ⟨0x0, 0x0, .control, 0x0, 0x7, 0x0, 0x0⟩,
    /-  BENCH_STATUS -/ ⟨0x4, 0x4, .status, 0x3, 0x0, 0x2C, 0x0⟩,
    /-  BENCH_CFG -/ ⟨0x8, 0x8, .config, 0x0, 0x3, 0x0, 0x0⟩,
    /-  BENCH_PASS_CFG -/ ⟨0xC, 0xC, .config, 0x3, 0x3, 0x0, 0x0⟩,
    /-  BENCH_OPS -/ ⟨0x10, 0x10, .counter, 0x0, 0x0, 0x0, 0x0⟩,
    /-  BENCH_ROW_CYCLES -/ ⟨0x14, 0x14, .counter, 0x0, 0x0, 0x0, 0x0⟩,
    /-  BENCH_LOAD_STALLS -/ ⟨0x18, 0x18, .counter, 0x0, 0x0, 0x0, 0x0⟩,
    /-  BENCH_CULLET_STALLS -/ ⟨0x1C, 0x1C, .counter, 0x0, 0x0, 0x0, 0x0⟩,
    /-  BENCH_OUT_STALLS -/ ⟨0x20, 0x20, .counter, 0x0, 0x0, 0x0, 0x0⟩,
    /-  BENCH_PROMO_ROUNDED -/ ⟨0x24, 0x24, .counter, 0x0, 0x0, 0x0, 0x0⟩,
    /-  BENCH_PROMO_INF -/ ⟨0x28, 0x28, .counter, 0x0, 0x0, 0x0, 0x0⟩,
    /-  BENCH_ACC_NAN -/ ⟨0x2C, 0x2C, .counter, 0x0, 0x0, 0x0, 0x0⟩,
    /-  BENCH_SEGMENTS -/ ⟨0x30, 0x30, .counter, 0x0, 0x0, 0x0, 0x0⟩,
    /-  BENCH_CUR_OP -/ ⟨0x34, 0x34, .status, 0x0, 0x0, 0x0, 0x0⟩]

/-- The CULLET block (R167). -/
def culletMap : List RegRow :=
  [/-  CULLET_STATUS -/ ⟨0x0, 0x0, .status, 0x0, 0x0, 0x3, 0x0⟩,
    /-  CULLET_PRODUCTS -/ ⟨0x4, 0x4, .counter, 0x0, 0x0, 0x0, 0x0⟩,
    /-  CULLET_ESC_LANES -/ ⟨0x8, 0x8, .counter, 0x0, 0x0, 0x0, 0x0⟩,
    /-  CULLET_HOT_LANES -/ ⟨0xC, 0xC, .counter, 0x0, 0x0, 0x0, 0x0⟩,
    /-  CULLET_STALL_ROWS -/ ⟨0x10, 0x10, .counter, 0x0, 0x0, 0x0, 0x0⟩,
    /-  CULLET_NONFINITE -/ ⟨0x14, 0x14, .counter, 0x0, 0x0, 0x0, 0x0⟩,
    /-  CULLET_PROD_ROUNDED -/ ⟨0x18, 0x18, .counter, 0x0, 0x0, 0x0, 0x0⟩]

/-- The LEHR block (R191). -/
def lehrMap : List RegRow :=
  [/-  LEHR_CTRL -/ ⟨0x0, 0x0, .control, 0x0, 0x3, 0x0, 0x0⟩,
    /-  LEHR_STATUS -/ ⟨0x4, 0x4, .status, 0x3, 0x0, 0x1C, 0x0⟩,
    /-  LEHR_CFG -/ ⟨0x8, 0x8, .config, 0x0, 0x3, 0x0, 0x0⟩,
    /-  LEHR_POLICY -/ ⟨0xC, 0xC, .config, 0x49, 0x7F, 0x0, 0x0⟩,
    /-  LEHR_ELEMENTS -/ ⟨0x10, 0x10, .counter, 0x0, 0x0, 0x0, 0x0⟩,
    /-  LEHR_SR_ROUNDS -/ ⟨0x14, 0x14, .counter, 0x0, 0x0, 0x0, 0x0⟩,
    /-  LEHR_GRAD_NONFINITE -/ ⟨0x18, 0x18, .counter, 0x0, 0x0, 0x0, 0x0⟩,
    /-  LEHR_JOURNAL_RECORDS -/ ⟨0x1C, 0x1C, .counter, 0x0, 0x0, 0x0, 0x0⟩,
    /-  LEHR_JOURNAL_STALLS -/ ⟨0x20, 0x20, .counter, 0x0, 0x0, 0x0, 0x0⟩,
    /-  LEHR_ESCAPES -/ ⟨0x24, 0x24, .counter, 0x0, 0x0, 0x0, 0x0⟩,
    /-  LEHR_SATURATED -/ ⟨0x28, 0x28, .counter, 0x0, 0x0, 0x0, 0x0⟩,
    /-  LEHR_NONFINITE_LOST -/ ⟨0x2C, 0x2C, .counter, 0x0, 0x0, 0x0, 0x0⟩,
    /-  LEHR_COLD_ENCODES -/ ⟨0x30, 0x30, .counter, 0x0, 0x0, 0x0, 0x0⟩,
    /-  LEHR_FORMAT_ERRORS -/ ⟨0x34, 0x34, .counter, 0x0, 0x0, 0x0, 0x0⟩,
    /-  LEHR_BUSY_CYCLES -/ ⟨0x38, 0x38, .counter, 0x0, 0x0, 0x0, 0x0⟩,
    /-  LEHR_ERR_HANDLE -/ ⟨0x3C, 0x3C, .status, 0x0, 0x0, 0x0, 0x0⟩]

/-- The GATHER block (R244). -/
def gatherMap : List RegRow :=
  [/-  GATHER_CTRL -/ ⟨0x0, 0x0, .control, 0x0, 0x3, 0x0, 0x0⟩,
    /-  GATHER_STATUS -/ ⟨0x4, 0x4, .status, 0x3, 0x0, 0x7C, 0x0⟩,
    /-  GATHER_CFG -/ ⟨0x8, 0x8, .config, 0x0, 0x3, 0x0, 0x0⟩,
    /-  GATHER_ROWS -/ ⟨0x10, 0x10, .counter, 0x0, 0x0, 0x0, 0x0⟩,
    /-  GATHER_SECTORS -/ ⟨0x14, 0x14, .counter, 0x0, 0x0, 0x0, 0x0⟩,
    /-  GATHER_FAR_SECTORS -/ ⟨0x18, 0x18, .counter, 0x0, 0x0, 0x0, 0x0⟩,
    /-  GATHER_ESC_SECTORS -/ ⟨0x1C, 0x1C, .counter, 0x0, 0x0, 0x0, 0x0⟩,
    /-  GATHER_REMOTE_ROWS -/ ⟨0x20, 0x20, .counter, 0x0, 0x0, 0x0, 0x0⟩,
    /-  GATHER_SERVED_ROWS -/ ⟨0x24, 0x24, .counter, 0x0, 0x0, 0x0, 0x0⟩,
    /-  GATHER_EMPTY_BAGS -/ ⟨0x28, 0x28, .counter, 0x0, 0x0, 0x0, 0x0⟩,
    /-  GATHER_BAD_OFFSETS -/ ⟨0x2C, 0x2C, .counter, 0x0, 0x0, 0x0, 0x0⟩,
    /-  GATHER_PAD_INDICES -/ ⟨0x30, 0x30, .counter, 0x0, 0x0, 0x0, 0x0⟩,
    /-  GATHER_MERGE_DROPPED -/ ⟨0x34, 0x34, .counter, 0x0, 0x0, 0x0, 0x0⟩,
    /-  GATHER_FORMAT_ERRORS -/ ⟨0x38, 0x38, .counter, 0x0, 0x0, 0x0, 0x0⟩,
    /-  GATHER_BUSY_CYCLES -/ ⟨0x3C, 0x3C, .counter, 0x0, 0x0, 0x0, 0x0⟩,
    /-  GATHER_ERR_HANDLE -/ ⟨0x40, 0x40, .status, 0x0, 0x0, 0x0, 0x0⟩]

/-- The MEMC block (R275). -/
def memcMap : List RegRow :=
  [/-  MEMC_CTRL -/ ⟨0x0, 0x0, .control, 0x0, 0x7, 0x0, 0x0⟩,
    /-  MEMC_STATUS -/ ⟨0x4, 0x4, .status, 0x1, 0x0, 0x38, 0x0⟩,
    /-  MEMC_CFG -/ ⟨0x8, 0x8, .config, 0x3, 0x7, 0x0, 0x0⟩,
    /-  MEMC_READS -/ ⟨0x10, 0x10, .counter, 0x0, 0x0, 0x0, 0x0⟩,
    /-  MEMC_WRITES -/ ⟨0x14, 0x14, .counter, 0x0, 0x0, 0x0, 0x0⟩,
    /-  MEMC_RMW -/ ⟨0x18, 0x18, .counter, 0x0, 0x0, 0x0, 0x0⟩,
    /-  MEMC_CE_COUNT -/ ⟨0x1C, 0x1C, .counter, 0x0, 0x0, 0x0, 0x0⟩,
    /-  MEMC_UE_COUNT -/ ⟨0x20, 0x20, .counter, 0x0, 0x0, 0x0, 0x0⟩,
    /-  MEMC_SCRUB_PASSES -/ ⟨0x24, 0x24, .counter, 0x0, 0x0, 0x0, 0x0⟩,
    /-  MEMC_HOLD_CYCLES -/ ⟨0x28, 0x28, .counter, 0x0, 0x0, 0x0, 0x0⟩,
    /-  MEMC_ERR_ADDR_LO -/ ⟨0x2C, 0x2C, .status, 0x0, 0x0, 0x0, 0x0⟩,
    /-  MEMC_ERR_ADDR_HI -/ ⟨0x30, 0x30, .status, 0x0, 0x0, 0x0, 0x0⟩]

/-- The SYNC block (R299). -/
def syncMap : List RegRow :=
  [/-  SYNC_CTRL -/ ⟨0x0, 0x0, .control, 0x0, 0x3, 0x0, 0x0⟩,
    /-  SYNC_STATUS -/ ⟨0x4, 0x4, .status, 0x0, 0x0, 0x1F, 0x0⟩,
    /-  SYNC_CFG -/ ⟨0x8, 0x8, .config, 0x0, 0x3, 0x0, 0x0⟩,
    /-  SYNC_WD_US0 -/ ⟨0x10, 0x1C, .control, 0x186A0, 0xFFFFFFFF, 0x0, 0x0⟩,
    /-  SYNC_SIGNALS -/ ⟨0x20, 0x20, .counter, 0x0, 0x0, 0x0, 0x0⟩,
    /-  SYNC_LOST -/ ⟨0x24, 0x24, .counter, 0x0, 0x0, 0x0, 0x0⟩,
    /-  SYNC_STALE -/ ⟨0x28, 0x28, .counter, 0x0, 0x0, 0x0, 0x0⟩,
    /-  SYNC_REFUSED -/ ⟨0x2C, 0x2C, .counter, 0x0, 0x0, 0x0, 0x0⟩,
    /-  SYNC_WAITS -/ ⟨0x30, 0x30, .counter, 0x0, 0x0, 0x0, 0x0⟩,
    /-  SYNC_WD_FIRES -/ ⟨0x34, 0x34, .counter, 0x0, 0x0, 0x0, 0x0⟩,
    /-  SYNC_REENTRY -/ ⟨0x38, 0x38, .counter, 0x0, 0x0, 0x0, 0x0⟩,
    /-  SYNC_MISMATCH -/ ⟨0x3C, 0x3C, .counter, 0x0, 0x0, 0x0, 0x0⟩,
    /-  SYNC_FW_SIGNAL -/ ⟨0x40, 0x40, .control, 0x0, 0x0, 0x0, 0xFFF⟩,
    /-  SYNC_FW_WAIT -/ ⟨0x44, 0x44, .control, 0x0, 0xFFFFFFF, 0x0, 0x0⟩,
    /-  SYNC_FW_WAIT_STATUS -/ ⟨0x48, 0x48, .status, 0x0, 0x0, 0x6, 0x0⟩,
    /-  SYNC_EPOCH0 -/ ⟨0x50, 0x8C, .control, 0x0, 0xFFFFFFFF, 0x0, 0x0⟩,
    /-  SYNC_CTR0 -/ ⟨0x1000, 0x4FFC, .control, 0x0, 0xF8FF, 0x300, 0x0⟩,
    /-  SYNC_BAR0 -/ ⟨0x6000, 0x63FC, .status, 0x0, 0x0, 0x40000000, 0x0⟩,
    /-  SYNC_FBAR0 -/ ⟨0x6400, 0x647C, .status, 0x0, 0x0, 0x80000, 0x0⟩]

/-- The PONTIL block (R334). -/
def pontilMap : List RegRow :=
  [/-  PONTIL_CTRL -/ ⟨0x0, 0x0, .control, 0x0, 0x3, 0x0, 0x0⟩,
    /-  PONTIL_STATUS -/ ⟨0x4, 0x4, .status, 0x3, 0x0, 0x3C, 0x0⟩,
    /-  PONTIL_CFG -/ ⟨0x8, 0x8, .config, 0x0, 0x3F, 0x0, 0x0⟩,
    /-  PONTIL_TRANSFERS -/ ⟨0x10, 0x10, .counter, 0x0, 0x0, 0x0, 0x0⟩,
    /-  PONTIL_SIGNALS -/ ⟨0x14, 0x14, .counter, 0x0, 0x0, 0x0, 0x0⟩,
    /-  PONTIL_COLL_CHUNKS -/ ⟨0x18, 0x18, .counter, 0x0, 0x0, 0x0, 0x0⟩,
    /-  PONTIL_RETX -/ ⟨0x1C, 0x1C, .counter, 0x0, 0x0, 0x0, 0x0⟩,
    /-  PONTIL_REFUSED -/ ⟨0x20, 0x20, .counter, 0x0, 0x0, 0x0, 0x0⟩,
    /-  PONTIL_SUMCHECK_FAIL -/ ⟨0x24, 0x24, .counter, 0x0, 0x0, 0x0, 0x0⟩,
    /-  PONTIL_RX_BUSY -/ ⟨0x28, 0x28, .counter, 0x0, 0x0, 0x0, 0x0⟩,
    /-  PONTIL_STALE -/ ⟨0x2C, 0x2C, .counter, 0x0, 0x0, 0x0, 0x0⟩,
    /-  PONTIL_BUSY_CYCLES -/ ⟨0x30, 0x30, .counter, 0x0, 0x0, 0x0, 0x0⟩]

/-- The STRAIN block (R364). -/
def strainMap : List RegRow :=
  [/-  STRAIN_STATUS -/ ⟨0x0, 0x0, .status, 0x0, 0x0, 0x6, 0x0⟩,
    /-  STRAIN_ROWS -/ ⟨0x4, 0x4, .counter, 0x0, 0x0, 0x0, 0x0⟩,
    /-  STRAIN_EXACT_FAIL -/ ⟨0x8, 0x8, .counter, 0x0, 0x0, 0x0, 0x0⟩,
    /-  STRAIN_TOL_FAIL -/ ⟨0xC, 0xC, .counter, 0x0, 0x0, 0x0, 0x0⟩,
    /-  STRAIN_RESIDUE_FAIL -/ ⟨0x10, 0x10, .counter, 0x0, 0x0, 0x0, 0x0⟩,
    /-  STRAIN_STAGE_FAIL -/ ⟨0x14, 0x14, .counter, 0x0, 0x0, 0x0, 0x0⟩,
    /-  STRAIN_HOLD_CYCLES -/ ⟨0x18, 0x18, .counter, 0x0, 0x0, 0x0, 0x0⟩,
    /-  STRAIN_ACC_CE -/ ⟨0x1C, 0x1C, .counter, 0x0, 0x0, 0x0, 0x0⟩,
    /-  STRAIN_ACC_UE -/ ⟨0x20, 0x20, .counter, 0x0, 0x0, 0x0, 0x0⟩]

/-- The CSRMAP block (R379). -/
def csrmapMap : List RegRow :=
  [/-  CSRMAP_ALIAS0 -/ ⟨0x0, 0x3C, .control, 0x0, 0xFFFFFFFF, 0x0, 0x0⟩]

/-- The IDENT block (R380). -/
def identMap : List RegRow :=
  [/-  IDENT_DEVICE -/ ⟨0x0, 0x0, .status, 0x47A53, 0x0, 0x0, 0x0⟩,
    /-  IDENT_REV -/ ⟨0x4, 0x4, .status, 0xB0, 0x0, 0x0, 0x0⟩,
    /-  IDENT_NUMERICS -/ ⟨0x8, 0x8, .control, 0x0, 0xFFFFFFFF, 0x0, 0x0⟩,
    /-  IDENT_INSVC_BENCH -/ ⟨0x10, 0x10, .control, 0x0, 0xFFFFFFFF, 0x0, 0x0⟩,
    /-  IDENT_INSVC_STN -/ ⟨0x14, 0x14, .control, 0x0, 0x3FFFF, 0x0, 0x0⟩,
    /-  IDENT_INSVC_JACKS -/ ⟨0x18, 0x18, .control, 0x0, 0xFFFF, 0x0, 0x0⟩,
    /-  IDENT_INSVC_HBM0 -/ ⟨0x1C, 0x1C, .control, 0x0, 0xFFFFFFFF, 0x0, 0x0⟩,
    /-  IDENT_INSVC_HBM1 -/ ⟨0x20, 0x20, .control, 0x0, 0xFFFFFFFF, 0x0, 0x0⟩,
    /-  IDENT_INSVC_LP -/ ⟨0x24, 0x24, .control, 0x0, 0xFFFFFFFF, 0x0, 0x0⟩]

/-- The EVENT block (R381). -/
def eventMap : List RegRow :=
  [/-  EVENT_CTRL -/ ⟨0x0, 0x0, .control, 0x0, 0x1, 0x0, 0x2⟩,
    /-  EVENT_STATUS -/ ⟨0x4, 0x4, .status, 0x0, 0x0, 0xE, 0x0⟩,
    /-  EVENT_CFG -/ ⟨0x8, 0x8, .config, 0x10, 0x1FF, 0x0, 0x0⟩,
    /-  EVENT_DEPTH -/ ⟨0xC, 0xC, .status, 0x0, 0x0, 0x0, 0x0⟩,
    /-  EVENT_HEAD0 -/ ⟨0x10, 0x1C, .status, 0x0, 0x0, 0x0, 0x0⟩,
    /-  EVENT_RAISED -/ ⟨0x20, 0x20, .counter, 0x0, 0x0, 0x0, 0x0⟩,
    /-  EVENT_LOST -/ ⟨0x24, 0x24, .counter, 0x0, 0x0, 0x0, 0x0⟩]

/-- The GCNT block (R382). -/
def gcntMap : List RegRow :=
  [/-  GCNT_TIME_LO -/ ⟨0x0, 0x0, .status, 0x0, 0x0, 0x0, 0x0⟩,
    /-  GCNT_TIME_HI -/ ⟨0x4, 0x4, .status, 0x0, 0x0, 0x0, 0x0⟩,
    /-  GCNT_AO_MS_LO -/ ⟨0x8, 0x8, .status, 0x0, 0x0, 0x0, 0x0⟩,
    /-  GCNT_AO_MS_HI -/ ⟨0xC, 0xC, .status, 0x0, 0x0, 0x0, 0x0⟩,
    /-  GCNT_CFG_LOCKED -/ ⟨0x10, 0x10, .counter, 0x0, 0x0, 0x0, 0x0⟩,
    /-  GCNT_CFG_PARITY -/ ⟨0x14, 0x14, .counter, 0x0, 0x0, 0x0, 0x0⟩,
    /-  GCNT_BAD_ACCESS -/ ⟨0x18, 0x18, .counter, 0x0, 0x0, 0x0, 0x0⟩,
    /-  GCNT_PARITY_INJECT -/ ⟨0x1C, 0x1C, .control, 0x0, 0x8003FFFF, 0x0, 0x0⟩]

/-- The JACKS block (R383). -/
def jacksMap : List RegRow :=
  [/-  JACKS_CTRL -/ ⟨0x0, 0x0, .control, 0x0, 0x3, 0x0, 0x0⟩,
    /-  JACKS_STATUS -/ ⟨0x4, 0x4, .status, 0x3, 0x0, 0xC, 0x0⟩,
    /-  JACKS_CFG -/ ⟨0x8, 0x8, .config, 0x0, 0x3, 0x0, 0x0⟩,
    /-  JACKS_OPS -/ ⟨0x10, 0x10, .counter, 0x0, 0x0, 0x0, 0x0⟩,
    /-  JACKS_FOLDS -/ ⟨0x14, 0x14, .counter, 0x0, 0x0, 0x0, 0x0⟩,
    /-  JACKS_FOLD_FAIL -/ ⟨0x18, 0x18, .counter, 0x0, 0x0, 0x0, 0x0⟩,
    /-  JACKS_KAV_FAIL -/ ⟨0x1C, 0x1C, .counter, 0x0, 0x0, 0x0, 0x0⟩,
    /-  JACKS_NAN_CREATED -/ ⟨0x20, 0x20, .counter, 0x0, 0x0, 0x0, 0x0⟩,
    /-  JACKS_BUSY_CYCLES -/ ⟨0x24, 0x24, .counter, 0x0, 0x0, 0x0, 0x0⟩]

/-- The AOPM block (R426). -/
def aopmMap : List RegRow :=
  [/-  AOPM_RESET_CTRL -/ ⟨0x0, 0x0, .control, 0x0, 0x3, 0x0, 0x4⟩,
    /-  AOPM_RESET_CAUSE -/ ⟨0x4, 0x4, .status, 0x1, 0x0, 0x0, 0x0⟩,
    /-  AOPM_BLOCK_RESET -/ ⟨0x8, 0x8, .control, 0x0, 0x800003FF, 0x0, 0x0⟩,
    /-  AOPM_SUPPLY -/ ⟨0xC, 0xC, .status, 0x0, 0x0, 0x0, 0x0⟩,
    /-  AOPM_WAKE -/ ⟨0x10, 0x10, .control, 0x1F47, 0x7FFF, 0x0, 0x0⟩,
    /-  AOPM_BROWNOUTS -/ ⟨0x14, 0x14, .counter, 0x0, 0x0, 0x0, 0x0⟩]

/-- The block in slot `s` of a die and its index (R366); none for a reserved slot. -/
def blockAt (die s : Nat) : Option (Blk × Nat) :=
  if s = 0 then some (.ident, 0) else if s = 1 then some (.event, 0) else if s = 2 then some (.gcnt, 0)
  else if s = 3 then some (.csrmap, 0) else if s = 4 then some (.sync, 0)
  else if s < 8 then none else if s < 12 then some (.part, s - 8)
  else if s < 20 then some (.marver, s - 12) else if s < 24 then some (.gather, s - 20)
  else if s < 28 then some (.lehr, s - 24) else if s < 30 then some (.pontil, s - 28)
  else if s < 32 then none else if s < 48 then some (.jacks, s - 32) else if s < 64 then none
  else if s < 96 then some (.bench, s - 64) else if s < 128 then some (.cullet, s - 96)
  else if s < 160 then some (.strain, s - 128) else if s < 256 then some (.memc, s - 160)
  else if s = 256 ∧ die = 0 then some (.aopm, 0) else none

/-- The slot of instance `i` of a block kind (R366). -/
def slotOf (b : Blk) (i : Nat) : Nat :=
  match b with
  | .ident => 0 | .event => 1 | .gcnt => 2 | .csrmap => 3 | .sync => 4 | .part => 8 + i | .marver => 12 + i
  | .gather => 20 + i | .lehr => 24 + i | .pontil => 28 + i | .jacks => 32 + i | .bench => 64 + i
  | .cullet => 96 + i | .strain => 128 + i | .memc => 160 + i | .aopm => 256

/-- The map of a block kind. -/
def blkMap : Blk → List RegRow
  | .ident => identMap | .event => eventMap | .gcnt => gcntMap | .csrmap => csrmapMap | .sync => syncMap
  | .part => partMap | .marver => marverMap | .gather => gatherMap | .lehr => lehrMap | .pontil => pontilMap
  | .jacks => jacksMap | .bench => benchMap | .cullet => culletMap | .strain => strainMap | .memc => memcMap
  | .aopm => aopmMap

/-- The row that lists an offset of a block; none for an offset the map does not list (R367). -/
def regRow (b : Blk) (off : Nat) : Option RegRow :=
  if off % 4 ≠ 0 then none else (blkMap b).find? fun r => r.first ≤ off && off ≤ r.last

/-- The physical address of offset `off` of slot `s` of die `d` (R365). -/
def csrBase (d s : Nat) : Nat := 0x080000000000 + d * 0x04000000 + s * 0x00020000
def csrAddr (d s off : Nat) : Nat := csrBase d s + off
/-- The address of a register of instance `i` of a block kind. -/
def regAddr (b : Blk) (d i off : Nat) : Nat := csrAddr d (slotOf b i) off

/-- The reset value of a register (R366's Reset columns, with IDENT_REV and MEMC_CFG by instance). -/
def regReset (b : Blk) (d i off : Nat) : Nat :=
  if b = .ident ∧ off = 4 then 0xB0 + 0x100 * d
  else if b = .memc ∧ off = 8 then (if i < 64 then 3 else 2)
  else ((regRow b off).map fun r => r.reset).getD 0

/-- The places of cfg_locked_write and cfg_parity in a block's status register, at offset 0x0004 (R369, R375); none for
the blocks that hold no configuration registers. PART_STATUS has no cfg_parity bit. -/
def lockBits : Blk → Option (Nat × Option Nat)
  | .part => some (1, none)
  | .marver | .gather | .lehr | .pontil | .jacks | .bench | .event => some (2, some 3)
  | .memc => some (3, some 4)
  | .sync => some (0, some 1)
  | .ident | .gcnt | .csrmap | .cullet | .strain | .aopm => none

end Sys2Proof.Machine
end

