-- ==== Sys2Proof/Machine/State.lean ====
section
/-! DEFINITION. The state of the Horain T4: everything the spec gives the module, as plain data, and the state right
after a cold reset, before bring-up (R423). Sparse maps are lists of (key, value) with rising keys. -/

namespace Sys2Proof.Machine

/-- Why the machine stops. The spec gives every command of its table an effect, so no meaning of this model faults. -/
inductive Fault where
  /-- Raised by no command; the type must have a name for the outcome `fault`. Safe. -/
  | stuck
  deriving DecidableEq, Repr

/-- Why a command has no meaning. -/
inductive Refusal where
  /-- The command is not modelled yet: raised by an arm of `exec` only. Safe. -/
  | notModelled (mnemonic : String)
  deriving DecidableEq, Repr

/-! ### Tensors and memory -/

/-- What sets a tile apart from its tensor's regular placement and form: its own place and form when it has one
(a migrated tile, an allocation of the reserve, a raised tile), and its marks. -/
structure TileMark where
  poisoned : Bool := false           -- R259, R260
  place    : Option Nat := none      -- physical address, when not the regular one
  form     : Option Fmt := none      -- operand form, when not the descriptor's (R158)
  raised   : Bool := false           -- reheated this step (R156)
  raisedNext : Bool := false         -- reheated as a working copy for the next step (R159, R194)
  folded   : Bool := false           -- counted in reheats_step of its tensor (R156)
  charged  : Bool := false           -- its place is charged to the fall-back reserve (R163)
  apart    : Bool := false           -- its place was taken outside training and lasts (log entry 9)
  home     : Option Nat := none      -- where its regular place has moved to (R266)
  migrating : Option Nat := none     -- destination of a migration in progress (R266)
  copied   : Bool := false           -- the migration's copy is complete; the switch waits for a tile-epoch boundary
  near0    : Nat := 0                -- accesses by die 0 and by die 1 since the planner last looked (R264)
  near1    : Nat := 0
  count    : Nat := 0                -- access counter (R241, R265)
  stringer : Bool := false           -- stored as a Stringer image (R197)
  deriving DecidableEq, Repr

/-- Tiles that lie one after the other: the tiles `first`, `first + step`, … of a tensor, `count` of them, from an address on
(R265). -/
structure Run where
  first : Nat
  step  : Nat
  count : Nat
  addr  : Nat
  deriving DecidableEq, Repr

/-- A tensor with a valid descriptor (R20 to R24). -/
structure Tensor where
  part   : Nat
  handle : Nat
  desc   : HDesc
  hist   : Option Hist               -- the scale-history record (R102)
  runs   : List Run                  -- the regular places of its tiles
  stride : Nat                       -- bytes from one tile of a run to the next
  copy   : Bool := false             -- an UPDATE of a loaded program names it as its working copy (R73, R157)
  marks  : List (Nat × TileMark) := []
  deriving DecidableEq, Repr

/-- A loaded program (R28, R33). -/
structure Program where
  part  : Nat
  num   : Nat
  kind  : ProgKind
  level : Nat
  bytes : Nat
  ops   : List Op
  addr  : Nat := 0                   -- where its bytes lie in the partition's memory (R33)
  deriving DecidableEq, Repr

/-! ### Stream groups and contexts -/

inductive GroupKind where
  | training | inference | general
  deriving DecidableEq, Repr

/-- A ladder record (R159, R166): level, run of clean steps, counts. -/
structure LadderRec where
  level  : Nat := 0
  clean  : Nat := 0
  agreed : Nat := 0                 -- A at the last agreement
  deriving DecidableEq, Repr

/-- A ratio record (R183, R175): ρ, ρ_d, τ and the flags. -/
structure RatioRec where
  rho   : Word := 0
  rhoD  : Word := 0
  agreed : Bool := false            -- a value has been agreed or restored
  tau   : Word := 0x3F800000#32
  low   : Bool := false
  high  : Bool := false
  trip  : Bool := false
  clipped : Bool := false           -- its step committed as a clip repeat that scaled the layer (R184)
  deriving DecidableEq, Repr

/-- A journal record (R186): which tile's old content it holds, and where in the LP tier the record lies. -/
structure JournalRec where
  step   : Nat
  handle : Nat
  tile   : Nat
  kind   : Nat
  length : Nat                      -- bytes of old content
  places : List (Nat × Nat)         -- the parts of the journal that hold the record: address and bytes
  form   : Option Fmt
  place  : Option Nat
  held   : Bool := false            -- held for a checkpoint (R213)
  deriving DecidableEq, Repr

/-- The state a step started from, kept until it commits (R205, R208). -/
structure SavedState where
  step    : Nat
  hists   : List (Nat × Hist)
  ladder  : List (Nat × LadderRec)
  ratios  : List (Nat × RatioRec)
  slots   : List (Nat × Bytes)
  scheds  : List (Nat × Bytes)
  carry   : List (Nat × Nat) := []              -- reheats of the working copies, counted in the step (R194)
  encoded : List Nat := []                      -- what the format reheats before its first operation left (R158)
  raised  : List (Nat × Nat) := []              -- tiles marked reheated, and those of them that its records count (R156)
  folded  : List (Nat × Nat) := []
  ceiling : Nat := 0
  rotBad  : Nat := 0
  deriving DecidableEq, Repr

/-- An opportunistic save (R164, R198): a tile that a forward program wrote of a recomputed tensor, the memory that keeps it, and
the tiles written since. -/
structure Save where
  handle : Nat
  tile   : Nat
  addr   : Nat
  bytes  : Nat
  dirty  : List (Nat × Nat) := []
  deriving DecidableEq, Repr

/-- A context held at a barrier's gate, with what it brought (R288). -/
structure GateHeld where
  ctx     : Nat
  part    : Nat
  parties : Nat
  cgroup  : Nat
  deriving DecidableEq, Repr

/-- A local barrier or a fabric barrier slot (R287 to R291). -/
structure Barrier where
  gen      : Nat := 0
  counted  : List Nat := []         -- contexts counted that have not left
  left     : Nat := 0               -- counts of the generation whose context has left
  parties  : Nat := 0
  cgroup   : Nat := 0
  draining : Bool := false
  held     : List GateHeld := []    -- in order of arrival
  mismatch : Bool := false
  sent     : Bool := false          -- the module's notice for gen is sent
  notices  : List (Nat × Nat × Nat) := [] -- notices held: generation, rank, collective group
  deriving DecidableEq, Repr

/-- Where the step in progress of a training group stands (R193, R201). -/
inductive StepPhase where
  | running                         -- operations of the step issue
  | agreeing                        -- STEP_BOUNDARY issued, statuses awaited
  deriving DecidableEq, Repr

/-- A stream group (R37) and, for a training group, its steps. -/
structure Group where
  part     : Nat
  num      : Nat
  kind     : GroupKind
  seed     : Nat
  first    : Nat
  rpt      : Nat
  started  : Bool := false
  slotted  : Bool := false                       -- holds an epoch slot: from START to UNBIND of its last context (R299)
  epoch    : Nat := 0
  slot     : Nat := 0                            -- epoch slot of its die (R299)
  step     : Nat := 0                            -- the step in progress
  open_    : Bool := false                       -- the step in progress has begun and is uncommitted
  awaiting : Option Nat := none                  -- the step applied whose acknowledgements are awaited (R206)
  committed : Option Nat := none                 -- the last committed step
  phase    : StepPhase := .running
  abortCode : Nat := 0                           -- the code of an abort met in the step (R204)
  pausedBy : Nat := 0                            -- why the device paused it: a status of R203, 16 divergence, 17 suspect, 18 update
  clipped  : Bool := false                       -- this attempt is a clip repeat (R184)
  clips    : List (Nat × Word) := []             -- the factor c of each tripped layer
  fallbacks : Nat := 0                           -- aborts of this step under R165
  request  : Nat := 0                            -- the largest reserve or journal request that failed
  ladder   : List (Nat × LadderRec) := []
  floor    : Nat := 0                            -- level_floor as in force in the step (R165, R166)
  ratios   : List (Nat × RatioRec) := []
  reheats  : List (Nat × Nat) := []              -- this step's reheat counts per layer
  nextReheats : List (Nat × Nat) := []           -- those of the working copies, for the next step (R194)
  encoded  : List Nat := []                      -- handles encoded in the step (R103)
  sums     : List (Nat × (Nat × (Word × Word × Word))) := []   -- handle, tile, Sw, Sd, SΔ (R182)
  fixedSat : Nat := 0                            -- counts of tiles of fixed-scale tensors (R100)
  fixedLost : Nat := 0
  gradNonfinite : Nat := 0
  ceiling  : Nat := 0
  rotBad   : Nat := 0
  measMax  : Word := 0
  measBad  : Nat := 0
  peak     : Nat := 0
  suspect  : Nat := 0                            -- the device's own suspect mask of the step (R361)
  measHist : List Word := []                     -- measure_max of the last committed steps (R360)
  journal  : List JournalRec := []
  journalArea : List (Nat × Nat) := []           -- the parts of the LP region that the journal takes: address and bytes (R185)
  gradLast : Nat := 0                            -- gradNonfinite of the step applied (R190)
  saved    : List SavedState := []
  statuses : List (Nat × Bytes) := []            -- status tiles by rank
  acks     : List Nat := []                      -- ranks whose acknowledgement is held
  early    : List (Nat × (Nat × (Nat × Bytes))) := []  -- notices of later steps: step, kind, rank, payload
  snaps    : List (Nat × Nat) := []              -- snapshots: step, destination handle
  snapInt  : Nat := 1                            -- snap_interval and ckpt_interval of the step (R223)
  ckptInt  : Nat := 0
  buckets  : List (Nat × Nat) := []              -- next bucket by collective group
  tableSeq : List (Nat × Nat) := []              -- next sharded exchange number by table and collective group (R233)
  atStart  : List (Nat × (List (Nat × Nat) × List (Nat × Nat))) := []  -- step, buckets and exchange numbers at its start
  bars     : List (Nat × List (Nat × Barrier)) := []  -- step, barriers at its start
  rebuild  : Bool := false                       -- START rebuilds working copies (R218)
  carry    : List (Nat × Nat) := []              -- the reheat counts the step began with (R159)
  shut     : Bool := false                       -- a suspect step keeps the gate closed (R361)
  repEnc   : List (Nat × Nat) := []              -- outside training: repetitions in which tensors were encoded (R103)
  saves    : List Save := []                     -- opportunistic saves of the step (R198)
  lent     : List (Nat × Nat) := []              -- memory of dropped saves, lent to the reserve: address and bytes (R164)
  deriving DecidableEq, Repr

/-- Context states (R39). -/
inductive CtxSt where
  | free | bound | running | waiting | paused | faulted | done
  deriving DecidableEq, Repr

/-- What a WAITING context waits for. -/
inductive WaitFor where
  | counter | barrier | gate | gateHeld
  deriving DecidableEq, Repr

/-- A transition that takes effect once the operations in flight have completed (R40). -/
inductive Want where
  | nothing | pause | stop | fault | faultStop   -- the last: a fault of a stream that is to be stopped (R41)
  deriving DecidableEq, Repr

/-- A tile that an operation in flight will write: handle, tile number, bytes. -/
structure TileWrite where
  handle : Nat
  tile   : Nat
  bytes  : Bytes
  poison : Bool := false             -- the content is poisoned, and stays so (R189, R259)
  deriving DecidableEq, Repr

/-- An operation in flight (R34). `ready` says that it needs nothing from outside the module to complete. -/
structure Flight where
  op     : Nat
  inst   : Option Inst
  outs   : List (Nat × Nat)          -- the tiles it writes, as handle and tile
  writes : List TileWrite
  ready  : Bool
  jwait  : Bool := false             -- a Lehr operation that waits for journal room (R188)
  deriving DecidableEq, Repr

/-- A stream context (R38, R39). -/
structure Ctx where
  st     : CtxSt := .free
  part   : Nat := 0
  group  : Nat := 0
  prog   : Nat := 0
  pc     : Nat := 0                  -- next operation
  rep    : Nat := 0                  -- repetition within the group
  flights : List Flight := []
  waitFor : Option WaitFor := none
  waitOk  : Bool := false            -- the held operation's wait is satisfied, or its barrier passed
  passed : Bool := false             -- its BARRIER has been left
  want   : Want := .nothing
  signals : List (Nat × Nat) := []   -- signals of completed operations held under R35: operation, counter
  faultOp : Option Nat := none       -- the first operation in program order that has faulted, while others are in flight
  deriving DecidableEq, Repr

/-! ### Synchronisation -/

/-- Who posted a wait. -/
inductive Waiter where
  | ctx (n : Nat)
  | host (ring : Nat) (tag : Half)
  | fw
  deriving DecidableEq, Repr

/-- A pending wait (R282). -/
structure PWait where
  who   : Waiter
  count : Nat
  deriving DecidableEq, Repr

/-- A signal held for a newer epoch (R284). -/
structure HeldSig where
  die : Nat
  ctr : Nat
  epoch : Nat
  deriving DecidableEq, Repr

/-- What SYNC holds back (R376, R421): a signal to a physical counter, with the epoch of one from the fabric, or a wait posted. -/
inductive SyncAct where
  | signal (ctr : Nat) (epoch : Option Nat)
  | wait (ctr : Nat) (w : PWait)
  deriving DecidableEq, Repr
/-- The synchronisation state of a die. -/
structure SyncDie where
  waits : List (Nat × List PWait) := []       -- by physical counter, oldest first
  bars  : List (Nat × Barrier) := []          -- local barriers by physical index
  fbars : List (Nat × Barrier) := []          -- fabric barrier slots
  held  : List HeldSig := []
  frozen : List SyncAct := []                 -- held while cfg_parity reads 1 or the die is in reset, in arrival order
  deriving DecidableEq, Repr

/-! ### Fabric -/

inductive PortSt where
  | down | training | up | degraded | retraining
  deriving DecidableEq, Repr

/-- A packet that waits at a port (R306, R319): its class, its source (a collective group, 32 + p the checkpoints of partition p,
36 + p its point-to-point transfers), its bytes; for bytes of a slot at a buddy, the module, partition, slot and offset. -/
structure TxItem where
  cls  : Nat
  src  : Nat
  data : Bytes
  slot : Option (Nat × Nat × Nat × Nat) := none
  deriving DecidableEq, Repr

/-- A data flit that is not acknowledged, as it was sent: sequence number, first_pkt, body, and the credits that it carries (R304,
R305). -/
structure SentFlit where
  seq     : Nat
  first   : Nat
  body    : Bytes
  cls     : Nat
  credits : Nat
  deriving DecidableEq, Repr
/-- A fabric port (R302 to R308). -/
structure Port where
  st     : PortSt := .down
  lanes  : Nat := 0
  peer   : Option (Nat × Nat × Nat) := none   -- module, partition, port
  rxSeq  : Nat := 0                            -- sequence number expected
  nakOut : Bool := false
  txSeq  : Nat := 0
  replay : List SentFlit := []                 -- flits not acknowledged
  rxPart : Bytes := []                         -- bytes of a packet not yet whole
  replays : Nat := 0                           -- times the oldest flit was replayed in a row
  queue  : List TxItem := []                   -- packets that wait for their turn
  sending : List (Bool × Bytes) := []          -- bytes chosen for the next flits; true: a packet begins with them
  credits : List Nat := [0, 0, 0]              -- credits left of what the peer granted, by class, in 64 bytes
  owed   : List Nat := [0, 0, 0]               -- credits to return to the peer, by class
  ackOwed : Bool := false                      -- a flit was taken and no acknowledgement sent since
  ring   : List (Nat × Nat) := []              -- backlogged sources of class 0 in turn, with their deficits (R319)
  turn   : Bool := false                       -- the first of them has had its quantum
  scram  : List Nat := [0, 0, 0, 0]            -- what each lane's scrambler and descrambler hold (R302)
  descram : List Nat := [0, 0, 0, 0]
  deriving DecidableEq, Repr

/-- A packet of the transport layer, decoded. -/
structure Packet where
  typ  : Nat
  hdr  : PktHdr
  ext  : Option ExtHdr
  data : Bytes
  deriving DecidableEq, Repr

/-- A sending flow (R311). -/
structure TxFlow where
  part    : Nat
  engine  : Nat
  channel : Nat
  module  : Nat
  dpart   : Nat
  next    : Nat := 0
  unacked : List Packet := []
  port    : Option Nat := none                 -- the port it was last sent on (R313)
  owners  : List (Nat × (Nat × Nat)) := []     -- last tseq of a transfer, context, operation
  retries : Nat := 0
  deriving DecidableEq, Repr

/-- A receiving flow (R311). -/
structure RxFlow where
  module  : Nat
  spart   : Nat
  dpart   : Nat
  flow    : Nat
  expect  : Nat := 0
  early   : List (Option Nat × Packet) := []    -- with the port each came in by
  desc    : Bytes := []                         -- descriptor of the transfer in progress
  refused : Bool := false
  deriving DecidableEq, Repr

/-- A collective packet or chunk held or being put together (R329). -/
structure ChunkRx where
  cgroup : Nat
  tag    : Nat
  gen    : Nat
  epoch  : Nat
  bucket : Nat
  level  : Nat
  chunk  : Nat
  sender : Nat
  parts  : List (Nat × Bytes)
  done   : Bool := false
  sum    : Word := 0
  elements : Nat := 0
  resent : Bool := false
  good   : Bool := false                         -- its sum check has been made (R325)
  deriving DecidableEq, Repr

/-- A notice of several packets, not yet whole (R326). -/
structure NoticeRx where
  rank   : Nat
  kind   : Nat
  bucket : Nat
  parts  : List (Nat × Bytes)
  deriving DecidableEq, Repr

/-- A collective group (R320). -/
structure CGroup where
  chunks  : List ChunkRx := []                  -- chunks held in the receive area (R329)
  notices : List NoticeRx := []                 -- notices of several packets, not yet whole
  ahead   : List Packet := []                   -- packets that carry a newer epoch (R329)
  deriving DecidableEq, Repr

/-- A collective or sharded exchange in progress (R321, R233). -/
structure Coll where
  ctx    : Nat
  op     : Nat
  cgroup : Nat
  bucket : Nat
  epoch  : Nat
  kind   : Nat
  rop    : Nat
  root   : Nat
  pairs  : List (Nat × Nat)                     -- input and output handles
  stage  : Nat := 0
  jacks  : List Inst := []                      -- engines reserved to it (R324)
  served : List Nat := []                       -- members whose request lists have been answered (R234)
  got    : List Nat := []                       -- members whose row packets have come (R235)
  faults : List FoldFault := []                 -- what physical faults make of its folds (R352)
  step   : Nat := 0                             -- the step it belongs to
  held   : List (Nat × Bytes) := []             -- its inputs, partials and results
  sent   : List (Nat × Nat × Nat) := []         -- chunks that have left: level, destination's rank, index (R327, R329)
  done   : List (Nat × Nat) := []               -- chunks folded here: level, index (R327)
  deriving DecidableEq, Repr

/-! ### Reliability -/

/-- A strike record (R345). -/
structure Strike where
  inst  : Nat
  cause : Nat
  time  : Nat                                    -- powered ms
  deriving DecidableEq, Repr

/-- A disputed row (R341 to R343). -/
structure Dispute where
  ctx   : Nat
  op    : Nat
  bench : Nat                                    -- 32 × die + bench of the original
  red   : Nat
  row   : Nat
  stage : Nat                                    -- the stage disputed, as a RowFix names it
  cause : Nat
  checker : Bool                                 -- the original's Strain is what errs
  runs  : List (Nat × (List Word × (Bool × Bool)))   -- bench, value, Strain verdict, that bench's original agreed
  deriving DecidableEq, Repr

/-- A Frit loan (R347). -/
structure Loan where
  bench : Nat
  partner : Nat
  deriving DecidableEq, Repr

/-- One bank of a bench's stationary registers (R116): the form of the tile it holds and, by reduction index and then by column,
the two registers of each cell, with the bank of the stationary outlier store that goes with it (R150): column, reduction index and
value of each outlier lane. At reset no tile is held, and a cell that is not listed holds 0 (log entry 76). -/
structure Bank where
  form  : Option Fmt := none
  cells : List (Int × Int) := []
  outs  : List (Nat × Nat × Lane) := []
  deriving DecidableEq, Repr

/-- What a bench holds (R111, R116, R122, R126, R150), as it stands at the last point that its segment is known to have reached. -/
structure BenchSt where
  bank0   : Bank := {}
  bank1   : Bank := {}
  serving : Bool := false                        -- bank 1 serves the current reduction tile
  side    : List (Nat × Nat × Half) := []        -- the streaming side list: row, reduction index, value
  hot     : List (Nat × List Half) := []         -- the streaming hot slices: reduction index, values by row
  red     : Nat := 0                             -- the reduction tile that the segment is known to have reached
  acc     : List Word := []                      -- the accumulator's rows written so far, 256 entries each
  seg     : Option (Nat × Nat) := none           -- the GEMM whose segment is in progress: context, operation
  writer  : Option (Nat × Nat) := none           -- the GEMM whose output tile the writer holds
  slack   : Nat := 128                           -- cycles that a stationary load still takes when the array is free (R132)
  deriving DecidableEq, Repr

/-- A GEMM in flight, run as segments (R124). -/
structure Gemm where
  ctx    : Nat
  op     : Nat
  part   : Nat
  o      : Op
  tiles  : List Bytes                            -- its operand tiles as read, and its prior content where it adds to it
  bench  : Option Nat                            -- the bench of the segment in progress; none while it waits for one
  lo     : Nat := 0                              -- the segment's first reduction tile
  room   : Option (Nat × Nat) := none            -- the committed partial in the Crucible: address and bytes
  plan   : List (Nat × Nat) := []                -- the boundaries still to come, and the bench after each
  fixes  : List RowFix := []
  first  : Nat := 128                            -- cycles that its segment's first stationary load still takes (R132)
  late   : Bool := false                         -- its segment found an earlier GEMM's tile still to be handed over (R127)
  deriving DecidableEq, Repr

/-- A digest round (R354). -/
structure DigestRound where
  part  : Nat
  step  : Nat
  computed : Bool := false
  mine  : Bytes := []                            -- this member's 80-byte payload, over the state at the commit
  got   : List (Nat × Bytes) := []
  deriving DecidableEq, Repr

/-- A checkpoint being written, and the slot records of its source (R211 to R216). -/
structure Ckpt where
  part   : Nat
  slot   : Nat
  step   : Nat
  group  : Nat
  small  : List (Nat × Nat × Nat) := []          -- the records staged at the commit (R213): kind, handle, bytes
  stage  : List (Nat × Nat) := []                -- the parts of the LP region that the staging area takes
  clean  : Option Nat := none                    -- a later round that completed clean before it was shipped (R215)
  deriving DecidableEq, Repr

/-- The slots that a partition has claimed at a buddy: the size of each (R215, R216). -/
structure Claim where
  part   : Nat
  module : Nat
  bpart  : Nat
  size   : Nat
  deriving DecidableEq, Repr

/-- A slot hosted for another module (R215). -/
structure HostedSlot where
  module : Nat
  part   : Nat
  idx    : Nat
  places : List (Nat × Nat)                      -- the parts of memory that hold it, in the order of its bytes
  size   : Nat
  hpart  : Nat
  deriving DecidableEq, Repr

/-! ### Memory service -/

/-- A memory channel's service state (R268 to R273, R275). -/
structure ChanSt where
  state  : Nat := 0                              -- 0 in service, 1 draining, 2 drained, 4 margining
  fenced : Bool := false
  failedTrain : Bool := false
  ues    : List Nat := []                        -- powered ms of uncorrectable errors
  ces    : List Nat := []                        -- powered ms of corrected errors, this hour
  stormed : Bool := false
  blocked : Nat := 0                             -- errors logged when a blocked fence was last told of (R263)
  svc    : Nat := 0                              -- the service command in progress on it: 1 drain, 3 recalibrate, 4 margin (R274)
  clock    : Bool := false                       -- its PLL failed: it is trained anew once it is drained (R419)
  recalDue : Bool := false                       -- a recalibration waits for another channel of the stack or package (R271)
  deriving DecidableEq, Repr

/-! ### Events -/

/-- A record of the event log (R407). -/
structure EvRec where
  seq    : Nat
  code   : Nat
  source : Nat
  time   : Nat
  detail : Bytes
  deriving DecidableEq, Repr

/-- An event on its way into the log (R407). -/
structure PendEv where
  turn   : Nat                                   -- 0 or 1: from that die's queue; 2: the management controller's own
  code   : Nat
  source : Nat
  time   : Nat
  detail : Bytes
  deriving DecidableEq, Repr

/-- An entry of a die's EVENT queue (R381). -/
structure HwEv where
  code   : Nat
  slot   : Nat
  detail : Nat
  time   : Nat
  deriving DecidableEq, Repr

/-- What one die holds beside its registers. -/
structure Die where
  up     : Bool := false                         -- its main domain runs
  time   : Nat := 0                              -- GCNT_TIME
  latch  : Nat := 0                              -- HI word latched by a LO read
  aoLatch : Nat := 0
  evq    : List HwEv := []
  temp   : Int := 0                              -- hottest sensor, eighths of a degree
  throttled : Bool := false
  heldBy : Nat := 0                              -- cause of the reset it is held in; 0 none
  hot    : Bool := false                         -- reset by its temperature, and not below 95 degrees since (R411)
  gaffer : Nat := 0                              -- version of the Gaffer image it runs; 0 none
  sync   : SyncDie := {}
  parityFails : List (Nat × Nat) := []           -- register address, ms of a parity failure (R377)
  persistent : List Nat := []                    -- slots put out of service by a persistent parity error (R377)
  irq    : Bool := false                         -- EVENT interrupts firmware (R376, R381)
  deriving DecidableEq, Repr

/-! ### The dictionary and its masters -/

/-- A staged segmented write (R390). -/
structure Staging where
  master : Master
  key    : Nat
  bytes  : Bytes
  deriving DecidableEq, Repr

/-- A snapshot of a value being read in segments (R390). -/
structure Snapshot where
  master : Master
  key    : Nat
  bytes  : Bytes
  deriving DecidableEq, Repr

/-- A kept response (R392). -/
structure Kept where
  master  : Master
  tag     : Nat
  request : Bytes
  answer  : Bytes
  deriving DecidableEq, Repr

/-- The management port (R396 to R400). -/
structure Mgmt where
  nodeId   : Nat := 255
  chainIn  : Bool := false
  chainOut : Bool := false
  sweeping : Bool := false                       -- pending
  restarting : Bool := false
  takeover : Bool := false
  lost     : Bool := false                       -- no PLCA beacon is heard
  deriving DecidableEq, Repr

/-- The powered-time log (R404): the records of its two sectors, each of 16 bytes, oldest first, and which sector is written. -/
structure TimeLog where
  secA : List Bytes := []
  secB : List Bytes := []
  inB  : Bool := false
  deriving DecidableEq, Repr
/-- The configuration store (R401 to R405): the two copies' regions and the powered-time log. -/
structure Store where
  copyA   : Bytes := []
  copyB   : Bytes := []
  inForce : Nat := 255                           -- 0 A, 1 B, 255 defaults
  version : Nat := 0                             -- record version of the copy in force
  damaged : Bool := false                        -- exactly one copy was valid at boot
  defaults : Bool := false                       -- neither copy was valid at boot
  pending : List Nat := []                       -- keys written and not yet in flash
  timeLog : TimeLog := {}
  deriving DecidableEq, Repr

/-! ### Power -/

/-- The power states of a station instance (R412). -/
inductive InstPower where
  | gated | retained
  deriving DecidableEq, Repr

/-- Power, clocks and reset. -/
structure Power where
  ready     : Bool := false                      -- step 10 of bring-up is done (R423)
  meanMw    : Nat := 0                           -- mean input power over the last 100 ms (R410)
  shares    : List Nat := []                     -- per cent of bench cycles withheld in each of the last 100 ms
  insvc     : Bytes := []                        -- IDENT_INSVC words as they stood before a die left Run (R388)
  overvolt  : Bool := false
  resetLow  : Bool := false                      -- MOD_RESET_N asserted
  nvInhibit : Bool := false
  warn      : Bool := false
  throttled : Bool := false                      -- the 100 ms mean is above the limit
  comparator : Bool := false
  withheld  : Nat := 0                           -- per cent of bench cycles withheld
  deepSteps : Nat := 0                           -- 0 Run, 1 entering, 2 Deep, 3 leaving
  deepPorts : Bool := false                      -- of the exit from Deep step 5 is left: the ports train (R416)
  supplied  : Option BootObs := none             -- the supply is good while MOD_RESET_N is low: what bring-up will find (R422)
  energy    : Nat := 0                           -- input energy reported since power-up, mJ (R425)
  deferred  : List (Nat × Nat) := []             -- commands to Gaffer written in restricted mode: key, value (R441)
  wakeLatched : Option Nat := none
  insts     : List (Nat × InstPower) := []       -- by instance identifier
  boot      : Option BootObs := none             -- what the outside world brought to the bring-up under way
  stopAt    : Nat := 0                           -- the step of R423 at which bring-up stopped
  aoMs      : Nat := 0                           -- GCNT_AO_MS
  aoNs      : Nat := 0                           -- nanoseconds towards its next millisecond
  deriving DecidableEq, Repr

/-! ### The host link -/

/-- A command fetched and not yet completed (R456). -/
structure HostCmd where
  ring : Nat
  tag  : Half
  kind : Nat                                     -- opcode of R459
  part : Nat
  signal : Option Nat
  addr : Nat := 0                                -- what the command needs to complete
  len  : Nat := 0
  tile : Option TileRef := none
  off  : Nat := 0
  data : Bytes := []
  extra : List Nat := []
  deriving DecidableEq, Repr

/-- A ring pair (R455 to R458). -/
structure RingPair where
  sqHead  : Nat := 0
  sqTail  : Nat := 0
  cqTail  : Nat := 0
  cqHead  : Nat := 0
  held    : List (Half × (Nat × Nat)) := []      -- completions not yet written: tag, status, result
  again   : Bool := false                        -- enabled again while it was being disabled (R470, R488)
  deriving DecidableEq, Repr

/-- The host link (R450 to R470). -/
structure Link where
  up      : Bool := false
  lanes   : Nat := 0
  detached : Bool := false
  retraining : Bool := false
  attached : Bool := false
  badConfig : Bool := false
  enable  : Bool := false
  adminSq : DWord := 0
  adminCq : DWord := 0
  evRing  : DWord := 0
  sizes   : DWord := 0
  touched : List Nat := []                       -- ring words written while enable was 0
  rings   : List (Nat × RingPair) := []
  cmds    : List HostCmd := []                   -- fetched, not complete
  evTail  : Nat := 0
  evHead  : Nat := 0
  evNext  : Nat := 0                             -- seq of the next record for the event ring
  evDone  : List Nat := []                       -- records from there on that are written already (R465)
  evMiss  : Option (Nat × Nat) := none           -- first missed seq and number missed, not yet told of
  rxSeq   : Nat := 0
  nakOut  : Bool := false
  txSeq   : Nat := 0
  replay  : List (Nat × Bytes) := []             -- flits not acknowledged: sequence number, body (R452)
  replays : Nat := 0
  hlWait  : List Bytes := []                     -- flit bodies that wait for room in the replay buffer
  detaching : Option (Half) := none
  deriving DecidableEq, Repr

/-- What the module puts out: writes to host memory, packets, frames. The list is the model's own record of its
outputs, newest first. -/
inductive Out where
  | hostWrite (addr : Nat) (data : Bytes)
  | packet (port : Nat) (p : Packet)
  | flit (port : Nat) (data : Bytes)                  -- a flit of 512 bytes
  | line (port lane : Nat) (symbols : List Nat)       -- one of its codewords, as PAM4 levels on a lane (R302, R304)
  | hlFlit (data : Bytes)
  | mgmtFrame (frame : Bytes)                         -- an Ethernet frame without its check sequence (R397)
  | oap (m : Master) (frame : Bytes)                 -- a response of the object access protocol to a master
  | csrRead (addr value : Nat)                        -- what a CSR read returned
  | slotPut (module part slot off : Nat) (data : Bytes)   -- bytes of a checkpoint slot hosted by another module
  deriving DecidableEq, Repr

/-! ### Security -/

/-- A copy of the anti-rollback record (R434). -/
structure AntiRollback where
  seq      : Nat := 0
  svnMgmt  : Nat := 0
  svnGaffer : Nat := 0
  keyCount : Nat := 1
  magic    : Nat := 0                            -- 0x41524253 once written
  mac      : Bytes := []
  deriving DecidableEq, Repr

/-- A firmware slot (R430, R431): the image it holds and its state (0 empty, 1 written, 4 invalid). -/
structure FwSlot where
  image : Bytes := []
  state : Nat := 0
  deriving DecidableEq, Repr

/-- A kind's boot control entry (R431). -/
structure BootCtl where
  active : Nat := 0
  trial  : Bool := false
  left   : Nat := 0
  deriving DecidableEq, Repr

/-- A copy of the boot control record (R431): record version, the entries of both kinds, check word. -/
structure BootCopy where
  ver : Nat := 0
  ctl : List BootCtl := [{}, {}]
  crc : Word := 0
  deriving DecidableEq, Repr
/-- A record of trained values in the flash (R270): of HBM stack 0 to 7 or LP package 8 to 23, the module's serial number, the
interface level of the firmware that wrote it, the temperature of the unit in eighths of a degree, the values, the check word. -/
structure PhyRec where
  unit   : Nat
  serial : Bytes
  level  : Nat
  temp   : Int
  values : Bytes
  crc    : Word
  deriving DecidableEq, Repr

/-- What the flash keeps beside the configuration store (R427 to R434). -/
structure Flash where
  ar       : AntiRollback := {}                  -- the anti-rollback copy written last (R434)
  arOther  : AntiRollback := {}                  -- the other copy
  force    : AntiRollback := {}                  -- the counters in force, as boot has read them (R434, R436)
  keys     : List Bytes := []                    -- the key-transition records of places 1 and up (R428)
  waivers  : List Bytes := []                    -- oldest first
  slots    : List FwSlot := [{}, {}, {}, {}]     -- management A, B, Gaffer A, B
  ctl      : List BootCtl := [{}, {}]            -- management, Gaffer: the entries in force (R431)
  ctlCopy  : BootCopy := {}                      -- the copy written last
  ctlOther : BootCopy := {}                      -- the other copy
  trained  : List PhyRec := []                   -- the trained values of the memory interfaces (R270)
  deriving DecidableEq, Repr

/-- What the security chapter keeps (spec/17). Only security commands, resets and bring-up change it. `flash` is what is in
force; while writes wait for the end of the write inhibit, `held` is what the flash itself still holds (R405). -/
structure Vault where
  flash    : Flash := {}
  held     : Option Flash := none
  arK      : Bytes := []                         -- K_ar, when K was accepted
  xi       : Bytes := []                         -- ξ, when K was accepted
  pufFailed : Bool := false
  waiver   : Bytes := []                         -- the waiver in force
  running  : List (Option Nat) := [none, none, none]   -- slot running: management, Gaffer on die 0, on die 1
  meas     : List Bytes := List.replicate 4 (List.replicate 32 0)   -- M0 to M3
  measLog  : List Bytes := []
  nonces   : List (Nat × Bytes) := []            -- by master
  quotes   : List (Nat × Bytes) := []
  quoteSeq : Nat := 0
  recovery : Bool := false
  signs    : Nat := 0                            -- draws of signing randomness
  lapsed   : Option Nat := none                  -- the waiver in force has lapsed with its key (R442): a free number
  deriving DecidableEq, Repr

/-- Everything but the queue and the vault. -/
structure Mach where
  dies    : List Die := [{}, {}]
  csr     : List (Nat × Nat) := []               -- registers that differ from their reset value or hold a free one, by address
  badPar  : List Nat := []                       -- configuration registers whose parity is wrong (R375)
  shadow  : List (Nat × Nat) := []               -- firmware's shadow copies where an upset made the register differ (R377)
  dict    : List (Nat × Bytes) := []             -- entries that differ from their default or hold a free value, by index × 256 + sub
  log     : List EvRec := []                     -- the event log, newest first (R407)
  logSeq  : Nat := 0                             -- the next record's seq
  evPend  : List PendEv := []                    -- events that the next polling pass takes (R407)
  mem     : List Host.Cell := []                 -- bytes that differ from 0
  chk     : List (Nat × Half) := []              -- check bits that differ from the code's, by codeword address
  -- units whose contents were lost, by `MemUnit.key` (`allUnits`: every other one), and the free number of the loss: their
  -- cells hold the difference from what they were left with
  lost    : List (Nat × Nat) := []
  shaky   : List Nat := []                       -- addresses whose next access over the HBM's pins fails parity twice (R248)
  tensors : List Tensor := []
  progs   : List Program := []
  nextProg : Nat := 0
  groups  : List Group := []
  ctxs    : List Ctx := List.replicate 32 {}
  ports   : List Port := List.replicate 16 {}
  tx      : List TxFlow := []
  rx      : List RxFlow := []
  loop    : List Packet := []                    -- packets from this module to itself, not yet delivered
  cgroups : List (Nat × CGroup) := []
  colls   : List Coll := []
  unreach : List (Nat × Nat) := []               -- endpoints marked unreachable
  peers   : List (Nat × Nat) := []               -- the port on which training last found a module, by 4096 × partition + module
  strikes : List Strike := []
  disputes : List Dispute := []
  loans   : List Loan := []
  fritWait : List Loan := []                     -- loans that wait for a segment to end (R347, R362)
  fenceWait : List Nat := []                     -- identifiers to be fenced when the votes they count in have ended (R362)
  benches : List (Nat × BenchSt) := []           -- benches that hold something, by 32 × die + bench
  gemms   : List Gemm := []
  benchOffs : List Nat := []                     -- benches whose enable falls once they are drained (R146)
  fritNum : Nat := 0
  digest  : List DigestRound := []
  ckpts   : List Ckpt := []                     -- checkpoints being written
  claims  : List Claim := []
  hosted  : List HostedSlot := []
  chans   : List (Nat × ChanSt) := []
  errlog  : List Bytes := []
  warm    : List Nat := []                       -- partitions whose counters are warm
  staging : List Staging := []
  snaps   : List Snapshot := []
  kept    : List Kept := []
  mgmt    : Mgmt := {}
  store   : Store := {}
  power   : Power := {}
  link    : Link := {}
  liveDie : Option Nat := none                   -- the die that a live update is at (R446)
  phy     : List (Nat × Bytes) := []             -- trained values in force, by stack 0 to 7 or package 8 to 23 (R270)
  level   : Nat := 0                             -- numerics level of the running Gaffer firmware
  restricted : Nat := 0                          -- restricted_causes (R441)
  freeCtr : Nat := 0                             -- draws of free values: the model's own
  out     : List Out := []
  deriving DecidableEq, Repr

/-- The state: the commands that wait, first in first out; the machine; the vault. -/
structure State where
  pending : List Instr := []
  m       : Mach := {}
  v       : Vault := {}
  deriving DecidableEq, Repr

/-- The module right after a cold reset, before bring-up begins (R423, R424). -/
def State.reset : State := {}

end Sys2Proof.Machine
end

