-- ==== Sys2Proof/Machine/Ops.lean ====
section
/-! DEFINITION. The named operations over the machine: dies, registers, dictionary values, free values, memory bytes and
their check bits. -/

namespace Sys2Proof

/-- The block kind of a station kind. -/
def StKind.blk : StKind → Machine.Blk
  | .bench => .bench | .marver => .marver | .gather => .gather | .jacks => .jacks | .lehr => .lehr
  | .pontil => .pontil
/-- Instances of a station kind on one die (R10). -/
def StKind.perDie : StKind → Nat
  | .bench => 32 | .marver => 8 | .gather => 4 | .jacks => 16 | .lehr => 4 | .pontil => 2
def StKind.all : List StKind := [.bench, .marver, .gather, .jacks, .lehr, .pontil]

/-- A channel's number in the state's map, and its MEMC instance (R275). -/
def Chan.num (c : Chan) : Nat := (if c.lp then 128 + 32 * c.die else 64 * c.die) + c.idx
def Chan.memc (c : Chan) : Nat := (if c.lp then 64 else 0) + c.idx
def Chan.ok (c : Chan) : Bool := c.die < 2 && c.idx < (if c.lp then 32 else 64)

end Sys2Proof

namespace Sys2Proof.Machine

/-! ### Dies and registers -/

def Mach.die (m : Mach) (d : Nat) : Die := m.dies.getD d {}
def Mach.updDie (m : Mach) (d : Nat) (f : Die → Die) : Mach := { m with dies := updAt m.dies d f }

/-- The die, slot and offset within the slot's 128 KiB that a CSR-space address names (R365). -/
def csrSplit (a : Nat) : Option (Nat × Nat × Nat) :=
  (csrDie a).map fun d =>
    let o := a - csrBase d 0
    (d, o / 0x20000, o % 0x20000)

/-- The reset value of the register at an address; 0 where there is none. -/
def csrResetAt (a : Nat) : Nat :=
  match csrSplit a with
  | none => 0
  | some (d, s, o) =>
    match blockAt d s with
    | none => 0
    | some (b, i) => regReset b d i o

/-- A register's stored value. -/
def Mach.csrAt (m : Mach) (a : Nat) : Nat := mapGetD m.csr a (csrResetAt a)
/-- Store a register's value. A register at its reset value is not listed. -/
def Mach.csrPut (m : Mach) (a v : Nat) : Mach :=
  { m with csr := if v = csrResetAt a then mapDel m.csr a else mapSet m.csr a v }

def Mach.reg (m : Mach) (b : Blk) (d i off : Nat) : Nat := m.csrAt (regAddr b d i off)
def Mach.putReg (m : Mach) (b : Blk) (d i off v : Nat) : Mach := m.csrPut (regAddr b d i off) v
/-- Add a number that may be free to a counter, up to its limit: the register is listed whatever its value. -/
def Mach.countAny (m : Mach) (b : Blk) (d i off n : Nat) : Mach :=
  { m with csr := mapSet m.csr (regAddr b d i off) (satAdd 0xFFFFFFFF (m.reg b d i off) n) }
/-- Add to a counter register, which stops at 0xFFFF_FFFF (R6). -/
def Mach.count (m : Mach) (b : Blk) (d i off n : Nat) : Mach :=
  if n = 0 then m else m.countAny b d i off n
/-- Set a bit of a register. -/
def Mach.setBit (m : Mach) (b : Blk) (d i off bit : Nat) : Mach :=
  m.putReg b d i off (setFld (m.reg b d i off) bit bit 1)
def Mach.clrBit (m : Mach) (b : Blk) (d i off bit : Nat) : Mach :=
  m.putReg b d i off (setFld (m.reg b d i off) bit bit 0)
def Mach.bit (m : Mach) (b : Blk) (d i off bit : Nat) : Bool := bitAt (m.reg b d i off) bit

/-- Is the instance in service: its bit of the IDENT service registers (R380)? -/
def Mach.inService (m : Mach) (i : Inst) : Bool :=
  match i.kind with
  | .bench => m.bit .ident i.die 0 0x10 i.idx
  | .marver => m.bit .ident i.die 0 0x14 i.idx
  | .gather => m.bit .ident i.die 0 0x14 (8 + i.idx)
  | .lehr => m.bit .ident i.die 0 0x14 (12 + i.idx)
  | .pontil => m.bit .ident i.die 0 0x14 (16 + i.idx)
  | .jacks => m.bit .ident i.die 0 0x18 i.idx
/-- Set the service bit of an instance. -/
def Mach.setService (m : Mach) (i : Inst) (on : Bool) : Mach :=
  let (off, b) := match i.kind with
    | .bench => (0x10, i.idx) | .marver => (0x14, i.idx) | .gather => (0x14, 8 + i.idx)
    | .lehr => (0x14, 12 + i.idx) | .pontil => (0x14, 16 + i.idx) | .jacks => (0x18, i.idx)
  if on then m.setBit .ident i.die 0 off b else m.clrBit .ident i.die 0 off b

/-- Is the memory channel in service (R380)? -/
def Mach.chanInService (m : Mach) (c : Chan) : Bool :=
  if c.lp then m.bit .ident c.die 0 0x24 c.idx
  else m.bit .ident c.die 0 (0x1C + 4 * (c.idx / 32)) (c.idx % 32)
def Mach.setChanService (m : Mach) (c : Chan) (on : Bool) : Mach :=
  let (off, b) := if c.lp then (0x24, c.idx) else (0x1C + 4 * (c.idx / 32), c.idx % 32)
  if on then m.setBit .ident c.die 0 off b else m.clrBit .ident c.die 0 off b
def Mach.chan (m : Mach) (c : Chan) : ChanSt := mapGetD m.chans c.num {}
def Mach.updChan (m : Mach) (c : Chan) (f : ChanSt → ChanSt) : Mach :=
  let v := f (m.chan c)
  { m with chans := if v = {} then mapDel m.chans c.num else mapSet m.chans c.num v }

/-! ### Dictionary values -/

/-- The default of an entry (R386). -/
def dictDefault (index sub : Nat) : Bytes :=
  if index / 32 = 0x5100 / 32 ∧ sub = 1 then 0xFF#8 :: zeroBytes 31    -- owner 0xFF (R333)
  else if index = 0x1000 ∧ sub = 2 then [0x54, 0x53, 0x50, 0x2D, 0x48, 0x52, 0x4E, 0x2D, 0x54, 0x34, 0x4D]
  else match dictRow index sub with
    | none => []
    | some r =>
      match r.typ.size with
      | some n => toLe n r.dflt
      | none =>
        -- the slot, table-map and ring records of a fixed length read as zeros (R170, R232, R470)
        if r.acc = .ro ∨ r.acc = .wo then [] else
        if r.maxLen ≤ 64 ∨ index / 4 = 0x5008 / 4 then zeroBytes r.maxLen else []

/-- An entry's value as it is held. -/
def Mach.dict? (m : Mach) (index sub : Nat) : Bytes :=
  (mapGet m.dict (dictKey index sub)).getD (dictDefault index sub)
/-- Hold a value; an entry at its default is not listed. -/
def Mach.dictPut (m : Mach) (index sub : Nat) (v : Bytes) : Mach :=
  { m with dict := if v = dictDefault index sub then mapDel m.dict (dictKey index sub)
                   else mapSet m.dict (dictKey index sub) v }
/-- The number an entry of a fixed-size type holds. -/
def Mach.dnum (m : Mach) (index sub : Nat) : Nat := ofLe (m.dict? index sub)
/-- Set a number, kept to the entry's size. -/
def Mach.dset (m : Mach) (index sub n : Nat) : Mach :=
  match dictRow index sub with
  | none => m
  | some r => m.dictPut index sub (toLe (r.typ.size.getD 4) n)
/-- Put a number that may be free into an entry: it is listed whatever its value. -/
def Mach.dsetAny (m : Mach) (index sub n : Nat) : Mach :=
  match dictRow index sub with
  | none => m
  | some r => { m with dict := mapSet m.dict (dictKey index sub) (toLe (r.typ.size.getD 4) n) }
/-- Add a number that may be free to a counter of the dictionary. -/
def Mach.daddAny (m : Mach) (index sub n : Nat) : Mach :=
  match dictRow index sub with
  | none => m
  | some r =>
    let w := r.typ.size.getD 4
    { m with dict := mapSet m.dict (dictKey index sub) (toLe w (satAdd (256 ^ w - 1) (m.dnum index sub) n)) }
/-- Add to a counter entry, which stops at its type's greatest value. -/
def Mach.dadd (m : Mach) (index sub n : Nat) : Mach := if n = 0 then m else m.daddAny index sub n

/-- Hold a value of a stored entry: it reaches the flash with the next copy written (R401). -/
def Mach.storePut (m : Mach) (index sub : Nat) (v : Bytes) : Mach :=
  let m := m.dictPut index sub v
  let k := dictKey index sub
  { m with store := { m.store with pending := if m.store.pending.contains k then m.store.pending else m.store.pending ++ [k] } }

/-- The partition mode: 1, 2 or 4 (0x2001.01). -/
def Mach.mode (m : Mach) : Nat := m.dnum 0x2001 1
/-- Does the partition exist in the current mode (R44)? -/
def Mach.partOk (m : Mach) (p : Nat) : Bool := p < m.mode

/-! ### Free values -/

/-- Draw a free byte string: bytes the spec leaves undefined. -/
def Mach.freeBytes (m : Mach) (n : Nat) : Mach × Bytes :=
  ({ m with freeCtr := m.freeCtr + 1 },
   (List.range n).map fun i => Config.freeByte (m.freeCtr * 4294967296 + i))
/-- Draw a free word. -/
def Mach.freeWord (m : Mach) : Mach × Word := ({ m with freeCtr := m.freeCtr + 1 }, Config.freeWord m.freeCtr)

def Mach.emit (m : Mach) (o : Out) : Mach := { m with out := o :: m.out }

/-! ### Host-link flits (R452)

The manual gives a flit's size, its sequence number, its acknowledgement and its check; where they lie follows the fabric's
flits (log entry 18). -/

/-- A flit of 256 bytes: type 1 data, 2 control, in the form of R304's header. -/
def hlFlitBytes (typ seq ack : Nat) (nak : Bool) (body : Bytes) : Bytes :=
  let bs := toLe 4 (typ + seq * 2 ^ 4 + ack * 2 ^ 16 + 2 ^ 28 + nak.toNat * 2 ^ 29) ++ fitBytes 248 body
  bs ++ toLe 4 (crc32c bs).toNat
/-- Send waiting bodies while at most 64 flits are unacknowledged. -/
def hlPump : Nat → Mach → Mach
  | 0, m => m
  | fuel + 1, m =>
    let l := m.link
    match l.hlWait with
    | [] => m
    | b :: rest =>
      if 64 ≤ l.replay.length || !l.up || l.retraining then m else
      hlPump fuel { m with
        link := { l with hlWait := rest, replay := l.replay ++ [(l.txSeq, b)], txSeq := (l.txSeq + 1) % 4096 }
        out := .hlFlit (hlFlitBytes 1 l.txSeq l.rxSeq false b) :: m.out }
/-- A HOST_WRITE transaction (R453): the address, the length and the data fill flits of their own. -/
def Mach.hostWrite (m : Mach) (a : Nat) (bs : Bytes) : Mach :=
  let all := toLe 8 a ++ toLe 4 bs.length ++ bs
  let ps := pieces 248 (ceilDiv all.length 248) all
  hlPump (ps.length + 64) { m with
    out := .hostWrite a bs :: m.out, link := { m.link with hlWait := m.link.hlWait ++ ps } }

/-! ### Memory bytes

Memory is a list of (address, byte), addresses rising, none of them listing the byte 0 that an unlisted address reads
as (log entry 2). -/

/-- The canonical form of memory: addresses strictly rising, no listed byte 0. -/
def memWfFrom : List Host.Cell → Bool
  | [] => true
  | [c] => c.2 != 0
  | c :: d :: r => c.2 != 0 && c.1 < d.1 && memWfFrom (d :: r)
/-- The canonical form of a memory. -/
def Memory.wf (mem : List Host.Cell) : Bool := memWfFrom mem

/-- The byte at an address. -/
def memByte (mem : List Host.Cell) (a : Nat) : Byte := (mapGet mem a).getD 0
/-- `n` bytes from an address. -/
def memBytes (mem : List Host.Cell) (a n : Nat) : Bytes :=
  let near := mem.filter fun c => a ≤ c.1 && c.1 < a + n
  (List.range n).map fun i => memByte near (a + i)
/-- The cells of a byte string at an address. -/
def cellsOf : Nat → Bytes → List Host.Cell
  | _, [] => []
  | a, b :: bs => if b = 0 then cellsOf (a + 1) bs else (a, b) :: cellsOf (a + 1) bs
/-- Store bytes at an address. -/
def memStore (mem : List Host.Cell) (a : Nat) (bs : Bytes) : List Host.Cell :=
  mem.filter (fun c => c.1 < a) ++ cellsOf a bs ++ mem.filter (fun c => a + bs.length ≤ c.1)

/-! ### The array with its check bits: errors, poison, read-modify-write (R255 to R262) -/

/-- The class of the codeword at an address. Check bits are held as their difference from the code's own. -/
def Mach.cwClass (m : Mach) (cw : Nat) : CwClass :=
  match mapGet m.chk cw with
  | none => .clean
  | some d => classify (checkSyn d)

/-- Is the channel's write-back of corrected codewords enabled (R275)? A Crucible's always is. -/
def Mach.writeBack (m : Mach) (u : MemUnit) : Bool :=
  match u.tier with
  | .cru => true
  | .hbm => m.bit .memc u.die u.chan 8 1
  | .lp => m.bit .memc u.die (64 + u.chan) 8 1

def MemUnit.code (u : MemUnit) : Nat :=
  (match u.tier with | .hbm => 0 | .lp => 64 | .cru => 128) + u.chan
def MemUnit.chan? (u : MemUnit) : Option Chan :=
  match u.tier with
  | .cru => none
  | .hbm => some ⟨false, u.die, u.chan⟩
  | .lp => some ⟨true, u.die, u.chan⟩

def Mach.fineMode (m : Mach) : Bool := m.dnum 0x6001 1 == 1

def MemUnit.key (u : MemUnit) : Nat := 256 * u.die + u.code
def allUnits : Nat := 1024
/-- What a byte reads as where no cell is listed: 0, or anything since its unit lost its contents (R272, R414, R419). The free byte
goes by the place in the unit, which a change of the interleave keeps. -/
def Mach.under (m : Mach) (a : Nat) : Byte :=
  match memUnitOf m.fineMode a with
  | none => 0
  | some u => match (mapGet m.lost u.key).orElse fun _ => mapGet m.lost allUnits with
    | none => 0
    | some n => Config.lostByte n (if a < 0x006000000000 then hbmMoved m.fineMode false a else a)
/-- Bytes of memory as they read from an address, or the cells that store bytes read as `bs`: the difference from what is under. -/
def Mach.over (m : Mach) (a : Nat) (bs : Bytes) : Bytes :=
  if m.lost.isEmpty then bs else bs.zipIdx.map fun q => q.1 ^^^ m.under (a + q.2)
/-- `n` bytes of memory as they lie in the array. -/
def Mach.bytesAt (m : Mach) (a n : Nat) : Bytes := m.over a (memBytes m.mem a n)
def Mach.storeAt (m : Mach) (a : Nat) (bs : Bytes) : Mach := { m with mem := memStore m.mem a (m.over a bs) }
/-- Units, by their keys, lose their contents: their bytes are anything, their codewords sound. -/
def Mach.lose (m : Mach) (ks : List Nat) : Mach :=
  let gone (a : Nat) : Bool := match memUnitOf m.fineMode a with | some u => ks.contains u.key | none => false
  { m with mem := m.mem.filter fun q => !gone q.1, chk := m.chk.filter fun q => !gone q.1
           lost := ks.foldl (fun l k => mapSet l k m.freeCtr) m.lost, freeCtr := m.freeCtr + 1 }

/-- Count codeword accesses at a channel's controller: offset 0x10 reads, 0x14 writes, 0x18 read-modify-writes, 0x1C
corrected, 0x20 uncorrectable (R275). -/
def Mach.memCount (m : Mach) (u : MemUnit) (off n : Nat) : Mach :=
  match u.chan? with
  | none => m
  | some c => m.count .memc c.die c.memc off n

/-- The runs of at most 256 bytes of [a, a + n), each within one unit of the address map. -/
def memRuns (a n : Nat) : List (Nat × Nat) :=
  if n = 0 then [] else
  (List.range ((a + n - 1) / 256 - a / 256 + 1)).map fun k =>
    let lo := max a ((a / 256 + k) * 256)
    let hi := min (a + n) ((a / 256 + k + 1) * 256)
    (lo, hi - lo)
/-- Count the codewords of [a, a + n) at their controllers. -/
def Mach.countRange (m : Mach) (off a n : Nat) : Mach :=
  (memRuns a n).foldl (fun m r =>
    match memUnitOf m.fineMode r.1 with
    | none => m
    | some u => m.memCount u off ((r.1 + r.2 - 1) / 16 - r.1 / 16 + 1)) m

/-- Correct the codeword at `cw` in the array (R257, R261). -/
def Mach.fixCodeword (m : Mach) (cw sym : Nat) (e : Gf) : Mach :=
  { m.storeAt cw (flipData (m.bytesAt cw 16) sym e) with chk := mapDel m.chk cw }

/-- The codewords of [a, a + n) whose check bits differ from the code's, in ascending order. -/
def Mach.suspects (m : Mach) (a n : Nat) : List Nat :=
  if n = 0 then [] else
  (m.chk.filter fun q => a / 16 * 16 ≤ q.1 && q.1 < a + n).map (·.1)

end Sys2Proof.Machine
end

