-- ==== Sys2Proof/Machine/Flags.lean ====
section
/-! DEFINITION. Events and sticky flags: the EVENT queues, the event log, the event ring and the EVENT frames (R381,
R400, R407, R465, R487), and the memory-error log (R262). -/

namespace Sys2Proof.Machine

/-- Event codes (R466). -/
def evStreamFault : Nat := 0x0100
def evTileFormat : Nat := 0x0101
def evStepRepeated : Nat := 0x0102
def evStepSuspect : Nat := 0x0103
def evSnapshotReady : Nat := 0x0104
def evBagOffsets : Nat := 0x0105
def evMergeOverflow : Nat := 0x0106
def evReheatCeiling : Nat := 0x0200
def evLadderAtTop : Nat := 0x0201
def evReserveLent : Nat := 0x0202
def evFallbackUnrec : Nat := 0x0203
def evRatioLow : Nat := 0x0204
def evRatioHigh : Nat := 0x0205
def evRatioTrip : Nat := 0x0206
def evJournalFull : Nat := 0x0207
def evCkptSkipped : Nat := 0x0300
def evCkptCommitted : Nat := 0x0301
def evCkptDiscarded : Nat := 0x0302
def evCkptFailed : Nat := 0x0303
def evSignalSaturated : Nat := 0x0400
def evSignalWaitRefused : Nat := 0x0401
def evBarrierReentry : Nat := 0x0402
def evBarrierMismatch : Nat := 0x0403
def evPortUp : Nat := 0x0500
def evPortDegraded : Nat := 0x0501
def evPortDown : Nat := 0x0502
def evDestUnreachable : Nat := 0x0503
def evDestReachable : Nat := 0x0504
def evFabricRefused : Nat := 0x0505
def evSumcheckFail : Nat := 0x0506
def evMemUeMetadata : Nat := 0x0600
def evMemCeStorm : Nat := 0x0601
def evMemFenceBlocked : Nat := 0x0602
def evStrainDisagree : Nat := 0x0700
def evStrainUnresolved : Nat := 0x0701
def evInstanceFenced : Nat := 0x0702
def evFritSuspect : Nat := 0x0703
def evDigestSkipped : Nat := 0x0704
def evDigestTimeout : Nat := 0x0705
def evReplicaDiverged : Nat := 0x0706
def evReplicaExpelled : Nat := 0x0707
def evCfgParity : Nat := 0x0800
def evCfgParityPersistent : Nat := 0x0801
def evSupplyLow : Nat := 0x0900
def evThermalThrottle : Nat := 0x0901
def evClockFault : Nat := 0x0902
def evDieReset : Nat := 0x0903
def evModuleReady : Nat := 0x0904
def evKeyRotated : Nat := 0x0A00
def evFwActivated : Nat := 0x0A01
def evFwConfirmed : Nat := 0x0A02
def evFwFallback : Nat := 0x0A03
def evFwPairUntested : Nat := 0x0A04
def evCalibrationInvalid : Nat := 0x0A05
def evPufFailed : Nat := 0x0A06
def evMgmtTakeover : Nat := 0x0B00
def evMgmtReleased : Nat := 0x0B01
def evMgmtBeaconLost : Nat := 0x0B02
def evMgmtChainInLost : Nat := 0x0B03
def evDefaultsUsed : Nat := 0x0B04
def evStoreEntrySkipped : Nat := 0x0B05
def evStoreWriteFailed : Nat := 0x0B06
def evHostLinkUp : Nat := 0x0C00
def evHostLinkDown : Nat := 0x0C01
def evHostLinkRetrained : Nat := 0x0C02
def evEventRingOverflow : Nat := 0x0C03
def evHostDetached : Nat := 0x0C04

/-- The 32 bytes of an event record (R407). -/
def EvRec.toBytes (e : EvRec) : Bytes :=
  toLe 4 e.seq ++ toLe 2 e.code ++ toLe 2 e.source ++ toLe 8 e.time ++ fitBytes 16 e.detail

/-- Entries of the event ring: 2^k (R454). -/
def Link.evSize (l : Link) : Nat := 2 ^ fld l.sizes.toNat 11 8
/-- Slots of the event ring that the host has released (R465). -/
def Link.evRoom (l : Link) : Nat := l.evSize - (l.evTail + 65536 - l.evHead) % 65536

/-- Write one record into the event ring at its tail. -/
def Mach.evWrite (m : Mach) (e : EvRec) : Mach :=
  let l := m.link
  ({ m with link := { l with evTail := (l.evTail + 1) % 65536 } } : Mach).hostWrite
    (l.evRing.toNat + 32 * (l.evTail % l.evSize)) e.toBytes

/-- The MAC address of a node number: 0 is the coordinator (R397). -/
def macOf (n : Nat) : Bytes := [0x02, 0x7A, 0x53, 0, 0] ++ toLe 1 n
/-- An Ethernet II frame: its payload padded with zeros to 46 bytes. The check sequence is left out (R397, log entry 51). -/
def ethFrame (dst src : Nat) (bs : Bytes) : Bytes := macOf dst ++ macOf src ++ [0x88, 0xB5] ++ bs ++ zeroBytes (46 - bs.length)
/-- Append a record to the event log (R407) and send the EVENT frame of R400. -/
def Mach.logRaw (m : Mach) (code source time : Nat) (detail : Bytes) : Mach × EvRec :=
  let e : EvRec := ⟨m.logSeq % 2 ^ 32, code, source, time, fitBytes 16 detail⟩
  let m := { m with log := (e :: m.log).take 256, logSeq := m.logSeq + 1 }
  let m := m.dadd 0xA001 2 1
  if m.dnum 0x9020 1 = 1 ∧ m.mgmt.nodeId ≠ 255 ∧ !m.mgmt.lost then
    ((m.emit (.mgmtFrame (ethFrame 0 m.mgmt.nodeId (toLe 1 1 ++ toLe 1 0x20 ++ zeroBytes 1 ++ toLe 1 3 ++ zeroBytes 6 ++ toLe 2 32
      ++ zeroBytes 4 ++ e.toBytes)))).dadd 0x9001 0x11 1, e)
  else (m, e)

/-- The records of the log not yet written into the event ring, oldest first. -/
def Mach.evOut (m : Mach) : List EvRec :=
  sortBy (fun e => e.seq) (m.log.filter fun e => m.link.evNext ≤ e.seq && !m.link.evDone.contains e.seq)

/-- Deliver what the event ring has room for (R465): first EVENT_RING_OVERFLOW when records have been missed, then the
records of the log not yet written, in sequence order. `fuel` bounds the records written. -/
def pumpEvents : Nat → Mach → Mach
  | 0, m => m
  | fuel + 1, m =>
    if !m.link.enable || !m.link.up || m.link.evRoom = 0 then m else
    match m.link.evMiss with
    | some (first, n) =>
      let m : Mach := { m.dadd 0x9101 0x15 n with link := { m.link with evMiss := none } }
      let (m, e) := m.logRaw evEventRingOverflow 1024 (2 ^ 63 + m.power.aoMs) (toLe 4 first ++ toLe 4 n)
      pumpEvents fuel (({ m with link := { m.link with evDone := m.link.evDone ++ [e.seq] } } : Mach).evWrite e)
    | none =>
      match m.evOut with
      | [] => m
      | e :: _ =>
        pumpEvents fuel (({ m with link := { m.link with
          evNext := e.seq + 1, evDone := m.link.evDone.filter fun n => e.seq < n } } : Mach).evWrite e)

/-- A record for the log, and for the event ring; one that the ring has no room for is missed there. -/
def Mach.logAppend (m : Mach) (code source time : Nat) (detail : Bytes) : Mach :=
  let (m, e) := m.logRaw code source time detail
  let m := pumpEvents 300 m
  if e.seq < m.link.evNext then m else
  let (first, n) := m.link.evMiss.getD (e.seq, 0)
  { m with link := { m.link with evMiss := some (first, n + 1) } }

/-- An event goes the way of a die's queue, or of the management controller's own events, to the next polling pass (R407). -/
def Mach.tell (m : Mach) (turn code source time : Nat) (detail : Bytes) : Mach :=
  { m with evPend := m.evPend ++ [⟨turn, code, source, time, detail⟩] }
/-- A polling pass: what has come from die 0's queue is appended to the log, once that queue is empty what has come from die 1's, and
once both are empty the controller's own events (R407; log entry 66). -/
def Mach.pollEvents (m : Mach) : Mach :=
  let ends : Nat := if !(m.die 0).evq.isEmpty then 1 else if !(m.die 1).evq.isEmpty then 2 else 3
  (((List.range ends).flatMap fun k => m.evPend.filter fun e => e.turn == k).foldl
    (fun (m : Mach) e => m.logAppend e.code e.source e.time e.detail)
    { m with evPend := m.evPend.filter fun e => ends ≤ e.turn })
/-- An event of the management controller (R487). -/
def Mach.moEvent (m : Mach) (code : Nat) (detail : Bytes := []) : Mach :=
  m.tell 2 code 1024 (2 ^ 63 + m.power.aoMs) detail
/-- An event of the management controller that concerns a block (R487). -/
def Mach.moEventAt (m : Mach) (code die slot : Nat) (detail : Bytes := []) : Mach :=
  m.tell 2 code (1024 + slot + 512 * die) (2 ^ 63 + m.power.aoMs) detail
/-- An event of the Gaffer firmware of a die, with the slot of the block concerned and the partition; with slot 0 no block is
concerned, and the record names neither slot nor die (R487). -/
def Mach.fwEvent (m : Mach) (code die slot : Nat) (part : Option Nat) (detail : Bytes := []) : Mach :=
  let p := match part with | none => 0 | some p => p * 2048 + 8192
  m.tell die code (1024 + (if slot = 0 then 0 else slot + 512 * die) + p) (m.die die).time detail

/-- A hardware event (R381, R487): it enters the die's EVENT queue, or is lost. -/
def Mach.hwEvent (m : Mach) (code die slot detail : Nat) : Mach :=
  let q := (m.die die).evq
  let m := m.count .event die 0 0x20 1
  if m.bit .event die 0 0 0 && q.length < 256 then
    m.updDie die fun x => { x with evq := x.evq ++ [⟨code, slot, detail, x.time⟩] }
  else ((m.count .event die 0 0x24 1).setBit .event die 0 4 1).dadd 0xA001 3 1

/-! ### The memory-error log (R262) -/

/-- Append an error record and count it. `cls`: 0 corrected, 1 uncorrectable, 2 poison read, 3 metadata. -/
def Mach.memError (m : Mach) (a : Nat) (y : Syn) (cls sym source : Nat) : Mach :=
  match memUnitOf m.fineMode a with
  | none => m
  | some u =>
    let er := toLe 8 (m.die u.die).time ++ toLe 8 a ++ toLe 2 y.bits ++ toLe 1 cls ++ toLe 1 sym ++ toLe 1 source
      ++ toLe 1 u.code ++ toLe 1 u.die ++ toLe 1 u.pseudo ++ zeroBytes 8
    let m := { m with errlog := (er :: m.errlog).take 64 }
    if cls = 0 then (m.memCount u 0x1C 1).dadd 0x6002 0x10 1
    else if cls = 2 then m
    else
      let m := (m.memCount u 0x20 1).dadd 0x6002 0x11 1
      match u.chan? with
      | none => m
      | some c =>
        let m := m.updChan c fun s => { s with ues := m.power.aoMs :: s.ues }
        if m.bit .memc c.die c.memc 4 5 then m
        else ((m.setBit .memc c.die c.memc 4 5).putReg .memc c.die c.memc 0x2C (fld a 31 0)).putReg
          .memc c.die c.memc 0x30 (fld a 47 32 + 65536 * y.bits)

/-- Corrected errors of a channel within the last hour; when they exceed the limit, MEM_CE_STORM and a recalibration that is due
(R262, R271). -/
def Mach.ceStorm (m : Mach) (u : MemUnit) : Mach :=
  match u.chan? with
  | none => m
  | some c =>
    let now := m.power.aoMs
    let m := m.updChan c fun s => { s with ces := now :: s.ces.filter fun t => now < t + 3600000 }
    let s := m.chan c
    if m.dnum 0x6002 6 < s.ces.length then
      if s.stormed then m
      else (m.updChan c fun s => { s with stormed := true, recalDue := true }).fwEvent evMemCeStorm c.die (160 + c.memc) none
        (toLe 2 (c.idx + 16384 * c.die + (if c.lp then 32768 else 0)))
    else m.updChan c fun s => { s with stormed := false }

end Sys2Proof.Machine
end

