-- ==== Sys2Proof/Machine/Access.lean ====
section
/-! DEFINITION. Access to memory: partition bounds (R44, R45, R49), reads that meet errors and poison, writes that are
read-modify-writes (R257 to R262), tile records and where they lie (R20, R26, R54, R63, R265). -/

namespace Sys2Proof.Machine

/-! ### Partitions (R44) -/

/-- Base and size of a partition's region of a tier in a mode. -/
def partRegion (mode p : Nat) : Tier → Nat × Nat
  | .hbm => (0x006000000000 / mode * p, 0x006000000000 / mode)
  | .lp => (0x010000000000 + 0x00E000000000 / mode * p, 0x00E000000000 / mode)
  | .cru => (0x040000000000 + 0x20000000 / mode * p, 0x20000000 / mode)

/-- The die of a partition in modes 2 and 4; 0 in mode 1. -/
def partDie (mode p : Nat) : Nat := if mode = 4 then p / 2 else if mode = 2 then p else 0

/-- Does the partition own the context (R44)? -/
def ctxOwned (mode p c : Nat) : Bool :=
  if mode = 1 then p == 0 else if mode = 2 then c / 16 == p else c / 8 == p
/-- Does the partition own the station instance (R44)? -/
def instOwned (mode p : Nat) (i : Inst) : Bool :=
  i.die < 2 && i.idx < i.kind.perDie &&
  (if mode = 1 then p == 0 else if mode = 2 then i.die == p
   else i.die == p / 2 && (i.idx / (i.kind.perDie / 2)) == p % 2)
/-- Does the partition own the fabric lane (R44)? -/
def laneOwned (mode p lane : Nat) : Bool := lane < 32 && lane / (32 / mode) == p
/-- Ports of the current port mode (R300), the lanes of a port, and the partition that owns it. -/
def Mach.portCount (m : Mach) : Nat := if m.dnum 0x5001 1 = 0 then 8 else 16
def Mach.portLanes (m : Mach) : Nat := 32 / m.portCount
def Mach.portPart (m : Mach) (q : Nat) : Nat := q * m.portLanes / (32 / m.mode)
def portDie (m : Mach) (q : Nat) : Nat := q * m.portLanes / 16

/-- Is [a, a + n) within the bounds that the PART block of the address's die holds for the partition (R45, R49)? -/
def Mach.inBounds (m : Mach) (p a n : Nat) : Bool :=
  match tierOf a with
  | none => false
  | some (t, d) =>
    let off := match t with | .hbm => 0x10 | .lp => 0x18 | .cru => 0x20
    let lo := m.reg .part d p off
    let hi := m.reg .part d p (off + 4)
    m.bit .part d p 0 0 && n != 0 && lo ≤ a / 65536 && (a + n - 1) / 65536 ≤ hi

/-- The first address of [a, a + n) that lies outside the partition's bounds: the end of the region where the access begins
inside it. -/
def Mach.firstOut (m : Mach) (p a n : Nat) : Nat :=
  if m.inBounds p a 1 && !m.inBounds p a n then
    match tierOf a with
    | none => a
    | some (t, d) => 65536 * (m.reg .part d p (match t with | .hbm => 0x14 | .lp => 0x1C | .cru => 0x24) + 1)
  else a

/-- Count an access of [a, a + n) out of bounds and latch its first address outside (R45, R49). `source`: 0 station, 1 Pontil
inbound, 2 host DMA. An address of no memory tier is no die's: it is counted and latched at die 0's PART instance (the model's
choice, log entry 71). -/
def Mach.boundsFault (m : Mach) (p a n source : Nat) : Mach :=
  let a := m.firstOut p a n
  let d := match tierOf a with | some (_, d) => d | none => 0
  let m := (m.count .part d p 0x40 1).dadd (0x2010 + p) 5 1
  if m.bit .part d p 4 2 then m
  else ((m.setBit .part d p 4 2).putReg .part d p 0x44 (fld a 31 0)).putReg .part d p 0x48
    (fld a 47 32 + 65536 * source)

/-! ### Tensors and the device's own records -/

def Mach.tensor? (m : Mach) (p h : Nat) : Option Tensor := m.tensors.find? fun t => t.part == p && t.handle == h
def Mach.updTensor (m : Mach) (p h : Nat) (f : Tensor → Tensor) : Mach :=
  { m with tensors := m.tensors.map fun t => if t.part == p && t.handle == h then f t else t }

def Tensor.mark (t : Tensor) (k : Nat) : TileMark := mapGetD t.marks k {}
def Tensor.setMark (t : Tensor) (k : Nat) (f : TileMark → TileMark) : Tensor :=
  let v := f (t.mark k)
  { t with marks := if v = {} then mapDel t.marks k else mapSet t.marks k v }
/-- The geometry of a tile by its logical number (R26). -/
def Tensor.geom (t : Tensor) (k : Nat) : Geom := geomOf t.desc (Dim4.ofLin t.desc.tiles k)
/-- The form a tile is held in: its own (R158), else the descriptor's. -/
def Tensor.form (t : Tensor) (k : Nat) : Fmt := (t.mark k).form.getD t.desc.fmt
/-- Bytes of a tile's record or plain tile (R54, R63). -/
def Tensor.tileLen (t : Tensor) (k : Nat) : Nat := tileBytes (t.form k) (t.geom k) t.desc.hotLimit
/-- Where a tile's regular place was when the tensor was placed. -/
def Tensor.regular (t : Tensor) (k : Nat) : Nat :=
  (t.runs.findSome? fun r =>
    if r.first ≤ k && (k - r.first) % r.step == 0 && (k - r.first) / r.step < r.count
    then some (r.addr + t.stride * ((k - r.first) / r.step)) else none).getD 0
/-- Where a tile lies. -/
def Tensor.tileAddr (t : Tensor) (k : Nat) : Nat :=
  match (t.mark k).place, (t.mark k).home with
  | some a, _ => a
  | none, some a => a
  | none, none => t.regular k

/-- Bytes set aside for a tile wherever it lies. -/
def Tensor.placeLen (t : Tensor) (k : Nat) : Nat :=
  if (t.mark k).place.isSome then roundUp (t.tileLen k) 64 else t.stride
/-- Does the tile of a table lie in the cache area of the HBM (R240)? -/
def Tensor.cached (t : Tensor) (k : Nat) : Bool :=
  t.desc.cls == 5 && (match tierOf (t.tileAddr k) with | some (.hbm, _) => true | _ => false)

/-- The tile whose regular or own place holds an address: partition, handle, tile. -/
def Mach.tileAt (m : Mach) (a : Nat) : Option (Nat × Nat × Nat) :=
  m.tensors.findSome? fun t =>
    let n := t.desc.tileCount
    let cand := (t.marks.filter fun q => q.2.place.isSome || q.2.home.isSome).map (·.1) ++
      (if t.stride = 0 then [] else t.runs.flatMap fun r =>
        if r.addr ≤ a && (a - r.addr) / t.stride < r.count then [r.first + r.step * ((a - r.addr) / t.stride)] else [])
    (cand.find? fun k => k < n && t.tileAddr k ≤ a && a < t.tileAddr k + t.tileLen k).map fun k =>
      (t.part, t.handle, k)

/-- Bytes of a partition's handle table (R20). -/
def Mach.htabBytes (m : Mach) (p : Nat) : Nat := roundUp (64 * m.dnum (0x2010 + p) 1) 65536
/-- The address of a handle's descriptor. -/
def Mach.htabAddr (m : Mach) (p h : Nat) : Nat := (partRegion m.mode p .hbm).1 + 64 * h

/-- The partition and the handle whose descriptor or history record an address lies in. -/
def Mach.metaAt (m : Mach) (a : Nat) : Option (Nat × Nat) :=
  match (List.range m.mode).find? fun p => m.htabAddr p 0 ≤ a && a < m.htabAddr p 0 + m.htabBytes p with
  | some p => some (p, (a - m.htabAddr p 0) / 64)
  | none => (m.tensors.find? fun t => match t.hist with
      | some x => t.desc.histAddr ≤ a && a < t.desc.histAddr + histLen x.chanCount
      | none => false).map fun t => (t.part, t.handle)
/-- Does an address lie in a tile marked poisoned? -/
def Mach.markedAt (m : Mach) (a : Nat) : Bool :=
  match m.tileAt a with
  | some (p, h, k) => (match m.tensor? p h with | some t => (t.mark k).poisoned | none => false)
  | none => false
/-- A codeword that can not be read as it was written is logged: a poisoned one, or one that is uncorrectable, which in a handle table
or a history record is of class 3 and told of (R260, R262). A later read of a tile marked poisoned logs no more; the patrol and
the copy of a migration do. -/
def Mach.logBad (m : Mach) (cw source : Nat) (poison : Bool) (y : Syn) : Mach :=
  if source ≠ 1 ∧ source ≠ 4 ∧ m.markedAt cw then m
  else if poison then m.memError cw y 2 255 source
  else match m.metaAt cw with
    | some (p, h) => (m.memError cw y 3 255 source).fwEvent evMemUeMetadata
        (match tierOf cw with | some (_, d) => d | none => 0) 0 (some p) (toLe 8 cw ++ toLe 4 h)
    | none => m.memError cw y 1 255 source
/-- Some syndrome. -/
def Mach.freeSyn (m : Mach) : Mach × Syn :=
  let (m, w) := m.freeWord
  (m, ⟨BitVec.ofNat 4 w.toNat, BitVec.ofNat 4 (w.toNat / 16), BitVec.ofNat 4 (w.toNat / 256), BitVec.ofNat 4 (w.toNat / 4096)⟩)
/-- Is parity checked on the HBM channel of an address (R248, R275)? -/
def Mach.parityOn (m : Mach) (a : Nat) : Bool :=
  match memUnitOf m.fineMode a with
  | some u => u.tier == .hbm && m.bit .memc u.die u.chan 8 0
  | none => false
/-- The accesses of [a, a + n) of 32 bytes that fail parity, and fail again when they are tried once more (R248). -/
def Mach.shakyIn (m : Mach) (a n : Nat) : List Nat :=
  if n = 0 then [] else (m.shaky.map fun x => x / 32 * 32).filter fun x => x < a + n && a < x + 32 && m.parityOn x
/-- Each of them is reported as an uncorrectable error, under a syndrome that the spec leaves open; the next access is tried anew. -/
def Mach.parityHits (m : Mach) (source a n : Nat) : Mach :=
  let hit := m.shakyIn a n
  hit.foldl (fun (m : Mach) x => m.freeSyn.1.logBad x source false m.freeSyn.2)
    { m with shaky := m.shaky.filter fun x => !hit.contains (x / 32 * 32) }

/-! ### Reads and writes of the array -/

/-- An address of each interleave unit that [a, a + n) meets: a frame, or in fine mode a unit of 256 bytes (R250, R253). -/
def Mach.units (m : Mach) (a n : Nat) : List Nat :=
  let grid (base size : Nat) : List Nat :=
    (List.range ((a + n - 1 - base) / size - (a - base) / size + 1)).map fun k => max a (base + ((a - base) / size + k) * size)
  if n = 0 then [] else
  match tierOf a with
  | some (.hbm, _) => grid 0 (if m.fineMode then 256 else 2097152)
  | some (.lp, _) => grid 0x010000000000 1835008
  | _ => []
/-- The first configuration register of a block instance whose parity is wrong (R375). -/
def Mach.parityBad (m : Mach) (d s : Nat) : Option Nat :=
  ((sortBy id (m.badPar.filter fun a => csrBase d s ≤ a && a < csrBase d s + 0x10000)).head?).map fun a => a - csrBase d s
/-- Does a channel serve requests: is its enable set (R275), is it not held for recalibration (R271), and its configuration whole
(R376)? -/
def Mach.chanServes (m : Mach) (c : Chan) : Bool :=
  m.bit .memc c.die c.memc 0 0 && !m.bit .memc c.die c.memc 4 2 && !m.bit .memc c.die c.memc 4 4
/-- Does a PART instance hold the accesses of its partition at an address: is a configuration register of it wrong (R376)? It has no
cfg_parity field; it holds while the mismatch stands (DEDUCED, log entry 83). -/
def Mach.partHolds (m : Mach) (p a : Nat) : Bool :=
  !m.badPar.isEmpty && (match tierOf a with | some (_, d) => (m.parityBad d (slotOf .part p)).isSome | none => false)
/-- Is [a, a + n) served: its die not in reset (R421), its channels serving? A Crucible has no channel to hold it. -/
def Mach.memUp (m : Mach) (a n : Nat) : Bool :=
  (match tierOf a with | some (_, d) => (m.die d).up | none => true) && (m.units a n).all fun x => match memUnitOf m.fineMode x with
    | some u => (match u.chan? with | some c => m.chanServes c | none => true)
    | none => true
/-- Are the accesses of a partition to [a, a + n) served? -/
def Mach.served (m : Mach) (p a n : Nat) : Bool := !m.partHolds p a && m.memUp a n
/-- Are they served when they come over the host link, which is die 0's: die 1's memory lies beyond the Seam (R12, R421)? -/
def Mach.hostServed (m : Mach) (p a n : Nat) : Bool := (m.die 0).up && m.served p a n
def Mach.areaServed (m : Mach) (p : Nat) (l : List (Nat × Nat)) : Bool := l.all fun q => m.hostServed p q.1 q.2

/-- Read [a, a + n): the corrected bytes and the first address whose codeword is poisoned or uncorrectable. Corrected
codewords are logged and, where the channel allows it, written back, as a whole write unit (R257, R258, R260, R261). -/
def Mach.memRead (m : Mach) (source a n : Nat) : Mach × Bytes × Option Nat :=
  let m := m.countRange 0x10 a n
  let data := m.bytesAt a n
  let unit := match tierOf a with | some (t, _) => writeUnit t / 16 | none => 1
  let got := (m.suspects a n).foldl (fun (acc : Mach × Bytes × Option Nat) cw =>
    let (m, bs, bad) := acc
    let y := match mapGet m.chk cw with | some d => checkSyn d | none => Syn.zero
    match classify y with
    | .clean => acc
    | .fix i e =>
      let fixed := flipData (m.bytesAt cw 16) i e
      let m := match memUnitOf m.fineMode cw with
        | none => m
        | some u =>
          let m := (m.memError cw y 0 i source).ceStorm u
          if m.writeBack u then (m.memCount u 0x14 unit).fixCodeword cw i e else m
      let bs := (List.range n).map fun k =>
        if cw ≤ a + k && a + k < cw + 16 then fixed.getD (a + k - cw) 0 else bs.getD k 0
      (m, bs, bad)
    | .poison => (m.logBad cw source true y, bs, some (bad.getD cw))
    | .bad => (m.logBad cw source false y, bs, some (bad.getD cw))) (m, data, none)
  (got.1.parityHits source a n, got.2.1, got.2.2.orElse fun _ => (m.shakyIn a n).head?)

/-- Count the sectors of an access by a die that cross the Seam (R12, R247). -/
def Mach.farCount (m : Mach) (die a n : Nat) : Mach :=
  match tierOf a with
  | some (_, d) => if d = die then m else m.dadd 0x6001 0x12 (sectorsOf a n)
  | none => m

/-- What a write that failed parity twice left in its units: the spec says only that it is reported, so their bytes are free (R248). -/
def Mach.parityLost (m : Mach) (source a n : Nat) : Mach :=
  (m.shakyIn a n).foldl (fun (m : Mach) x => m.freeBytes 32 |>.1.storeAt x (m.freeBytes 32).2) (m.parityHits source a n)
/-- Write bytes at an address: whole write units with fresh check symbols, and a read-modify-write of each unit covered in
part, in which a codeword not covered whole that is poisoned or uncorrectable is written back poisoned (R258, R259). The
second part names the codewords so poisoned. -/
def Mach.memWrite (m : Mach) (source a : Nat) (bs : Bytes) : Mach × List Nat :=
  let n := bs.length
  if n = 0 then (m, []) else
  let u := match tierOf a with | some (t, _) => writeUnit t | none => 16
  let m := m.countRange 0x14 (a / u * u) (roundUp (a + n) u - a / u * u)
  -- the units at the two ends that are covered in part
  let first := a / u
  let last := (a + n - 1) / u
  let part (k : Nat) : Bool := (k * u < a) || (a + n < (k + 1) * u)
  let ends := (if first = last then [first] else [first, last]).filter part
  let m := ends.foldl (fun m k =>
    match memUnitOf m.fineMode (k * u) with
    | none => m
    | some mu => (m.memCount mu 0x18 1).memCount mu 0x10 (u / 16)) m
  -- decode what the read-modify-write reads
  let lo := first * u
  let hi := (last + 1) * u
  let whole (cw : Nat) : Bool := a ≤ cw && cw + 16 ≤ a + n
  let rmw (cw : Nat) : Bool := ends.contains (cw / u)
  let (m, bad) := (m.suspects lo (hi - lo)).foldl (fun (acc : Mach × List Nat) cw =>
    if !rmw cw then acc else
    let (m, bad) := acc
    let y := match mapGet m.chk cw with | some d => checkSyn d | none => Syn.zero
    match classify y with
    | .clean => acc
    | .fix i e =>
      let m := match memUnitOf m.fineMode cw with
        | none => m
        | some mu => (m.memError cw y 0 i source).ceStorm mu
      (if whole cw then m else m.fixCodeword cw i e, bad)
    | .poison => (m.logBad cw source true y, if whole cw then bad else bad ++ [cw])
    | .bad => (m.logBad cw source false y, if whole cw then bad else bad ++ [cw])) (m, [])
  let chk := m.chk.filter fun q => !((rmw q.1 && lo ≤ q.1 && q.1 < hi) || (a ≤ q.1 && q.1 < a + n))
  (({ m.storeAt a bs with chk := bad.foldl (fun c cw => mapSet c cw poisonMask) chk } : Mach).parityLost source lo (hi - lo), bad)

/-- Write without the list of poisoned codewords. -/
def Mach.memPut (m : Mach) (source a : Nat) (bs : Bytes) : Mach := (m.memWrite source a bs).1

/-- Poison the codewords of [a, a + n) (R259). -/
def Mach.poisonRange (m : Mach) (a n : Nat) : Mach :=
  { m with chk := ((List.range (ceilDiv n 16)).map fun k => a / 16 * 16 + 16 * k).foldl
                    (fun c cw => mapSet c cw poisonMask) m.chk }

/-- The codewords of [a, a + n) that can not be read as they were written: poisoned or uncorrectable. -/
def Mach.sickIn (m : Mach) (a n : Nat) : List Nat :=
  (m.suspects a n).filter fun w => match m.cwClass w with | .poison | .bad => true | _ => false
/-- Read bytes and write them elsewhere: corrected data, poison preserved (R259), the sectors counted where they cross the Seam (R12).
Where some were poisoned. -/
def Mach.copyBytes (m : Mach) (source a dst n : Nat) : Mach × Option Nat :=
  let sick := m.sickIn a n ++ m.shakyIn a n
  let m := match tierOf a with | some (_, d) => m.farCount d dst n | none => m
  let (m, bs, bad) := m.memRead source a n
  let m := m.memPut source dst bs
  (sick.foldl (fun m w => m.poisonRange (dst + (max w a - a)) (min 16 (w + 16 - max w a))) m, bad)
/-- Errors of symbols of a codeword as it lies in the array: symbol and error value (R255). -/
def Mach.upset (m : Mach) (cw : Nat) (errs : List (Nat × Nat)) : Mach :=
  errs.foldl (fun m q =>
    let old := m.bytesAt cw 16
    let new := flipData old q.1 (BitVec.ofNat 4 q.2)
    let held := mapGetD m.chk cw 0
    let d := if q.1 < 32 then held ^^^ checkBits old ^^^ checkBits new
             else held ^^^ (BitVec.ofNat 16 (q.2 % 16) <<< (4 * (q.1 - 32)))
    { m.storeAt cw new with chk := if d = 0 then mapDel m.chk cw else mapSet m.chk cw d }) m
/-- The 16 check bits stored beside the codeword at an address. -/
def Mach.checkAt (m : Mach) (cw : Nat) : Half := checkBits (m.bytesAt cw 16) ^^^ mapGetD m.chk cw 0
/-- The 2,048 bytes of a group of an LP channel as they lie in the package: seven chunks, their check bytes, zeros (R252). -/
def Mach.lpGroup (m : Mach) (d c g : Nat) : Bytes :=
  let at' (q : Nat) : Nat := 0x010000000000 + d * 0x007000000000 + lpChunk c g q
  (List.range 7).flatMap (fun q => m.bytesAt (at' q) 256)
  ++ (List.range 7).flatMap (fun q => (List.range 16).flatMap fun w => toLe 2 (m.checkAt (at' q + 16 * w)).toNat)
  ++ zeroBytes 32

/-- Do the channels that hold a tile serve requests? -/
def Mach.tileServed (m : Mach) (p h k : Nat) : Bool :=
  match m.tensor? p h with
  | some t => m.served p (t.tileAddr k) (t.tileLen k)
  | none => true

/-- Mark the tile that holds an address as poisoned (R260). -/
def Mach.poisonTileAt (m : Mach) (a : Nat) : Mach :=
  match m.tileAt a with
  | none => m
  | some (p, h, k) => m.updTensor p h fun t => t.setMark k fun x => { x with poisoned := true }

/-- The first address of [a, a + n) that lies in a tile marked poisoned. -/
def Mach.markedIn (m : Mach) (a n : Nat) : Option Nat :=
  (m.tensors.flatMap fun t => (t.marks.filter fun q => q.2.poisoned && t.tileAddr q.1 < a + n && a < t.tileAddr q.1 + t.tileLen q.1).map
    fun q => max a (t.tileAddr q.1)).head?
/-- Read a physical range that a DMA or a transfer names: a tile whose record it finds damaged is marked, and one marked before can not
be read (R260). -/
def Mach.readRaw (m : Mach) (source a n : Nat) : Mach × Bytes × Option Nat :=
  let (m, bs, bad) := m.memRead source a n
  let m := match bad with | some b => m.poisonTileAt b | none => m
  (m, bs, bad.orElse fun _ => m.markedIn a n)
/-- Read part of a tile: its bytes, and where it is poisoned. A tile marked poisoned answers so without further logging
(R260). -/
def Mach.readTilePart (m : Mach) (source p h k off n : Nat) : Mach × Bytes × Option Nat :=
  match m.tensor? p h with
  | none => (m, zeroBytes n, none)
  | some t =>
    let a := t.tileAddr k + off
    let slice (bs : Bytes) : Bytes :=
      if (t.mark k).stringer then subBytes (stringerUnpack (t.geom k) t.desc.hotLimit bs) off n else bs
    let (ra, rn) := if (t.mark k).stringer then (t.tileAddr k, t.tileLen k) else (a, n)
    if (t.mark k).poisoned then (m, slice (m.bytesAt ra rn), some (t.tileAddr k))
    else
      let (m, bs, bad) := m.memRead source ra rn
      let bs := slice bs
      match bad with
      | none => (m, bs, none)
      | some b => (m.updTensor p h fun t => t.setMark k fun x => { x with poisoned := true }, bs, some b)
def Mach.readTile (m : Mach) (source p h k : Nat) : Mach × Bytes × Option Nat :=
  match m.tensor? p h with
  | none => (m, [], none)
  | some t => m.readTilePart source p h k 0 (t.tileLen k)

/-- Cancel a migration of a tile that is written (R267). -/
def Mach.cancelMigration (m : Mach) (p h k : Nat) : Mach :=
  match m.tensor? p h with
  | none => m
  | some t =>
    if (t.mark k).migrating.isSome
    then (m.updTensor p h fun t => t.setMark k fun x => { x with migrating := none, copied := false }).dadd 0x6001 0x11 1
    else m

/-- A tile has been written: an opportunistic save of it is one no more, and the others keep in mind that an input may have
changed (R198). -/
def Mach.noteWrite (m : Mach) (p h k : Nat) : Mach :=
  { m with groups := m.groups.map fun g =>
      if g.part ≠ p then g else
      { g with saves := (g.saves.filter fun s => !(s.handle == h && s.tile == k)).map fun s =>
          if s.dirty.contains (h, k) then s else { s with dirty := s.dirty ++ [(h, k)] } } }
/-- The tiles that a range of addresses touches: partition, handle, tile. -/
def Mach.tilesIn (m : Mach) (a n : Nat) : List (Nat × Nat × Nat) :=
  m.tensors.flatMap fun t =>
    ((List.range t.desc.tileCount).filter fun k => t.tileAddr k < a + n && a < t.tileAddr k + t.tileLen k).map fun k =>
      (t.part, t.handle, k)

/-- A tile stored as a Stringer image is stored as its record (R197). Where a codeword of the image can not be read as it was written,
what the record holds is not known: all of it is poisoned (R259). -/
def Mach.unstring (m : Mach) (source : Nat) (t : Tensor) (k : Nat) : Mach :=
  let a := t.tileAddr k
  let n := t.tileLen k
  let (m, bs, bad) := m.memRead source a n
  let m := m.memPut source a (stringerUnpack (t.geom k) t.desc.hotLimit bs)
  if bad.isSome || (t.mark k).poisoned then
    (m.poisonRange a n).updTensor t.part t.handle fun t => t.setMark k fun x => { x with poisoned := true }
  else m
/-- Write part of a tile. A write of the whole record ends its poison (R260). -/
def Mach.writeTilePart (m : Mach) (source p h k off : Nat) (bs : Bytes) : Mach :=
  match m.tensor? p h with
  | none => m
  | some t =>
    let m := m.cancelMigration p h k
    let whole := off == 0 && t.tileLen k ≤ bs.length
    -- a Stringer image written in part is stored plain first (R197)
    let m := if (t.mark k).stringer && !whole then m.unstring source t k else m
    ((m.memPut source (t.tileAddr k + off) bs).noteWrite p h k).updTensor p h fun t => t.setMark k fun x =>
      { x with poisoned := x.poisoned && !whole, stringer := false }
/-- Write bytes at a physical address named by the host: migrations of the tiles they touch end, and a tile whose whole record
they cover is poisoned no longer (R260, R267). -/
def Mach.writeRaw (m : Mach) (source a : Nat) (bs : Bytes) : Mach :=
  let n := bs.length
  let touched := m.tensors.flatMap fun t =>
    (t.marks.filter fun q => q.2.migrating.isSome && t.tileAddr q.1 < a + n && a < t.tileAddr q.1 + t.tileLen q.1).map
      fun q => (t.part, t.handle, q.1)
  let m := touched.foldl (fun m q => m.cancelMigration q.1 q.2.1 q.2.2) m
  let m := if m.groups.all fun g => g.saves.isEmpty then m else (m.tilesIn a n).foldl (fun m q => m.noteWrite q.1 q.2.1 q.2.2) m
  let m := m.memPut source a bs
  let clean (t : Tensor) : Tensor :=
    let ks := t.marks.filter fun q => q.2.poisoned && a ≤ t.tileAddr q.1 && t.tileAddr q.1 + t.tileLen q.1 ≤ a + n
    ks.foldl (fun (t : Tensor) q => t.setMark q.1 fun x => { x with poisoned := false }) t
  { m with tensors := m.tensors.map clean }
/-- Store a kept Q4 tile as its Stringer image when that is smaller than the record (R197). -/
def Mach.writeKept (m : Mach) (source p h k : Nat) (bs : Bytes) : Mach :=
  match m.tensor? p h with
  | none => m
  | some t =>
    let img := stringerPack (t.geom k) t.desc.hotLimit bs
    if img.length < bs.length ∧ t.form k = .q4 ∧ recWf [.q4] (t.geom k) t.desc.hotLimit bs then
      (m.writeTilePart source p h k 0 (fitBytes bs.length img)).updTensor p h fun t => t.setMark k fun x =>
        { x with stringer := true }
    else m.writeTilePart source p h k 0 bs
def Mach.writeTile (m : Mach) (source p h k : Nat) (bs : Bytes) : Mach := m.writeTilePart source p h k 0 bs

/-- Write a tile whose content is poisoned: its codewords and the tile are (R259). -/
def Mach.writeBad (m : Mach) (p h k : Nat) (bs : Bytes) : Mach :=
  match m.tensor? p h with
  | none => m
  | some t => ((m.writeTile 0 p h k bs).poisonRange (t.tileAddr k) (t.tileLen k)).updTensor p h fun t =>
      t.setMark k fun x => { x with poisoned := true }

/-- Count the sectors of an area that cross the Seam for a die (R12). -/
def Mach.farArea (m : Mach) (die : Nat) (l : List (Nat × Nat)) : Mach := l.foldl (fun m q => m.farCount die q.1 q.2) m
/-- A write of a partition's records, which is not performed outside its bounds (R45). -/
def Mach.putIn (m : Mach) (p source a : Nat) (bs : Bytes) : Mach :=
  if bs.isEmpty || m.inBounds p a bs.length then m.memPut source a bs else m.boundsFault p a bs.length source

/-! ### Areas: places of memory that hold one run of bytes, in order -/

def areaBytes (a : List (Nat × Nat)) : Nat := (a.map (·.2)).sum
/-- The first `n` bytes of an area, and what follows them. -/
def areaTake : List (Nat × Nat) → Nat → List (Nat × Nat)
  | [], _ => []
  | q :: r, n => if n = 0 then [] else if n ≤ q.2 then [(q.1, n)] else q :: areaTake r (n - q.2)
def areaDrop : List (Nat × Nat) → Nat → List (Nat × Nat)
  | [], _ => []
  | q :: r, n => if n < q.2 then (q.1 + n, q.2 - n) :: r else areaDrop r (n - q.2)
/-- `n` bytes of an area from an offset on. -/
def areaPart (a : List (Nat × Nat)) (off n : Nat) : List (Nat × Nat) := areaTake (areaDrop a off) n
/-- Write bytes over an area, and read them back, with where some of them could not be read, as an offset. -/
def Mach.scatter (m : Mach) (source : Nat) : List (Nat × Nat) → Bytes → Mach
  | [], _ => m
  | q :: r, bs => (m.memPut source q.1 (bs.take q.2)).scatter source r (bs.drop q.2)
/-- Scatter, but for places out of the partition's bounds (R45). -/
def Mach.scatterIn (m : Mach) (p source : Nat) : List (Nat × Nat) → Bytes → Mach
  | [], _ => m
  | q :: r, bs => (m.putIn p source q.1 (bs.take q.2)).scatterIn p source r (bs.drop q.2)
def Mach.collect (m : Mach) (source : Nat) : List (Nat × Nat) → Mach × Bytes × Option Nat
  | [] => (m, [], none)
  | q :: r =>
    let (m, bs, bad) := m.memRead source q.1 q.2
    let (m, more, worse) := m.collect source r
    (m, bs ++ more, (bad.map fun a => a - q.1).orElse fun _ => worse.map fun o => q.2 + o)
/-- The byte of an area at an offset. -/
def Mach.areaByte (m : Mach) (a : List (Nat × Nat)) (off : Nat) : Byte :=
  match areaPart a off 1 with
  | q :: _ => (m.bytesAt q.1 1).getD 0 0
  | [] => 0

/-! ### Room (R20, R264, R265) -/

/-- The regular places of a tensor's tiles that are still theirs: whole runs where no tile has moved away. -/
def Tensor.ranges (t : Tensor) : List (Nat × Nat) :=
  t.runs.flatMap fun r =>
    if t.marks.all fun q => q.2.home.isNone then [(r.addr, t.stride * r.count)]
    else (List.range r.count).filterMap fun i =>
      if (t.mark (r.first + r.step * i)).home.isNone then some (r.addr + t.stride * i, t.stride) else none
/-- What is held of memory beside the handle tables, as (address, bytes). -/
def Mach.ownRanges (m : Mach) : List (Nat × Nat) :=
  m.tensors.flatMap (fun t =>
    t.ranges
    ++ (match t.hist with | some h => [(t.desc.histAddr, histLen h.chanCount)] | none => [])
    ++ t.marks.flatMap fun q =>
      (match q.2.place with | some a => [(a, roundUp (t.tileLen q.1) 64)] | none => [])
      ++ (match q.2.home with | some a => [(a, t.stride)] | none => [])
      ++ (match q.2.migrating with | some a => [(a, t.placeLen q.1)] | none => []))
  ++ m.hosted.flatMap (fun x => x.places)
  ++ m.progs.map (fun q => (q.addr, roundUp q.bytes 64))
  ++ m.groups.flatMap (fun g => g.journalArea ++ g.saves.map fun s => (s.addr, s.bytes))
  ++ m.gemms.filterMap (·.room)
  ++ m.ckpts.flatMap fun k => k.stage
/-- What is held of memory. -/
def Mach.heldRanges (m : Mach) : List (Nat × Nat) :=
  m.ownRanges ++ (List.range m.mode).map fun p => ((partRegion m.mode p .hbm).1, m.htabBytes p)
/-- Memory lent to the reserve (R164). -/
def Mach.lentRanges (m : Mach) : List (Nat × Nat) := m.groups.flatMap fun g => g.lent

/-- Bytes set aside at the top of a partition's HBM region: the reserve and receive areas. -/
def Mach.setAside (m : Mach) (p : Nat) : Tier → Nat
  | .hbm => m.dnum (0x4110 + p) 0x10
      + ((List.range 32).map fun g =>
          let r := m.dict? (0x5100 + g) 1
          if leAt r 0 1 = p then leAt r 20 4 * 1048576 else 0).sum
  | _ => 0

/-- Does the planner keep a channel free: drained or being drained, margining, fenced, or failed in training? -/
def ChanSt.out (s : ChanSt) : Bool := s.fenced || s.state = 1 || s.state = 2 || s.state = 4 || s.failedTrain
/-- Does the planner keep the channel of an address free? -/
def Mach.unusable (m : Mach) (a : Nat) : Bool :=
  match memUnitOf m.fineMode a with
  | none => true
  | some u => match u.chan? with
    | none => false
    | some c => (m.chan c).out
/-- From an address on: where memory that the planner may use ends, and where it may go on (R263, R268). Within a die every run of
so many frames meets every channel (R250, R253). In fine mode no channel is kept free. -/
def Mach.usable (m : Mach) (a top : Nat) : Nat × Nat :=
  if m.chans.all fun q => !q.2.out then (top, top) else
  let scan (base frame last : Nat) : Nat × Nat :=
    let f0 := (a - base) / frame
    let top := min top last
    match ((List.range 129).map fun i => f0 + i).find? fun f => base + f * frame < top && m.unusable (base + f * frame) with
    | some f => (max a (base + f * frame), base + (f + 1) * frame)
    | none => (top, top)
  match tierOf a with
  | some (.hbm, d) => if m.fineMode then (top, top) else
      scan (d * 0x003000000000) 2097152 ((d + 1) * 0x003000000000)
  | some (.lp, d) => scan (0x010000000000 + d * 0x007000000000) 1835008 (0x010000000000 + (d + 1) * 0x007000000000)
  | _ => (top, top)
/-- Room for records of `stride` bytes in [a, top), at addresses of `res` modulo 64: address and number, at most `n` in all. -/
def Mach.gapFill (m : Mach) (stride res : Nat) : Nat → Nat → Nat → Nat → List (Nat × Nat)
  | 0, _, _, _ => []
  | fuel + 1, a, top, n =>
    let a := roundUp (a - res) 64 + res
    if n = 0 ∨ top < a + stride then [] else
    let (stop, next) := m.usable a top
    let k := min n ((stop - a) / stride)
    if k = 0 then m.gapFill stride res fuel next top n
    else (a, k) :: m.gapFill stride res fuel next top (n - k)
/-- Room for `n` records of `stride` bytes in [a, hi) between what is held, given in rising order. -/
def Mach.fill (m : Mach) (stride res hi : Nat) : List (Nat × Nat) → Nat → Nat → List (Nat × Nat)
  | [], a, n => m.gapFill stride res 600000 a hi n
  | q :: qs, a, n =>
    if n = 0 then [] else
    let here := m.gapFill stride res 600000 a (min hi q.1) n
    here ++ m.fill stride res hi qs (max a (q.1 + q.2)) (n - areaBytes here)

/-- Where the planner looks for room in a partition's region of a tier: on one die's part of it in mode 1 when `die` names one. -/
def Mach.roomRange (m : Mach) (p : Nat) (t : Tier) (die : Option Nat) : Nat × Nat :=
  let (b, sz) := partRegion m.mode p t
  let (b, sz) := match die with
    | some d => if m.mode = 1 then (b + d * (sz / 2), sz / 2) else (b, sz)
    | none => (b, sz)
  let top := match die with | some 0 => if m.mode = 1 then 0 else m.setAside p t | _ => m.setAside p t
  (b, b + sz - top)
/-- What the planner places around, in rising order of address. -/
def Mach.obstacles (m : Mach) : List (Nat × Nat) := sortBy (·.1) (m.heldRanges ++ m.lentRanges)
/-- Room for up to `n` records of `stride` bytes in a partition's region of a tier, the lowest addresses first (DESIGN CHOICE, log
entry 6): address and number. -/
def Mach.rooms (m : Mach) (p : Nat) (t : Tier) (die : Option Nat) (stride res n : Nat) : List (Nat × Nat) :=
  let (lo, hi) := m.roomRange p t die
  m.fill (max 1 stride) res hi m.obstacles lo n
/-- Room for `n` bytes that lie together. -/
def Mach.room (m : Mach) (p : Nat) (t : Tier) (die : Option Nat) (n res : Nat) : Option Nat :=
  (m.rooms p t die n res 1).head?.map (·.1)
/-- Room for an area of `n` bytes: together, else in parts. -/
def Mach.areaRoom (m : Mach) (p : Nat) (t : Tier) (die : Option Nat) (n : Nat) : Option (List (Nat × Nat)) :=
  if n = 0 then some [] else
  match m.room p t die n 0 with
  | some a => some [(a, n)]
  | none =>
    let k := ceilDiv n 64
    let rs := m.rooms p t die 64 0 k
    if areaBytes rs < k then none else some (areaTake (rs.map fun r => (r.1, 64 * r.2)) n)

/-- Room for a program's bytes in the partition's memory (R33): the LP tier, else the HBM (DESIGN CHOICE, log entry 6). -/
def Mach.programRoom (m : Mach) (p n : Nat) : Option Nat :=
  ([.lp, .hbm] : List Tier).findSome? fun t => m.room p t none (roundUp n 64) 0

/-- The access counters of a partition are cold again: moves of its tiles that are under way end, but for those that empty a
channel (R241, R265). -/
def Mach.goCold (m : Mach) (p : Nat) : Mach :=
  let drains (a : Nat) : Bool := match memUnitOf m.fineMode a with
    | some u => (match u.chan? with | some c => (m.chan c).state == 1 | none => false)
    | none => false
  let stop (t : Tensor) : Tensor :=
    if t.part ≠ p then t else
    { t with marks := (t.marks.map fun q =>
        (q.1, if q.2.migrating.isSome && !(drains (t.tileAddr q.1) || drains (t.tileAddr q.1 + t.tileLen q.1 - 1))
              then { q.2 with migrating := none, copied := false } else q.2)).filter fun q => q.2 != {} }
  { m with warm := m.warm.filter (· != p), tensors := m.tensors.map stop }

/-- Can `more` bytes be added to what is set aside at the top of a partition's region? -/
def Mach.topFits (m : Mach) (p : Nat) (t : Tier) (more : Nat) : Bool :=
  let (b, sz) := partRegion m.mode p t
  let cur := m.setAside p t
  cur + more ≤ sz && m.heldRanges.all fun r => r.1 + r.2 ≤ b + sz - cur - more || b + sz - cur ≤ r.1

/-! ### Metadata (R260) -/

/-- Is the handle's descriptor or history record in memory damaged? The address of the first such codeword. -/
def Mach.metaBad (m : Mach) (p h : Nat) : Option Nat :=
  let bad (cw : Nat) : Bool := match m.cwClass cw with | .poison | .bad => true | _ => false
  match (m.suspects (m.htabAddr p h) 64).find? bad with
  | some a => some a
  | none => match m.tensor? p h with
    | none => none
    | some t => match t.hist with
      | none => none
      | some x => (m.suspects t.desc.histAddr (histLen x.chanCount)).find? bad

/-! ### Writing the device's own records to memory -/

/-- The descriptor as HANDLE_READ returns it: words 6 and 7 the device's, scale_base in force (R21, R24). -/
def Tensor.words (t : Tensor) : List Nat :=
  let d := match t.hist with
    | some h => if t.desc.fixedScale then t.desc else { t.desc with scaleBase := h.base }
    | none => t.desc
  d.toWords
/-- Store the descriptor words of a handle in the handle table. -/
def Mach.syncHandle (m : Mach) (p h : Nat) : Mach :=
  let ws := match m.tensor? p h with | some t => t.words | none => List.replicate 8 0
  m.memPut 0 (m.htabAddr p h) (bytesOf ws)
/-- Set a tensor's history record, in the state and in memory. -/
def Mach.setHist (m : Mach) (p h : Nat) (x : Hist) : Mach :=
  let m := m.updTensor p h fun t => { t with hist := some x }
  match m.tensor? p h with
  | none => m
  | some t => (m.memPut 0 t.desc.histAddr x.toBytes).syncHandle p h

end Sys2Proof.Machine
end

