-- ==== Sys2Proof/Machine/Ring.lean ====
section
/-! DEFINITION. The rings of the host link: completion entries, held completions, draining pairs (R455 to R458, R488). -/

namespace Sys2Proof.Machine

/-- Completion statuses (R460). -/
def stOk : Nat := 0
def stBadCommand : Nat := 1
def stBounds : Nat := 2
def stBusy : Nat := 3
def stBadState : Nat := 4
def stBadDescriptor : Nat := 5
def stHandleBusy : Nat := 6
def stBadProgram : Nat := 7
def stNumerics : Nat := 8
def stNoSpace : Nat := 9
def stNoContext : Nat := 10
def stPoison : Nat := 11
def stBadCheckpoint : Nat := 12
def stWaitRefused : Nat := 13
def stTimeout : Nat := 14
def stHostFault : Nat := 15
def stAborted : Nat := 16

/-- The record of ring pair `r` ≥ 1 (R470). -/
def Mach.ringRec (m : Mach) (r : Nat) : Bytes := m.dict? (0x9120 + r) 1
/-- Is the pair live: enabled, and not draining? -/
def Mach.ringLive (m : Mach) (r : Nat) : Bool :=
  if r = 0 then m.link.enable else leAt (m.ringRec r) 19 1 == 1
/-- Address and log2 entries of the submission and the completion ring. -/
def Mach.sqBase (m : Mach) (r : Nat) : Nat := if r = 0 then m.link.adminSq.toNat else leAt (m.ringRec r) 0 8
def Mach.cqBase (m : Mach) (r : Nat) : Nat := if r = 0 then m.link.adminCq.toNat else leAt (m.ringRec r) 8 8
def Mach.sqSize (m : Mach) (r : Nat) : Nat :=
  2 ^ (if r = 0 then fld m.link.sizes.toNat 3 0 else leAt (m.ringRec r) 16 1)
def Mach.cqSize (m : Mach) (r : Nat) : Nat :=
  2 ^ (if r = 0 then fld m.link.sizes.toNat 7 4 else leAt (m.ringRec r) 17 1)
/-- The partition of ring `r` ≥ 1. -/
def Mach.ringPart (m : Mach) (r : Nat) : Nat := leAt (m.ringRec r) 18 1

def Mach.ring (m : Mach) (r : Nat) : RingPair := mapGetD m.link.rings r {}
def Mach.updRing (m : Mach) (r : Nat) (f : RingPair → RingPair) : Mach :=
  let v := f (m.ring r)
  { m with link := { m.link with
      rings := if v = {} then mapDel m.link.rings r else mapSet m.link.rings r v } }

/-- May completions of the pair be written: the link up, and the admin pair enabled (R454, R467)? -/
def Mach.cqOpen (m : Mach) (r : Nat) : Bool :=
  m.link.up && (if r = 0 then m.link.enable else leAt (m.ringRec r) 19 1 != 0)

/-- The completion entry (R458). -/
def completionBytes (r : Nat) (tag : Half) (status sqHead : Nat) (phase : Bool) (result : Nat) : Bytes :=
  toLe 2 tag.toNat ++ toLe 1 r ++ toLe 1 status ++ toLe 2 sqHead ++ toLe 1 phase.toNat ++ zeroBytes 1 ++ toLe 8 result

/-- Write held completions while the host has returned slots (R456). Completions count modulo 2^16 (log entry 7). -/
def pumpRing (r : Nat) : Nat → Mach → Mach
  | 0, m => m
  | fuel + 1, m =>
    let q := m.ring r
    match q.held with
    | [] => m
    | (tag, st, res) :: rest =>
      let n := m.cqSize r
      if !m.cqOpen r || n ≤ (q.cqTail + 65536 - q.cqHead) % 65536 then m
      else
        let phase := q.cqTail / n % 2 == 0
        let m := m.hostWrite (m.cqBase r + 16 * (q.cqTail % n)) (completionBytes r tag st q.sqHead phase res)
        pumpRing r fuel (m.updRing r fun q => { q with held := rest, cqTail := (q.cqTail + 1) % 65536 })

/-- A pair being drained reads enable 0 once its last completion is written, or starts afresh where enable was set again
meanwhile (R488). -/
def Mach.ringDrained (m : Mach) (r : Nat) : Mach :=
  if r ≠ 0 ∧ leAt (m.ringRec r) 19 1 = 2 ∧ (m.ring r).held = [] ∧ (m.link.cmds.all fun c => c.ring != r) then
    (m.dictPut (0x9120 + r) 1 (overlay (m.ringRec r) 19 [if (m.ring r).again then 1 else 0])).updRing r fun _ => {}
  else m

/-- Write what completions can be written on a ring. -/
def Mach.flushRing (m : Mach) (r : Nat) : Mach := (pumpRing r 600 m).ringDrained r

/-- A command completes with a status and a result (R455, R456). -/
def Mach.complete (m : Mach) (r : Nat) (tag : Half) (status result : Nat) : Mach :=
  let m := { m with link := { m.link with
    cmds := m.link.cmds.eraseP fun c => c.ring == r && c.tag == tag } }
  let m := (m.dadd 0x9101 0x13 1).updRing r fun q => { q with held := q.held ++ [(tag, status, result)] }
  m.flushRing r

/-- The command of a ring with a tag, among those fetched and not complete. -/
def Mach.hostCmd? (m : Mach) (r : Nat) (tag : Half) : Option HostCmd :=
  m.link.cmds.find? fun c => c.ring == r && c.tag == tag

end Sys2Proof.Machine
end

