-- ==== Sys2Proof/Machine/Sync.lean ====
section
/-! DEFINITION. Signal counters, waits and barriers (spec/11, R276 to R299). -/

namespace Sys2Proof.Machine

/-! ### Contexts and groups, as far as waiting needs them -/

def Mach.ctx (m : Mach) (c : Nat) : Ctx := m.ctxs.getD c {}
def Mach.updCtx (m : Mach) (c : Nat) (f : Ctx → Ctx) : Mach := { m with ctxs := updAt m.ctxs c f }
def Mach.group? (m : Mach) (p g : Nat) : Option Group := m.groups.find? fun x => x.part == p && x.num == g
def Mach.updGroup (m : Mach) (p g : Nat) (f : Group → Group) : Mach :=
  { m with groups := m.groups.map fun x => if x.part == p && x.num == g then f x else x }
def Mach.prog? (m : Mach) (p n : Nat) : Option Program := m.progs.find? fun x => x.part == p && x.num == n
/-- The contexts of a group, by number. -/
def Mach.ctxsOf (m : Mach) (p g : Nat) : List Nat :=
  (List.range 32).filter fun c => let x := m.ctx c; x.st != .free && x.part == p && x.group == g
/-- The operations of a context's program. -/
def Mach.opsOf (m : Mach) (c : Nat) : List Op :=
  match m.prog? (m.ctx c).part (m.ctx c).prog with | some q => q.ops | none => []
/-- The die of a context. -/
def ctxDie (c : Nat) : Nat := c / 16
/-- The operation that a context issues next. -/
def Mach.nextOp (m : Mach) (c : Nat) : Option Op := (m.opsOf c)[(m.ctx c).pc]?

/-! ### Physical names (R276 to R278) -/

/-- Counters of a partition. -/
def ctrCount (mode : Nat) : Nat := if mode = 4 then 2048 else 4096
def barCount (mode : Nat) : Nat := if mode = 4 then 128 else 256
def fbarCount (mode : Nat) : Nat := if mode = 4 then 16 else if mode = 2 then 32 else 64
/-- The physical counter of a logical one; its die is that of the context, or the partition's. -/
def physCtr (mode p i : Nat) : Nat := if mode = 4 then 2048 * (p % 2) + i else i
def physBar (mode p i : Nat) : Nat := if mode = 4 then 128 * (p % 2) + i else i
/-- Die and slot of a fabric barrier. -/
def physFbar (mode p f : Nat) : Nat × Nat :=
  if mode = 4 then (p / 2, 16 * (p % 2) + f) else if mode = 2 then (p, f) else (f / 32, f % 32)
/-- Partition and logical number of a physical counter of a die. -/
def logicalCtr (mode die i : Nat) : Nat × Nat :=
  if mode = 4 then (2 * die + i / 2048, i % 2048) else if mode = 2 then (die, i) else (0, i)
/-- A counter named from outside a stream (R278): 12 bits and a die bit; none where the die bit may not be set or the
number is out of range. -/
def extCtr (mode p : Nat) (w : Nat) : Option (Nat × Nat) :=
  let i := fld w 11 0
  if fld w 15 13 ≠ 0 ∨ ctrCount mode ≤ i then none
  else if mode = 1 then some (fld w 12 12, i)
  else if bitAt w 12 then none else some (partDie mode p, physCtr mode p i)

/-! ### Counters (R279 to R284) -/

def ctrOff (i : Nat) : Nat := 0x1000 + 4 * i
/-- The word of a physical counter; `waiting` reads whether a wait is pending (R299). -/
def Mach.ctrWord (m : Mach) (d i : Nat) : Nat :=
  setFld (m.reg .sync d 0 (ctrOff i)) 10 10 (if (mapGetD (m.die d).sync.waits i []).isEmpty then 0 else 1)
def Mach.ctrVal (m : Mach) (d i : Nat) : Nat := fld (m.reg .sync d 0 (ctrOff i)) 7 0
def Mach.setCtr (m : Mach) (d i v : Nat) : Mach :=
  m.putReg .sync d 0 (ctrOff i) (setFld (m.reg .sync d 0 (ctrOff i)) 7 0 v)
def Mach.waitsOf (m : Mach) (d i : Nat) : List PWait := mapGetD (m.die d).sync.waits i []
def Mach.setWaits (m : Mach) (d i : Nat) (w : List PWait) : Mach :=
  m.updDie d fun x => { x with sync := { x.sync with
    waits := if w.isEmpty then mapDel x.sync.waits i else mapSet x.sync.waits i w } }
/-- Does SYNC hold what reaches it: its cfg_parity reads 1 (R376), or its die is in reset (R421)? -/
def Mach.syncHeld (m : Mach) (d : Nat) : Bool := !(m.die d).up || m.bit .sync d 0 4 1
def Mach.freeze (m : Mach) (d : Nat) (a : SyncAct) : Mach :=
  m.updDie d fun x => { x with sync := { x.sync with frozen := x.sync.frozen ++ [a] } }

/-- May the waiter be served now? A context that is PAUSED is not (R41). -/
def Mach.servable (m : Mach) : Waiter → Bool
  | .ctx c => (m.ctx c).st == .waiting
  | .host _ _ => true
  | .fw => true

/-- Release a waiter whose wait is satisfied. A host command's own signal is answered, to be given next. -/
def Mach.releaseWaiter (m : Mach) (d : Nat) : Waiter → Mach × List (Nat × Nat)
  | .ctx c => (m.updCtx c fun x => { x with st := .running, waitFor := none, waitOk := true }, [])
  | .host r tag =>
    let sg := match m.hostCmd? r tag with
      | some h => (match h.signal with | some w => (extCtr m.mode h.part w).toList | none => [])
      | none => []
    (m.complete r tag stOk 0, sg)
  | .fw => ((m.clrBit .sync d 0 0x48 0).setBit .sync d 0 0x48 1, [])

/-- Do the counters and barriers of a die operate: enabled (R299), and not held by a parity mismatch (R376)? -/
def Mach.syncOn (m : Mach) (d : Nat) : Bool := m.bit .sync d 0 0 0 && !m.syncHeld d
/-- Satisfy the pending waits of a counter in order (R282). -/
def serveWaits (d i : Nat) : Nat → Mach → Mach × List (Nat × Nat)
  | 0, m => (m, [])
  | fuel + 1, m =>
    match m.waitsOf d i with
    | [] => (m, [])
    | w :: rest =>
      let v := m.ctrVal d i
      if v < w.count || !m.servable w.who || !m.syncOn d then (m, [])
      else
        let m := ((m.setCtr d i (v - w.count)).setWaits d i rest).count .sync d 0 0x30 1
        let (m, s1) := m.releaseWaiter d w.who
        let (m, s2) := serveWaits d i fuel m
        (m, s1 ++ s2)

/-- One signal to a physical counter (R279, R281, R282). -/
def Mach.signalOne (m : Mach) (d i : Nat) : Mach × List (Nat × Nat) :=
  if m.syncHeld d then
    (m.freeze d (.signal i none), [])
  else if !m.syncOn d then (m, [])
  else
    let (p, l) := logicalCtr m.mode d i
    if m.ctrVal d i = 255 then
      let m := ((m.count .sync d 0 0x24 1).dadd (0x5040 + p) 0x10 1).setBit .sync d 0 4 2
      if m.bit .sync d 0 (ctrOff i) 8 then (m, [])
      else ((m.setBit .sync d 0 (ctrOff i) 8).hwEvent evSignalSaturated d 4 (l + 65536 * p), [])
    else
      let m := (m.setCtr d i (m.ctrVal d i + 1)).count .sync d 0 0x20 1
      serveWaits d i ((m.waitsOf d i).length + 1) m

/-- Give signals, and those that the host commands they complete give in turn. -/
def signalAll : Nat → List (Nat × Nat) → Mach → Mach
  | 0, _, m => m
  | _, [], m => m
  | fuel + 1, (d, i) :: rest, m =>
    let (m, more) := m.signalOne d i
    signalAll fuel (rest ++ more) m
/-- Give signals: the host commands that they complete are among those with a wait posted, which bounds the signals given (R279,
R280). -/
def Mach.signals (m : Mach) (sg : List (Nat × Nat)) : Mach :=
  let posted (d : Nat) : Nat := ((m.die d).sync.waits.map fun q => q.2.length).sum
  signalAll (sg.length + posted 0 + posted 1) sg m
def Mach.signal (m : Mach) (d i : Nat) : Mach := m.signals [(d, i)]

/-- Complete a host command and give its signal when it completes with OK (R457). -/
def Mach.finishHost (m : Mach) (h : HostCmd) (status result : Nat) : Mach :=
  let m := m.complete h.ring h.tag status result
  if status = stOk then
    match h.signal with
    | some w => (match extCtr m.mode h.part w with | some (d, i) => m.signal d i | none => m)
    | none => m
  else m

/-- Refuse a wait (R283). -/
def Mach.refuseWait (m : Mach) (d i : Nat) : Mach :=
  let (p, l) := logicalCtr m.mode d i
  ((((m.setBit .sync d 0 (ctrOff i) 9).setBit .sync d 0 4 3).count .sync d 0 0x2C 1).dadd (0x5040 + p) 0x11 1).hwEvent
    evSignalWaitRefused d 4 (l + 65536 * p)
/-- Post a wait and serve what can be served (R282). -/
def Mach.postWait (m : Mach) (d i : Nat) (w : PWait) : Mach :=
  if m.syncHeld d then m.freeze d (.wait i w) else
  let m := m.setWaits d i (m.waitsOf d i ++ [w])
  let (m, sg) := serveWaits d i ((m.waitsOf d i).length + 1) m
  m.signals sg
/-- Take a waiter's pending waits away, and serve what that leaves oldest. -/
def Mach.dropWaits (m : Mach) (who : Waiter) : Mach :=
  [0, 1].foldl (fun m d =>
    let m := m.updDie d fun x => { x with sync := { x.sync with frozen := x.sync.frozen.filter fun a =>
      match a with | .wait _ w => w.who != who | .signal _ _ => true } }
    ((m.die d).sync.waits.map (·.1)).foldl (fun m i =>
      let ws := m.waitsOf d i
      let ks := ws.filter fun w => w.who != who
      if ks.length = ws.length then m else
      let m := m.setWaits d i ks
      let (m, sg) := serveWaits d i (ks.length + 1) m
      m.signals sg) m) m

/-- A signal with an epoch from the fabric (R284): older than the tag is stale, newer is held. -/
def Mach.fabricSignal (m : Mach) (d i epoch : Nat) : Mach :=
  let w := m.reg .sync d 0 (ctrOff i)
  let tag := m.reg .sync d 0 (0x50 + 4 * fld w 14 11)
  if m.syncHeld d then
    m.freeze d (.signal i (some epoch))
  else if epoch = 0xFFFFFFFF || !bitAt w 15 || epoch = tag then m.signal d i
  else if epoch < tag then
    (m.count .sync d 0 0x28 1).dadd (0x5040 + (logicalCtr m.mode d i).1) 0x14 1
  else m.updDie d fun x => { x with sync := { x.sync with held := x.sync.held ++ [⟨d, i, epoch⟩] } }
/-- Apply the held signals that a counter's tag has reached, and drop those it has passed. -/
def Mach.applyHeld (m : Mach) (d : Nat) : Mach :=
  let hs := (m.die d).sync.held
  let m := m.updDie d fun x => { x with sync := { x.sync with held := [] } }
  hs.foldl (fun m h => m.fabricSignal h.die h.ctr h.epoch) m

/-! ### Barriers (R286 to R291) -/

/-- A barrier's place: a local barrier, or a fabric barrier slot, of a die. -/
structure BarRef where
  fabric : Bool
  die    : Nat
  idx    : Nat
  deriving DecidableEq, Repr

/-- The barrier that BARRIER's param [8:0] names for a context of a partition (R276, R286). -/
def barRef (mode p die b : Nat) : BarRef :=
  if b < 256 then ⟨false, die, physBar mode p b⟩
  else let (d, s) := physFbar mode p (b - 256); ⟨true, d, s⟩
def Mach.bar (m : Mach) (r : BarRef) : Barrier :=
  mapGetD (if r.fabric then (m.die r.die).sync.fbars else (m.die r.die).sync.bars) r.idx {}
def Mach.setBar (m : Mach) (r : BarRef) (b : Barrier) : Mach :=
  m.updDie r.die fun x =>
    if r.fabric then { x with sync := { x.sync with
      fbars := if b = {} then mapDel x.sync.fbars r.idx else mapSet x.sync.fbars r.idx b } }
    else { x with sync := { x.sync with
      bars := if b = {} then mapDel x.sync.bars r.idx else mapSet x.sync.bars r.idx b } }
/-- Contexts counted in the generation, those treated as having left included. -/
def Barrier.count (b : Barrier) : Nat := b.counted.length + b.left

/-- The members of a collective group: (module, partition) by rank (R320). -/
def cgMembers (rec : Bytes) : List (Nat × Nat) :=
  (List.range (leAt rec 2 2)).map fun r => let w := leAt rec (32 + 4 * r) 4; (fld w 11 0, fld w 13 12)
def cgDefined (rec : Bytes) : Bool := leAt rec 0 1 != 255
def cgRank (rec : Bytes) : Nat := leAt rec 8 2
def Mach.cgRec (m : Mach) (g : Nat) : Bytes := m.dict? (0x5100 + g) 1

/-- Ranks of the other members whose notice for the generation has not arrived (R290). -/
def Mach.barPending (m : Mach) (r : BarRef) : Nat :=
  if !r.fabric then 0 else
  let b := m.bar r
  let rec' := m.cgRec b.cgroup
  if !cgDefined rec' || b.parties = 0 then 0 else
  ((List.range (leAt rec' 2 2)).filter fun k => k != cgRank rec' && !b.notices.contains (b.gen, k, b.cgroup)).length

/-- One context leaves a draining barrier: its BARRIER completes. -/
def Mach.leaveCtx (m : Mach) (c : Nat) : Mach :=
  m.updCtx c fun x => { x with st := .running, waitFor := none, passed := true }

/-- An arrival whose parties or cgroup differ from its generation's (R289). -/
def Mach.mismatch (m : Mach) (r : BarRef) (part : Nat) : Mach :=
  ((m.count .sync r.die 0 0x3C 1).dadd (0x5040 + part) 0x13 1).hwEvent evBarrierMismatch r.die 4
    ((if r.fabric then 256 else 0) + r.idx)

/-- Open the next generation: held contexts are counted first, in order of arrival; the first fixes the parties (R287 to
R289). -/
def Mach.openNext (m : Mach) (r : BarRef) : Mach :=
  let b := m.bar r
  let g := (b.gen + 1) % 65536
  let (n, cg) := match b.held with
    | [] => (0, 0)
    | h :: _ => (h.parties, h.cgroup)
  let bad := b.held.filter fun h => h.parties != n || h.cgroup != cg
  let m := m.setBar r { b with gen := g, counted := b.held.map (·.ctx), left := 0, parties := n, cgroup := cg
                               draining := false, held := [], sent := false, mismatch := b.mismatch || !bad.isEmpty
                               notices := b.notices.filter fun k => k.1 == g || k.1 == (g + 1) % 65536 }
  let m := bad.foldl (fun m h => m.mismatch r h.part) m
  b.held.foldl (fun m h => m.updCtx h.ctx fun x =>
    { x with waitFor := x.waitFor.map fun _ => .barrier }) m

/-- Let a barrier run as far as it can: complete a full generation, release its contexts, open the next. A fabric barrier
completes only once the module's own notice is sent (R290). -/
def settleBarrier (r : BarRef) : Nat → Mach → Mach
  | 0, m => m
  | fuel + 1, m =>
    let b := m.bar r
    if !m.syncOn r.die then m
    else if b.draining then
      -- counted contexts that are WAITING leave; those FAULTED have left; those PAUSED stay (R291)
      let go := b.counted.filter fun c => (m.ctx c).st == .waiting
      let gone := b.counted.filter fun c => (m.ctx c).st == .faulted
      let stay := b.counted.filter fun c => (m.ctx c).st != .waiting && (m.ctx c).st != .faulted
      let m := go.foldl (fun m c => m.leaveCtx c) m
      let m := m.setBar r { m.bar r with counted := stay, left := b.left + go.length + gone.length }
      if stay.isEmpty then settleBarrier r fuel (m.openNext r) else m
    else if b.parties ≠ 0 ∧ b.parties ≤ b.count ∧ m.barPending r = 0 ∧ (r.fabric → b.sent) then
      settleBarrier r fuel (m.setBar r { b with draining := true })
    else m

/-- A context arrives (R287 to R289). -/
def Mach.arrive (m : Mach) (r : BarRef) (c parties cgroup : Nat) : Mach :=
  let b := m.bar r
  let p := (m.ctx c).part
  let name := (if r.fabric then 256 else 0) + r.idx
  if b.draining then
    let m := ((m.setBar r { b with held := b.held ++ [⟨c, p, parties, cgroup⟩] }).count .sync r.die 0 0x38 1).setBit .sync r.die 0 4 4
    ((m.dadd (0x5040 + p) 0x12 1).hwEvent evBarrierReentry r.die 4 (name + 65536 * ((b.gen + 1) % 65536))).updCtx c
      fun x => { x with st := .waiting, waitFor := some .gateHeld }
  else
    let fresh := b.parties = 0
    let bad := !fresh && (parties != b.parties || cgroup != b.cgroup)
    let b' := { b with counted := b.counted ++ [c], parties := if fresh then parties else b.parties
                       cgroup := if fresh then cgroup else b.cgroup, mismatch := b.mismatch || bad }
    let m := m.setBar r b'
    let m := if bad then m.mismatch r p else m
    let m := m.updCtx c fun x => { x with st := .waiting, waitFor := some .barrier }
    settleBarrier r 4 m

/-- Every barrier that has a context counted or held. -/
def Mach.barsOf (m : Mach) (c : Nat) : List BarRef :=
  [0, 1].flatMap fun d =>
    let s := (m.die d).sync
    let has (b : Barrier) : Bool := b.counted.contains c || b.held.any fun h => h.ctx == c
    (s.bars.filter fun q => has q.2).map (fun q => ⟨false, d, q.1⟩)
    ++ (s.fbars.filter fun q => has q.2).map (fun q => ⟨true, d, q.1⟩)

/-- A context enters FAULTED (R291): a count in a completed generation has left; a count while Filling and a held place
stand. -/
def Mach.barFault (m : Mach) (c : Nat) : Mach :=
  (m.barsOf c).foldl (fun m r =>
    let b := m.bar r
    if b.draining && b.counted.contains c then
      settleBarrier r 4 (m.setBar r { b with counted := b.counted.filter (· != c), left := b.left + 1 })
    else m) m

/-- STOP of a context (R291): counts while Filling are withdrawn, held places removed, counts while Draining have left. -/
def Mach.barStop (m : Mach) (c : Nat) : Mach :=
  (m.barsOf c).foldl (fun m r =>
    let b := m.bar r
    let cs := b.counted.filter (· != c)
    let b := { b with counted := cs, held := b.held.filter (fun h => h.ctx != c)
                      left := b.left + (b.draining && b.counted.contains c).toNat
                      parties := if !b.draining && cs.isEmpty && b.left = 0 then 0 else b.parties }
    settleBarrier r 4 (m.setBar r b)) m

/-- Counters and barriers of a die operate again: what is due is done. -/
def Mach.syncRun (m : Mach) (d : Nat) : Mach :=
  let s := (m.die d).sync
  let m := (s.waits.map (·.1)).foldl (fun m i =>
    let (m, sg) := serveWaits d i ((m.waitsOf d i).length + 1) m
    m.signals sg) m
  let refs : List BarRef := (s.bars.map fun q => ⟨false, d, q.1⟩) ++ s.fbars.map fun q => ⟨true, d, q.1⟩
  refs.foldl (fun m r => settleBarrier r 4 m) m

/-- The word of a local barrier (R299). -/
def Mach.barWord (m : Mach) (d i : Nat) : Nat :=
  let b := m.bar ⟨false, d, i⟩
  b.gen + 65536 * (min 63 b.count) + 2 ^ 22 * (b.parties % 64) + 2 ^ 28 * b.draining.toNat
    + 2 ^ 29 * (!b.held.isEmpty).toNat + 2 ^ 30 * b.mismatch.toNat
/-- The word of a fabric barrier slot (R299). -/
def Mach.fbarWord (m : Mach) (d i : Nat) : Nat :=
  let b := m.bar ⟨true, d, i⟩
  b.gen + 65536 * b.sent.toNat + 2 ^ 17 * b.draining.toNat + 2 ^ 18 * (!b.held.isEmpty).toNat
    + 2 ^ 19 * b.mismatch.toNat + 2 ^ 20 * m.barPending ⟨true, d, i⟩

end Sys2Proof.Machine
end

