-- ==== Sys2Proof/Machine/Transport.lean ====
section
/-! DEFINITION. The sending side of the fabric: packets, flows, routes, flits and the replay buffer (R303 to R313, R326). -/

namespace Sys2Proof.Machine

/-- Packet types (R310). -/
def ptWrite : Nat := 1
def ptWriteSignal : Nat := 2
def ptReadReq : Nat := 3
def ptReadResp : Nat := 4
def ptColl : Nat := 5
def ptNotice : Nat := 6
def ptTack : Nat := 7
def ptRefuse : Nat := 8
/-- Notice kinds (R326). -/
def nkStatus : Nat := 1
def nkAbort : Nat := 2
def nkAck : Nat := 3
def nkBarrier : Nat := 4
def nkResend : Nat := 5
def nkDigest : Nat := 6

/-- The module number; 0xFFFF unset (R301). -/
def Mach.modNum (m : Mach) : Nat := m.dnum 0x5001 2

/-- The 32 bytes of a packet header (R310). -/
def hdrBytes (typ : Nat) (h : PktHdr) (len : Nat) : Bytes :=
  toLe 1 typ ++ [h.flags] ++ toLe 2 h.dstModule ++ toLe 2 h.srcModule ++ [h.flow] ++ zeroBytes 1 ++ toLe 4 h.tseq
  ++ toLe 2 len ++ toLe 2 h.signal.toNat ++ toLe 8 h.offset ++ toLe 4 h.epoch.toNat ++ zeroBytes 4
/-- The 32 bytes of the extension (R326). -/
def extBytes (e : ExtHdr) : Bytes :=
  toLe 4 e.defTag.toNat ++ toLe 2 e.generation ++ toLe 1 e.cgroup ++ toLe 1 e.level ++ toLe 8 e.bucket.toNat
  ++ toLe 4 e.chunk ++ toLe 2 e.sender ++ toLe 2 e.resv.toNat ++ toLe 4 e.sumcheck.toNat ++ toLe 4 e.elements
def Packet.toBytes (p : Packet) : Bytes :=
  hdrBytes p.typ p.hdr p.data.length ++ (match p.ext with | some e => extBytes e | none => []) ++ p.data

/-- Parse the header at the front of bytes. -/
def hdrOf (bs : Bytes) : Nat × PktHdr × Nat :=
  (leAt bs 0 1,
   { flags := bs.getD 1 0, dstModule := fld (leAt bs 2 2) 11 0, srcModule := fld (leAt bs 4 2) 11 0, flow := bs.getD 6 0
     tseq := fld (leAt bs 8 4) 23 0, signal := BitVec.ofNat 16 (leAt bs 14 2), offset := fld (leAt bs 16 8) 47 0
     epoch := BitVec.ofNat 32 (leAt bs 24 4)
     resv := fld (leAt bs 1 1) 7 6 != 0 || fld (leAt bs 2 2) 15 12 != 0 || fld (leAt bs 4 2) 15 12 != 0
       || leAt bs 7 1 != 0 || fld (leAt bs 8 4) 31 24 != 0 || fld (leAt bs 14 2) 15 13 != 0
       || fld (leAt bs 16 8) 63 48 != 0 || leAt bs 28 4 != 0 },
   leAt bs 12 2)
def extOf (bs : Bytes) : ExtHdr :=
  { defTag := BitVec.ofNat 32 (leAt bs 0 4), generation := leAt bs 4 2, cgroup := leAt bs 6 1, level := leAt bs 7 1
    bucket := BitVec.ofNat 64 (leAt bs 8 8), chunk := leAt bs 16 4, sender := leAt bs 20 2
    sumcheck := BitVec.ofNat 32 (leAt bs 24 4), elements := leAt bs 28 4, resv := leAt bs 22 2 != 0 }
/-- Is an extension well formed for its packet type (R4, R326)? A chunk has a level and no notice kind, a notice a kind and no level,
and no sum check. -/
def extOk (typ : Nat) (e : ExtHdr) : Bool :=
  !e.resv && fld e.level 3 2 == 0 &&
  (if typ = 5 then 1 ≤ e.level && e.level ≤ 3
   else e.level % 16 == 0 && 1 ≤ e.level / 16 && e.level / 16 ≤ 6 && e.sumcheck == 0 && e.elements == 0)
/-- Is the payload of a notice laid out as its kind's (R326)? -/
def noticeOk (kind : Nat) (bs : Bytes) : Bool :=
  let zero (a n : Nat) : Bool := (subBytes bs a n).all (· == 0)
  if kind = 2 then bs.length == 16 && zero 4 12
  else if kind = 3 then bs.isEmpty
  else if kind = 4 then bs.length == 16 && zero 2 14
  else if kind = 5 then bs.length == 16 && zero 1 1 && zero 4 12
  else if kind = 6 then bs.length == 80 && zero 4 12
  else true

/-! ### Routes (R313) -/

def Mach.port (m : Mach) (q : Nat) : Port := m.ports.getD q {}
def Mach.updPort (m : Mach) (q : Nat) (f : Port → Port) : Mach := { m with ports := updAt m.ports q f }
def Port.isUp (p : Port) : Bool := p.st == .up || p.st == .degraded
/-- Ports that a partition owns in the current modes. -/
def Mach.portsOf (m : Mach) (p : Nat) : List Nat := (List.range m.portCount).filter fun q => m.portPart q == p

/-- The mask of a route entry as it acts: an entry of zero is filled with the port on which training last found the module. -/
def Mach.routeMask (m : Mach) (p dst : Nat) : Nat :=
  let w := leAt (m.dict? (0x5008 + p) 1) (2 * dst) 2
  if w ≠ 0 then w
  else match mapGet m.peers (4096 * p + dst) with
    | some q => if m.portPart q = p then 2 ^ q else 0
    | none => 0
/-- Is a port down: out of every route (R308)? One that retrains fast keeps its flows. -/
def Port.out (p : Port) : Bool := !p.isUp && p.st != .retraining
/-- The port of a flow that was last sent on `cur`; none while it cannot be sent. It keeps its port while that is not down; else it
is spread over the entry's ports, and over those that are left where that port is down (R313). -/
def Mach.flowPort (m : Mach) (p engine channel dst dpart : Nat) (cur : Option Nat) : Option Nat :=
  let w := m.routeMask p dst
  let all := (m.portsOf p).filter fun q => bitAt w q
  let qs := all.filter fun q => !(m.port q).out
  let x := (mix32 (BitVec.ofNat 32 (engine * 64 + channel + 256 * dst + 1048576 * dpart))).toNat
  let spread : Option Nat :=
    match all[x % all.length]? with
    | none => none
    | some q => if qs.contains q then some q else qs[x % qs.length]?
  match cur with
  | some q => if qs.contains q then some q else spread
  | none => spread

/-! ### The line and the flits (R302 to R305) -/

/-- The 512 bytes of a flit: type, sequence number, next number expected, nak, credits returned of a class, first_pkt, body. -/
def flitBytes (typ seq ack : Nat) (nak : Bool) (cls credits first : Nat) (body : Bytes) : Bytes :=
  let w := typ + seq * 2 ^ 4 + ack * 2 ^ 16 + 2 ^ 28 + nak.toNat * 2 ^ 29 + cls * 2 ^ 30 + credits * 2 ^ 32 + first * 2 ^ 48
  let bs := toLe 8 w ++ fitBytes 500 body
  bs ++ toLe 4 (crc32c bs).toNat
/-- A flit goes out: each of its four parts as a codeword on lane k mod L of the L in use, scrambled there. -/
def Mach.lineFlit (m : Mach) (q : Nat) (bs : Bytes) : Mach :=
  (List.range 4).foldl (fun m k =>
    let p := m.port q
    let lane := k % max 1 p.lanes
    let (ls, h) := lineOut (p.scram.getD lane 0) (rsEncode (subBytes bs (128 * k) 128))
    (m.updPort q fun p => { p with scram := updAt p.scram lane fun _ => h }).emit (.line q lane ls)) (m.emit (.flit q bs))
/-- The credits that the next flit carries back: a class and how many. -/
def Port.giveBack (p : Port) : Nat × Nat :=
  let cls := ([0, 1, 2].find? fun c => p.owed.getD c 0 != 0).getD 0
  (cls, min (p.owed.getD cls 0) 65535)
/-- Send a flit with these credits and the acknowledgement as it stands. -/
def Mach.sendFlit (m : Mach) (q typ : Nat) (nak : Bool) (f : SentFlit) : Mach :=
  (m.updPort q fun p => { p with ackOwed := false }).lineFlit q
    (flitBytes typ f.seq (m.port q).rxSeq nak f.cls f.credits f.first f.body)
/-- Put a flit together with the acknowledgement and the credits that it carries back, and send it. -/
def Mach.putFlit (m : Mach) (q typ seq : Nat) (nak : Bool) (first : Nat) (body : Bytes) : Mach :=
  let (cls, n) := (m.port q).giveBack
  (m.updPort q fun p => { p with owed := updAt p.owed cls (· - n) }).sendFlit q typ nak ⟨seq, first, body, cls, n⟩

/-! ### The turn of a packet (R306, R319) -/

/-- The class of a packet type: requests, writes and chunks; responses and acknowledgements; notices. A refusal goes with the
responses. -/
def packetClass (typ : Nat) : Nat := if typ = ptNotice then 2 else if typ = ptReadResp ∨ typ = ptTack ∨ typ = ptRefuse then 1 else 0
/-- The source of a packet: its collective group, or the point-to-point transfers of its partition. -/
def packetSource (h : PktHdr) : Nat :=
  let c := fld h.flow.toNat 7 2
  if 32 ≤ c then c - 32 else 36 + fld h.flags.toNat 3 2
/-- The weight of a source. -/
def Mach.sourceWeight (m : Mach) (s : Nat) : Nat :=
  if s < 32 then leAt (m.cgRec s) 12 1 else if s < 36 then m.dnum (0x2030 + (s - 32)) 7 else m.dnum 0x5001 6
/-- Credits that a packet takes. -/
def TxItem.units (x : TxItem) : Nat := ceilDiv x.data.length 64
def Port.spend (p : Port) (x : TxItem) : Port := { p with credits := updAt p.credits x.cls (· - x.units), queue := p.queue.erase x }
def Port.affords (p : Port) (x : TxItem) : Bool := x.units ≤ p.credits.getD x.cls 0
/-- The next packet of class 0, by deficit round robin: a source sends while its deficit lasts and then goes to the end of the ring; one
with nothing left to send leaves it. None: nothing waits, or the class lacks credits. -/
def drr (weight : Nat → Nat) : Nat → Port → Option TxItem × Port
  | 0, p => (none, p)
  | fuel + 1, p =>
    match p.ring with
    | [] => (none, p)
    | (s, d) :: rest =>
      match p.queue.find? fun x => x.cls == 0 && x.src == s with
      | none => drr weight fuel { p with ring := rest, turn := false }
      | some x =>
        let d := if p.turn then d else d + 4096 * weight s
        if d < x.data.length then drr weight fuel { p with ring := rest ++ [(s, d)], turn := false }
        else if !p.affords x then (none, { p with ring := (s, d) :: rest, turn := true })
        else
          let p := p.spend x
          let more := p.queue.any fun y => y.cls == 0 && y.src == s
          (some x, { p with ring := if more then (s, d - x.data.length) :: rest else rest, turn := more })
/-- The next packet: class 2 before class 1, class 1 before class 0, each against its own credits. -/
def Mach.nextItem (m : Mach) (p : Port) : Option TxItem × Port :=
  let ready (c : Nat) : Option TxItem := (p.queue.find? fun x => x.cls == c).bind fun x => if p.affords x then some x else none
  match (ready 2).orElse fun _ => ready 1 with
  | some x => (some x, p.spend x)
  | none => drr m.sourceWeight (2 * p.ring.length + 2) p
/-- Fill the body of a flit: packets back to back, the next one begun where the last one ends. `first`: where the first packet that
begins in it does. -/
def fillFlit (m : Mach) : Nat → Port → Bytes → Nat → List TxItem → Port × Bytes × Nat × List TxItem
  | 0, p, body, first, slots => (p, body, first, slots)
  | fuel + 1, p, body, first, slots =>
    if 500 ≤ body.length then (p, body, first, slots) else
    match p.sending with
    | (new, bs) :: rest =>
      let k := 500 - body.length
      let first := if new && first == 0x1FF then body.length else first
      let rest := if k < bs.length then (false, bs.drop k) :: rest else rest
      fillFlit m fuel { p with sending := rest } (body ++ bs.take k) first slots
    | [] =>
      match m.nextItem p with
      | (none, p) => (p, body, first, slots)
      | (some x, p) =>
        if x.slot.isSome then fillFlit m fuel p body first (slots ++ [x])
        else fillFlit m fuel { p with sending := [(true, x.data)] } body first slots
/-- Send what waits at a port while its replay buffer has room (R305). Bytes of a slot at a buddy go out as such: the manual gives them
no packet of their own (log entry 75). -/
def pumpPort (q : Nat) : Nat → Mach → Mach
  | 0, m => m
  | fuel + 1, m =>
    let p := m.port q
    if 256 ≤ p.replay.length || !p.isUp || (p.queue.isEmpty && p.sending.isEmpty) then m else
    let (p, body, first, slots) := fillFlit m (p.queue.length + 64) p [] 0x1FF []
    let m := m.updPort q fun _ => p
    let m := slots.foldl (fun m x => match x.slot with
      | some (dm, dp, i, off) => m.emit (.slotPut dm dp i off x.data)
      | none => m) m
    if body.isEmpty then (if slots.isEmpty then m else pumpPort q fuel m) else
    let m := m.updPort q fun p => { p with txSeq := (p.txSeq + 1) % 4096, replay := p.replay ++ [⟨p.txSeq, first, body, p.giveBack.1, p.giveBack.2⟩] }
    pumpPort q fuel (m.putFlit q 1 p.txSeq false first body)
/-- What is still owed to the peer, acknowledgement and credits, goes back on idle flits. -/
def ackPort (q : Nat) : Nat → Mach → Mach
  | 0, m => m
  | fuel + 1, m =>
    let p := m.port q
    if p.isUp && (p.ackOwed || p.owed.any (· != 0)) then ackPort q fuel (m.putFlit q 0 0 false 0x1FF []) else m
/-- Let every port send. -/
def Mach.pumpPorts (m : Mach) : Mach :=
  (List.range 16).foldl (fun m q =>
    let p := m.port q
    ackPort q 16 (pumpPort q (6 * p.queue.length + 6 * p.sending.length + 2) m)) m

/-- Put a packet on a port, where it waits for its turn. -/
def Port.enqueue (p : Port) (x : TxItem) : Port :=
  { p with queue := p.queue ++ [x]
           ring := if x.cls = 0 ∧ (p.ring.any fun s => s.1 == x.src) = false then p.ring ++ [(x.src, 0)] else p.ring }
def Mach.putPort (m : Mach) (q : Nat) (p : Packet) : Mach :=
  (m.updPort q fun x => x.enqueue ⟨packetClass p.typ, packetSource p.hdr, p.toBytes, none⟩).emit (.packet q p)

/-! ### Flows (R311) -/

def TxFlow.isFor (f : TxFlow) (p e c dm dp : Nat) : Bool :=
  f.part == p && f.engine == e && f.channel == c && f.module == dm && f.dpart == dp

/-- Send one packet on a flow: number it, keep it until acknowledged, put it on the flow's port. A packet to an endpoint
of this module goes round inside. `own`: the context and operation whose transfer ends with this packet. -/
def Mach.send (m : Mach) (p e c dm dp : Nat) (typ : Nat) (flags sig offset : Nat) (epoch : Word) (ext : Option ExtHdr)
    (data : Bytes) (own : Option (Nat × Nat)) : Mach :=
  if m.modNum = 0xFFFF then m else
  let fl : TxFlow := ((m.tx.find? fun f => f.isFor p e c dm dp)).getD
    { part := p, engine := e, channel := c, module := dm, dpart := dp }
  let h : PktHdr :=
    { flags := BitVec.ofNat 8 (dp + 4 * p + flags), dstModule := dm, srcModule := m.modNum
      flow := BitVec.ofNat 8 (e + 4 * c), tseq := fl.next, signal := BitVec.ofNat 16 sig, offset := offset
      epoch := epoch, resv := false }
  let pk : Packet := ⟨typ, h, ext, data⟩
  let port := if dm = m.modNum then none else m.flowPort p e c dm dp fl.port
  let fl' := { fl with port := port.or fl.port, next := (fl.next + 1) % 2 ^ 24, unacked := fl.unacked ++ [pk]
                       owners := match own with | some o => fl.owners ++ [(h.tseq, o)] | none => fl.owners }
  let m := { m with tx := if m.tx.any fun f => f.isFor p e c dm dp
                          then m.tx.map fun f => if f.isFor p e c dm dp then fl' else f
                          else m.tx ++ [fl'] }
  if dm = m.modNum then { m with loop := m.loop ++ [pk] }
  else match port with
    | none => m
    | some q => m.putPort q pk

/-- A packet that belongs to no numbered flow of this side: an acknowledgement, a refusal, a response. -/
def Mach.reply (m : Mach) (p : Nat) (h : PktHdr) (typ : Nat) (offset : Nat) (data : Bytes) : Mach :=
  let sp := fld h.flags.toNat 3 2
  let r : PktHdr :=
    { flags := BitVec.ofNat 8 (sp + 4 * p + 48), dstModule := h.srcModule, srcModule := m.modNum, flow := h.flow
      tseq := h.tseq, signal := 0, offset := offset, epoch := h.epoch, resv := false }
  let pk : Packet := ⟨typ, r, none, data⟩
  if h.srcModule = m.modNum then { m with loop := m.loop ++ [pk] }
  else match m.flowPort p (fld h.flow.toNat 1 0) (fld h.flow.toNat 7 2) h.srcModule sp none with
    | none => m
    | some q => m.putPort q pk

/-- The definition tag of a group record (R320). -/
def defTag (rec' : Bytes) : Word :=
  let n := leAt rec' 2 2
  BitVec.ofNat 32 (ofLe (shake256 (subBytes rec' 1 7 ++ subBytes rec' 10 2 ++ subBytes rec' 32 (4 * n)) 4))

/-- Send a notice to one member (R326): class 2, on the channel of the collective group. -/
def Mach.noticeTo (m : Mach) (cg : Nat) (rank : Nat) (kind : Nat) (bucket chunk : Nat) (epoch : Word) (data : Bytes) :
    Mach :=
  let r := m.cgRec cg
  let p := leAt r 0 1
  match (cgMembers r)[rank]? with
  | none => m
  | some (dm, dp) =>
    let ext : ExtHdr :=
      { defTag := defTag r, generation := leAt r 10 2, cgroup := cg, level := kind * 16, bucket := BitVec.ofNat 64 bucket
        chunk := chunk, sender := cgRank r, sumcheck := 0, elements := 0, resv := false }
    let ps := if data.isEmpty then [[]] else pieces 2048 (ceilDiv data.length 2048) data
    (ps.zipIdx).foldl (fun m x =>
      let flags := (if x.2 = 0 then 16 else 0) + (if x.2 + 1 = ps.length then 32 else 0)
      m.send p 0 (32 + cg) dm dp ptNotice flags 0 (2048 * x.2) epoch (some ext) x.1 none) m
/-- Send a notice to every other member. -/
def Mach.noticeAll (m : Mach) (cg kind bucket : Nat) (epoch : Word) (data : Bytes) : Mach :=
  let r := m.cgRec cg
  (List.range (leAt r 2 2)).foldl (fun m k =>
    if k = cgRank r then m else m.noticeTo cg k kind bucket 0 epoch data) m

/-! ### Fabric barriers send their notices (R290) -/

/-- Send the notice of every fabric barrier whose own count has reached its parties, and let it complete. -/
def Mach.fbarPump (m : Mach) : Mach :=
  [0, 1].foldl (fun m d =>
    ((m.die d).sync.fbars.map (·.1)).foldl (fun m i =>
      let r : BarRef := ⟨true, d, i⟩
      let b := m.bar r
      if b.sent || b.draining || b.parties = 0 || b.count < b.parties then m else
      let m := m.setBar r { b with sent := true }
      let p := leAt (m.cgRec b.cgroup) 0 1
      let f := if m.mode = 4 then i % 16 else if m.mode = 2 then i else 32 * d + i
      let m := if cgDefined (m.cgRec b.cgroup) && p < 4
               then m.noticeAll b.cgroup nkBarrier b.gen 0xFFFFFFFF#32 (toLe 2 f ++ zeroBytes 14) else m
      settleBarrier r 4 m) m) m

end Sys2Proof.Machine
end

