-- ==== Sys2Proof/Machine/Streams.lean ====
section
/-! DEFINITION. Stream contexts: issue, completion, pausing, stopping, faults (spec/02, R34 to R43, R51 to R53). -/

namespace Sys2Proof.Machine

/-! ### Fault records (R51 to R53) -/

def fcBounds : Nat := 1
def fcPoison : Nat := 2
def fcWaitWd : Nat := 3
def fcCollWd : Nat := 4
def fcIndex : Nat := 5
def fcInternal : Nat := 15

/-- What a fault concerns. -/
structure FaultInfo where
  code   : Nat
  handle : Nat := 0
  coord  : Dim4 := ⟨0, 0, 0, 0⟩
  phys   : Nat := 0
  deriving DecidableEq, Repr

/-- The step number of a context: of a training group, its repetition's (R192); else 0. -/
def Mach.ctxStep (m : Mach) (c : Nat) : Nat :=
  match m.group? (m.ctx c).part (m.ctx c).group with
  | some g => if g.kind = .training then g.first + (m.ctx c).rep else 0
  | none => 0

/-- The 48-byte fault record (R53). -/
def Mach.faultRecord (m : Mach) (c opIdx : Nat) (f : FaultInfo) : Bytes :=
  let x := m.ctx c
  toLe 1 f.code ++ toLe 1 x.part ++ toLe 1 (c % 16 + 16 * (c / 16)) ++ zeroBytes 1 ++ toLe 2 x.group ++ zeroBytes 2
  ++ toLe 4 opIdx ++ toLe 4 x.rep ++ toLe 8 (m.ctxStep c) ++ toLe 4 f.handle ++ toLe 4 f.coord.d0 ++ toLe 4 f.coord.d1
  ++ toLe 2 f.coord.d2 ++ toLe 2 f.coord.d3
  ++ toLe 8 (if f.code = fcBounds ∨ f.code = fcPoison then f.phys else 0)

/-! ### Transitions that wait for the operations in flight (R40, R42) -/

/-- Give effect to a context's pending transition once nothing is in flight. -/
def Mach.settleCtx (m : Mach) (c : Nat) : Mach :=
  let x := m.ctx c
  if !x.flights.isEmpty then m else
  match x.want with
  | .nothing => m
  | .pause => m.updCtx c fun x => { x with st := .paused, want := .nothing }
  | .stop => ((m.dropWaits (.ctx c)).barStop c).updCtx c fun x =>
      { x with st := .done, want := .nothing, waitFor := none, waitOk := false, passed := false, signals := [] }
  | .fault => ((m.dropWaits (.ctx c)).barFault c).updCtx c fun x =>
      { x with st := .faulted, want := .nothing, waitFor := none, signals := [], faultOp := none }
  | .faultStop => ((m.dropWaits (.ctx c)).barFault c).updCtx c fun x =>
      { x with st := .done, want := .nothing, waitFor := none, waitOk := false, passed := false, signals := []
               faultOp := none }

/-- Bring a context that is RUNNING or WAITING to PAUSED. -/
def Mach.pauseCtx (m : Mach) (c : Nat) : Mach :=
  let x := m.ctx c
  if (x.st == .running || x.st == .waiting) && x.want == .nothing
  then (m.updCtx c fun x => { x with want := .pause }).settleCtx c else m
/-- Stop a context (R40). -/
def Mach.stopCtx (m : Mach) (c : Nat) : Mach :=
  let x := m.ctx c
  if x.st == .free || x.st == .done then m
  else if x.want == .fault || x.want == .faultStop then (m.updCtx c fun x => { x with want := .faultStop }).settleCtx c
  else (m.updCtx c fun x => { x with want := .stop }).settleCtx c

/-- Has the context faulted, its operations in flight completed or not (R41)? -/
def Ctx.faulty (x : Ctx) : Bool := x.st == .faulted || x.want == .fault || x.want == .faultStop
/-- A context faults (R52): reported once, its group's other contexts paused; a further fault is counted only (R41). A STOP that
waited for its operations still takes it to DONE. The event's detail is the first 16 bytes of the fault record (the model's
choice, log entry 71). -/
def Mach.faultCtx (m : Mach) (c opIdx : Nat) (f : FaultInfo) : Mach :=
  let x := m.ctx c
  let first := some (match x.faultOp with | some n => min n opIdx | none => opIdx)
  if x.faulty then
    (m.count .part (ctxDie c) x.part 0x4C 1).updCtx c fun x => if x.want == .nothing then x else { x with faultOp := first }
  else
    let rec' := m.faultRecord c opIdx f
    let m := (m.fwEvent evStreamFault (ctxDie c) 0 (some x.part) (rec'.take 16)).dictPut (0x2010 + x.part) 6 rec'
    let m := m.updCtx c fun x => { x with want := if x.want == .stop then .faultStop else .fault, faultOp := first }
    let m := (m.dropWaits (.ctx c)).settleCtx c
    (m.ctxsOf x.part x.group).foldl (fun m k => if k = c then m else m.pauseCtx k) m

/-! ### Moving on in a program (R35, R40) -/

/-- A RUNNING context whose next operation waits posts its wait (R40, R282). -/
def Mach.arm (m : Mach) (c : Nat) : Mach :=
  let x := m.ctx c
  match m.nextOp c with
  | none => m
  | some o =>
    if x.st == .running && x.want == .nothing && o.waitEn && !x.waitOk then
      let m := m.updCtx c fun x => { x with st := .waiting, waitFor := some .counter }
      m.postWait (ctxDie c) (physCtr m.mode x.part o.waitCtr) ⟨.ctx c, o.waitCount⟩
    else m

/-- The next operation of a context has issued. -/
def Mach.advance (m : Mach) (c : Nat) : Mach :=
  (m.updCtx c fun x => { x with pc := x.pc + 1, waitOk := false, passed := false }).arm c

/-- Signal a context's counter by its logical index. -/
def Mach.ctxSignal (m : Mach) (c i : Nat) : Mach := m.signal (ctxDie c) (physCtr m.mode (m.ctx c).part i)

/-- Give the signals of completed operations none of whose predecessors is still in flight (R35). The outputs of one that has faulted
never become visible: no operation after it signals. -/
def Mach.giveSignals (m : Mach) (c : Nat) : Mach :=
  let x := m.ctx c
  let due (s : Nat × Nat) : Bool := (x.flights.all fun f => s.1 < f.op) && x.faultOp.all fun n => s.1 < n
  let m := m.updCtx c fun x => { x with signals := x.signals.filter fun s => !due s }
  (x.signals.filter due).foldl (fun m s => m.ctxSignal c s.2) m

/-- Contexts whose BARRIER has been left complete it (R287). -/
def Mach.afterBarriers (m : Mach) : Mach :=
  (List.range 32).foldl (fun m c =>
    let x := m.ctx c
    if !x.passed then m else
    match m.nextOp c with
    | some o =>
      let m := if o.signalEn then m.ctxSignal c o.signalCtr else m
      m.advance c
    | none => m.updCtx c fun x => { x with passed := false }) m

/-- Let everything that waits for nothing outside run on: fabric barrier notices, barriers left. -/
def runOn : Nat → Mach → Mach
  | 0, m => m
  | fuel + 1, m =>
    let m := m.fbarPump.afterBarriers
    if m.ctxs.any fun x => x.passed then runOn fuel m else m

/-! ### Issue (R34, R35) -/

/-- The references of an operation that name what it writes, and those that name what it reads. A broadcast works in place: the root
reads every tensor and the other members write it (R321). -/
def Op.outRefs (o : Op) : List TileRef := match o.kind with
  | .bagMax | .gradMerge | .reduceMax | .reduceMin => o.refs.drop (o.refs.length - 2)
  | .measure | .put | .putSignal | .sync | .barrier | .opEnd => []
  | .update => o.refs.drop 1
  | .collective => if fld o.param 7 5 = 4 then o.refs else (o.refs.zipIdx.filter fun q => q.2 % 2 == 1).map (·.1)
  | _ => o.refs.drop (o.refs.length - 1)
def Op.inRefs (o : Op) : List TileRef := match o.kind with
  | .bagMax | .gradMerge | .reduceMax | .reduceMin => o.refs.take (o.refs.length - 2)
  | .sync | .barrier | .opEnd => []
  | .put | .putSignal | .measure => o.refs
  | .update => o.refs.take 2
  | .rowUpdate => o.refs
  | .collective => if fld o.param 7 5 = 4 then o.refs else (o.refs.zipIdx.filter fun q => q.2 % 2 == 0).map (·.1)
  | _ => o.refs.take (o.refs.length - 1)
def Op.ref (o : Op) (k : Nat) : TileRef := o.refs.getD k ⟨0, 0, 0, 0, 0⟩
/-- The tile a reference names: handle and tile number. -/
def Mach.refAt (m : Mach) (p : Nat) (r : TileRef) : Nat × Nat :=
  (r.handle, match m.tensor? p r.handle with | some t => refTile t.desc r | none => 0)
/-- The tiles of a GEMM operand, in ascending reduction coordinate. -/
def Mach.gemmTiles (m : Mach) (p : Nat) (r : TileRef) (k : Nat) : List (Nat × Nat) :=
  match m.tensor? p r.handle with
  | none => []
  | some t =>
    let co := refCoord r
    (List.range k).map fun x => (r.handle, Dim4.lin t.desc.tiles (co.set t.desc.redAxis (co.get t.desc.redAxis + x)))
/-- The tile that a reference of an operation concerns, or any tile of its tensor: of a collective every tile, of a table the tiles
that its indices name. -/
def Mach.refTouch (m : Mach) (p : Nat) (o : Op) (r : TileRef) : Nat × Option Nat :=
  let any : Bool := match o.kind with
    | .collective => true
    | .bagSum | .bagMean | .bagMax => r.handle == (o.ref 0).handle
    | .rowUpdate => r.handle == (o.ref 2).handle
    | _ => false
  (r.handle, if any then none else (m.tensor? p r.handle).map fun t => refTile t.desc r)
/-- What a Lehr operation writes, with the companions of the master weight or the table, which it names first (R168). -/
def Op.companions (o : Op) (l : List (Nat × Option Nat)) : List (Nat × Option Nat) :=
  match o.kind, l with
  | .update, q :: r => [q, (q.1 + 1, q.2), (q.1 + 2, q.2)] ++ r
  | .rowUpdate, q :: r => [q, (q.1 + 1, q.2)] ++ r
  | _, _ => l
/-- The tiles an operation writes: handle and tile, or any tile of the handle. -/
def Mach.writesOf (m : Mach) (p : Nat) (o : Op) : List (Nat × Option Nat) := o.companions (o.outRefs.map (m.refTouch p o))
/-- The tiles an operation reads: a GEMM's over its reduction, and, where it adds to them, its outputs. -/
def Mach.readsOf (m : Mach) (p : Nat) (o : Op) : List (Nat × Option Nat) :=
  (if o.kind = .gemm then
    (m.gemmTiles p (o.ref 0) o.param ++ m.gemmTiles p (o.ref 1) o.param).map fun q => (q.1, some q.2)
  else o.inRefs.map (m.refTouch p o)) ++ if o.acc then m.writesOf p o else []
/-- The tiles an operation reads or writes. -/
def Mach.touches (m : Mach) (p : Nat) (o : Op) : List (Nat × Option Nat) :=
  (m.readsOf p o).filter (fun q => !(m.writesOf p o).contains q) ++ m.writesOf p o
/-- Do two tiles, or a tile and a tensor, have a tile in common? -/
def meets (a b : Nat × Option Nat) : Bool := a.1 == b.1 && (a.2.isNone || b.2.isNone || a.2 == b.2)

/-- The tensors that an operation encodes: what QUANT and ROW_UPDATE write, and the working copy of UPDATE. -/
def Op.encodes (o : Op) (h : Nat) : Bool := match o.kind with
  | .quant => (o.ref 1).handle == h
  | .update | .rowUpdate => (o.ref 2).handle == h
  | _ => false
/-- Would the operation encode a tensor whose history boundary of an earlier repetition is still to come, in a group that does not
train? The boundary completes before an operation of the next repetition encodes the tensor (R103). -/
def Mach.awaitsBoundary (m : Mach) (c : Nat) (o : Op) : Bool :=
  match m.group? (m.ctx c).part (m.ctx c).group with
  | some g => g.kind != .training && g.repEnc.any fun q => o.encodes q.2 && q.1 < (m.ctx c).rep
  | none => false

/-- Would the operation, beside those in flight, not take effect as if each ran alone (R34): does it touch a tile that one of them
writes, or write one that one of them reads, which may yet be read again? -/
def Mach.hazard (m : Mach) (c : Nat) (o : Op) : Bool :=
  let p := (m.ctx c).part
  let ts := m.touches p o
  let ws := m.writesOf p o
  (m.ctx c).flights.any fun f =>
    (f.outs.any fun w => ts.any (meets (w.1, some w.2)))
    || match (m.opsOf c)[f.op]? with
      | some q => (m.readsOf p q).any fun r => ws.any (meets r)
      | none => false

/-- May the context issue an operation of this kind next (R34, R35, R204)? -/
def Mach.opServed (m : Mach) (p : Nat) (o : Op) : Bool :=
  (m.touches p o).all fun q => match q.2 with
    | some k => m.tileServed p q.1 k
    | none => match m.tensor? p q.1 with
      | some t => (List.range t.desc.tileCount).all fun k => m.tileServed p q.1 k
      | none => true
def Mach.issuable (m : Mach) (c : Nat) (k : OpKind) : Option Op :=
  let x := m.ctx c
  match m.nextOp c with
  | none => none
  | some o =>
    let aborted := match m.group? x.part x.group with | some g => g.abortCode != 0 | none => false
    if c < 32 && o.kind == k && x.st == .running && x.want == .nothing && (!o.waitEn || x.waitOk)
        && x.flights.length < 8 && !m.hazard c o && !m.awaitsBoundary c o && !aborted && (m.die (ctxDie c)).up && m.opServed x.part o
    then some o else none

/-- What a bench holds. -/
def Mach.bench (m : Mach) (b : Nat) : BenchSt := mapGetD m.benches b {}
/-- Does the bench hold a disputed row? -/
def Mach.holdsRow (m : Mach) (b : Nat) : Bool := m.disputes.any fun d => d.bench == b
/-- Does an operation in flight hold the station instance? A Pontil serves many transfers at once (R318). A bench may take its next
GEMM while the one before is handed over, unless its writer still holds the one before that or a row is held (R127, R341). -/
def Mach.instBusy (m : Mach) (i : Inst) : Bool :=
  match i.kind with
  | .pontil => false
  | .bench =>
    let b := 32 * i.die + i.idx
    (m.bench b).seg.isSome && ((m.bench b).writer.isSome || m.holdsRow b)
  | _ => m.ctxs.any fun x => x.flights.any fun f => f.inst == some i
/-- Has the instance an operation in progress? -/
def Mach.instActive (m : Mach) (i : Inst) : Bool := m.ctxs.any fun x => x.flights.any fun f => f.inst == some i

/-- idle and drained of a station's status register. -/
def Mach.idleBits (m : Mach) (i : Inst) : Nat :=
  let b := i.kind.blk
  let idle := !m.instActive i
  let off := m.bit b i.die i.idx 0 1 || !m.bit b i.die i.idx 0 0
  idle.toNat + 2 * (off && idle).toNat

/-- Does the instance accept an operation of the partition: in service, enabled, not draining, its configuration whole
(R144, R376), free, not lent to a test and not reserved? -/
def Mach.instReady (m : Mach) (p : Nat) (i : Inst) : Bool :=
  let b := i.kind.blk
  instOwned m.mode p i && (m.die i.die).up && m.inService i && m.bit b i.die i.idx 0 0 && !m.bit b i.die i.idx 0 1
  && !m.bit b i.die i.idx 4 3 && !m.instBusy i
  && !(i.kind == .bench && (m.loans.any fun l => l.bench == 32 * i.die + i.idx || l.partner == 32 * i.die + i.idx))
  && !(i.kind == .jacks && (m.colls.any fun k => k.jacks.contains i))
/-- The partition an instance serves, by its CFG register (R110, R144, R383, …). -/
def Mach.instPart (m : Mach) (i : Inst) : Nat := fld (m.reg i.kind.blk i.die i.idx 8) 1 0
/-- The number of instance `idx` of a kind as commands name it: die in the high part. -/
def instOf (k : StKind) (n : Nat) : Inst := ⟨k, n / k.perDie, n % k.perDie⟩
/-- The first instance of a kind that can take work of a partition. -/
def Mach.standIn (m : Mach) (p : Nat) (k : StKind) : Option Inst :=
  ((List.range (2 * k.perDie)).map (instOf k)).find? fun j => m.instReady p j && m.instPart j == p
/-- What an instance had in progress is reissued on another of its kind, or waits for one (R370, R376). -/
def Mach.handOff (m : Mach) (i : Inst) : Mach :=
  { m with ctxs := m.ctxs.map fun x =>
      { x with flights := x.flights.map fun f => if f.inst = some i then { f with inst := m.standIn x.part i.kind } else f } }
/-- A number of its own for each station instance: the kind in [9:7], die in [6], index in [5:0]. -/
def Inst.id' (i : Inst) : Nat :=
  (match i.kind with | .bench => 0 | .marver => 1 | .gather => 2 | .jacks => 3 | .lehr => 4 | .pontil => 5) * 128
    + i.die * 64 + i.idx
/-- The first access to a Gated or Retained instance wakes it (R412). -/
def Mach.wakeInst (m : Mach) (i : Inst) : Mach :=
  { m with power := { m.power with insts := mapDel m.power.insts (Inst.id' i) } }

/-- Count an instance's accesses to tiles, and the sectors of them that cross the Seam, by the die of the instance, for the planner
(R264). -/
def Mach.noteTiles (m : Mach) (p : Nat) (i : Inst) (ws : List (Nat × Nat)) : Mach :=
  ws.foldl (fun m w =>
    match m.tensor? p w.1 with
    | none => m
    | some t =>
      (m.farCount i.die (t.tileAddr w.2) (t.tileLen w.2)).updTensor p w.1 fun t => t.setMark w.2 fun x =>
        if i.die = 0 then { x with near0 := x.near0 + 1 } else { x with near1 := x.near1 + 1 }) m

/-- An operation issues: it is in flight, and the context goes on (R34). -/
def Mach.takeOff (m : Mach) (c : Nat) (inst : Option Inst) (outs : List (Nat × Nat)) (ws : List TileWrite)
    (ready : Bool) : Mach :=
  let op := (m.ctx c).pc
  let m := match inst with | some i => m.wakeInst i | none => m
  (m.updCtx c fun x => { x with flights := x.flights ++ [⟨op, inst, outs, ws, ready, false⟩] }).advance c

/-- An operation faults as it runs: its output tiles hold undefined values (R52). -/
def Mach.opFault (m : Mach) (c : Nat) (outs : List (Nat × Nat)) (f : FaultInfo) : Mach :=
  let x := m.ctx c
  let m := outs.foldl (fun m w =>
    match m.tensor? x.part w.1 with
    | none => m
    | some t =>
      if !m.inBounds x.part (t.tileAddr w.2) (t.tileLen w.2) then m else
      let (m, bs) := m.freeBytes (t.tileLen w.2)
      m.writeTile 0 x.part w.1 w.2 bs) m
  m.faultCtx c x.pc f

/-- The logical coordinates of a tile. -/
def Mach.coordOf (m : Mach) (p h k : Nat) : Dim4 :=
  match m.tensor? p h with
  | some t => Dim4.ofLin t.desc.tiles k
  | none => ⟨0, 0, 0, 0⟩
/-- The stream that uses a handle whose descriptor or history record is damaged at address `b` faults, and MEM_UE_METADATA is raised
(R260). -/
def Mach.metaFault (m : Mach) (p h k b : Nat) : Mach × FaultInfo :=
  let y := match mapGet m.chk b with | some d => checkSyn d | none => Syn.zero
  ((m.memError b y 3 255 0).fwEvent evMemUeMetadata (match tierOf b with | some (_, d) => d | none => 0) 0 (some p)
    (toLe 8 b ++ toLe 4 h), { code := fcPoison, handle := h, coord := m.coordOf p h k, phys := b })
/-- What keeps a station from reading a tile: there is no tensor, the tile lies out of bounds, a record of it is damaged (R45,
R260). -/
def Mach.tileFault (m : Mach) (p h k : Nat) : Option (Mach × FaultInfo) :=
  match m.tensor? p h with
  | none => some (m, { code := fcInternal, handle := h })
  | some t =>
    let a := t.tileAddr k
    if !m.inBounds p a (t.tileLen k) then
      some (m.boundsFault p a (t.tileLen k) 0,
        { code := fcBounds, handle := h, coord := m.coordOf p h k, phys := m.firstOut p a (t.tileLen k) })
    else (m.metaBad p h).map (m.metaFault p h k)
/-- A handle that an operation uses and a damaged codeword of its records. -/
def Mach.usesBad (m : Mach) (p : Nat) (o : Op) : Option (Nat × Nat) :=
  let more : List Nat := if o.kind = .update then (o.refs.drop 1).flatMap fun r => [r.handle + 1, r.handle + 2] else []
  (o.refs.map (fun r => r.handle) ++ more).findSome? fun h =>
    if (m.tensor? p h).isSome then (m.metaBad p h).map fun b => (h, b) else none
/-- Read whole tiles for a station: bytes, or the fault they give (R45, R260). -/
def Mach.fetchTiles (m : Mach) (p : Nat) : List (Nat × Nat) → Mach × List Bytes × Option FaultInfo
  | [] => (m, [], none)
  | (h, k) :: rest =>
    match m.tileFault p h k with
    | some (m, f) => (m, [], some f)
    | none =>
      let (m, bs, bad) := m.readTile 0 p h k
      match bad with
      | some b => (m, [], some { code := fcPoison, handle := h, coord := m.coordOf p h k, phys := b })
      | none =>
        let (m, more, f) := m.fetchTiles p rest
        (m, bs :: more, f)

/-- A fault of an operation about to issue. A FAULT_BOUNDS of a station also counts as FAULT_INTERNAL (R45). -/
def Mach.stationFault (m : Mach) (c : Nat) (outs : List (Nat × Nat)) (f : FaultInfo) : Mach :=
  let m := m.opFault c outs f
  if f.code = fcBounds then m.faultCtx c (m.ctx c).pc { f with code := fcInternal } else m

/-- Issue an operation on a station instance: when the context may issue it and the instance accepts it, `run` computes
from the operation and the partition what happens. Work tagged with another partition than the instance serves raises
FAULT_INTERNAL (R110 and the like). -/
def Mach.onStation (m : Mach) (c n : Nat) (k : OpKind) (st : StKind) (run : Mach → Op → Nat → Inst → Mach) : Mach :=
  match m.issuable c k with
  | none => m
  | some o =>
    let p := (m.ctx c).part
    let i := instOf st n
    if !m.instReady p i then m
    else if m.instPart i ≠ p then (m.opFault c [] { code := fcInternal })
    else match m.usesBad p o with
      | some (h, b) => let (m, f) := m.metaFault p h 0 b; m.opFault c [] f
      | none => run m o p i

/-! ### Completion (R35, R42, R375) -/

/-- A parity mismatch found (R375): the flag, the count and one event. -/
def Mach.parityFound (m : Mach) (d s : Nat) : Mach :=
  match blockAt d s, m.parityBad d s with
  | some (b, i), some off =>
    match lockBits b with
    | some (_, some pb) =>
      if m.bit b d i 4 pb then m
      else ((m.setBit b d i 4 pb).count .gcnt d 0 0x14 1).hwEvent evCfgParity d s off
    | _ => (m.count .gcnt d 0 0x14 1).hwEvent evCfgParity d s off
  | _, _ => m

/-- The roles of R196. -/
inductive TensorRole where
  | keepPoint | recomputed | other
  deriving DecidableEq, Repr
/-- The role of a tensor in the context's group: of its activation-class tensors, one that the forward program writes and the
backward program reads but does not write is a keep point; one that both write is recomputed (R196). -/
def Mach.roleOf (m : Mach) (c h : Nat) : TensorRole :=
  let x := m.ctx c
  let ops (k : ProgKind) : List Op := (m.ctxsOf x.part x.group).flatMap fun c' =>
    match m.prog? x.part (m.ctx c').prog with | some q => if q.kind = k then q.ops else [] | none => []
  let has (rs : Op → List TileRef) (k : ProgKind) : Bool := (ops k).any fun o => (rs o).any fun r => r.handle == h
  let act := match m.tensor? x.part h with | some t => t.desc.cls == 1 | none => false
  if !(act && has Op.outRefs .forward) then .other
  else if has Op.outRefs .backward then .recomputed
  else if has Op.inRefs .backward then .keepPoint else .other
def Mach.keptBy (m : Mach) (c h : Nat) : Bool := m.roleOf c h == .keepPoint

/-- The planner may retain a tile that the forward program has written of a recomputed tensor, in the partition's HBM outside the
reserve (R164, R198). Whether it does, where there is room, is free. -/
def Mach.retain (m : Mach) (c h k : Nat) (bs : Bytes) : Mach :=
  let x := m.ctx c
  let fwd := match m.prog? x.part x.prog with | some q => q.kind == .forward | none => false
  if !fwd || m.roleOf c h != .recomputed then m
  else match m.room x.part .hbm none (roundUp bs.length 64) 0 with
    | none => m
    | some a =>
      let on := Config.retain m.freeCtr
      let m := { m with freeCtr := m.freeCtr + 1 }
      if on then (m.memPut 0 a bs).updGroup x.part x.group fun g =>
          { g with saves := g.saves ++ [⟨h, k, a, roundUp bs.length 64, []⟩] }
      else m

/-- A write of a tile outside its partition's bounds is not performed: what it faults with (R45). -/
def Mach.outFault (m : Mach) (p : Nat) (w : TileWrite) : Option FaultInfo :=
  match m.tensor? p w.handle with
  | none => none
  | some t =>
    let a := t.tileAddr w.tile
    let n := t.tileLen w.tile
    if m.inBounds p a n then none
    else some { code := fcBounds, handle := w.handle, coord := Dim4.ofLin t.desc.tiles w.tile, phys := m.firstOut p a n }
/-- Write what an operation in flight wrote, and the faults of what it may not write. -/
def Mach.landWrites (m : Mach) (c : Nat) (ws : List TileWrite) : Mach × List FaultInfo :=
  let p := (m.ctx c).part
  ws.foldl (fun q w =>
    let m := q.1
    match m.outFault p w with
    | some f => (m.boundsFault p f.phys 1 0, q.2 ++ [f])
    | none =>
      let bs := match m.tensor? p w.handle with | some t => w.bytes.take (t.tileLen w.tile) | none => []
      (if w.poison then m.writeBad p w.handle w.tile bs else (if m.keptBy c w.handle then m.writeKept 0 p w.handle w.tile bs
        else m.writeTile 0 p w.handle w.tile bs).retain c w.handle w.tile bs, q.2)) (m, [])

/-- The counters of an instance that measure time alone, in arithmetic cycles (R110, R191, R244, R334, R383). -/
def timeRegs : StKind → List Nat
  | .marver => [0x2C] | .gather => [0x3C] | .lehr => [0x38] | .pontil => [0x30] | .jacks => [0x24] | .bench => []
/-- The cycles that an operation took on its instance: the manual's rules do not fix them, so each counter goes up by a free
number (log entry 25). -/
def Mach.tookTime (m : Mach) : Option Inst → Mach
  | none => m
  | some i => (timeRegs i.kind).foldl (fun m off => m.freeWord.1.countAny i.kind.blk i.die i.idx off m.freeWord.2.toNat) m

/-- The engines reserved to a COLLECTIVE come free when it completes or faults (R324). -/
def Mach.freeEngines (m : Mach) (c op : Nat) : Mach :=
  { m with colls := m.colls.map fun (k : Coll) => if k.ctx == c && k.op == op then { k with jacks := [] } else k }
/-- An operation in flight completes: its outputs are written, its signal given once every earlier operation of the
stream has completed, and a transition that waited for it takes effect. One that may not write faults its stream, with
FAULT_INTERNAL beside FAULT_BOUNDS, and gives no signal (R45, R52). -/
def Mach.landFlight (m : Mach) (c op : Nat) : Mach :=
  match (m.ctx c).flights.find? fun f => f.op == op with
  | none => m
  | some f =>
    let (m, bad) := m.landWrites c f.writes
    let m := bad.foldl (fun m x => (m.faultCtx c op x).faultCtx c op { x with code := fcInternal }) m
    let sg := match (m.opsOf c)[op]? with
      | some o => if o.signalEn && bad.isEmpty then [(op, o.signalCtr)] else []
      | none => []
    let m := (m.freeEngines c op).updCtx c fun x =>
      { x with flights := x.flights.filter (fun f => f.op != op), signals := x.signals ++ sg }
    (m.giveSignals c).settleCtx c

/-- An operation in flight faults: its outputs hold undefined values, and it is no longer in flight (R52). -/
def Mach.flightFault (m : Mach) (c op : Nat) (f : FaultInfo) : Mach :=
  let p := (m.ctx c).part
  let outs := match (m.ctx c).flights.find? fun x => x.op == op with | some x => x.outs | none => []
  let m := outs.foldl (fun m w =>
    match m.tensor? p w.1 with
    | none => m
    | some t =>
      if !m.inBounds p (t.tileAddr w.2) (t.tileLen w.2) then m else
      let (m, bs) := m.freeBytes (t.tileLen w.2)
      m.writeTile 0 p w.1 w.2 bs) m
  let m := (m.freeEngines c op).faultCtx c op f
  let m := m.updCtx c fun x => { x with flights := x.flights.filter fun x => x.op != op }
  (m.giveSignals c).settleCtx c
/-- As `flightFault`; a FAULT_BOUNDS of a station also counts as FAULT_INTERNAL (R45). -/
def Mach.flightBounds (m : Mach) (c op : Nat) (f : FaultInfo) : Mach :=
  let m := m.flightFault c op f
  if f.code = fcBounds then m.faultCtx c op { f with code := fcInternal } else m

end Sys2Proof.Machine
end

