-- ==== Sys2Proof/Machine/Encode.lean ====
section
/-! DEFINITION. What the encoders share: the ladder's forms, the fall-back reserve, abort of a step, the reheat loop, the
scale-history record and the counters (R84 to R104, R153 to R165, R204). -/

namespace Sys2Proof.Machine

/-! ### Policy and programs of a group -/

/-- The scale policy of a partition (R109). -/
def Mach.scalePolicy (m : Mach) (p : Nat) : ScalePolicy :=
  let g (s : Nat) : Nat := m.dnum (0x4100 + p) s
  { window := g 1, headroom := g 2, zpMode := g 3 == 1, allowQ4 := g 4, allowQ8 := g 5, allowW16 := g 6
    entryBits := g 7, exitBits := g 8, entrySteps := g 9, exitSteps := g 0x0A, minActive := g 0x0B }

/-- The operations of a group's programs of one kind, by context. -/
def Mach.groupOps (m : Mach) (p g : Nat) (k : ProgKind) : List Op :=
  (m.ctxsOf p g).flatMap fun c =>
    match m.prog? p (m.ctx c).prog with | some q => if q.kind = k then q.ops else [] | none => []
/-- Every operation of a group. -/
def Mach.allOps (m : Mach) (p g : Nat) : List Op := (m.ctxsOf p g).flatMap m.opsOf
/-- The kind of a context's program. -/
def Mach.ctxKind (m : Mach) (c : Nat) : Option ProgKind := (m.prog? (m.ctx c).part (m.ctx c).prog).map (·.kind)
/-- The step or repetition number that keys the generators (R180). -/
def Mach.keyStep (m : Mach) (c : Nat) : Nat :=
  match m.group? (m.ctx c).part (m.ctx c).group with | some g => g.first + (m.ctx c).rep | none => 0

/-- A context of a group that does not train encodes a tensor in its repetition (R103). -/
def Mach.noteRep (m : Mach) (c h : Nat) : Mach :=
  let x := m.ctx c
  m.updGroup x.part x.group fun g =>
    if g.kind == .training || g.repEnc.contains (x.rep, h) then g else { g with repEnc := g.repEnc ++ [(x.rep, h)] }

/-! ### The ladder's forms (R157, R161) -/

def Fmt.rank : Fmt → Nat
  | .q4 => 0 | .q8 => 1 | .w16 => 2 | _ => 0
def widerFmt (a b : Fmt) : Fmt := if a.rank < b.rank then b else a
/-- The form a level gives a class. -/
def levelForm (cls level : Nat) (dflt : Fmt) : Fmt :=
  if level < 2 then dflt
  else if cls = 0 then (if level = 2 then .q8 else .w16) else if level < 4 then .q8 else .w16
/-- Is the tensor subject to the ladder (R157)? -/
def HDesc.subject (d : HDesc) : Bool := d.layer != 0xFFFF && d.cls ≤ 2
/-- Does an UPDATE of the group name the weight as its working copy? -/
def Mach.isWorkingCopy (m : Mach) (p g h : Nat) : Bool :=
  (m.allOps p g).any fun o => o.kind == .update && (o.refs.getD 2 ⟨0, 0, 0, 0, 0⟩).handle == h
/-- The level of a layer for a group: its record, not below the floor in force; or the partition's floor outside training
(R160, R161, R165). -/
def Mach.layerLevel (m : Mach) (p g layer : Nat) : Nat :=
  match m.group? p g with
  | some x => if x.kind = .training then max (mapGetD x.ladder layer {}).level x.floor else m.dnum (0x4110 + p) 4
  | none => m.dnum (0x4110 + p) 4
/-- The form in which a group encodes a tensor. -/
def Mach.ladderForm (m : Mach) (p g : Nat) (t : Tensor) : Fmt :=
  let d := t.desc
  if !d.subject || !d.fmt.isBlock || d.fixedScale || (d.cls == 0 && !m.isWorkingCopy p g t.handle) then d.fmt
  else widerFmt d.fmt (levelForm d.cls (m.layerLevel p g d.layer) d.fmt)
/-- The forms a tensor can hold (R73, R157): a weight holds a wider one only where an UPDATE of a program names it as its working
copy. A weight that a loaded program's UPDATE has named keeps that when the program is unloaded, until its handle is written anew
or freed: the spec does not say (the model's choice, log entry 72). -/
def Tensor.forms (t : Tensor) : List Fmt :=
  let d := t.desc
  if d.subject && d.fmt.isBlock && !d.fixedScale && (d.cls != 0 || t.copy)
  then [.q4, .q8, .w16].filter fun f => d.fmt.rank ≤ f.rank else [d.fmt]

/-! ### Reading tiles as values -/

/-- A malformed record is counted once, latched and reported (R74). `st`: bit of the status register, counter and handle
register; a bench and a Jacks engine have none. The detail word holds the handle and the low bits of the tile number (log
entry 8). -/
def Mach.noteFormat (m : Mach) (b : Blk) (d i : Nat) (st : Option (Nat × Nat × Nat)) (h k : Nat) : Mach :=
  let m := match st with
    | none => m
    | some (bit, cnt, eh) =>
      let m := m.count b d i cnt 1
      if m.bit b d i 4 bit then m else (m.setBit b d i 4 bit).putReg b d i eh h
  m.hwEvent evTileFormat d (slotOf b i) (h + 2 ^ 20 * (k % 4096))
/-- Where a station notes a malformed record. -/
def fmtRegs : Blk → Option (Nat × Nat × Nat)
  | .marver => some (4, 0x28, 0x30)
  | .lehr => some (4, 0x34, 0x3C)
  | .gather => some (4, 0x38, 0x40)
  | _ => none

/-- Check a record's form and note a malformed one. -/
def Mach.checkRec (m : Mach) (b : Blk) (d i : Nat) (t : Tensor) (k : Nat) (bs : Bytes) : Mach :=
  if !t.desc.fmt.isBlock || recWf t.forms (t.geom k) t.desc.hotLimit bs then m
  else m.noteFormat b d i (fmtRegs b) t.handle k
/-- A tile decoded as blocks. A record written by the host or the fabric may name a form that the tensor can hold but that is
wider than the one the tile is held in: it is decoded in that form, and what it lacks beyond the bytes held reads as 0 (the
model's choice, log entry 72). -/
def Tensor.blk (t : Tensor) (k : Nat) (bs : Bytes) : BlkTile :=
  readBlk t.forms t.desc.fmt (t.geom k) t.desc.hotLimit bs
/-- A tile's values as FP32, in the basis it is stored in. -/
def Tensor.values (t : Tensor) (k : Nat) (bs : Bytes) : Dim4 → Word :=
  if t.desc.fmt.isBlock then let x := t.blk k bs; fun i => (x.lane i).value x.base
  else plainValue t.desc.fmt (t.geom k) bs
/-- A tile's values in the unrotated basis (R88). -/
def Tensor.valuesU (t : Tensor) (k : Nat) (bs : Bytes) : Dim4 → Word :=
  if t.desc.fmt.isBlock then unrotated (t.geom k) t.desc.rotSize t.desc.rotSeed (t.values k bs) else t.values k bs
/-- Table a function of the places of a tile, so that it is computed once. -/
def Geom.memo (g : Geom) (v : Dim4 → Word) : Dim4 → Word :=
  let a := (g.all.map v).toArray
  fun i => a.getD (g.pos i) 0

/-! ### Aborting a step (R164, R188, R204) -/

/-- The collective group over which a training group agrees; none: its own module alone (R202). -/
def Mach.statusCg (m : Mach) (p g : Nat) : Option Nat :=
  if m.dnum (0x2030 + p) 1 ≠ g then none
  else
    let c := m.dnum (0x2030 + p) 2
    if c < 32 ∧ cgDefined (m.cgRec c) ∧ leAt (m.cgRec c) 0 1 = p then some c else none
/-- The opportunistic saves of a partition: group number and save, oldest first within a group. -/
def Mach.savesOf (m : Mach) (p : Nat) : List (Nat × Save) :=
  (m.groups.filter fun g => g.part == p).flatMap fun g => g.saves.map fun s => (g.num, s)
/-- reserve_lent is what the groups of a partition have lent in their steps (R164, R166). -/
def Mach.syncLent (m : Mach) (p : Nat) : Mach :=
  m.dset (0x4110 + p) 0x13 (((m.groups.filter fun g => g.part == p).flatMap fun g => g.lent).map (·.2)).sum
/-- The planner drops a save and lends its memory to the reserve until the step ends (R164). -/
def Mach.lendSave (m : Mach) (p : Nat) (q : Nat × Save) : Mach :=
  (m.updGroup p q.1 fun g => { g with saves := g.saves.erase q.2, lent := g.lent ++ [(q.2.addr, q.2.bytes)] }).syncLent p
/-- A group's step has ended: what it lent is lent no more (R164). -/
def Mach.endLent (m : Mach) (p g : Nat) : Mach := (m.updGroup p g fun x => { x with lent := [] }).syncLent p
/-- Bytes of the reserve now allocated. -/
def Mach.reserveUsed (m : Mach) (p : Nat) : Nat :=
  ((m.tensors.filter fun t => t.part == p).map fun t =>
    ((t.marks.filter fun q => q.2.charged).map fun q => t.tileLen q.1).sum).sum
/-- Note the largest use of the reserve, memory lent with it (R166, R200). -/
def Mach.notePeak (m : Mach) (p g : Nat) : Mach :=
  let u := m.reserveUsed p + m.dnum (0x4110 + p) 0x13
  let m := if m.dnum (0x4110 + p) 0x12 < u then m.dset (0x4110 + p) 0x12 u else m
  m.updGroup p g fun x => { x with peak := max x.peak u }
/-- RESERVE_LENT with the bytes lent since `before` (R164). -/
def Mach.tellLent (m : Mach) (p before : Nat) : Mach :=
  let n := m.dnum (0x4110 + p) 0x13 - before
  if n = 0 then m else m.fwEvent evReserveLent (partDie m.mode p) 0 (some p) (toLe 8 n)
/-- Every save of the partition is lent, and still the allocation does not fit. -/
def Mach.lendAll (m : Mach) (p : Nat) : Mach :=
  ((m.savesOf p).foldl (fun m q => m.lendSave p q) m).tellLent p (m.dnum (0x4110 + p) 0x13)

/-- The module meets, or is told of, a cause that ends the step: no further operation of it issues. `own` says that this
module met it and tells the others. No save is left where the reserve was the cause (R164). -/
def Mach.abortStep (m : Mach) (p g code request : Nat) (own : Bool) : Mach :=
  match m.group? p g with
  | none => m
  | some x =>
    if x.kind ≠ .training then m else
    let m := if own && code == 3 then (m.lendAll p).notePeak p g else m
    let m' := m.updGroup p g fun x => { x with abortCode := max x.abortCode code, request := max x.request request }
    if own && x.abortCode = 0 then
      match m.statusCg p g with
      | some c => m'.noticeAll c nkAbort x.step (BitVec.ofNat 32 x.epoch) (toLe 4 code ++ zeroBytes 12)
      | none => m'
    else m'

/-! ### The fall-back reserve (R162 to R164) -/

/-- Give a reserve place back: the tile takes its regular place and its descriptor's form. -/
def TileMark.dropWide (x : TileMark) : TileMark :=
  { x with place := none, form := none, charged := false, apart := false, stringer := false }
/-- Places of the reserve that are no longer charged. -/
def Mach.dropStale (m : Mach) (p : Nat) : Mach :=
  { m with tensors := m.tensors.map fun t =>
      if t.part ≠ p then t else
      (t.marks.filter fun q => q.2.form.isSome && !q.2.charged && !q.2.apart).foldl (fun t q => t.setMark q.1 TileMark.dropWide) t }
/-- Ranges of memory in rising order, those that touch joined. -/
def mergeRanges (rs : List (Nat × Nat)) : List (Nat × Nat) :=
  ((sortBy (·.1) rs).foldl (fun (a : List (Nat × Nat)) r => match a with
    | [] => [r]
    | q :: t => if q.1 + q.2 = r.1 then (q.1, q.2 + r.2) :: t else r :: a) []).reverse
/-- An address for `n` bytes of the reserve, at the top of the partition's HBM region, or of memory lent to it (R162, R164). -/
def Mach.reserveRoom (m : Mach) (p n : Nat) : Option Nat :=
  let (b, sz) := partRegion m.mode p .hbm
  let r := m.dnum (0x4110 + p) 0x10
  if r + m.dnum (0x4110 + p) 0x13 < m.reserveUsed p + n then none
  else
    let lent := (m.groups.filter fun g => g.part == p).flatMap fun g => g.lent
    (mergeRanges ((b + sz - r, r) :: lent)).findSome? fun q =>
      (m.fill (max 1 n) 0 (q.1 + q.2) (sortBy (·.1) m.heldRanges) q.1 1).head?.map (·.1)
/-- Drop saves until `n` bytes fit the reserve; `fuel` bounds the saves dropped. -/
def reserveLend (p n : Nat) : Nat → Mach → Option (Mach × Nat)
  | 0, m => (m.reserveRoom p n).map fun a => (m, a)
  | fuel + 1, m =>
    match m.reserveRoom p n with
    | some a => some (m, a)
    | none => match m.savesOf p with
      | [] => none
      | q :: _ => reserveLend p n fuel (m.lendSave p q)
/-- Room of the reserve: places no longer charged are taken back first, then saves are dropped (R163, R164). -/
def Mach.reserveTake (m : Mach) (p n : Nat) : Option (Mach × Nat) :=
  match m.reserveRoom p n with
  | some a => some (m, a)
  | none =>
    let m := m.dropStale p
    (reserveLend p n (m.savesOf p).length m).map fun q => (q.1.tellLent p (m.dnum (0x4110 + p) 0x13), q.2)

/-- Make a tile ready to hold a record of a form: in the descriptor's form its regular place, in a wider one a place of the
reserve (R163); none where the reserve has no room. Outside training the place lasts, and where the partition has no reserve set
aside ordinary room serves (log entry 9). -/
def Mach.shapeTile (m : Mach) (p g h k : Nat) (f : Fmt) : Option Mach :=
  match m.tensor? p h with
  | none => none
  | some t =>
    let x := t.mark k
    let train : Bool := match m.group? p g with | some y => y.kind == .training | none => false
    if f = t.desc.fmt then
      some (if x.form.isSome then m.updTensor p h fun t => t.setMark k TileMark.dropWide else m)
    else if x.form = some f ∧ (if train then x.charged else x.apart) then some m
    else
      let n := tileBytes f (t.geom k) t.desc.hotLimit
      let m0 := m.updTensor p h fun t => t.setMark k fun x =>
        if x.form.isSome then x.dropWide else { x with stringer := false }
      let place (m : Mach) (a : Nat) (charged apart : Bool) : Mach :=
        m.updTensor p h fun t => t.setMark k fun x =>
          { x with place := some a, form := some f, charged := charged, apart := apart }
      if train then (m0.reserveTake p n).map fun q => (place q.1 q.2 true false).notePeak p g
      else if m0.dnum (0x4110 + p) 0x10 = 0 then (m0.room p .hbm none n 0).map fun a => place m0 a false true
      else (m0.reserveTake p n).map fun q => (place q.1 q.2 true true).notePeak p g

/-! ### One encoding (R84, R100, R153 to R156) -/

/-- Bases tried: the tile base, then raised by one up to `raises` times, while the overflow exceeds the threshold. -/
def reheatLoop (e : EncCtx) (v : Dim4 → Word) (thr : Nat) : Nat → Nat → Bool → (Nat × Bytes × EncStat × Bool)
  | 0, bt, up => let r := e.encode bt up v; (bt, r.1, r.2, up)
  | n + 1, bt, up =>
    let r := e.encode bt up v
    if r.2.sat ≤ thr || 255 ≤ bt then (bt, r.1, r.2, up) else reheatLoop e v thr n (bt + 1) true

/-- Where an encoder counts: tiles (if it has such a counter), escapes, saturated, lost, cold, rotation (if any). -/
structure EncRegs where
  tiles : Option Nat
  esc   : Nat
  sat   : Nat
  lost  : Nat
  cold  : Nat
  rot   : Option Nat
def marverRegs : EncRegs := ⟨some 0x10, 0x14, 0x18, 0x1C, 0x20, some 0x24⟩
def lehrRegs : EncRegs := ⟨none, 0x24, 0x28, 0x2C, 0x30, none⟩

/-- What an encoding is for: an operation of the forward or the backward program; one of another program, whose reheats the ladder
does not count (R159); a working copy, whose reheats count for the next step (R194); a format reheat of a step about to start; a
rebuild after a restore, whose reheats the restored records have already (R212, R218, R221; log entry 73); a re-emission, which
counts nowhere (R210). -/
inductive EncUse where
  | step | aside | working | boundary | rebuild | reemit
  deriving DecidableEq, Repr

/-- Encode values into a tile of a block tensor: the record to write, with every count and record the rules keep; none
where the reserve has no room. -/
def Mach.encodeInto (m : Mach) (inst : Option Inst) (regs : EncRegs) (p g h k : Nat) (use : EncUse) (v : Dim4 → Word) :
    Mach × Option TileWrite :=
  match m.tensor? p h with
  | none => (m, none)
  | some t =>
    let f := m.ladderForm p g t
    match m.shapeTile p g h k f with
    | none => (m.abortStep p g 3 (tileBytes f (t.geom k) t.desc.hotLimit) true, none)
    | some m =>
      let pol := m.scalePolicy p
      let gm := t.geom k
      let d := t.desc
      let e : EncCtx := { g := gm, form := f, hotLimit := d.hotLimit, rotSize := d.rotSize, rotSeed := d.rotSeed
                          hot := match t.hist with | some x => x.hot.map (·.channel) | none => []
                          pol := pol }
      let v := gm.memo v
      let ms := e.measure v
      let cold := match t.hist with | some x => x.cold | none => false
      let base := match t.hist with
        | some x => if x.cold then coldBase f pol.headroom ms.tmax else x.base
        | none => d.scaleBase
      let (bt, bytes, st, up) :=
        reheatLoop e v d.ovfThreshold (if d.fixedScale then 0 else m.dnum (0x4110 + p) 1) base false
      let mark := t.mark k
      let counts := use != .reemit
      -- counters of the instance
      let m := match inst with
        | none => m
        | some i =>
          let b := i.kind.blk
          let m := match regs.tiles with | some o => m.count b i.die i.idx o 1 | none => m
          let m := match regs.rot with
            | some o => (m.count b i.die i.idx o ms.rotBad).dadd (0x4100 + p) 0x14 ms.rotBad
            | none => m
          ((((m.count b i.die i.idx regs.esc st.esc).count b i.die i.idx regs.sat st.sat).count b i.die i.idx regs.lost
            st.lost).count b i.die i.idx regs.cold cold.toNat)
      let m := if d.ovfThreshold < st.sat && !d.fixedScale then
          let co := Dim4.ofLin d.tiles k
          (m.dadd (0x4110 + p) 0x15 1).fwEvent evReheatCeiling (match inst with | some i => i.die | none => partDie m.mode p)
            (match inst with | some i => slotOf i.kind.blk i.idx | none => 0) (some p)
            (toLe 4 h ++ toLe 4 co.d0 ++ toLe 4 co.d1 ++ toLe 2 co.d2 ++ toLe 2 co.d3)
        else m
      if !counts then (m, some ⟨h, k, bytes, false⟩) else
      -- the group's counts of the step
      let newNow := up && !mark.raised && (use == .step || use == .boundary)
      let newNext := up && !mark.raisedNext && use == .working
      let subj := d.subject
      let m := m.updGroup p g fun x =>
        { x with
          encoded := if !x.encoded.contains h && use != .rebuild then x.encoded ++ [h] else x.encoded
          ceiling := if d.ovfThreshold < st.sat && !d.fixedScale then x.ceiling + 1 else x.ceiling
          rotBad := x.rotBad + ms.rotBad
          reheats := if newNow && subj then mapSet x.reheats d.layer (mapGetD x.reheats d.layer 0 + 1) else x.reheats
          nextReheats := if newNext && subj then mapSet x.nextReheats d.layer (mapGetD x.nextReheats d.layer 0 + 1)
                         else x.nextReheats
          fixedSat := if t.hist.isNone then x.fixedSat + st.sat else x.fixedSat
          fixedLost := if t.hist.isNone then x.fixedLost + st.lost else x.fixedLost }
      -- the tensor's step record
      let m := match if use = .rebuild then none else t.hist with
        | none => m
        | some x =>
          let x := x.fold ms st (up && !mark.folded)
          m.setHist p h (if up then x.raise f pol.headroom bt else x)
      let m := m.updTensor p h fun t => t.setMark k fun y =>
        { y with raised := y.raised || newNow, raisedNext := y.raisedNext || newNext
                 folded := y.folded || (up && use != .rebuild) }
      (m, some ⟨h, k, bytes, false⟩)

end Sys2Proof.Machine
end

