-- ==== Sys2Proof/Machine/Stations.lean ====
section
/-! DEFINITION. The tile operations of Gather on local tables, of Marver, of the bench and of the Jacks engines: what each
reads, computes and writes when it issues (spec/04, spec/05, spec/06, spec/09). -/

namespace Sys2Proof.Machine

/-! ### Inputs and outputs -/

/-- A tile's bytes as they lie, unpacked, with no access counted: what an edge tile keeps beyond its extent (R27). -/
def Mach.rawTile (m : Mach) (p h k : Nat) : Bytes :=
  match m.tensor? p h with
  | none => []
  | some t =>
    let bs := m.bytesAt (t.tileAddr k) (t.tileLen k)
    if (t.mark k).stringer then stringerUnpack (t.geom k) t.desc.hotLimit bs else bs
/-- Read an operation's inputs, and go on with their bytes, or fault. -/
def Mach.withInputs (m : Mach) (c p : Nat) (outs ins : List (Nat × Nat)) (k : Mach → List Bytes → Mach) : Mach :=
  let (m, bs, f) := m.fetchTiles p ins
  match f with
  | some x => m.stationFault c outs x
  | none => k m bs
/-- A float tile as a source of the Jacks engines. -/
def Tensor.src (t : Tensor) (k : Nat) (bs : Bytes) : Src := ⟨t.geom k, (t.geom k).memo (t.values k bs)⟩
/-- Write a float output tile: new values inside the extent, the old bytes beyond it; with `acc`, added to the prior
content (R27, R32, R76). -/
def Tensor.writeFloat (t : Tensor) (k : Nat) (old : Bytes) (acc : Bool) (v : Dim4 → Word) : Bytes :=
  let g := t.geom k
  let prior := plainValue t.desc.fmt g old
  writePlain t.desc.fmt g old fun i => accInto acc (prior i) (v i)
/-- What an output tile held before: read as an operand when the operation adds to it. -/
def accIns (acc : Bool) (w : Nat × Nat) : List (Nat × Nat) := if acc then [w] else []
/-- The prior content: the tile as read, or as it lies. -/
def Mach.prior (m : Mach) (p : Nat) (w : Nat × Nat) (bs : List Bytes) (acc : Bool) (k : Nat) : Bytes :=
  if acc then bs.getD k [] else m.rawTile p w.1 w.2

/-! ### Gather (R226 to R230, R237, R238) -/

/-- Count the sectors that a Gather instance reads of whole tiles (R244). -/
def Mach.gatherReads (m : Mach) (i : Inst) (p : Nat) (ins : List (Nat × Nat)) : Mach :=
  ins.foldl (fun m q =>
    match m.tensor? p q.1 with
    | none => m
    | some t =>
      let n := sectorsOf (t.tileAddr q.2) (t.tileLen q.2)
      let far := match tierOf (t.tileAddr q.2) with | some (_, d) => d != i.die | none => false
      (m.count .gather i.die i.idx 0x14 n).count .gather i.die i.idx 0x18 (if far then n else 0)) m
/-- A Gather instance reads an operation's whole tiles. -/
def Mach.gatherInputs (m : Mach) (c p : Nat) (i : Inst) (outs ins : List (Nat × Nat)) (k : Mach → List Bytes → Mach) : Mach :=
  (m.gatherReads i p ins).withInputs c p outs ins k

/-- A copy that meets poison leaves it in the destination, beside what it could read, and faults (R259, R260). -/
def Mach.copyBad (m : Mach) (p : Nat) (a w : Nat × Nat) : Mach :=
  match m.tensor? p a.1, m.tensor? p w.1 with
  | some t, some u =>
    let n := min (t.tileLen a.2) (u.tileLen w.2)
    let m := m.writeTile 0 p w.1 w.2 ((m.rawTile p a.1 a.2).take n)
    let m := (m.sickIn (t.tileAddr a.2) n).foldl (fun m x =>
      m.poisonRange (u.tileAddr w.2 + (max x (t.tileAddr a.2) - t.tileAddr a.2)) 16) m
    m.updTensor p w.1 fun u => u.setMark w.2 fun x => { x with poisoned := true }
  | _, _ => m
/-- COPY (R226). -/
def Mach.copyRun (c : Nat) (m : Mach) (o : Op) (p : Nat) (i : Inst) : Mach :=
  let a := m.refAt p (o.ref 0)
  let w := m.refAt p (o.ref 1)
  let (m, bs, f) := (m.gatherReads i p [a]).fetchTiles p [a]
  let form := match m.tensor? p a.1 with | some t => t.form a.2 | none => .q4
  match m.shapeTile p (m.ctx c).group w.1 w.2 (match m.tensor? p w.1 with
      | some t => if t.desc.fmt.isBlock then form else t.desc.fmt
      | none => form) with
  | none => m.abortStep p (m.ctx c).group 3 (bs.headD []).length true
  | some m => match f with
    | some x => (if x.code = fcPoison then m.copyBad p a w else m).stationFault c (if x.code = fcPoison then [] else [w]) x
    | none => m.takeOff c (some i) [w] [⟨w.1, w.2, bs.headD [], false⟩] true

/-- The elements of an index tile inside its extent. -/
def Tensor.indices (t : Tensor) (k : Nat) (bs : Bytes) : List Nat :=
  let g := t.geom k
  (g.all.filter g.inside).map (indexValue t.desc.fmt g bs)

/-- A row read by Gather: its packet, or why it can not be read; sectors, counters and access counts as R225, R241 and R244 say. -/
def Mach.readRow (m : Mach) (i : Inst) (p h row : Nat) : Mach × Bytes × Option FaultInfo :=
  match m.tensor? p h with
  | none => (m, [], some { code := fcInternal, handle := h })
  | some t =>
    let k := row / t.desc.tile.d1
    match m.tileFault p h k with
    | some (m, f) => (m, [], some f)
    | none =>
    let r := row % t.desc.tile.d1
    let g := t.geom k
    let f := t.desc.fmt
    let nb := g.r / 32
    let base := t.tileAddr k
    let raw := m.rawTile p h k
    -- bytes of the record, to whole sectors, over what is known of it: where some are poisoned is kept
    let sec (off len : Nat) : Nat × Nat :=
      let lo := (base + off) / 64 * 64
      (max lo base - base, min (roundUp (base + off + len) 64) (base + t.tileLen k) - max lo base)
    let read (a : Mach × Bytes × Option Nat) (off len : Nat) : Mach × Bytes × Option Nat :=
      let (o, n) := sec off len
      let (m, bs, bad) := a.1.readTilePart 0 p h k o n
      (m, overlay a.2.1 o bs, a.2.2.orElse fun _ => bad)
    let a := read (read (m, raw, none) (16 + f.codeBytes * nb * r) (f.codeBytes * nb)) (recHdrOff f g + 2 * nb * r) (2 * nb)
    -- the side list of each segment in which the row has a block with X > 0
    let blks := (List.range nb).map fun q => nb * r + q
    let (a, nside) := (dedup (blks.map (· / 2048))).foldl (fun (s : (Mach × Bytes × Option Nat) × Nat) seg =>
      let mine := blks.filter fun b => b / 2048 == seg
      if !mine.any fun b => (recBlkHdr f g s.1.2.1 b).x != 0 then s else
      let so := recSideOff f g + 2064 * seg
      let known := overlay s.1.2.1 so (s.1.1.readTilePart 0 p h k so 2064).2.1
      let side := sideSectors (base + so) (segEntries f g known seg) (mine.headD 0 % 2048) mine.length
      (side.foldl (fun a j => read a ((base + so) / 64 * 64 + 64 * j - base) 1) s.1, s.2 + side.length)) (a, 0)
    let (m, full, bad) := a
    let ns := sectorsOf (base + 16 + f.codeBytes * nb * r) (f.codeBytes * nb)
      + sectorsOf (base + recHdrOff f g + 2 * nb * r) (2 * nb) + nside
    let far := match tierOf base with | some (_, d) => d != i.die | none => false
    let m := ((m.count .gather i.die i.idx 0x10 1).count .gather i.die i.idx 0x14 ns).count .gather i.die i.idx 0x1C nside
    let m := if far then (m.count .gather i.die i.idx 0x18 ns).dadd 0x6001 0x12 ns else m
    let m := (m.dadd (0x2048 + p) 0x10 1).dadd (0x2048 + p) 0x12 (if t.cached k then 1 else 0)
    let m := m.updTensor p h fun t => t.setMark k fun x =>
      let x := { x with count := min (2 ^ 24 - 1) (x.count + 1) }
      if i.die = 0 then { x with near0 := x.near0 + 1 } else { x with near1 := x.near1 + 1 }
    (m, rowPacket f g full r, bad.map fun b => { code := fcPoison, handle := h, coord := ⟨0, k, 0, 0⟩, phys := b })

/-- The values of a row along the embedding dimension in the unrotated basis, from its packet (R72, R88, R230). -/
def rowValues (d : HDesc) (pkt : Bytes) : List Word :=
  let nb := d.tile.d0 / 32
  let v := ((List.range d.tile.d0).map fun r => if r < d.ext.d0 then packetValue d.fmt nb pkt r else 0)
  if d.rotSize = 0 then v
  else
    let n := rotN d.rotSize
    ((pieces n (d.tile.d0 / n) v).zipIdx).flatMap fun q => unrotateBlock n d.rotSeed (q.2 * n) q.1

/-- What a bagged lookup reads of its index and offsets tiles: the indices, and the bounds of the bags (R228). -/
structure Bags where
  idx    : List Nat
  fmt    : Fmt
  bounds : List Nat
  nbags  : Nat
  deriving DecidableEq, Repr

/-- Read the bags of a BAG operation, counting offsets out of order and padding (R228, R229). In an offsets tile at its tensor's edge
the elements beyond the extent, which R27 reads as 0, are not counted as out of order: the spec does not say (the model's choice, log
entry 77). -/
def Mach.readBags (m : Mach) (c : Nat) (o : Op) (p : Nat) (i : Inst) (ib ob : Bytes) : Mach × Bags :=
  match m.tensor? p (o.ref 1).handle, m.tensor? p (o.ref 2).handle, m.tensor? p (o.ref 3).handle with
  | some ti, some tof, some tout =>
    let idx := ti.indices (m.refAt p (o.ref 1)).2 ib
    let offs := tof.indices (m.refAt p (o.ref 2)).2 ob
    let bad := badOffsets idx.length offs
    let m := if bad = 0 then m else
      (((m.count .gather i.die i.idx 0x2C bad).setBit .gather i.die i.idx 4 5).dadd (0x2048 + p) 0x14 bad).fwEvent
        evBagOffsets i.die (slotOf .gather i.idx) (some p) (toLe 4 (o.ref 2).handle ++ toLe 4 (m.ctx c).pc)
    let g := tout.geom (m.refAt p (o.ref 3)).2
    let nb := (List.range g.tile.d1).countP fun b => g.inside ⟨0, b, 0, 0⟩
    let bounds := bagBounds idx.length offs
    let pads := ((List.range nb).map fun b =>
      (bagPositions bounds b).countP fun q => padIndex ti.desc.fmt (idx.getD q 0)).sum
    (m.count .gather i.die i.idx 0x30 pads, ⟨idx, ti.desc.fmt, bounds, nb⟩)
  | _, _, _ => (m, ⟨[], .u32, [], 0⟩)

/-- The index positions that name rows, in the order of the bags. -/
def Bags.positions (b : Bags) : List Nat :=
  ((List.range b.nbags).flatMap fun k => bagPositions b.bounds k).filter fun q => !padIndex b.fmt (b.idx.getD q 0)

/-- Pool the bags and take off (R230): `rows` gives each index position's row. -/
def Mach.finishBags (m : Mach) (o : Op) (p : Nat) (i : Inst) (k : Pool) (b : Bags)
    (rows : List (Nat × List Word)) : Mach × List TileWrite :=
  let w := m.refAt p (o.ref 3)
  match m.tensor? p w.1 with
  | none => (m, [])
  | some t =>
    let cand (bag j : Nat) : List (Nat × Nat × Word) :=
      ((bagPositions b.bounds bag).zipIdx.filter fun q => !padIndex b.fmt (b.idx.getD q.1 0)).map fun q =>
        (q.2, b.idx.getD q.1 0, (mapGetD rows q.1 []).getD j 0)
    let pool (x : Dim4) : Word × Nat := poolElement k b.fmt (cand x.d1 x.d0)
    let empties := (List.range b.nbags).countP fun q => (cand q 0).isEmpty
    let m := (m.count .gather i.die i.idx 0x28 empties).dadd (0x2048 + p) 0x16 empties
    let out : TileWrite := ⟨w.1, w.2, t.writeFloat w.2 (m.rawTile p w.1 w.2) false (fun x => (pool x).1), false⟩
    let win := match k with
      | .max =>
        let u := m.refAt p (o.ref 4)
        (match m.tensor? p u.1 with
          | some tu => [⟨u.1, u.2, writeIndex tu.desc.fmt (tu.geom u.2) (m.rawTile p u.1 u.2) (fun x =>
              let y := (pool x).2
              if y = onesIndex b.fmt then onesIndex tu.desc.fmt else y), false⟩]
          | none => [])
      | _ => []
    (m, out :: win)

/-- The output tiles of a BAG operation. -/
def Mach.bagOuts (m : Mach) (o : Op) (p : Nat) (k : Pool) : List (Nat × Nat) :=
  match k with
  | .max => [m.refAt p (o.ref 3), m.refAt p (o.ref 4)]
  | _ => [m.refAt p (o.ref 3)]

/-- Read the rows of index positions from a local table: position and values, or a fault. -/
def Mach.readRows (m : Mach) (i : Inst) (p h : Nat) : List (Nat × Nat) → Mach × List (Nat × List Word) × Option FaultInfo
  | [] => (m, [], none)
  | (q, row) :: rest =>
    match m.tensor? p h with
    | none => (m, [], some { code := fcInternal, handle := h })
    | some t =>
      let (m, pkt, bad) := m.readRow i p h row
      match bad with
      | some f => (m, [], some f)
      | none =>
        let (m, more, f) := m.readRows i p h rest
        (m, (q, rowValues t.desc pkt) :: more, f)

/-- Note the malformed records among the tiles that rows lie in, once each. -/
def Mach.checkRows (m : Mach) (i : Inst) (p h : Nat) (rows : List Nat) : Mach :=
  match m.tensor? p h with
  | none => m
  | some t =>
    let ks := (rows.map fun r => r / t.desc.tile.d1).foldl (fun acc k => if acc.contains k then acc else acc ++ [k]) []
    ks.foldl (fun m k => m.checkRec .gather i.die i.idx t k (m.rawTile p h k)) m

/-- A bagged lookup in a local table (R228 to R230). -/
def Mach.bagLocal (c : Nat) (k : Pool) (m : Mach) (o : Op) (p : Nat) (i : Inst) : Mach :=
  let outs := m.bagOuts o p k
  m.gatherInputs c p i outs [m.refAt p (o.ref 1), m.refAt p (o.ref 2)] fun m bs =>
    let (m, b) := m.readBags c o p i (bs.getD 0 []) (bs.getD 1 [])
    let h := (o.ref 0).handle
    let ext := match m.tensor? p h with | some t => t.desc.ext.d1 | none => 0
    let ps := b.positions
    if b.idx.any fun x => !padIndex b.fmt x && ext ≤ x then
      m.stationFault c outs { code := fcIndex, handle := (o.ref 1).handle, coord := refCoord (o.ref 1) }
    else
      let m := m.checkRows i p h (ps.map fun q => b.idx.getD q 0)
      let (m, rows, f) := m.readRows i p h (ps.map fun q => (q, b.idx.getD q 0))
      match f with
      | some x => m.stationFault c outs x
      | none =>
        let (m, ws) := m.finishBags o p i k b (rows.foldl (fun a r => mapSet a r.1 r.2) [])
        m.takeOff c (some i) outs ws true

/-- The rows of a tile of gradient rows, one for each place along dimension 1. -/
def Tensor.rows (t : Tensor) (k : Nat) (bs : Bytes) : List (List Word) :=
  let g := t.geom k
  ((List.range g.tile.d1).filter fun r => g.inside ⟨0, r, 0, 0⟩).map fun r =>
    (List.range g.tile.d0).map fun d => t.values k bs ⟨d, r, 0, 0⟩

/-- A merged list as it lies: indices up to the first all-ones index, with their rows (R229). -/
def mergedList (fmt : Fmt) (idx : List Nat) (rows : List (List Word)) : List (Nat × List Word) :=
  (idx.zip rows).takeWhile fun q => !padIndex fmt q.1

/-- Write a merged list (R237, R238): the smallest indices that fit, then all-ones indices and rows of +0. -/
def Mach.writeMerged (m : Mach) (c : Nat) (o : Op) (p : Nat) (i : Inst) (xs : List (Nat × List Word)) :
    Mach × List TileWrite :=
  let wr := m.refAt p (o.ref 2)
  let wi := m.refAt p (o.ref 3)
  match m.tensor? p wr.1, m.tensor? p wi.1 with
  | some tr, some ti =>
    let gi := ti.geom wi.2
    let cap := min (gi.all.countP gi.inside) ((List.range (tr.geom wr.2).tile.d1).countP fun r =>
      (tr.geom wr.2).inside ⟨0, r, 0, 0⟩)
    let drop := xs.length - cap
    let m := if drop = 0 then m else
      (((m.count .gather i.die i.idx 0x34 drop).setBit .gather i.die i.idx 4 6).dadd (0x2048 + p) 0x15 drop).fwEvent
        evMergeOverflow i.die (slotOf .gather i.idx) (some p) (toLe 4 wi.1 ++ toLe 4 (m.ctx c).pc)
    let xs := xs.take cap
    (m, [⟨wr.1, wr.2, tr.writeFloat wr.2 (m.rawTile p wr.1 wr.2) false (fun x =>
           ((xs.map (·.2)).getD x.d1 []).getD x.d0 0), false⟩,
         ⟨wi.1, wi.2, writeIndex ti.desc.fmt gi (m.rawTile p wi.1 wi.2) (fun x =>
           (xs.map (·.1)).getD (gi.pos x) (onesIndex ti.desc.fmt)), false⟩])
  | _, _ => (m, [])

/-- The merged list that the output tiles held before. -/
def Mach.priorMerged (m : Mach) (o : Op) (p : Nat) (rb ib : Bytes) : List (Nat × List Word) :=
  let wr := m.refAt p (o.ref 2)
  let wi := m.refAt p (o.ref 3)
  match m.tensor? p wr.1, m.tensor? p wi.1 with
  | some tr, some ti => mergedList ti.desc.fmt (ti.indices wi.2 ib) (tr.rows wr.2 rb)
  | _, _ => []

/-- The non-padding (index, row) pairs of a GRAD_MERGE's inputs. -/
def Mach.mergeIns (m : Mach) (o : Op) (p : Nat) (rb ib : Bytes) : List (Nat × List Word) :=
  match m.tensor? p (o.ref 0).handle, m.tensor? p (o.ref 1).handle with
  | some tr, some ti =>
    ((ti.indices (m.refAt p (o.ref 1)).2 ib).zip (tr.rows (m.refAt p (o.ref 0)).2 rb)).filter fun q =>
      !padIndex ti.desc.fmt q.1
  | _, _ => []

/-- Padding indices among a GRAD_MERGE's inputs. -/
def Mach.mergePads (m : Mach) (o : Op) (p : Nat) (ib : Bytes) : Nat :=
  match m.tensor? p (o.ref 1).handle with
  | some ti => (ti.indices (m.refAt p (o.ref 1)).2 ib).countP (padIndex ti.desc.fmt)
  | none => 0

/-- A GRAD_MERGE on one module (R237, R238). -/
def Mach.mergeLocal (c : Nat) (m : Mach) (o : Op) (p : Nat) (i : Inst) : Mach :=
  let wr := m.refAt p (o.ref 2)
  let wi := m.refAt p (o.ref 3)
  m.gatherInputs c p i [wr, wi] ([m.refAt p (o.ref 0), m.refAt p (o.ref 1)] ++ accIns o.acc wr ++ accIns o.acc wi) fun m bs =>
    let new := mergeRows (m.mergeIns o p (bs.getD 0 []) (bs.getD 1 []))
    let m := m.count .gather i.die i.idx 0x30 (m.mergePads o p (bs.getD 1 []))
    let all := if o.acc then mergeUnion (m.priorMerged o p (bs.getD 2 []) (bs.getD 3 [])) new else new
    let (m, ws) := m.writeMerged c o p i all
    m.takeOff c (some i) [wr, wi] ws true

/-! ### Marver (R84, R106, R107) -/

def Mach.quantRun (c : Nat) (m : Mach) (o : Op) (p : Nat) (i : Inst) : Mach :=
  let a := m.refAt p (o.ref 0)
  let w := m.refAt p (o.ref 1)
  m.withInputs c p [w] [a] fun m bs =>
    match m.tensor? p a.1 with
    | none => m
    | some t =>
      let use := match m.ctxKind c with | some .forward | some .backward => EncUse.step | _ => EncUse.aside
      let (m, r) := m.encodeInto (some i) marverRegs p (m.ctx c).group w.1 w.2 use (t.values a.2 (bs.headD []))
      match r with
      | none => m
      | some x => (m.noteRep c w.1).takeOff c (some i) [w] [x] true

def Mach.measureRun (c : Nat) (m : Mach) (o : Op) (p : Nat) (i : Inst) : Mach :=
  let a := m.refAt p (o.ref 0)
  m.withInputs c p [] [a] fun m bs =>
    match m.tensor? p a.1 with
    | none => m
    | some t =>
      let g := t.geom a.2
      let v := t.values a.2 (bs.headD [])
      let m := m.updGroup p (m.ctx c).group fun x =>
        { x with measMax := maxMag x.measMax (tileMax g (fun _ => false) v), measBad := x.measBad + nonfiniteCount g v }
      m.takeOff c (some i) [] [] true

def Mach.dequantRun (c : Nat) (m : Mach) (o : Op) (p : Nat) (i : Inst) : Mach :=
  let a := m.refAt p (o.ref 0)
  let w := m.refAt p (o.ref 1)
  m.withInputs c p [w] [a] fun m bs =>
    match m.tensor? p a.1, m.tensor? p w.1 with
    | some t, some u =>
      let m := m.checkRec .marver i.die i.idx t a.2 (bs.headD [])
      let v := (t.geom a.2).memo (t.valuesU a.2 (bs.headD []))
      m.takeOff c (some i) [w] [⟨w.1, w.2, u.writeFloat w.2 (m.rawTile p w.1 w.2) false v, false⟩] true
    | _, _ => m

/-! ### The bench (R31, R111 to R126) -/

/-- The one other axis of a GEMM operand (R31): the non-reduction dimension whose tile extent is not 1, or the
lowest-numbered one. -/
def HDesc.otherAxis (d : HDesc) : Nat :=
  let ds := [0, 1, 2, 3].filter fun x => x != d.redAxis
  (ds.find? fun x => d.tile.get x != 1).getD (ds.headD 1)
/-- What a GEMM computes: the operand tiles decoded, and the value of each output element with the counts. -/
structure GemmRun where
  k     : Nat
  rows  : Nat
  rho   : Int
  a     : Nat → BenchOperand
  b     : Nat → BenchOperand

/-- A GEMM's operands from its tiles' bytes. -/
def Mach.gemmRun (m : Mach) (o : Op) (p : Nat) (bs : List Bytes) : Option GemmRun :=
  match m.tensor? p (o.ref 0).handle, m.tensor? p (o.ref 1).handle with
  | some ta, some tb =>
    let k := o.param
    let opnd (t : Tensor) (r : TileRef) (off : Nat) (x : Nat) : BenchOperand :=
      benchOperand (t.blk ((m.gemmTiles p r k).getD x (0, 0)).2 (bs.getD (off + x) [])) t.desc.redAxis t.desc.otherAxis
    some { k := k, rows := tb.desc.tile.get tb.desc.otherAxis
           rho := if ta.desc.rotSize = 0 then 0 else ((rotN ta.desc.rotSize).log2 : Int)
           a := opnd ta (o.ref 0) 0, b := opnd tb (o.ref 1) k }
  | _, _ => none

/-! ### The Jacks engines (R137 to R143) -/

/-- 1 where an operation made a NaN from operands that are none (R78). -/
def made (t : Word) (ops : List Word) : Nat := if isNan t && !(ops.any isNan) then 1 else 0
/-- NaNs made by a lane-order sum (R138): by the lanes, then by the tree. -/
def laneNans (xs : List (Nat × Word)) : Nat :=
  let add (a b : Word × Nat) : Word × Nat := let t := fpAdd a.1 b.1; (t, a.2 + b.2 + made t [a.1, b.1])
  let lanes := (List.range 32).map fun l =>
    (xs.filter fun q => q.1 % 32 == l).foldl (fun (a : Option (Word × Nat)) q =>
      match a with | none => some (q.2, 0) | some s => some (add s (q.2, 0))) none
  let level (ys : List (Option (Word × Nat))) : List (Option (Word × Nat)) :=
    (pieces 2 (ys.length / 2) ys).map fun z =>
      match z.headD none, (z.drop 1).headD none with
      | some a, some b => some (add a b)
      | some a, none => some a
      | none, b => b
  (((level (level (level (level (level lanes))))).headD none).map (·.2)).getD 0

/-- A Jacks operation reads its sources and, with acc, its output; `f` gives each output element and the NaNs made. -/
def Mach.jacksRun (c : Nat) (nsrc : Nat) (f : Mach → Op → Nat → List Src → (Dim4 → Word) × Nat)
    (m : Mach) (o : Op) (p : Nat) (i : Inst) : Mach :=
  let ins := (List.range nsrc).map fun k => m.refAt p (o.ref k)
  let w := m.refAt p (o.ref nsrc)
  m.withInputs c p [w] (ins ++ accIns o.acc w) fun m bs =>
    match m.tensor? p w.1 with
    | none => m
    | some t =>
      let srcs := (ins.zipIdx).filterMap fun q => (m.tensor? p q.1.1).map fun u => u.src q.1.2 (bs.getD q.2 [])
      let (v, nans) := f m o p srcs
      let g := t.geom w.2
      let v := g.memo v
      let old := m.prior p w bs o.acc nsrc
      let prior := plainValue t.desc.fmt g old
      let accN := if !o.acc then 0 else
        ((g.all.filter g.inside).map fun x => made (fpAdd (prior x) (v x)) [prior x, v x]).sum
      let m := m.count .jacks i.die i.idx 0x20 (nans + accN)
      m.takeOff c (some i) [w] [⟨w.1, w.2, t.writeFloat w.2 old o.acc v, false⟩] true

/-- ELEMENTWISE (R139). -/
def ewRun (m : Mach) (o : Op) (p : Nat) (ss : List Src) : (Dim4 → Word) × Nat :=
  let code := fld o.param 7 0
  let at_ (k : Nat) (x : Dim4) : Word := match ss[k]? with | some s => s.bcast x | none => 0
  let w := m.refAt p (o.ref ss.length)
  let v (x : Dim4) : Word := ewFunc code (at_ 0 x) (at_ 1 x) (at_ 2 x)
  let nan (x : Dim4) : Nat :=
    let a := at_ 0 x
    let b := at_ 1 x
    let c := at_ 2 x
    if code = 0x40 then made (fpMul a b) [a, b] + made (v x) [fpMul a b, c]
    else if code = 0x41 ∨ code = 0x26 ∨ code ≤ 0x03 then 0
    else made (v x) (if 0x20 ≤ code then [a, b] else [a])
  let n := match m.tensor? p w.1 with
    | some t => let g := t.geom w.2; ((g.all.filter g.inside).map nan).sum
    | none => 0
  (v, n)

/-- The places of a source tile, one for each of its rows along an axis that lie inside the extent. -/
def Src.rowPlaces (s : Src) (axis : Nat) : List Dim4 :=
  s.g.all.filter fun i => i.get axis == 0 && s.g.inside i

/-- NORM (R140). -/
def normRun (_m : Mach) (o : Op) (_p : Nat) (ss : List Src) : (Dim4 → Word) × Nat :=
  match ss with
  | s :: gn :: _ =>
    let layer := fld o.param 7 0 == 1
    let axis := fld o.param 9 8
    let eps := ofBf16 (BitVec.ofNat 16 (fld o.param 31 16))
    let gain (k : Nat) : Word := gn.v ⟨k, 0, 0, 0⟩
    let nans := ((s.rowPlaces axis).map fun i =>
      let xs := s.row axis i
      let n := fpOfInt xs.length 0
      let mu := fpDiv (laneSum xs) n
      let d (w : Word) : Word := if layer then fpSub w mu else w
      let q := fpDiv (laneSum (xs.map fun x => (x.1, fpMul (d x.2) (d x.2)))) n
      let r := fpRsqrt (fpAdd q eps)
      (if layer then laneNans xs + (xs.map fun x => made (d x.2) [x.2, mu]).sum else 0)
      + (xs.map fun x => made (fpMul (d x.2) r) [d x.2, r]
          + made (fpMul (fpMul (d x.2) r) (gain x.1)) [fpMul (d x.2) r, gain x.1]).sum).sum
    (normElement layer eps s gain axis, nans)
  | _ => (fun _ => 0, 0)

/-- SOFTMAX (R141). -/
def softmaxRun (_m : Mach) (o : Op) (_p : Nat) (ss : List Src) : (Dim4 → Word) × Nat :=
  match ss with
  | s :: _ =>
    let axis := fld o.param 1 0
    let nans := ((s.rowPlaces axis).map fun i =>
      let xs := s.row axis i
      let mx := match xs with | [] => (0 : Word) | q :: r => r.foldl (fun a t => fpMax a t.2) (quiet q.2)
      (xs.map fun x => made (fpSub x.2 mx) [x.2, mx]).sum).sum
    (softmaxElement s axis, nans)
  | _ => (fun _ => 0, 0)

/-- REDUCE_SUM (R142). -/
def reduceSumRun (_m : Mach) (o : Op) (_p : Nat) (ss : List Src) : (Dim4 → Word) × Nat :=
  match ss with
  | s :: _ =>
    let axis := fld o.param 1 0
    (fun i => laneSum (s.row axis i), ((s.rowPlaces axis).map fun i => laneNans (s.row axis i)).sum)
  | _ => (fun _ => 0, 0)

/-- REDUCE_MAX and REDUCE_MIN (R134, R135). -/
def Mach.winnerRun (c : Nat) (isMax : Bool) (m : Mach) (o : Op) (p : Nat) (i : Inst) : Mach :=
  let a := m.refAt p (o.ref 0)
  let w := m.refAt p (o.ref 1)
  let u := m.refAt p (o.ref 2)
  m.withInputs c p [w, u] [a] fun m bs =>
    match m.tensor? p a.1, m.tensor? p w.1, m.tensor? p u.1 with
    | some t, some tw, some tu =>
      let s := t.src a.2 (bs.headD [])
      let axis := fld o.param 1 0
      m.takeOff c (some i) [w, u]
        [⟨w.1, w.2, tw.writeFloat w.2 (m.rawTile p w.1 w.2) false (fun x => (reduceWinner isMax s axis x).2), false⟩,
         ⟨u.1, u.2, writeIndex tu.desc.fmt (tu.geom u.2) (m.rawTile p u.1 u.2) (fun x => (reduceWinner isMax s axis x).1), false⟩]
        true
    | _, _, _ => m

end Sys2Proof.Machine
end

