-- ==== Sys2Proof/Machine/Strain.lean ====
section
/-! DEFINITION. The Strain checker: the sums it forms of a stationary tile, what it predicts of a row, and its checks (spec/13,
R336 to R341); the operands of the bench tests (R348). -/

namespace Sys2Proof.Machine

/-! ### The exact check (R336, R337) -/

/-- The sub-cycles of a pass count: weight, and the parts of the stationary and the streaming lane (R115). -/
def subCycles (fa fb : Fmt) : List (Int × (Int → Int) × (Int → Int)) :=
  match fa == .w16, fb == .w16 with
  | false, false => [(1, id, id)]
  | true, false => [(256, hiPart, id), (1, loPart, id)]
  | false, true => [(256, id, hiPart), (1, id, loPart)]
  | true, true => [(65536, hiPart, hiPart), (256, hiPart, loPart), (256, loPart, hiPart)]

/-- A list's sum of a function of its entries. -/
def sumOf {α : Type} (l : List α) (f : α → Int) : Int := l.foldl (fun s x => s + f x) 0

/-- A band sum of a column and a streaming row in one sub-cycle (R117). -/
def bandSum (a b : BenchOperand) (c : Int × (Int → Int) × (Int → Int)) (q j m : Nat) : Int :=
  sumOf (List.range 32) fun k => c.2.1 (a.lane (32 * q + k) j).cell * c.2.2 (b.lane (32 * q + k) m).cell
/-- c_i, w_i and c′_i of a reduction row in one sub-cycle's form, over the 256 columns (R336). -/
def strainC (a : BenchOperand) (pa : Int → Int) (i : Nat) : Int := sumOf (List.range 256) fun j => pa (a.lane i j).cell
def strainW (a : BenchOperand) (pa : Int → Int) (i : Nat) : Int :=
  sumOf (List.range 256) fun j => (j + 1 : Int) * pa (a.lane i j).cell
def strainCd (a : BenchOperand) (pa : Int → Int) (i : Nat) : Int :=
  sumOf (List.range 256) fun j => pa (a.lane i j).cell * 2 ^ (7 - a.delta (i / 32 * 32) j)
/-- The predictions Π_q and Ω_q of a band (R337). -/
def strainPi (a b : BenchOperand) (c : Int × (Int → Int) × (Int → Int)) (q m : Nat) : Int :=
  sumOf (List.range 32) fun k => strainC a c.2.1 (32 * q + k) * c.2.2 (b.lane (32 * q + k) m).cell
def strainOmega (a b : BenchOperand) (c : Int × (Int → Int) × (Int → Int)) (q m : Nat) : Int :=
  sumOf (List.range 32) fun k => strainW a c.2.1 (32 * q + k) * c.2.2 (b.lane (32 * q + k) m).cell
/-- The error of a band sum that a fault brings. -/
def bandErr (es : List (Nat × Nat × Nat × Int)) (x q j : Nat) : Int :=
  sumOf (es.filter fun e => e.1 == x && e.2.1 == q && e.2.2.1 == j) fun e => e.2.2.2
/-- A band sum as the bench formed it. -/
def bandGot (a b : BenchOperand) (es : List (Nat × Nat × Nat × Int)) (x : Nat) (c : Int × (Int → Int) × (Int → Int))
    (q j m : Nat) : Int := bandSum a b c q j m + bandErr es x q j
/-- Does the exact check agree with the bench's band sums of a row (R337)? -/
def strainExact (a b : BenchOperand) (es : List (Nat × Nat × Nat × Int)) (m : Nat) : Bool :=
  (subCycles a.fmt b.fmt).zipIdx.all fun c => (List.range 4).all fun q =>
    strainPi a b c.1 q m == sumOf (List.range 256) (fun j => bandGot a b es c.2 c.1 q j m)
    && strainOmega a b c.1 q m == sumOf (List.range 256) fun j => (j + 1 : Int) * bandGot a b es c.2 c.1 q j m

/-! ### What a bench makes of a row -/

/-- A band value as the bench formed it. -/
def bandValueGot (a b : BenchOperand) (es : List (Nat × Nat × Nat × Int)) (q j m : Nat) : Int :=
  sumOf (subCycles a.fmt b.fmt).zipIdx fun c => c.1.1 * bandGot a b es c.2 c.1 q j m
/-- Its promotion (R119). -/
def promotedGot (a b : BenchOperand) (rho : Int) (es : List (Nat × Nat × Nat × Int)) (q j m : Nat) : Word :=
  promote (bandValueGot a b es q j m) ((a.base : Int) - 127 - a.delta (32 * q) j) ((b.base : Int) - 127 - b.delta (32 * q) m) rho
/-- The significand of a lane that Cullet multiplies, and its exponent (R148). -/
def Lane.sig (base : Nat) (l : Lane) : Nat × Int :=
  match l, l.num base with
  | .code .., .fin _ m e => (m, e)
  | _, .fin _ m e => (m / 65536, e + 16)
  | _, _ => (0, 0)
/-- What Cullet formed of the product of the significands of a lane pair, where a fault made it wrong. -/
def prodGot (ps : List (Nat × Nat × Nat)) (i j : Nat) : Option Nat :=
  (ps.find? fun e => e.1 == i && e.2.1 == j).map fun e => e.2.2
/-- A Cullet product as the multiplier formed it. -/
def culletGot (a b : BenchOperand) (rho : Int) (ps : List (Nat × Nat × Nat)) (i j m : Nat) : Option Num :=
  match culletNum a b rho i j m, prodGot ps i j with
  | some (.fin s _ _), some v => some (.fin s v (((a.lane i j).sig a.base).2 + ((b.lane i m).sig b.base).2 - rho))
  | n, _ => n
def culletsGot (a b : BenchOperand) (rho : Int) (ps : List (Nat × Nat × Nat)) (q j m : Nat) : List Num :=
  (List.range 32).filterMap fun k => culletGot a b rho ps (32 * q + k) j m
/-- Does the residue check agree with the products of a row: modulo 15, the product of the operands' residues is that of the product
formed (R339)? A product with an operand that is not finite has no significand to check. -/
def strainResidue (a b : BenchOperand) (f : BenchFault) : Bool :=
  f.prods.all fun e =>
    match culletNum a b 0 e.1 e.2.1 f.row with
    | some (.fin _ _ _) =>
      ((prodGot f.prods e.1 e.2.1).getD 0) % 15
        == ((a.lane e.1 e.2.1).sig a.base).1 % 15 * (((b.lane e.1 f.row).sig b.base).1 % 15) % 15
    | _ => true
/-- The column totals of a row as the bench formed them: from its band sums and products, or what it made wrong of them (R121). -/
def totalsGot (a b : BenchOperand) (rho : Int) (f : BenchFault) : List Word :=
  (List.range 256).map fun j =>
    match f.totals.find? fun e => e.1 == j with
    | some e => e.2
    | none =>
      let leaf (q : Nat) : Word := fpAdd (promotedGot a b rho f.bands q j f.row) (culletSum (culletsGot a b rho f.prods q j f.row)).1
      fpAdd (fpAdd (leaf 0) (leaf 1)) (fpAdd (leaf 2) (leaf 3))

/-! ### The tolerant checks (R338, R340) -/

/-- A datum in the wide fixed-point accumulator, whose unit is 2^−1024; none for a NaN or an infinity. -/
def wideNum : Num → Option Int
  | .fin s m e => some ((if s then -1 else 1) * (m : Int) * 2 ^ (e + 1024).toNat)
  | _ => none
def wide (w : Word) : Option Int := wideNum (dec32 w)
/-- The exact sum of a list of data; none where one of them is not finite. -/
def wideSum (l : List (Option Int)) : Option Int := l.foldl (fun a x => a.bind fun s => x.map fun y => s + y) (some 0)
def wideAbs (l : List (Option Int)) : Option Int := wideSum (l.map fun x => x.map fun y => (y.natAbs : Int))
/-- Do two sums differ by at most 2^−k × `a` and 2^−126? A check in which a value that is not finite takes part agrees: the spec
gives no comparison of such sums (the model's choice, log entry 76). -/
def within (x y a : Option Int) (k : Nat) : Bool :=
  match x, y, a with
  | some x, some y, some a => decide (((x - y).natAbs : Int) * 2 ^ k ≤ a + 2 ^ (1024 - 126) * 2 ^ k)
  | _, _, _ => true
/-- Y of R338: the exact value of the row's band values, from c′ and the streaming row, and of its Cullet products as the multipliers
formed them, whose errors the residue check is there to find (log entry 76). -/
def strainY (a b : BenchOperand) (rho : Int) (ps : List (Nat × Nat × Nat)) (m : Nat) : Option Int :=
  let bands := (subCycles a.fmt b.fmt).flatMap fun c => (List.range 4).map fun q =>
    let n := sumOf (List.range 32) fun k => strainCd a c.2.1 (32 * q + k) * c.2.2 (b.lane (32 * q + k) m).cell
    wideNum (Num.ofInt (c.1 * n) ((a.base : Int) - 134 + ((b.base : Int) - 127 - b.delta (32 * q) m) - rho))
  let terms := (List.range 256).flatMap fun j => (List.range 4).flatMap fun q => (culletsGot a b rho ps q j m).map wideNum
  wideSum (bands ++ terms)
/-- Does the tolerant check of promotion, Cullet and tree agree with the row's totals (R338)? -/
def strainTol (a b : BenchOperand) (rho : Int) (f : BenchFault) (totals : List Word) : Bool :=
  let parts := (List.range 256).flatMap fun j => (List.range 4).flatMap fun q =>
    [wide (promotedGot a b rho f.bands q j f.row), wide (culletSum (culletsGot a b rho f.prods q j f.row)).1]
  within (wideSum (totals.map wide)) (strainY a b rho f.prods f.row) (wideAbs parts) 16
/-- Does the check of an addition agree: `xs` and `ys` its inputs, `out` what it made (R340)? -/
def strainAdd (xs ys out : List Word) : Bool :=
  within (wideSum (out.map wide)) (wideSum ((xs ++ ys).map wide)) (wideAbs ((xs ++ ys).map wide)) 23
/-- Does the check of a conversion to BF16 agree (R340)? -/
def strainConv (xs out : List Word) : Bool :=
  within (wideSum (out.map wide)) (wideSum (xs.map wide)) (wideAbs (out.map wide)) 8

/-! ### The bench tests (R348) -/

/-- `frit_word` (R348). -/
def fritWord (seed n k : Nat) : Word :=
  let x := mix32 (BitVec.ofNat 32 seed ^^^ mix32 (BitVec.ofNat 32 n))
  let x := mix32 (x ^^^ BitVec.ofNat 32 (seed / 2 ^ 32))
  mix32 (x ^^^ BitVec.ofNat 32 k)
/-- The forms of a test's four parts: stationary and streaming. -/
def fritForms : Nat → Fmt × Fmt
  | 0 => (.q4, .q4) | 1 => (.q8, .q8) | 2 => (.w16, .q8) | _ => (.w16, .w16)
/-- The code of a lane: the low bits of its word; the escape code gives way to the largest value code. -/
def fritCode (f : Fmt) (w : Word) : Int :=
  match f with
  | .q4 => let c := w.toNat % 16; if c = 15 then 14 else c
  | .q8 => let c := w.toNat % 256; if c = 128 then 127 else if c < 128 then c else (c : Int) - 256
  | _ => let c := w.toNat % 65536; if c = 32768 then 32767 else if c < 32768 then c else (c : Int) - 65536
/-- One tile of a test: `first` is the first block of the tile and 32 × `first` its first lane, in block order. -/
def fritOperand (seed n : Nat) (f : Fmt) (first : Nat) : BenchOperand :=
  let head (b : Nat) : Nat := (fritWord seed n (2 ^ 31 + (first + b))).toNat
  let z (b : Nat) : Int := match f with
    | .q4 => (fld (head b) 6 3 % 15 : Nat)
    | .q8 => let c := fld (head b) 14 7; if c < 128 then c else (c : Int) - 256
    | _ => 0
  { fmt := f, base := 127
    lane := fun i x =>
      let b := i / 32 + 4 * x
      if fld (head b) 19 15 = i % 32 then
        .esc (BitVec.ofNat 16 (setFld (fld (head (b + 1)) 31 16) 14 14 0))
      else .code (fritCode f (fritWord seed n (32 * (first + b) + i % 32)) - z b) (fld (head b) 2 0)
    delta := fun i x => fld (head (i / 32 + 4 * x)) 2 0 }
/-- The blocks of a stationary and of a streaming tile of a test. -/
def fritStat : Nat := 4 * 256
def fritStream : Nat := 4 * 512
/-- Reduction tile `r` of part `k` of test `n`: its two operands. The tiles take successive words, the parts one after another,
and of each reduction tile the stationary tile first (the model's choice, log entry 76). -/
def fritTile (seed n k r : Nat) : BenchOperand × BenchOperand :=
  let first := (32 * k + r) * (fritStat + fritStream)
  (fritOperand seed n (fritForms k).1 first, fritOperand seed n (fritForms k).2 (first + fritStat))
/-- The values that a part of a test gives for a streaming row, with what a fault made of the row where it met one. -/
def fritRow (seed n k : Nat) (f : Option BenchFault) (m : Nat) : List Word :=
  let total (r j : Nat) : Word :=
    let t := fritTile seed n k r
    match f with
    | some x => if x.red = r ∧ x.row = m then (totalsGot t.1 t.2 0 x).getD j 0 else (columnTotal t.1 t.2 0 j m).1
    | none => (columnTotal t.1 t.2 0 j m).1
  (List.range 256).map fun j => (accumulate 32 fun r => total r j).1
/-- The cause that the Strain gives on a run of a test, 0 where every check of the row agrees and it does not err itself (R337 to
R339, R345). -/
def fritCause (seed n k : Nat) : Option BenchFault → Nat
  | none => 0
  | some f =>
    let t := fritTile seed n k f.red
    if !strainExact t.1 t.2 f.bands f.row then 1
    else if !strainTol t.1 t.2 0 f (totalsGot t.1 t.2 0 f) then 2
    else if !strainResidue t.1 t.2 f then 3 else f.checker

end Sys2Proof.Machine
end

