-- ==== Sys2Proof/Machine/Segments.lean ====
section
/-! DEFINITION. GEMMs on benches: segments, their partials in the Crucible, the handover of the output, the bench's counters
(spec/05, R116, R122 to R127, R132, R144 to R146). -/

namespace Sys2Proof.Machine

def wordsOfBytes (bs : Bytes) : List Word := (pieces 4 (bs.length / 4) bs).map fun b => BitVec.ofNat 32 (ofLe b)
def bytesOfWords (ws : List Word) : Bytes := ws.flatMap fun w => toLe 4 w.toNat

/-! ### What a segment computes -/

/-- Every element of a segment, rows then columns, from the partial before it. -/
def GemmRun.span (r : GemmRun) (fixes : List RowFix) (lo hi : Nat) (prior : Option (List Word)) : Array (Word × GemmCounts) :=
  let old := prior.map List.toArray
  ((List.range r.rows).flatMap fun m => (List.range 256).map fun j =>
    gemmSpan r.a r.b r.rho fixes lo hi (old.map fun (a : Array Word) => a.getD (256 * m + j) 0) j m).toArray
/-- The accumulator after a segment. -/
def spanWords (els : Array (Word × GemmCounts)) : List Word := els.toList.map (·.1)
/-- What a segment counts at its bench, Cullet and Strain (R144, R151, R167). -/
def GemmRun.spanCounts (r : GemmRun) (els : Array (Word × GemmCounts)) (lo hi : Nat) : GemmCounts :=
  (GemmCounts.sum (els.toList.map (·.2))).add
    (GemmCounts.sum ((List.range (hi - lo)).map fun x => tileCounts (r.a (lo + x)) (r.b (lo + x)) r.rows))
/-- The pass count of a reduction tile, from the headers of its two records (R115). -/
def GemmRun.pass (r : GemmRun) (x : Nat) : Nat := passCount (r.a x).fmt (r.b x).fmt
/-- The cycles by which a reduction tile leaves the next stationary load unfinished (R132). Cycles in which Cullet stalls the array
shorten no later load wait: the load is told from the array's own cycles (the model's choice, log entry 76). -/
def GemmRun.slack (r : GemmRun) (x : Nat) : Nat := 128 - r.pass x * r.rows
/-- The cycles that the array waits for stationary loads in a segment, the first of which still takes `first` (R132). -/
def GemmRun.loadStalls (r : GemmRun) (first lo hi : Nat) : Nat :=
  first + ((List.range (hi - lo - 1)).map fun x => r.slack (lo + x)).sum
/-- A bank that holds a stationary tile: of a W16 element h and u, of another the one register (R116); with its outlier lanes, by
column (R150). -/
def bankOf (x : BenchOperand) : Bank :=
  { form := some x.fmt
    cells := (List.range 128).flatMap fun i => (List.range 256).map fun j =>
      let c := (x.lane i j).cell
      if x.fmt = .w16 then (hiPart c, loPart c) else (c, 0)
    outs := (List.range 256).flatMap fun j => ((List.range 128).map fun i => (j, i, x.lane i j)).filter fun e => e.2.2.outlier }
/-- The streaming side list of a streaming tile: the escaped lanes of its rows (R150). -/
def sideOf (y : BenchOperand) (rows : Nat) : List (Nat × Nat × Half) :=
  (List.range rows).flatMap fun m => (List.range 128).filterMap fun i =>
    match y.lane i m with | .esc v => some (m, i, v) | _ => none
/-- The streaming hot slices of a streaming tile: the values of its hot channels, by row (R150). -/
def hotOf (y : BenchOperand) (rows : Nat) : List (Nat × List Half) :=
  (List.range 128).filterMap fun i =>
    match y.lane i 0 with
    | .hot _ => some (i, (List.range rows).map fun m => match y.lane i m with | .hot v => v | _ => 0)
    | _ => none
/-- Rows of the accumulator written over what it held. -/
def overRows (new old : List Word) : List Word := new ++ old.drop new.length
/-- A bench's stores as a segment's first reduction tile begins: the tile is in the bank that was idle, and the accumulator holds the
committed partial, if there is one (R116, R124). -/
def BenchSt.begin (st : BenchSt) (r : GemmRun) (x : Nat) (acc : List Word) : BenchSt :=
  let b := bankOf (r.a x)
  { st with serving := !st.serving, bank0 := if st.serving then b else st.bank0, bank1 := if st.serving then st.bank1 else b
            red := x, side := sideOf (r.b x) r.rows, hot := hotOf (r.b x) r.rows, acc := overRows acc st.acc }
/-- A bench's stores once its segment has come to reduction tile `x`, with these rows added so far. -/
def BenchSt.reach (st : BenchSt) (r : GemmRun) (x : Nat) (acc : List Word) : BenchSt :=
  if x = st.red then { st with acc := overRows acc st.acc } else
  let on := st.serving ^^ ((x - st.red) % 2 == 1)
  let this := bankOf (r.a x)
  let last := bankOf (r.a (x - 1))
  { st with serving := on, bank0 := if on then last else this, bank1 := if on then this else last
            red := x, side := sideOf (r.b x) r.rows, hot := hotOf (r.b x) r.rows, acc := overRows acc st.acc }
/-- The next reduction tile's stationary tile has been loaded into the other bank (R116). -/
def BenchSt.loadNext (st : BenchSt) (r : GemmRun) : BenchSt :=
  let b := bankOf (r.a (st.red + 1))
  if st.serving then { st with bank0 := b } else { st with bank1 := b }
/-- The output tile of a GEMM: the accumulator's values stored (R126), with what the writer made wrong, or a vote adopted, of a
row. -/
def GemmRun.output (els : Array (Word × GemmCounts)) (t : Tensor) (k : Nat) (old : Bytes) (acc : Bool) (fixes : List RowFix) :
    Bytes :=
  let bs := t.writeFloat k old acc fun i => (els.getD (256 * i.d1 + i.d0) (0, {})).1
  if fixes.all fun f => f.stage < 2 then bs else
  writePlain t.desc.fmt (t.geom k) bs fun i =>
    match fixes.find? fun f => 2 ≤ f.stage && f.row == i.d1 with
    | some f => f.value.getD i.d0 0
    | none => plainValue t.desc.fmt (t.geom k) bs i

/-! ### Counters -/

/-- A segment has been completed on a bench (R144, R151, R167, R364). -/
def Mach.gemmCount (m : Mach) (i : Inst) (n : GemmCounts) (stalls rows : Nat) : Mach :=
  let b (m : Mach) (o x : Nat) : Mach := m.count .bench i.die i.idx o x
  let q (m : Mach) (o x : Nat) : Mach := m.count .cullet i.die i.idx o x
  let m := b (b (b (b (b (b (b m 0x10 1) 0x14 n.rowCycles) 0x18 stalls) 0x1C n.stallCycles) 0x24 n.promoRounded) 0x28
    n.promoInf) 0x2C n.accNan
  let m := if n.promoInf = 0 then m else m.setBit .bench i.die i.idx 4 5
  let m := q (q (q (q (q (q m 4 n.products) 8 n.escLanes) 0xC n.hotLanes) 0x10 n.stallRows) 0x14 n.nanResults) 0x18
    n.prodRounded
  let m := if n.cNonfinite then m.setBit .cullet i.die i.idx 0 0 else m
  (if n.stallRows = 0 then m else m.setBit .cullet i.die i.idx 0 1).count .strain i.die i.idx 4 rows

/-! ### GEMMs in flight -/

/-- A bench's number among the module's benches, as the records of disputes and loans name it. -/
def benchNum (i : Inst) : Nat := 32 * i.die + i.idx
def benchInst (n : Nat) : Inst := ⟨.bench, n / 32, n % 32⟩
def Mach.setBench (m : Mach) (b : Nat) (x : BenchSt) : Mach := { m with benches := mapSet m.benches b x }
def Mach.gemmAt (m : Mach) (c op : Nat) : Option Gemm := m.gemms.find? fun g => g.ctx == c && g.op == op
def Mach.setGemm (m : Mach) (g : Gemm) : Mach :=
  { m with gemms := m.gemms.map fun x => if x.ctx == g.ctx && x.op == g.op then g else x }
def Mach.updFlight (m : Mach) (c op : Nat) (f : Flight → Flight) : Mach :=
  m.updCtx c fun x => { x with flights := x.flights.map fun y => if y.op = op then f y else y }
/-- The tiles a GEMM reads, with its prior content where it adds to it. -/
def Mach.gemmIns (m : Mach) (o : Op) (p : Nat) : List (Nat × Nat) :=
  m.gemmTiles p (o.ref 0) o.param ++ m.gemmTiles p (o.ref 1) o.param ++ accIns o.acc (m.refAt p (o.ref 2))
/-- The output tile of a GEMM in flight, once its elements are there. -/
def Mach.gemmOut (m : Mach) (g : Gemm) (els : Array (Word × GemmCounts)) : List TileWrite :=
  let w := m.refAt g.part (g.o.ref 2)
  match m.tensor? g.part w.1 with
  | some t => [⟨w.1, w.2, GemmRun.output els t w.2 (m.prior g.part w g.tiles g.o.acc (2 * g.o.param)) g.o.acc g.fixes, false⟩]
  | none => []
/-- The committed partial of a GEMM, as its next segment loads it (R124). -/
def Mach.partialOf (m : Mach) (g : Gemm) : Option (List Word) := g.room.map fun q => wordsOfBytes (m.bytesAt q.1 q.2)
/-- The operands of a GEMM in flight. -/
def Mach.gemmOf (m : Mach) (g : Gemm) : Option GemmRun := m.gemmRun g.o g.part g.tiles
/-- Where the segment in progress of a GEMM is to end: before the planner's next boundary, or with the GEMM. -/
def Gemm.until (g : Gemm) (k : Nat) : Nat :=
  match g.plan.find? fun q => g.lo < q.1 && q.1 < k with | some q => q.1 | none => k

/-- The accumulator's rows in use where a segment has come to row `row` of reduction tile `x`: the rows before it with the tile's
totals added, the others without (R122, R123). Before reduction tile 0 they are what it held. -/
def Mach.accAt (m : Mach) (g : Gemm) (r : GemmRun) (st : BenchSt) (x row : Nat) : List Word :=
  let prior := m.partialOf g
  let before := if x = 0 then st.acc else spanWords (r.span g.fixes g.lo x prior)
  let after := if row = 0 then [] else (spanWords (r.span g.fixes g.lo (x + 1) prior)).take (256 * row)
  overRows after (before.take (256 * r.rows))
/-- The segment on a bench is known to have come to row `row` of reduction tile `x`: how far one has come is time, and between the
points at which the model knows it, the bench is held as it stood at the last of them (log entry 76). -/
def Mach.standAt (m : Mach) (g : Gemm) (r : GemmRun) (b x row : Nat) : Mach :=
  let st := m.bench b
  m.setBench b (st.reach r x (m.accAt g r st x row))
/-- The reduction tiles of a segment up to `x` are counted (R120, R144, R151, R167, R364). -/
def Mach.segCount (m : Mach) (g : Gemm) (r : GemmRun) (b x : Nat) : Mach :=
  m.gemmCount (benchInst b) (r.spanCounts (r.span g.fixes g.lo x (m.partialOf g)) g.lo x) (r.loadStalls g.first g.lo x)
    ((x - g.lo) * r.rows)

/-- The segment in progress of a bench is complete: counted, and its accumulator handed over or written (R126, R144). The
accumulator keeps the rows until later ones are written over them. -/
def Mach.segDone (m : Mach) (b : Nat) : Mach :=
  match (m.bench b).seg.bind fun q => m.gemmAt q.1 q.2 with
  | none => m
  | some g => match m.gemmOf g with
    | none => m
    | some r => (m.segCount g r b r.k).standAt g r b (r.k - 1) r.rows
/-- What the last segment of a GEMM will hand over; a segment before it hands over nothing. -/
def Mach.setOut (m : Mach) (g : Gemm) (r : GemmRun) : Mach :=
  if g.until r.k ≠ r.k then m.updFlight g.ctx g.op fun f => { f with ready := false } else
  let ws := m.gemmOut g (r.span g.fixes g.lo r.k (m.partialOf g))
  m.updFlight g.ctx g.op fun f => { f with writes := ws, ready := !m.disputes.any fun d => d.ctx == g.ctx && d.op == g.op }
/-- A segment of a GEMM begins on a bench, from the committed partial. -/
def Mach.beginSeg (m : Mach) (g : Gemm) (r : GemmRun) (b : Nat) : Mach :=
  let x := m.bench b
  let m := m.segDone b
  let g := { g with bench := some b, first := if x.seg.isSome then x.slack else 128, late := x.seg.isSome || x.writer.isSome }
  let st := (m.bench b).begin r g.lo ((m.partialOf g).getD [])
  let m := m.setBench b { st with seg := some (g.ctx, g.op), slack := r.slack (r.k - 1)
                                  writer := if x.seg.isSome then x.seg else x.writer }
  ((m.setGemm g).updFlight g.ctx g.op fun f => { f with inst := some (benchInst b) }).setOut g r
/-- May a bench take a segment of the GEMM, reduction tiles `lo` to `hi` − 1: it accepts operations of the partition, and its cap
admits the segment's passes (R145)? -/
def Mach.benchTakes (m : Mach) (p b lo hi : Nat) (r : GemmRun) : Bool :=
  let i := benchInst b
  b < 64 && m.instReady p i && m.instPart i == p
  && (List.range (hi - lo)).all fun x => r.pass (lo + x) ≤ fld (m.reg .bench i.die i.idx 0x0C) 1 0
/-- A segment ends before reduction tile `x` (R124, R125): its accumulator goes to the Crucible as the GEMM's committed partial.
None where the partition's Crucible has no room: the spec says nothing of it; the boundary is dropped, and the segment goes on (the
model's choice, log entry 76). A partial outside the partition's bounds is not written, and faults the stream (R45). -/
def Mach.endSegAt (m : Mach) (g : Gemm) (r : GemmRun) (b x : Nat) : Option Mach :=
  let n := 1024 * r.rows
  ((g.room.map (·.1)).orElse fun _ => m.room g.part .cru none n 0).map fun a =>
    let m := (m.segCount g r b x).standAt g r b (x - 1) r.rows
    let w := spanWords (r.span g.fixes g.lo x (m.partialOf g))
    let m := m.setBench b { (m.bench b) with seg := none, slack := 128 }
    if !m.inBounds g.part a n then
      (m.boundsFault g.part a n 0).flightBounds g.ctx g.op { code := fcBounds, phys := m.firstOut g.part a n }
    else
      (((m.memPut 0 a (bytesOfWords w)).count .bench (b / 32) (b % 32) 0x30 1).setGemm
        { g with bench := none, lo := x, room := some (a, n), first := 128 }).updFlight g.ctx g.op
        fun f => { f with inst := none, ready := false }
/-- A GEMM whose committed partial has come to lie outside the partition's bounds can not read it: its stream faults (R45). -/
def Mach.partialFault (m : Mach) (g : Gemm) : Option Mach :=
  match g.room with
  | some (a, n) => if m.inBounds g.part a n then none else
      some ((m.boundsFault g.part a n 0).flightBounds g.ctx g.op { code := fcBounds, phys := m.firstOut g.part a n })
  | none => none
/-- The rest of a GEMM goes to a bench that takes it: the one named, else the first that does. It waits where none does. -/
def Mach.placeSeg (m : Mach) (c op : Nat) (r : GemmRun) (want : List Nat) : Mach :=
  match m.gemmAt c op with
  | none => m
  | some g => match (want ++ List.range 64).find? fun b => m.benchTakes g.part b g.lo (g.until r.k) r with
    | some b => (m.partialFault g).getD (m.beginSeg g r b)
    | none => m
/-- The boundaries that the planner chose take effect, those up to reduction tile `limit` (R124, R125). -/
def Mach.runPlan (c op limit : Nat) (r : GemmRun) : Nat → Mach → Mach
  | 0, m => m
  | fuel + 1, m =>
    match m.gemmAt c op with
    | none => m
    | some g => match g.plan, g.bench with
      | q :: rest, some b =>
        if limit < q.1 then m else
        let g1 := { g with plan := rest }
        let m1 := m.setGemm g1
        if g.lo < q.1 ∧ q.1 < r.k then
          match m1.endSegAt g1 r b q.1 with
          | some m2 => runPlan c op limit r fuel (m2.placeSeg c op r [q.2])
          | none => runPlan c op limit r fuel (m1.setOut g1 r)
        else runPlan c op limit r fuel m1
      | _, _ => m

/-- A segment ends at the boundary before reduction tile `x`, and the GEMM goes on elsewhere, or, with `again`, where no other bench
takes it, on the same bench (R124, R146). None where the GEMM ends there as usual. -/
def Mach.endAt (m : Mach) (g : Gemm) (r : GemmRun) (b x : Nat) (again : Bool) : Option Mach :=
  if x ≤ g.lo ∨ r.k ≤ x then none else
  (m.endSegAt g r b x).map fun m =>
    let others := (List.range 64).filter (· != b)
    (m.placeSeg g.ctx g.op r (if again then others ++ [b] else others))
/-- The segment in progress of a bench: its GEMM and its operands. -/
def Mach.segOn (m : Mach) (b : Nat) : Option (Gemm × GemmRun) :=
  ((m.bench b).seg.bind fun q => m.gemmAt q.1 q.2).bind fun g => (m.gemmOf g).map fun r => (g, r)
/-- The planner takes a bench at a reduction-tile boundary (R124, R146, R347). Which tile the segment is in, of those from the one it
is known to have reached, is free; none where it is in its last one, where the GEMM ends as usual, or where a row is held. -/
def Mach.yieldAt (m : Mach) (b : Nat) (again : Bool) : Option Mach :=
  if m.holdsRow b then none else
  (m.segOn b).bind fun (g, r) =>
    let lo := (m.bench b).red
    if r.k ≤ lo + 1 then none else
    let (m, w) := m.freeWord
    m.endAt g r b (lo + 1 + w.toNat % (r.k - 1 - lo)) again
/-- Is a bench's array free: no segment in progress? -/
def Mach.benchFree (m : Mach) (b : Nat) : Bool := (m.bench b).seg.isNone
/-- A drain or a yield meets the bench's segment (R124, R146). It ends at the next boundary, or is in its last reduction tile and
ends as usual; which, is free. -/
def Mach.benchEnd (m : Mach) (b : Nat) (again : Bool) : Mach :=
  match m.yieldAt b again with
  | none => m
  | some m' =>
    let (m0, w) := m.freeWord
    if bitAt w.toNat 0 then m' else m0
/-- A drain or a yield that came while a row was held takes effect once the row is resolved and committed: at the end of the
reduction tile in which the bench stood, unless that is the GEMM's last (R146). -/
def Mach.heldEnd (m : Mach) (b : Nat) : Mach :=
  if m.holdsRow b then m else
  let drain := m.bit .bench (b / 32) (b % 32) 0 1
  if !drain && !m.bit .bench (b / 32) (b % 32) 0 2 then m else
  ((m.segOn b).bind fun (g, r) => m.endAt g r b ((m.bench b).red + 1) (!drain)).getD m

/-- What BENCH_CTRL asks of the segment in progress: drain and yield set together act as drain (R144, R146). -/
def Mach.benchCtl (m : Mach) (d i : Nat) : Mach :=
  if m.bit .bench d i 0 1 then m.benchEnd (32 * d + i) false
  else if m.bit .bench d i 0 2 then m.benchEnd (32 * d + i) true else m
/-- A block reset of a bench discards its accumulator and what it held; its GEMMs go back to their last committed partials
(R146). -/
def Mach.resetBench (m : Mach) (b : Nat) : Mach :=
  let gs := m.gemms.filter fun g => g.bench == some b
  gs.foldl (fun m g => (m.setGemm { g with bench := none, first := 128 }).updFlight g.ctx g.op fun f =>
      { f with inst := none, ready := false })
    { m with benches := mapDel m.benches b
             disputes := m.disputes.filter fun d => !gs.any fun g => g.ctx == d.ctx && g.op == d.op }
/-- A bench whose enable was cleared while it worked reads enable 0, and unlocks its configuration, once drained reads 1. -/
def Mach.benchOff (m : Mach) : Mach :=
  if m.benchOffs.isEmpty then m else
  m.benchOffs.foldl (fun m b =>
    if bitAt (m.idleBits (benchInst b)) 1 then { m.clrBit .bench (b / 32) (b % 32) 0 0 with benchOffs := m.benchOffs.filter (· != b) }
    else m) m
/-- A GEMM has left the machine: its bench is free of it, and its partial's room. -/
def Mach.dropGemm (m : Mach) (c op : Nat) : Mach :=
  { m with
    gemms := m.gemms.filter fun g => !(g.ctx == c && g.op == op)
    benches := m.benches.map fun q =>
      (q.1, { q.2 with writer := if q.2.writer == some (c, op) then none else q.2.writer
                       seg := if q.2.seg == some (c, op) then none else q.2.seg
                       slack := if q.2.seg == some (c, op) then 128 else q.2.slack }) }
/-- May a GEMM complete: it has a bench, and the writer is not held by one before it (R127)? -/
def Mach.gemmEnds (m : Mach) (c op : Nat) : Bool :=
  match m.gemmAt c op with
  | none => true
  | some g => match g.bench with
    | none => false
    | some b => (m.bench b).writer == some (c, op) || (m.bench b).writer.isNone
/-- A GEMM completes: its last segment is counted where that has not been done at its handover. Where its bench still had an earlier
GEMM's tile to hand over, it may have stalled, for a free number of cycles; elsewhere it did not (R127; log entry 25). -/
def Mach.gemmLand (m : Mach) (c op : Nat) : Mach :=
  match m.gemmAt c op with
  | none => m
  | some g => match g.bench with
    | none => m
    | some b =>
      let m := if (m.bench b).seg = some (c, op) then m.segDone b else m
      let m := if g.late then m.freeWord.1.countAny .bench (b / 32) (b % 32) 0x20 m.freeWord.2.toNat else m
      m.dropGemm c op
/-- GEMMs that are no longer in flight are dropped, and those that wait for a bench take one. -/
def Mach.pumpGemms (m : Mach) : Mach :=
  if m.gemms.isEmpty then m else
  let gone := m.gemms.filter fun g => !(m.ctx g.ctx).flights.any fun f => f.op == g.op
  let m := gone.foldl (fun m g => m.dropGemm g.ctx g.op) m
  (m.gemms.filter fun g => g.bench.isNone).foldl (fun m g =>
    match m.gemmOf g with
    | some r => Mach.runPlan g.ctx g.op r.k r (r.k + 1) (m.placeSeg g.ctx g.op r [])
    | none => m) m

end Sys2Proof.Machine
end

