-- ==== Sys2Proof/Machine/Silent.lean ====
section
/-! DEFINITION. Silent errors: strikes and fences, Strain disagreements and their votes, Frit loans and tests, known-answer
vectors, self-tests (spec/13, R336 to R351). -/

namespace Sys2Proof.Machine

/-! ### Strikes and fences (R345, R346) -/

/-- The 16-bit identifier of an instance; `strain` names the checker of a bench. -/
def instIdent (i : Inst) (strain : Bool) : Nat :=
  (match i.kind with
    | .bench => if strain then 2 else 1
    | .marver => 3 | .gather => 4 | .jacks => 5 | .lehr => 6 | .pontil => 0) * 4096 + i.die * 256 + i.idx
/-- The station instance that an identifier concerns; a Strain stands for its bench. -/
def identInst (n : Nat) : Option Inst :=
  let k : Option StKind := match n / 4096 with
    | 1 => some .bench | 2 => some .bench | 3 => some .marver | 4 => some .gather | 5 => some .jacks | 6 => some .lehr
    | _ => none
  match k with
  | none => none
  | some k => if fld n 11 9 = 0 ∧ fld n 7 0 < k.perDie then some ⟨k, fld n 8 8, fld n 7 0⟩ else none

/-- The identifiers now fenced. -/
def Mach.fencedList (m : Mach) : List Nat :=
  let bs := m.dict? 0x7002 1
  (pieces 2 (bs.length / 2) bs).map ofLe
/-- Is the instance fenced, itself or through its Strain (R346)? -/
def Mach.fencedInst (m : Mach) (i : Inst) : Bool := m.fencedList.any fun n => identInst n == some i
def Mach.setFenced (m : Mach) (l : List Nat) : Mach := (m.storePut 0x7002 1 (l.flatMap (toLe 2))).dset 0x7002 3 l.length
/-- The lifetime of a strike in ms of powered time. -/
def Mach.strikeLife (m : Mach) : Nat := m.dnum 0x7001 2 * 3600000
/-- Drop the strikes that have expired (R345, R362). -/
def Mach.expireStrikes (m : Mach) : Mach :=
  { m with strikes := m.strikes.filter fun s => m.power.aoMs < s.time + m.strikeLife }

/-- The partition that owns a station instance. -/
def Mach.ownerOf (m : Mach) (i : Inst) : Nat := ((List.range 4).find? fun p => instOwned m.mode p i).getD 0

/-- Fence an instance: it leaves the planner's pool, reported with a flag when it was the last of its kind in its partition, and is
drained under R268: its drain bit is set, a segment of it ends and goes elsewhere, and it is disabled once it reads drained. -/
def Mach.fence (m : Mach) (ident : Nat) : Mach :=
  match identInst ident with
  | none => m
  | some i =>
    let m := (m.setService i false).setFenced (m.fencedList ++ [ident])
    let p := m.ownerOf i
    let left := (List.range (2 * i.kind.perDie)).any fun n =>
      let j := instOf i.kind n
      instOwned m.mode p j && m.inService j
    let m := m.fwEvent evInstanceFenced i.die (slotOf i.kind.blk i.idx) none (toLe 2 ident ++ toLe 1 (!left).toNat)
    let m := m.setBit i.kind.blk i.die i.idx 0 1
    if i.kind = .bench then m.benchEnd (benchNum i) false else m
/-- Does an instance's value, or its Strain's verdict, count in a vote in progress (R342, R362)? -/
def Mach.inVote (m : Mach) (ident : Nat) : Bool :=
  match identInst ident with
  | some i => i.kind == .bench && m.disputes.any fun d => d.runs.any fun x => x.1 == benchNum i
  | none => false
/-- Instances that reached the limit are fenced, those whose values count in a vote when it has ended (R362). -/
def Mach.pumpFences (m : Mach) : Mach :=
  if m.fenceWait.isEmpty then m else
  (m.fenceWait.filter fun n => !m.inVote n).foldl (fun m n => m.fence n)
    { m with fenceWait := m.fenceWait.filter fun n => m.inVote n }

/-- Charge a strike (R345, R346, R362). -/
def Mach.charge (m : Mach) (ident cause step handle : Nat) : Mach :=
  let m := m.expireStrikes
  let m : Mach := { m with strikes := m.strikes ++ [⟨ident, cause, m.power.aoMs⟩] }
  let n := m.strikes.countP fun s => s.inst == ident
  let fences := m.dnum 0x7001 1 ≤ n && !m.fencedList.contains ident && !m.fenceWait.contains ident
  let er := toLe 8 m.power.aoMs ++ toLe 2 ident ++ toLe 1 cause ++ toLe 1 n ++ toLe 1 fences.toNat ++ zeroBytes 3
    ++ toLe 8 step ++ toLe 4 handle ++ zeroBytes 4
  let m := m.storePut 0x7001 0x20 ((er ++ m.dict? 0x7001 0x20).take 2048)
  let m := if ident / 4096 = 2 then m.dadd 0x7001 0x11 1 else m.dadd 0x7001 0x12 1
  if fences then { m with fenceWait := m.fenceWait ++ [ident] }.pumpFences else m

/-- Return a fenced instance to service, enabled and no longer draining, and clear its strikes (R346). -/
def Mach.unfenceInst (m : Mach) (ident : Nat) : Option Mach :=
  if !m.fencedList.contains ident then none else
  let left := m.fencedList.filter (· != ident)
  let m := { (m.setFenced left) with strikes := m.strikes.filter fun s => s.inst != ident }
  match identInst ident with
  | none => some m
  | some i => some (if left.any fun j => identInst j == some i then m else
      ((m.setService i true).clrBit i.kind.blk i.die i.idx 0 1).setBit i.kind.blk i.die i.idx 0 0)

/-! ### Strain disagreements (R341 to R344) -/

/-- The counter of STRAIN that a cause code advances (R345, R364). -/
def strainCounter : Nat → Nat
  | 1 => 8 | 2 => 0x0C | 3 => 0x10 | _ => 0x14

/-- The stationary operand's handle of an operation. -/
def Mach.opHandle (m : Mach) (c op : Nat) : Nat := match (m.opsOf c)[op]? with | some o => (o.ref 0).handle | none => 0

/-- What a stage of a row takes and gives on a bench that a fault concerns: its inputs, and its values. Stage 0 is the row's
computation to its column totals, 1 the accumulator's addition, 2 the addition to prior content, 3 the conversion (R340). -/
structure StageRun where
  xs  : List Word
  ys  : List Word
  out : List Word
  deriving DecidableEq, Repr
/-- The values of a row after the first `hi` reduction tiles. -/
def GemmRun.rowAfter (r : GemmRun) (fixes : List RowFix) (hi m : Nat) : List Word :=
  (List.range 256).map fun j => (gemmSpan r.a r.b r.rho fixes 0 hi none j m).1
/-- A row of an output tile's content. -/
def Tensor.rowWords (t : Tensor) (k : Nat) (bs : Bytes) (m : Nat) : List Word :=
  (List.range 256).map fun j => plainValue t.desc.fmt (t.geom k) bs ⟨j, m, 0, 0⟩
/-- A stage of a row as a bench with the fault runs it; `t`, `k` and `old` are the output tile and its prior content. -/
def GemmRun.stage (r : GemmRun) (fixes : List RowFix) (t : Tensor) (k : Nat) (old : Bytes) (acc : Bool) (st : Nat)
    (f : BenchFault) : StageRun :=
  let wrong (ws : List Word) : List Word := if f.stage ≠ st then ws else
    ws.zipIdx.map fun q => match f.sums.find? fun e => e.1 == q.2 with | some e => e.2 | none => q.1
  let totals := totalsGot (r.a f.red) (r.b f.red) r.rho f
  let final := r.rowAfter fixes r.k f.row
  match st with
  | 0 => ⟨[], [], totals⟩
  | 1 =>
    let prev := if f.red = 0 then [] else r.rowAfter fixes f.red f.row
    ⟨prev, totals, wrong (if f.red = 0 then totals else (prev.zip totals).map fun q => fpAdd q.1 q.2)⟩
  | 2 =>
    let prior := if acc then t.rowWords k old f.row else []
    ⟨prior, final, wrong (if acc then (prior.zip final).map fun q => fpAdd q.1 q.2 else final)⟩
  | _ =>
    let sum := if acc then ((t.rowWords k old f.row).zip final).map fun q => fpAdd q.1 q.2 else final
    ⟨sum, [], wrong (if t.desc.fmt = .bf16 then sum.map fun w => ofBf16 (toBf16 w) else sum)⟩
/-- The cause that the checks of a stage give, as R345 numbers them: 0 where they agree (R337 to R340). -/
def GemmRun.check (r : GemmRun) (st : Nat) (f : BenchFault) (x : StageRun) : Nat :=
  let a := r.a f.red
  let b := r.b f.red
  match st with
  | 0 => if !strainExact a b f.bands f.row then 1 else if !strainTol a b r.rho f x.out then 2 else if !strainResidue a b f then 3 else 0
  | 3 => if strainConv x.xs x.out then 0 else 4
  | _ => if strainAdd x.xs x.ys x.out then 0 else 4
/-- The first stage of a row whose checks disagree, with the cause; a Strain that errs itself disagrees where none does. -/
def GemmRun.judge (r : GemmRun) (fixes : List RowFix) (t : Tensor) (k : Nat) (old : Bytes) (acc : Bool) (f : BenchFault) :
    Option (Nat × Nat) :=
  let run (st : Nat) : Nat := r.check st f (r.stage fixes t k old acc st f)
  if run 0 ≠ 0 then some (0, run 0)
  else if f.stage ≠ 0 ∧ run f.stage ≠ 0 then some (f.stage, 4)
  else if f.checker = 4 then some (max 1 f.stage, 4)
  else if f.checker ≠ 0 then some (0, f.checker) else none
/-- The values that a fault makes wrong and no check finds: they are committed (R359). -/
def GemmRun.unseen (r : GemmRun) (fixes : List RowFix) (t : Tensor) (k : Nat) (old : Bytes) (acc : Bool) (f : BenchFault) :
    List RowFix :=
  let fix (st : Nat) : RowFix := ⟨f.red, f.row, st, (r.stage fixes t k old acc st f).out⟩
  (if f.bands.isEmpty && f.totals.isEmpty && f.prods.isEmpty then [] else [fix 0]) ++ (if f.stage = 0 || f.sums.isEmpty then [] else [fix f.stage])

/-- A failed check is counted at the bench's Strain (R364). -/
def Mach.strainFail (m : Mach) (b cause : Nat) : Mach :=
  let i := benchInst b
  (m.count .strain i.die i.idx (strainCounter cause) 1).setBit .strain i.die i.idx 0 1
/-- Where a bench stands when a row's stage is disputed: at the row of its reduction tile, whose totals are not added, the next
stationary tile loaded while it waits; or, of a stage of the writer, at the end (R123, R340, R341). -/
def Mach.standHeld (m : Mach) (c op b red row stage : Nat) : Mach :=
  match m.gemmAt c op with
  | none => m
  | some g => match m.gemmOf g with
    | none => m
    | some r =>
      if (m.bench b).seg ≠ some (c, op) then m
      else if 2 ≤ stage then m.standAt g r b (r.k - 1) r.rows
      else
        let m := m.standAt g r b red row
        if red + 1 < g.until r.k then m.setBench b ((m.bench b).loadNext r) else m
/-- A check of Strain disagreed: counted, and the row held until its reruns decide (R341, R342). -/
def Mach.openDispute (m : Mach) (c op b : Nat) (f : BenchFault) (stage cause : Nat) (value : List Word) : Mach :=
  let m := (m.strainFail b cause).dadd 0x7001 0x10 1
  let d : Dispute := ⟨c, op, b, f.red, f.row, stage, cause, f.checker != 0, [(b, (value, (false, false)))]⟩
  let m : Mach := { m with disputes := m.disputes ++ [d] }
  (m.updFlight c op fun x => { x with ready := false }).standHeld c op b f.red f.row stage

/-- The value that at least two runs gave bit for bit, one of them passed by its own Strain (R342). -/
def voteOf (runs : List (Nat × (List Word × (Bool × Bool)))) : Option (List Word) :=
  (runs.map fun r => r.2.1).find? fun v =>
    let same := runs.filter fun r => r.2.1 == v
    2 ≤ same.length && same.any fun r => r.2.2.1

/-- Strikes of a vote: benches whose value was not adopted, and Strains wrong about their own bench's value. -/
def Mach.chargeVote (m : Mach) (runs : List (Nat × (List Word × (Bool × Bool)))) (v : List Word) (cause step handle : Nat) :
    Mach :=
  runs.foldl (fun m r =>
    let i := benchInst r.1
    let m := if r.2.1 != v then m.charge (instIdent i false) cause step handle else m
    if r.2.2.1 != (r.2.1 == v) then m.charge (instIdent i true) cause step handle else m) m

/-- Tell of a disagreement and its outcome (R344): the benches that ran the unit, each with the Strain of its number, the original
first, at most four (0xFF: none); the operation and its context as BENCH_CUR_OP names them, the case above; the step. The spec
gives the detail no layout (the model's choice, log entry 84). -/
def Mach.tellDispute (m : Mach) (d : Dispute) (kase : Nat) : Mach :=
  let i := benchInst d.bench
  let who := (List.range 4).flatMap fun n => toLe 1 (match d.runs[n]? with | some x => x.1 | none => 255)
  m.fwEvent evStrainDisagree i.die (slotOf .bench i.idx) (some (m.ctx d.ctx).part)
    (who ++ toLe 4 (d.op % 2 ^ 20 + 2 ^ 20 * d.ctx + 2 ^ 25 * kase) ++ toLe 8 (m.ctxStep d.ctx))

/-- A value of a row that is not the one computed is committed: the GEMM's output follows from it (R344). -/
def Mach.fixRow (m : Mach) (c op : Nat) (x : RowFix) : Mach :=
  match m.gemmAt c op with
  | none => m
  | some g =>
    let g := { g with fixes := g.fixes ++ [x] }
    match m.gemmOf g, g.bench with
    | some r, some _ => (m.setGemm g).setOut g r
    | _, _ => m.setGemm g
/-- The disputed unit of a GEMM run again on another bench with a fault of its own, if any, from operand tiles: its values, and the
cause that the checks of a Strain that works give, 0 where they agree (R342). -/
def Mach.rerunUnit (m : Mach) (d : Dispute) (f : BenchFault) (tiles : List Bytes) : Option (List Word × Nat) :=
  match m.gemmAt d.ctx d.op with
  | none => none
  | some g =>
    let w := m.refAt g.part (g.o.ref 2)
    match m.gemmRun g.o g.part tiles, m.tensor? g.part w.1 with
    | some r, some t =>
      let f := { f with red := d.red, row := d.row, stage := if f.stage = 0 then 0 else d.stage }
      let x := r.stage g.fixes t w.2 (m.prior g.part w g.tiles g.o.acc (2 * g.o.param)) g.o.acc d.stage f
      some (x.out, r.check d.stage f x)
    | _, _ => none
/-- The operand tiles of a rerun, read afresh from the tile records in memory, or the fault they give (R45, R260, R342). A stage
after the row's totals needs none. -/
def Mach.rerunTiles (m : Mach) (d : Dispute) : Mach × List Bytes × Option FaultInfo :=
  match m.gemmAt d.ctx d.op with
  | none => (m, [], none)
  | some g => if d.stage = 0 then m.fetchTiles g.part (m.gemmIns g.o g.part) else (m, g.tiles, none)
/-- No physical fault. -/
def noFault : BenchFault := ⟨0, 0, [], [], [], 0, [], 0, 0, []⟩
/-- The value a correct bench gives the disputed unit. -/
def Mach.trueRow (m : Mach) (d : Dispute) : List Word :=
  (((m.gemmAt d.ctx d.op).bind fun g => m.rerunUnit d noFault g.tiles).map (·.1)).getD []

/-- The cycles for which a disputed row held its bench are free (R341; log entry 25). -/
def Mach.heldTime (m : Mach) (d : Dispute) : Mach :=
  let i := benchInst d.bench
  m.freeWord.1.countAny .strain i.die i.idx 0x18 m.freeWord.2.toNat

/-- A dispute ends with a value: it is committed, the operation may complete when no other row of it is held, and the segment
boundaries that the row put off take effect, a drain's or a yield's first (R125, R146, R344). -/
def Mach.adopt (m : Mach) (d : Dispute) (v : List Word) : Mach :=
  let m := m.heldTime d
  let m := if v = m.trueRow d then m else m.fixRow d.ctx d.op ⟨d.red, d.row, d.stage, v⟩
  let m := { m with disputes := m.disputes.filter fun e =>
    !(e.ctx == d.ctx && e.op == d.op && e.red == d.red && e.row == d.row && e.stage == d.stage) }
  let m := m.pumpFences
  if m.disputes.any fun e => e.ctx == d.ctx && e.op == d.op then m
  else match m.gemmAt d.ctx d.op with
    | none => m
    | some g => match m.gemmOf g with
      | none => m
      | some r =>
        let m := if (m.bench d.bench).seg = some (d.ctx, d.op) ∧ d.stage < 2 then m.standAt g r d.bench d.red (d.row + 1) else m
        Mach.runPlan d.ctx d.op r.k r (r.k + 1) ((m.setOut g r).heldEnd d.bench)

/-- No value qualified within max_runs (R343). -/
def Mach.unresolved (m : Mach) (d : Dispute) : Mach :=
  let m := m.heldTime d
  let step := m.ctxStep d.ctx
  let h := m.opHandle d.ctx d.op
  let i := benchInst d.bench
  let m := d.runs.foldl (fun m r =>
    (m.charge (instIdent (benchInst r.1) false) 8 step h).charge (instIdent (benchInst r.1) true) 8 step h) m
  let m := (m.dadd 0x7001 0x13 1).fwEvent evStrainUnresolved i.die (slotOf .bench i.idx) (some (m.ctx d.ctx).part)
    (toLe 2 (instIdent i false) ++ zeroBytes 2 ++ toLe 4 d.op ++ toLe 8 step)
  let m := { m with disputes := m.disputes.filter fun e => !(e.ctx == d.ctx && e.op == d.op) }
  (m.dropGemm d.ctx d.op).pumpFences.flightFault d.ctx d.op { code := fcInternal }

/-- Is the bench part of a loan? -/
def Mach.lent (m : Mach) (b : Nat) : Bool := m.loans.any fun l => l.bench == b || l.partner == b
/-- May the bench run a disputed unit again: in service, of the same partition, not lent to a test and not yet a party; the second run
on the same die where one exists (R342, R347)? -/
def Mach.rerunOk (m : Mach) (d : Dispute) (b : Nat) : Bool :=
  let may (q : Nat) : Bool :=
    let i := benchInst q
    m.inService i && !m.lent q && instOwned m.mode (m.ctx d.ctx).part i && !(d.runs.any fun r => r.1 == q)
  b < 64 && may b
  && (d.runs.length != 1 || b / 32 == d.bench / 32 || !(List.range 32).any fun q => may (d.bench / 32 * 32 + q))

/-- The votes of R342 and R343 over a dispute's runs, the newest included; `strain` is the newest's own verdict. -/
def Mach.settleUnit (m : Mach) (d d' : Dispute) (value : List Word) (strain agrees : Bool) : Mach :=
  let step := m.ctxStep d.ctx
  let h := m.opHandle d.ctx d.op
  let o := match d.runs with | r :: _ => r.2.1 | [] => []
  if d.runs.length = 1 ∧ value = o ∧ strain then
    ((m.charge (instIdent (benchInst d.bench) true) d.cause step h).tellDispute d' 1).adopt d' o
  else if d.runs.length = 1 ∧ value ≠ o ∧ strain ∧ agrees then
    ((m.charge (instIdent (benchInst d.bench) false) d.cause step h).tellDispute d' 2).adopt d' value
  else if d.runs.length = 1 then m
  else match voteOf d'.runs with
    | some v => ((m.chargeVote d'.runs v d.cause step h).tellDispute d' 3).adopt d' v
    | none => if m.dnum 0x7001 3 ≤ d'.runs.length then (m.tellDispute d' 3).unresolved d' else m
/-- A further bench has run the disputed unit (R342, R343), with the physical fault it met, if any. Whether its value also agrees
with the original Strain's predictions follows from the checks, but where that Strain errs itself: there `origAgrees` says it.
The oldest dispute that the bench may serve and that `run` runs have judged so far is meant (log entry 10). The row is counted at
that bench's Strain, and a check of it that failed (R364); the bench's own counters, which count segments of operations, stand (the
model's choice, log entry 76). A tile record that can not be read faults the stream. -/
def Mach.rerunDone (m : Mach) (b run : Nat) (fault : Option BenchFault) (origAgrees : Bool) : Mach :=
  match m.disputes.find? fun d => m.rerunOk d b && d.runs.length == run with
  | none => m
  | some d =>
    let (m, tiles, bad) := m.rerunTiles d
    match bad with
    | some f => ({ m with disputes := m.disputes.filter fun e => !(e.ctx == d.ctx && e.op == d.op) }.dropGemm d.ctx
        d.op).pumpFences.flightBounds d.ctx d.op f
    | none =>
    match m.rerunUnit d (fault.getD noFault) tiles with
    | none => m
    | some (value, cause) =>
    let err := match fault with | some f => f.checker | none => 0
    let agrees := if d.checker then origAgrees else cause == 0
    let cause := if cause = 0 then err else cause
    let m := m.count .strain (b / 32) (b % 32) 4 1
    let m := if cause = 0 then m else m.strainFail b cause
    let d' := { d with runs := d.runs ++ [(b, (value, (cause == 0, agrees)))] }
    let m := { m with disputes := m.disputes.map fun e => if e = d then d' else e }
    m.settleUnit d d' value (cause == 0) agrees

/-! ### The bench's operation -/

/-- A bench refuses a segment whose passes are more than its cap (R145): FAULT_INTERNAL is raised with its record, which becomes
the partition's last one (R53); the segment is reissued elsewhere, so the stream goes on. A cap of 0, which is reserved, refuses
every segment (the model's choice, log entry 76). -/
def Mach.refusePasses (m : Mach) (c p : Nat) (i : Inst) : Mach :=
  let rec' := m.faultRecord c (m.ctx c).pc { code := fcInternal }
  (m.fwEvent evStreamFault i.die (slotOf .bench i.idx) (some p) (rec'.take 16)).dictPut (0x2010 + p) 6 rec'
/-- The boundaries of a plan that lie inside a GEMM, in rising order. -/
def planOf (k : Nat) (cuts : List (Nat × Nat)) : List (Nat × Nat) :=
  sortBy (·.1) (cuts.filter fun q => 0 < q.1 && q.1 < k)
/-- A codeword of the accumulator with errors is read with the row's sum so far (R340): corrected, written back and counted; or
uncorrectable, and handled as a block reset of the bench (R146). More errors than the code corrects may leave a wrong value. -/
def Mach.accRead (m : Mach) (c op b : Nat) (r : GemmRun) (g : Gemm) (f : BenchFault) : Mach :=
  if f.upset.isEmpty || f.red = 0 then m else
  let i := benchInst b
  let row := r.rowAfter g.fixes f.red f.row
  let old := bytesOfWords ((row.drop (4 * f.entry)).take 4)
  match readUpset old f.upset with
  | (bs, .fix _ _) =>
    let m := m.count .strain i.die i.idx 0x1C 1
    if bs = old then m else
    m.fixRow c op ⟨f.red - 1, f.row, 1, row.take (4 * f.entry) ++ wordsOfBytes bs ++ row.drop (4 * f.entry + 4)⟩
  | (_, .clean) => m
  | _ => ((m.count .strain i.die i.idx 0x20 1).setBit .strain i.die i.idx 0 2).resetBench b
/-- What a physical fault does to a GEMM that has begun: boundaries up to its reduction tile take effect first, then the accumulator
is read, and a check of Strain disagrees, or the wrong value is committed (R337 to R341). -/
def Mach.meetFault (m : Mach) (c op : Nat) (r : GemmRun) (t : Tensor) (k : Nat) (old : Bytes) (f : BenchFault) : Mach :=
  let m := Mach.runPlan c op f.red r (r.k + 1) m
  let m := match m.gemmAt c op with
    | some g => (match g.bench with | some b => m.accRead c op b r g f | none => m)
    | none => m
  match m.gemmAt c op with
  | none => m
  | some g =>
    match r.judge g.fixes t k old g.o.acc f, g.bench with
    | some (st, cause), some b =>
      m.openDispute c op b f st cause (r.stage g.fixes t k old g.o.acc st f).out
    | _, _ =>
      Mach.runPlan c op r.k r (r.k + 1) ((r.unseen g.fixes t k old g.o.acc f).foldl (fun m x => m.fixRow c op x) m)
/-- GEMM (R31, R111 to R126): `cuts` are the reduction tiles before which the planner ends a segment, with the bench of the next
(R124); `fault` a physical fault of the bench. -/
def Mach.gemmStart (c : Nat) (cuts : List (Nat × Nat)) (fault : Option BenchFault) (m : Mach) (o : Op) (p : Nat) (i : Inst) :
    Mach :=
  let w := m.refAt p (o.ref 2)
  m.withInputs c p [w] (m.gemmIns o p) fun m bs =>
    match m.gemmRun o p bs, m.tensor? p w.1 with
    | some r, some t =>
      if !m.benchTakes p (benchNum i) 0 ((planOf r.k cuts).headD (r.k, 0)).1 r then m.refusePasses c p i else
      let ins := m.gemmIns o p
      let m := ((ins.zip bs).take (2 * r.k)).foldl (fun m q =>
        match m.tensor? p q.1.1 with | some u => m.checkRec .bench i.die i.idx u q.1.2 q.2 | none => m) m
      let op := (m.ctx c).pc
      let g : Gemm := { ctx := c, op := op, part := p, o := o, tiles := bs, bench := none, plan := planOf r.k cuts }
      let m := ({ m with gemms := m.gemms ++ [g] }.takeOff c (some i) [w] [] true).beginSeg g r (benchNum i)
      (match fault with
      | some f => if f.red < r.k ∧ f.row < r.rows then m.meetFault c op r t w.2 (m.prior p w bs o.acc (2 * r.k)) f
                  else Mach.runPlan c op r.k r (r.k + 1) m
      | none => Mach.runPlan c op r.k r (r.k + 1) m)
    | _, _ => m

/-! ### Frit and known-answer tests (R347 to R351) -/

/-- May a loan begin, but for what its benches still do: two benches of one partition, in service, neither lent, one further
bench of the partition left in service, no more tests on the die than frit_concurrent (R347)? -/
def Mach.loanOk (m : Mach) (b q : Nat) : Bool :=
  let i := benchInst b
  let j := benchInst q
  let p := m.ownerOf i
  b < 64 && q < 64 && b != q && instOwned m.mode p j && m.inService i && m.inService j && !m.lent b && !m.lent q
  && ((List.range 64).any fun n => n != b && n != q && instOwned m.mode p (benchInst n) && m.inService (benchInst n) && !m.lent n)
  && (m.loans.countP fun l => l.bench / 32 == b / 32) < m.dnum 0x7010 3
/-- Loans begin whose benches are free; the others wait for the segment in progress, or for a held row (R347, R362). -/
def Mach.pumpLoans (m : Mach) : Mach :=
  if m.fritWait.isEmpty then m else
  m.fritWait.foldl (fun m l =>
    if !m.loanOk l.bench l.partner then { m with fritWait := m.fritWait.filter (· != l) }
    else if m.benchFree l.bench && m.benchFree l.partner then
      { m with fritWait := m.fritWait.filter (· != l), loans := m.loans ++ [l] }
    else m) m
/-- A bench's Frit period is over: it and a partner are taken at a reduction-tile boundary (R347). -/
def Mach.fritStart (m : Mach) (b q : Nat) : Mach :=
  if !m.loanOk b q then m else
  let take (m : Mach) (n : Nat) : Mach := (m.yieldAt n false).getD m
  let m := take (take m b) q
  let m : Mach := { m with fritWait := m.fritWait ++ [⟨b, q⟩] }
  m.pumpLoans

/-- The runs of part `k` of a test on the benches named: each one's values of the rows that a fault of any run concerns, and its
Strain's verdict. A row that no fault concerns has the same values in every run (R348, R350). -/
def fritRuns (seed n k : Nat) (runs : List FritRun) (benches : List Nat) : List (Nat × (List Word × (Bool × Bool))) :=
  let met (x : Nat) : Option BenchFault := (runs.find? fun r => r.part == k && r.bench == x).bind (·.fault)
  let rows := sortBy id (dedup (benches.filterMap fun x => (met x).map (·.row)))
  benches.map fun x =>
    let ok := fritCause seed n k (met x) == 0
    (x, (rows.flatMap (fritRow seed n k (met x)), (ok, ok)))
/-- Did the first two runs of a part pass: bit-identical values, both Strains agreeing (R350)? -/
def fritPass (rs : List (Nat × (List Word × (Bool × Bool)))) : Bool :=
  match rs with
  | x :: y :: _ => x.2.1 == y.2.1 && x.2.2.1 && y.2.2.1
  | _ => false
/-- A run of a part is counted at its bench's Strain: 32 × 512 rows, and a check that failed (R364). -/
def Mach.fritCount (m : Mach) (seed n k : Nat) (runs : List FritRun) (x : Nat) : Mach :=
  let cause := fritCause seed n k ((runs.find? fun r => r.part == k && r.bench == x).bind (·.fault))
  let m := m.count .strain (x / 32) (x % 32) 4 (32 * 512)
  if cause = 0 then m else m.strainFail x cause
/-- Part `k` of a test on the two benches lent and, where it fails, on further ones, until a value qualifies or max_runs runs are made
(R342, R350). Where none does, every bench and every Strain that took part is charged, as R343 says of a row. -/
def Mach.fritPart (m : Mach) (seed n k : Nat) (runs : List FritRun) (two more : List Nat) : Mach :=
  let all := two ++ more.take (m.dnum 0x7001 3 - 2)
  let upTo (x : Nat) := fritRuns seed n k runs (all.take x)
  if fritPass (upTo 2) then two.foldl (fun m x => m.fritCount seed n k runs x) m else
  let last := ((List.range (all.length - 2)).map (· + 3)).find? fun x => (voteOf (upTo x)).isSome
  let ran := all.take (last.getD all.length)
  let m := ran.foldl (fun m x => m.fritCount seed n k runs x) m
  match last.bind fun x => voteOf (upTo x) with
  | some v => m.chargeVote (fritRuns seed n k runs ran) v 5 0 0
  | none => ran.foldl (fun m x =>
      (m.charge (instIdent (benchInst x) false) 8 0 0).charge (instIdent (benchInst x) true) 8 0 0) m
/-- A test ends (R348, R350): `runs` says what physical faults made of its runs; a run that it does not name met none. Further benches
are in-service ones of the partition that no test holds, those that `runs` names first (the model's choice, log entry 76). The
benches' own counters stand: they count segments of operations. -/
def Mach.fritDone (m : Mach) (b : Nat) (runs : List FritRun) : Mach :=
  match m.loans.find? fun l => l.bench == b with
  | none => m
  | some l =>
    let seed := m.dnum 0x7010 4
    let n := m.fritNum
    let p := m.ownerOf (benchInst b)
    let free := (List.range 64).filter fun x =>
      x != b && x != l.partner && instOwned m.mode p (benchInst x) && m.inService (benchInst x) && !m.lent x
    let named := dedup (runs.map (·.bench))
    let more := (named.filter free.contains) ++ free.filter fun x => !named.contains x
    let two := [b, l.partner]
    let m := ({ m with loans := m.loans.filter (fun l => l.bench != b), fritNum := m.fritNum + 1 }).dadd 0x7010 0x10 1
    let m := if (List.range 4).all fun k => fritPass (fritRuns seed n k runs two) then m else m.dadd 0x7010 0x11 1
    (List.range 4).foldl (fun m k => m.fritPart seed n k runs two more) m
/-- A test that cannot finish in time is abandoned without a strike (R347). -/
def Mach.fritExpire (m : Mach) (b : Nat) : Mach :=
  { m with loans := m.loans.filter (fun l => l.bench != b), fritWait := m.fritWait.filter fun l => l.bench != b }

/-- May an instance be lent for known-answer vectors: in service, with no operation in progress and, of a Jacks engine, not reserved
(R324, R347, R349)? The command stands for the whole test: the instance is lent and given back within it (log entry 76). -/
def Mach.kavFree (m : Mach) (i : Inst) : Bool :=
  (match i.kind with | .marver | .gather | .jacks | .lehr => true | _ => false)
  && i.die < 2 && i.idx < i.kind.perDie && m.inService i && !m.instActive i
  && !(i.kind == .jacks && m.colls.any fun k => k.jacks.contains i)
/-- Is a result the stored answer, bit for bit (R349)? It is told by where it differs from that answer: the answers, and the vectors,
stand in the firmware image. -/
def kavSame (r : KavResult) : Bool := r.all fun e => e.2 == 0
/-- Known-answer vectors of an instance (R349): on a mismatch they run again there and on a second instance of its kind. -/
def Mach.knownAnswer (m : Mach) (i : Inst) (got1 got1again : KavResult) (second : Nat) (got2 : KavResult) : Mach :=
  let j := instOf i.kind second
  if !m.kavFree i then m
  else
    let m := m.wakeInst i
    if kavSame got1 ∨ j = i ∨ !m.kavFree j then m
    else
      let kav (m : Mach) (x : Inst) : Mach := if x.kind = .jacks then m.count .jacks x.die x.idx 0x1C 1 else m
      let m := kav (m.wakeInst j) i
      let m := if kavSame got1again then m else kav m i
      if kavSame got2 then m.charge (instIdent i false) 6 0 0
      else (kav m j).fwEvent evFritSuspect i.die (slotOf i.kind.blk i.idx) none
        (toLe 2 (instIdent i false) ++ toLe 2 (instIdent j false))

/-- Every self-test result: state and result entries (R351). -/
def Mach.selftestDone (m : Mach) (rs : List (Nat × Bool × Nat)) : Mach :=
  if m.dnum 0x7010 6 ≠ 1 ∧ m.dnum 0x7010 6 ≠ 2 then m else
  let m := m.dictPut 0x7010 7 ((rs.flatMap fun r => toLe 2 r.1 ++ toLe 1 r.2.1.toNat ++ toLe 1 r.2.2).take 1024)
  m.dset 0x7010 6 (if rs.all fun r => r.2.1 then 3 else 4)

end Sys2Proof.Machine
end

