-- ==== Sys2Proof/Machine/LehrOps.lean ====
section
/-! DEFINITION. Lehr's operations: UPDATE, ROW_UPDATE, SNAPSHOT, the undo journal (spec/07). -/

namespace Sys2Proof.Machine

/-! ### The journal (R185 to R188) -/

/-- Bytes of a record: the 32-byte head and the old content padded to 64 (R186). -/
def JournalRec.size (r : JournalRec) : Nat := 32 + roundUp r.length 64
def Group.journalUsed (g : Group) : Nat := (g.journal.map JournalRec.size).sum
/-- The parts of a group's journal that hold no record, in rising order: address and bytes. -/
def Group.journalGaps (g : Group) : List (Nat × Nat) :=
  let used := sortBy (·.1) (g.journal.flatMap (·.places))
  g.journalArea.flatMap fun w =>
    let (a, gaps) := (used.filter fun q => w.1 ≤ q.1 && q.1 < w.1 + w.2).foldl (fun (s : Nat × List (Nat × Nat)) q =>
      (q.1 + q.2, if s.1 < q.1 then s.2 ++ [(s.1, q.1 - s.1)] else s.2)) (w.1, [])
    gaps ++ (if a < w.1 + w.2 then [(a, w.1 + w.2 - a)] else [])
/-- Bytes of a group's journal (R185). -/
def Group.journalBytes (g : Group) : Nat := areaBytes g.journalArea
/-- A record as it is stored (R186). -/
def JournalRec.toBytes (r : JournalRec) (co : Dim4) (old : Bytes) : Bytes :=
  toLe 8 r.step ++ toLe 4 (r.handle + 2 ^ 20 * r.kind) ++ toLe 4 co.d0 ++ toLe 4 co.d1 ++ toLe 2 co.d2 ++ toLe 2 co.d3
  ++ toLe 4 r.length ++ zeroBytes 4 ++ fitBytes (roundUp r.length 64) old

/-- The records that a write of these tiles (handle, tile, kind) needs first. -/
def Mach.journalNeed (m : Mach) (g : Group) (ts : List (Nat × Nat × Nat)) : List JournalRec :=
  ts.filterMap fun q =>
    let (h, k, kind) := q
    if g.journal.any fun r => r.step == g.step && r.handle == h && r.tile == k && !r.held then none
    else match m.tensor? g.part h with
      | none => none
      | some t =>
        some { step := g.step, handle := h, tile := k, kind := kind, length := t.tileLen k, places := []
               form := (t.mark k).form, place := (t.mark k).place }
/-- Append a record to a group's journal and write it to the LP tier. What is poisoned of the tile stays poisoned in the record
(R259). A place out of the partition's bounds is not written (R45). -/
def Mach.journalPut (m : Mach) (p g : Nat) (r : JournalRec) : Mach :=
  match m.group? p g, m.tensor? p r.handle with
  | some x, some t =>
    let r := { r with places := areaTake x.journalGaps r.size }
    let (m, old, bad) := m.memRead 0 (t.tileAddr r.tile) r.length
    let m := m.scatterIn p 0 r.places (r.toBytes (Dim4.ofLin t.desc.tiles r.tile) old)
    let m := if bad.isSome || (t.mark r.tile).poisoned then r.places.foldl (fun m q => m.poisonRange q.1 q.2) m else m
    m.updGroup p g fun x => { x with journal := x.journal ++ [r] }
  | _, _ => m
/-- Give a record another place in its group's journal (R185). -/
def Mach.journalMove (m : Mach) (p g : Nat) (r : JournalRec) (bs : Bytes) (bad : Bool) : Mach :=
  match m.group? p g with
  | none => m
  | some x =>
    let r := { r with places := areaTake x.journalGaps r.size }
    let m := m.scatterIn p 4 r.places bs
    let m := if bad then r.places.foldl (fun m q => m.poisonRange q.1 q.2) m else m
    m.updGroup p g fun x => { x with journal := x.journal ++ [r] }
/-- The old content that a record holds, and whether some of it can not be read. -/
def Mach.journalRead (m : Mach) (r : JournalRec) : Mach × Bytes × Bool :=
  let (m, bs, bad) := m.collect 0 r.places
  (m, subBytes bs 32 r.length, bad.isSome)

/-- What becomes of a Lehr operation: it waits for journal room, it does not go on, or it has results. -/
inductive LehrOut where
  | wait
  | gone
  | done (ws : List TileWrite)
  deriving DecidableEq, Repr

/-- Do the journal records that a write of these tiles needs fit (R186)? -/
def Mach.journalHas (m : Mach) (g : Group) (ts : List (Nat × Nat × Nat)) : Bool :=
  g.kind != .training || g.journalUsed + ((m.journalNeed g ts).map JournalRec.size).sum ≤ g.journalBytes
/-- Write the journal records that an operation needs (R186, R188): none, and why, where they do not fit. The operation waits
while an older step can still commit, or a checkpoint or a digest round holds records (R213, R354). -/
def Mach.journalFor (m : Mach) (p g : Nat) (i : Inst) (ts : List (Nat × Nat × Nat)) : Mach × Option LehrOut :=
  match m.group? p g with
  | none => (m, none)
  | some x =>
    if x.kind ≠ .training then (m, none) else
    let rs := m.journalNeed x ts
    if m.journalHas x ts then
      ((rs.foldl (fun m r => m.journalPut p g r) m).count .lehr i.die i.idx 0x1C rs.length, none)
    else if x.awaiting.isSome || x.journal.any (·.held) then (m, some .wait)
    else (m.abortStep p g 2 (rs.map JournalRec.size).sum true, some .gone)

/-! ### UPDATE (R172 to R175, R178 to R184) -/

/-- The slot an operation names. -/
def Mach.optSlot (m : Mach) (p k : Nat) : OptSlot := OptSlot.ofBytes (m.dict? (0x4130 + p) (1 + k % 16))
/-- The linear index of an element in the whole tensor (R180). -/
def Tensor.linIndex (t : Tensor) (k : Nat) (i : Dim4) : Nat := Dim4.lin t.desc.ext ((t.geom k).glob i)

/-- Store values in a master, moment or accumulator tile: FP32 as computed, BF16 stochastically; elements that `keep`
names keep their bits (R178, R179). -/
def Tensor.storeSr (t : Tensor) (k : Nat) (old : Bytes) (seed step stream : Nat) (keep : Dim4 → Bool) (v : Dim4 → Word) :
    Bytes :=
  let g := t.geom k
  (List.range g.n).flatMap fun q =>
    let i := g.idx q
    let e := t.desc.fmt.eltBytes
    if !g.inside i || keep i then subBytes old (e * q) e
    else if t.desc.fmt = .bf16 then
      toLe 2 (toBf16Sr (v i) ((lehrRand seed step t.handle stream (t.linIndex k i)).setWidth 16)).toNat
    else toLe 4 (v i).toNat

/-- The tiles an UPDATE writes, with the kinds of their journal records. -/
def Mach.updateKinds (m : Mach) (o : Op) (p : Nat) : List (Nat × Nat × Nat) :=
  let (h, k) := m.refAt p (o.ref 1)
  let (wh, wk) := m.refAt p (o.ref 2)
  [(h, k, 0), (h + 1, k, 1)] ++ (if (m.optSlot p o.param).kind = 2 then [(h + 2, k, 2)] else []) ++ [(wh, wk, 3)]
/-- UPDATE on one tile, from the bytes of gradient, master, first and second moment. -/
def Mach.updateWith (m : Mach) (c : Nat) (o : Op) (p : Nat) (i : Inst) (bs : List Bytes) : Mach × LehrOut :=
  let gn := (m.ctx c).group
  let (gh, gk) := m.refAt p (o.ref 0)
  let (h, k) := m.refAt p (o.ref 1)
  let (wh, wk) := m.refAt p (o.ref 2)
  let slot := m.optSlot p o.param
  match m.group? p gn, m.tensor? p gh, m.tensor? p h, m.tensor? p (h + 1) with
  | some grp, some tg, some tm, some t1 =>
    let t2 := m.tensor? p (h + 2)
    let (m, j) := m.journalFor p gn i (m.updateKinds o p)
    match j with
    | some r => (m, r)
    | none =>
      let step := m.keyStep c
      let layer := tm.desc.layer
      let rr := mapGetD grp.ratios layer {}
      let tau := trustTau slot (if rr.agreed then some rr.rhoD else none)
      let clip := mapGet grp.clips layer
      let kc := updConst slot step tau (clip.getD one32) (grp.clipped && slot.clip && clip.isSome)
      let g := tm.geom k
      let vg := tg.values gk (bs.getD 0 [])
      let vw := tm.values k (bs.getD 1 [])
      let v1 := t1.values k (bs.getD 2 [])
      let v2 : Dim4 → Word := match t2 with
        | some t => if slot.kind = 2 then t.values k (bs.getD 3 []) else fun _ => 0
        | none => fun _ => 0
      let els := (g.all.map fun x => updElement kc (vg x) (vw x) (v1 x) (v2 x)).toArray
      let el (x : Dim4) : UpdElt := els.getD (g.pos x) ⟨true, 0, 0, 0, 0, 0, true⟩
      let ins := g.all.filter g.inside
      let live := ins.countP fun x => !(el x).left
      let lost := ins.length - live
      let kept := ins.countP fun x => !(el x).left && !(el x).keepW
      let nm := tm.storeSr k (bs.getD 1 []) grp.seed step 0 (fun x => (el x).left || (el x).keepW) fun x => (el x).wNew
      let n1 := t1.storeSr k (bs.getD 2 []) grp.seed step 1 (fun x => (el x).left) fun x => (el x).m
      let n2 := match t2 with
        | some t => if slot.kind = 2
            then [(⟨h + 2, k, t.storeSr k (bs.getD 3 []) grp.seed step 2 (fun x => (el x).left) fun x => (el x).v, false⟩ : TileWrite)]
            else []
        | none => []
      let (m, wc) := m.encodeInto (some i) lehrRegs p gn wh wk .working (tm.values k nm)
      match wc with
      | none => (m, .gone)
      | some wt =>
        let sr := (if slot.m16 then kept else 0) + (if slot.mom16 then live * (1 + n2.length) else 0)
        let m := ((m.count .lehr i.die i.idx 0x10 live).count .lehr i.die i.idx 0x14 sr).count .lehr i.die i.idx 0x18 lost
        let s := ratioSums (ins.map fun x => (g.pos x, vw x, el x))
        let m := m.updGroup p gn fun x =>
          { x with gradNonfinite := x.gradNonfinite + lost
                   sums := if layer = 0xFFFF then x.sums else x.sums ++ [(h, (k, s))] }
        (m.noteRep c wh, .done ([⟨h, k, nm, false⟩, ⟨h + 1, k, n1, false⟩] ++ n2 ++ [wt]))
  | _, _, _, _ => (m, .gone)

/-- The tiles an UPDATE reads and writes. -/
def Mach.updateIns (m : Mach) (o : Op) (p : Nat) : List (Nat × Nat) :=
  let (h, k) := m.refAt p (o.ref 1)
  [m.refAt p (o.ref 0), (h, k), (h + 1, k)] ++ (if (m.optSlot p o.param).kind = 2 then [(h + 2, k)] else [])
def Mach.updateOuts (m : Mach) (o : Op) (p : Nat) : List (Nat × Nat) :=
  (m.updateIns o p).drop 1 ++ [m.refAt p (o.ref 2)]

/-! ### ROW_UPDATE (R176, R177) -/

/-- The indices of a merged-index tile up to the first all-ones index, with their gradient rows. -/
def Mach.rowList (m : Mach) (o : Op) (p : Nat) (rb ib : Bytes) : List (Nat × List Word) :=
  match m.tensor? p (o.ref 0).handle, m.tensor? p (o.ref 1).handle with
  | some tr, some ti =>
    mergedList ti.desc.fmt (ti.indices (m.refAt p (o.ref 1)).2 ib) (tr.rows (m.refAt p (o.ref 0)).2 rb)
  | _, _ => []

/-- Split a list into rounds in which no index stands twice, in list order (log entry 11). -/
def rowRounds : Nat → List (Nat × List Word) → List (List (Nat × List Word))
  | 0, _ => []
  | fuel + 1, xs =>
    if xs.isEmpty then [] else
    let (now, later) := xs.foldl (fun (a : List (Nat × List Word) × List (Nat × List Word)) q =>
      if a.1.any fun r => r.1 == q.1 then (a.1, a.2 ++ [q]) else (a.1 ++ [q], a.2)) ([], [])
    now :: rowRounds fuel later

/-- One tile of a table as ROW_UPDATE works on it: table record and accumulator bytes, and what was counted. -/
structure RowTile where
  rec'   : Bytes
  acc    : Bytes
  raised : Bool
  live   : Nat
  lost   : Nat
  stat   : EncStat
  tmax   : Word
  still   : Bool
  draws  : Nat               -- rounds done
  deriving DecidableEq, Repr

/-- The values of table row `r` of a tile in the unrotated basis. -/
def tableRow (t : Tensor) (k r : Nat) (bs : Bytes) : List Word := rowValues t.desc (rowPacket t.desc.fmt (t.geom k) bs r)

/-- One round of row updates on a tile (R176, R177): `rows` are local places in the tile with their gradients. The lane of a
gradient element is its place in the row modulo 32 (the model's choice, log entry 74). No rule speaks of a tile of merged rows
narrower than the table: a row then has that many gradient elements, its sums are divided by their number, and the table row's
further elements become 0 (the model's choice, log entry 74). A tile over threshold is reheated from the
decoded values of all its blocks, those just re-encoded among them. -/
def rowRound (t ta : Tensor) (slot : OptSlot) (pol : ScalePolicy) (raises seed step k : Nat) (s : RowTile)
    (rows : List (Nat × List Word)) : RowTile :=
  let g := t.geom k
  let d := t.desc
  let accV := ta.values k s.acc
  let res := rows.map fun q =>
    let w := (tableRow t k q.1 s.rec').take d.ext.d0
    (q.1, rowUpdate slot (q.2.take d.ext.d0) w (accV ⟨0, q.1, 0, 0⟩))
  let ok := res.filterMap fun q => q.2.map fun y => (q.1, y)
  let newRow (r : Nat) : Option (List Word) := (ok.find? fun q => q.1 == r).map fun q => q.2.1
  -- every value of the tile in the unrotated basis, then rotated again
  let cur := t.valuesU k s.rec'
  let v (x : Dim4) : Word := match newRow x.d1 with | some w => w.getD x.d0 0 | none => cur x
  let y := g.memo (rotated g d.rotSize d.rotSeed v)
  let nb := g.r / 32
  let re := reencodeBlocks d.fmt g pol s.rec' (fun b => (newRow (b / nb)).isSome) y fun n =>
    (Config.segCount (n ++ [t.handle, k, step, s.draws])).toNat
  let tm := tileMax g (fun x => (newRow x.d1).isNone) y
  let e : EncCtx := { g := g, form := d.fmt, hotLimit := 0, rotSize := 0, rotSeed := 0, hot := [], pol := pol }
  let bt := leAt s.rec' 1 1
  let still := d.ovfThreshold < re.stat.sat && !d.fixedScale
  let (bytes, stat, up, hi) :=
    if still && bt < 255 then
      let (_, bs, st, _) := reheatLoop e (g.memo (t.values k re.bytes)) d.ovfThreshold (raises - 1) (bt + 1) true
      (bs, st, true, decide (d.ovfThreshold < st.sat))
    else (re.bytes, re.stat, false, still)
  let acc := ta.storeSr k s.acc seed step 3 (fun x => !(ok.any fun q => q.1 == x.d1)) fun x =>
    ((ok.find? fun q => q.1 == x.d1).map fun q => q.2.2).getD 0
  { rec' := bytes, acc := acc, raised := s.raised || up, live := s.live + ok.length
    lost := s.lost + (rows.length - ok.length), stat := ⟨s.stat.sat + stat.sat, s.stat.lost + stat.lost, s.stat.esc + stat.esc⟩
    tmax := maxMag s.tmax tm, still := hi, draws := s.draws + 1 }

/-- ROW_UPDATE on all the tiles its list names. -/
def Mach.rowUpdateWith (m : Mach) (c : Nat) (o : Op) (p : Nat) (i : Inst) (list : List (Nat × List Word))
    (tiles : List Nat) (bs : List Bytes) : Mach × LehrOut :=
  let gn := (m.ctx c).group
  let h := (o.ref 2).handle
  let slot := m.optSlot p o.param
  match m.group? p gn, m.tensor? p h, m.tensor? p (h + 1) with
  | some grp, some t, some ta =>
    let (m, j) := m.journalFor p gn i (tiles.flatMap fun k => [(h, k, 4), (h + 1, k, 1)])
    match j with
    | some r => (m, r)
    | none =>
      let pol := m.scalePolicy p
      let raises := m.dnum (0x4110 + p) 1
      let step := m.keyStep c
      let (m, ws) := tiles.zipIdx.foldl (fun (a : Mach × List TileWrite) q =>
        let (m, ws) := a
        let k := q.1
        let mine := (list.filter fun x => x.1 / t.desc.tile.d1 == k).map fun x => (x.1 % t.desc.tile.d1, x.2)
        let s0 : RowTile := ⟨bs.getD (2 * q.2) [], bs.getD (2 * q.2 + 1) [], false, 0, 0, ⟨0, 0, 0⟩, 0, false, 0⟩
        let m := m.checkRec .lehr i.die i.idx t k s0.rec'
        let s := (rowRounds mine.length mine).foldl (rowRound t ta slot pol raises grp.seed step k) s0
        let b (m : Mach) (off n : Nat) : Mach := m.count .lehr i.die i.idx off n
        let m := b (b (b (b (b (b m 0x10 (s.live * t.desc.ext.d0)) 0x14 (if slot.mom16 then s.live else 0)) 0x18
          (s.lost * t.desc.ext.d0)) 0x24 s.stat.esc) 0x28 s.stat.sat) 0x2C s.stat.lost
        let mk := t.mark k
        let m := m.updGroup p gn fun x =>
          { x with gradNonfinite := x.gradNonfinite + s.lost * t.desc.ext.d0
                   ceiling := x.ceiling + s.still.toNat
                   encoded := if !x.encoded.contains h then x.encoded ++ [h] else x.encoded
                   fixedSat := if t.hist.isNone then x.fixedSat + s.stat.sat else x.fixedSat
                   fixedLost := if t.hist.isNone then x.fixedLost + s.stat.lost else x.fixedLost }
        let m := match (m.tensor? p h).bind fun u => u.hist with
          | none => m
          | some x =>
            let x := x.fold ⟨s.tmax, [], 0, 0⟩ s.stat (s.raised && !mk.folded)
            m.setHist p h (if s.raised then x.raise t.desc.fmt pol.headroom (leAt s.rec' 1 1) else x)
        let m := (m.updTensor p h fun u => u.setMark k fun y =>
          { y with raised := y.raised || s.raised, folded := y.folded || s.raised }).noteRep c h
        let m := if s.still then
            (m.dadd (0x4110 + p) 0x15 1).fwEvent evReheatCeiling i.die (slotOf .lehr i.idx) (some p)
              (toLe 4 h ++ toLe 4 0 ++ toLe 4 k ++ zeroBytes 4)
          else m
        (m, ws ++ [⟨h, k, s.rec', false⟩, ⟨h + 1, k, s.acc, false⟩])) (m, [])
      (m, .done ws)
  | _, _, _ => (m, .gone)

/-! ### Issuing and resuming (R188) -/

/-- A Lehr operation takes off, waits for journal room, or has ended its step. -/
def Mach.lehrOff (m : Mach) (c : Nat) (i : Inst) (outs : List (Nat × Nat)) : LehrOut → Mach
  | .done ws => m.takeOff c (some i) outs ws true
  | .gone => m
  | .wait =>
    let op := (m.ctx c).pc
    (m.takeOff c (some i) outs [] false).updCtx c fun x =>
      { x with flights := x.flights.map fun f => if f.op = op then { f with jwait := true } else f }

/-- A Lehr operation ends in a fault: what it spoils of its outputs is in the journal first, and where the journal has no room
it spoils nothing (R52, R186, R187). -/
def Mach.lehrSpoil (m : Mach) (c p : Nat) (i : Inst) (kinds : List (Nat × Nat × Nat)) (stop : Mach → List (Nat × Nat) → Mach) :
    Mach :=
  let gn := (m.ctx c).group
  let kinds := kinds.filter fun q => (m.outFault p ⟨q.1, q.2.1, [], false⟩).isNone
  match m.group? p gn with
  | none => stop m []
  | some g => if m.journalHas g kinds then stop (m.journalFor p gn i kinds).1 (kinds.map fun q => (q.1, q.2.1)) else stop m []
/-- A Lehr operation faults as it issues. -/
def Mach.lehrFault (m : Mach) (c p : Nat) (i : Inst) (kinds : List (Nat × Nat × Nat)) (x : FaultInfo) : Mach :=
  m.lehrSpoil c p i kinds fun m outs => m.stationFault c outs x
/-- A wait for journal room ends, whatever comes of it (R188): the cycles it took are free. -/
def Mach.lehrStall (m : Mach) (i : Inst) : Mach := m.freeWord.1.countAny .lehr i.die i.idx 0x20 m.freeWord.2.toNat
/-- A Lehr operation that waited for journal room faults as it tries again. -/
def Mach.lehrLate (m : Mach) (c op p : Nat) (i : Inst) (kinds : List (Nat × Nat × Nat)) (x : FaultInfo) : Mach :=
  (m.lehrStall i).lehrSpoil c p i kinds fun m outs =>
    let m := (m.updFlight c op fun f => { f with outs := outs }).flightFault c op x
    if x.code = fcBounds then m.faultCtx c op { x with code := fcInternal } else m

/-- What an UPDATE reads, and that it may write its working copy (R45). -/
def Mach.updateFetch (m : Mach) (o : Op) (p : Nat) : Mach × List Bytes × Option FaultInfo :=
  let (m, bs, f) := m.fetchTiles p (m.updateIns o p)
  let w := m.refAt p (o.ref 2)
  match f, m.outFault p ⟨w.1, w.2, [], false⟩ with
  | none, some x => (m.boundsFault p x.phys 1 0, bs, some x)
  | f, _ => (m, bs, f)
/-- UPDATE issues (R172 to R188). -/
def Mach.updateRun (c : Nat) (m : Mach) (o : Op) (p : Nat) (i : Inst) : Mach :=
  let outs := m.updateOuts o p
  let kinds := m.updateKinds o p
  let (m, bs, f) := m.updateFetch o p
  match f with
  | some x => m.lehrFault c p i kinds x
  | none =>
    let (m, r) := m.updateWith c o p i bs
    m.lehrOff c i outs r

/-- The tiles of a table that a list of rows names, in ascending order. -/
def rowTiles (t : Tensor) (list : List (Nat × List Word)) : List Nat :=
  sortBy id ((list.map fun q => q.1 / t.desc.tile.d1).foldl (fun a k => if a.contains k then a else a ++ [k]) [])

/-- ROW_UPDATE issues (R176, R177, R188). -/
def Mach.rowUpdateRun (c : Nat) (m : Mach) (o : Op) (p : Nat) (i : Inst) : Mach :=
  let h := (o.ref 2).handle
  m.withInputs c p [] [m.refAt p (o.ref 0), m.refAt p (o.ref 1)] fun m ib =>
    match m.tensor? p h with
    | none => m
    | some t =>
      let list := m.rowList o p (ib.getD 0 []) (ib.getD 1 [])
      let fine := list.filter fun q => q.1 < t.desc.ext.d1
      let tiles := rowTiles t fine
      let outs := tiles.flatMap fun k => [(h, k), (h + 1, k)]
      let kinds := tiles.flatMap fun k => [(h, k, 4), (h + 1, k, 1)]
      if fine.length < list.length then
        m.lehrFault c p i kinds { code := fcIndex, handle := (o.ref 1).handle, coord := refCoord (o.ref 1) }
      else
        let (m, bs, f) := (m.noteTiles p i outs).fetchTiles p outs
        match f with
        | some x => m.lehrFault c p i kinds x
        | none =>
          let (m, r) := m.rowUpdateWith c o p i list tiles bs
          m.lehrOff c i outs r

/-- SNAPSHOT (R189, R219). It reads nothing, so a poisoned source does not fault it: the destination takes the content its source
holds here, poison with it. The model copies as the operation completes; no reader sees the difference (log entry 74). -/
def Mach.snapshotRun (c : Nat) (m : Mach) (o : Op) (p : Nat) (i : Inst) : Mach :=
  let gn := (m.ctx c).group
  let a := m.refAt p (o.ref 0)
  let w := m.refAt p (o.ref 1)
  match m.group? p gn with
  | none => m
  | some g =>
    if g.kind = .training ∧ g.step % (max 1 g.snapInt) ≠ 0 then m.takeOff c (some i) [] [] true
    else
      let old := m.rawTile p a.1 a.2
      let bad := match m.tensor? p a.1 with
        | some t => (t.mark a.2).poisoned || (m.suspects (t.tileAddr a.2) (t.tileLen a.2)).any fun cw =>
            match m.cwClass cw with | .poison | .bad => true | _ => false
        | none => false
      match (m.tensor? p a.1).bind fun t => m.shapeTile p gn w.1 w.2 (t.form a.2) with
      | none => m.abortStep p gn 3 old.length true
      | some m =>
        let m := m.updGroup p gn fun x =>
          { x with snaps := if x.snaps.contains (g.step, w.1) then x.snaps else x.snaps ++ [(g.step, w.1)] }
        m.takeOff c (some i) [w] [⟨w.1, w.2, old, bad⟩] true

/-- What a Lehr operation that waited for journal room computed. -/
def Mach.lehrAgain (m : Mach) (c op : Nat) (i : Inst) (r : LehrOut) : Mach :=
  match r with
  | .wait => m
  | .gone => ((m.lehrStall i).updCtx c fun x => { x with flights := x.flights.filter fun y => y.op != op }).settleCtx c
  | .done ws => (m.lehrStall i).updCtx c fun x =>
      { x with flights := x.flights.map fun y => if y.op = op then { y with writes := ws, ready := true, jwait := false } else y }
/-- A Lehr operation that waits for journal room tries again (R188). -/
def Mach.journalResume (m : Mach) (c : Nat) : Mach :=
  match (m.ctx c).flights.find? fun f => f.jwait with
  | none => m
  | some f =>
    match (m.opsOf c)[f.op]?, f.inst.orElse fun _ => m.standIn (m.ctx c).part .lehr with
    | some o, some i =>
      let p := (m.ctx c).part
      let blocked := match m.group? p (m.ctx c).group with | some g => g.abortCode != 0 | none => false
      if blocked then m.lehrAgain c f.op i .gone
      else if o.kind = .update then
        let (m, bs, e) := m.updateFetch o p
        (match e with
        | some x => m.lehrLate c f.op p i (m.updateKinds o p) x
        | none => let (m, r) := m.updateWith c o p i bs; m.lehrAgain c f.op i r)
      else
        let (m, ib, e) := m.fetchTiles p [m.refAt p (o.ref 0), m.refAt p (o.ref 1)]
        (match e with
        | some x => m.lehrLate c f.op p i [] x
        | none =>
          let list := m.rowList o p (ib.getD 0 []) (ib.getD 1 [])
          let tiles := match m.tensor? p (o.ref 2).handle with | some t => rowTiles t list | none => []
          let (m, bs, e) := m.fetchTiles p (tiles.flatMap fun k => [((o.ref 2).handle, k), ((o.ref 2).handle + 1, k)])
          match e with
          | some x => m.lehrLate c f.op p i (tiles.flatMap fun k => [((o.ref 2).handle, k, 4), ((o.ref 2).handle + 1, k, 1)]) x
          | none => let (m, r) := m.rowUpdateWith c o p i list tiles bs; m.lehrAgain c f.op i r)
    | _, _ => m

end Sys2Proof.Machine
end

