-- ==== Sys2Proof/Machine/Checks.lean ====
section
/-! DEFINITION. What PROGRAM_LOAD and START check of a program (R28 to R33, R43, R87, R134, R143, R169, R189, R192, R226,
R227, R237, R276, R286, R314, R316, R321, R485). -/

namespace Sys2Proof.Machine

/-! ### Shapes -/

def HDesc.sameTile (a b : HDesc) : Bool := a.tile == b.tile
def HDesc.sameShape (a b : HDesc) : Bool := a.ext == b.ext && a.tile == b.tile
/-- `b` has extent and tile extent 1 along the axis, and `a`'s along the others. -/
def HDesc.reducedAlong (a b : HDesc) (axis : Nat) : Bool :=
  (List.range 4).all fun i =>
    if i = axis then b.ext.get i == 1 && b.tile.get i == 1
    else b.ext.get i == a.ext.get i && b.tile.get i == a.tile.get i
/-- The tile-set extents of a GEMM operand (R31): 128 along its reduction axis; the other axis within `lo` to `hi`. -/
def HDesc.gemmShape (d : HDesc) (lo hi : Nat) : Bool :=
  let others := [0, 1, 2, 3].filter fun x => x != d.redAxis
  d.fmt.isBlock && d.red == 128 && (others.countP fun x => d.tile.get x != 1) ≤ 1
  && lo ≤ d.tile.get d.otherAxis && d.tile.get d.otherAxis ≤ hi

/-- GEMM (R31, R87). -/
def gemmOk (o : Op) (a b y : HDesc) : Bool :=
  let ra := refCoord (o.ref 0)
  let rb := refCoord (o.ref 1)
  a.gemmShape 256 256 && b.gemmShape 1 512 && y.fmt.isFloat
  && y.tile == ⟨256, b.tile.get b.otherAxis, 1, 1⟩
  && 1 ≤ o.param && ra.get a.redAxis + o.param ≤ a.tiles.get a.redAxis
  && rb.get b.redAxis + o.param ≤ b.tiles.get b.redAxis
  && a.rotSize == b.rotSize && a.rotSeed == b.rotSeed

/-- The Jacks operations (R134, R139 to R143). -/
def elementwiseOk (o : Op) (ds : List HDesc) : Bool :=
  let y := ds.getLastD default
  let ss := ds.dropLast
  ewSources (fld o.param 7 0) == some ss.length && fld o.param 31 8 == 0 && ds.all (fun d => d.fmt.isFloat)
  && ss.all fun s => (List.range 4).all fun i => s.tile.get i == y.tile.get i || s.tile.get i == 1
where default : HDesc := HDesc.ofWords []
/-- NORM (R140, R143). An ε of −0 is taken: it equals +0, which is not negative (the model's choice, log entry 76). -/
def normOk (o : Op) (s g y : HDesc) : Bool :=
  let axis := fld o.param 9 8
  let eps := ofBf16 (BitVec.ofNat 16 (fld o.param 31 16))
  fld o.param 7 0 ≤ 1 && fld o.param 15 10 == 0 && axis ≤ s.rankM1 && s.fmt.isFloat && g.fmt.isFloat && y.fmt.isFloat
  && s.ext.get axis ≤ s.tile.get axis && g.rankM1 == 0 && g.ext.d0 == s.ext.get axis && s.ext.get axis ≤ g.tile.d0
  && isFin eps && !fpLt eps 0 && s.sameShape y
def softmaxOk (o : Op) (s y : HDesc) : Bool :=
  let axis := fld o.param 1 0
  fld o.param 31 2 == 0 && axis ≤ s.rankM1 && s.fmt.isFloat && y.fmt.isFloat && s.ext.get axis ≤ s.tile.get axis
  && s.sameShape y
def reduceSumOk (o : Op) (s y : HDesc) : Bool :=
  let axis := fld o.param 1 0
  fld o.param 31 2 == 0 && axis ≤ s.rankM1 && s.fmt.isFloat && y.fmt == .fp32 && s.reducedAlong y axis
def winnerOk (o : Op) (s y w : HDesc) : Bool :=
  let axis := fld o.param 1 0
  fld o.param 31 2 == 0 && axis ≤ s.rankM1 && s.fmt.isFloat && y.fmt.isFloat && w.fmt == .u32
  && s.reducedAlong y axis && s.reducedAlong w axis && s.ext.get axis ≤ 2 ^ 32

/-- A bagged lookup (R227). A table is of class 5 (log entry 12). -/
def bagOk (t idx off y : HDesc) : Bool :=
  (t.fmt == .q4 || t.fmt == .q8) && t.cls == 5 && idx.cls == 7 && idx.fmt.isIndex && idx.rankM1 == 0
  && off.cls == 7 && off.fmt.isIndex && off.rankM1 == 0
  && y.fmt.isFloat && y.ext.d0 == t.ext.d0 && y.tile.d0 == t.tile.d0 && off.tile.d0 == y.tile.d1 + 1
/-- GRAD_MERGE (R237): merged tensors with places for the n indices (log entry 13). -/
def mergeOk (o : Op) (rows idx mr mi : HDesc) : Bool :=
  let g := geomOf idx (refCoord (o.ref 1))
  let n := g.all.countP g.inside
  rows.fmt.isFloat && idx.fmt.isIndex && mr.fmt.isFloat && mi.fmt.isIndex && n ≤ mr.ext.d1
  && n ≤ (if mi.rankM1 = 0 then mi.ext.d0 else mi.ext.d1)

/-- UPDATE and ROW_UPDATE (R168, R169): `comp` answers a handle's descriptor. -/
def updateOk (o : Op) (slot : OptSlot) (comp : Nat → Option HDesc) (g w wc : HDesc) : Bool :=
  let h := (o.ref 1).handle
  let moment (x : Nat) : Bool := match comp x with
    | some d => d.cls == 4 && d.sameShape w && d.fmt == (if slot.mom16 then .bf16 else .fp32)
    | none => false
  o.param < 16 && (slot.kind == 1 || slot.kind == 2) && g.fmt.isFloat && w.cls == 3 && wc.cls == 0
  && w.fmt == (if slot.m16 then .bf16 else .fp32) && wc.fmt == .q4 && g.sameShape w && wc.sameShape w
  && moment (h + 1) && (slot.kind != 2 || moment (h + 2))
def rowUpdateOk (o : Op) (slot : OptSlot) (comp : Nat → Option HDesc) (r i t : HDesc) : Bool :=
  let acc : Bool := match comp ((o.ref 2).handle + 1) with
    | some d => d.cls == 4 && d.ext == ⟨1, t.ext.d1, 1, 1⟩ && d.tile == ⟨1, t.tile.d1, 1, 1⟩
        && d.fmt == (if slot.mom16 then .bf16 else .fp32)
    | none => false
  o.param < 16 && slot.kind == 3 && r.fmt.isFloat && i.fmt.isIndex && (t.fmt == .q4 || t.fmt == .q8) && t.cls == 5 && acc

/-- A fabric descriptor's tensor (R314), and a transfer's param (R316). -/
def fabricDescOk (d : HDesc) : Bool := d.cls == 8 && d.fmt == .u64 && d.tile == ⟨4, 1, 1, 1⟩
def channelOk (mode param : Nat) : Bool := fld param 5 0 ≤ 31 && fld param 7 6 < 4 / mode && fld param 31 8 == 0

/-- The fields of a COLLECTIVE's param (R321). -/
def collKind (param : Nat) : Nat := fld param 7 5
def collOp (param : Nat) : Nat := fld param 9 8
def collRoot (param : Nat) : Nat := fld param 27 16
/-- The shapes of a COLLECTIVE for a group of `n` members (R321; log entry 14). -/
def collShapeOk (kind n : Nat) (ds : List HDesc) : Bool :=
  let pair (a y : HDesc) : Bool :=
    let t := a.tileCount
    let c := ceilDiv t n
    match kind with
    | 0 => !a.fmt.isIndex && y.fmt.isFloat && a.sameShape y && a.rotSize == 0 && y.elts ≤ 1048576
    | 1 => !a.fmt.isIndex && y.fmt.isFloat && a.sameTile y && c ≤ y.tileCount && a.rotSize == 0 && y.elts ≤ 1048576
    | 2 => a.fmt == y.fmt && a.sameTile y && y.tileCount == n * c
    | _ => a.fmt == y.fmt && a.sameTile y && y.tileCount == t && t % n == 0
  let rec pairs : List HDesc → Bool
    | a :: y :: r => pair a y && pairs r
    | [] => true
    | [_] => false
  n != 0 && (if kind = 4 then true else pairs ds)
def collOk (recs : Nat → Bytes) (p : Nat) (o : Op) (ds : List HDesc) : Bool :=
  let r := recs (fld o.param 4 0)
  let k := collKind o.param
  let n := leAt r 2 2
  cgDefined r && leAt r 0 1 == p && k ≤ 4 && collOp o.param ≤ 2 && (k ≤ 1 || collOp o.param == 0)
  && fld o.param 15 10 == 0 && fld o.param 31 28 == 0 && (if k = 4 then collRoot o.param < n else collRoot o.param == 0)
  && o.refs.all (fun x => refCoord x == ⟨0, 0, 0, 0⟩) && collShapeOk k n ds

/-- BARRIER (R286). -/
def barrierOk (mode param : Nat) : Bool :=
  let b := fld param 8 0
  let parties := fld param 21 16
  fld param 15 9 == 0 && fld param 23 22 == 0 && fld param 31 29 == 0 && 1 ≤ parties && parties ≤ 32 / mode
  && (if b < 256 then b < barCount mode && fld param 28 24 == 0 else b - 256 < fbarCount mode)

/-! ### One operation (R33) -/

/-- Does PROGRAM_LOAD accept the operation at place `idx` of `count`? A param that R30 gives as 0 must be 0. -/
def Mach.opOk (m : Mach) (p : Nat) (k : ProgKind) (count idx : Nat) (o : Op) : Bool :=
  let desc (h : Nat) : Option HDesc := (m.tensor? p h).map (·.desc)
  let ds := o.refs.filterMap fun r => (desc r.handle).bind fun d => if refInRange d r then some d else none
  let slot := m.optSlot p o.param
  let d (i : Nat) : HDesc := ds.getD i (HDesc.ofWords [])
  ds.length == o.refs.length
  && (!o.waitEn || o.waitCtr < ctrCount m.mode) && (!o.signalEn || o.signalCtr < ctrCount m.mode)
  && (!o.acc || (match o.kind with | .gemm | .elementwise | .reduceSum | .gradMerge => true | _ => false))
  && ((o.kind == .opEnd) == (idx + 1 == count))
  && (match o.kind with
    | .copy => o.param == 0 && (d 0).fmt == (d 1).fmt && (d 0).sameTile (d 1)
        && ((d 1).fixedScale || !(d 0).fixedScale)
    | .bagSum | .bagMean => o.param == 0 && bagOk (d 0) (d 1) (d 2) (d 3)
    | .bagMax => o.param == 0 && bagOk (d 0) (d 1) (d 2) (d 3) && (d 4).fmt.isIndex && (d 3).sameShape (d 4)
    | .gradMerge => o.param == 0 && mergeOk o (d 0) (d 1) (d 2) (d 3)
    | .quant => o.param == 0 && (d 0).fmt.isFloat && (d 1).fmt.isBlock && (d 0).sameShape (d 1)
    | .measure => o.param == 0 && (d 0).fmt.isFloat
    | .dequant => o.param == 0 && (d 0).fmt.isBlock && (d 1).fmt.isFloat && (d 0).sameShape (d 1)
    | .gemm => gemmOk o (d 0) (d 1) (d 2)
    | .elementwise => elementwiseOk o ds
    | .norm => normOk o (d 0) (d 1) (d 2)
    | .softmax => softmaxOk o (d 0) (d 1)
    | .reduceSum => reduceSumOk o (d 0) (d 1)
    | .reduceMax | .reduceMin => winnerOk o (d 0) (d 1) (d 2)
    | .update => updateOk o slot desc (d 0) (d 1) (d 2)
    | .rowUpdate => rowUpdateOk o slot desc (d 0) (d 1) (d 2)
    | .snapshot => o.param == 0 && (d 0).fmt == (d 1).fmt && ((d 0).fmt == .q4 || (d 0).fmt == .fp32)
        && (d 0).sameShape (d 1) && ((d 0).cls == 3 || (d 0).cls == 0)
    | .put | .putSignal => channelOk m.mode o.param && fabricDescOk (d 1)
    | .get => channelOk m.mode o.param && fabricDescOk (d 0)
    | .collective => collOk m.cgRec p o ds
    | .sync | .opEnd => o.param == 0
    | .barrier => barrierOk m.mode o.param
    | .stepBoundary => o.param == 0 && (d 0).fmt == .fp32 && k != .inference && k != .general)

/-! ### A whole load (R33) -/

/-- What a load comes to: the kind, the level and the operations, or a status with its result. -/
inductive LoadOut where
  | ok (kind : ProgKind) (level : Nat) (ops : List Op)
  | bad (status result : Nat)
  deriving DecidableEq, Repr

/-- Decode and check the operations in order: the index of the first offending one. Words that run out, or that are left
over behind the last operation, offend at that operation. -/
def Mach.loadOps (m : Mach) (p : Nat) (k : ProgKind) (count : Nat) : Nat → Nat → List Nat → List Op → Except Nat (List Op)
  | 0, idx, ws, acc => if ws.isEmpty then .ok acc.reverse else .error (idx - 1)
  | n + 1, idx, ws, acc =>
    let w := opWords ws
    if ws.length < w then .error idx
    else match Op.ofWords (ws.take w) with
      | none => .error idx
      | some o => if m.opOk p k count idx o then m.loadOps p k count n (idx + 1) (ws.drop w) (o :: acc) else .error idx

/-- The checks of R33, in their order. The words of a program are of 8 bytes: a length that is no multiple of 8 disagrees with the
operations whatever they are. -/
def Mach.loadCheck (m : Mach) (p cmdLen : Nat) (image : Bytes) : LoadOut :=
  let ws := wordsOf (fitBytes (roundUp cmdLen 8) image)
  let ones := 2 ^ 64 - 1
  match ProgKind.ofCode (fld (ws.getD 0 0) 11 8) with
  | none => .bad stBadProgram ones
  | some k =>
    if !headerOk ws cmdLen || cmdLen < 32 || cmdLen % 8 ≠ 0 then .bad stBadProgram ones
    else if fld (ws.getD 1 0) 31 0 ≠ m.level then .bad stNumerics 0
    else if (m.programRoom p cmdLen).isNone then .bad stNoSpace 0
    else
      let count := fld (ws.getD 0 0) 63 32
      match m.loadOps p k count count 0 (ws.drop 4) [] with
      | .ok ops => .ok k (fld (ws.getD 1 0) 31 0) ops
      | .error i => .bad stBadProgram i

/-! ### What programs name -/

/-- The handles an operation refers to, its companion handles among them. -/
def Mach.opHandles (m : Mach) (p : Nat) (o : Op) : List Nat :=
  o.refs.map (·.handle) ++ (match o.kind with
    | .update => [(o.ref 1).handle + 1] ++ (if (m.optSlot p o.param).kind = 2 then [(o.ref 1).handle + 2] else [])
    | .rowUpdate => [(o.ref 2).handle + 1]
    | _ => [])
/-- The record of table map `r` of a partition. -/
def Mach.tableMap (m : Mach) (p r : Nat) : TableMap := TableMap.ofBytes (m.dict? (0x2040 + p) (1 + r))
/-- Is a handle one that a loaded program or a table-map record refers to (R24)? -/
def Mach.handleBusy (m : Mach) (p h : Nat) : Bool :=
  (m.progs.any fun q => q.part == p && q.ops.any fun o => (m.opHandles p o).contains h)
  || ((List.range 32).any fun r =>
    let t := m.tableMap p r
    t.table != 0 && (t.table == h || t.merge == h))
/-- The physical counters that an operation list names or waits on, for a context. -/
def waitsOn (mode p c : Nat) (ops : List Op) : List (Nat × Nat) :=
  (ops.filter fun o => o.waitEn).map fun o => (ctxDie c, physCtr mode p o.waitCtr)
def signalsTo (mode p c : Nat) (ops : List Op) : List (Nat × Nat) :=
  (ops.filter fun o => o.signalEn).map fun o => (ctxDie c, physCtr mode p o.signalCtr)
/-- Counters that a group's programs wait on, and all that they name. -/
def Mach.groupWaits (m : Mach) (p g : Nat) : List (Nat × Nat) :=
  dedup ((m.ctxsOf p g).flatMap fun c => waitsOn m.mode p c (m.opsOf c))
def Mach.groupCtrs (m : Mach) (p g : Nat) : List (Nat × Nat) :=
  dedup ((m.ctxsOf p g).flatMap fun c => waitsOn m.mode p c (m.opsOf c) ++ signalsTo m.mode p c (m.opsOf c))
/-- Barriers that a group's programs name. -/
def Mach.groupBars (m : Mach) (p g : Nat) : List BarRef :=
  dedup ((m.ctxsOf p g).flatMap fun c =>
    ((m.opsOf c).filter fun o => o.kind == .barrier).map fun o => barRef m.mode p (ctxDie c) (fld o.param 8 0))
/-- Collective groups that a list of operations names. -/
def opCgroups (ops : List Op) : List Nat :=
  dedup ((ops.filter fun o => o.kind == .collective).map fun o => fld o.param 4 0)
/-- Handles that a group's programs name. -/
def Mach.groupHandles (m : Mach) (p g : Nat) : List Nat :=
  sortBy id (dedup ((m.allOps p g).flatMap fun o => m.opHandles p o))

end Sys2Proof.Machine
end

