-- ==== Sys2Proof/Machine/Training.lean ====
section
/-! DEFINITION. Training steps (spec/08, R192 to R210; R159, R165, R171, R175, R183, R184, R284, R360, R361): the start of a
step, its status, its agreement, its commit and its repeat. -/

namespace Sys2Proof.Machine

/-! ### Saving and restoring what a step starts from (R205, R208) -/

/-- The optimiser records of a partition: slots 0 to 15, then schedules. -/
def Mach.slotRecs (m : Mach) (p : Nat) : List (Nat × Bytes) :=
  (List.range 16).map fun k => (k, m.dict? (0x4130 + p) (1 + k))
def Mach.schedRecs (m : Mach) (p : Nat) : List (Nat × Bytes) :=
  (List.range 16).map fun k => (k, m.dict? (0x4130 + p) (0x21 + k))
/-- The scale-history records of the tensors that a group's programs name. -/
def Mach.groupHists (m : Mach) (p g : Nat) : List (Nat × Hist) :=
  (m.groupHandles p g).filterMap fun h => ((m.tensor? p h).bind fun t => t.hist).map fun x => (h, x)
/-- The wait of a counter that no earlier step has put off: an all-zero schedule is none pending. -/
def schedPending (bs : Bytes) : Bool := bs.any (· != 0)

/-- A step begins: the intervals in force, the state it starts from, its clean counts, and the learning rates that fall due
(R171, R205, R223). -/
def Mach.beginStep (m : Mach) (p g : Nat) : Mach :=
  match m.group? p g with
  | none => m
  | some x =>
    let s : SavedState := { step := x.step, hists := m.groupHists p g, ladder := x.ladder, ratios := x.ratios
                            slots := m.slotRecs p, scheds := m.schedRecs p }
    let bars := (m.groupBars p g).map fun r => ((if r.fabric then 1024 else 0) + 512 * r.die + r.idx, m.bar r)
    let m := m.updGroup p g fun x =>
      { x with
        open_ := true, phase := .running, abortCode := 0, request := 0, reheats := x.carry, nextReheats := []
        encoded := [], sums := [], fixedSat := 0, fixedLost := 0, gradNonfinite := 0, ceiling := 0, rotBad := 0
        measMax := 0, measBad := 0, peak := m.reserveUsed p, suspect := 0
        statuses := [], acks := [], saves := [], lent := []
        snapInt := m.dnum (0x2030 + p) 8, ckptInt := m.dnum (0x2030 + p) 3
        saved := x.saved.filter (fun y => y.step != x.step) ++ [s]
        atStart := x.atStart.filter (fun y => y.1 != x.step) ++ [(x.step, (x.buckets, x.tableSeq))]
        bars := x.bars.filter (fun y => y.1 != x.step) ++ [(x.step, bars)] }
    let m := m.syncLent p
    -- schedules that are due
    (m.schedRecs p).foldl (fun m q =>
      if schedPending q.2 && leAt q.2 8 8 ≤ x.step then
        (m.dictPut (0x4130 + p) (1 + q.1) (overlay (m.dict? (0x4130 + p) (1 + q.1)) 4 (subBytes q.2 0 4))).dictPut
          (0x4130 + p) (0x21 + q.1) (zeroBytes 16)
      else m) m

/-- The earliest uncommitted step. -/
def Group.earliest (x : Group) : Nat := x.awaiting.getD x.step
/-- Does the group hold an uncommitted step? -/
def Group.uncommitted (x : Group) : Bool := x.awaiting.isSome || x.open_
/-- Is an agreement or a commit round under way (R207)? -/
def Group.inRound (x : Group) : Bool := x.phase == .agreeing || x.awaiting.isSome

/-- Does a checkpoint or a digest round still need journal records of the partition? -/
def Mach.holding (m : Mach) (p : Nat) : Bool :=
  (m.ckpts.any fun c => c.part == p) || m.digest.any fun d => d.part == p && !d.computed
/-- Restore the journal records of every step from `s` on, newest first, and release them (R187). While a checkpoint or a digest
round may need them they are kept, held, until it has them, and restore nothing again (R362). -/
def Mach.restoreJournal (m : Mach) (p g s : Nat) : Mach :=
  match m.group? p g with
  | none => m
  | some x =>
    let m := (x.journal.reverse.filter fun r => s ≤ r.step && !r.held).foldl (fun m r =>
      match m.tensor? p r.handle with
      | none => m
      | some t =>
        let f := r.form.getD t.desc.fmt
        let (m, old, bad) := m.journalRead r
        let m := if t.desc.fmt.isBlock then (m.shapeTile p g r.handle r.tile f).getD m else m
        if bad then m.writeBad p r.handle r.tile old else m.writeTile 0 p r.handle r.tile old) m
    let hold := m.holding p
    m.updGroup p g fun x => { x with journal := x.journal.filterMap fun r =>
      if r.step < s || r.held then some r else if hold then some { r with held := true } else none }

/-- Collectives and exchanges of a group's contexts are abandoned (R204, R208): no output, no signal; reserved engines
come free. -/
def Mach.abandonColls (m : Mach) (p g : Nat) : Mach :=
  let cs := m.ctxsOf p g
  let mine := m.colls.filter fun k => cs.contains k.ctx
  { m with
    colls := m.colls.filter fun k => !cs.contains k.ctx
    ctxs := m.ctxs.zipIdx.map fun q =>
      { q.1 with flights := q.1.flights.filter fun f => !mine.any fun k => k.ctx == q.2 && k.op == f.op } }

/-- An abort abandons what a group's fabric barriers have not completed (R290, R204): the group's counts of the generation fall, with
the notice sent for it and those that came. -/
def Mach.abandonBars (m : Mach) (p g : Nat) : Mach :=
  let cs := m.ctxsOf p g
  (m.groupBars p g).foldl (fun m r =>
    let b := m.bar r
    if !r.fabric || b.draining then m else
    let left := b.counted.filter fun c => !cs.contains c
    m.setBar r { b with counted := left, sent := false, notices := b.notices.filter fun n => n.1 != b.gen
                        parties := if left.isEmpty && b.left = 0 then 0 else b.parties }) m

/-! ### Format reheats, rebuilds and re-emissions of working copies (R158, R181, R210, R218) -/

/-- The working-copy tiles of a group with their master tiles, each once. -/
def Mach.workingTiles (m : Mach) (p g : Nat) : List ((Nat × Nat) × (Nat × Nat)) :=
  ((m.allOps p g).filter fun o => o.kind == .update).foldl (fun a o =>
    let w := m.refAt p (o.ref 2)
    if a.any fun q => q.1 == w then a else a ++ [(w, m.refAt p (o.ref 1))]) []
/-- Encode a working-copy tile from its master, read as any reader does (R257). Where the master cannot be read the copy is poisoned
in its stead (the model's choice, log entry 73). -/
def Mach.fromMaster (m : Mach) (p g : Nat) (use : EncUse) (w k : Nat × Nat) : Mach :=
  match m.tensor? p k.1 with
  | none => m
  | some t =>
    let (m, bs, bad) := m.readTile 0 p k.1 k.2
    if bad.isSome then m.writeBad p w.1 w.2 (m.rawTile p w.1 w.2) else
    let i : Option Inst := (List.range (2 * StKind.lehr.perDie)).findSome? fun n =>
      let i := instOf .lehr n
      if instOwned m.mode p i && m.inService i then some i else none
    let (m, out) := m.encodeInto i lehrRegs p g w.1 w.2 use (t.values k.2 bs)
    match out with
    | none => m
    | some x => m.writeTile 0 p x.handle x.tile x.bytes
/-- Format reheats: every working copy whose form is not its layer's (R158). -/
def Mach.formatReheats (m : Mach) (p g : Nat) : Mach :=
  (m.workingTiles p g).foldl (fun m q =>
    match m.tensor? p q.1.1 with
    | none => m
    | some t => if t.form q.1.2 = m.ladderForm p g t then m else m.fromMaster p g .boundary q.1 q.2) m
/-- Every working copy anew (R218). -/
def Mach.rebuildCopies (m : Mach) (p g : Nat) : Mach :=
  (m.workingTiles p g).foldl (fun m q => m.fromMaster p g .rebuild q.1 q.2) m
/-- The poisoned working copies anew, counted nowhere (R210): those that are still poisoned once the journal records have been written
back (the model's choice, log entry 73). -/
def Mach.reemitCopies (m : Mach) (p g : Nat) : Mach :=
  (m.workingTiles p g).foldl (fun m q =>
    match m.tensor? p q.1.1 with
    | none => m
    | some t => if (t.mark q.1.2).poisoned then m.fromMaster p g .reemit q.1 q.2 else m) m

/-- Wide tiles other than working copies leave the reserve at a step's end (R163, R205, R208). -/
def Mach.releaseWide (m : Mach) (p g : Nat) : Mach :=
  let hs := m.groupHandles p g
  let wc := (m.workingTiles p g).map (·.1)
  { m with tensors := m.tensors.map fun t =>
      if t.part ≠ p || !hs.contains t.handle then t else
      { t with marks := t.marks.map fun q =>
          if wc.contains (t.handle, q.1) || q.2.apart then q else (q.1, { q.2 with charged := false }) } }
/-- The marks of a step's reheats make way for those of the next, in the tensors named (R156, R159, R194). -/
def Mach.turnRaised (m : Mach) (p : Nat) (hs : List Nat) : Mach :=
  { m with tensors := m.tensors.map fun t =>
      if t.part ≠ p || !hs.contains t.handle then t else
      (t.marks.map (·.1)).foldl (fun t k =>
        t.setMark k fun x => { x with raised := x.raisedNext, raisedNext := false, folded := false }) t }
/-- The tiles of a group's tensors whose mark satisfies `f`: handle and tile. -/
def Mach.marked (m : Mach) (p g : Nat) (f : TileMark → Bool) : List (Nat × Nat) :=
  let hs := m.groupHandles p g
  (m.tensors.filter fun t => t.part == p && hs.contains t.handle).flatMap fun t =>
    (t.marks.filter fun q => f q.2).map fun q => (t.handle, q.1)
/-- A group that begins anew has reheated no tile yet (R102, R156). -/
def Mach.clearRaised (m : Mach) (p g : Nat) : Mach :=
  let hs := m.groupHandles p g
  { m with tensors := m.tensors.map fun t =>
      if t.part ≠ p || !hs.contains t.handle then t else
      (t.marks.map (·.1)).foldl (fun t k =>
        t.setMark k fun x => { x with raised := false, raisedNext := false, folded := false }) t }
/-- A repeat forgets the reheats of the attempt; those the step began with stand (R156, R208). -/
def Mach.unraise (m : Mach) (p g s : Nat) : Mach :=
  let hs := m.groupHandles p g
  let sv := (m.group? p g).bind fun x => x.saved.find? fun (y : SavedState) => y.step == s
  let was (f : SavedState → List (Nat × Nat)) : List (Nat × Nat) := (sv.map f).getD []
  { m with tensors := m.tensors.map fun t =>
      if t.part ≠ p || !hs.contains t.handle then t else
      (t.marks.map (·.1)).foldl (fun t k =>
        t.setMark k fun x => { x with raised := (was (·.raised)).contains (t.handle, k), raisedNext := false
                                      folded := (was (·.folded)).contains (t.handle, k) }) t }

/-- The format reheats of a step about to issue are done: what they left is part of the state the step starts from (R158, R194,
R208). -/
def Mach.sealStart (m : Mach) (p g : Nat) : Mach :=
  let hists := m.groupHists p g
  let raised := m.marked p g fun k => k.raised
  let folded := m.marked p g fun k => k.folded
  m.updGroup p g fun x =>
    { x with
      carry := x.reheats
      saved := x.saved.map fun y => if y.step ≠ x.step then y else
        { y with hists := hists, carry := x.reheats, encoded := x.encoded, ceiling := x.ceiling, rotBad := x.rotBad
                 raised := raised, folded := folded } }

/-! ### Contexts at the start of a repetition -/

/-- Is the group one that a live update holds: one with a context on the die it is at (R446)? -/
def Mach.updHeld (m : Mach) (p g : Nat) : Bool :=
  match m.liveDie with | some d => (m.ctxsOf p g).any fun c => ctxDie c == d | none => false
/-- Does the gate of R193 let a context of the group issue repetition `rep`? -/
def Mach.gateOpen (m : Mach) (x : Group) (rep : Nat) : Bool :=
  x.kind != .training || (x.first + rep ≤ x.step && !x.shut && !m.updHeld x.part x.num)
/-- A context stands at operation 0 of a repetition: at the gate, or running. A live update holds a group that does not
train at the end of its repetition (R446). -/
def Mach.enterRep (m : Mach) (c : Nat) : Mach :=
  let x := m.ctx c
  match m.group? x.part x.group with
  | none => m
  | some g =>
    if g.kind ≠ .training ∧ m.updHeld x.part x.group then
      (m.updGroup x.part x.group fun y => { y with pausedBy := 18 }).updCtx c fun x =>
        { x with st := .paused, waitFor := none }
    else if m.gateOpen g x.rep then (m.updCtx c fun x => { x with st := .running, waitFor := none }).arm c
    else m.updCtx c fun x => { x with st := .waiting, waitFor := some .gate }
/-- Open the gate to the contexts that wait at it. -/
def Mach.openGate (m : Mach) (p g : Nat) : Mach :=
  (m.ctxsOf p g).foldl (fun m c =>
    let x := m.ctx c
    if x.st == .waiting && x.waitFor == some .gate then m.enterRep c else m) m
/-- Pause every stream of a group that is RUNNING or WAITING. -/
def Mach.pauseGroup (m : Mach) (p g : Nat) : Mach := (m.ctxsOf p g).foldl (fun m c => m.pauseCtx c) m
/-- A pause of the device's own, with its cause. That of a divergent round stands, for RESUME is refused until the host has restored a
checkpoint (R356). -/
def Mach.devicePause (m : Mach) (p g cause : Nat) : Mach :=
  (m.updGroup p g fun x => { x with pausedBy := if x.pausedBy = 16 then 16 else cause }).pauseGroup p g

/-! ### Repeating a step (R208) -/

/-- Set the counters that a group's programs name to 0 and clear their flags. -/
def Mach.resetCounters (m : Mach) (p g : Nat) (values : Bool) : Mach :=
  (m.groupCtrs p g).foldl (fun m q =>
    let w := m.reg .sync q.1 0 (ctrOff q.2)
    let w := setFld (setFld w 8 8 0) 9 9 0
    m.putReg .sync q.1 0 (ctrOff q.2) (if values then setFld w 7 0 0 else w)) m
/-- Tag the counters that a group's programs wait on with its epoch slot, and set the slot to its epoch (R284, R299). -/
def Mach.tagCounters (m : Mach) (p g : Nat) : Mach :=
  match m.group? p g with
  | none => m
  | some x =>
    let ws := m.groupWaits p g
    let m := ws.foldl (fun m q =>
      let w := m.reg .sync q.1 0 (ctrOff q.2)
      m.putReg .sync q.1 0 (ctrOff q.2) (setFld (setFld w 14 11 x.slot) 15 15 1)) m
    (dedup ((m.ctxsOf p g).map ctxDie)).foldl (fun m d => (m.putReg .sync d 0 (0x50 + 4 * x.slot) x.epoch).applyHeld d) m
/-- Does a context wait at, or stand at the gate of, this barrier? -/
def Mach.standsAt (m : Mach) (c : Nat) (r : BarRef) : Bool :=
  match m.nextOp c with
  | some o => o.kind == .barrier && barRef m.mode (m.ctx c).part (ctxDie c) (fld o.param 8 0) == r
  | none => false
/-- The barriers named by a group return to the generation, phase and count they held at the start of step `s` (R291). A
counted context that waits there no more stays in the count. -/
def Mach.resetBarriers (m : Mach) (p g s : Nat) : Mach :=
  match m.group? p g with
  | none => m
  | some x =>
    let old := ((x.bars.find? fun q => q.1 == s).map (·.2)).getD []
    (m.groupBars p g).foldl (fun m r =>
      let b := (mapGet old ((if r.fabric then 1024 else 0) + 512 * r.die + r.idx)).getD {}
      let now := m.bar r
      let here (c : Nat) : Bool := m.standsAt c r && (m.ctx c).waitFor == some .barrier
      let waits (h : GateHeld) : Bool := m.standsAt h.ctx r && (m.ctx h.ctx).waitFor == some .gateHeld
      let others := now.held.filter fun h => !b.held.any fun k => k.ctx == h.ctx
      settleBarrier r 4 (m.setBar r { b with
        counted := b.counted.filter here, left := b.left + b.counted.countP fun c => !here c
        held := (b.held ++ others).filter waits, mismatch := now.mismatch, notices := now.notices })) m

/-- Write back the recorded state of the start of step `s` (R208 step 3). -/
def Mach.restoreSaved (m : Mach) (p g s : Nat) : Mach :=
  match m.group? p g with
  | none => m
  | some x =>
    match x.saved.find? fun (y : SavedState) => y.step == s with
    | none => m
    | some sv =>
      let m := sv.hists.foldl (fun (m : Mach) q => m.setHist p q.1 q.2) m
      let m := sv.slots.foldl (fun (m : Mach) q => m.dictPut (0x4130 + p) (1 + q.1)
        (overlay (m.dict? (0x4130 + p) (1 + q.1)) 4 (subBytes q.2 4 4))) m
      let m := sv.scheds.foldl (fun (m : Mach) q => m.dictPut (0x4130 + p) (0x21 + q.1) q.2) m
      m.updGroup p g fun y => { y with ladder := sv.ladder, ratios := sv.ratios, carry := sv.carry }
/-- Repeat the earliest uncommitted step of a group (R208). `cause`: the status of R203, or 4 for a START. A pause after a divergent
round, a PAUSE or a STOP that came before takes effect once the restore is done (R207, R362). -/
def Mach.repeatStep (m : Mach) (p g cause : Nat) (atStart : Bool) : Mach :=
  match m.group? p g with
  | none => m
  | some x =>
    let s := x.earliest
    let cs := (m.ctxsOf p g).filter fun c => (m.ctx c).st != .faulted
    let odd := x.pausedBy = 16 && !atStart
    let pause := odd || cs.any fun c => (m.ctx c).want == .pause
    let stop := cs.any fun c => (m.ctx c).want == .stop
    -- 1, 2: nothing is held, nothing outstanding
    let m := cs.foldl (fun m c => (m.dropWaits (.ctx c)).updCtx c fun y =>
      { y with flights := [], waitFor := none, waitOk := false, passed := false, want := .nothing, signals := [] }) m
    let m := m.abandonColls p g
    -- 3: the journal, then the recorded state
    let m := m.restoreJournal p g s
    let m := m.restoreSaved p g s
    -- 4: statistics, counts, reserve
    let m := (m.unraise p g s).releaseWide p g
    -- 5: counters, barriers, buckets, epoch
    let m := (m.resetCounters p g true).resetBarriers p g s
    let base := m.dnum (0x5040 + p) 3
    let m := m.updGroup p g fun y =>
      let st : List (Nat × Nat) × List (Nat × Nat) :=
        ((y.atStart.find? fun q => q.1 == s).map (·.2)).getD (y.buckets, y.tableSeq)
      { y with
        buckets := st.1, tableSeq := st.2, epoch := min 0xFFFFFFFE (max (y.epoch + 1) base)
        step := s, awaiting := none, open_ := true, pausedBy := if odd then 16 else 0, shut := false, statuses := [], acks := []
        snaps := y.snaps.filter fun q => q.1 < s
        early := [], saved := y.saved.filter (fun q => q.step ≤ s)
        atStart := y.atStart.filter (fun q => q.1 ≤ s), bars := y.bars.filter (fun q => q.1 ≤ s)
        -- 6: the floor that R165 raised
        floor := if y.fallbacks = 0 then y.floor else m.dnum (0x4110 + p) 4 }
    let m := m.tagCounters p g
    let m := m.beginStep p g
    -- what the format reheats before the first attempt counted stands (R158)
    let m := match x.saved.find? fun (y : SavedState) => y.step == s with
      | some sv => m.updGroup p g fun y => { y with encoded := sv.encoded, ceiling := sv.ceiling, rotBad := sv.rotBad }
      | none => m
    let m := if atStart then m.reemitCopies p g else m
    let m := (m.formatReheats p g).sealStart p g
    -- 7: every stream at operation 0
    let m := (m.dadd (0x2030 + p) 0x13 1).fwEvent evStepRepeated (partDie m.mode p) 0 (some p)
      (toLe 8 s ++ toLe 1 cause ++ zeroBytes 1 ++ toLe 2 g)
    let m := cs.foldl (fun m c => (m.updCtx c fun y => { y with pc := 0, rep := s - x.first, st := .running }).arm c) m
    if stop then cs.foldl (fun m c => m.stopCtx c) m else if pause then cs.foldl (fun m c => m.pauseCtx c) m else m

/-! ### The step status (R199 to R202) -/

/-- n_L: one more than the highest layer of a subject tensor of the group. -/
def Mach.groupLayers (m : Mach) (p g : Nat) : Nat :=
  (m.groupHandles p g).foldl (fun a h =>
    match m.tensor? p h with
    | some t => if t.desc.subject then max a (t.desc.layer + 1) else a
    | none => a) 0
/-- The context and place of a group's STEP_BOUNDARY. -/
def Mach.boundaryOp (m : Mach) (p g : Nat) : Option (Nat × Nat × Op) :=
  (m.ctxsOf p g).findSome? fun c =>
    (((m.opsOf c).zipIdx).find? fun q => q.1.kind == .stepBoundary).map fun q => (c, q.2, q.1)
/-- A count as the status holds it. -/
def statusCount (n : Nat) : Word := fpOfInt (min n 16777216) 0
/-- A module's sums of a layer: its tile sums in ascending handle, then tile (R182). -/
def Mach.layerSums (m : Mach) (p : Nat) (x : Group) (layer : Nat) : Word × Word × Word :=
  let mine := x.sums.filter fun q => match m.tensor? p q.1 with | some t => t.desc.layer == layer | none => false
  match sortBy (fun q => q.1 * 2 ^ 96 + q.2.1) mine with
  | [] => (0, 0, 0)
  | q :: r => r.foldl (fun a q => (fpAdd a.1 q.2.2.1, fpAdd a.2.1 q.2.2.2.1, fpAdd a.2.2 q.2.2.2.2)) q.2.2
/-- The status tile with the module's own fields written over what the program left (R200, R201). The spec does not say whether
reserve_peak_mib is a whole number: it is the exact ratio of bytes to MiB, rounded to FP32 (the model's choice, log entry 73). -/
def Mach.ownStatus (m : Mach) (p g : Nat) (prior : List Word) : List Word :=
  match m.group? p g with
  | none => prior
  | some x =>
    let hs := x.encoded.filterMap fun h => (m.tensor? p h).bind fun t => t.hist
    prior.zipIdx.map fun q =>
      let e := q.2
      if e < 16 then
        match e with
        | 0 => statusCount x.abortCode
        | 1 => statusCount (if x.suspect = 0 then 0 else 1)
        | 2 => statusCount ((hs.map (·.ovfStep)).sum + x.fixedSat)
        | 3 => statusCount ((hs.map (·.lostStep)).sum + x.fixedLost)
        | 4 => statusCount x.gradNonfinite
        | 5 => x.measMax
        | 6 => statusCount x.ceiling
        | 7 => statusCount x.rotBad
        | 8 => fpOfRatio x.peak 1048576
        | _ => 0
      else if 32 ≤ e ∧ e < 48 then (if e = 32 then one32 else if e = 33 then statusCount x.measBad else 0)
      else if e < 64 then q.1
      else
        let l := (e - 64) / 4
        match (e - 64) % 4 with
        | 0 => statusCount (min 65535 (mapGetD x.reheats l 0))
        | 1 => (m.layerSums p x l).1
        | 2 => (m.layerSums p x l).2.1
        | _ => (m.layerSums p x l).2.2
/-- Is a status element reduced by maximum (R200)? -/
def statusMax (e : Nat) : Bool := e < 32 || (64 ≤ e && e % 4 == 0)
/-- The reduction of the members' tiles in ascending rank (R202). -/
def foldStatus (tiles : List (List Word)) : List Word :=
  match tiles with
  | [] => []
  | t :: r => r.foldl (fun a b => (a.zip b).zipIdx.map fun q =>
      if statusMax q.2 then fpMax q.1.1 q.1.2 else fpAdd q.1.1 q.1.2) t
/-- A status count read back. -/
def countOf (w : Word) : Nat :=
  match dec32 w with
  | .fin false mm e => if 0 ≤ e then mm * 2 ^ e.toNat else mm / 2 ^ (-e).toNat
  | _ => 0

/-! ### Ratios, ladder and screens at an agreement (R159, R183, R184, R360) -/

/-- Layers that an UPDATE of the group names (log entry 15). -/
def Mach.ratioLayers (m : Mach) (p g : Nat) : List Nat :=
  sortBy id (dedup (((m.allOps p g).filter fun o => o.kind == .update).filterMap fun o =>
    match m.tensor? p (o.ref 1).handle with
    | some t => if t.desc.layer = 0xFFFF then none else some t.desc.layer
    | none => none))
/-- What R183 finds for a layer: ρ, ρ_d, and 4 tripped, 2 high, 1 low, 0 none. -/
def ratioFind (low high trip : Word) (sw sd sx : Word) : Word × Word × Nat :=
  let r := ratioOf sx sw
  (r, ratioOf sd sw,
   if isNan r || fpLt trip r then 4 else if fpLt high r then 2 else if fpLt r low then 1 else 0)
def Mach.ratiosOf (m : Mach) (p g : Nat) (tile : List Word) : List (Nat × (Word × Word × Nat)) :=
  let b (s : Nat) : Word := BitVec.ofNat 32 (m.dnum (0x4120 + p) s)
  (m.ratioLayers p g).map fun l =>
    let e (k : Nat) : Word := tile.getD (64 + 4 * l + k) 0
    (l, ratioFind (b 1) (b 2) (b 3) (e 1) (e 2) (e 3))
/-- The optimiser slots of a layer's UPDATEs, in the order of the programs. -/
def Mach.layerSlots (m : Mach) (p g l : Nat) : List OptSlot :=
  ((m.allOps p g).filter fun o => o.kind == .update && (match m.tensor? p (o.ref 1).handle with
    | some t => t.desc.layer == l | none => false)).map fun o => m.optSlot p o.param
/-- An event of the ratio monitor: step, layers concerned, the lowest and its ρ. -/
def Mach.ratioEvent (m : Mach) (p step code : Nat) (ls : List (Nat × (Word × Word × Nat))) : Mach :=
  match ls with
  | [] => m
  | (l, (r, _, _)) :: _ =>
    (m.dadd (0x4120 + p) (if code = evRatioTrip then 0x13 else 0x12) 1).fwEvent code (partDie m.mode p) 0 (some p)
      (toLe 8 step ++ toLe 2 ls.length ++ toLe 2 l ++ toLe 4 r.toNat)

/-- The transition of a ladder record (R159): the new record, and whether it stood at the top. -/
def LadderRec.next (r : LadderRec) (a promote clean floor : Nat) : LadderRec × Bool :=
  let (level, run, top) : Nat × Nat × Bool :=
    if promote ≤ a then
      (if r.level ≤ 1 then (2, 0, false) else if r.level < 4 then (r.level + 1, 0, false) else (4, 0, true))
    else if 1 ≤ a then (max r.level 1, 0, false)
    else if r.clean + 1 < clean then (r.level, r.clean + 1, false)
    else if floor < r.level then (r.level - 1, 0, false)
    else (r.level, clean, false)
  ({ level := max level floor, clean := if level < floor then 0 else run, agreed := a }, top)

/-- The layers of which a subject tensor was encoded in the step. -/
def Mach.encodedLayers (m : Mach) (p : Nat) (x : Group) : List Nat :=
  sortBy id (dedup (x.encoded.filterMap fun h =>
    match m.tensor? p h with | some t => if t.desc.subject then some t.desc.layer else none | none => none))

/-- Ladder transitions on the agreed counts (R159). -/
def Mach.applyLadder (m : Mach) (p g : Nat) (tile : List Word) : Mach :=
  match m.group? p g with
  | none => m
  | some x =>
    let q (s : Nat) : Nat := m.dnum (0x4110 + p) s
    let ls := m.encodedLayers p x
    let m := m.dset (0x4110 + p) 0x14 ((List.range (m.groupLayers p g)).map fun l => countOf (tile.getD (64 + 4 * l) 0)).sum
    let m := ls.foldl (fun m l =>
      let a := countOf (tile.getD (64 + 4 * l) 0)
      let (r, top) := (match m.group? p g with | some y => mapGetD y.ladder l {} | none => {}).next a (q 2) (q 3) (q 4)
      let m := m.updGroup p g fun y => { y with ladder := mapSet y.ladder l r }
      if top then m.fwEvent evLadderAtTop (partDie m.mode p) 0 (some p) (toLe 8 x.step ++ toLe 2 l) else m) m
    m.updGroup p g fun y => { y with floor := q 4 }

/-- The screens of R360: the mask of those that fire. -/
def Mach.screens (m : Mach) (p : Nat) (x : Group) (tile : List Word) (tripped : Bool) : Nat :=
  let q (s : Nat) : Nat := m.dnum (0x7030 + p) s
  let e (k : Nat) : Word := tile.getD k 0
  let above (k s : Nat) : Bool := q s != 0xFFFFFFFF && q s < countOf (e k)
  let top := x.measHist.foldl maxMag 0
  let jump := q 5 != 0 && x.measHist.length == 16 && fpLt (fpMul top (fpOfInt 1 (q 5))) (e 5)
  let pe := q 6
  let bound : Word := BitVec.ofNat 32 (q 7)
  (if e 1 = 0 then 0 else 1) + (if tripped then 2 else 0) + (if above 3 2 then 4 else 0) + (if above 4 3 then 8 else 0)
  + (if above 2 4 then 16 else 0) + (if jump then 32 else 0)
  + (if pe != 0 && (isNan (e pe) || fpLt bound (e pe)) then 64 else 0)

/-! ### Agreement (R203, R205) -/

/-- The layers that RATIO_TRIP concerns at an agreement: those that trip (R183), and those with a trust slot whose direction
ratio of the step before is NaN (R175). -/
def Mach.tripLayers (m : Mach) (p g : Nat) (x : Group) (rs : List (Nat × (Word × Word × Nat))) :
    List (Nat × (Word × Word × Nat)) :=
  rs.filter fun q =>
    let r := mapGetD x.ratios q.1 {}
    q.2.2.2 == 4 || (r.agreed && isNan r.rhoD && (m.layerSlots p g q.1).any (·.trust))

/-- Ratios and screens of a step that goes on (R205 step 2). The τ kept for a layer is that of its first UPDATE's slot: the spec
does not say which, where the slots differ in trust (the model's choice, log entry 74). -/
def Mach.applyRatios (m : Mach) (p g : Nat) (tile : List Word) (rs : List (Nat × (Word × Word × Nat))) : Mach :=
  match m.group? p g with
  | none => m
  | some x =>
    let m := m.updGroup p g fun y => { y with ratios := rs.foldl (fun a q =>
      let (l, (r, d, k)) := q
      let old := mapGetD a l {}
      let slot := (m.layerSlots p g l).headD (OptSlot.ofBytes [])
      mapSet a l { rho := r, rhoD := d, agreed := true
                   tau := trustTau slot (if old.agreed then some old.rhoD else none)
                   low := k == 1, high := k == 2, trip := k == 4
                   clipped := x.clipped && (mapGet x.clips l).isSome && (m.layerSlots p g l).any (·.clip) }) y.ratios }
    let pick (k : Nat) := rs.filter fun q => q.2.2.2 == k
    let m := ((m.ratioEvent p x.step evRatioTrip (m.tripLayers p g x rs)).ratioEvent p x.step evRatioHigh (pick 2)).ratioEvent
      p x.step evRatioLow (pick 1)
    let mask := m.screens p x tile (!(pick 4).isEmpty)
    if mask = 0 then m else
    let m := ((m.dadd (0x7030 + p) 0x10 1).dset (0x7030 + p) 0x11 x.step).dset (0x7030 + p) 0x12 mask
    let m := m.fwEvent evStepSuspect (partDie m.mode p) 0 (some p) (toLe 8 x.step ++ toLe 4 mask)
    m.updGroup p g fun y => { y with shut := m.dnum (0x7030 + p) 1 == 1 }

/-- The history boundary of every tensor encoded in the step (R103). -/
def Mach.boundaries (m : Mach) (p g step : Nat) (hs : List Nat) : Mach :=
  let xs := hs.filterMap fun h => (m.tensor? p h).bind fun t => t.hist
  let m := if xs.isEmpty then m else (m.dset (0x4100 + p) 0x12 (min 0xFFFFFFFF (xs.map (·.ovfStep)).sum)).dset (0x4100 + p) 0x13
    (min 0xFFFFFFFF (xs.map (·.lostStep)).sum)
  (sortBy id hs).foldl (fun m h =>
    match m.tensor? p h with
    | none => m
    | some t => match t.hist with
      | none => m
      | some x =>
        let f := m.ladderForm p g t
        m.setHist p h (x.boundary (m.scalePolicy p) f t.desc.hotLimit step)) m

/-- Steps 2 to 5 of R205 on an agreed tile: the step is applied, and the next one, if the group has one, begins. -/
def Mach.applyStep (m : Mach) (p g : Nat) (tile : List Word) (rs : List (Nat × (Word × Word × Nat))) : Mach :=
  match m.group? p g with
  | none => m
  | some x =>
    let s := x.step
    let last := x.rpt ≠ 0 ∧ x.first + x.rpt ≤ s + 1
    let m := m.applyRatios p g tile rs
    let m := m.applyLadder p g tile
    let m := m.boundaries p g s x.encoded
    let m := (m.turnRaised p (m.groupHandles p g)).releaseWide p g
    let m := (m.endLent p g).updGroup p g fun y =>
      { y with
        saves := []
        snapInt := m.dnum (0x2030 + p) 8, ckptInt := m.dnum (0x2030 + p) 3
        measHist := (y.measHist ++ [tile.getD 5 0]).drop ((y.measHist.length + 1) - 16)
        clipped := false, clips := [], fallbacks := 0, carry := y.nextReheats, awaiting := some s, phase := .running
        step := if last then s else s + 1, open_ := false
        acks := [], statuses := [], gradLast := x.gradNonfinite }
    if last then m else
    (((m.beginStep p g).formatReheats p g).sealStart p g).openGate p g

/-- The final status of an agreed tile (R203). -/
def Mach.finalStatus (m : Mach) (p g : Nat) (x : Group) (tile : List Word) (rs : List (Nat × (Word × Word × Nat))) : Nat :=
  let code := countOf (tile.getD 0 0)
  if code ≠ 0 then code
  else if !x.clipped && rs.any (fun q => q.2.2.2 == 4 && (m.layerSlots p g q.1).any fun s => s.clip) then 1 else 0

/-- A step that ends with an abort status has no history boundary: its statistics are cleared (R104). -/
def Mach.clearStats (m : Mach) (p g : Nat) : Mach :=
  (m.groupHists p g).foldl (fun m q => m.setHist p q.1 q.2.clearStep) m
/-- The agreed tile is held: derive the status and act (R205). The commit follows (R206). -/
def Mach.agreeStep (m : Mach) (p g : Nat) (tile : List Word) : Mach :=
  match m.group? p g with
  | none => m
  | some x =>
    let rs := m.ratiosOf p g tile
    let st := m.finalStatus p g x tile rs
    -- the time the agreement took is free (R486)
    let (m, w) := m.freeWord
    let m := if m.dnum (0x2030 + p) 1 = g then (m.dset (0x2030 + p) 0x12 st).dsetAny (0x2030 + p) 0x14 w.toNat else m
    match st with
    | 0 => m.applyStep p g tile rs
    | 1 =>
      let trips := rs.filter fun q => q.2.2.2 == 4
      let m := m.ratioEvent p x.step evRatioTrip (m.tripLayers p g x rs)
      let trip : Word := BitVec.ofNat 32 (m.dnum (0x4120 + p) 3)
      let m := m.updGroup p g fun y =>
        { y with clipped := true
                 clips := trips.map fun q => (q.1, if isNan q.2.1 then 0 else fpDiv trip q.2.1) }
      m.repeatStep p g 1 false
    | 2 =>
      let m := ((m.restoreJournal p g x.step).clearStats p g).endLent p g
      let m := m.updGroup p g fun y => { y with phase := .running, statuses := [] }
      (m.devicePause p g 2).fwEvent evJournalFull (partDie m.mode p) 0 (some p) (toLe 8 x.step ++ toLe 8 x.request)
    | _ =>
      let m := m.dadd (0x4110 + p) 0x17 1
      if x.fallbacks = 0 then
        let m := m.dset (0x4110 + p) 4 (max 2 (m.dnum (0x4110 + p) 4))
        (m.updGroup p g fun y => { y with fallbacks := 1 }).repeatStep p g 3 false
      else
        let m := ((m.clearStats p g).endLent p g).updGroup p g fun y => { y with phase := .running, statuses := [] }
        (m.devicePause p g 3).fwEvent evFallbackUnrec (partDie m.mode p) 0 (some p) (toLe 8 x.step ++ toLe 8 x.request)

/-- Ranks of a group's agreement, this module's among them: number of members and own rank. -/
def Mach.agreeRanks (m : Mach) (p g : Nat) : Nat × Nat :=
  match m.statusCg p g with
  | some c => (leAt (m.cgRec c) 2 2, cgRank (m.cgRec c))
  | none => (1, 0)

/-- STEP_BOUNDARY issues (R193, R201, R204): the own fields are written, the tile sent to every member. -/
def Mach.issueBoundary (m : Mach) (c op : Nat) (o : Op) : Mach :=
  let p := (m.ctx c).part
  let g := (m.ctx c).group
  let w := m.refAt p (o.ref 0)
  let (m, bs, f) := m.fetchTiles p [w]
  match f, m.group? p g with
  | some e, some x =>
    -- a poisoned tile faults, unless the step is ending anyway
    if x.abortCode = 0 then m.opFault c [w] e else
    go m c op p g w x []
  | none, some x => go m c op p g w x bs
  | _, none => m
where
  go (m : Mach) (c op p g : Nat) (w : Nat × Nat) (x : Group) (bs : List Bytes) : Mach :=
    let n := (match m.tensor? p w.1 with | some t => t.tileLen w.2 | none => 0) / 4
    let tile := bytesOfWords (m.ownStatus p g (wordsOfBytes (fitBytes (4 * n) (bs.headD []))))
    let m := m.writeTile 0 p w.1 w.2 tile
    let (_, rank) := m.agreeRanks p g
    let m := m.updGroup p g fun y => { y with phase := .agreeing, statuses := mapSet y.statuses rank tile }
    let m := match m.statusCg p g with
      | some k => m.noticeAll k nkStatus x.step (BitVec.ofNat 32 x.epoch) tile
      | none => m
    (m.updCtx c fun y => { y with flights := y.flights ++ [⟨op, none, [w], [], false, false⟩] }).advance c

/-- May STEP_BOUNDARY issue from the context (R193, R204, R206)? -/
def Mach.boundaryReady (m : Mach) (c : Nat) : Option (Nat × Op) :=
  let x := m.ctx c
  match m.group? x.part x.group, m.boundaryOp x.part x.group with
  | some g, some (cb, pc, o) =>
    let cs := m.ctxsOf x.part x.group
    let others := cs.filter (· != c)
    if c ≠ cb || g.kind ≠ .training || g.phase ≠ .running || !g.open_ || g.awaiting.isSome then none
    else if g.abortCode ≠ 0 then
      -- outstanding collectives are abandoned; everything else must have completed
      if (x.st == .running || x.st == .waiting) && x.want == .nothing
          && (cs.all fun k => (m.ctx k).flights.all fun f => m.colls.any fun q => q.ctx == k && q.op == f.op)
      then some (pc, o) else none
    else if x.st == .running && x.want == .nothing && x.pc == pc && x.flights.isEmpty && g.first + x.rep == g.step
        && (!o.waitEn || x.waitOk)
        && (others.all fun k => let y := m.ctx k
          y.flights.isEmpty && (y.st == .done || g.step < g.first + y.rep))
    then some (pc, o) else none
  | _, _ => none

def Mach.stepBoundary (m : Mach) (c : Nat) : Mach :=
  match m.boundaryReady c with
  | none => m
  | some (pc, o) =>
    let x := m.ctx c
    let aborted := match m.group? x.part x.group with | some g => g.abortCode != 0 | none => false
    let m := if aborted then
        ((((m.abandonColls x.part x.group).abandonBars x.part x.group).dropWaits (.ctx c)).barStop c).updCtx c fun y =>
          { y with st := .running, waitFor := none, waitOk := false, passed := false, pc := pc, want := .nothing }
      else m
    m.issueBoundary c pc o

/-! ### Ladder records at START -/

/-- The layers of a group's subject tensors. -/
def Mach.subjectLayers (m : Mach) (p g : Nat) : List Nat :=
  sortBy id (dedup ((m.groupHandles p g).filterMap fun h =>
    match m.tensor? p h with | some t => if t.desc.subject then some t.desc.layer else none | none => none))

end Sys2Proof.Machine
end

