-- ==== Sys2Proof/Machine/Checkpoints.lean ====
section
/-! DEFINITION. Commit, checkpoints and replica digests (R206, R207, R211 to R218, R353 to R358). -/

namespace Sys2Proof.Machine

/-! ### What a checkpoint and a digest hold (R212, R214, R353) -/

/-- Masters and companions of a group's UPDATEs, tables and accumulators of its ROW_UPDATEs, ascending. -/
def Mach.stateHandles (m : Mach) (p g : Nat) : List Nat :=
  sortBy id (dedup ((m.allOps p g).flatMap fun o =>
    match o.kind with
    | .update => [(o.ref 1).handle, (o.ref 1).handle + 1]
        ++ (if (m.optSlot p o.param).kind = 2 then [(o.ref 1).handle + 2] else [])
    | .rowUpdate => [(o.ref 2).handle, (o.ref 2).handle + 1]
    | _ => []))
/-- The journal record that holds a tile as it stood at the commit of step `s`, where a later step has overwritten it (R213, R354). -/
def Group.overwritten (x : Group) (s h k : Nat) : Option JournalRec :=
  x.journal.find? fun r => s < r.step && r.handle == h && r.tile == k
/-- A tile as it stood at the commit of step `s`, as a reader of memory finds it (R257, R260), and whether it can not be read. -/
def Mach.tileAtCommit (m : Mach) (x : Group) (t : Tensor) (s k : Nat) : Mach × Bytes × Bool :=
  match x.overwritten s t.handle k with
  | some r => m.journalRead r
  | none => let (m, bs, bad) := m.readRaw 3 (t.tileAddr k) (t.tileLen k); (m, bs, bad.isSome)
/-- A tensor's tiles as they stood at the commit of step `s`, in ascending number, and the places in them of tiles that can not be
read: offset and bytes. -/
def Mach.tensorBytes (m : Mach) (p g s h : Nat) : Mach × Bytes × List (Nat × Nat) :=
  match m.group? p g, m.tensor? p h with
  | some x, some t => (List.range t.desc.tileCount).foldl (fun (a : Mach × Bytes × List (Nat × Nat)) k =>
      let (m, bs, bad) := a.1.tileAtCommit x t s k
      (m, a.2.1 ++ bs, if bad then a.2.2 ++ [(a.2.1.length, bs.length)] else a.2.2)) (m, [], [])
  | _, _ => (m, [], [])
/-- The number of those bytes. -/
def Mach.tensorSize (m : Mach) (p g s h : Nat) : Nat :=
  match m.group? p g, m.tensor? p h with
  | some x, some t => ((List.range t.desc.tileCount).map fun k =>
      match x.overwritten s h k with | some r => r.length | none => t.tileLen k).sum
  | _, _ => 0
/-- A tensor's history record as it stood at the commit of step `s`: what step s + 1 has changed since it began stands in the state
recorded for that step (R205, R212). -/
def Mach.histAtCommit (m : Mach) (p g s h : Nat) : Option Hist :=
  let now := (m.tensor? p h).bind fun t => t.hist
  match (m.group? p g).bind fun x => x.saved.find? fun (y : SavedState) => y.step == s + 1 with
  | some y => match mapGet y.hists h with | some a => some a | none => now
  | none => now
/-- Ladder records as R166 lays them out, layer 0 first, up to the highest in use. -/
def ladderBytes (local' : List (Nat × Nat)) (l : List (Nat × LadderRec)) : Bytes :=
  let top := l.foldl (fun a q => max a (q.1 + 1)) 0
  (List.range top).flatMap fun k =>
    let r := mapGetD l k {}
    toLe 8 (r.level + r.clean * 2 ^ 8 + min 65535 (mapGetD local' k 0) * 2 ^ 32 + min 65535 r.agreed * 2 ^ 48)
def ladderOf (bs : Bytes) : List (Nat × LadderRec) :=
  (List.range (bs.length / 8)).map fun k =>
    let w := leAt bs (8 * k) 8
    (k, { level := fld w 2 0, clean := fld w 20 8, agreed := fld w 63 48 })
/-- The counts of the step in progress that ladder records hold (R166). -/
def ladderLocal (bs : Bytes) : List (Nat × Nat) :=
  (List.range (bs.length / 8)).map fun k => (k, fld (leAt bs (8 * k) 8) 47 32)
/-- Ratio records as R190 lays them out. -/
def ratioBytes (l : List (Nat × RatioRec)) : Bytes :=
  let top := l.foldl (fun a q => max a (q.1 + 1)) 0
  (List.range top).flatMap fun k =>
    let r := mapGetD l k {}
    toLe 4 r.rho.toNat ++ toLe 4 r.rhoD.toNat ++ toLe 4 r.tau.toNat
      ++ toLe 4 (r.low.toNat + 2 * r.high.toNat + 4 * r.trip.toNat + 8 * r.clipped.toNat)
def ratioOfBytes (bs : Bytes) : List (Nat × RatioRec) :=
  (List.range (bs.length / 16)).map fun k =>
    let w (o : Nat) : Word := BitVec.ofNat 32 (leAt bs (16 * k + o) 4)
    let f := leAt bs (16 * k + 12) 4
    (k, { rho := w 0, rhoD := w 4, agreed := true, tau := w 8, low := bitAt f 0, high := bitAt f 1, trip := bitAt f 2
          clipped := bitAt f 3 })
/-- Slots and schedules. -/
def Mach.optBytes (m : Mach) (p : Nat) : Bytes :=
  (m.slotRecs p).flatMap (fun q => fitBytes 64 q.2) ++ (m.schedRecs p).flatMap fun q => fitBytes 16 q.2

/-- The small records of a checkpoint: kind, handle, content, histories in ascending handle (R212, R213). The ladder records hold the
counts with which step s + 1 starts: those of the working copies it uses (R159, R166, R194). -/
def Mach.ckptSmall (m : Mach) (p g s : Nat) : List (Nat × Nat × Bytes) :=
  match m.group? p g with
  | none => []
  | some x =>
    let carry := match x.saved.find? fun (y : SavedState) => y.step == s + 1 with | some y => y.carry | none => x.carry
    ((sortBy id (dedup (m.groupHandles p g))).filterMap fun h => (m.histAtCommit p g s h).map fun y => (1, h, y.toBytes))
    ++ [(2, 0, ladderBytes carry x.ladder), (3, 0, ratioBytes x.ratios), (4, 0, m.optBytes p)]
/-- A section of a checkpoint: kind, handle, content, and the places in it that can not be read. -/
structure CkptSection where
  kind   : Nat
  handle : Nat
  bytes  : Bytes
  bad    : List (Nat × Nat) := []
  deriving DecidableEq, Repr
/-- A checkpoint's sections in the order they are shipped, in ascending handle: a tensor before its history, the records of the
group last. -/
def Mach.ckptSections (m : Mach) (p g s : Nat) (small : List (Nat × Nat × Bytes)) : Mach × List CkptSection :=
  let ts := m.stateHandles p g
  let (m, ss) := (sortBy id (dedup (ts ++ (small.filter fun q => q.1 == 1).map fun q => q.2.1))).foldl
    (fun (a : Mach × List CkptSection) h =>
      let (m, mine) : Mach × List CkptSection :=
        if ts.contains h then (let (m, bs, bad) := a.1.tensorBytes p g s h; (m, [⟨0, h, bs, bad⟩])) else (a.1, [])
      (m, a.2 ++ mine ++ (small.filter fun q => q.1 == 1 && q.2.1 == h).map fun q => ⟨1, h, q.2.2, []⟩)) (m, [])
  (m, ss ++ (small.filter fun q => q.1 != 1).map fun q => ⟨q.1, q.2.1, q.2.2, []⟩)
/-- The sections of a checkpoint and the bytes of its slot. -/
def Mach.ckptSize (m : Mach) (p g s : Nat) (small : List (Nat × Nat × Bytes)) : Nat × Nat :=
  let ts := m.stateHandles p g
  let n := ts.length + small.length
  (n, 4096 + 32 * n + (ts.map (m.tensorSize p g s)).sum + (small.map fun q => q.2.2.length).sum)
/-- A slot header (R214). -/
def ckptHeader (state group source part mode step seed level count len commit : Nat) (digest : Bytes) : Bytes :=
  toLe 1 1 ++ toLe 1 state ++ toLe 2 group ++ toLe 2 source ++ toLe 1 part ++ toLe 1 mode ++ toLe 8 step ++ toLe 8 seed
  ++ toLe 4 level ++ toLe 4 count ++ toLe 8 len ++ toLe 8 commit ++ zeroBytes 16 ++ fitBytes 32 digest ++ zeroBytes 4000
/-- A whole slot in state 2 (R214). -/
def Mach.ckptImage (m : Mach) (p g step : Nat) (ss : List CkptSection) : Bytes :=
  let dir0 := 4096 + 32 * ss.length
  let (dir, body) := ss.foldl (fun (a : Bytes × Bytes) s =>
    (a.1 ++ toLe 1 s.kind ++ zeroBytes 3 ++ toLe 4 s.handle ++ toLe 8 (dir0 + a.2.length) ++ toLe 8 s.bytes.length ++ zeroBytes 8,
     a.2 ++ s.bytes)) ([], [])
  let rest := dir ++ body
  let seed := match m.group? p g with | some x => x.seed | none => 0
  ckptHeader 2 g (fld m.modNum 11 0) p m.mode step seed m.level ss.length (4096 + rest.length) 0 (shake256 rest 32) ++ rest

/-- The places in a slot that hold what could not be read: offset and bytes. -/
def ckptBad (ss : List CkptSection) : List (Nat × Nat) :=
  (ss.foldl (fun (a : Nat × List (Nat × Nat)) s =>
    (a.1 + s.bytes.length, a.2 ++ s.bad.map fun q => (a.1 + q.1, q.2))) (4096 + 32 * ss.length, [])).2

/-! ### The slots of a source (R215, R216) -/

/-- The record of slot `i` in 0x2030 + p, 0x16. -/
def Mach.slotRec (m : Mach) (p i : Nat) : Bytes := subBytes (m.dict? (0x2030 + p) 0x16) (32 * i) 32
def Mach.setSlotRec (m : Mach) (p i : Nat) (r : Bytes) : Mach :=
  let both := fitBytes 64 (m.dict? (0x2030 + p) 0x16)
  m.dictPut (0x2030 + p) 0x16 (overlay both (32 * i) (r.take 32))
/-- The slot that does not hold the newest committed checkpoint. -/
def Mach.freeSlot (m : Mach) (p : Nat) : Nat :=
  let a := m.slotRec p 0
  let b := m.slotRec p 1
  let ca := leAt a 1 1 == 3
  let cb := leAt b 1 1 == 3
  if ca && (!cb || leAt b 8 8 ≤ leAt a 8 8) then 1 else 0
/-- The slot of this source hosted here, when its buddy is this module. -/
def Mach.hostedSlot (m : Mach) (module part idx : Nat) (hpart : Option Nat) : Option HostedSlot :=
  m.hosted.reverse.find? fun x => x.module == module && x.part == part && x.idx == idx
    && (match hpart with | some q => x.hpart == q | none => true)
/-- Write bytes of a slot: into the hosting area here, or to the buddy. -/
def Mach.putSlot (m : Mach) (p i off : Nat) (bs : Bytes) : Mach :=
  match m.claims.find? fun c => c.part == p with
  | none => m
  | some c =>
    if c.module = m.modNum then
      match m.hostedSlot c.module p i (some c.bpart) with
      | some x => m.scatter 3 (areaPart x.places off bs.length) bs
      | none => m
    else match m.flowPort p 0 0 c.module c.bpart none with
      | some q => (pieces 2048 (ceilDiv bs.length 2048) bs).zipIdx.foldl (fun m x => m.updPort q fun y => y.enqueue
          { cls := 0, src := 32 + p, data := x.1, slot := some (c.module, c.bpart, i, off + 2048 * x.2) }) m
      | none => m
/-- Poison is kept where a slot is copied within the module (R259). A packet carries no mark of it: to another module the bytes go
as they are read (the model's choice, log entry 75). -/
def Mach.poisonSlot (m : Mach) (p i : Nat) (bad : List (Nat × Nat)) : Mach :=
  match m.claims.find? fun c => c.part == p with
  | none => m
  | some c =>
    if c.module ≠ m.modNum then m else
    match m.hostedSlot c.module p i (some c.bpart) with
    | some x => (bad.flatMap fun q => areaPart x.places q.1 q.2).foldl (fun m q => m.poisonRange q.1 q.2) m
    | none => m
/-- What a slot held goes: its state is 0 (R215, R216). -/
def Mach.clearSlot (m : Mach) (p i : Nat) : Mach := (m.putSlot p i 1 [0]).setSlotRec p i (overlay (m.slotRec p i) 1 [0])
def Mach.ckptFailed (m : Mach) (p step cause : Nat) : Mach :=
  m.fwEvent evCkptFailed (partDie m.mode p) 0 (some p) (toLe 8 step ++ toLe 1 cause)
/-- Bytes of the hosting area of a partition in use. -/
def Mach.hostUsed (m : Mach) (hp : Nat) : Nat := ((m.hosted.filter fun x => x.hpart == hp).map (·.size)).sum
/-- Claim two slots of a size at the buddy; the cause of failure where that is refused: 1 buddy unreachable, 2 hosting area
refused or too small. -/
def Mach.claimSlots (m : Mach) (p size : Nat) : Mach × Option Nat :=
  let bm := m.dnum (0x2030 + p) 4
  let bp := m.dnum (0x2030 + p) 5
  let m0 : Mach := { m with claims := m.claims.filter fun c => c.part != p }
  let m1 : Mach := { m0 with claims := m0.claims ++ [⟨p, bm, bp, size⟩] }
  if bm = 0xFFFF then (m, some 1)
  else if bm ≠ m.modNum then
    if m.unreach.contains (bm, bp) || (m.flowPort p 0 0 bm bp none).isNone then (m, some 1) else (m1, none)
  else if !m.partOk bp || m.dnum (0x2030 + bp) 6 * 1048576 < m.hostUsed bp + 2 * size then (m, some 2)
  else
    match m1.areaRoom bp .lp none size with
    | none => (m, some 2)
    | some a =>
      let m2 : Mach := { m1 with hosted := m1.hosted ++ [⟨bm, p, 0, a, size, bp⟩] }
      match m2.areaRoom bp .lp none size with
      | none => (m, some 2)
      | some b => ({ m2 with hosted := m2.hosted ++ [⟨bm, p, 1, b, size, bp⟩] }, none)

/-- Room for a checkpoint's staging area: the LP region, else the HBM (R265). -/
def Mach.stagingRoom (m : Mach) (p n : Nat) : Option (List (Nat × Nat)) :=
  ([.lp, .hbm] : List Tier).findSome? fun t => m.areaRoom p t none (roundUp n 64)
/-- A checkpoint of the committed step starts (R211, R213, R215): its small records go into a staging area of the LP region, or of
the HBM where that is full. Where neither has room the checkpoint fails as for want of hosting room (the model's choice, log
entry 75). One that fails leaves the slot that it would have taken empty. -/
def Mach.startCkpt (m : Mach) (p g step : Nat) : Mach :=
  if m.ckpts.any fun c => c.part == p then
    (m.dadd (0x2030 + p) 0x17 1).fwEvent evCkptSkipped (partDie m.mode p) 0 (some p) (toLe 8 step)
  else
    let small := m.ckptSmall p g step
    let (count, size) := m.ckptSize p g step small
    let staged := small.flatMap fun q => q.2.2
    let bm := m.dnum (0x2030 + p) 4
    let bp := m.dnum (0x2030 + p) 5
    let cur := m.claims.find? fun c => c.part == p && c.module == bm && c.bpart == bp
    let (m, bad) := match cur with
      | some c => (m, if c.size < size then some 3 else none)
      | none => m.claimSlots p (roundUp size 1073741824)
    let i := m.freeSlot p
    match bad, m.stagingRoom p staged.length with
    | some cause, _ => (if cause = 3 then m.clearSlot p i else m).ckptFailed p step cause
    | none, none => (m.clearSlot p i).ckptFailed p step 2
    | none, some a =>
      let seed := match m.group? p g with | some x => x.seed | none => 0
      let h := ckptHeader 1 g (fld m.modNum 11 0) p m.mode step seed m.level count size 0 []
      let m := ((m.scatter 3 a staged).putSlot p i 0 h).setSlotRec p i (h.take 32)
      { m with ckpts := m.ckpts ++ [{ part := p, slot := i, step := step, group := g, stage := a
                                      small := small.map fun q => (q.1, q.2.1, q.2.2.length) }] }

/-- Release the records held for a checkpoint or a round, when nothing needs them (R213, R354). -/
def Mach.dropHeld (m : Mach) (p : Nat) : Mach :=
  if m.holding p then m
  else { m with groups := m.groups.map fun x =>
      if x.part = p then { x with journal := x.journal.filter fun r => !r.held } else x }

/-- Can the buddy that holds the partition's slots not be reached? -/
def Mach.buddyLost (m : Mach) (p : Nat) (b : Claim) : Bool :=
  b.module != m.modNum && (m.unreach.contains (b.module, b.bpart) || (m.flowPort p 0 0 b.module b.bpart none).isNone)
/-- A checkpoint on its way to a buddy on another module cannot complete (R216): the buddy cannot be reached (1), or it refuses or
lacks the hosting area (2), and then the claim falls. -/
def Mach.ckptLost (m : Mach) (p dm dp cause : Nat) : Mach :=
  let isIt (c : Claim) : Bool := c.part == p && c.module == dm && c.bpart == dp
  match m.ckpts.find? fun c => c.part == p with
  | none => m
  | some k =>
    if dm = m.modNum ∨ m.claims.any isIt = false then m else
    let m : Mach := { m with ckpts := m.ckpts.filter fun x => x.part != p
                             claims := if cause = 2 then m.claims.filter (fun c => !isIt c) else m.claims }
    (m.ckptFailed p k.step cause).dropHeld p
/-- The staged records of a checkpoint. -/
def Mach.stagedSmall (m : Mach) (c : Ckpt) : List (Nat × Nat × Bytes) :=
  (c.small.foldl (fun (a : Nat × List (Nat × Nat × Bytes)) q =>
    (a.1 + q.2.2, a.2 ++ [(q.1, q.2.1, (m.collect 3 (areaPart c.stage a.1 q.2.2)).2.1)])) (0, [])).2
/-- A checkpoint's image into its slot, its header last. -/
def Mach.shipSlot (m : Mach) (p : Nat) (c : Ckpt) : Mach :=
  let (m, ss) := m.ckptSections p c.group c.step (m.stagedSmall c)
  let image := m.ckptImage p c.group c.step ss
  (((m.putSlot p c.slot 4096 (image.drop 4096)).poisonSlot p c.slot (ckptBad ss)).putSlot p c.slot 0 (image.take 4096)).setSlotRec
    p c.slot (image.take 32)
/-- A clean round at step `r` commits the slot that awaits it (R215). -/
def Mach.commitSlots (m : Mach) (p r : Nat) : Mach :=
  [0, 1].foldl (fun m i =>
    let h := m.slotRec p i
    if leAt h 1 1 = 2 ∧ leAt h 8 8 < r then
      let m := ((m.putSlot p i 40 (toLe 8 r)).putSlot p i 1 [3]).setSlotRec p i (overlay h 1 [3])
      m.fwEvent evCkptCommitted (partDie m.mode p) 0 (some p) (toLe 8 (leAt h 8 8) ++ toLe 1 i)
    else m) m
/-- A round at step `r` completes clean: it commits the slot that awaits it, and, once it has been shipped, the one under way. -/
def Mach.cleanRound (m : Mach) (p r : Nat) : Mach :=
  ({ m with ckpts := m.ckpts.map fun c =>
      if c.part == p && decide (c.step < r) && c.clean.isNone then { c with clean := some r } else c } : Mach).commitSlots p r
/-- A checkpoint has been shipped: the header goes last, with state 2, and a round that was clean meanwhile commits it (R215); a buddy
that has gone makes it fail (R216). -/
def Mach.shipped (m : Mach) (p : Nat) : Mach :=
  match m.ckpts.find? fun c => c.part == p, m.claims.find? fun c => c.part == p with
  | some c, some b =>
    let m := { m with ckpts := m.ckpts.filter fun x => x.part != p }
    if m.buddyLost p b then (m.ckptFailed p c.step 1).dropHeld p else
    let m := m.shipSlot p c
    (match c.clean with | some r => m.commitSlots p r | none => m).dropHeld p
  | _, _ => m

/-- A divergent round discards what awaits it and what is being shipped (R215, R356, R362). -/
def Mach.discardSlots (m : Mach) (p : Nat) : Mach :=
  let m := [0, 1].foldl (fun m i =>
    let h := m.slotRec p i
    if leAt h 1 1 = 2 ∨ (m.ckpts.any fun c => c.part == p && c.slot == i) then
      (m.clearSlot p i).fwEvent evCkptDiscarded (partDie m.mode p) 0 (some p) (toLe 8 (leAt h 8 8) ++ toLe 1 i)
    else m) m
  ({ m with ckpts := m.ckpts.filter fun c => c.part != p }).dropHeld p

/-! ### Digest rounds (R353 to R358) -/

/-- The collective group of a partition's rounds; none: its own module alone. -/
def Mach.digestCg (m : Mach) (p : Nat) : Option Nat :=
  let c := m.dnum (0x7020 + p) 2
  if c < 32 ∧ cgDefined (m.cgRec c) ∧ leAt (m.cgRec c) 0 1 = p then some c else none
/-- This member's payload for a round: classes, D_m, D_w (R326, R353). -/
def Mach.digestPayload (m : Mach) (p g r : Nat) : Mach × Bytes :=
  let over' (m : Mach) (hs : List Nat) : Mach × Bytes :=
    let (m, bs) := hs.foldl (fun (a : Mach × Bytes) h =>
      let (m, bs, _) := a.1.tensorBytes p g r h
      (m, a.2 ++ toLe 4 h ++ bs)) (m, [])
    (m, shake256 (toLe 8 r ++ bs) 32)
  let ws := (m.groupHandles p g).filter fun h => match m.tensor? p h with | some t => t.desc.cls == 0 | none => false
  let (m, dm) := over' m (m.stateHandles p g)
  let (m, dw) := over' m ws
  (m, toLe 2 (m.dnum (0x7020 + p) 3) ++ toLe 2 (m.dnum (0x7020 + p) 4) ++ zeroBytes 12 ++ dm ++ dw)
/-- A due round starts, or is skipped (R354). -/
def Mach.startDigest (m : Mach) (p g r : Nat) : Mach :=
  if m.digest.any fun d => d.part == p then
    (m.dadd (0x7020 + p) 0x14 1).fwEvent evDigestSkipped (partDie m.mode p) 0 (some p) (toLe 8 r)
  else
    let early := match m.group? p g with
      | some x => (x.early.filter fun e => e.1 == r && e.2.1 == nkDigest).map fun e => (e.2.2.1, e.2.2.2)
      | none => []
    let m := m.updGroup p g fun x => { x with early := x.early.filter fun e => !(e.1 ≤ r && e.2.1 == nkDigest) }
    let (m, mine) := m.digestPayload p g r
    { m with digest := m.digest ++ [{ part := p, step := r, mine := mine, got := early }] }

/-- The classes of a round: for each class number, the ranks with their digests. -/
def classesOf (xs : List (Nat × Nat × Bytes)) : List (List (Nat × Bytes)) :=
  (dedup (xs.map fun x => x.2.1)).map fun c => (xs.filter fun x => x.2.1 == c).map fun x => (x.1, x.2.2)
/-- A class's members differ; the odd one out, where there is one (R355). -/
def classBad (c : List (Nat × Bytes)) : Bool := c.any fun x => c.any fun y => x.2 != y.2
def classOdd (c : List (Nat × Bytes)) : Option Nat :=
  if c.length < 3 then none
  else ((c.find? fun x => (c.countP fun y => y.2 == x.2) == 1
      && ((c.filter fun y => y.1 != x.1).all fun y => (c.filter fun z => z.1 != x.1).all fun z => y.2 == z.2))).map (·.1)

/-- A round is complete: evaluate it (R355, R356). -/
def Mach.evalDigest (m : Mach) (p : Nat) : Mach :=
  match m.digest.find? fun d => d.part == p with
  | none => m
  | some d =>
    let (n, rank) := match m.digestCg p with
      | some c => (leAt (m.cgRec c) 2 2, cgRank (m.cgRec c))
      | none => (1, 0)
    if !d.computed || d.got.length < n then m else
    let ms := classesOf (d.got.map fun q => (q.1, leAt q.2 0 2, subBytes q.2 16 32))
    let ws := classesOf (d.got.map fun q => (q.1, leAt q.2 2 2, subBytes q.2 48 32))
    let all := ms ++ ws
    let out := sortBy id (dedup (all.filterMap classOdd))
    let bad := all.any classBad
    let m := { m with digest := m.digest.filter fun x => x.part != p }
    let q := 0x7020 + p
    let m := (((m.dset q 0x10 d.step).dset q 0x11 (if !bad then 0 else if out.isEmpty then 2 else 1)).dadd q 0x13 1).dset
      q 0x16 (all.countP fun c => c.length == 1)
    if !bad then m.cleanRound p d.step
    else
      let g := m.dnum (0x2030 + p) 1
      let m := (m.dictPut q 0x12 (out.flatMap (toLe 2))).fwEvent evReplicaDiverged (partDie m.mode p) 0 (some p)
        (toLe 8 d.step ++ toLe 1 (if out.isEmpty then 2 else 1) ++ toLe 1 out.length ++ (out.take 3).flatMap (toLe 2))
      let m := (m.discardSlots p).devicePause p g 16
      if out.contains rank then
        (m.fwEvent evReplicaExpelled (partDie m.mode p) 0 (some p) (toLe 8 d.step)).dset 0x7010 6 1
      else m

/-- The due round's hashes are ready (R354). -/
def Mach.digestsDone (m : Mach) (p : Nat) : Mach :=
  match m.digest.find? fun d => d.part == p && !d.computed with
  | none => m
  | some d =>
    let rank := match m.digestCg p with | some c => cgRank (m.cgRec c) | none => 0
    let g := m.dnum (0x2030 + p) 1
    let ep := match m.group? p g with | some x => x.epoch | none => 0
    let m := { m with digest := m.digest.map fun (x : DigestRound) =>
      if x.part = p then { x with computed := true, got := mapSet x.got rank d.mine } else x }
    let m := m.dictPut (0x7020 + p) 0x15 (d.mine.drop 16)
    let m := match m.digestCg p with
      | some c => m.noticeAll c nkDigest d.step (BitVec.ofNat 32 ep) d.mine
      | none => m
    (m.dropHeld p).evalDigest p
/-- A digest notice of a member has arrived. -/
def Mach.digestFrom (m : Mach) (p rank step : Nat) (payload : Bytes) : Mach :=
  if m.digest.any fun d => d.part == p && d.step == step then
    ({ m with digest := m.digest.map fun (x : DigestRound) =>
      if x.part = p then { x with got := mapSet x.got rank (fitBytes 80 payload) } else x }).evalDigest p
  else
    m.updGroup p (m.dnum (0x2030 + p) 1) fun x => { x with early := x.early ++ [(step, nkDigest, rank, fitBytes 80 payload)] }
/-- A round ends with its notices missing (R358). -/
def Mach.digestExpire (m : Mach) (p : Nat) : Mach :=
  match m.digest.find? fun d => d.part == p with
  | none => m
  | some d =>
    let m := { m with digest := m.digest.filter fun x => x.part != p }
    (((m.dset (0x7020 + p) 0x11 3).dset (0x7020 + p) 0x10 d.step).dadd (0x7020 + p) 0x13 1 |>.fwEvent evDigestTimeout
      (partDie m.mode p) 0 (some p) (toLe 8 d.step)).dropHeld p

/-! ### Commit (R206) -/

/-- The applied step commits when every member's acknowledgement is held. -/
def Mach.tryCommit (m : Mach) (p g : Nat) : Mach :=
  match m.group? p g with
  | none => m
  | some x =>
    match x.awaiting with
    | none => m
    | some s =>
      let (n, rank) := m.agreeRanks p g
      if ((List.range n).filter fun k => k != rank && !x.acks.contains k) ≠ [] then m else
      let hold := m.holding p
      let m := m.updGroup p g fun y =>
        { y with
          awaiting := none, committed := some s, acks := []
          journal := y.journal.filterMap fun r =>
            if r.step = s then (if hold then some { r with held := true } else none) else some r
          saved := y.saved.filter (fun q => q.step != s), atStart := y.atStart.filter (fun q => q.1 != s)
          bars := y.bars.filter (fun q => q.1 != s)
          snaps := y.snaps.filter fun q => q.1 != s }
      let cs := m.ctxsOf p g
      let m : Mach := { m with colls := m.colls.filter fun k => !(cs.contains k.ctx && k.stage == 20 && k.step ≤ s) }
      let isStep := m.dnum (0x2030 + p) 1 = g
      let m := (if isStep then m.dset (0x2030 + p) 0x11 s else m).dset (0x4120 + p) 0x14 x.gradLast
      let m := (x.snaps.filter fun q => q.1 == s).foldl (fun m q =>
        m.fwEvent evSnapshotReady (partDie m.mode p) 0 (some p) (toLe 8 s ++ toLe 4 q.2)) m
      -- the intervals of the committed step
      let ci := x.ckptInt
      let m := if isStep ∧ ci ≠ 0 ∧ s % ci = 0 then m.startCkpt p g s else m
      let di := m.dnum (0x7020 + p) 1
      let m := if isStep ∧ s % max 1 di = 0 then m.startDigest p g s else m
      -- a live update holds the group once its gate is closed and every stream stands at it
      let at' := (m.ctxsOf p g).all fun c =>
        let y := m.ctx c
        y.flights.isEmpty && (y.st == .done || y.waitFor == some .gate)
      if x.shut then m.devicePause p g 17
      else if m.updHeld p g && at' then m.devicePause p g 18 else m

/-- A member's acknowledgement (R206): of the step awaited, or kept for when the step is applied. -/
def Mach.ackFrom (m : Mach) (p g rank step : Nat) : Mach :=
  match m.group? p g with
  | none => m
  | some x =>
    if x.awaiting = some step then
      (m.updGroup p g fun y => { y with acks := if y.acks.contains rank then y.acks else y.acks ++ [rank] }).tryCommit p g
    else m.updGroup p g fun y => { y with early := y.early ++ [(step, nkAck, rank, [])] }

/-- After a step has been applied: the module's own acknowledgement, and those that came early. -/
def Mach.commitRound (m : Mach) (p g : Nat) : Mach :=
  match m.group? p g with
  | none => m
  | some x =>
    match x.awaiting with
    | none => m
    | some s =>
      let m := match m.statusCg p g with
        | some c => m.noticeAll c nkAck s (BitVec.ofNat 32 x.epoch) []
        | none => m
      let mine := x.early.filter fun (e : Nat × Nat × Nat × Bytes) => e.1 == s && e.2.1 == nkAck
      let m := m.updGroup p g fun y =>
        { y with acks := dedup (y.acks ++ mine.map fun e => e.2.2.1)
                 early := y.early.filter fun (e : Nat × Nat × Nat × Bytes) => !(e.1 == s && e.2.1 == nkAck) }
      -- statuses and aborts of the step now in progress that came early
      let m := match m.group? p g with
        | none => m
        | some y =>
          let now := y.early.filter fun (e : Nat × Nat × Nat × Bytes) => e.1 == y.step && (e.2.1 == nkStatus || e.2.1 == nkAbort)
          let m := m.updGroup p g fun z =>
            { z with
              early := z.early.filter fun (e : Nat × Nat × Nat × Bytes) => !(e.1 == z.step && (e.2.1 == nkStatus || e.2.1 == nkAbort))
              statuses := (now.filter fun (e : Nat × Nat × Nat × Bytes) => e.2.1 == nkStatus).foldl
                (fun a (e : Nat × Nat × Nat × Bytes) => mapSet a e.2.2.1 e.2.2.2) z.statuses }
          (now.filter fun (e : Nat × Nat × Nat × Bytes) => e.2.1 == nkAbort).foldl (fun (m : Mach) (e : Nat × Nat × Nat × Bytes) => m.abortStep p g (leAt e.2.2.2 0 4) 0 false) m
      m.tryCommit p g

/-- The folded status stands in the status tile; the STEP_BOUNDARY completes, and the step is agreed. -/
def Mach.agreeWith (m : Mach) (p g c pc : Nat) (o : Op) (tile : List Word) : Mach :=
  let w := m.refAt p (o.ref 0)
  let m := m.updCtx c fun y => { y with flights := y.flights.map fun f =>
    if f.op = pc then { f with writes := [⟨w.1, w.2, bytesOfWords tile, false⟩], ready := true } else f }
  let m := (m.landFlight c pc).updGroup p g fun y => { y with phase := .running }
  (m.agreeStep p g tile).commitRound p g
/-- AGREED_STATUS (R202, R205): every member's tile is held; the reduced tile goes to the status tile, STEP_BOUNDARY
completes, and the final status is acted on. -/
def Mach.agreedStatus (m : Mach) (p g : Nat) : Mach :=
  match m.group? p g, m.boundaryOp p g with
  | some x, some (c, pc, o) =>
    let n := (m.agreeRanks p g).1
    if x.phase ≠ .agreeing || ((List.range n).any fun k => (mapGet x.statuses k).isNone) then m else
    m.agreeWith p g c pc o (foldStatus ((List.range n).map fun k => wordsOfBytes (mapGetD x.statuses k [])))
  | _, _ => m

/-- A member's status tile has arrived (R202). -/
def Mach.statusFrom (m : Mach) (p g rank step : Nat) (tile : Bytes) : Mach :=
  match m.group? p g with
  | none => m
  | some x =>
    if step = x.step ∧ x.open_ then m.updGroup p g fun y => { y with statuses := mapSet y.statuses rank tile }
    else m.updGroup p g fun y => { y with early := y.early ++ [(step, nkStatus, rank, tile)] }
/-- An abort notice of a member (R204). -/
def Mach.abortFrom (m : Mach) (p g rank step : Nat) (payload : Bytes) : Mach :=
  match m.group? p g with
  | none => m
  | some x =>
    if step = x.step ∧ x.open_ then m.abortStep p g (leAt payload 0 4) 0 false
    else if x.step < step then m.updGroup p g fun y => { y with early := y.early ++ [(step, nkAbort, rank, payload)] }
    else m

/-! ### CKPT_RESTORE (R217, R218) -/

/-- A directory entry: kind, handle, offset, length. -/
def dirEntry (bs : Bytes) (i : Nat) : Nat × Nat × Nat × Nat :=
  let o := 4096 + 32 * i
  (leAt bs o 1, leAt bs (o + 4) 4, leAt bs (o + 8) 8, leAt bs (o + 16) 8)
/-- Does the slot pass the checks that give BAD_CHECKPOINT? -/
def Mach.slotOk (m : Mach) (p : Nat) (bs : Bytes) : Bool :=
  let count := leAt bs 28 4
  let len := leAt bs 32 8
  let dir := (List.range count).map (dirEntry bs)
  4096 ≤ bs.length && leAt bs 0 1 == 1 && leAt bs 1 1 == 3 && fld (leAt bs 4 2) 15 12 == 0
  && (subBytes bs 48 16).all (· == 0) && (subBytes bs 96 4000).all (· == 0)
  && leAt bs 7 1 == m.mode && 4096 + 32 * count ≤ len && len ≤ bs.length
  && subBytes bs 64 32 == shake256 (subBytes bs 4096 (len - 4096)) 32
  && allIdx dir fun i e =>
    let o := 4096 + 32 * i
    e.1 ≤ 4 && (subBytes bs (o + 1) 3).all (· == 0) && (subBytes bs (o + 24) 8).all (· == 0)
    && e.2.2.1 + e.2.2.2 ≤ len
    && (if 2 ≤ e.1 then e.2.1 == 0
        else e.2.1 < 2 ^ 20 && (match m.tensor? p e.2.1 with
          | none => false
          | some t => if e.1 = 0 then e.2.2.2 == ((List.range t.desc.tileCount).map fun k =>
                tileBytes t.desc.fmt (t.geom k) t.desc.hotLimit).sum
              else (match t.hist with | some x => e.2.2.2 == histLen x.chanCount | none => false)))
/-- Write back an accepted slot (R218). -/
def Mach.applySlot (m : Mach) (p g : Nat) (bs : Bytes) : Mach :=
  let dir := (List.range (leAt bs 28 4)).map (dirEntry bs)
  let step := leAt bs 8 8
  let m := m.updGroup p g fun x =>
    { x with seed := leAt bs 16 8, step := step + 1, rebuild := true, open_ := false, awaiting := none, committed := some step
             journal := x.journal.filter (·.held), saved := [], atStart := [], bars := [], measHist := [], early := []
             clipped := false, clips := [], fallbacks := 0, carry := [], pausedBy := 0, shut := false }
  let m := dir.foldl (fun m e =>
    let part := subBytes bs e.2.2.1 e.2.2.2
    let h := e.2.1
    match e.1 with
    | 0 =>
      match m.tensor? p h with
      | none => m
      | some t => ((List.range t.desc.tileCount).foldl (fun (a : Mach × Nat) k =>
          let n := tileBytes t.desc.fmt (t.geom k) t.desc.hotLimit
          let m := (a.1.shapeTile p g h k t.desc.fmt).getD a.1
          (m.writeTile 0 p h k (subBytes part a.2 n), a.2 + n)) (m, 0)).1
    | 1 => m
    | 2 => m.updGroup p g fun x => { x with ladder := ladderOf part, carry := ladderLocal part }
    | 3 => m.updGroup p g fun x => { x with ratios := ratioOfBytes part }
    | _ =>
      (List.range 16).foldl (fun m k =>
        (m.dictPut (0x4130 + p) (1 + k) (subBytes part (64 * k) 64)).dictPut (0x4130 + p) (0x21 + k)
          (subBytes part (1024 + 16 * k) 16)) m) m
  -- histories last: the form that decides B follows the restored ladder
  let m := dir.foldl (fun m e =>
    if e.1 ≠ 1 then m else
    match m.tensor? p e.2.1 with
    | none => m
    | some t => m.setHist p e.2.1
        ((Hist.ofBytes (subBytes bs e.2.2.1 e.2.2.2)).restore (m.scalePolicy p) (m.ladderForm p g t))) m
  m.goCold p

end Sys2Proof.Machine
end

