-- ==== Sys2Proof/Machine/Groups.lean ====
section
/-! DEFINITION. Stream groups: START, RESUME, PAUSE, STOP, BIND, UNBIND (R37 to R43, R50, R162, R185, R192, R199, R207,
R210, R218, R284, R328, R331), the control operations, completion, and the watchdogs' expiry (R43, R286, R294, R295). -/

namespace Sys2Proof.Machine

/-! ### What START checks -/

/-- The programs of a group agree with its kind (R37). -/
def kindsOk (k : GroupKind) (ks : List ProgKind) : Bool :=
  match k with
  | .training => ks.length == 3 && ks.contains .forward && ks.contains .backward && ks.contains .update
  | .inference => ks == [.inference]
  | .general => 1 ≤ ks.length && ks.length ≤ 16 && ks.all fun x => x == .general

/-- The STEP_BOUNDARY of a training group's programs stands where R192 wants it. -/
def Mach.boundariesOk (m : Mach) (p g : Nat) : Bool :=
  let n (k : ProgKind) : Nat := (m.groupOps p g k).countP fun o => o.kind == .stepBoundary
  let us := m.groupOps p g .update
  n .forward == 0 && n .backward == 0 && n .update == 1
  && ((us[us.length - 2]?).map (·.kind)) == some .stepBoundary

/-- The status tensor (R199). -/
def Mach.statusOk (m : Mach) (p g : Nat) : Bool :=
  match m.boundaryOp p g with
  | none => false
  | some (_, _, o) =>
    match m.tensor? p (o.ref 0).handle with
    | none => false
    | some t =>
      let e := 64 + 4 * m.groupLayers p g
      t.desc.fmt == .fp32 && t.desc.ext == ⟨e, 1, 1, 1⟩ && t.desc.tile == ⟨e, 1, 1, 1⟩

/-- The groups of a partition with a context that is neither FREE, BOUND nor DONE, but one. -/
def Mach.runningGroups (m : Mach) (p g : Nat) : List Group :=
  m.groups.filter fun x => x.part == p && x.num != g
    && (m.ctxsOf p x.num).any fun c => (m.ctx c).st != .bound && (m.ctx c).st != .done

/-- COLLECTIVEs: shapes against the group sizes in force (R321), no group named twice (R328), none in state 2 (R331). -/
def Mach.collsOk (m : Mach) (p g : Nat) : Bool :=
  let per := (m.ctxsOf p g).map fun c => opCgroups (m.opsOf c)
  let all := per.flatten
  noDup all
  && ((m.allOps p g).all fun o => o.kind != .collective
      || collOk m.cgRec p o (o.refs.filterMap fun r => (m.tensor? p r.handle).map (·.desc)))
  && ((m.runningGroups p g).all fun x => (opCgroups (m.allOps p x.num)).all fun c => !all.contains c)
  && all.all fun c => m.dnum (0x5100 + c) 2 != 2

/-- No counter that the group waits on is one that another training group waits on (R284). -/
def Mach.waitsApart (m : Mach) (p g : Nat) : Bool :=
  let mine := m.groupWaits p g
  m.groups.all fun x => x.part != p || x.num == g || x.kind != .training
    || (m.groupWaits p x.num).all fun w => !mine.contains w

/-- Everything for which START completes with BAD_STATE. Every context must be BOUND (R40). -/
def Mach.startOk (m : Mach) (p g : Nat) : Bool :=
  match m.group? p g with
  | none => false
  | some x =>
    let cs := m.ctxsOf p g
    cs.all (fun c => (m.ctx c).st == .bound) && kindsOk x.kind (cs.filterMap m.ctxKind) && m.collsOk p g
    && (x.kind != .training || (m.boundariesOk p g && m.statusOk p g && m.waitsApart p g))

/-! ### The reserve and the journal (R162, R185) -/

def Mach.reserveSize (m : Mach) (p : Nat) : Nat :=
  m.dnum (0x4110 + p) 5 * (partRegion m.mode p .hbm).2 / 100 / 1048576 * 1048576
/-- Can the reserve take the size that reserve_pct gives? -/
def Mach.reserveFits (m : Mach) (p : Nat) : Bool :=
  let n := m.reserveSize p
  let old := m.dnum (0x4110 + p) 0x10
  m.reserveUsed p ≤ n && (n ≤ old || m.topFits p .hbm (n - old))
/-- Bytes of a group's undo journal. -/
def Mach.journalSize (m : Mach) (p g : Nat) : Nat :=
  let ts := dedup (((m.allOps p g).filter fun o => o.kind == .update).flatMap fun o =>
    let k := match m.tensor? p (o.ref 1).handle with | some t => refTile t.desc (o.ref 1) | none => 0
    ((m.opHandles p o).filter fun h => h != (o.ref 0).handle).map fun h =>
      (h, if h = (o.ref 2).handle then (match m.tensor? p h with | some t => refTile t.desc (o.ref 2) | none => 0) else k))
  let bytes (q : Nat × Nat) : Nat := match m.tensor? p q.1 with
    | some t => tileBytes t.desc.fmt (t.geom q.2) t.desc.hotLimit
    | none => 0
  2 * (ts.map bytes).sum + m.dnum (0x4120 + p) 4 * 1048576
/-- The group's journal at the size that R185 gives it, in the partition's LP region: a journal of another size makes way, and the
records that an uncommitted step, a checkpoint or a digest round still needs move to the new one (log entry 74). None where it
can not be allocated. -/
def Mach.placeJournal (m : Mach) (p g : Nat) : Option Mach :=
  match m.group? p g with
  | none => none
  | some x =>
    let n := m.journalSize p g
    if n = x.journalBytes then some m else
    let keep := x.journal.filter fun r => x.uncommitted || r.held
    let (m, old) := keep.foldl (fun (a : Mach × List (JournalRec × Bytes × Bool)) r =>
      let (m, bs, bad) := a.1.collect 4 r.places
      (m, a.2 ++ [(r, bs, bad.isSome)])) (m, [])
    let m := m.updGroup p g fun y => { y with journal := [], journalArea := [] }
    if n < (keep.map JournalRec.size).sum then none
    else (m.areaRoom p .lp none n).map fun a =>
      old.foldl (fun m q => m.journalMove p g q.1 q.2.1 q.2.2)
        (m.updGroup p g fun y => { y with journalArea := a })
/-- Can the group's journal be allocated? -/
def Mach.journalFits (m : Mach) (p g : Nat) : Bool := (m.placeJournal p g).isSome

/-! ### START -/

/-- The entries that count since START. -/
def Mach.clearSinceStart (m : Mach) (p g : Nat) : Mach :=
  let m := ([(0x2030, 0x13), (0x2030, 0x15), (0x2030, 0x17), (0x4100, 0x14), (0x4110, 0x15), (0x4110, 0x17),
    (0x4120, 0x12), (0x4120, 0x13), (0x5040, 0x10), (0x5040, 0x11), (0x5040, 0x12), (0x5040, 0x13), (0x5040, 0x14),
    (0x5040, 0x15), (0x7020, 0x13), (0x7020, 0x14), (0x7030, 0x10), (0x2048, 0x10)] : List (Nat × Nat)).foldl
      (fun m q => m.dset (q.1 + p) q.2 0) m
  let m := m.dset (0x4110 + p) 0x12 (m.reserveUsed p)
  (opCgroups (m.allOps p g)).foldl (fun m c => m.dset (0x5100 + c) 0x10 0) m

/-- The lowest epoch slot that no other started group of the same dies uses (R299). -/
def Mach.freeSlotOf (m : Mach) (p g : Nat) : Nat :=
  let ds := (m.ctxsOf p g).map ctxDie
  let used := (m.groups.filter fun x => x.slotted && x.kind == .training && !(x.part == p && x.num == g)
    && (m.ctxsOf x.part x.num).any fun c => ds.contains (ctxDie c)).map (·.slot)
  ((List.range 16).find? fun k => !used.contains k).getD 0

/-- A training group begins anew, or from a restored checkpoint. -/
def Mach.beginGroup (m : Mach) (p g : Nat) : Mach :=
  match m.group? p g with
  | none => m
  | some x =>
    let floor := m.dnum (0x4110 + p) 4
    let ls := (m.subjectLayers p g).map fun l =>
      let r : LadderRec := if x.rebuild then mapGetD x.ladder l {} else {}
      (l, r)
    let step := if x.rebuild then x.step else x.first
    let m := m.updGroup p g fun x =>
      { x with
        epoch := m.dnum (0x5040 + p) 3, step := step, open_ := false, awaiting := none
        committed := if x.rebuild then x.committed else none, phase := .running, abortCode := 0, pausedBy := 0
        clipped := false, clips := [], fallbacks := 0, ladder := ls, floor := floor, ratios := if x.rebuild then x.ratios else []
        measHist := [], journal := x.journal.filter (·.held), saved := [], statuses := [], acks := [], snaps := []
        buckets := [], tableSeq := [], atStart := [], bars := [], carry := if x.rebuild then x.carry else [], shut := false }
    let m := m.clearRaised p g
    let isStep := m.dnum (0x2030 + p) 1 = g
    let m := if isStep && !x.rebuild then m.dset (0x2030 + p) 0x11 (2 ^ 64 - 1) else m
    let m := (m.resetCounters p g false).tagCounters p g
    let m := m.beginStep p g
    let m := if x.rebuild then m.rebuildCopies p g else m.formatReheats p g
    let m := (m.sealStart p g).updGroup p g fun y => { y with rebuild := false }
    (m.ctxsOf p g).foldl (fun m c => (m.updCtx c fun y =>
      { y with pc := 0, rep := step - x.first, waitOk := false, passed := false, st := .running }).enterRep c) m

/-- Wide tiles left of an earlier run go where a training group's reserve would not fit beside them. -/
def Mach.startRoom (m : Mach) (p : Nat) (x : Group) : Mach :=
  if x.kind == .training && !m.reserveFits p then m.dropStale p else m
/-- START's work on a group whose checks have passed. Bucket and exchange numbers count from 0, but where START repeats a step: there they
return to their values at its start (R233, R328, R332). A changed reserve_pct takes effect here and at RESUME, of a training group
only: no other kind has a reserve (the spec does not say whose; the model's choice, log entry 73). -/
def Mach.startWork (m : Mach) (p g : Nat) (x : Group) : Mach :=
  let train := x.kind == .training
  let m := if train then (m.placeJournal p g).getD m |>.dset (0x4110 + p) 0x10 (m.reserveSize p) else m
  let m := (m.resetCounters p g false).clearSinceStart p g
  let m := m.goCold p
  let cs := m.ctxsOf p g
  let m : Mach := { m with colls := m.colls.filter fun k => !(cs.contains k.ctx && k.stage == 20) }
  let again := train && x.uncommitted
  let m := m.updGroup p g fun y =>
    { y with started := true, slotted := train, slot := m.freeSlotOf p g, buckets := if again then y.buckets else []
             tableSeq := if again then y.tableSeq else [] }
  if train then
    if x.uncommitted then (m.updGroup p g fun y => { y with measHist := [] }).repeatStep p g 4 true else m.beginGroup p g
  else
    let m := m.updGroup p g fun y => { y with step := y.first, encoded := [], repEnc := [], pausedBy := 0 }
    (m.ctxsOf p g).foldl (fun m c => (m.updCtx c fun y =>
      { y with pc := 0, rep := 0, waitOk := false, passed := false, st := .running }).enterRep c) m
/-- START (R40, R50): the status, and the machine after it. -/
def Mach.startGroup (m : Mach) (p g : Nat) : Nat × Mach :=
  if !m.startOk p g then (stBadState, m) else
  match m.group? p g with
  | none => (stBadState, m)
  | some x =>
    let m := m.startRoom p x
    if x.kind == .training && !(m.reserveFits p && m.journalFits p g) then (stNoSpace, m)
    else if m.dnum 0x7010 6 = 2 then (stBusy, m)
    else (stOk, m.startWork p g x)

/-! ### RESUME, PAUSE, STOP -/

/-- A PAUSED context goes on (R40, R41, R291). -/
def Mach.resumeCtx (m : Mach) (c : Nat) : Mach :=
  let x := m.ctx c
  if x.st != .paused then m else
  match x.waitFor with
  | some .counter =>
    let m := m.updCtx c fun x => { x with st := .waiting }
    (m.die (ctxDie c)).sync.waits.foldl (fun m w =>
      if w.2.any (fun q => q.who == .ctx c) then
        let (m, sg) := serveWaits (ctxDie c) w.1 (w.2.length + 1) m
        m.signals sg
      else m) m
  | some .gate => (m.updCtx c fun x => { x with st := .waiting }).enterRep c
  | some _ =>
    let m := m.updCtx c fun x => { x with st := .waiting }
    (m.barsOf c).foldl (fun m r => settleBarrier r 4 m) m
  | none => (m.updCtx c fun x => { x with st := .running }).arm c

/-- RESUME's work on a group whose checks have passed. -/
def Mach.resumeWork (m : Mach) (p g : Nat) (x : Group) : Mach :=
  let cs := m.ctxsOf p g
  let m := if x.kind == .training then m.dset (0x4110 + p) 0x10 (m.reserveSize p) else m
  if x.abortCode ≠ 0 ∧ (x.pausedBy = 2 ∨ x.pausedBy = 3) then
    ((m.placeJournal p g).getD m).repeatStep p g x.pausedBy false
  else
    let m := m.updGroup p g fun y => { y with pausedBy := 0, shut := false }
    (cs.foldl (fun m c => m.resumeCtx c) m).openGate p g
/-- RESUME (R50): the status, and the machine after it. -/
def Mach.resumeGroup (m : Mach) (p g : Nat) : Nat × Mach :=
  match m.group? p g with
  | none => (stBadState, m)
  | some x =>
    let cs := m.ctxsOf p g
    if (cs.any fun c => (m.ctx c).faulty) || x.pausedBy = 16 then (stBadState, m)
    else if cs.all fun c => (m.ctx c).st != .paused then (stOk, m)
    else if x.kind == .training && !m.reserveFits p then (stNoSpace, m)
    else if m.dnum 0x7010 6 = 2 || m.updHeld p g then (stBusy, m)
    else (stOk, m.resumeWork p g x)

/-- Has the PAUSE of a group taken effect: none RUNNING or WAITING? -/
def Mach.groupPaused (m : Mach) (p g : Nat) : Bool :=
  (m.ctxsOf p g).all fun c => (m.ctx c).st != .running && (m.ctx c).st != .waiting
def Mach.groupStopped (m : Mach) (p g : Nat) : Bool := (m.ctxsOf p g).all fun c => (m.ctx c).st == .done
/-- STOP of every stream of a group. -/
def Mach.stopGroup (m : Mach) (p g : Nat) : Mach := (m.ctxsOf p g).foldl (fun m c => m.stopCtx c) m

/-- PAUSE and STOP commands that have been fetched: each begins once no agreement or commit round is under way (R207), and
completes once the operations in flight have. Their `extra` holds the group and 1 once begun. -/
def Mach.pumpGroupCmds (m : Mach) : Mach :=
  (m.link.cmds.filter fun h => h.kind == 0x25 || h.kind == 0x27).foldl (fun m h =>
    let g := h.extra.getD 0 0
    let begun := h.extra.getD 1 0 == 1
    let busy := match m.group? h.part g with | some x => x.inRound | none => false
    if !begun && busy then m else
    let m := if begun then m else
      let m := if h.kind = 0x25 then m.pauseGroup h.part g else m.stopGroup h.part g
      { m with link := { m.link with cmds := m.link.cmds.map fun k =>
          if k.ring == h.ring && k.tag == h.tag && k.kind == h.kind then { k with extra := [g, 1] } else k } }
    if (if h.kind = 0x25 then m.groupPaused h.part g else m.groupStopped h.part g) then m.finishHost h stOk 0 else m) m

/-! ### BIND, UNBIND, GROUP_DESTROY (R38, R50, R277) -/

/-- Contexts free to a group: in mode 1 those of the die of its first one. -/
def Mach.bindable (m : Mach) (p g : Nat) : List Nat :=
  let mine := m.ctxsOf p g
  (List.range 32).filter fun c => ctxOwned m.mode p c && (m.ctx c).st == .free
    && (match mine.head? with | some k => m.mode != 1 || ctxDie k == ctxDie c | none => true)
/-- BIND: the status, the context, the machine. `pick` is the firmware's choice among those free. BAD_STATE for a program or a
group that does not exist, and for a group with a context that is no longer BOUND, is the model's choice (log entry 71). -/
def Mach.bindProg (m : Mach) (p g prog pick : Nat) : Nat × Nat × Mach :=
  match m.progs.find? fun q => q.num == prog with
  | none => (stBadState, 0, m)
  | some q =>
    if q.part ≠ p then (stBounds, 0, m)
    else match m.group? p g with
    | none => (stBadState, 0, m)
    | some _ =>
      if (m.ctxsOf p g).any fun c => (m.ctx c).st != .bound then (stBadState, 0, m)
      else match m.bindable p g with
      | [] => (stNoContext, 0, m)
      | c :: cs =>
        let k := if (c :: cs).contains pick then pick else c
        (stOk, k, m.updCtx k fun _ => { st := .bound, part := p, group := g, prog := prog })

/-- The counters that only the program of context `c` waits on, of those of its group, are tagged no more (R284, R299). -/
def Mach.untagLeaving (m : Mach) (p c : Nat) (x : Group) : Mach :=
  let others := (m.ctxsOf p x.num).filter (· != c)
  let still := others.flatMap fun k => waitsOn m.mode p k (m.opsOf k)
  let gone := (dedup (waitsOn m.mode p c (m.opsOf c))).filter fun w => !still.contains w
  let m := gone.foldl (fun m q =>
    let w := m.reg .sync q.1 0 (ctrOff q.2)
    m.putReg .sync q.1 0 (ctrOff q.2) (setFld (setFld w 14 11 0) 15 15 0)) m
  if others.isEmpty then m.updGroup p x.num fun y => { y with slotted := false } else m
/-- UNBIND: the status and the machine. The epoch slot is free with the group's last context (R299). -/
def Mach.unbindCtx (m : Mach) (p c : Nat) : Nat × Mach :=
  let x := m.ctx c
  if c < 32 ∧ (x.st = .free ∨ x.part = p) ∧ ctxOwned m.mode p c then
    let train := match m.group? p x.group with | some g => g.kind == .training | none => false
    if x.st ≠ .done then (stBadState, m)
    else if train && (m.ctxsOf p x.group).any fun k => (m.ctx k).st != .done then (stBadState, m)
    else
      let m := match m.group? p x.group with | some g => if train && g.slotted then m.untagLeaving p c g else m | none => m
      (stOk, m.updCtx c fun _ => {})
  else (stBounds, m)

/-- GROUP_DESTROY: the last training group's going releases the reserve (R162). -/
def Mach.destroyGroup (m : Mach) (p g : Nat) : Nat × Mach :=
  if (m.group? p g).isNone || !(m.ctxsOf p g).isEmpty then (stBadState, m) else
  let m : Mach := { m with groups := m.groups.filter fun x => !(x.part == p && x.num == g) }
  let m := m.syncLent p
  if m.groups.any fun x => x.part == p && x.kind == .training then (stOk, m)
  else
    let free (t : Tensor) : Tensor :=
      if t.part ≠ p then t else { t with marks := t.marks.map fun q => (q.1, { q.2 with charged := false }) }
    let m := { m with tensors := m.tensors.map free }
    (stOk, m.dset (0x4110 + p) 0x10 0)

/-! ### The end of a repetition (R43, R103) -/

/-- Does a context's program encode the tensor? -/
def Mach.encodes (m : Mach) (c h : Nat) : Bool := (m.opsOf c).any fun o => o.encodes h
/-- The repetitions that a context has ended. -/
def Mach.ended (m : Mach) (c : Nat) : Nat := let y := m.ctx c; if y.st = .done then y.rep + 1 else y.rep
/-- A stream of a group that does not train has ended a repetition. A tensor's history boundary falls when every stream whose
program encodes it has ended the repetition in which it was encoded; an operation of a later one that encodes the tensor waits for
that (`Mach.awaitsBoundary`; R103; DEDUCED for streams that run apart, log entry 72). -/
def Mach.closeReps (m : Mach) (p g : Nat) : Mach :=
  match m.group? p g with
  | none => m
  | some x =>
    if x.kind = .training then m else
    let cs := m.ctxsOf p g
    let ends := cs.map m.ended
    let due := x.repEnc.filter fun q => cs.all fun c => !m.encodes c q.2 || (m.ctx c).st == .done || q.1 < (m.ctx c).rep
    let m := (sortBy id (dedup (due.map (·.1)))).foldl (fun m r =>
      let hs := (due.filter fun q => q.1 == r).map (·.2)
      (m.boundaries p g (x.first + r) hs).turnRaised p hs) m
    m.updGroup p g fun y =>
      { y with step := x.first + ends.foldl min (ends.headD 0), repEnc := y.repEnc.filter fun q => !due.contains q, encoded := [] }

/-- END (R43). -/
def Mach.endOp (m : Mach) (c : Nat) : Mach :=
  match m.issuable c .opEnd with
  | none => m
  | some o =>
    let x := m.ctx c
    match m.group? x.part x.group with
    | none => m
    | some g =>
      if !x.flights.isEmpty then m else
      let m := if o.signalEn then m.ctxSignal c o.signalCtr else m
      let m :=
        if g.rpt ≠ 0 ∧ g.rpt ≤ x.rep + 1 then
          m.updCtx c fun y => { y with st := .done, waitOk := false, waitFor := none }
        else (m.updCtx c fun y => { y with pc := 0, rep := y.rep + 1, waitOk := false, passed := false }).enterRep c
      m.closeReps x.part x.group

/-- SYNC (R43). -/
def Mach.syncOp (m : Mach) (c : Nat) : Mach :=
  match m.issuable c .sync with
  | none => m
  | some o =>
    if !(m.ctx c).flights.isEmpty then m else
    (if o.signalEn then m.ctxSignal c o.signalCtr else m).advance c

/-- BARRIER (R286, R287). -/
def Mach.barrierOp (m : Mach) (c : Nat) : Mach :=
  match m.issuable c .barrier with
  | none => m
  | some o =>
    let r := barRef m.mode (m.ctx c).part (ctxDie c) (fld o.param 8 0)
    if !(m.ctx c).flights.isEmpty || !m.syncOn r.die then m else
    m.arrive r c (fld o.param 21 16) (fld o.param 28 24)

/-! ### Completion -/

/-- Wide tiles that the completed operation read, and that no operation of the step still has to read, leave the reserve's
account (R163). Working copies stay, and so do the tiles of groups that do not train. -/
def Mach.releaseRead (m : Mach) (c : Nat) (o : Op) (outs : List (Nat × Nat)) : Mach :=
  let x := m.ctx c
  let p := x.part
  let wc := (m.workingTiles p x.group).map (·.1)
  let reads (k : Nat) (q : Op) (h t : Nat) : Bool :=
    (m.touches (m.ctx k).part q).any fun w => w.1 == h && (w.2 == none || w.2 == some t)
  let left (h t : Nat) : Bool := (m.ctxsOf p x.group).any fun k =>
    let y := m.ctx k
    let rest := if y.rep < x.rep then m.opsOf k else if y.rep = x.rep then (m.opsOf k).drop y.pc else []
    (rest.any fun q => reads k q h t) || y.flights.any fun f =>
      match (m.opsOf k)[f.op]? with | some q => reads k q h t | none => false
  { m with tensors := m.tensors.map fun t =>
      if t.part ≠ p || !(o.refs.any fun r => r.handle == t.handle) then t else
      (t.marks.filter fun q => q.2.charged && !q.2.apart && !wc.contains (t.handle, q.1) && !outs.contains (t.handle, q.1) && reads c o t.handle q.1
        && !left t.handle q.1).foldl (fun t q => t.setMark q.1 fun y => { y with charged := false }) t }

/-- A withheld operation whose instance has been taken out of service is reissued on another of its kind (R376, R377). -/
def Mach.reissue (m : Mach) (c op : Nat) (f : Flight) : Mach :=
  match f.inst with
  | none => m
  | some i =>
    if m.inService i then m
    else if i.kind = .bench then m.resetBench (benchNum i)
    else match m.standIn (m.ctx c).part i.kind with
      | some j => m.updFlight c op fun x => { x with inst := some j }
      | none => m
/-- A Jacks engine counts the operations that it completes (R383). -/
def Mach.opDone (m : Mach) : Option Inst → Mach
  | some i => if i.kind = .jacks then m.count .jacks i.die i.idx 0x10 1 else m
  | none => m
/-- The instance that an operation in flight completes on: one that a reset has taken its instance from needs another of the kind
(R370, R376). The outer none: there is none. -/
def Mach.endsOn (m : Mach) (c : Nat) (f : Flight) : Option (Option Inst) :=
  match f.inst, ((m.opsOf c)[f.op]?).bind (·.kind.station) with
  | none, some k => if k = .bench then some none else (m.standIn (m.ctx c).part k).map some
  | i, _ => some i
/-- Does an instance withhold its completions: is a configuration register of it wrong, or does its cfg_parity read 1 (R375, R376)? -/
def Mach.withholds (m : Mach) (i : Inst) : Bool :=
  (m.parityBad i.die (slotOf i.kind.blk i.idx)).isSome || m.bit i.kind.blk i.die i.idx 4 3
/-- OP_COMPLETE: an operation in flight that needs nothing from outside completes, unless its instance withholds it (R375, R376). -/
def Mach.opComplete (m : Mach) (c op : Nat) : Mach :=
  match (m.ctx c).flights.find? fun f => f.op == op with
  | none => m
  | some f =>
    if !f.ready || !m.gemmEnds c op || !(f.outs.all fun w => m.tileServed (m.ctx c).part w.1 w.2) then m else
    match m.endsOn c f with
    | none => m
    | some inst =>
      match inst.filter m.withholds with
      | some i => (m.parityFound i.die (slotOf i.kind.blk i.idx)).reissue c op f
      | none =>
        let o := (m.opsOf c)[op]?
        let m := (((m.tookTime inst).opDone inst).gemmLand c op).landFlight c op
        match o with | some q => m.releaseRead c q f.outs | none => m

/-! ### Watchdogs (R294 to R296) -/

/-- The wait watchdog of a context expires. A context held at the gate of R193 is not timed. -/
def Mach.waitWatchdog (m : Mach) (c : Nat) : Mach :=
  let x := m.ctx c
  let timed : Bool := match x.waitFor with | some .counter | some .barrier | some .gateHeld => true | _ => false
  if c < 32 && x.st == .waiting && timed && !x.faulty then
    ((m.dadd (0x5040 + x.part) 0x15 1).count .sync (ctxDie c) 0 0x34 1).faultCtx c x.pc { code := fcWaitWd }
  else m

/-- The group confirms no membership until the host writes it anew (R330, R331). -/
def Mach.cgLost (m : Mach) (cg : Nat) : Mach := if cg < 32 then m.dset (0x5100 + cg) 2 2 else m

/-- The exchange that the watchdog of an operation in flight times: one under way before one that only waits to complete. -/
def Mach.collTimed (m : Mach) (c op : Nat) : Option Coll :=
  let mine (k : Coll) : Bool := k.ctx == c && k.op == op && (m.ctx c).flights.any fun f => f.op == op
  (m.colls.find? fun k => mine k && k.stage != 20).orElse fun _ => m.colls.find? mine

/-- The collective watchdog expires on an operation in flight or on a round of a group. -/
def Mach.collWatchdog (m : Mach) (s : CollSubject) : Mach :=
  match s with
  | .op c op =>
    match m.collTimed c op with
    | none =>
      let moves : Bool := match (m.opsOf c)[op]? with
        | some o => o.kind == .put || o.kind == .get || o.kind == .putSignal
        | none => false
      if moves && (m.ctx c).flights.any fun f => f.op == op && !f.ready then
        (m.dadd (0x5040 + (m.ctx c).part) 0x15 1).flightFault c op { code := fcCollWd }
      else m
    | some k =>
      let x := m.ctx c
      let m : Mach := { m with colls := m.colls.filter fun q => !(q.ctx == c && q.op == op) }
      ((m.dadd (0x5040 + x.part) 0x15 1).cgLost k.cgroup).flightFault c op { code := fcCollWd }
  | .round p g =>
    match m.group? p g, m.boundaryOp p g with
    | some x, some (c, pc, _) =>
      let lost (m : Mach) : Mach := match m.statusCg p g with | some k => m.cgLost k | none => m
      if x.phase = .agreeing then
        let m := lost (m.dadd (0x5040 + p) 0x15 1)
        (m.flightFault c pc { code := fcCollWd }).updGroup p g fun y => { y with phase := .running }
      else if x.awaiting.isSome then
        (lost (m.dadd (0x5040 + p) 0x15 1)).faultCtx c pc { code := fcCollWd }
      else m
    | _, _ => m

end Sys2Proof.Machine
end

