-- ==== Sys2Proof/Machine/Collective.lean ====
section
/-! DEFINITION. Collectives (spec/12, R320 to R329): what crosses each level, the folds, the sum checks, the reserved
engines; and the sharded exchanges of Gather (spec/09, R231 to R239). Both run as exchanges of chunks that receivers match
by group, epoch, bucket, level, chunk and sender. -/

namespace Sys2Proof.Machine

/-! ### The shape of a group (R320) -/

/-- The size of level 1, 2 or 3, and a rank's position at it. -/
def cgSize (r : Bytes) (lvl : Nat) : Nat := leAt r (if lvl = 1 then 1 else if lvl = 2 then 4 else 6) (if lvl = 1 then 1 else 2)
def cgPos (r : Bytes) (lvl q : Nat) : Nat :=
  let g1 := cgSize r 1
  let g2 := cgSize r 2
  if lvl = 1 then q % g1 else if lvl = 2 then q / g1 % g2 else q / (g1 * g2)
/-- The rank whose position at a level is `k`, and otherwise that of `q`. -/
def cgMove (r : Bytes) (lvl q k : Nat) : Nat :=
  let s := if lvl = 1 then 1 else if lvl = 2 then cgSize r 1 else cgSize r 1 * cgSize r 2
  q - cgPos r lvl q * s + k * s
/-- Levels of size above 1, ascending. -/
def cgLevels (r : Bytes) : List Nat := [1, 2, 3].filter fun l => 1 < cgSize r l
/-- Does the member `o` own, at a level, what ends at rank `q`? -/
def cgOwns (r : Bytes) (lvl o q : Nat) : Bool := [1, 2, 3].all fun l => lvl < l || cgPos r l o == cgPos r l q

def Mach.cg (m : Mach) (g : Nat) : CGroup := mapGetD m.cgroups g {}
def Mach.updCg (m : Mach) (g : Nat) (f : CGroup → CGroup) : Mach :=
  let v := f (m.cg g)
  { m with cgroups := if v = {} then mapDel m.cgroups g else mapSet m.cgroups g v }
/-- The Pontil instance that serves a logical engine of a partition. -/
def Mach.pontilOf (m : Mach) (p e : Nat) : Inst :=
  let is := ((List.range 4).map (instOf .pontil)).filter (instOwned m.mode p)
  (is.find? fun i => m.bit .pontil i.die i.idx 0 0 && bitAt (m.reg .pontil i.die i.idx 8) (2 + e)).getD
    (is.headD ⟨.pontil, 0, 0⟩)

/-! ### Chunks (R327) -/

/-- Runs of consecutive tiles of at most `limit` bytes, each of at least one tile. -/
def chunkRuns (limit : Nat) (xs : List (Nat × Nat)) : List (List Nat) :=
  (xs.foldl (fun (a : List (List Nat) × Nat) x =>
    match a.1 with
    | [] => ([[x.1]], x.2)
    | c :: cs => if a.2 + x.2 ≤ limit then ((x.1 :: c) :: cs, a.2 + x.2) else ([x.1] :: c :: cs, x.2)) ([], 0)).1.reverse.map
      List.reverse
/-- The input tiles that rank `q` reduces in the end (R321). -/
def shareOf (t n q : Nat) : List Nat :=
  let c := ceilDiv t n
  (List.range (min c (t - q * c))).map fun j => q * c + j
/-- Bytes of a tile in its descriptor's own form. -/
def Tensor.plainLen (t : Tensor) (k : Nat) : Nat := tileBytes t.desc.fmt (t.geom k) t.desc.hotLimit

/-- The key under which a collective holds something: 0 inputs, 1 to 3 level inputs, 4 results; with pair and tile. -/
def holdKey (what pair tile : Nat) : Nat := what * 2 ^ 72 + pair * 2 ^ 64 + tile
def Coll.at (k : Coll) (what pair tile : Nat) : Bytes := mapGetD k.held (holdKey what pair tile) []

/-- The chunks that member `o` receives at a level of a reduction: the pair and its tiles. -/
def Mach.foldUnits (m : Mach) (p : Nat) (k : Coll) (lvl o : Nat) : List (Nat × List Nat) :=
  let r := m.cgRec k.cgroup
  let n := leAt r 2 2
  let first := (cgLevels r).head? == some lvl
  (k.pairs.zipIdx).flatMap fun q =>
    match m.tensor? p q.1.1 with
    | none => []
    | some t =>
      let size (x : Nat) : Nat := if first then t.plainLen x else 2 * (t.geom x).n
      ((List.range n).filter (cgOwns r lvl o)).flatMap fun e =>
        (chunkRuns (leAt r 16 4 * 1024) ((shareOf t.desc.tileCount n e).map fun x => (x, size x))).map fun u => (q.2, u)
/-- Tiles moved by a kind that copies, from rank `s` to rank `d`: source and destination tile (R321). -/
def moveTiles (kind n root s d t tout : Nat) : List (Nat × Nat) :=
  match kind with
  | 0 => (shareOf t n s).map fun x => (x, x)
  | 2 => let c := ceilDiv t n
         ((List.range (min c (tout - s * c))).filter fun j => j < t).map fun j => (j, s * c + j)
  | 3 => (List.range (t / n)).map fun j => (d * (t / n) + j, s * (t / n) + j)
  | _ => if s = root then (List.range t).map fun j => (j, j) else []
/-- The chunks of a copying phase from `s` to `d`: the pair, and source and destination tiles. In an all-reduce the
reduced tiles are gathered, in the output format (R323). -/
def Mach.moveUnits (m : Mach) (p : Nat) (k : Coll) (s d : Nat) : List (Nat × List (Nat × Nat)) :=
  let r := m.cgRec k.cgroup
  (k.pairs.zipIdx).flatMap fun q =>
    match m.tensor? p q.1.1, m.tensor? p q.1.2 with
    | some t, some u =>
      let mv := moveTiles k.kind (leAt r 2 2) k.root s d t.desc.tileCount u.desc.tileCount
      let size (x : Nat × Nat) : Nat := if k.kind = 0 then u.plainLen x.2 else t.plainLen x.1
      let runs := chunkRuns (leAt r 16 4 * 1024) (mv.zipIdx.map fun x => (x.2, size x.1))
      runs.map fun u => (q.2, u.filterMap fun i => mv[i]?)
    | _, _ => []

/-- The level and first chunk index of a copying phase (log entry 16): level 3 from 2^31 behind an all-reduce, else
level 1 from 0. -/
def moveLevel (kind : Nat) : Nat × Nat := if kind = 0 then (3, 2 ^ 31) else (1, 0)

/-! ### Values -/

/-- A tile's contribution to a level as FP32 values, by linear position: the input decoded, or the BF16 partial. -/
def Mach.levelWords (m : Mach) (p : Nat) (k : Coll) (first : Bool) (pair tile : Nat) (bs : Bytes) : List Word :=
  match m.tensor? p (k.pairs.getD pair (0, 0)).1 with
  | none => []
  | some t =>
    let g := t.geom tile
    if first then (g.all.map (t.values tile bs))
    else (List.range g.n).map fun i => ofBf16 (BitVec.ofNat 16 (leAt bs (2 * i) 2))
/-- The sum check of a chunk (R325): over its values in tile order and linear position. -/
def sumCheck (tiles : List (List Word)) : Word := laneSum (tiles.flatten.zipIdx.map fun q => (q.2, q.1))

/-- Part a chunk's bytes among its tiles: a block record says its own form. -/
def Mach.splitLevel (m : Mach) (p : Nat) (k : Coll) (first : Bool) (pair : Nat) : List Nat → Bytes → List (Nat × Bytes)
  | [], _ => []
  | x :: xs, bs =>
    let n := match m.tensor? p (k.pairs.getD pair (0, 0)).1 with
      | none => 0
      | some t =>
        if !first then 2 * (t.geom x).n
        else if t.desc.fmt.isBlock then tileBytes (recFmt t.forms t.desc.fmt bs) (t.geom x) t.desc.hotLimit
        else t.plainLen x
    (x, subBytes bs 0 n) :: m.splitLevel p k first pair xs (bs.drop n)
/-- The same for a copying phase, by destination tile. -/
def Mach.splitMove (m : Mach) (p : Nat) (k : Coll) (pair : Nat) : List (Nat × Nat) → Bytes → List (Nat × Bytes)
  | [], _ => []
  | x :: xs, bs =>
    let pr := k.pairs.getD pair (0, 0)
    let n := match m.tensor? p pr.1, m.tensor? p pr.2 with
      | some t, some u =>
        if k.kind = 0 then u.plainLen x.2
        else if t.desc.fmt.isBlock then tileBytes (recFmt t.forms t.desc.fmt bs) (t.geom x.1) t.desc.hotLimit
        else t.plainLen x.1
      | _, _ => 0
    (x.2, subBytes bs 0 n) :: m.splitMove p k pair xs (bs.drop n)

/-! ### Sending -/

/-- Send one chunk to a member, in packets of at most 2,048 bytes; the last carries the sum check. -/
def Mach.sendChunk (m : Mach) (p : Nat) (k : Coll) (dest lvl idx : Nat) (sum : Word) (elts : Nat) (data : Bytes) : Mach :=
  let r := m.cgRec k.cgroup
  match (cgMembers r)[dest]? with
  | none => m
  | some (dm, dp) =>
    let ps := if data.isEmpty then [[]] else pieces 2048 (ceilDiv data.length 2048) data
    let i := m.pontilOf p 0
    let m := (m.count .pontil i.die i.idx 0x18 1).dadd (0x5100 + k.cgroup) 0x13 data.length
    ps.zipIdx.foldl (fun m x =>
      let last := x.2 + 1 == ps.length
      let ext : ExtHdr :=
        { defTag := defTag r, generation := leAt r 10 2, cgroup := k.cgroup, level := lvl
          bucket := BitVec.ofNat 64 k.bucket, chunk := idx, sender := cgRank r
          sumcheck := if last then sum else 0, elements := if last then elts else 0, resv := false }
      m.send p 0 (32 + k.cgroup) dm dp ptColl ((if x.2 = 0 then 16 else 0) + (if last then 32 else 0)) 0 (2048 * x.2)
        (BitVec.ofNat 32 k.epoch) (some ext) x.1 none) m
/-- Send one chunk of a reduction (R322, R325). -/
def Mach.sendUnit (m : Mach) (p : Nat) (k : Coll) (lvl dest idx : Nat) (u : Nat × List Nat) : Mach :=
  let first := (cgLevels (m.cgRec k.cgroup)).head? == some lvl
  let what := if first then 0 else lvl
  let ws := u.2.map fun x => m.levelWords p k first u.1 x (k.at what u.1 x)
  m.sendChunk p k dest lvl idx (sumCheck ws) ws.flatten.length (u.2.flatMap fun x => k.at what u.1 x)
/-- What a chunk carries: contributions to a fold, or tiles that are copied. -/
inductive ChunkUnit where
  | fold (u : Nat × List Nat)
  | move (u : Nat × List (Nat × Nat))
  deriving DecidableEq, Repr
/-- A chunk that a collective sends to a member: its level, its index, what it carries. -/
structure OutChunk where
  lvl  : Nat
  idx  : Nat
  unit : ChunkUnit
  deriving DecidableEq, Repr
def Coll.has (k : Coll) (what pair tile : Nat) : Bool := (mapGet k.held (holdKey what pair tile)).isSome
/-- The chunks that a collective sends to rank `d`, in ascending index: those of the level at which the two exchange contributions, then
those that are copied (R322, R323). -/
def Mach.chunksTo (m : Mach) (p : Nat) (k : Coll) (d : Nat) : List OutChunk :=
  let r := m.cgRec k.cgroup
  let me := cgRank r
  if d = me then [] else
  (if 1 < k.kind then [] else ((cgLevels r).filter fun l => cgMove r l me (cgPos r l d) == d).flatMap fun l =>
    ((m.foldUnits p k l d).zipIdx).map fun u => ⟨l, u.2, .fold u.1⟩)
  ++ (if k.kind = 1 then [] else ((m.moveUnits p k me d).zipIdx).map fun u =>
    ⟨(moveLevel k.kind).1, (moveLevel k.kind).2 + u.2, .move u.1⟩)
/-- Is what a chunk carries there: a level's input once the level below has finished its tiles, a reduced tile once it is final (R327)? -/
def Mach.chunkReady (m : Mach) (k : Coll) (c : OutChunk) : Bool :=
  match c.unit with
  | .fold u => (cgLevels (m.cgRec k.cgroup)).head? == some c.lvl || u.2.all fun x => k.has c.lvl u.1 x
  | .move u => k.kind != 0 || u.2.all fun x => k.has 4 u.1 x.2
/-- The chunks of a collective's level on their way to a member: sent and not yet acknowledged (log entry 16). -/
def Mach.chunksFlying (m : Mach) (k : Coll) (lvl d : Nat) : Nat :=
  match (cgMembers (m.cgRec k.cgroup))[d]? with
  | none => 0
  | some (dm, dp) =>
    (dedup ((m.tx.filter fun f => f.module == dm && f.dpart == dp).flatMap fun f => f.unacked.filterMap fun pk =>
      pk.ext.bind fun e => if pk.typ == ptColl && e.cgroup == k.cgroup && e.bucket.toNat == k.bucket && e.level == lvl
        then some e.chunk else none)).length
/-- Send a chunk, and note that it has left. -/
def Mach.sendOut (m : Mach) (p : Nat) (k : Coll) (d : Nat) (c : OutChunk) : Mach :=
  let m := match c.unit with
    | .fold u => m.sendUnit p k c.lvl d c.idx u
    | .move u => m.sendChunk p k d c.lvl c.idx 0 0 (u.2.flatMap fun (x : Nat × Nat) => if k.kind = 0 then k.at 4 u.1 x.2 else k.at 0 u.1 x.1)
  { m with colls := m.colls.map fun (q : Coll) =>
      if q.ctx == k.ctx && q.op == k.op && q.bucket == k.bucket then { q with sent := q.sent ++ [(c.lvl, d, c.idx)] } else q }
/-- Has every chunk of a collective left? -/
def Mach.allSent (m : Mach) (p : Nat) (k : Coll) : Bool :=
  (List.range (leAt (m.cgRec k.cgroup) 2 2)).all fun d =>
    (m.chunksTo p k d).all fun c => k.sent.contains (c.lvl, d, c.idx)
/-- The chunk of a group that leaves next on the way to a member: the lowest in (bucket, chunk) order that has not (R329). -/
def Mach.nextOut (m : Mach) (p cg d : Nat) : Option (Coll × OutChunk) :=
  (sortBy (·.bucket) (m.colls.filter fun (k : Coll) => k.cgroup == cg && decide (k.stage ≤ 5))).findSome? fun k =>
    ((m.chunksTo p k d).find? fun c => !k.sent.contains (c.lvl, d, c.idx)).map fun c => (k, c)
/-- Send a member what is due to it, while at most 4 chunks of a level are on their way (R327); `fuel` bounds the chunks. -/
def sendTo (p cg d : Nat) : Nat → Mach → Mach
  | 0, m => m
  | fuel + 1, m =>
    match m.nextOut p cg d with
    | none => m
    | some (k, c) =>
      if m.chunkReady k c && decide (m.chunksFlying k c.lvl d < 4) then sendTo p cg d fuel (m.sendOut p k d c) else m
/-- Send what is due of a collective group. -/
def Mach.sendGroup (m : Mach) (p cg : Nat) : Mach :=
  (List.range (leAt (m.cgRec cg) 2 2)).foldl (fun m d => sendTo p cg d (16 * (m.colls.length + 1)) m) m

/-! ### Receiving -/

/-- Is a held chunk the one meant? -/
def ChunkRx.isFor (c : ChunkRx) (k : Coll) (lvl idx s : Nat) : Bool :=
  c.bucket == k.bucket && c.epoch == k.epoch && c.level == lvl && c.chunk == idx && c.sender == s
def Mach.chunkOf (m : Mach) (k : Coll) (lvl idx s : Nat) : Option ChunkRx :=
  ((m.cg k.cgroup).chunks.find? fun c => c.isFor k lvl idx s && c.done)
/-- A chunk's bytes. -/
def ChunkRx.bytes (c : ChunkRx) : Bytes := (sortBy (·.1) c.parts).flatMap (·.2)

/-- Check the sum of a received chunk (R325): on a mismatch ask once more; a second one is used and marks the step. -/
def Mach.verify (m : Mach) (p : Nat) (k : Coll) (lvl idx s : Nat) (u : Nat × List Nat) : Mach :=
  match m.chunkOf k lvl idx s with
  | none => m
  | some c =>
    if c.good then m else
    let first := (cgLevels (m.cgRec k.cgroup)).head? == some lvl
    let ws := (m.splitLevel p k first u.1 u.2 c.bytes).map fun x => m.levelWords p k first u.1 x.1 x.2
    let set (m : Mach) (f : ChunkRx → ChunkRx) : Mach := m.updCg k.cgroup fun g =>
      { g with chunks := g.chunks.map fun c => if c.isFor k lvl idx s then f c else c }
    if sumCheck ws = c.sum ∧ ws.flatten.length = c.elements then set m fun c => { c with good := true }
    else
      let i := m.pontilOf p 0
      let m := (m.count .pontil i.die i.idx 0x24 1).setBit .pontil i.die i.idx 4 5
      if !c.resent then
        let m := set m fun c => { c with resent := true, done := false, parts := [] }
        m.noticeTo k.cgroup s nkResend k.bucket idx (BitVec.ofNat 32 k.epoch)
          (toLe 1 lvl ++ zeroBytes 1 ++ toLe 2 s ++ zeroBytes 12)
      else
        let m := (set m fun c => { c with good := true }).dadd (0x5100 + k.cgroup) 0x11 1
        let m := m.fwEvent evSumcheckFail i.die (slotOf .pontil i.idx) (some p)
          (toLe 2 k.cgroup ++ toLe 2 s ++ toLe 4 idx ++ toLe 8 k.bucket)
        m.updGroup p (m.ctx k.ctx).group fun x => { x with suspect := 1 }

/-! ### Folding (R322) -/

/-- The operator of a reduction. -/
def collFold (rop : Nat) : Word → Word → Word := if rop = 0 then fpAdd else if rop = 1 then fpMax else fpMin
/-- Left fold of the members' values, element by element; with the NaNs it made. -/
def foldWords (rop : Nat) (xs : List (List Word)) : List Word × Nat :=
  match xs with
  | [] => ([], 0)
  | x :: r => r.foldl (fun a y =>
      let z := List.zipWith (collFold rop) a.1 y
      (z, a.2 + (z.zip (a.1.zip y)).countP fun q => isNan q.1 && !isNan q.2.1 && !isNan q.2.2)) (x, 0)
/-- What the members bring to a chunk at its owner, tile by tile, in ring order from the position behind it. -/
def Mach.foldInputs (m : Mach) (p : Nat) (k : Coll) (lvl idx : Nat) (u : Nat × List Nat) : List (List (List Word)) :=
  let r := m.cgRec k.cgroup
  let me := cgRank r
  let first := (cgLevels r).head? == some lvl
  let g := cgSize r lvl
  let ring := (List.range g).map fun j => (cgPos r lvl me + 1 + j) % g
  ring.map fun pos =>
    let s := cgMove r lvl me pos
    if s = me then u.2.map fun x => m.levelWords p k first u.1 x (k.at (if first then 0 else lvl) u.1 x)
    else match m.chunkOf k lvl idx s with
      | some c => (m.splitLevel p k first u.1 u.2 c.bytes).map fun x => m.levelWords p k first u.1 x.1 x.2
      | none => []
/-- Fold one chunk: its tiles with their values, and the NaNs made. -/
def Mach.foldUnit (m : Mach) (p : Nat) (k : Coll) (lvl idx : Nat) (u : Nat × List Nat) : List (Nat × List Word) × Nat :=
  let got := m.foldInputs p k lvl idx u
  let out := u.2.zipIdx.map fun x => (x.1, foldWords k.rop (got.map fun ws => ws.getD x.2 []))
  (out.map fun x => (x.1, x.2.1), (out.map fun x => x.2.2).sum)

def Mach.updColl (m : Mach) (k : Coll) : Mach :=
  { m with colls := m.colls.map fun (q : Coll) => if q.ctx == k.ctx && q.op == k.op && q.bucket == k.bucket then k else q }
/-- A collective or sharded exchange faults. -/
def Mach.collFault (m : Mach) (k : Coll) (f : FaultInfo) : Mach :=
  ({ m with colls := m.colls.filter fun q => !(q.ctx == k.ctx && q.op == k.op && q.bucket == k.bucket) }).flightFault
    k.ctx k.op f

/-! ### The fold check (R352) -/

/-- Does the check of a fold of `g` members' inputs pass? A fold in which a value that is not finite takes part passes (the model's
choice, log entry 76). -/
def foldPass (g : Nat) (inputs out : List Word) : Bool :=
  match wideSum (inputs.map wide), wideSum (out.map wide), wideAbs (inputs.map wide) with
  | some x, some y, some a =>
    decide (((x - y).natAbs : Int) * 2 ^ 24 ≤ (g - 1 : Nat) * a + (g - 1 : Nat) * out.length * 2 ^ (1024 - 149 + 24))
  | _, _, _ => true
/-- A run of a fold as a fault makes it: the values, and the verdict of the check. -/
def Coll.foldRun (k : Coll) (g lvl idx run : Nat) (inputs good : List Word) : List Word × Bool :=
  match k.faults.find? fun f => f.level == lvl && f.chunk == idx && f.run == run with
  | none => (good, foldPass g inputs good)
  | some f =>
    let out := good.zipIdx.map fun q => match f.values.find? fun e => e.1 == q.2 with | some e => e.2 | none => q.1
    (out, foldPass g inputs out != f.checker)
/-- The value that runs of a fold settle on, as R342 has it: one run that passes; the second of two, where it passes, and the first is
the same; else a value of two runs, one of which passes. -/
def foldVote : List (List Word × Bool) → Option (List Word)
  | [] => none
  | [x] => if x.2 then some x.1 else none
  | [_, y] => if y.2 then some y.1 else none
  | rs => (rs.find? fun x => 2 ≤ (rs.countP fun y => y.1 == x.1) && rs.any fun y => y.1 == x.1 && y.2).map (·.1)
/-- Run a fold until a value qualifies, at most `fuel` more runs. -/
def Coll.foldRuns (k : Coll) (g lvl idx : Nat) (inputs good : List Word) : Nat → List (List Word × Bool) →
    List (List Word × Bool)
  | 0, rs => rs
  | fuel + 1, rs =>
    if (foldVote rs).isSome then rs
    else k.foldRuns g lvl idx inputs good fuel (rs ++ [k.foldRun g lvl idx rs.length inputs good])
/-- Cut values into lists of given lengths. -/
def cutWords : List Nat → List Word → List (List Word)
  | [], _ => []
  | n :: ns, ws => ws.take n :: cutWords ns (ws.drop n)
/-- The engine of a run of a fold: the reserved ones in turn, then others of the partition (log entry 78). -/
def Mach.foldEngine (m : Mach) (p : Nat) (k : Coll) (run : Nat) : Inst :=
  let others := ((List.range 32).map (instOf .jacks)).filter fun i =>
    instOwned m.mode p i && m.inService i && !k.jacks.contains i
  let is := k.jacks ++ others
  is.getD (run % max 1 is.length) ⟨.jacks, 0, 0⟩
/-- The records that an engine decodes for a fold at the first level: the malformed ones are noted (R74, R322). -/
def Mach.checkFold (m : Mach) (p : Nat) (k : Coll) (lvl idx : Nat) (u : Nat × List Nat) : Mach :=
  let r := m.cgRec k.cgroup
  let me := cgRank r
  match m.tensor? p (k.pairs.getD u.1 (0, 0)).1 with
  | none => m
  | some t =>
    if (cgLevels r).head? != some lvl || !t.desc.fmt.isBlock then m else
    let i := m.foldEngine p k 0
    ((List.range (cgSize r lvl)).map (cgMove r lvl me)).foldl (fun m s =>
      let recs := if s = me then u.2.map fun x => (x, k.at 0 u.1 x)
        else match m.chunkOf k lvl idx s with | some c => m.splitLevel p k true u.1 u.2 c.bytes | none => []
      recs.foldl (fun m x => m.checkRec .jacks i.die i.idx t x.1 x.2) m) m
/-- Fold a chunk and check it (R352): the machine, with the failure counted and the strikes charged; the tiles with their values; the
NaNs made. None: no value qualified. -/
def Mach.foldChunk (m : Mach) (p : Nat) (k : Coll) (lvl idx : Nat) (u : Nat × List Nat) :
    Mach × Option (List (Nat × List Word) × Nat) :=
  let m := m.checkFold p k lvl idx u
  let (out, nans) := m.foldUnit p k lvl idx u
  if k.rop ≠ 0 then (m, some (out, nans)) else
  let g := cgSize (m.cgRec k.cgroup) lvl
  let inputs := (m.foldInputs p k lvl idx u).flatten.flatten
  let good := (out.map (·.2)).flatten
  let rs := k.foldRuns g lvl idx inputs good (max 3 (m.dnum 0x7001 3)) []
  let first := m.foldEngine p k 0
  let m := (List.range rs.length).foldl (fun m n =>
    if (rs.getD n ([], true)).2 then m else
    let i := m.foldEngine p k n
    m.count .jacks i.die i.idx 0x18 1) m
  let h := m.opHandle k.ctx k.op
  let blame (m : Mach) (cause : Nat) (bad : List Word × Bool → Bool) : Mach :=
    (rs.zipIdx.filter fun q => bad q.1).foldl (fun m q =>
      m.charge (instIdent (m.foldEngine p k q.2) false) cause (m.ctxStep k.ctx) h) m
  match foldVote rs with
  | some v =>
    let m := if rs.length ≤ 1 then m else blame m 7 fun r => r.1 != v || r.2 != (r.1 == v)
    (m, some ((out.map (·.1)).zip (cutWords (out.map fun x => x.2.length) v), nans))
  | none =>
    let m := (blame m 8 fun _ => true).dadd 0x7001 0x13 1
    (m.fwEvent evStrainUnresolved first.die (slotOf .jacks first.idx) (some p)
      (toLe 2 (instIdent first false) ++ toLe 1 k.ctx ++ zeroBytes 1 ++ toLe 4 k.op ++ toLe 8 (m.ctxStep k.ctx)), none)

/-- The output tile in its format (R76) from a reduction's values. -/
def Mach.outTile (m : Mach) (p h tile : Nat) (ws : List Word) : Bytes :=
  match m.tensor? p h with
  | none => []
  | some t =>
    let a := ws.toArray
    let g := t.geom tile
    t.writeFloat tile (m.rawTile p h tile) false fun x => a.getD (g.pos x) 0

/-- The collective is over: what it wrote, and its chunks. Its engines stay reserved until it completes (R324). Its record stays for chunks to be sent again (R325): a
reduce-scatter's until its step has committed or its group starts again; another's until the group's next one has finished, for a
member that has every result has been sent no RESEND for it. -/
def Mach.collFinish (m : Mach) (k : Coll) (ws : List TileWrite) : Mach :=
  let m : Mach := { m with
    colls := (m.colls.filter fun (q : Coll) => !(q.cgroup == k.cgroup && q.stage == 20 && q.kind != 1)).map fun (q : Coll) =>
      if q.ctx == k.ctx && q.op == k.op && q.bucket == k.bucket then
        { k with stage := 20, held := k.held.filter fun h => h.1 / 2 ^ 72 == 2 || h.1 / 2 ^ 72 == 3 }
      else q }
  let m := m.updCg k.cgroup fun g => { g with chunks := g.chunks.filter fun c => !(c.bucket == k.bucket && c.epoch == k.epoch) }
  let m := if k.bucket < 2 ^ 63 then m.dadd (0x5100 + k.cgroup) 0x10 1 else m
  m.updCtx k.ctx fun x => { x with flights := x.flights.map fun (f : Flight) =>
    if f.op = k.op then { f with writes := ws, ready := true } else f }

/-- The results of a reduce-scatter, written to the output tiles from 0 on (R321). -/
def Mach.scatterWrites (m : Mach) (p : Nat) (k : Coll) : List TileWrite :=
  let r := m.cgRec k.cgroup
  (k.pairs.zipIdx).flatMap fun q =>
    match m.tensor? p q.1.1 with
    | none => []
    | some t => ((shareOf t.desc.tileCount (leAt r 2 2) (cgRank r)).zipIdx).map fun x =>
        ⟨q.1.2, x.2, m.outTile p q.1.2 x.2 (wordsOfBytes (k.at 5 q.2 x.1)), false⟩
/-- Hold what a level gives for tiles (pair, tile, values): the input of the next level in BF16, or the result, which an all-reduce holds
in its output format too (R322, R323). -/
def Mach.holdLevel (m : Mach) (p : Nat) (k : Coll) (after : Nat) (out : List (Nat × Nat × List Word)) : Coll :=
  match (cgLevels (m.cgRec k.cgroup)).find? fun l => after < l with
  | some l => { k with held := out.foldl (fun h x =>
      mapSet h (holdKey l x.1 x.2.1) (x.2.2.flatMap fun w => toLe 2 (toBf16 w).toNat)) k.held }
  | none => { k with held := out.foldl (fun h x =>
      let h := mapSet h (holdKey 5 x.1 x.2.1) (bytesOfWords x.2.2)
      if k.kind = 0 then mapSet h (holdKey 4 x.1 x.2.1) (m.outTile p (k.pairs.getD x.1 (0, 0)).2 x.2.1 x.2.2) else h) k.held }

/-- Engines free to a collective of a group. -/
def Mach.freeJacks (m : Mach) (p : Nat) : List Inst :=
  ((List.range 32).map (instOf .jacks)).filter fun i => m.instReady p i && m.instPart i == p
/-- Reserve the engines of a collective that waits for them, if enough are free and no earlier bucket of the group waits
(R324). -/
def Mach.jacksReserve (m : Mach) (p : Nat) (k : Coll) : Mach :=
  let want := leAt (m.cgRec k.cgroup) 13 1
  let free := m.freeJacks p
  if free.length < want || m.colls.any fun q => q.cgroup == k.cgroup && q.stage == 0 && q.bucket < k.bucket then m
  else
    -- with no level above size 1 the input itself is the result
    let out := if (cgLevels (m.cgRec k.cgroup)).isEmpty then
        (k.pairs.zipIdx).flatMap fun q => match m.tensor? p q.1.1 with
          | none => []
          | some t => (List.range t.desc.tileCount).map fun x => (q.2, x, m.levelWords p k true q.2 x (k.at 0 q.2 x))
      else []
    m.updColl { m.holdLevel p k 0 out with stage := 1, jacks := free.take want }

/-! ### Sharded exchanges (R233 to R239) -/

/-- The table-map record that makes an operation of Gather a sharded one (R233): its number and content. -/
def Mach.shardRec (m : Mach) (p : Nat) (o : Op) : Option (Nat × TableMap) :=
  ((List.range 32).map fun r => (r, m.tableMap p r)).find? fun q =>
    match o.kind with
    | .bagSum | .bagMean | .bagMax => q.2.table != 0 && q.2.table == (o.ref 0).handle
    | .gradMerge => q.2.table != 0 && q.2.merge == (o.ref 3).handle
    | _ => false
def u64s (xs : List Nat) : Bytes := xs.flatMap (toLe 8)
def ofU64s (bs : Bytes) : List Nat := (List.range (bs.length / 8)).map fun i => leAt bs (8 * i) 8
/-- Cut concatenated row packets of a table's format (R235). -/
def cutPackets (f : Fmt) (nb : Nat) : Nat → Bytes → List Bytes
  | 0, _ => []
  | n + 1, bs => let l := rowPacketLen f nb bs; subBytes bs 0 l :: cutPackets f nb n (bs.drop l)
/-- The packets of rows of the own shard, or where one cannot be read. -/
def Mach.ownRows (m : Mach) (i : Inst) (p h : Nat) : List Nat → Mach × Bytes × Option FaultInfo
  | [] => (m, [], none)
  | r :: rs =>
    match m.tensor? p h with
    | none => (m, [], some { code := fcInternal, handle := h })
    | some t =>
      if t.desc.ext.d1 ≤ r then (m, [], some { code := fcIndex, handle := h })
      else
        let (m, pkt, bad) := m.readRow i p h r
        match bad with
        | some f => (m, [], some f)
        | none => let (m, more, f) := m.ownRows i p h rs; (m, pkt ++ more, f)
/-- Read rows of the own shard for packets, the malformed records among their tiles noted. -/
def Mach.serveRows (m : Mach) (i : Inst) (p h : Nat) (rows : List Nat) : Mach × Bytes × Option FaultInfo :=
  (m.checkRows i p h rows).ownRows i p h rows

/-- The operation and station of a sharded exchange. -/
def Mach.collOpOf (m : Mach) (k : Coll) : Option (Op × Inst) :=
  match (m.opsOf k.ctx)[k.op]?, (m.ctx k.ctx).flights.find? fun f => f.op == k.op with
  | some o, some f => (f.inst.orElse fun _ => m.standIn (m.ctx k.ctx).part .gather).map fun i => (o, i)
  | _, _ => none
/-- Does an instance take no new work: it is draining or disabled? -/
def Mach.leaving (m : Mach) (i : Inst) : Bool := !m.bit i.kind.blk i.die i.idx 0 0 || m.bit i.kind.blk i.die i.idx 0 1
/-- What is left of a sharded operation on an instance that drains goes to another Gather instance of the partition, one that has
least to do first; with none the work waits (R245, R268). -/
def Mach.moveSharded (m : Mach) (p : Nat) (k : Coll) : Mach × Bool :=
  match m.collOpOf k with
  | none => (m, false)
  | some (_, i) =>
    if !m.leaving i then (m, true) else
    let takes := ((List.range 8).map (instOf .gather)).filter fun j =>
      instOwned m.mode p j && m.inService j && !m.leaving j && m.instPart j == p
    match (takes.find? fun j => !m.instActive j).orElse fun _ => takes.head? with
    | some j => (m.updFlight k.ctx k.op fun f => { f with inst := some j }, true)
    | none => (m, false)
/-- A reserved engine that drains gives its place to another that is free; a collective that a reset has left without engines takes
as many as it wants again (R268, R324; JACKS_CTRL.drain). -/
def Mach.moveFolds (m : Mach) (p : Nat) (k : Coll) : Coll :=
  let out := k.jacks.filter m.leaving
  let free := ((List.range 32).map (instOf .jacks)).filter fun i =>
    m.instReady p i && m.instPart i == p && !m.leaving i
  let want := leAt (m.cgRec k.cgroup) 13 1
  { k with jacks := if k.jacks.isEmpty then free.take want else
      (k.jacks.filter fun i => !m.leaving i) ++ free.take out.length ++ out.drop (min out.length free.length) }

/-- The place of a table among those of its collective group, by N, seed, S and handle: with it every member names the table of an
exchange (R233, log entry 77). -/
def Mach.tablePlace (m : Mach) (p : Nat) (t : TableMap) : Nat :=
  let key (x : TableMap) : Nat := ((x.rows * 2 ^ 64 + x.seed) * 2 ^ 16 + x.shards) * 2 ^ 20 + x.table
  ((List.range 32).map (m.tableMap p)).countP fun x => x.table != 0 && x.cgroup == t.cgroup && decide (key x < key t)

/-- One round of a sharded lookup: answer request lists that have come, take the packets that have, and pool once every row is
there. -/
def Mach.lookupStep (m : Mach) (p : Nat) (k : Coll) : Mach × Bool :=
  let r := m.cgRec k.cgroup
  let me := cgRank r
  let others := (List.range (leAt r 2 2)).filter (· != me)
  let (m, go) := m.moveSharded p k
  match (if go then m.collOpOf k else none) with
  | none => (m, false)
  | some (o, i) =>
    let h := (o.ref 0).handle
    let lists : List (Nat × List Nat) := (List.range (leAt r 2 2)).map fun q => (q, ofU64s (k.at 1 q 0))
    let listOf (q : Nat) : List Nat := ((lists.find? fun x => x.1 == q).map fun x => x.2).getD []
    match others.find? fun q => !k.served.contains q && (m.chunkOf k 1 0 q).isSome, m.tensor? p h with
    | some q, _ =>
      let list := match m.chunkOf k 1 0 q with | some c => ofU64s c.bytes | none => []
      let (m, bs, f) := m.serveRows i p h list
      match f with
      | some x => (m.collFault k x, true)
      | none =>
        let k := { k with served := k.served ++ [q] }
        let m := ((m.count .gather i.die i.idx 0x24 list.length).dadd (0x2048 + p) 0x11 list.length).updColl k
        (m.sendChunk p k q 2 0 0 0 bs, true)
    | none, none => (m, false)
    | none, some t =>
      let nb := t.desc.tile.d0 / 32
      let packets (q : Nat) : List Bytes :=
        let bs := if q = me then k.at 2 q 0 else match m.chunkOf k 2 0 q with | some c => c.bytes | none => []
        cutPackets t.desc.fmt nb (listOf q).length bs
      match others.find? fun q => !k.got.contains q && (m.chunkOf k 2 0 q).isSome with
      | some q =>
        let ps := packets q
        let m := (m.count .gather i.die i.idx 0x20 (listOf q).length).updColl { k with got := k.got ++ [q] }
        (((listOf q).zip ps).foldl (fun m x => if rowPacketOk t.desc.fmt nb x.2 then m
          else m.noteFormat .gather i.die i.idx (fmtRegs .gather) h 0) m, true)
      | none =>
        if others.any fun q => !k.served.contains q || !k.got.contains q then (m, false) else
        let tbl := (List.range (leAt r 2 2)).map fun q => (packets q).map (rowValues t.desc)
        let (_, b) := m.readBags k.ctx o p i (k.at 0 0 0) (k.at 0 1 0)
        let tm := match m.shardRec p o with | some q => q.2 | none => TableMap.ofBytes []
        let pos := b.positions.map fun q =>
          let (own, row) := shardOf tm (b.idx.getD q 0)
          let j := (listOf own).idxOf row
          (q, (tbl.getD own []).getD j [])
        let kind : Pool := match o.kind with | .bagMean => .mean | .bagMax => .max | _ => .sum
        let (m, ws) := m.finishBags o p i kind b (pos.foldl (fun a q => mapSet a q.1 q.2) [])
        (m.collFinish k ws, true)

/-- One round of a sharded GRAD_MERGE: fold once every member's rows are there (R239). A local index at or beyond the shard's rows
faults (R229, R232). -/
def Mach.mergeStep (m : Mach) (p : Nat) (k : Coll) : Mach × Bool :=
  let r := m.cgRec k.cgroup
  let me := cgRank r
  let n := leAt r 2 2
  let (m, go) := m.moveSharded p k
  match (if go then m.collOpOf k else none) with
  | none => (m, false)
  | some (o, i) =>
    if (List.range n).any fun q => q != me && (m.chunkOf k 3 0 q).isNone then (m, false) else
    match m.tensor? p (o.ref 0).handle with
    | none => (m, false)
    | some t =>
      let d := t.desc.tile.d0
      let w := t.desc.fmt.eltBytes
      let one (bs : Bytes) : List (Nat × List Word) :=
        let c := bs.length / (8 + d * w)
        (List.range c).map fun j => (leAt bs (8 * j) 8, (List.range d).map fun e =>
          let a := 8 * c + (j * d + e) * w
          if w = 2 then ofBf16 (BitVec.ofNat 16 (leAt bs a 2)) else BitVec.ofNat 32 (leAt bs a 4))
      let all := (List.range n).flatMap fun q =>
        one (if q = me then k.at 3 q 0 else match m.chunkOf k 3 0 q with | some c => c.bytes | none => [])
      let rows := match m.shardRec p o with | some q => shardRows q.2 | none => 0
      if all.any fun x => rows ≤ x.1 then
        (m.collFault k { code := fcIndex, handle := (o.ref 3).handle, coord := refCoord (o.ref 3) }, true)
      else
      let new := mergeRows all
      let new := if o.acc then mergeUnion (m.priorMerged o p (k.at 0 2 0) (k.at 0 3 0)) new else new
      let (m, ws) := m.writeMerged k.ctx o p i new
      (m.collFinish k ws, true)

/-! ### Progress -/

/-- The chunks that a reduction has yet to fold here: of each level the next one, as its level, its index and its tiles (R327). -/
def Mach.foldsLeft (m : Mach) (p : Nat) (k : Coll) : List (Nat × Nat × (Nat × List Nat)) :=
  let r := m.cgRec k.cgroup
  (cgLevels r).filterMap fun l =>
    (((m.foldUnits p k l (cgRank r)).zipIdx).find? fun u => !k.done.contains (l, u.2)).map fun u => (l, u.2, u.1)
/-- Fold the next chunk of a level for which every member's contribution has come and is good (R322, R325, R327). -/
def Mach.foldNext (m : Mach) (p : Nat) (k : Coll) : Mach × Bool :=
  let k := m.moveFolds p k
  let m := m.updColl k
  let r := m.cgRec k.cgroup
  if k.jacks.isEmpty && leAt r 13 1 != 0 then (m, false) else
  let me := cgRank r
  let from' (l : Nat) : List Nat := ((List.range (cgSize r l)).map (cgMove r l me)).filter (· != me)
  let next := m.foldsLeft p k
  let m := next.foldl (fun m c => (from' c.1).foldl (fun m s => m.verify p k c.1 c.2.1 s c.2.2) m) m
  match next.find? fun c => m.chunkReady k ⟨c.1, c.2.1, .fold c.2.2⟩ && (from' c.1).all fun s =>
      match m.chunkOf k c.1 c.2.1 s with | some x => x.good | none => false with
  | none => (m, false)
  | some (l, idx, u) =>
    let (m, x) := m.foldChunk p k l idx u
    match x with
    | none => (m.collFault k { code := fcInternal }, true)
    | some (out, nans) =>
      let i := m.foldEngine p k 0
      let m := (m.count .jacks i.die i.idx 0x14 1).count .jacks i.die i.idx 0x20 nans
      (m.updColl { m.holdLevel p k l (out.map fun y => (u.1, y.1, y.2)) with done := k.done ++ [(l, idx)] }, true)
/-- Send what is due of every group with a collective under way. -/
def Mach.sendDue (m : Mach) : Mach :=
  (dedup ((m.colls.filter fun (k : Coll) => decide (k.stage ≤ 5)).map fun k => ((m.ctx k.ctx).part, k.cgroup))).foldl (fun m q =>
    m.sendGroup q.1 q.2) m
/-- One step of a collective or exchange, if it can take one. -/
def Mach.collStep (m : Mach) (k : Coll) : Mach × Bool :=
  let p := (m.ctx k.ctx).part
  let r := m.cgRec k.cgroup
  let me := cgRank r
  if k.stage = 7 then m.lookupStep p k
  else if k.stage = 8 then m.mergeStep p k
  else if k.stage = 1 ∧ m.foldsLeft p k ≠ [] then m.foldNext p k
  else if k.stage ≠ 1 ∧ k.stage ≠ 5 ∨ !m.allSent p k then (m, false)
  else if k.kind = 1 then (m.collFinish k (m.scatterWrites p k), true)
  else
    let (lvl, base) := moveLevel k.kind
    let n := leAt r 2 2
    let per := (List.range n).map fun s => (s, (m.moveUnits p k s me).zipIdx)
    if per.any fun q => q.1 != me && q.2.any fun u => (m.chunkOf k lvl (base + u.2) q.1).isNone then (m, false)
    else
      let ws := per.flatMap fun q => q.2.flatMap fun u =>
        let y := (k.pairs.getD u.1.1 (0, 0)).2
        if q.1 = me then
          if k.kind = 4 then [] else
          u.1.2.map fun x => (⟨y, x.2, if k.kind = 0 then k.at 4 u.1.1 x.2 else k.at 0 u.1.1 x.1, false⟩ : TileWrite)
        else match m.chunkOf k lvl (base + u.2) q.1 with
          | some c => (m.splitMove p k u.1.1 u.1.2 c.bytes).map fun x => (⟨y, x.1, x.2, false⟩ : TileWrite)
          | none => []
      (m.collFinish k ws, true)

/-- The steps that the collectives can take at most before they wait for a packet. -/
def Mach.collWork (m : Mach) : Nat :=
  (m.colls.map fun k =>
    let r := m.cgRec k.cgroup
    4 + 4 * leAt r 2 2 + ((cgLevels r).map fun l => (m.foldUnits (m.ctx k.ctx).part k l (cgRank r)).length).sum).sum
/-- Let every collective go as far as it can. -/
def pumpColls : Nat → Mach → Mach
  | 0, m => m
  | fuel + 1, m =>
    let m := m.sendDue
    let (m, any) := m.colls.foldl (fun (a : Mach × Bool) k =>
      if a.1.colls.contains k then let (m, b) := a.1.collStep k; (m, a.2 || b) else a) (m, false)
    if any then pumpColls fuel m else m

/-! ### Issue -/

/-- The epoch that a group's packets carry. -/
def Group.sendEpoch (x : Group) : Nat := if x.kind = .training then x.epoch else 0xFFFFFFFF

/-- COLLECTIVE issues (R321, R328): its inputs are read, its bucket numbered, its first contributions sent. -/
def Mach.collRun (c : Nat) (faults : List FoldFault) (m : Mach) (o : Op) (p : Nat) (i : Inst) : Mach :=
  let cg := fld o.param 4 0
  let kind := collKind o.param
  let root := collRoot o.param
  let r := m.cgRec cg
  let hs := o.refs.map (·.handle)
  let pairs : List (Nat × Nat) :=
    if kind = 4 then hs.map fun h => (h, h)
    else (List.range (hs.length / 2)).map fun j => (hs.getD (2 * j) 0, hs.getD (2 * j + 1) 0)
  let all (h : Nat) : List (Nat × Nat) := match m.tensor? p h with
    | some t => (List.range t.desc.tileCount).map fun k => (h, k) | none => []
  let ins := (pairs.zipIdx).flatMap fun q =>
    if kind = 4 ∧ root ≠ cgRank r then [] else (all q.1.1).map fun w => (q.2, w)
  let outs := (pairs.flatMap fun q => all q.2)
  let g := (m.ctx c).group
  let op := (m.ctx c).pc
  m.withInputs c p outs (ins.map (·.2)) fun m bs =>
    match m.group? p g with
    | none => m
    | some x =>
      let bucket := mapGetD x.buckets cg 0
      let m := m.updGroup p g fun y => { y with buckets := mapSet y.buckets cg (bucket + 1) }
      let k : Coll :=
        { ctx := c, op := op, cgroup := cg, bucket := bucket, epoch := x.sendEpoch, kind := kind, rop := collOp o.param
          root := root, pairs := pairs, stage := if kind ≤ 1 then 0 else 5, faults := faults, step := x.step
          held := (ins.zip bs).foldl (fun h q => mapSet h (holdKey 0 q.1.1 q.1.2.2) q.2) [] }
      let m := m.takeOff c (some i) outs [] false
      let m : Mach := { m with colls := m.colls ++ [k] }
      let m := if kind ≤ 1 then m.jacksReserve p k else m
      let m := if m.colls.any fun q => q.ctx == c && q.op == op && q.bucket == bucket && q.stage == 0
        then m.dadd (0x5100 + cg) 0x12 1 else m
      m.sendGroup p cg

/-- The bucket number of the next exchange of a table, counted by table and group (R233). -/
def Mach.nextExchange (m : Mach) (p g : Nat) (tm : TableMap) : Mach × Nat :=
  let q := tm.table + 2 ^ 20 * tm.cgroup
  let n := match m.group? p g with | some x => mapGetD x.tableSeq q 0 | none => 0
  (m.updGroup p g fun y => { y with tableSeq := mapSet y.tableSeq q (n + 1) }, 2 ^ 63 + m.tablePlace p tm * 2 ^ 32 + n)

/-- A sharded BAG issues (R234): the request lists are built and sent. -/
def Mach.bagShard (c : Nat) (tm : TableMap) (k : Pool) (m : Mach) (o : Op) (p : Nat) (i : Inst) : Mach :=
  let outs := m.bagOuts o p k
  m.gatherInputs c p i outs [m.refAt p (o.ref 1), m.refAt p (o.ref 2)] fun m bs =>
    let (m, b) := m.readBags c o p i (bs.getD 0 []) (bs.getD 1 [])
    let gs := b.idx.filter fun x => !padIndex b.fmt x
    if gs.any fun g => tm.rows ≤ g || leAt (m.cgRec tm.cgroup) 2 2 ≤ (shardOf tm g).1 then
      m.stationFault c outs { code := fcIndex, handle := (o.ref 1).handle, coord := refCoord (o.ref 1) }
    else
      let r := m.cgRec tm.cgroup
      let me := cgRank r
      let n := leAt r 2 2
      let at' := gs.map (shardOf tm)
      let lists := (List.range n).map fun q => dedup ((at'.filter fun x => x.1 == q).map (·.2))
      let (m, own, f) := m.serveRows i p (o.ref 0).handle (lists.getD me [])
      match f with
      | some x => m.stationFault c outs x
      | none =>
        let g := (m.ctx c).group
        let op := (m.ctx c).pc
        let ep := match m.group? p g with | some x => x.sendEpoch | none => 0xFFFFFFFF
        let (m, bucket) := m.nextExchange p g tm
        let held := (lists.zipIdx).foldl (fun h q => mapSet h (holdKey 1 q.2 0) (u64s q.1))
          (mapSet (mapSet (mapSet [] (holdKey 0 0 0) (bs.getD 0 [])) (holdKey 0 1 0) (bs.getD 1 [])) (holdKey 2 me 0) own)
        let col : Coll :=
          { ctx := c, op := op, cgroup := tm.cgroup, bucket := bucket, epoch := ep, kind := 8, rop := 0, root := 0
            pairs := [], stage := 7, held := held }
        let m := m.takeOff c (some i) outs [] false
        let m : Mach := { m with colls := m.colls ++ [col] }
        (lists.zipIdx).foldl (fun m q => if q.2 = me then m else m.sendChunk p col q.2 1 0 0 0 (u64s q.1)) m

/-- A sharded GRAD_MERGE issues (R239): rows merged for each owner are sent. -/
def Mach.mergeShard (c : Nat) (tm : TableMap) (m : Mach) (o : Op) (p : Nat) (i : Inst) : Mach :=
  let wr := m.refAt p (o.ref 2)
  let wi := m.refAt p (o.ref 3)
  m.gatherInputs c p i [wr, wi] ([m.refAt p (o.ref 0), m.refAt p (o.ref 1)] ++ accIns o.acc wr ++ accIns o.acc wi) fun m bs =>
    let xs := m.mergeIns o p (bs.getD 0 []) (bs.getD 1 [])
    let m := m.count .gather i.die i.idx 0x30 (m.mergePads o p (bs.getD 1 []))
    if xs.any fun x => tm.rows ≤ x.1 || leAt (m.cgRec tm.cgroup) 2 2 ≤ (shardOf tm x.1).1 then
      m.stationFault c [wr, wi] { code := fcIndex, handle := (o.ref 1).handle, coord := refCoord (o.ref 1) }
    else
      let r := m.cgRec tm.cgroup
      let me := cgRank r
      let n := leAt r 2 2
      let half : Bool := match m.tensor? p (o.ref 0).handle with | some t => t.desc.fmt == .bf16 | none => false
      let payload (q : Nat) : Bytes :=
        let ms := mergeRows ((xs.map fun x => (shardOf tm x.1, x.2)).filterMap fun x =>
          if x.1.1 = q then some (x.1.2, x.2) else none)
        u64s (ms.map (·.1)) ++ ms.flatMap fun x => x.2.flatMap fun w =>
          if half then toLe 2 (toBf16 w).toNat else toLe 4 w.toNat
      let g := (m.ctx c).group
      let op := (m.ctx c).pc
      let ep := match m.group? p g with | some x => x.sendEpoch | none => 0xFFFFFFFF
      let (m, bucket) := m.nextExchange p g tm
      let col : Coll :=
        { ctx := c, op := op, cgroup := tm.cgroup, bucket := bucket, epoch := ep, kind := 9, rop := 0, root := 0
          pairs := [], stage := 8
          held := mapSet (mapSet (mapSet [] (holdKey 0 2 0) (bs.getD 2 [])) (holdKey 0 3 0) (bs.getD 3 []))
            (holdKey 3 me 0) (payload me) }
      let m := m.takeOff c (some i) [wr, wi] [] false
      let m : Mach := { m with colls := m.colls ++ [col] }
      (List.range n).foldl (fun m q => if q = me then m else m.sendChunk p col q 3 0 0 0 (payload q)) m

/-- A BAG operation, local or sharded. -/
def Mach.bagRun (c : Nat) (k : Pool) (m : Mach) (o : Op) (p : Nat) (i : Inst) : Mach :=
  match m.shardRec p o with
  | some (_, tm) => m.bagShard c tm k o p i
  | none => m.bagLocal c k o p i
/-- GRAD_MERGE, local or sharded. -/
def Mach.mergeRun (c : Nat) (m : Mach) (o : Op) (p : Nat) (i : Inst) : Mach :=
  match m.shardRec p o with
  | some (_, tm) => m.mergeShard c tm o p i
  | none => m.mergeLocal c o p i

/-- JACKS_RESERVE_GRANT: the oldest waiting collective of a group takes its engines when they are free. -/
def Mach.jacksGrant (m : Mach) (cg : Nat) : Mach :=
  match sortBy (fun k => k.bucket) (m.colls.filter fun k => k.cgroup == cg && k.stage == 0 && k.kind ≤ 1) with
  | [] => m
  | k :: _ => m.jacksReserve (m.ctx k.ctx).part k

/-- The inputs of a unit of a reduction's first level read again from their tiles (R325). A tile that lies out of the partition's bounds
is not read: the stream faults, and the copy held goes (R45). -/
def Mach.rereadUnit (m : Mach) (p : Nat) (k : Coll) (u : Nat × List Nat) : Mach × Coll :=
  u.2.foldl (fun (a : Mach × Coll) x =>
    match a.1.tileFault p (k.pairs.getD u.1 (0, 0)).1 x with
    | some (m, f) => (if f.code = fcBounds then
        (m.faultCtx k.ctx k.op f).faultCtx k.ctx k.op { f with code := fcInternal } else m, a.2)
    | none =>
      let (m, bs, _) := a.1.readTile 3 p (k.pairs.getD u.1 (0, 0)).1 x
      (m, { a.2 with held := mapSet a.2.held (holdKey 0 u.1 x) bs })) (m, k)
/-- A chunk is asked for again (R325): the sender reads its source, the tiles or the partial that it holds, and sends it once more. -/
def Mach.resend (m : Mach) (cg bucket lvl idx asker : Nat) : Mach :=
  match m.colls.find? fun k => k.cgroup == cg && k.bucket == bucket && k.kind ≤ 1 with
  | none => m
  | some k =>
    let p := (m.ctx k.ctx).part
    match (m.foldUnits p k lvl asker)[idx]? with
    | some u =>
      if lvl < 1 ∨ 3 < lvl then m else
      let (m, k) := if (cgLevels (m.cgRec cg)).head? = some lvl then m.rereadUnit p k u else (m, k)
      m.sendUnit p k lvl asker idx u
    | none => m

end Sys2Proof.Machine
end

