-- ==== Sys2Proof/Machine/Fabric.lean ====
section
/-! DEFINITION. The fabric: PUT, GET and PUT_SIGNAL, the receiving side of transport and link layer, and the ports
(spec/12, R303 to R317, R326, R329, R330; R284, R285). -/

namespace Sys2Proof.Machine

/-! ### Fabric descriptors (R314) -/

structure FabDesc where
  module : Nat
  part   : Nat
  mode   : Nat
  signal : Nat
  handle : Nat
  coord  : Dim4
  offset : Nat
  deriving DecidableEq, Repr

/-- The descriptor in 32 bytes; none where it is malformed. `sig` says that the operation signals. -/
def FabDesc.ofBytes (sig : Bool) (bs : Bytes) : Option FabDesc :=
  let w (i : Nat) : Nat := leAt bs (8 * i) 8
  let d : FabDesc :=
    { module := fld (w 0) 11 0, part := fld (w 0) 13 12, mode := fld (w 0) 15 14, signal := fld (w 0) 28 16
      handle := fld (w 0) 51 32, coord := ⟨fld (w 1) 31 0, fld (w 1) 63 32, fld (w 2) 15 0, fld (w 2) 31 16⟩
      offset := fld (w 3) 47 0 }
  if fld (w 0) 31 29 == 0 && fld (w 0) 63 52 == 0 && fld (w 2) 63 32 == 0 && fld (w 3) 63 48 == 0 && d.mode ≤ 1
      && (d.mode == 0 || d.handle == 0) && (d.mode == 1 || d.offset % 16 == 0) && (sig || d.signal == 0)
  then some d else none

/-- Why an endpoint refuses (R315). -/
def rfBounds : Nat := 1
def rfHandle : Nat := 2
def rfLength : Nat := 3
def rfPort : Nat := 4
def rfGeneration : Nat := 5
def rfGroup : Nat := 6
def rfMalformed : Nat := 7

/-- A refusal is reported (R315). -/
def Mach.fabricRefused (m : Mach) (p : Nat) (i : Inst) (reason module part handle : Nat) : Mach :=
  m.fwEvent evFabricRefused i.die (slotOf .pontil i.idx) (some p)
    (toLe 1 reason ++ toLe 1 part ++ toLe 2 module ++ toLe 4 handle)
/-- A transfer of a stream is refused: FAULT_BOUNDS. -/
def Mach.refusedOp (m : Mach) (c op : Nat) : Mach :=
  m.flightFault c op { code := fcBounds, handle := (((m.opsOf c)[op]?).map fun o => (o.ref 0).handle).getD 0 }

/-! ### Issue of PUT, GET, PUT_SIGNAL (R314 to R317) -/

/-- The epoch a context's packets carry (R284). -/
def Mach.ctxEpoch (m : Mach) (c : Nat) : Word :=
  match m.group? (m.ctx c).part (m.ctx c).group with
  | some x => BitVec.ofNat 32 x.sendEpoch
  | none => 0xFFFFFFFF#32
/-- The descriptor a transfer issues with: checked at the sender. -/
def Mach.withFabDesc (m : Mach) (c : Nat) (o : Op) (p : Nat) (i : Inst) (sig : Bool) (bs : Bytes)
    (go : FabDesc → Mach) : Mach :=
  if !bitAt (m.reg .pontil i.die i.idx 8) (2 + fld o.param 7 6) then m else
  match FabDesc.ofBytes sig bs with
  | some d => go d
  | none =>
    let w := if o.kind = .get then m.refAt p (o.ref 1) else m.refAt p (o.ref 0)
    (m.fabricRefused p i rfMalformed 0 0 w.1).opFault c (if o.kind = .get then [w] else [])
      { code := fcBounds, handle := w.1 }

/-- PUT and PUT_SIGNAL: the source tile goes out in packets, the descriptor before the first; the last of a PUT_SIGNAL
carries the signal (log entry 17). -/
def Mach.putRun (c : Nat) (sig : Bool) (m : Mach) (o : Op) (p : Nat) (i : Inst) : Mach :=
  let src := m.refAt p (o.ref 0)
  m.withInputs c p [] [src, m.refAt p (o.ref 1)] fun m bs =>
    m.withFabDesc c o p i sig (bs.getD 1 []) fun d =>
      let data := bs.getD 0 []
      let op := (m.ctx c).pc
      let ps := data.take 2016 :: (if data.length ≤ 2016 then []
        else pieces 2048 (ceilDiv (data.length - 2016) 2048) (data.drop 2016))
      let e := fld o.param 7 6
      let m := ps.zipIdx.foldl (fun m x =>
        let last := x.2 + 1 == ps.length
        let off := d.offset + (if x.2 = 0 then 0 else 2016 + 2048 * (x.2 - 1))
        m.send p e (fld o.param 5 0) d.module d.part (if sig && last then ptWriteSignal else ptWrite)
          ((if x.2 = 0 then 16 else 0) + (if last then 32 else 0)) (if sig && last then d.signal else 0) off
          (m.ctxEpoch c) none ((if x.2 = 0 then fitBytes 32 (bs.getD 1 []) else []) ++ x.1)
          (if last then some (c, op) else none)) m
      m.takeOff c (some i) [] [] false

/-- GET: one request with the descriptor and the length of the destination (log entry 17). -/
def Mach.getRun (c : Nat) (m : Mach) (o : Op) (p : Nat) (i : Inst) : Mach :=
  let dst := m.refAt p (o.ref 1)
  m.withInputs c p [dst] [m.refAt p (o.ref 0)] fun m bs =>
    m.withFabDesc c o p i false (bs.getD 0 []) fun d =>
      let n := match m.tensor? p dst.1 with | some t => t.tileLen dst.2 | none => 0
      let op := (m.ctx c).pc
      let m := m.send p (fld o.param 7 6) (fld o.param 5 0) d.module d.part ptReadReq 48 0 d.offset (m.ctxEpoch c) none
        (fitBytes 32 (bs.getD 0 []) ++ toLe 4 n) (some (c, op))
      m.takeOff c (some i) [dst] [⟨dst.1, dst.2, zeroBytes n, false⟩] false

/-! ### What an endpoint checks (R315) -/

/-- The tile that a tile-mode access names, or the reason of its refusal, for `n` bytes from `off`. -/
def Mach.remoteTile (m : Mach) (p : Nat) (d : FabDesc) (off n : Nat) : Except Nat (Nat × Nat) :=
  match m.tensor? p d.handle with
  | none => .error rfHandle
  | some t =>
    let r : TileRef := ⟨d.handle, d.coord.d0, d.coord.d1, d.coord.d2, d.coord.d3⟩
    if !refInRange t.desc r then .error rfHandle
    else if t.tileLen (refTile t.desc r) < off + n then .error rfLength
    else .ok (d.handle, refTile t.desc r)
/-- The signal of a WRITE_SIGNAL (R278, R284, R285); one from a stream of this module is applied at once whatever its epoch. -/
def Mach.remoteSignal (m : Mach) (p : Nat) (h : PktHdr) (own : Bool) : Option Mach :=
  (extCtr m.mode p h.signal.toNat).map fun q =>
    let i := m.pontilOf p (fld h.flow.toNat 1 0)
    (m.count .pontil i.die i.idx 0x14 1).fabricSignal q.1 q.2 (if own then 0xFFFFFFFF else h.epoch.toNat)

/-- Refuse a packet: the REFUSE goes back, and is counted. A refused transfer counts under R45 as well; a collective packet of another
definition does not. -/
def Mach.refuse (m : Mach) (p : Nat) (h : PktHdr) (reason addr : Nat) : Mach :=
  let i := m.pontilOf p (fld h.flow.toNat 1 0)
  let m := if reason = rfGeneration ∨ reason = rfGroup then m else m.boundsFault p addr 1 1
  ((m.count .pontil i.die i.idx 0x20 1).dadd 0x5001 0x17 1).reply p h ptRefuse 0 [BitVec.ofNat 8 reason]

/-- Where an access of a transfer goes: in a tile, given by handle and number, or raw; the physical address; or why it is refused,
with the address that counts under R45. -/
def Mach.accessAt (m : Mach) (p : Nat) (d : FabDesc) (off n : Nat) : Except (Nat × Nat) (Option (Nat × Nat) × Nat) :=
  if d.mode = 1 then (if n = 0 || m.inBounds p off n then .ok (none, off) else .error (rfBounds, off))
  else match m.remoteTile p d off n with
    | .error e => .error (e, off)
    | .ok (x, k) =>
      let a := (match m.tensor? p x with | some t => t.tileAddr k | none => 0) + off
      if n = 0 || m.inBounds p a n then .ok (some (x, k), a) else .error (rfBounds, a)
/-- The die at which a packet comes in. -/
def Mach.entryDie (m : Mach) (p : Nat) (port : Option Nat) (h : PktHdr) : Nat :=
  match port with | some q => portDie m q | none => (m.pontilOf p (fld h.flow.toNat 1 0)).die

/-- A WRITE or WRITE_SIGNAL of a transfer: delivered, or refused with the rest of the transfer. None: a channel that it goes to serves
no requests now (R275). -/
def Mach.takeWrite (m : Mach) (p : Nat) (port : Option Nat) (pk : Packet) (rx : RxFlow) : Option (Mach × RxFlow) :=
  let h := pk.hdr
  let first := bitAt h.flags.toNat 4
  let rx := if first then { rx with desc := pk.data.take 32, refused := false } else rx
  let data := if first then pk.data.drop 32 else pk.data
  let ended (rx : RxFlow) : RxFlow := if bitAt h.flags.toNat 5 then { rx with desc := [] } else rx
  let no (reason addr : Nat) : Option (Mach × RxFlow) := some (m.refuse p h reason addr, ended { rx with refused := true })
  if rx.refused then some (m, ended rx) else
  match FabDesc.ofBytes true rx.desc with
  | none => no rfMalformed h.offset
  | some d =>
    if pk.typ = ptWriteSignal ∧ (extCtr m.mode p h.signal.toNat).isNone then no rfMalformed h.offset
    else match m.accessAt p d h.offset data.length with
      | .error (e, a) => no e a
      | .ok (x, a) =>
        if !m.served p a data.length then none else
        let m := match x with
          | some (x, k) => m.writeTilePart 3 p x k h.offset data
          | none => m.writeRaw 3 a data
        let m := m.farCount (m.entryDie p port h) a data.length
        some (if pk.typ = ptWriteSignal then (m.remoteSignal p h port.isNone).getD m else m, ended rx)

/-- A READ_REQ: the data goes back in READ_RESP packets on this endpoint's own flow. A poisoned source is not answered
(log entry 17), but its tile is marked (R260). None: a channel of the source serves no requests now. -/
def Mach.takeReadReq (m : Mach) (p : Nat) (port : Option Nat) (pk : Packet) : Option Mach :=
  let h := pk.hdr
  let n := leAt pk.data 32 4
  let sp := fld h.flags.toNat 3 2
  match FabDesc.ofBytes false (pk.data.take 32) with
  | none => some (m.refuse p h rfMalformed h.offset)
  | some d =>
    match m.accessAt p d h.offset n with
    | .error (e, a) => some (m.refuse p h e a)
    | .ok (x, a) =>
    if !m.served p a n then none else
    let m := m.farCount (m.entryDie p port h) a n
    let (m, bs, bad) := match x with
      | some (x, k) => m.readTilePart 3 p x k h.offset n
      | none => m.readRaw 3 a n
    match bad with
    | some _ => some m
    | none =>
      let ps := if bs.isEmpty then [[]] else pieces 2048 (ceilDiv bs.length 2048) bs
      some (ps.zipIdx.foldl (fun m x => m.send p (fld h.flow.toNat 1 0) (fld h.flow.toNat 7 2) h.srcModule sp ptReadResp
        ((if x.2 = 0 then 16 else 0) + (if x.2 + 1 = ps.length then 32 else 0)) 0 (2048 * x.2) h.epoch none x.1 none) m)

/-- The kind of an operation in flight. -/
def Mach.flightKind (m : Mach) (c op : Nat) : Option OpKind := ((m.opsOf c)[op]?).map (·.kind)
/-- An operation in flight needs nothing more from outside; its transfer is counted. -/
def Mach.flightReady (m : Mach) (c op : Nat) : Mach :=
  match (m.ctx c).flights.find? fun f => f.op == op with
  | none => m
  | some f =>
    let m := match f.inst with | some i => m.count .pontil i.die i.idx 0x10 1 | none => m
    m.updCtx c fun x => { x with flights := x.flights.map fun f => if f.op = op then { f with ready := true } else f }

/-- A READ_RESP belongs to the oldest GET outstanding on its flow. -/
def Mach.takeReadResp (m : Mach) (p : Nat) (pk : Packet) : Mach :=
  let h := pk.hdr
  let mine (f : TxFlow) : Bool :=
    f.isFor p (fld h.flow.toNat 1 0) (fld h.flow.toNat 7 2) h.srcModule (fld h.flags.toNat 3 2)
  match (m.tx.find? mine).bind fun f => f.owners.find? fun o => m.flightKind o.2.1 o.2.2 == some .get with
  | none => m
  | some (seq, (c, op)) =>
    let m := m.updCtx c fun x => { x with flights := x.flights.map fun f =>
      if f.op ≠ op then f else
      { f with writes := f.writes.map fun w => { w with bytes := fitBytes w.bytes.length (overlay w.bytes h.offset pk.data) } } }
    if bitAt h.flags.toNat 5 then
      ({ m with tx := m.tx.map fun f =>
          if mine f then { f with owners := f.owners.filter fun o => o.1 != seq } else f }).flightReady c op
    else m

/-! ### Collective packets and notices (R326, R329) -/

/-- The epoch of the training group of a partition that uses a collective group; none when there is none. -/
def Mach.cgEpoch (m : Mach) (p cg : Nat) : Option Nat :=
  (m.groups.find? fun x => x.part == p && x.kind == .training && x.started
    && ((opCgroups (m.allOps p x.num)).contains cg || m.statusCg p x.num == some cg
      || (m.allOps p x.num).any fun o => match m.shardRec p o with | some q => q.2.cgroup == cg | none => false)).map
    (·.epoch)
/-- 0 at once, 1 stale, 2 held for a newer epoch. -/
def Mach.epochTurn (m : Mach) (p cg : Nat) (e : Word) : Nat :=
  if e = 0xFFFFFFFF#32 then 0
  else match m.cgEpoch p cg with
    | none => 0
    | some x => if e.toNat < x then 1 else if x < e.toNat then 2 else 0

/-- Store a packet of a chunk in the receive area. -/
def Mach.takeChunk (m : Mach) (pk : Packet) (x : ExtHdr) : Mach :=
  let last := bitAt pk.hdr.flags.toNat 5
  let isIt (c : ChunkRx) : Bool :=
    c.bucket == x.bucket.toNat && c.epoch == pk.hdr.epoch.toNat && c.level == x.level % 4 && c.chunk == x.chunk
      && c.sender == x.sender
  m.updCg x.cgroup fun g =>
    let new : ChunkRx :=
      { cgroup := x.cgroup, tag := x.defTag.toNat, gen := x.generation, epoch := pk.hdr.epoch.toNat
        bucket := x.bucket.toNat, level := x.level % 4, chunk := x.chunk, sender := x.sender, parts := [] }
    let add (c : ChunkRx) : ChunkRx :=
      { c with parts := c.parts ++ [(pk.hdr.offset, pk.data)], done := c.done || last
               sum := if last then x.sumcheck else c.sum, elements := if last then x.elements else c.elements }
    { g with chunks := if g.chunks.any isIt then g.chunks.map fun c => if isIt c then add c else c
                       else g.chunks ++ [add new] }
/-- A whole notice acts (R326). One of a round that comes on another channel than its group's status group is no part of the round. -/
def Mach.takeNotice (m : Mach) (p : Nat) (x : ExtHdr) (payload : Bytes) : Mach :=
  let g := m.dnum (0x2030 + p) 1
  let kind := fld x.level 7 4
  let b := x.bucket.toNat
  let round : Bool := m.statusCg p g == some x.cgroup
  if kind = nkStatus then if round then m.statusFrom p g x.sender b payload else m
  else if kind = nkAbort then if round then m.abortFrom p g x.sender b payload else m
  else if kind = nkAck then if round then m.ackFrom p g x.sender b else m
  else if kind = nkBarrier then
    let f := leAt payload 0 2
    if fbarCount m.mode ≤ f then m else
    let (d, s) := physFbar m.mode p f
    let r : BarRef := ⟨true, d, s⟩
    let y := m.bar r
    if b = y.gen ∨ b = (y.gen + 1) % 65536 then
      settleBarrier r 4 (m.setBar r { y with notices := y.notices ++ [(b, x.sender, x.cgroup)] })
    else m
  else if kind = nkResend then
    if leAt payload 2 2 = cgRank (m.cgRec x.cgroup) then m.resend x.cgroup b (leAt payload 0 1) x.chunk x.sender else m
  else if kind = nkDigest then m.digestFrom p x.sender b payload
  else m
/-- A notice packet: notices of several packets are put together first. -/
def Mach.takeNoticePkt (m : Mach) (p : Nat) (pk : Packet) (x : ExtHdr) : Mach :=
  let kind := fld x.level 7 4
  if bitAt pk.hdr.flags.toNat 4 && bitAt pk.hdr.flags.toNat 5 then m.takeNotice p x pk.data
  else
    let isIt (n : NoticeRx) : Bool := n.rank == x.sender && n.kind == kind && n.bucket == x.bucket.toNat
    let old := if bitAt pk.hdr.flags.toNat 4 then [] else (((m.cg x.cgroup).notices.find? isIt).map (·.parts)).getD []
    let parts := old ++ [(pk.hdr.offset, pk.data)]
    let rest (m : Mach) (add : List NoticeRx) : Mach :=
      m.updCg x.cgroup fun g => { g with notices := g.notices.filter (fun n => !isIt n) ++ add }
    if bitAt pk.hdr.flags.toNat 5 then
      (rest m []).takeNotice p x ((sortBy (·.1) parts).flatMap (·.2))
    else rest m [⟨x.sender, kind, x.bucket.toNat, parts⟩]
/-- Does the epoch of R329 apply to the packet? Barrier arrivals carry none; digests are matched by their step. -/
def epochBound (pk : Packet) (x : ExtHdr) : Bool :=
  pk.typ == ptColl || (fld x.level 7 4 != nkDigest && fld x.level 7 4 != nkBarrier)
/-- A collective packet or notice whose turn has come. -/
def Mach.takeGroupPkt (m : Mach) (p : Nat) (pk : Packet) (x : ExtHdr) : Mach :=
  if pk.typ = ptColl then m.takeChunk pk x else m.takeNoticePkt p pk x
/-- A collective packet or notice: checked (R320, R329), held, discarded or taken. None: the receive area is full (R312). -/
def Mach.takeGroup (m : Mach) (p : Nat) (pk : Packet) : Option Mach :=
  match pk.ext with
  | none => some (m.refuse p pk.hdr rfMalformed 0)
  | some x =>
    let r := m.cgRec x.cgroup
    let i := m.pontilOf p 0
    if 32 ≤ x.cgroup ∨ !cgDefined r ∨ leAt r 0 1 ≠ p then some (m.refuse p pk.hdr rfGroup 0)
    else if x.defTag ≠ defTag r ∨ x.generation ≠ leAt r 10 2
        ∨ (cgMembers r)[x.sender]? ≠ some (pk.hdr.srcModule, fld pk.hdr.flags.toNat 3 2) then
      some (m.refuse p pk.hdr rfGeneration 0)
    else if !extOk pk.typ x || (pk.typ == ptNotice && !noticeOk (fld x.level 7 4) pk.data) then
      some (m.refuse p pk.hdr rfMalformed 0)
    else
      let turn := if epochBound pk x then m.epochTurn p x.cgroup pk.hdr.epoch else 0
      let held := ((m.cg x.cgroup).chunks.map fun c => (c.parts.map fun q => q.2.length).sum).sum
      if turn = 1 then some (m.count .pontil i.die i.idx 0x2C 1)
      else if pk.typ = ptColl ∧ leAt r 20 4 * 1048576 < held + pk.data.length then none
      else if turn = 2 then some (m.updCg x.cgroup fun g => { g with ahead := g.ahead ++ [pk] })
      else some (m.takeGroupPkt p pk x)

/-- Packets held for an epoch that has come. -/
def Mach.takeAhead (m : Mach) : Mach :=
  m.cgroups.foldl (fun m q =>
    let p := leAt (m.cgRec q.1) 0 1
    let now := q.2.ahead.filter fun pk => m.epochTurn p q.1 pk.hdr.epoch != 2
    if now.isEmpty then m else
    let m := m.updCg q.1 fun g => { g with ahead := g.ahead.filter fun pk => m.epochTurn p q.1 pk.hdr.epoch == 2 }
    now.foldl (fun m pk =>
      match pk.ext with
      | none => m
      | some x =>
        if m.epochTurn p q.1 pk.hdr.epoch = 1 then
          let i := m.pontilOf p 0
          m.count .pontil i.die i.idx 0x2C 1
        else m.takeGroupPkt p pk x) m) m

/-! ### Acknowledgements and refusals (R311, R315) -/

/-- Is sequence number `s` at or before `a`, of the flow's numbers modulo 2^24? -/
def seqLe (s a : Nat) : Bool := (a + 2 ^ 24 - s) % 2 ^ 24 < 2 ^ 23
/-- TACK: everything up to its number is complete at the destination. -/
def Mach.takeTack (m : Mach) (p : Nat) (h : PktHdr) : Mach :=
  let dp := fld h.flags.toNat 3 2
  let mine (f : TxFlow) : Bool := f.isFor p (fld h.flow.toNat 1 0) (fld h.flow.toNat 7 2) h.srcModule dp
  match m.tx.find? mine with
  | none => m
  | some f =>
    let ends := f.owners.filter fun o => seqLe o.1 h.tseq && m.flightKind o.2.1 o.2.2 != some .get
    let upd (g : TxFlow) : TxFlow :=
      if mine g then { g with unacked := g.unacked.filter (fun k => !seqLe k.hdr.tseq h.tseq)
                              owners := g.owners.filter (fun o => !ends.contains o), retries := 0 } else g
    let m : Mach := { m with tx := m.tx.map upd }
    let m := ends.foldl (fun m o => m.flightReady o.2.1 o.2.2) m
    if m.unreach.contains (h.srcModule, dp) then
      ({ m with unreach := m.unreach.filter (· != (h.srcModule, dp)) }).fwEvent evDestReachable (partDie m.mode p) 0 (some p)
        (toLe 2 h.srcModule ++ toLe 1 dp)
    else m
/-- REFUSE: the transfer that the packet belongs to faults its stream; one of a flow that carries no transfer is a buddy's, which
refuses the checkpoint put to it (log entry 75). -/
def Mach.takeRefuse (m : Mach) (p : Nat) (h : PktHdr) (reason : Nat) : Mach :=
  let e := fld h.flow.toNat 1 0
  let dp := fld h.flags.toNat 3 2
  let mine (f : TxFlow) : Bool := f.isFor p e (fld h.flow.toNat 7 2) h.srcModule dp
  let i := m.pontilOf p e
  let m := (m.count .pontil i.die i.idx 0x20 1).dadd 0x5001 0x17 1
  match (m.tx.find? mine).bind fun f => f.owners.find? fun o => seqLe h.tseq o.1 with
  | none => if m.tx.any mine then m else m.ckptLost p h.srcModule dp 2
  | some (seq, (c, op)) =>
    let upd (f : TxFlow) : TxFlow := if mine f then { f with owners := f.owners.filter fun o => o.1 != seq } else f
    let m : Mach := { m with tx := m.tx.map upd }
    let hd := (((m.opsOf c)[op]?).map fun o => (o.ref 0).handle).getD 0
    if ((m.ctx c).flights.any fun f => f.op == op) then
      (m.fabricRefused p i reason h.srcModule dp hd).refusedOp c op
    else m

/-! ### Delivery in order (R310, R311) -/

/-- Has a packet for a partition come in by a port of another (R300)? -/
def Mach.wrongPort (m : Mach) (p : Nat) (port : Option Nat) : Bool :=
  match port with | some q => m.portPart q != p | none => false
/-- Deliver one packet of a flow; none: it cannot be taken now. -/
def Mach.takePacket (m : Mach) (p : Nat) (port : Option Nat) (pk : Packet) (rx : RxFlow) : Option (Mach × RxFlow) :=
  if m.wrongPort p port then some (m.refuse p pk.hdr rfPort 0, { rx with refused := true })
  else if pk.hdr.resv then some (m.refuse p pk.hdr rfMalformed 0, { rx with refused := true })
  else if pk.typ = ptWrite ∨ pk.typ = ptWriteSignal then m.takeWrite p port pk rx
  else if pk.typ = ptReadReq then (m.takeReadReq p port pk).map fun m => (m, rx)
  else if pk.typ = ptReadResp then some (m.takeReadResp p pk, rx)
  else (m.takeGroup p pk).map fun m => (m, rx)
/-- A packet that is not taken at once: one that a full receive area keeps out is counted (R312). -/
def Mach.rxBusy (m : Mach) (p : Nat) (pk : Packet) : Mach :=
  if pk.typ = ptColl then m.count .pontil (m.pontilOf p 0).die (m.pontilOf p 0).idx 0x28 1 else m
/-- Deliver held packets while the next one is there. -/
def drainEarly (p : Nat) : Nat → Mach → RxFlow → Mach × RxFlow
  | 0, m, rx => (m, rx)
  | fuel + 1, m, rx =>
    match rx.early.find? fun k => k.2.hdr.tseq == rx.expect with
    | none => (m, rx)
    | some k =>
      match m.takePacket p k.1 k.2 rx with
      | none => (m.rxBusy p k.2, { rx with early := rx.early.filter fun k => k.2.hdr.tseq != rx.expect })
      | some (m, rx) =>
        drainEarly p fuel m { rx with expect := (rx.expect + 1) % 2 ^ 24
                                      early := rx.early.filter fun k => k.2.hdr.tseq != rx.expect }
/-- Is the flow the one that the packet came on? -/
def RxFlow.isOf (x : RxFlow) (h : PktHdr) : Bool :=
  x.module == h.srcModule && x.spart == fld h.flags.toNat 3 2 && x.dpart == fld h.flags.toNat 1 0 && x.flow == h.flow.toNat
/-- The receiving flow of a packet; one on which nothing has come is new. -/
def Mach.rxFlow (m : Mach) (h : PktHdr) : RxFlow :=
  (m.rx.find? fun x => x.isOf h).getD
    { module := h.srcModule, spart := fld h.flags.toNat 3 2, dpart := fld h.flags.toNat 1 0, flow := h.flow.toNat }
def Mach.putRx (m : Mach) (h : PktHdr) (x : RxFlow) : Mach :=
  { m with rx := if m.rx.any (fun y => y.isOf h) then m.rx.map fun y => if y.isOf h then x else y else m.rx ++ [x] }
/-- Acknowledge what has been taken in order. -/
def Mach.ackRx (m : Mach) (h : PktHdr) (x : RxFlow) : Mach :=
  m.reply (fld h.flags.toNat 1 0) { h with tseq := (x.expect + 2 ^ 24 - 1) % 2 ^ 24 } ptTack 0 []
/-- The packet that the flow expects: it is taken with those that follow it, and acknowledged, or refused. -/
def Mach.rxExpected (m : Mach) (port : Option Nat) (pk : Packet) : Mach :=
  let p := fld pk.hdr.flags.toNat 1 0
  match m.takePacket p port pk (m.rxFlow pk.hdr) with
  | none => m.rxBusy p pk
  | some (m, rx) =>
    let (m, rx) := drainEarly p 256 m { rx with expect := (rx.expect + 1) % 2 ^ 24 }
    (m.putRx pk.hdr rx).ackRx pk.hdr rx
/-- A packet at most 256 ahead is kept once. -/
def Mach.rxEarly (m : Mach) (port : Option Nat) (pk : Packet) : Mach :=
  let rx := m.rxFlow pk.hdr
  if rx.early.any fun k => k.2.hdr.tseq == pk.hdr.tseq then m else m.putRx pk.hdr { rx with early := rx.early ++ [(port, pk)] }
/-- Is the packet one for this module? -/
def Mach.rxTakes (m : Mach) (pk : Packet) : Bool :=
  m.modNum != 0xFFFF && pk.hdr.dstModule == m.modNum && m.partOk (fld pk.hdr.flags.toNat 1 0) && pk.typ != 0 && decide (pk.typ ≤ 8)
  && decide (pk.data.length ≤ 2048)
/-- A packet has arrived, at a port or from this module itself. -/
def Mach.rxPacket (m : Mach) (port : Option Nat) (pk : Packet) : Mach :=
  let h := pk.hdr
  let p := fld h.flags.toNat 1 0
  if !m.rxTakes pk then m
  else if pk.typ = ptTack then (if h.resv || m.wrongPort p port then m else m.takeTack p h)
  else if pk.typ = ptRefuse then (if h.resv || m.wrongPort p port then m else m.takeRefuse p h (leAt pk.data 0 1))
  else
    let rx := m.rxFlow h
    let d := (h.tseq + 2 ^ 24 - rx.expect) % 2 ^ 24
    if d = 0 then m.rxExpected port pk
    else if d ≤ 256 then m.rxEarly port pk
    else if 2 ^ 23 ≤ d then m.ackRx h rx
    else m

/-! ### Everything runs on -/

/-- Let the module run on until nothing is left that waits for nothing outside: packets to itself, collectives, barriers,
held signals and packets, group commands. -/
def quiesce : Nat → Mach → Mach
  | 0, m => m
  | fuel + 1, m =>
    let ps := m.loop
    let m := ps.foldl (fun m pk => m.rxPacket none pk) { m with loop := [] }
    let m := m.takeAhead
    let m := (runOn 64 (pumpColls m.collWork m)).pumpGroupCmds
    if m.loop.isEmpty then m else quiesce fuel m
/-- The end of every meaning that touches the machine: it runs on, and its ports send what they can. -/
def Mach.settle (m : Mach) : Mach := (quiesce 64 m).pumpPorts

/-! ### Timers of the transport (R311, R330) -/

/-- The retransmission timer of a flow expires: its unacknowledged packets are sent again. -/
def Mach.retx (m : Mach) (n : Nat) : Mach :=
  match m.tx[n]? with
  | none => m
  | some f =>
    if f.unacked.isEmpty then m else
    let i := m.pontilOf f.part f.engine
    let k := f.unacked.length
    let m := (m.count .pontil i.die i.idx 0x1C k).dadd 0x5001 0x16 k
    let m : Mach := { m with tx := m.tx.set n { f with retries := f.retries + 1 } }
    if f.module = m.modNum then { m with loop := m.loop ++ f.unacked }
    else match m.flowPort f.part f.engine f.channel f.module f.dpart f.port with
      | none => m
      | some q => f.unacked.foldl (fun m pk => m.putPort q pk)
          { m with tx := m.tx.set n { f with retries := f.retries + 1, port := some q } }
/-- A destination endpoint is marked unreachable: its collective groups lose a member (R330). -/
def Mach.destLost (m : Mach) (p module dp : Nat) : Mach :=
  let buddy := m.claims.any fun c => c.part == p && c.module == module && c.bpart == dp && m.ckpts.any fun k => k.part == p
  if m.unreach.contains (module, dp) || !(buddy || m.tx.any fun f =>
      f.part == p && f.module == module && f.dpart == dp && !f.unacked.isEmpty) then m
  else
    let m : Mach := { m with unreach := m.unreach ++ [(module, dp)] }
    let m := m.tx.foldl (fun m f =>
      if f.part == p && f.module == module && f.dpart == dp && !f.unacked.isEmpty then
        let i := m.pontilOf p f.engine
        m.setBit .pontil i.die i.idx 4 4
      else m) m
    let m := (List.range 32).foldl (fun m g =>
      let r := m.cgRec g
      match (cgMembers r).idxOf? (module, dp) with
      | some k =>
        if !cgDefined r then m else
        let old := m.dict? (0x5100 + g) 4
        let has := (List.range (old.length / 2)).any fun i => leAt old (2 * i) 2 == k
        (m.cgLost g).dictPut (0x5100 + g) 4 (if has then old else old ++ toLe 2 k)
      | none => m) m
    (m.fwEvent evDestUnreachable (partDie m.mode p) 0 (some p) (toLe 2 module ++ toLe 1 dp)).ckptLost p module dp 1

/-! ### The link layer (R303 to R308) -/

/-- A port leaves service for a fast retrain. -/
def Mach.retrainPort (m : Mach) (q : Nat) : Mach :=
  if m.portCount ≤ q ∨ !(m.port q).isUp then m
  else (m.updPort q fun p => { p with st := .retraining }).dadd 0x5001 0x15 1
/-- A port sends again what is not acknowledged, with the credits that it carried (the model's choice, log entry 80); at the thirty-second replay of the same flit in a row it retrains (R305, R308). -/
def Mach.replayPort (m : Mach) (q : Nat) : Mach :=
  let p := m.port q
  if p.replay.isEmpty || !p.isUp then m else
  let m := p.replay.foldl (fun m f => m.sendFlit q 1 false f) m
  let m := (m.updPort q fun p => { p with replays := p.replays + 1 }).dadd 0x5001 0x12 p.replay.length
  if 32 ≤ p.replays + 1 then m.retrainPort q else m
/-- A flit is discarded: one nak until the expected one arrives. -/
def Mach.nakPort (m : Mach) (q : Nat) : Mach :=
  if (m.port q).nakOut then m
  else (m.updPort q fun p => { p with nakOut := true }).putFlit q 2 0 true 0x1FF []
/-- Packets at the front of a byte stream: each whole packet is taken, what is not whole yet stays. A byte that begins no
packet is the unused rest of a flit. -/
def packetsOf : Nat → Bytes → List Packet × Bytes
  | 0, bs => ([], bs)
  | fuel + 1, bs =>
    let t := leAt bs 0 1
    if bs.isEmpty ∨ t = 0 ∨ 8 < t then ([], [])
    else
      let (typ, h, len) := hdrOf bs
      let e := if typ = ptColl ∨ typ = ptNotice then 32 else 0
      if bs.length < 32 + e + len then ([], bs)
      else
        let pk : Packet := ⟨typ, h, if e = 0 then none else some (extOf (bs.drop 32)), subBytes bs (32 + e) len⟩
        let (more, rest) := packetsOf fuel (bs.drop (32 + e + len))
        (pk :: more, rest)
/-- A flit that decoded and whose check holds. A data flit out of its turn is discarded, with the acknowledgement and the credits that
it carries: one taken already is acknowledged again, another is answered by a nak. A flit of a reserved type is discarded. -/
def Mach.takeFlit (m : Mach) (q : Nat) (bs : Bytes) : Mach :=
  let w := leAt bs 0 8
  let typ := fld w 3 0
  let ack := fld w 27 16
  let late := ((m.port q).rxSeq + 4096 - fld w 15 4) % 4096
  if 2 < typ then m
  else if typ = 1 ∧ fld w 15 4 ≠ (m.port q).rxSeq then
    (if late < 2048 then m.updPort q fun p => { p with ackOwed := true } else m.nakPort q)
  else
  -- acknowledgement, credits, nak
  let m := if !bitAt w 28 then m else m.updPort q fun p =>
    let left := p.replay.filter fun f => !((ack + 4096 - 1 - f.seq) % 4096 < 2048)
    { p with replay := left, replays := if left.length = p.replay.length then p.replays else 0 }
  let m := m.updPort q fun p => { p with credits := updAt p.credits (fld w 31 30) (· + fld w 47 32) }
  let m := if bitAt w 28 && bitAt w 29 then m.replayPort q else m
  if typ = 1 then
    let p := m.port q
    let first := fld w 56 48
    let body := subBytes bs 8 500
    let stream := if p.rxPart.isEmpty then (if first = 0x1FF then [] else body.drop first) else p.rxPart ++ body
    let (ps, rest) := packetsOf 32 stream
    let m := m.updPort q fun p => { p with
      rxSeq := (p.rxSeq + 1) % 4096, nakOut := false, rxPart := rest, ackOwed := true
      owed := ps.foldl (fun o pk => updAt o (packetClass pk.typ) (· + ceilDiv pk.toBytes.length 64)) p.owed }
    ps.foldl (fun m pk => m.rxPacket (some q) pk) m
  else m
/-- The four codewords that the symbols of a flit carry, each descrambled on its lane (R302, R304). -/
def Mach.lineCodewords (m : Mach) (q : Nat) (symbols : List (List Nat)) : Mach × List Bytes :=
  symbols.zipIdx.foldl (fun (a : Mach × List Bytes) x =>
    let p := a.1.port q
    let lane := x.2 % max 1 p.lanes
    let (bs, h) := lineIn (p.descram.getD lane 0) x.1
    (a.1.updPort q fun p => { p with descram := updAt p.descram lane fun _ => h }, a.2 ++ [bs])) (m, [])
/-- Four codewords have arrived at a port (R303, R305). -/
def Mach.rxCodewords (m : Mach) (q : Nat) (cws : List Bytes) : Mach :=
  let ds := cws.map rsDecode
  let fixed := ds.countP fun d => match d with | some x => x.2 != 0 | none => false
  let bad := ds.countP Option.isNone
  let m := (m.dadd 0x5001 0x13 fixed).dadd 0x5001 0x14 bad
  if bad ≠ 0 then m.nakPort q
  else
    let bs := ds.flatMap fun d => match d with | some x => x.1 | none => []
    if leAt bs 508 4 ≠ (crc32c (bs.take 508)).toNat ∨ fld (leAt bs 0 8) 63 57 ≠ 0 then m.nakPort q
    else m.takeFlit q bs
/-- The symbols of a flit have arrived at a port. -/
def Mach.rxFlit (m : Mach) (q : Nat) (symbols : List (List Nat)) : Mach :=
  if m.portCount ≤ q ∨ !(m.port q).isUp ∨ symbols.length ≠ 4 ∨ symbols.any (fun c => c.length != 544) then m else
  let (m, cws) := m.lineCodewords q symbols
  m.rxCodewords q cws

/-! ### Ports (R307, R308) -/

/-- A port is not up again in time (R308): what it held is dropped, and it trains from step 1. -/
def Mach.dropPort (m : Mach) (q : Nat) : Mach :=
  if m.portCount ≤ q ∨ (m.port q).st != .retraining then m
  else (m.updPort q fun p => { p with st := .training, lanes := 0, replay := [], queue := [], sending := [], ring := [], rxPart := [] }).fwEvent
    evPortDown (portDie m q) 0 (some (m.portPart q)) (toLe 1 q)
/-- A port has trained on a number of lanes and has learnt its peer. After a fast retrain its replay buffer stands, and what it holds
is replayed; the sequence numbers, the credits and the scramblers begin anew after a full training. -/
def Mach.portUp (m : Mach) (o : PortObs) : Mach :=
  let q := o.port
  let p := m.port q
  let full := o.lanes = m.portLanes
  if m.portCount ≤ q ∨ p.isUp ∨ !(m.die (portDie m q)).up ∨ !(full ∨ 2 * o.lanes = m.portLanes) then m
  else
    let again := p.st == .retraining
    let st : PortSt := if full then .up else .degraded
    let peer : Option (Nat × Nat × Nat) := some (o.module % 4096, o.part % 4, o.peer % 16)
    let m := m.updPort q fun p =>
      if again then { p with st := st, lanes := o.lanes, peer := peer, replays := 0 }
      else { st := st, lanes := o.lanes, peer := peer, credits := [0, 1, 2].map fun c => o.credits.getD c 0 }
    let m : Mach := { m with peers := mapSet m.peers (4096 * m.portPart q + o.module % 4096) q }
    let detail := toLe 1 q ++ toLe 1 o.lanes ++ toLe 2 (o.module % 4096) ++ toLe 1 (o.part % 4) ++ toLe 1 (o.peer % 16)
    let m := m.fwEvent evPortUp (portDie m q) 0 (some (m.portPart q)) detail
    let m := if full then m else m.fwEvent evPortDegraded (portDie m q) 0 (some (m.portPart q)) detail
    if again then m.replayPort q else m

end Sys2Proof.Machine
end

