-- ==== Sys2Proof/Machine/HostCmds.lean ====
section
/-! DEFINITION. Host commands: how one is fetched, what turns it away, and its work (R20 to R24, R33, R37, R50, R217, R218,
R265, R441, R455 to R464, R468, R484). -/

namespace Sys2Proof.Machine

/-! ### The module's state and the end of every command -/

/-- module_state (0x1001.01): 0 booting, 1 ready, 2 restricted, 3 Deep, 4 a die held in reset. -/
def Mach.moduleState (m : Mach) : Nat :=
  if m.power.stopAt = 3 then 0
  else if 2 ≤ m.power.deepSteps then 3
  else if m.restricted ≠ 0 then 2
  else if !m.power.ready then 0
  else if !(m.die 0).up || !(m.die 1).up then 4
  else 1

/-- The ring words of a freshly started pair. -/
def Mach.clearRings (m : Mach) : Mach :=
  (List.range 15).foldl (fun (m : Mach) k => m.dictPut (0x9121 + k) 1 (zeroBytes 32))
    { m with link := { m.link with rings := [] } }

/-- DETACH goes on once every other fetched command has completed and what can be written has been (R468). With the link
down nothing is written (R469). -/
def Mach.pumpDetach (m : Mach) : Mach :=
  match m.link.detaching with
  | none => m
  | some tag =>
    let others := m.link.cmds.any fun c => !(c.ring == 0 && c.tag == tag && c.kind == 0x3F)
    let told := !m.link.up || ((m.link.rings.all fun q => q.2.held.isEmpty)
      && (!m.link.enable || (m.evOut.isEmpty && m.link.evMiss.isNone)))
    if others || !told then m else
    let m := match m.hostCmd? 0 tag with
      | some h => m.finishHost h stOk 0
      | none => m
    let m := m.clearRings
    let m := { m with link := { m.link with
      enable := false, attached := false, badConfig := false, adminSq := 0, adminCq := 0, evRing := 0, sizes := 0
      touched := [], evTail := 0, evHead := 0, cmds := [], detaching := none } }
    let m := m.moEvent evHostDetached
    { m with link := { m.link with up := false, retraining := false, lanes := 0, detached := true, replay := [], hlWait := []
                                   replays := 0, rxSeq := 0, txSeq := 0, nakOut := false } }

/-! ### Fetching (R455, R456, R461) -/

/-- May the ring's next entry be fetched, and start: `grp` is the group that a stream command names (R41). A pair never has more
than 256 commands whose completions are still to be written, so that it never holds more than 256 (R456, log entry 84). -/
def Mach.fetchable (m : Mach) (h : HostHdr) (grp : Option Nat) : Bool :=
  let q := m.ring h.ring
  let mine := m.link.cmds.filter fun c => c.ring == h.ring
  h.ring < 16 && m.link.up && !m.link.retraining && m.link.detaching.isNone && m.ringLive h.ring
  && q.sqHead != q.sqTail && mine.length + q.held.length < 256
  && (!bitAt h.flags.toNat 1 || mine.isEmpty)
  && (match grp with
      | none => true
      | some g => mine.all fun c => !((c.kind == 0x25 || c.kind == 0x27 || c.kind == 0x2B) && c.part == h.partition
          && c.extra.getD 0 0 == g))

/-- The entry is fetched. -/
def Mach.fetch (m : Mach) (h : HostHdr) (kind : Nat) : Mach × HostCmd :=
  let c : HostCmd := { ring := h.ring, tag := h.tag, kind := kind, part := h.partition
                       signal := if bitAt h.flags.toNat 0 then some h.signal.toNat else none }
  let m := m.updRing h.ring fun q => { q with sqHead := (q.sqHead + 1) % m.sqSize h.ring }
  ({ m with link := { m.link with cmds := m.link.cmds ++ [c] } }, c)

/-- Is some reserved field nonzero, or the signal named not one of the partition's (R278, R457)? -/
def Mach.badEntry (m : Mach) (h : HostHdr) : Bool :=
  fld h.flags.toNat 7 2 != 0 || h.byte5 != 0 || h.resv || fld h.signal.toNat 15 13 != 0
  || (bitAt h.flags.toNat 0 && (extCtr m.mode h.partition h.signal.toNat).isNone)

/-- Is the partition the ring's, and one that exists (R457, R469)? -/
def Mach.entryPartOk (m : Mach) (h : HostHdr) : Bool :=
  m.partOk h.partition && (h.ring == 0 || m.ringPart h.ring == h.partition)

/-- What turns a fetched command away before its own checks (R414, R423, R441, R457, R460, R484). -/
def Mach.hostGate (m : Mach) (h : HostHdr) (dictionary : Bool) : Option Nat :=
  if !m.entryPartOk h then some stBounds
  else if h.fault = .input then some stHostFault
  else if m.badEntry h then some stBadCommand
  else if dictionary then none
  else if m.power.deepSteps ≠ 0 then some stBusy
  else if m.moduleState = 0 then some stBusy
  else if m.moduleState = 2 then some stBadState
  else none

/-- A host command: fetched, gated, then its work. A command that may not be fetched yet leaves everything as it is. -/
def Mach.hostRun (m : Mach) (h : HostHdr) (kind : Nat) (grp : Option Nat) (dictionary : Bool)
    (body : HostCmd → Mach → Mach) : Mach :=
  if !m.fetchable h grp then m else
  let (m, c) := m.fetch h kind
  match m.hostGate h dictionary with
  | some st => m.finishHost c st 0
  | none => body c m

/-- A command whose work is done when it is fetched: a status, a result, the machine. A fault of the host's output leaves
what has been done in place (R484). -/
def Mach.hostNow (m : Mach) (h : HostHdr) (kind : Nat) (grp : Option Nat) (f : Mach → Nat × Nat × Mach) : Mach :=
  m.hostRun h kind grp false fun c m =>
    let (st, res, m) := f m
    if h.fault = .output then m.finishHost c stHostFault 0 else m.finishHost c st res

/-- Write bytes to host memory, at most 4,096 at a time (R453). -/
def Mach.toHost (m : Mach) (a : Nat) (bs : Bytes) : Mach :=
  (List.range (ceilDiv bs.length 4096)).foldl (fun m k =>
    m.hostWrite (a + 4096 * k) ((bs.drop (4096 * k)).take 4096)) m

/-! ### Handles (R20 to R24, R102, R224, R265) -/

/-- Is the handle one that the partition's table holds? -/
def Mach.handleOk (m : Mach) (p h : Nat) : Bool := h != 0 && h < m.dnum (0x2010 + p) 1

/-- R87, R157 and R224 on the words of a descriptor. -/
def descMoreOk (d : HDesc) : Bool :=
  let n := 16 * 2 ^ d.rotSize
  let x := d.ext.get d.redAxis
  (d.rotSize == 0 || (d.tile.get d.redAxis % n == 0 && x % n == 0))
  && (d.hotLimit == 0 || x ≤ 1048576)
  && (d.layer < 4096 || d.layer == 0xFFFF) && (d.cls != 5 || tableDescOk d)

/-- Tiers in the order of the static rule (R265): the class's own, then the other. -/
def placeOrder (cls : Nat) : List Tier := if cls = 5 then [.lp, .hbm] else [.hbm, .lp]

/-- Bytes that table tiles of a partition take of the HBM, those on their way there included (R240). -/
def Mach.cacheUsed (m : Mach) (p : Nat) : Nat :=
  let inHbm (a : Nat) : Bool := match tierOf a with | some (.hbm, _) => true | _ => false
  ((m.tensors.filter fun t => t.part == p && t.desc.cls == 5).map fun t =>
    (t.ranges.filter fun r => inHbm r.1).foldl (fun a r => a + r.2) 0
    + (t.marks.map fun q =>
        (match q.2.home with | some a => if inHbm a then t.stride else 0 | none => 0)
        + (match q.2.migrating with | some a => if inHbm a then t.stride else 0 | none => 0)).sum).sum
/-- Records of a table that the cache area can still take (R240, R264). -/
def Mach.cacheLeft (m : Mach) (p stride : Nat) : Nat := (m.dnum (0x2048 + p) 1 * 1048576 - m.cacheUsed p) / max 1 stride
/-- Places for a tensor's tiles `first`, `first + step`, …, `n` of them, in the tiers in turn (R265): none where there is no room. In
mode 1 `die` names their die, and where both tiers of it are full they go to the other die's part of the region (DESIGN CHOICE, log
entry 6). A table's tiles take no more of the HBM than the cache may. -/
def Mach.placeRuns (m : Mach) (p : Nat) (d : HDesc) (stride first step n : Nat) (die : Option Nat) : Option (List Run) :=
  let dies : List (Option Nat) := match die with | some x => [some x, some (1 - x)] | none => [none]
  let got := (dies.flatMap fun x => (placeOrder d.cls).map fun t => (x, t)).foldl (fun (a : Nat × List Run) w =>
    let t := w.2
    let most := if d.cls = 5 ∧ t = .hbm then min (n - a.1) (m.cacheLeft p stride) else n - a.1
    (m.rooms p t w.1 stride (if d.cls = 5 then 48 else 0) most).foldl (fun (a : Nat × List Run) q =>
      (a.1 + q.2, a.2 ++ [⟨first + step * a.1, step, q.2, q.1⟩])) a) (0, [])
  if got.1 < n then none else some got.2
/-- Place a tensor's tiles: in mode 1 even ones on die 0, odd ones on die 1. -/
def Mach.placeTensor (m : Mach) (p : Nat) (d : HDesc) : Option Tensor :=
  let n := d.tileCount
  let stride := roundUp (tileBytes d.fmt (geomOf d ⟨0, 0, 0, 0⟩) d.hotLimit) 64
  let made (rs : List Run) : Tensor := { part := p, handle := d.handle, desc := d, hist := none, runs := rs, stride := stride }
  if m.mode = 1 then
    (m.placeRuns p d stride 0 2 ((n + 1) / 2) (some 0)).bind fun a =>
      (({ m with tensors := m.tensors ++ [made a] } : Mach).placeRuns p d stride 1 2 (n / 2) (some 1)).map fun b => made (a ++ b)
  else (m.placeRuns p d stride 0 1 n none).map made

/-- Release a tensor: its memory, its placement and its history record. -/
def Mach.freeHandle (m : Mach) (p h : Nat) : Mach :=
  if (m.tensor? p h).isNone then m else
  ({ m with tensors := m.tensors.filter fun t => !(t.part == p && t.handle == h) } : Mach).syncHandle p h

/-- A new tensor, cold, with a history record where R102 gives it one. None: there is no room. -/
def Mach.newTensor (m : Mach) (p : Nat) (d : HDesc) : Option Mach :=
  (m.placeTensor p d).bind fun t =>
    let place := (Config.placeMap p d.handle).toNat
    let t := { t with desc := { d with placeMap := place, placeGen := 0, histAddr := 0 } }
    if d.fmt.isBlock && !d.fixedScale then
      let hist := Hist.fresh (if d.hotLimit = 0 then 0 else d.ext.get d.redAxis)
      let m1 : Mach := { m with tensors := m.tensors ++ [t] }
      (([.hbm, .lp] : List Tier).findSome? fun x => m1.room p x none (histLen hist.chanCount) 0).map fun a =>
        ({ m with tensors := m.tensors ++ [{ t with desc := { t.desc with histAddr := a } }] } : Mach).setHist p d.handle hist
    else some (({ m with tensors := m.tensors ++ [t] } : Mach).syncHandle p d.handle)

def Mach.handleWrite (m : Mach) (p handle : Nat) (ws : List Nat) : Nat × Nat × Mach :=
  let d := HDesc.ofWords ws
  if !m.handleOk p handle then (stBadDescriptor, 0, m)
  else if m.handleBusy p handle then (stHandleBusy, 0, m)
  else if !(descOk handle ws && descMoreOk d) then (stBadDescriptor, 0, m)
  else match (m.freeHandle p handle).newTensor p d with
    | some m' => (stOk, 0, m')
    | none => (stNoSpace, 0, m)

def Mach.handleRead (m : Mach) (p handle addr : Nat) (fault : Bool) : Nat × Nat × Mach :=
  if !m.handleOk p handle then (stBadDescriptor, 0, m)
  else
    let ws := match m.tensor? p handle with | some t => t.words | none => List.replicate 8 0
    (stOk, 0, if fault then m else m.toHost addr (bytesOf ws))

def Mach.handleFree (m : Mach) (p handle : Nat) : Nat × Nat × Mach :=
  if !m.handleOk p handle then (stBadDescriptor, 0, m)
  else if m.handleBusy p handle then (stHandleBusy, 0, m)
  else (stOk, 0, m.freeHandle p handle)

/-! ### Programs and groups (R33, R37, R50) -/

def Mach.programUnload (m : Mach) (p n : Nat) : Nat × Nat × Mach :=
  match m.progs.find? fun q => q.num == n with
  | none => (stBadState, 0, m)
  | some q =>
    if q.part ≠ p then (stBounds, 0, m)
    else if m.ctxs.any fun c => c.st != .free && c.part == p && c.prog == n then (stBadState, 0, m)
    else (stOk, 0, { m with progs := m.progs.filter fun q => q.num != n })

def groupKindOf : Nat → Option GroupKind
  | 0 => some .training | 1 => some .inference | 2 => some .general | _ => none

def Mach.groupCreate (m : Mach) (p g kind : Nat) (seed first rpt : Nat) : Nat × Nat × Mach :=
  match groupKindOf kind with
  | none => (stBadCommand, 0, m)   -- the model's choice of status for a kind above 2 (log entry 71)
  | some k =>
    if (m.group? p g).isSome then (stBadState, 0, m)
    else
      let x : Group := { part := p, num := g, kind := k, seed := seed, first := first, rpt := rpt, step := first }
      (stOk, 0, { m with groups := m.groups ++ [x] })

/-- PAUSE and STOP: begun when no round is under way, complete when the operations in flight have (R207). -/
def Mach.slowGroup (m : Mach) (h : HostHdr) (kind g : Nat) : Mach :=
  m.hostRun h kind (some g) false fun c m =>
    if h.fault = .output then m.finishHost c stHostFault 0
    else if (m.group? h.partition g).isNone then m.finishHost c stBadState 0
    else
      let mark (k : HostCmd) : HostCmd :=
        if k.ring == c.ring && k.tag == c.tag && k.kind == kind then { k with extra := [g, 0] } else k
      ({ m with link := { m.link with cmds := m.link.cmds.map mark } } : Mach).pumpGroupCmds

/-! ### Work that takes time: checked at the fetch, finished by COMMAND_COMPLETE (R456) -/

/-- Change a fetched command's record. -/
def Mach.keepCmd (m : Mach) (c : HostCmd) (f : HostCmd → HostCmd) : Mach :=
  { m with link := { m.link with
    cmds := m.link.cmds.map fun k => if k.ring == c.ring && k.tag == c.tag && k.kind == c.kind then f k else k } }

/-- A host command that stays fetched until its completion; `f` answers a status that ends it at once, or what to keep. `grp` is
the group it names (R41). -/
def Mach.hostSlow (m : Mach) (h : HostHdr) (kind : Nat) (grp : Option Nat)
    (f : Mach → Except (Nat × Nat × Mach) (HostCmd → HostCmd)) : Mach :=
  m.hostRun h kind grp false fun c m =>
    match f m with
    | .error (st, res, m) => m.finishHost c st res
    | .ok keep => m.keepCmd c keep

/-- The module range of a DMA: a physical range, or a tile's record with an offset (R462). An offset in tile mode that is
no multiple of 16 is out of range like one beyond the record. -/
def Mach.dmaRange (m : Mach) (p : Nat) (tile : TileRef) (mode off len : Nat) :
    Except (Nat × Nat × Mach) (Option (Nat × Nat)) :=
  if mode = 0 then
    match m.tensor? p tile.handle with
    | none => .error (stBadDescriptor, 0, m)
    | some t =>
      if !m.handleOk p tile.handle || !refInRange t.desc tile then .error (stBadDescriptor, 0, m)
      else
        let k := refTile t.desc tile
        if off % 16 ≠ 0 || t.tileLen k < off + len then .error (stBounds, 0, m)
        else if len != 0 && !m.inBounds p (t.tileAddr k + off) len then
          .error (stBounds, 0, m.boundsFault p (t.tileAddr k + off) len 2)
        else .ok (some (tile.handle, k))
  else if mode = 1 then
    if len = 0 || m.inBounds p off len then .ok none
    else .error (stBounds, 0, m.boundsFault p off len 2)
  else .error (stBadCommand, 0, m)

/-- Read the module range of a DMA: the bytes and where they are poisoned, as an offset in them. -/
def Mach.dmaFetch (m : Mach) (p : Nat) (c : HostCmd) (n : Nat) : Mach × Bytes × Option Nat :=
  match c.tile with
  | some r =>
    match m.tensor? p r.handle with
    | none => (m, [], some 0)
    | some t =>
      let k := refTile t.desc r
      let base := t.tileAddr k + c.off
      let (m, bs, bad) := m.readTilePart 2 p r.handle k c.off n
      (m, bs, bad.map fun a => if a < base then 0 else a - base)
  | none =>
    let (m, bs, bad) := m.readRaw 2 c.off n
    (m, bs, bad.map fun a => if a < c.off then 0 else a - c.off)

/-- Write bytes of a DMA's module range. A codeword that it covers in part and finds damaged stays poisoned (R259); the DMA
has not read it (R260). -/
def Mach.dmaStore (m : Mach) (p : Nat) (c : HostCmd) (bs : Bytes) : Mach :=
  match c.tile with
  | some r => m.writeTilePart 2 p r.handle (match m.tensor? p r.handle with | some t => refTile t.desc r | none => 0) c.off bs
  | none => m.writeRaw 2 c.off bs

/-- Where a DMA's module range begins. -/
def Mach.dmaAddr (m : Mach) (c : HostCmd) : Nat :=
  match c.tile with
  | some r => (match m.tensor? c.part r.handle with
    | some t => t.tileAddr (refTile t.desc r) + c.off
    | none => 0)
  | none => c.off
/-- The bytes of a DMA's destination that it had not finished are undefined (R462). -/
def Mach.dmaLost (m : Mach) (c : HostCmd) (done : Nat) : Mach :=
  let (m, junk) := m.freeBytes (c.len - done)
  m.storeAt (m.dmaAddr c + done) junk

/-- A DMA ends: all of it, or as far as a fault let it come; it waits while the link retrains (R467) and while a channel of its range
serves nothing or a die on its way is in reset (R271, R275, R421). The link is die 0's, so sectors of die 1's memory cross the
Seam (R12). -/
def Mach.dmaEnd (m : Mach) (c : HostCmd) (fault : Bool) (done : Nat) : Mach :=
  let n := if fault then min done c.len else c.len
  match m.dmaRange c.part (c.tile.getD ⟨0, 0, 0, 0, 0⟩) (if c.tile.isSome then 0 else 1) c.off c.len with
  | .error (st, _, m) => m.finishHost c st 0
  | .ok _ =>
  if m.link.retraining then m
  else if c.len = 0 then m.finishHost c (if fault then stHostFault else stOk) 0
  else if !m.hostServed c.part (m.dmaAddr c) c.len then m
  else
  let m := m.farCount 0 (m.dmaAddr c) n
  if c.kind = 0x30 then
    let m := (m.dmaStore c.part c (c.data.take n)).dadd 0x9101 0x14 n
    if fault then (m.dmaLost c n).finishHost c stHostFault 0 else m.finishHost c stOk n
  else
    let (m, bs, bad) := m.dmaFetch c.part c n
    let good := match bad with | some b => min b n | none => n
    let m := (m.toHost c.addr (bs.take good)).dadd 0x9101 0x14 good
    if bad.isSome then m.finishHost c stPoison 0
    else if fault then m.finishHost c stHostFault 0 else m.finishHost c stOk n

/-- PROGRAM_LOAD is checked whole when it completes, in the order of R33; it waits while its place serves nothing (R275, R421). -/
def Mach.loadEnd (m : Mach) (c : HostCmd) (fault : Bool) : Mach :=
  if fault then m.finishHost c stHostFault 0 else
  match m.loadCheck c.part c.len c.data with
  | .bad st res => m.finishHost c st res
  | .ok k lvl ops =>
    let n := m.nextProg
    let a := (m.programRoom c.part c.len).getD 0
    if !m.hostServed c.part a c.len then m else
    let m := m.farCount 0 a c.len
    let q : Program := { part := c.part, num := n, kind := k, level := lvl, bytes := c.len, ops := ops, addr := a }
    let copies := (ops.filter fun o => o.kind == .update).map fun o => (o.ref 2).handle
    let m := { m with progs := m.progs ++ [q], nextProg := (n + 1) % 2 ^ 32
                      tensors := m.tensors.map fun t => if t.part == c.part && copies.contains t.handle then { t with copy := true } else t }
    ((m : Mach).putIn c.part 2 a (c.data.take c.len)).finishHost c stOk n

/-- Is a hosted slot in state 1 (R214, R217)? -/
def Mach.slotWriting (m : Mach) (x : HostedSlot) : Bool := m.areaByte x.places 1 == 1
/-- CKPT_READ ends: the slot's bytes, as many as the buffer takes; it waits while a place of them serves nothing (R275, R421). -/
def Mach.ckptReadEnd (m : Mach) (c : HostCmd) (fault : Bool) (done : Nat) : Mach :=
  match m.hostedSlot (c.extra.getD 0 0) (c.extra.getD 1 0) (c.extra.getD 2 0) (some c.part) with
  | none => m.finishHost c stBadState 0
  | some x =>
    if m.slotWriting x then m.finishHost c stBadState 0 else
    let n := min c.len x.size
    let at' := areaPart x.places 0 n
    if !m.areaServed c.part at' then m else
    let (m, bs, bad) := (m.farArea 0 at').collect 2 at'
    let good := match bad with | some o => min n o | none => n
    if fault then (m.toHost c.addr (bs.take (min done good))).finishHost c stHostFault 0
    else if bad.isSome then (m.toHost c.addr (bs.take good)).finishHost c stPoison 0
    else (m.toHost c.addr bs).finishHost c stOk n

/-- May a slot be restored into a group: it exists and its contexts are all BOUND (R217)? -/
def Mach.restoreReady (m : Mach) (p g : Nat) : Bool :=
  (m.group? p g).isSome && (m.ctxsOf p g).all fun c => (m.ctx c).st == .bound

/-- A restore that the host cut short: the group's tensors, records, slots and schedules hold undefined values (R484). -/
def Mach.spoilGroup (m : Mach) (p g : Nat) : Mach :=
  let m := (m.stateHandles p g).foldl (fun m h =>
    match m.tensor? p h with
    | none => m
    | some t => (List.range t.desc.tileCount).foldl (fun m k =>
        let (m, bs) := m.freeBytes (t.tileLen k)
        m.writeTile 2 p h k bs) m) m
  let m := (m.groupHists p g).foldl (fun m q =>
    let (m, bs) := m.freeBytes (histLen q.2.chanCount)
    m.setHist p q.1 { Hist.ofBytes bs with chanCount := q.2.chanCount }) m
  let m := (List.range 16).foldl (fun m k =>
    let (m, a) := m.freeBytes 64
    let (m, b) := m.freeBytes 16
    (m.dictPut (0x4130 + p) (1 + k) a).dictPut (0x4130 + p) (0x21 + k) b) m
  let (m, ls) := m.freeBytes (8 * m.groupLayers p g)
  let (m, rs) := m.freeBytes (16 * m.groupLayers p g)
  m.updGroup p g fun x => { x with ladder := ladderOf ls, carry := ladderLocal ls, ratios := ratioOfBytes rs }

/-- Where the tiles lie that a restore writes, with their bytes. -/
def Mach.restoredTiles (m : Mach) (p g : Nat) : List (Nat × Nat) :=
  (m.stateHandles p g).flatMap fun h => match m.tensor? p h with
    | some t => (List.range t.desc.tileCount).map fun k => (t.tileAddr k, t.tileLen k)
    | none => []
def Mach.restoreServed (m : Mach) (p g : Nat) : Bool := m.areaServed p (m.restoredTiles p g)
/-- CKPT_RESTORE ends. A slot of a step before the group's first makes that step its first: repetitions are numbered from
there. It waits while a place that it reads or writes serves nothing (R275, R421). A slot that is not hosted gives BAD_CHECKPOINT (the
model's choice, log entry 75). -/
def Mach.restoreEnd (m : Mach) (c : HostCmd) (fault : Bool) : Mach :=
  let p := c.part
  let g := c.extra.getD 0 0
  if fault && c.extra.getD 1 0 == 0 then (m.spoilGroup p g).finishHost c stHostFault 0
  else if !m.restoreReady p g then m.finishHost c stBadState 0
  else
    let got : Mach × Option Bytes :=
      if c.extra.getD 1 0 = 0 then (m, some c.data)
      else match m.hostedSlot (c.extra.getD 3 0) (c.extra.getD 4 0) (c.extra.getD 2 0) none with
        | none => (m, none)
        | some x =>
          let (m, bs, bad) := (m.farArea (partDie m.mode p) x.places).collect 2 x.places
          (m, if bad.isSome then none else some bs)
    if !m.restoreServed p g || !(match m.hostedSlot (c.extra.getD 3 0) (c.extra.getD 4 0) (c.extra.getD 2 0) none with
      | some x => c.extra.getD 1 0 = 0 || m.areaServed p x.places
      | none => true) then m else
    match got with
    | (m, none) => m.finishHost c stBadCheckpoint 0
    | (m, some bs) =>
      if !m.slotOk p bs then m.finishHost c stBadCheckpoint 0
      else if leAt bs 24 4 ≠ m.level then m.finishHost c stNumerics 0
      else
        let die := if c.extra.getD 1 0 = 0 then 0 else partDie m.mode p
        let m := m.applySlot p g bs
        let m := (m.restoredTiles p g).foldl (fun m q => m.farCount die q.1 q.2) m
        (m.updGroup p g fun x => { x with first := min x.first x.step }).finishHost c stOk 0

/-- COMMAND_COMPLETE: work that took time is done, or met a host fault after `done` bytes. -/
def Mach.commandDone (m : Mach) (ring : Nat) (tag : Half) (fault : Bool) (done : Nat) : Mach :=
  match m.hostCmd? ring tag with
  | none => m
  | some c =>
    if c.kind = 0x30 ∨ c.kind = 0x31 then m.dmaEnd c fault done
    else if c.kind = 0x20 then m.loadEnd c fault
    else if c.kind = 0x2A then m.ckptReadEnd c fault done
    else if c.kind = 0x2B then m.restoreEnd c fault
    else m

/-! ### Waits, time, detaching (R463, R464, R468) -/

/-- WAIT: refused at once, or posted. -/
def Mach.hostWait (m : Mach) (h : HostHdr) (ctr : Half) (count timeout : Nat) : Mach :=
  m.hostRun h 0x33 none false fun c m =>
    if h.fault = .output then m.finishHost c stHostFault 0
    else if timeout = 0 ∨ 600000 < timeout then m.finishHost c stBadCommand 0
    else match extCtr m.mode h.partition ctr.toNat with
      | none => m.finishHost c stBadCommand 0
      | some (d, i) =>
        if count = 0 ∨ 255 < count then (m.refuseWait d i).finishHost c stWaitRefused 0
        else m.postWait d i ⟨.host h.ring h.tag, count⟩

/-- The timeout of a host wait expires. -/
def Mach.hostWaitExpire (m : Mach) (ring : Nat) (tag : Half) : Mach :=
  match m.hostCmd? ring tag with
  | none => m
  | some c => if c.kind = 0x33 then (m.dropWaits (.host ring tag)).finishHost c stTimeout 0 else m

/-- The counter of a die as it is read from outside: a die in reset reports 0. -/
def Mach.dieTime (m : Mach) (d : Nat) : Nat := if (m.die d).up then (m.die d).time else 0

def Mach.timeExchange (m : Mach) (host addr : Nat) (fault : Bool) : Nat × Nat × Mach :=
  (stOk, 0, if fault then m
    else m.toHost addr (toLe 8 host ++ toLe 8 (m.dieTime 0) ++ toLe 8 (m.dieTime 1) ++ toLe 8 m.power.aoMs))

/-- DETACH: fetching stops on every ring and pending waits complete with ABORTED. -/
def Mach.detach (m : Mach) (h : HostHdr) : Mach :=
  m.hostRun h 0x3F none false fun c m =>
    if h.ring ≠ 0 then m.finishHost c stBadCommand 0 else
    let m := { m with link := { m.link with detaching := some h.tag } }
    (m.link.cmds.filter fun k => k.kind == 0x33).foldl (fun m k =>
      (m.dropWaits (.host k.ring k.tag)).finishHost k stAborted 0) m

end Sys2Proof.Machine
end

