-- ==== Sys2Proof/Machine/MemService.lean ====
section
/-! DEFINITION. The planner and the memory service: migration, ranking, cold counters, draining, fencing, patrol,
recalibration, margining; the states a station instance can be put in (R46, R240, R241, R261 to R275, R293, R412, R413). -/

namespace Sys2Proof.Machine

/-! ### Idle partitions (R46) -/

/-- Is a packet on its way part of a transfer in flight? One to an endpoint that can not be reached is not, nor is one of a collective
group that has lost a member, or of a generation that has passed: the watchdog has ended what they were for (R311, R330, R331). -/
def Mach.flying (m : Mach) (f : TxFlow) (pk : Packet) : Bool :=
  match pk.ext with
  | some e => m.dnum (0x5100 + e.cgroup) 2 != 2 && e.generation == leAt (m.cgRec e.cgroup) 10 2
      && e.defTag == defTag (m.cgRec e.cgroup)
  | none => !m.unreach.contains (f.module, f.dpart)
/-- Is the partition idle: no stream RUNNING or WAITING, no DMA and no Pontil transfer in flight, sent or received? A checkpoint
on its way to the buddy is such a transfer. -/
def Mach.partIdle (m : Mach) (p : Nat) : Bool :=
  (allIdx m.ctxs fun c x => !ctxOwned m.mode p c || (x.st != .running && x.st != .waiting))
  && (m.link.cmds.all fun c => c.part != p || !(c.kind == 0x30 || c.kind == 0x31))
  && (m.tx.all fun f => f.part != p || !f.unacked.any (m.flying f)) && (m.rx.all fun f => f.dpart != p || f.desc.isEmpty)
  && m.ckpts.all fun k => k.part != p
/-- Is every partition of the mode idle? -/
def Mach.allIdle (m : Mach) : Bool := (List.range m.mode).all m.partIdle

/-! ### Migration (R266, R267) -/

/-- Is the tile the destination of a transfer that has come in in part (R311, R315)? -/
def Mach.tileInbound (m : Mach) (p h k : Nat) : Bool :=
  m.rx.any fun x => x.dpart == p && !x.desc.isEmpty && !x.refused &&
    match FabDesc.ofBytes true x.desc, m.tensor? p h with
    | some d, some t =>
      if d.mode = 1 then t.tileAddr k ≤ d.offset && d.offset < t.tileAddr k + t.tileLen k
      else d.handle == h && refTile t.desc ⟨d.handle, d.coord.d0, d.coord.d1, d.coord.d2, d.coord.d3⟩ == k
    | _, _ => false
/-- Is the tile read or written by an operation in flight, by a DMA or by an inbound transfer? -/
def Mach.tileBusy (m : Mach) (p h k : Nat) : Bool :=
  (m.ctxs.any fun x => x.part == p && x.flights.any fun f =>
    match (match m.prog? x.part x.prog with | some q => q.ops | none => [])[f.op]? with
    | some o => (m.touches p o).any fun w => w.1 == h && (w.2 == none || w.2 == some k)
    | none => false)
  || m.link.cmds.any fun c => c.part == p && (c.kind == 0x30 || c.kind == 0x31) &&
    (match c.tile, m.tensor? p h with
     | some r, some t => r.handle == h && refTile t.desc r == k
     | none, some t => c.off < t.tileAddr k + t.tileLen k && t.tileAddr k < c.off + c.len
     | _, none => false)
  || m.tileInbound p h k

/-- Copy a tile to its new place with corrected data, poison preserved, and switch the tile to the copy. -/
def Mach.switchTile (m : Mach) (p h k : Nat) : Mach :=
  match m.tensor? p h with
  | none => m
  | some t =>
    match (t.mark k).migrating with
    | none => m
    | some dst =>
      let a := t.tileAddr k
      let n := t.tileLen k
      let (m, bad) := m.copyBytes 4 a dst n
      let go (x : TileMark) : TileMark :=
        let x := { x with migrating := none, copied := false, poisoned := x.poisoned || bad.isSome }
        if x.place.isSome then { x with place := some dst }
        else { x with home := if dst = t.regular k then none else some dst }
      let m := m.updTensor p h fun t =>
        ({ t with desc := { t.desc with placeGen := (t.desc.placeGen + 1) % 65536 } } : Tensor).setMark k go
      (m.syncHandle p h).dadd 0x6001 0x10 1

/-- Do the channels of a tile's place and of the place it moves to serve requests? -/
def Mach.moveServed (m : Mach) (p h k : Nat) : Bool :=
  match m.tensor? p h with
  | some t => (match (t.mark k).migrating with
    | some a => m.memUp (t.tileAddr k) (t.tileLen k) && m.memUp a (t.tileLen k)
    | none => true)
  | none => true
/-- Switch every tile whose copy is complete and that stands at a tile-epoch boundary; a hold of either channel delays it (R267). -/
def Mach.pumpSwitch (m : Mach) : Mach :=
  (m.tensors.flatMap fun t => (t.marks.filter fun q => q.2.copied && q.2.migrating.isSome).map fun q =>
      (t.part, t.handle, q.1)).foldl (fun m w =>
    if m.tileBusy w.1 w.2.1 w.2.2 || !m.moveServed w.1 w.2.1 w.2.2 then m else m.switchTile w.1 w.2.1 w.2.2) m

/-- MIGRATION_COPY_DONE: the copy is complete. -/
def Mach.copyDone (m : Mach) (p h k : Nat) : Mach :=
  match m.tensor? p h with
  | none => m
  | some t =>
    if (t.mark k).migrating.isSome
    then (m.updTensor p h fun t => t.setMark k fun x => { x with copied := true }).pumpSwitch
    else m

/-- Does the channel hold part of [a, a + n)? -/
def Mach.inChan (m : Mach) (c : Chan) (a n : Nat) : Bool :=
  (m.units a n).any fun x => match memUnitOf m.fineMode x with
    | some u => u.chan? == some c
    | none => false
/-- Is some channel of [a, a + n) announced or held for recalibration? -/
def Mach.recalNear (m : Mach) (a n : Nat) : Bool :=
  (m.units a n).any fun x => match memUnitOf m.fineMode x with
    | some u => (match u.chan? with
      | some c => m.bit .memc c.die c.memc 4 1 || m.bit .memc c.die c.memc 4 2
      | none => false)
    | none => false

/-- Room for a tile's record on a die of a tier: a tile charged to the fall-back reserve stays within it (R264), a table's within
what the cache may take of the HBM (R240). -/
def Mach.tileRoom (m : Mach) (p : Nat) (x : Tensor) (k : Nat) (t : Tier) (die : Nat) : Option Nat :=
  let n := x.placeLen k
  if (x.mark k).charged then m.reserveRoom p n
  else if x.desc.cls = 5 ∧ t = .hbm ∧ m.cacheLeft p n = 0 then none
  else m.room p t (if m.mode = 1 then some die else none) n (if x.desc.cls = 5 then 48 else 0)
/-- Begin to move a tile to an address, unless a recalibration is near (R271). -/
def Mach.moveTo (m : Mach) (p h k a : Nat) : Option Mach :=
  match m.tensor? p h with
  | none => none
  | some x =>
    if m.recalNear a (x.placeLen k) || m.recalNear (x.tileAddr k) (x.tileLen k) then none else
    some (m.updTensor p h fun x => x.setMark k fun y => { y with migrating := some a, copied := false })
/-- Begin to move a tile to a tier, in mode 1 to the die given. -/
def Mach.startMove (m : Mach) (p h k : Nat) (t : Tier) (die : Nat) : Option Mach :=
  match m.tensor? p h with
  | none => none
  | some x => if (x.mark k).migrating.isSome then none else (m.tileRoom p x k t die).bind (m.moveTo p h k)

/-! ### Once per second (R240, R241, R264, R265) -/

def Mach.isWarm (m : Mach) (p : Nat) : Bool := m.warm.contains p
def Mach.tileTier (m : Mach) (t : Tensor) (k : Nat) : Tier × Nat :=
  match tierOf (t.tileAddr k) with
  | some (.cru, d) => (.hbm, d)
  | some x => x
  | none => (.hbm, partDie m.mode t.part)

/-- The table tiles of a partition: handle, tile, counter, bytes, cached; the highest counters first. -/
def Mach.tableTiles (m : Mach) (p : Nat) : List (Nat × Nat × Nat × Nat × Bool) :=
  let all := (sortBy (fun (t : Tensor) => t.handle) (m.tensors.filter fun t => t.part == p && t.desc.cls == 5)).flatMap fun t =>
    (List.range t.desc.tileCount).map fun k =>
      (t.handle, k, (t.mark k).count, t.tileLen k, (m.tileTier t k).1 == .hbm)
  sortBy (fun q => 2 ^ 24 - q.2.2.1) all

/-- The table tiles that belong in the cache: the highest ranked, as many as it takes. -/
def cacheSet (room : Nat) : List (Nat × Nat × Nat × Nat × Bool) → List (Nat × Nat)
  | [] => []
  | q :: qs => if q.2.2.2.1 ≤ room then (q.1, q.2.1) :: cacheSet (room - q.2.2.2.1) qs else []

/-- A move wanted: partition, handle, tile, tier, die, bytes, and the cost saved per byte moved, which is less than nothing for a
displaced tile. -/
structure Move where
  part   : Nat
  handle : Nat
  tile   : Nat
  tier   : Tier
  die    : Nat
  bytes  : Nat
  gain   : Int
  deriving DecidableEq, Repr

/-- Ten times w_tier × Σ n_d × far_cost (R264, R274): the cost of a byte. -/
def unitCost (t : Tier) (die n0 n1 : Nat) : Nat :=
  (match t with | .lp => 9 | _ => 1) * (if die = 0 then 10 * n0 + 24 * n1 else 24 * n0 + 10 * n1)
/-- The place of the least cost for a tile on the dies of the partition: in the tier that the ranking of R241 gives the tile of a
table, in either for another. Its own place comes first. -/
def Mach.bestPlace (m : Mach) (t : Tensor) (k : Nat) (tiers : List Tier) : Tier × Nat :=
  let x := t.mark k
  let here := m.tileTier t k
  let dies := if m.mode = 1 then [here.2, 1 - here.2] else [here.2]
  let cands := tiers.flatMap fun t => dies.map fun d => (t, d)
  let first := if tiers.contains here.1 then here else cands.headD here
  cands.foldl (fun b c => if unitCost c.1 c.2 x.near0 x.near1 < unitCost b.1 b.2 x.near0 x.near1 then c else b) first
/-- The moves that a partition's tiles would make: table tiles into and out of the cache and between dies, other tiles where that
saves cost. -/
def Mach.candidates (m : Mach) (p : Nat) : List Move :=
  let keep := cacheSet (m.dnum (0x2048 + p) 1 * 1048576) (m.tableTiles p)
  (m.tensors.filter fun t => t.part == p).flatMap fun t => (List.range t.desc.tileCount).filterMap fun k =>
    let x := t.mark k
    if x.charged || x.migrating.isSome then none else
    let here := m.tileTier t k
    let tiers : List Tier := if t.desc.cls = 5 then [if keep.contains (t.handle, k) then .hbm else .lp] else [.hbm, .lp]
    let best := m.bestPlace t k tiers
    if best = here then none else
    some { part := p, handle := t.handle, tile := k, tier := best.1, die := best.2, bytes := t.tileLen k
           gain := (unitCost here.1 here.2 x.near0 x.near1 : Int) - unitCost best.1 best.2 x.near0 x.near1 }
/-- Moves by cost saved per byte, ties by ascending handle, then logical tile number. -/
def rankMoves (ms : List Move) : List Move :=
  let top := ms.foldl (fun a q => max a q.gain) 0
  sortBy (fun q => (top - q.gain).toNat) (sortBy (fun q => q.handle) (sortBy (fun q => q.tile) ms))

/-- Start moves in order within the budget of each die, in bytes: a move counts for the dies it leaves and reaches. -/
def startMoves (m : Mach) (b0 b1 : Nat) : List Move → Mach
  | [] => m
  | q :: qs =>
    let src := match m.tensor? q.part q.handle with | some t => (m.tileTier t q.tile).2 | none => 0
    let u0 := if src = 0 ∨ q.die = 0 then q.bytes else 0
    let u1 := if src = 1 ∨ q.die = 1 then q.bytes else 0
    if b0 < u0 ∨ b1 < u1 then startMoves m b0 b1 qs else
    match m.startMove q.part q.handle q.tile q.tier q.die with
    | some m' => startMoves m' (b0 - u0) (b1 - u1) qs
    | none => startMoves m b0 b1 qs

/-! ### Draining a channel (R263, R268) -/

/-- The tiles with a record in the channel's frames. -/
def Mach.chanTiles (m : Mach) (c : Chan) : List (Nat × Nat × Nat) :=
  m.tensors.flatMap fun t => ((List.range t.desc.tileCount).filter fun k =>
    m.inChan c (t.tileAddr k) (t.tileLen k)).map fun k => (t.part, t.handle, k)
/-- The channel of a MEMC instance. -/
def memcChan (d i : Nat) : Chan := if i < 64 then ⟨false, d, i⟩ else ⟨true, d, i - 64⟩
/-- Has the channel a request in progress (R275): an operation in flight, a host command or an inbound transfer on a tile of it, or a
migration from or to it? -/
def Mach.chanBusy (m : Mach) (c : Chan) : Bool :=
  ((m.chanTiles c).any fun w => m.tileBusy w.1 w.2.1 w.2.2) || m.tensors.any fun t => t.marks.any fun q =>
    match q.2.migrating with
    | some a => m.inChan c a (t.placeLen q.1) || m.inChan c (t.tileAddr q.1) (t.tileLen q.1)
    | none => false
/-- The places of a partition's regions that a record of a tier and die may go to in a drain, its own first. -/
def Mach.drainPlaces (m : Mach) (t : Tier) (d : Nat) : List (Tier × Nat) :=
  let other : Tier := if t = .lp then .hbm else .lp
  if m.mode = 1 then [(t, d), (t, 1 - d), (other, d), (other, 1 - d)] else [(t, d), (other, d)]
/-- Room for a run of bytes that lies in a tier of a die and has to leave its channel: together. -/
def Mach.drainRoom (m : Mach) (p : Nat) (t : Tier) (d n : Nat) : Option Nat :=
  (m.drainPlaces t d).findSome? fun q => m.room p q.1 (if m.mode = 1 then some q.2 else none) n 0
/-- Put new places for a part of memory into every area that holds some of it. -/
def remapArea (q : Nat × Nat) (new a : List (Nat × Nat)) : List (Nat × Nat) :=
  a.flatMap fun r => if q.1 ≤ r.1 && r.1 < q.1 + q.2 then areaPart new (r.1 - q.1) r.2 else [r]
def Mach.remap (m : Mach) (q : Nat × Nat) (new : List (Nat × Nat)) : Mach :=
  let f := remapArea q new
  { m with
    hosted := m.hosted.map fun s => { s with places := f s.places }
    ckpts := m.ckpts.map fun k => { k with stage := f k.stage }
    groups := m.groups.map fun g =>
      { g with journalArea := f g.journalArea, journal := g.journal.map fun r => { r with places := f r.places } } }
/-- Move a part of an area out of a channel: to places of its partition, in parts where it must be, poison preserved (R259). -/
def Mach.movePart (m : Mach) (p : Nat) (q : Nat × Nat) : Option Mach :=
  match tierOf q.1 with
  | none => some m
  | some (t, d) =>
    ((m.drainPlaces t d).findSome? fun w => m.areaRoom p w.1 (if m.mode = 1 then some w.2 else none) q.2).map fun new =>
      (new.foldl (fun (a : Mach × Nat) r => ((a.1.copyBytes 4 (q.1 + a.2) r.1 r.2).1, a.2 + r.2)) (m, 0)).1.remap q new
/-- Move a history record out of a channel. -/
def Mach.moveHist (m : Mach) (t : Tensor) (x : Tier) (d n : Nat) : Option Mach :=
  (m.drainRoom t.part x d n).map fun b =>
    ((m.copyBytes 4 t.desc.histAddr b n).1.updTensor t.part t.handle fun t =>
      { t with desc := { t.desc with histAddr := b } }).syncHandle t.part t.handle
/-- Move a program's bytes out of a channel. -/
def Mach.moveProg (m : Mach) (q : Program) (t : Tier) (d : Nat) : Option Mach :=
  (m.drainRoom q.part t d (roundUp q.bytes 64)).map fun b =>
    { (m.copyBytes 4 q.addr b q.bytes).1 with
      progs := m.progs.map fun x => if x.part == q.part && x.num == q.num then { x with addr := b } else x }
/-- The history records, programs, hosted slots, journals and staging areas in the channel's frames, which firmware moves at once;
opportunistic saves there are dropped. None: a partition lacks the room, or part of a handle table lies there, whose place R20 fixes
(the model's choice, log entry 79). -/
def Mach.moveRecords (m : Mach) (c : Chan) : Option Mach :=
  if (List.range m.mode).any fun p => m.inChan c (m.htabAddr p 0) (m.htabBytes p) then none else
  let m : Mach := { m with groups := m.groups.map fun g => { g with saves := g.saves.filter fun s => !m.inChan c s.addr s.bytes } }
  let m := m.tensors.foldl (fun (a : Option Mach) t => a.bind fun m =>
    match t.hist, tierOf t.desc.histAddr with
    | some x, some (tier, d) =>
      let n := histLen x.chanCount
      if m.inChan c t.desc.histAddr n then m.moveHist t tier d n else some m
    | _, _ => some m) (some m)
  let m := m.bind fun m => m.progs.foldl (fun (a : Option Mach) q => a.bind fun m =>
    match tierOf q.addr with
    | some (t, d) => if m.inChan c q.addr q.bytes then m.moveProg q t d else some m
    | none => some m) (some m)
  m.bind fun m =>
    (m.hosted.flatMap (fun s => s.places.map fun q => (s.hpart, q)) ++ m.groups.flatMap (fun g => g.journalArea.map fun q => (g.part, q))
      ++ m.ckpts.flatMap fun k => k.stage.map fun q => (k.part, q)).foldl (fun (a : Option Mach) w => a.bind fun m =>
    if m.inChan c w.2.1 w.2.2 then m.movePart w.1 w.2 else some m) (some m)

/-- The regular slots in the channel of tiles that lie in places of their own (R163) go elsewhere: they hold nothing to copy. -/
def Mach.moveSlots (m : Mach) (c : Chan) : Option Mach :=
  (m.tensors.flatMap fun t => (t.marks.filter fun q => q.2.place.isSome
      && m.inChan c ((q.2.home).getD (t.regular q.1)) t.stride).map fun q => (t.part, t.handle, q.1)).foldl
    (fun (a : Option Mach) w => a.bind fun m => match m.tensor? w.1 w.2.1 with
      | none => some m
      | some t => match tierOf (((t.mark w.2.2).home).getD (t.regular w.2.2)) with
        | none => some m
        | some (tier, d) => ((m.drainPlaces tier d).findSome? fun q =>
            m.room w.1 q.1 (if m.mode = 1 then some q.2 else none) t.stride (if t.desc.cls = 5 then 48 else 0)).map fun b =>
          m.updTensor w.1 w.2.1 fun t => t.setMark w.2.2 fun y => { y with home := some b }) (some m)
/-- Start the moves that empty the channel, but for tiles near a recalibration, whose turn comes later; none where a partition lacks
the room. -/
def Mach.drainMoves (m : Mach) (c : Chan) : Option Mach :=
  ((m.moveRecords c).bind fun m => m.moveSlots c).bind fun m => (m.chanTiles c).foldl (fun (a : Option Mach) w => a.bind fun m =>
    match m.tensor? w.1 w.2.1 with
    | none => some m
    | some t =>
      if (t.mark w.2.2).migrating.isSome then some m else
      let (tier, d) := m.tileTier t w.2.2
      ((m.drainPlaces tier d).findSome? fun q => m.tileRoom w.1 t w.2.2 q.1 q.2).map fun b =>
        (m.moveTo w.1 w.2.1 w.2.2 b).getD m) (some m)

/-- Begin to drain: the channel is given nothing new; a tile already on its way there goes on and is moved again (R267); where there
is no room it stays in service. -/
def Mach.beginDrain (m : Mach) (c : Chan) : Option Mach := (m.updChan c fun s => { s with state := 1 }).drainMoves c

/-- Does anything that the machine holds lie in the channel's frames? -/
def Mach.chanHolds (m : Mach) (c : Chan) : Bool := m.heldRanges.any fun r => m.inChan c r.1 r.2
/-- A drain by a service command is over, with its result. -/
def Mach.drainResult (m : Mach) (c : Chan) (r : Nat) : Mach :=
  if (m.chan c).svc = 1 then (m.updChan c fun s => { s with svc := 0 }).dset 0x6010 4 r else m
/-- The stack or package of a channel, by its number among those of R270. -/
def unitOfChan (c : Chan) : Nat := if c.lp then 8 + 8 * c.die + c.idx / 4 else 4 * c.die + c.idx / 16
/-- A channel whose PLL failed is trained anew once it is drained (R419): what its unit is trained to is free. -/
def Mach.retrainChan (m : Mach) (c : Chan) : Mach :=
  if !(m.chan c).clock then m else
  let (m, v) := m.freeBytes 64
  { m.updChan c fun s => { s with clock := false } with phy := mapSet m.phy (unitOfChan c) v }
/-- The PLL of a channel has failed: the channel is drained and trained anew. In fine mode no HBM channel can be drained (R250), and
where there is no room the drain stops (R268): it then stays in service (R419; log entry 79). One being margined is trained at its end (R272). -/
def Mach.chanClock (m : Mach) (c : Chan) : Mach :=
  let mark (m : Mach) : Mach := m.updChan c fun s => { s with clock := true }
  let st := (m.chan c).state
  if (m.fineMode && !c.lp) || st == 4 then m
  else if st = 1 then mark m
  else if st = 2 then (mark m).retrainChan c
  else match m.beginDrain c with
    | some m => mark m
    | none => m
/-- CHANNEL_DRAINED: nothing is left in the channel. -/
def Mach.chanDrained (m : Mach) (c : Chan) : Mach :=
  if !c.ok || (m.chan c).state != 1 || m.chanHolds c then m else
  let m := (((m.updChan c fun s => { s with state := 2 }).setChanService c false).drainResult c 0).retrainChan c
  if (m.die c.die).persistent.contains (160 + c.memc) then m.clrBit .memc c.die c.memc 0 0 else m
/-- What a fence or an error report names a channel by. -/
def chanWord (c : Chan) : Bytes := toLe 2 (c.idx + 16384 * c.die + (if c.lp then 32768 else 0))
/-- A fence that cannot be carried out is told of; the next error logged asks for it again (R263). -/
def Mach.fenceBlocked (m : Mach) (c : Chan) : Mach :=
  (m.updChan c fun s => { s with blocked := s.ues.length }).fwEvent evMemFenceBlocked c.die (160 + c.memc) none (chanWord c)
/-- A drain under way stops for lack of room: the channel stays in service. -/
def Mach.drainStops (m : Mach) (c : Chan) : Mach :=
  let fence := (m.chan c).fenced
  let m := (m.updChan c fun s => { s with state := 0, fenced := false, clock := false }).drainResult c 9
  if fence then m.fenceBlocked c else m

/-- Fence the channels that have logged ue_fence_count errors within the window, or tell that one cannot be fenced. One that is being
drained, is drained or is being margined takes nothing new already (R263, R268, R272). -/
def Mach.fenceChans (m : Mach) : Mach :=
  m.chans.foldl (fun m q =>
    match ([false, true].flatMap fun lp => [0, 1].flatMap fun d =>
        (List.range (if lp then 32 else 64)).map fun i => (⟨lp, d, i⟩ : Chan)).find? fun c => c.num == q.1 with
    | none => m
    | some c =>
      let s := m.chan c
      let win := m.dnum 0x6002 5 * 3600000
      let n := s.ues.countP fun t => m.power.aoMs < t + win
      if n < m.dnum 0x6002 4 || s.fenced || s.ues.length ≤ s.blocked then m else
      if m.fineMode then m.fenceBlocked c
      else if s.state ≠ 0 then m.updChan c fun s => { s with fenced := true }
      else match m.beginDrain c with
        | some m => m.updChan c fun s => { s with fenced := true }
        | none => m.fenceBlocked c) m

/-- PLANNER_TICK: once per second. -/
def Mach.plannerTick (m : Mach) : Mach :=
  if m.moduleState = 0 ∨ m.moduleState = 2 ∨ m.power.deepSteps ≠ 0 then m else
  -- drains go on whatever the budget
  let m := ([false, true].flatMap fun lp => [0, 1].flatMap fun d =>
      (List.range (if lp then 32 else 64)).map fun i => (⟨lp, d, i⟩ : Chan)).foldl (fun m c =>
    if (m.chan c).state = 1 then (m.drainMoves c).getD (m.drainStops c) else m) m
  let budget := m.dnum 0x6001 4 * 1000000
  let m := startMoves m budget budget (rankMoves (((List.range m.mode).filter m.isWarm).flatMap m.candidates))
  let still (t : Tensor) : Tensor :=
    { t with marks := (t.marks.map fun q => (q.1, { q.2 with near0 := 0, near1 := 0 })).filter fun q => q.2 != {} }
  { m with tensors := m.tensors.map still }

/-- COUNTERS_WARM: a partition's counters have run for a second. -/
def Mach.countersWarm (m : Mach) (p : Nat) : Mach :=
  if !m.partOk p || m.warm.contains p then m else { m with warm := sortBy id (p :: m.warm) }

/-- TABLE_COUNTER_HALVE: once per second. -/
def Mach.halveCounters (m : Mach) (p : Nat) : Mach :=
  let halve (t : Tensor) : Tensor :=
    if t.part ≠ p ∨ t.desc.cls ≠ 5 then t else
    { t with marks := (t.marks.map fun q => (q.1, { q.2 with count := q.2.count / 2 })).filter fun q => q.2 != {} }
  { m with tensors := m.tensors.map halve }

/-! ### Patrol (R261, R262) -/

/-- The last codeword that a patrol of the unit reaches. -/
def Mach.lastCodeword (m : Mach) (u : MemUnit) : Nat :=
  let ends : List Nat :=
    match u.tier with
    | .hbm => let top := (u.die + 1) * 0x003000000000
              if m.fineMode then (List.range 128).map fun k => top - 256 * k - 16
              else (List.range 64).map fun k => top - 2097152 * k - 16
    | .lp => (List.range 32).map fun k => 0x010000000000 + (u.die + 1) * 0x007000000000 - 1835008 * k - 16
    | .cru => []
  ((ends.filter fun a => match memUnitOf m.fineMode a with
    | some v => v.tier == u.tier && v.die == u.die && v.chan == u.chan
    | none => false).head?).getD 0

/-- SCRUB_PATROL: a patrol reads the codeword at an address, in which errors of symbols have come up, and writes it back corrected
(R261). An access that fails parity twice is reported as an uncorrectable error (R248): the patrol's own, or, at the addresses of
`later`, the next one of anyone (log entry 79). -/
def Mach.scrub (m : Mach) (addr : Nat) (errs : List (Nat × Nat)) (parity : Nat) (later : List Nat) : Mach :=
  let a := addr / 16 * 16
  let m := { m with shaky := m.shaky ++ later }
  match memUnitOf m.fineMode a with
  | none => m
  | some u =>
    let m := m.upset a errs
    let on : Bool := match u.chan? with
      | some c => m.bit .memc c.die c.memc 0 1
      | none => true
    if !on || !m.memUp a 16 then m else
    let m := if parity = 2 ∧ u.tier = .hbm then { m with shaky := a :: m.shaky } else m
    let fix := m.cwClass a
    let m := (m.memRead 1 a 16).1
    let m := match fix with
      | .fix i e => if (mapGet m.chk a).isSome then (m.memCount u 0x14 (writeUnit u.tier / 16)).fixCodeword a i e else m
      | _ => m
    if a = m.lastCodeword u then m.memCount u 0x24 1 else m

/-! ### Recalibration (R271, R275) -/

/-- Channels of the same stack or package. -/
def chanSiblings (c : Chan) : List Chan :=
  let n := if c.lp then 4 else 16
  (List.range n).map fun k => { c with idx := c.idx / n * n + k }

/-- Is the channel's recalibration announced or its requests held? -/
def Mach.recalOn (m : Mach) (c : Chan) : Bool := m.bit .memc c.die c.memc 4 1 || m.bit .memc c.die c.memc 4 2
/-- A recalibration is announced; while another channel of the stack or package is at one, or the die is not up, it waits. -/
def Mach.recalAnnounce (m : Mach) (c : Chan) : Mach :=
  if !c.ok || m.recalOn c then m
  else if !(m.die c.die).up || m.bit .memc c.die c.memc 4 4 || (chanSiblings c).any m.recalOn then m.updChan c fun s => { s with recalDue := true }
  else (m.updChan c fun s => { s with recalDue := false }).setBit .memc c.die c.memc 4 1
/-- Recalibrations that wait are announced when their turn comes. -/
def Mach.pumpRecal (m : Mach) : Mach :=
  if m.chans.all fun q => !q.2.recalDue then m else
  ([false, true].flatMap fun lp => [0, 1].flatMap fun d =>
      (List.range (if lp then 32 else 64)).map fun i => (⟨lp, d, i⟩ : Chan)).foldl (fun m c =>
    if (m.chan c).recalDue then m.recalAnnounce c else m) m
/-- The announcement is over: the channel's requests are held. -/
def Mach.recalHold (m : Mach) (c : Chan) : Mach :=
  if !c.ok || !m.bit .memc c.die c.memc 4 1 || m.bit .memc c.die c.memc 4 2 || m.bit .memc c.die c.memc 4 4 then m
  else m.setBit .memc c.die c.memc 4 2
/-- The recalibration ends; the hold lasted at most 2 µs, at 1.4 cycles a nanosecond. -/
def Mach.recalEnd (m : Mach) (c : Chan) (ns : Nat) : Mach :=
  if !c.ok || !m.bit .memc c.die c.memc 4 2 then m else
  let ns := min ns 2000
  let m := ((m.clrBit .memc c.die c.memc 4 1).clrBit .memc c.die c.memc 4 2).clrBit .memc c.die c.memc 0 2
  let m := (m.count .memc c.die c.memc 0x28 (ns * 14 / 10)).dadd 0x6003 0x10 1
  let m := m.updChan c fun s => { s with svc := if s.svc = 3 then 0 else s.svc }
  m.dset 0x6003 0x11 (max (m.dnum 0x6003 0x11) ns)

/-! ### Service commands (R272, R274) -/

/-- The channel that svc_channel names. -/
def svcChan (w : Nat) : Option Chan :=
  let c : Chan := ⟨bitAt w 15, fld w 14 14, fld w 5 0⟩
  if fld w 13 6 = 0 ∧ c.ok then some c else none
/-- svc_state of a channel. -/
def Mach.svcState (m : Mach) (c : Chan) : Nat :=
  let s := m.chan c
  if m.bit .memc c.die c.memc 4 1 || m.bit .memc c.die c.memc 4 2 then 3
  else if s.state = 1 ∨ s.state = 4 then s.state
  else if s.fenced || s.failedTrain then 5 else s.state
/-- Is a service command on the channel in progress? -/
def Mach.svcBusy (m : Mach) (c : Chan) : Bool := (m.chan c).svc != 0

def Mach.svcDrain (m : Mach) (c : Chan) : Mach :=
  if m.fineMode && !c.lp then m.dset 0x6010 4 4
  else if (m.chan c).state = 2 then m.dset 0x6010 4 0
  else match m.beginDrain c with
    | some m => (m.updChan c fun s => { s with svc := 1 }).dset 0x6010 4 0
    | none => m.dset 0x6010 4 9
def Mach.svcReturn (m : Mach) (c : Chan) : Mach :=
  ((m.updChan c fun s => { s with state := 0, fenced := false, failedTrain := false, ues := [], blocked := 0 }).setChanService
    c true).dset 0x6010 4 0
def Mach.svcRecal (m : Mach) (c : Chan) : Mach :=
  ((m.recalAnnounce c).updChan c fun s => { s with svc := 3 }).dset 0x6010 4 0
/-- Margining writes patterns over what the channel holds. -/
def Mach.svcMargin (m : Mach) (c : Chan) : Mach :=
  if (m.fineMode && !c.lp) || (m.chan c).state != 2 then m.dset 0x6010 4 4 else
  ((m.lose [256 * c.die + c.memc]).updChan c fun s => { s with state := 4, svc := 4 }).dset 0x6010 4 0
/-- Margining is done: the trained values are back, the result is held. -/
def Mach.marginDone (m : Mach) (c : Chan) (result : Bytes) : Mach :=
  if !c.ok || (m.chan c).state != 4 then m else
  (m.updChan c fun s => { s with state := 2, svc := 0 }).dictPut 0x6020 0x10 (fitBytes (if c.lp then 32 else 144) result)

/-- svc_command on the channel that a word names; none: another command is in progress on it. -/
def Mach.serviceOn (m : Mach) (w n : Nat) : Option Mach :=
  (svcChan w).bind fun c => if m.svcBusy c then none else
    some (if n = 1 then m.svcDrain c else if n = 2 then m.svcReturn c else if n = 3 then m.svcRecal c else m.svcMargin c)
/-- selftest_cmd that nothing refuses (R351): 1 begins rolling self-test, 2 the whole module's. -/
def Mach.selftestOn (m : Mach) (n : Nat) : Mach :=
  if n = 1 then (if m.dnum 0x7010 6 = 2 then m else m.dset 0x7010 6 1) else m.dset 0x7010 6 2
/-- What was written for the Gaffer firmware in restricted mode takes effect, in the order of the writes; what the rules then refuse has no
effect (R441, log entry 42). -/
def Mach.runDeferred (m : Mach) : Mach :=
  m.power.deferred.foldl (fun (m : Mach) q =>
    if q.1 = 0x601002 then (m.serviceOn (q.2 / 65536) (q.2 % 65536)).getD m
    else if q.1 = 0x700202 then (m.unfenceInst q.2).getD m
    else if q.2 = 2 ∧ !m.allIdle then m else m.selftestOn q.2)
    { m with power := { m.power with deferred := [] } }

/-! ### Station instances put aside (R268, R293, R412, R413) -/

/-- An accepted write of a configuration register sets its parity, inverted where an injection is armed on it (R375,
R382). -/
def Mach.setParity (m : Mach) (d s off : Nat) : Mach :=
  let t := m.reg .gcnt d 0 0x1C
  let a := csrAddr d s off
  let m := { m with shadow := mapDel m.shadow a }
  if bitAt t 31 && fld t 8 0 == s && 4 * fld t 17 9 == off then
    { m.clrBit .gcnt d 0 0x1C 31 with badPar := if m.badPar.contains a then m.badPar else sortBy id (a :: m.badPar) }
  else { m with badPar := m.badPar.filter (· != a) }

/-- Firmware's write of a configuration register: the value, and its parity (R375). -/
def Mach.cfgPut (m : Mach) (b : Blk) (d i off v : Nat) : Mach := (m.putReg b d i off v).setParity d (slotOf b i) off

/-- The Pontil instance of the same partition that takes over the engines of one that is drained. -/
def Mach.pontilHeir (m : Mach) (i : Inst) : Option Inst :=
  ((List.range 4).map (instOf .pontil)).find? fun j => j != i && m.ownerOf j == m.ownerOf i && m.bit .pontil j.die j.idx 0 0
    && !m.bit .pontil j.die j.idx 0 1
/-- Do transfers of a Pontil instance's engines wait for their acknowledgement? -/
def Mach.pontilWork (m : Mach) (i : Inst) : Bool :=
  m.instActive i || m.tx.any fun f => !f.unacked.isEmpty && m.pontilOf f.part f.engine == i
/-- Move a Pontil instance's logical engines, and the transfers of theirs that are in flight, to another instance (R318). The flows'
sequence numbers and unacknowledged packets go by engine and need no move. -/
def Mach.moveEngines (m : Mach) (i j : Inst) : Mach :=
  let mine := fld (m.reg .pontil i.die i.idx 8) 5 2
  let theirs := m.reg .pontil j.die j.idx 8
  let m := (m.cfgPut .pontil i.die i.idx 8 (setFld (m.reg .pontil i.die i.idx 8) 5 2 0)).cfgPut .pontil j.die j.idx 8
    (setFld theirs 5 2 (fld theirs 5 2 ||| mine))
  { m with ctxs := m.ctxs.map fun x => { x with flights := x.flights.map fun f => if f.inst = some i then { f with inst := some j } else f } }
/-- STATION_DRAINED: an instance with its drain bit set and nothing in progress is disabled, and out of service (R268, R380). A Pontil instance hands its engines to
another of its partition; where there is none, it is not drained while work is in flight (R318). -/
def Mach.stationDrained (m : Mach) (i : Inst) : Mach :=
  let b := i.kind.blk
  if !(i.die < 2 && i.idx < i.kind.perDie && m.bit b i.die i.idx 0 1 && m.bit b i.die i.idx 0 0) then m
  else if i.kind = .pontil then
    match m.pontilHeir i with
    | some j => ((m.moveEngines i j).clrBit b i.die i.idx 0 0).setService i false
    | none => if m.pontilWork i then m else (m.clrBit b i.die i.idx 0 0).setService i false
  else if m.instActive i then m else (m.clrBit b i.die i.idx 0 0).setService i false

def Mach.instOk (m : Mach) (i : Inst) : Bool := i.die < 2 && i.idx < i.kind.perDie && (m.die i.die).up
/-- Is an operation issuable that the instance could take? -/
def Mach.instWanted (m : Mach) (i : Inst) : Bool :=
  (List.range 32).any fun c => match m.nextOp c with
    | some o => o.kind.station == some i.kind && (m.ctx c).part == m.instPart i && (m.issuable c o.kind).isSome
    | none => false
/-- STATION_GATE: after 256 cycles with nothing in progress and nothing issuable, with gate_en set (R293). -/
def Mach.stationGate (m : Mach) (i : Inst) : Mach :=
  if m.instOk i && m.bit .sync i.die 0 0 1 && !m.instActive i && !m.instWanted i && (mapGet m.power.insts (Inst.id' i)).isNone
  then { m with power := { m.power with insts := mapSet m.power.insts (Inst.id' i) .gated } } else m
/-- What has made an operation issuable wakes the gated instances that could take it (R293). -/
def Mach.wakeWanted (m : Mach) : Mach :=
  if m.power.insts.isEmpty then m else
  let all : List Inst := StKind.all.flatMap fun k => [0, 1].flatMap fun d => (List.range k.perDie).map fun i => ⟨k, d, i⟩
  (all.filter fun i => mapGet m.power.insts (Inst.id' i) == some .gated && m.instWanted i).foldl (fun m i => m.wakeInst i) m
/-- STATION_RETAIN: gated for retain_idle_us, nothing running in its partition, no partial and no row held. -/
def Mach.stationRetain (m : Mach) (i : Inst) : Mach :=
  let p := m.ownerOf i
  let quiet := allIdx m.ctxs fun c x => !ctxOwned m.mode p c || (x.st != .running && x.st != .waiting)
  if mapGet m.power.insts (Inst.id' i) = some .gated && m.dnum 0x3004 2 == 1 && quiet
      && !(i.kind == .bench && m.holdsRow (benchNum i))
  then { m with power := { m.power with insts := mapSet m.power.insts (Inst.id' i) .retained } } else m

/-! ### The end of every command -/

/-- Does EVENT interrupt firmware: are irq_level entries queued, or one while its cfg_parity reads 1 (R376, R381)? The reserved level 0
acts as 1 (the model's choice, log entry 83). -/
def Mach.eventIrq (m : Mach) (d : Nat) : Bool :=
  (if m.bit .event d 0 4 3 then 1 else max 1 (fld (m.reg .event d 0 8) 8 0)) ≤ (m.die d).evq.length
def Mach.noteIrqs (m : Mach) : Mach := [0, 1].foldl (fun m d => m.updDie d fun x => { x with irq := m.eventIrq d }) m

/-- Held work that can proceed, tiles at a tile-epoch boundary, GEMMs and loans that wait for a bench, channels to fence, recalibrations
whose turn has come, gated instances with work to do, a DETACH in progress, the interrupt lines, a polling
pass over the events. -/
def Mach.rest (m : Mach) : Mach := m.settle.pumpSwitch.pumpGemms.pumpLoans.benchOff.fenceChans.pumpRecal.wakeWanted.pumpDetach.noteIrqs.pollEvents

/-- A command that concerns the machine alone. -/
def State.onMach (s : State) (f : Mach → Mach) : Host.Outcome State Fault Refusal := .next { s with m := (f s.m).rest }

end Sys2Proof.Machine
end

