-- ==== Sys2Proof/Machine/Csr.lean ====
section
/-! DEFINITION. The CSR space: register reads and writes, the alias windows, the lock, configuration parity, the event
queue and block reset (spec/14, R365 to R383; R49, R144, R146, R275, R299, R426). -/

namespace Sys2Proof.Machine

/-! ### What registers read as -/

/-- The station instance of a block instance. -/
def blkInst : Blk → Nat → Nat → Option Inst
  | .bench, d, i => some ⟨.bench, d, i⟩ | .marver, d, i => some ⟨.marver, d, i⟩ | .gather, d, i => some ⟨.gather, d, i⟩
  | .jacks, d, i => some ⟨.jacks, d, i⟩ | .lehr, d, i => some ⟨.lehr, d, i⟩ | .pontil, d, i => some ⟨.pontil, d, i⟩
  | _, _, _ => none

/-- The operation on a bench: BENCH_CUR_OP. -/
def Mach.benchCur (m : Mach) (i : Inst) : Nat :=
  match (m.bench (benchNum i)).seg with
  | some (c, op) => op % 2 ^ 20 + (c % 32) * 2 ^ 20 + 2 ^ 25
  | none => 0

/-- The word a die's EVENT_HEAD register `k` holds. -/
def headWord (e : Option HwEv) (k : Nat) : Nat :=
  match e with
  | none => 0
  | some e => if k = 0 then e.code + 65536 * e.slot else if k = 1 then e.detail % 2 ^ 32
    else if k = 2 then fld e.time 31 0 else fld e.time 63 32

/-- What the register at an offset of a block instance holds, fields kept elsewhere included. -/
def Mach.regView (m : Mach) (b : Blk) (d i off : Nat) : Nat :=
  let v := m.reg b d i off
  match b with
  | .bench =>
    if off = 4 then setFld (setFld v 1 0 (m.idleBits ⟨.bench, d, i⟩)) 4 4 (!m.benchFree (32 * d + i)).toNat
    else if off = 0x34 then m.benchCur ⟨.bench, d, i⟩ else v
  | .marver | .gather | .pontil | .jacks | .lehr =>
    if off ≠ 4 then v else
    match blkInst b d i with
    | none => v
    | some s =>
      let v := setFld v 1 0 (m.idleBits s)
      if b = .jacks then setFld v 4 4 (m.colls.any fun (k : Coll) => k.jacks.contains s).toNat
      else if b = .lehr then setFld v 5 5 (m.ctxs.any fun x => x.flights.any fun f => f.inst == some s && f.jwait).toNat
      else v
  | .strain => if off = 0 then setFld v 0 0 (m.holdsRow (32 * d + i)).toNat else v
  | .part =>
    if off ≠ 4 then v else
    -- the partition's contexts on both dies: the field holds up to 32 (DEDUCED, log entry 71)
    let n := (m.ctxs.zipIdx).countP fun q => ctxOwned m.mode i q.2 && (q.1.st == .running || q.1.st == .waiting)
    setFld (setFld v 0 0 (m.partIdle i).toNat) 13 8 n
  | .memc => if off = 4 then setFld v 0 0 (!m.chanBusy (memcChan d i)).toNat else v
  | .sync =>
    if 0x1000 ≤ off ∧ off < 0x5000 then m.ctrWord d ((off - 0x1000) / 4)
    else if 0x6000 ≤ off ∧ off < 0x6400 then m.barWord d ((off - 0x6000) / 4)
    else if 0x6400 ≤ off then m.fbarWord d ((off - 0x6400) / 4)
    else v
  | .event =>
    let q := (m.die d).evq
    if off = 4 then setFld v 0 0 (!q.isEmpty).toNat
    else if off = 0xC then q.length
    else if 0x10 ≤ off ∧ off < 0x20 then headWord q.head? ((off - 0x10) / 4) else v
  | .gcnt =>
    if off = 0 then fld (m.die d).time 31 0 else if off = 4 then fld (m.die d).latch 31 0
    else if off = 8 then (if d = 0 then fld m.power.aoMs 31 0 else 0)
    else if off = 0xC then (if d = 0 then fld (m.die 0).aoLatch 31 0 else 0) else v
  | .aopm =>
    if off = 0xC then setFld (setFld v 25 25 m.power.warn.toNat) 26 26 m.power.nvInhibit.toNat
    else if off = 0x10 then setFld v 15 15 m.power.wakeLatched.isSome.toNat else v
  | _ => v

/-! ### Reads -/

def Mach.badAccess (m : Mach) (d : Nat) : Mach := m.count .gcnt d 0 0x18 1

/-- Does the die answer: the always-on island's blocks always do? -/
def Mach.csrUp (m : Mach) (d s : Nat) : Bool := (m.die d).up || s == 256

/-- The station instance that an access to a block reaches: Cullet and Strain belong to their bench (R412). -/
def Mach.touch (m : Mach) (d s : Nat) : Mach :=
  if m.power.insts.isEmpty then m else
  match blockAt d s with
  | some (.cullet, i) | some (.strain, i) => m.wakeInst ⟨.bench, d, i⟩
  | some (b, i) => (match blkInst b d i with | some j => m.wakeInst j | none => m)
  | none => m
/-- What a read of a register finds: a LO word latches its HI word. AOPM_SUPPLY's two voltages are the converters' last reports, which
no command brings: free. -/
def Mach.regFound (m : Mach) (b : Blk) (d i off : Nat) : Mach × Nat :=
  let v := m.regView b d i off
  if b = .gcnt ∧ off = 0 then (m.updDie d fun x => { x with latch := fld x.time 63 32 }, v)
  else if b = .gcnt ∧ off = 8 ∧ d = 0 then (m.updDie 0 fun x => { x with aoLatch := fld m.power.aoMs 63 32 }, v)
  else if b = .aopm ∧ off = 0xC then
    let (m, w) := m.freeWord
    (m, setFld v 24 0 (fld w.toNat 24 0))
  else (m, v)
/-- A read of the register window: a counter is cleared. -/
def Mach.regRead (m : Mach) (d s off : Nat) : Mach × Nat :=
  match blockAt d s with
  | none => (m.badAccess d, 0)
  | some (b, i) =>
    match regRow b off with
    | none => (m.badAccess d, 0)
    | some r => if r.cls = .counter then (m.putReg b d i off 0, m.regView b d i off) else m.regFound b d i off

/-- The alias mode of a slot: bit-addressed (R371)? -/
def Mach.bitMode (m : Mach) (d s : Nat) : Bool := bitAt (m.reg .csrmap d 0 (4 * (s / 32))) (s % 32)

/-- Where a write has an effect of its own, so that aliases are not performed (R374). -/
def noAlias (b : Blk) (off : Nat) : Bool :=
  match b with
  | .sync => off == 0x40 || off == 0x44
  | .event => off == 0
  | .aopm => off == 0 || off == 8
  | .memc => off == 0
  | _ => false

/-- A read through the alias window (R372, R373): of a set region or of a bit it finds the register as any read does, but clears no
counter. -/
def Mach.aliasRead (m : Mach) (d s a : Nat) : Mach × Nat :=
  let off := if m.bitMode d s then a / 128 * 4 else a % 0x4000
  match blockAt d s with
  | none => (m.badAccess d, 0)
  | some (b, i) =>
    if (regRow b off).isNone || (!m.bitMode d s && 0xC000 ≤ a) then (m.badAccess d, 0)
    else if m.bitMode d s then let (m, v) := m.regFound b d i off; (m, fld v (a / 4 % 32) (a / 4 % 32))
    else if a < 0x4000 then m.regFound b d i off else (m, 0)

/-- A read of `size` bytes (R367). As every access it ends the clock gating or the retention of the instance first (R412, R413). -/
def Mach.csrRead (m : Mach) (addr size : Nat) : Mach × Nat :=
  match csrSplit addr with
  | none => (m, 0)
  | some (d, s, o) =>
    if !m.csrUp d s then (m, 0)
    else if size ≠ 4 ∨ addr % 4 ≠ 0 then (m.badAccess d, 0)
    else
      let m := m.touch d s
      if o < 0x10000 then m.regRead d s o else m.aliasRead d s (o - 0x10000)

/-! ### The lock (R369) -/

/-- Is the lock of a block instance closed? -/
def Mach.locked (m : Mach) (b : Blk) (d i : Nat) : Bool :=
  match lockBits b with
  | none => false
  | some (_, pb) =>
    m.bit b d i 0 0 && !(match pb with
      | some k => m.bit b d i 4 k
      | none => (m.parityBad d (slotOf b i)).isSome)

/-- A configuration write that the lock turned away. -/
def Mach.lockedWrite (m : Mach) (b : Blk) (d i : Nat) : Mach :=
  match lockBits b with
  | none => m
  | some (lb, _) => (m.setBit b d i 4 lb).count .gcnt d 0 0x10 1

/-! ### The effects of writes -/

/-- What SYNC held back takes effect in the order in which it came (R376, R421). -/
def Mach.thaw (m : Mach) (d : Nat) : Mach :=
  let fs := (m.die d).sync.frozen
  let m := m.updDie d fun x => { x with sync := { x.sync with frozen := [] } }
  let m := fs.foldl (fun m f => match f with
    | .signal i none => m.signal d i
    | .signal i (some e) => m.fabricSignal d i e
    | .wait i w => m.postWait d i w) m
  m.syncRun d

/-- SYNC_FW_WAIT posts a wait (R283, R299). The spec does not say what a second one does while the first is pending: both are posted,
and the first that is satisfied clears pending and sets satisfied (the model's choice, log entry 81). -/
def Mach.fwWait (m : Mach) (d w : Nat) : Mach :=
  let i := fld w 11 0
  let n := fld w 27 12
  if n = 0 ∨ 255 < n then (m.refuseWait d i).setBit .sync d 0 0x48 2
  else (m.setBit .sync d 0 0x48 0).postWait d i ⟨.fw, n⟩

/-- EVENT_CTRL.pop: the head entry leaves the queue and firmware forwards it to the log and the event ring (R381, R407). -/
def Mach.popEvent (m : Mach) (d : Nat) : Mach :=
  match (m.die d).evq with
  | [] => m
  | e :: rest => (m.updDie d fun x => { x with evq := rest }).tell d e.code (e.slot + 512 * d) e.time (toLe 4 e.detail)

/-- The registers of a slot return to their Reset values (R370). -/
def Mach.resetSlot (m : Mach) (d s : Nat) : Mach :=
  let base := csrBase d s
  let mine (a : Nat) : Bool := base ≤ a && a < base + 0x10000
  let m := { m with csr := m.csr.filter fun q => !mine q.1, badPar := m.badPar.filter (fun a => !mine a)
                    shadow := m.shadow.filter fun q => !mine q.1 }
  m.updDie d fun x => { x with parityFails := x.parityFails.filter (fun q => !mine q.1), persistent := x.persistent.filter (· != s) }
/-- A block reset: every register of the instance returns to its Reset value (R370), those of its Cullet and Strain with a bench's
(R146, R167, R364). What the instance had in progress is not lost: the planner reissues it, a bench's GEMM from its last partial
(R146, R376; the model's choice for the other stations, log entry 83). It returns an instance put out of service by a persistent
parity error (R377). -/
def Mach.blockReset (m : Mach) (d s : Nat) : Mach :=
  let gone := (m.die d).persistent.contains s
  let m := (m.touch d s).resetSlot d s
  match blockAt d s with
  | none => m
  | some (b, i) =>
    let m := match gone, blkInst b d i with
      | true, some j => if m.fencedInst j then m else m.setService j true
      | _, _ => m
    match b with
    | .sync => m.updDie d fun x => { x with sync := {} }
    | .event => m.updDie d fun x => { x with evq := [] }
    | .gcnt => m.updDie d fun x => { x with latch := 0, aoLatch := 0 }
    | .bench => ((m.resetSlot d (slotOf .cullet i)).resetSlot d (slotOf .strain i)).resetBench (32 * d + i)
    | .strain => if m.holdsRow (32 * d + i) then m.resetBench (32 * d + i) else m
    | .marver | .gather | .lehr | .pontil => m.handOff ⟨if b = .marver then .marver else if b = .gather then .gather
        else if b = .lehr then .lehr else .pontil, d, i⟩
    | .jacks =>
      let m := m.handOff ⟨.jacks, d, i⟩
      { m with colls := m.colls.map fun (k : Coll) => { k with jacks := k.jacks.filter (· != ⟨.jacks, d, i⟩) } }
    | .memc =>
      let c : Chan := ⟨64 ≤ i, d, if 64 ≤ i then i - 64 else i⟩
      if gone && !(m.chan c).fenced then (m.updChan c fun x => { x with state := 0 }).setChanService c true else m
    | _ => m

/-- What a write of a control register starts, once its value is stored. A BENCH_CTRL.yield that ends in no partial (no segment stands,
its last reduction tile is under way, a drain is asked for beside it) reads 0 at once: the spec says only that a written partial clears it (R144; the
model's choice, log entry 76). -/
def Mach.writeEffect (m : Mach) (b : Blk) (d i off w : Nat) : Mach :=
  match b with
  | .sync =>
    if off = 0 then (if m.syncOn d then m.syncRun d else m)
    else if off = 0x40 then m.signal d (fld w 11 0)
    else if off = 0x44 then m.fwWait d w
    else if 0x50 ≤ off ∧ off < 0x90 then m.applyHeld d
    else if 0x1000 ≤ off ∧ off < 0x5000 then
      let k := (off - 0x1000) / 4
      let (m, sg) := serveWaits d k ((m.waitsOf d k).length + 1) m
      (m.signals sg).applyHeld d
    else m
  | .event => if off = 0 ∧ bitAt w 1 then m.popEvent d else m
  | .memc => if off = 0 ∧ m.bit .memc d i 0 2 then
      m.recalAnnounce ⟨64 ≤ i, d, if 64 ≤ i then i - 64 else i⟩ else m
  | .bench =>
    if off ≠ 0 then m else
    let m := m.benchCtl d i
    if m.holdsRow (32 * d + i) then m else m.clrBit .bench d i 0 2
  | .gcnt =>
    if off ≠ 0x1C || !m.bit .gcnt d 0 0x1C 31 then m else
    let t := m.reg .gcnt d 0 0x1C
    let config : Bool := match blockAt d (fld t 8 0) with
      | none => false
      | some (tb, _) => (match regRow tb (4 * fld t 17 9) with | some r => r.cls == .config | none => false)
    if config then m else m.clrBit .gcnt d 0 0x1C 31
  | .aopm =>
    if off ≠ 8 || !m.bit .aopm 0 0 8 31 then m else
    let t := m.reg .aopm 0 0 8
    let m := m.clrBit .aopm 0 0 8 31
    if (blockAt (fld t 9 9) (fld t 8 0)).isNone then m.badAccess 0
    else if m.csrUp (fld t 9 9) (fld t 8 0) then m.blockReset (fld t 9 9) (fld t 8 0) else m
  | _ => m

/-- RW bits of a register of an instance: on LP channels parity_en ignores writes (R275). -/
def rwMask (b : Blk) (i off : Nat) (r : RegRow) : Nat :=
  if b = .memc ∧ off = 8 ∧ 64 ≤ i then r.rw - r.rw % 2 else r.rw

/-- W1C bits of a computed word: the mismatch flags of the barrier words, the frozen work of SYNC. -/
def Mach.clearBits (m : Mach) (b : Blk) (d i off clr : Nat) (r : RegRow) : Mach :=
  let old := m.reg b d i off
  let hit := clr &&& r.w1c
  if hit = 0 then m else
  if b = .sync ∧ 0x6000 ≤ off then
    let ref : BarRef := if off < 0x6400 then ⟨false, d, (off - 0x6000) / 4⟩ else ⟨true, d, (off - 0x6400) / 4⟩
    m.setBar ref { m.bar ref with mismatch := false }
  else
    let m := m.putReg b d i off (old &&& (0xFFFFFFFF ^^^ hit))
    if b = .sync ∧ off = 4 ∧ bitAt hit 1 ∧ bitAt old 1 then m.thaw d else m

/-- Is a station instance at work for the planner: enabled and not draining? -/
def Mach.atWork (m : Mach) (b : Blk) (d i : Nat) : Bool := m.bit b d i 0 0 && !m.bit b d i 0 1
/-- A station instance that a write of its control register puts back to work is in service again, unless it is fenced or out for a
persistent parity error (R268, R380). -/
def Mach.noteOn (m : Mach) (b : Blk) (d i off : Nat) (was : Bool) : Mach :=
  match blkInst b d i with
  | none => m
  | some j => if off = 0 && !was && m.atWork b d i && !m.fencedInst j && !(m.die d).persistent.contains (slotOf b i) then
      m.setService j true else m
/-- Would the write clear the enable of a bench whose drained reads 0? It acts as a write of 1 to drain (R146). -/
def Mach.stillBusy (m : Mach) (b : Blk) (d i off new : Nat) : Bool :=
  b == .bench && off == 0 && bitAt (m.reg b d i off) 0 && !bitAt new 0 && !bitAt (m.idleBits ⟨.bench, d, i⟩) 1
/-- Note a bench whose enable falls later, or forget it at another write of its control register (R146). -/
def Mach.noteOff (m : Mach) (b : Blk) (d i off : Nat) (late : Bool) : Mach :=
  if b = .bench ∧ off = 0 then
    { m with benchOffs := m.benchOffs.filter (· != 32 * d + i) ++ (if late then [32 * d + i] else []) }
  else m
/-- Does the word ask for a reset of a block that there is not? -/
def noBlock (b : Blk) (off new : Nat) : Bool :=
  b == .aopm && off == 8 && bitAt new 31 && (blockAt (fld new 9 9) (fld new 8 0)).isNone
/-- The word a register holds once its RW bits are `v`'s. -/
def Mach.newWord (m : Mach) (b : Blk) (d i off : Nat) (r : RegRow) (v : Nat) : Nat :=
  let rw := rwMask b i off r
  (m.reg b d i off &&& (0xFFFFFFFF ^^^ rw)) ||| (v &&& rw)

/-- One update of a listed register: `v` gives the RW bits, `clr` the W1C bits to clear. -/
def Mach.rowUpd (m : Mach) (b : Blk) (d i sl off : Nat) (r : RegRow) (v clr : Nat) : Mach :=
  let new := m.newWord b d i off r v
  match r.cls with
  | .counter => m
  | .status => m.clearBits b d i off clr r
  | .config => if m.locked b d i then m.lockedWrite b d i else (m.putReg b d i off new).setParity d sl off
  | .control =>
    if noBlock b off new then m.badAccess 0 else
    let late := m.stillBusy b d i off new
    let new := if late then new ||| 3 else new
    let was := m.atWork b d i
    ((((m.putReg b d i off new).noteOn b d i off was).noteOff b d i off late).clearBits b d i off clr r).writeEffect b d i off v

/-- One update of a register: `f` gives the RW bits. -/
def Mach.regUpd (m : Mach) (d s off : Nat) (f : Nat → Nat) (clr : Nat) : Mach :=
  match blockAt d s with
  | none => m.badAccess d
  | some (b, i) =>
    match regRow b off with
    | none => m.badAccess d
    | some r => (m.touch d s).rowUpd b d i s off r (f (m.reg b d i off)) clr

/-- A write through the alias window (R371 to R374). -/
def Mach.aliasWrite (m : Mach) (d s a w : Nat) : Mach :=
  match blockAt d s with
  | none => m.badAccess d
  | some (b, _) =>
    if m.bitMode d s then
      let off := a / 128 * 4
      let k := a / 4 % 32
      if (regRow b off).isNone || noAlias b off then m.badAccess d else
      m.regUpd d s off (fun old => setFld old k k w) (if w % 2 = 1 then 2 ^ k else 0)
    else
      let off := a % 0x4000
      if 0xC000 ≤ a || (regRow b off).isNone || noAlias b off then m.badAccess d
      else if a < 0x4000 then m.regUpd d s off (fun old => old ||| w) 0
      else if a < 0x8000 then m.regUpd d s off (fun old => old &&& (0xFFFFFFFF ^^^ w)) w
      else m.regUpd d s off (fun old => old ^^^ w) 0

/-- A write of `size` bytes (R367). -/
def Mach.csrWrite (m : Mach) (addr size w : Nat) : Mach :=
  match csrSplit addr with
  | none => m
  | some (d, s, o) =>
    if !m.csrUp d s then m
    else if size ≠ 4 ∨ addr % 4 ≠ 0 then m.badAccess d
    else if o < 0x10000 then m.regUpd d s o (fun _ => w) w else m.aliasWrite d s (o - 0x10000) w

/-- A write to a register by block, instance and offset. -/
def Mach.regWrite (m : Mach) (b : Blk) (d i off : Nat) (w : Word) : Mach :=
  if d < 2 && m.csrUp d (slotOf b i) then m.regUpd d (slotOf b i) off (fun _ => w.toNat) w.toNat else m

/-- A read whose value goes out. -/
def Mach.csrReadOut (m : Mach) (addr size : Nat) : Mach :=
  let (m, v) := m.csrRead addr size
  m.emit (.csrRead addr v)

/-! ### Parity (R375 to R377) -/

/-- An upset inverts bits of a configuration register: its value is wrong, and its parity where they are odd in number. The shadow
copy stands (R377). -/
def Mach.csrUpset (m : Mach) (d s off flip : Nat) : Mach :=
  match blockAt d s with
  | none => m
  | some (b, i) =>
    if flip = 0 || !(regRow b off).any (fun r => r.cls == .config) then m else
    let a := csrAddr d s off
    let old := m.reg b d i off
    let new := Nat.xor old (flip % 2 ^ 32)
    let odd := ((List.range 32).countP (bitAt flip)) % 2 == 1
    let was := mapGetD m.shadow a old
    let m := m.putReg b d i off new
    { m with shadow := if was = new then mapDel m.shadow a else mapSet m.shadow a was
             badPar := if !odd then m.badPar else if m.badPar.contains a then m.badPar.filter (· != a)
                       else sortBy id (a :: m.badPar) }
/-- PARITY_SCAN: the scan visits a register. -/
def Mach.parityScan (m : Mach) (d s off flip : Nat) : Mach :=
  let m := if m.csrUp d s then m.csrUpset d s off flip else m
  if m.csrUp d s && m.badPar.contains (csrAddr d s off) then m.parityFound d s else m

/-- The configuration registers of a block. -/
def configOffs (b : Blk) : List Nat :=
  ((blkMap b).filter fun r => r.cls == .config).flatMap fun r =>
    (List.range ((r.last - r.first) / 4 + 1)).map fun k => r.first + 4 * k

/-- Firmware writes every configuration register of a block from its shadow copy and clears cfg_parity (R377). -/
def Mach.reload (m : Mach) (b : Blk) (d s : Nat) : Mach :=
  let m := (configOffs b).foldl (fun m o => m.regUpd d s o (mapGetD m.shadow (csrAddr d s o)) 0) m
  match lockBits b with
  | some (_, some pb) => m.regUpd d s 4 id (2 ^ pb)
  | _ => m
/-- CFG_PARITY_RELOAD (R377). At the third failure of a register within a second the instance is drained and taken out of service
instead, until a block reset. A memory channel is reloaded for the time of its drain; a block that has no drain is disabled (the
model's choice, log entry 83). A bench that holds a disputed row is reloaded once the row is resolved (R362). -/
def Mach.parityReload (m : Mach) (d s : Nat) : Mach :=
  match blockAt d s with
  | none => m
  | some (b, i) =>
    match m.parityBad d s with
    | none =>
      (match lockBits b with
       | some (_, some pb) => if m.bit b d i 4 pb then m.regUpd d s 4 id (2 ^ pb) else m
       | _ => m)
    | some off =>
      if b == .bench && m.holdsRow (32 * d + i) then m else
      let now := m.power.aoMs
      let bad := m.badPar.filter fun a => csrBase d s ≤ a && a < csrBase d s + 0x10000
      let m := m.updDie d fun x => { x with
        parityFails := bad.map (fun a => (a, now)) ++ x.parityFails.filter fun q => now < q.2 + 1000 }
      let third := bad.any fun a => 3 ≤ ((m.die d).parityFails.countP fun q => q.1 == a)
      if !third then m.reload b d s else
      let m := (m.updDie d fun x => { x with persistent := s :: x.persistent.filter (· != s) }).fwEvent evCfgParityPersistent d s none
        (toLe 2 s ++ toLe 2 off)
      match blkInst b d i, b with
      | some inst, _ => (m.setBit b d i 0 1).setService inst false
      | none, .memc =>
        let m := m.reload b d s
        (m.beginDrain ⟨64 ≤ i, d, if 64 ≤ i then i - 64 else i⟩).getD m
      | none, _ => m.clrBit b d i 0 0

end Sys2Proof.Machine
end

