-- ==== Sys2Proof/Machine/Configure.lean ====
section
/-! DEFINITION. How Gaffer firmware configures and enables the blocks of a die (step 8 of bring-up, R423, and after a die
reset), and how it keeps the registers equal to the dictionary entries that they copy (R44, R48, R49, R110, R191, R299,
R380, R425, R426). -/

namespace Sys2Proof.Machine

/-- The mode field of PART_CFG and SYNC_CFG (R49, R299). -/
def modeCode (mode : Nat) : Nat := if mode = 4 then 2 else if mode = 2 then 1 else 0

/-- A mask of the indices below `n` that satisfy `f`. -/
def maskOf (n : Nat) (f : Nat → Bool) : Nat := ((List.range n).map fun k => if f k then 2 ^ k else 0).sum

/-- PART instance `p` of a die: bounds, masks and enable; disabled where the mode lacks the partition (R49). -/
def Mach.configPart (m : Mach) (d p : Nat) : Mach :=
  if m.mode ≤ p then m.clrBit .part d p 0 0 else
  let g (t : Tier) := partRegion m.mode p t
  let lo (t : Tier) := (g t).1 / 65536
  let hi (t : Tier) := ((g t).1 + (g t).2) / 65536 - 1
  let vs : List (Nat × Nat) :=
    [(0x08, p + 4 * modeCode m.mode), (0x10, lo .hbm), (0x14, hi .hbm), (0x18, lo .lp), (0x1C, hi .lp),
     (0x20, lo .cru), (0x24, hi .cru), (0x28, m.htabAddr p 0 / 65536), (0x2C, m.dnum (0x2010 + p) 1),
     (0x30, maskOf 32 fun k => instOwned m.mode p ⟨.bench, 0, k⟩),
     (0x34, maskOf 32 fun k => instOwned m.mode p ⟨.bench, 1, k⟩), (0x38, maskOf 32 (laneOwned m.mode p))]
  (vs.foldl (fun (m : Mach) v => m.cfgPut .part d p v.1 v.2) m).setBit .part d p 0 0

/-- The encoding policy of a partition as MARVER_POLICY and LEHR_POLICY hold it (R110, R191). -/
def Mach.policyWord (m : Mach) (p : Nat) : Nat :=
  m.dnum (0x4100 + p) 4 % 4 + 4 * (m.dnum (0x4100 + p) 5 % 4) + 16 * (m.dnum (0x4100 + p) 6 % 4)
    + 64 * (m.dnum (0x4100 + p) 3 % 2)

/-- The logical engines that a Pontil instance serves: the partition's k-th instance serves engine k (R318, R334). -/
def pontilEngine (mode : Nat) (i : Inst) : Nat :=
  if mode = 1 then 2 * i.die + i.idx else if mode = 2 then i.idx else 0

/-- A station instance: the partition it serves, its policy or engines, enabled. -/
def Mach.configStation (m : Mach) (i : Inst) : Mach :=
  let b := i.kind.blk
  let p := m.ownerOf i
  let m := match i.kind with
    | .pontil => m.cfgPut b i.die i.idx 8 (p + 4 * 2 ^ pontilEngine m.mode i)
    | .marver | .lehr => (m.cfgPut b i.die i.idx 8 p).cfgPut b i.die i.idx 0xC (m.policyWord p)
    | _ => m.cfgPut b i.die i.idx 8 p
  m.putReg b i.die i.idx 0 1

/-- SYNC: the mode, the wait watchdogs, the clock gating of idle stations. -/
def Mach.configSync (m : Mach) (d : Nat) : Mach :=
  let m := m.cfgPut .sync d 0 8 (modeCode m.mode)
  let m := (List.range 4).foldl (fun (m : Mach) p => m.putReg .sync d 0 (0x10 + 4 * p) (m.dnum (0x5040 + p) 1 * 1000)) m
  m.putReg .sync d 0 0 (1 + 2 * (m.dnum 0x3004 1 % 2))

/-- The service bits of a die: every instance but the fenced ones, every channel but those drained, fenced or failed
(R380, R423). -/
def Mach.configService (m : Mach) (d : Nat) : Mach :=
  let m := StKind.all.foldl (fun (m : Mach) k => (List.range k.perDie).foldl (fun (m : Mach) i =>
    m.setService ⟨k, d, i⟩ (!m.fencedInst ⟨k, d, i⟩)) m) m
  [false, true].foldl (fun (m : Mach) lp => (List.range (if lp then 32 else 64)).foldl (fun (m : Mach) i =>
    let c : Chan := ⟨lp, d, i⟩
    let s := m.chan c
    m.setChanService c (!(s.failedTrain || s.state == 2 || s.state == 4))) m) m

/-- Every block of a die configured and enabled. -/
def Mach.configDie (m : Mach) (d : Nat) : Mach :=
  let m := (m.putReg .ident d 0 8 (m.level % 2 ^ 32)).configService d
  let m := (List.range 4).foldl (fun (m : Mach) p => m.configPart d p) m
  let m := StKind.all.foldl (fun (m : Mach) k => (List.range k.perDie).foldl (fun (m : Mach) i =>
    m.configStation ⟨k, d, i⟩) m) m
  let m := (List.range 96).foldl (fun (m : Mach) i => m.putReg .memc d i 0 3) m
  (m.configSync d).putReg .event d 0 0 1

/-- Registers that copy dictionary entries, after a change of the entry, on the dies that run. -/
def Mach.mirror (m : Mach) (i sub : Nat) : Mach :=
  let ds := [0, 1].filter fun d => (m.die d).up && m.restricted == 0
  if i / 4 = 0x4100 / 4 ∧ 3 ≤ sub ∧ sub ≤ 6 then
    let p := i - 0x4100
    ds.foldl (fun (m : Mach) d => [(StKind.marver, Blk.marver), (StKind.lehr, Blk.lehr)].foldl (fun (m : Mach) k =>
      (List.range k.1.perDie).foldl (fun (m : Mach) n =>
        if instOwned m.mode p ⟨k.1, d, n⟩ then m.cfgPut k.2 d n 0xC (m.policyWord p) else m) m) m) m
  else if i / 4 = 0x2010 / 4 ∧ sub = 1 then ds.foldl (fun (m : Mach) d => m.configPart d (i - 0x2010)) m
  else if i / 4 = 0x5040 / 4 ∧ sub = 1 then
    ds.foldl (fun (m : Mach) d => m.putReg .sync d 0 (0x10 + 4 * (i - 0x5040)) (m.dnum i 1 * 1000)) m
  else if i = 0x3004 ∧ sub = 1 then
    ds.foldl (fun (m : Mach) d => if m.dnum i 1 = 1 then m.setBit .sync d 0 0 1 else m.clrBit .sync d 0 0 1) m
  else if i = 0x3005 ∧ (sub = 1 ∨ sub = 2) then
    m.putReg .aopm 0 0 0x10 (m.dnum 0x3005 1 % 8 + 8 * (m.dnum 0x3005 2 % 4096))
  else m

/-- A new partition mode: empty handle tables, every context FREE, programs unloaded, the blocks configured anew (R47). -/
def Mach.newMode (m : Mach) : Mach :=
  let m : Mach := { m with
    tensors := [], progs := [], groups := [], ctxs := List.replicate 32 {}, colls := [], disputes := [], ckpts := []
    digest := [], claims := [], hosted := [], warm := [], gemms := [], benches := [] }
  -- entries that select a counter or a barrier of a partition
  let m := (List.range 4).foldl (fun (m : Mach) p => (m.dset (0x5040 + p) 0x20 0).dset (0x5040 + p) 0x22 0) m
  [0, 1].foldl (fun (m : Mach) d => if (m.die d).up && m.restricted == 0 then
    StKind.all.foldl (fun (m : Mach) k => (List.range k.perDie).foldl (fun (m : Mach) i => m.configStation ⟨k, d, i⟩) m)
      (((List.range 4).foldl (fun (m : Mach) p => m.configPart d p) m).configSync d) else m) m

end Sys2Proof.Machine
end

