-- ==== Sys2Proof/Machine/Ranges.lean ====
section
/-! DEFINITION. The stated ranges of dictionary values (check 6 of R391), the copies of the configuration store and what boot
loads from them (R401 to R404). -/

namespace Sys2Proof.Machine

/-! ### Ranges -/

/-- The F32 value of an entry. -/
def Mach.dF32 (m : Mach) (i sub : Nat) : Word := BitVec.ofNat 32 (m.dnum i sub)

/-- May the group record be written, field by field (R320)? The record of an undefined group has owner 0xFF. -/
def groupFieldsOk (bs : Bytes) : Bool :=
  let n := leAt bs 2 2
  if bs.length < 32 || leAt bs 14 2 != 0 || leAt bs 24 8 != 0 then false
  else if leAt bs 0 1 = 255 then bs.length == 32 || bs.length == 32 + 4 * n
  else bs.length == 32 + 4 * n && leAt bs 0 1 < 4 && (leAt bs 1 1 == 1 || leAt bs 1 1 == 2 || leAt bs 1 1 == 4)
    && 1 ≤ n && n ≤ 4096 && leAt bs 8 2 < n && 1 ≤ leAt bs 12 1 && 1 ≤ leAt bs 13 1 && leAt bs 13 1 ≤ 8
    && 256 ≤ leAt bs 16 4 && leAt bs 16 4 ≤ 8192 && 16 ≤ leAt bs 20 4 && leAt bs 20 4 ≤ 4096
    && (List.range n).all fun r => leAt bs (32 + 4 * r) 4 < 16384

/-- The values of a table-map record (R232, R243). -/
def tableFieldsOk (bs : Bytes) : Bool :=
  let t := TableMap.ofBytes bs
  tableMapResvOk bs && (t.table == 0 ||
    (1 ≤ t.rows && t.rows ≤ 2 ^ 48 && 1 ≤ t.shards && t.shards ≤ 4096 && t.rank < t.shards && t.cgroup < 32))

/-- The values of a ring-pair record; what else must hold when it is enabled is R488's. -/
def ringFieldsOk (bs : Bytes) : Bool := bs.length == 32 && leAt bs 19 1 ≤ 1 && leAt bs 20 12 == 0

/-- The ranges that the tables give in terms of other values. -/
def Mach.specialOk (m : Mach) (i sub n : Nat) : Bool :=
  let x : Word := BitVec.ofNat 32 n
  if i / 4 = 0x4100 / 4 then 1 ≤ n && n ≤ m.dnum i 7
  else if i / 4 = 0x4120 / 4 then
    (if sub = 1 then finNonneg x && fpLt x (m.dF32 i 2)
     else if sub = 2 then isFin x && fpLt x (m.dF32 i 3) else isFin x)
  else if i / 4 = 0x2030 / 4 then n ≤ (partRegion m.mode 0 .lp).2 / 1048576
  else if i / 4 = 0x2048 / 4 then n ≤ (partRegion m.mode 0 .hbm).2 / 1048576
  else if i / 4 = 0x5040 / 4 then
    (if sub = 1 then 1 ≤ n && n ≤ 600000
     else if sub = 2 then 10 ≤ n && n ≤ 600000 && m.dnum i 1 ≤ n
     else if sub = 0x20 then n < ctrCount m.mode
     else n < barCount m.mode || (256 ≤ n && n - 256 < fbarCount m.mode))
  else if i / 4 = 0x7030 / 4 then n == 0 || (16 ≤ n && n < 32) || (48 ≤ n && n < 64)
  else if i = 0x6010 then (svcChan n).isSome
  else if i = 0xA003 then n < 2 ^ 48 && (csrSplit n).isSome
  else true

/-- The bytes of a STRING or BLOB entry: a fixed layout has its length, and reserved bytes are zero. -/
def Mach.blobOk (m : Mach) (i sub : Nat) (bs : Bytes) : Bool :=
  if i / 4 = 0x4130 / 4 then
    (if sub ≤ 0x10 then optSlotOk bs
     else bs.length == 16 && leAt bs 4 4 == 0 && finNonneg (BitVec.ofNat 32 (leAt bs 0 4)))
  else if i / 4 = 0x2040 / 4 then tableFieldsOk bs
  else if i / 4 = 0x5008 / 4 then
    bs.length == 8192 && (List.range 4096).all fun k =>
      let w := leAt bs (2 * k) 2
      (List.range 16).all fun q => !bitAt w q || (q < m.portCount && m.portPart q == i - 0x5008)
  else if i / 32 = 0x5100 / 32 then groupFieldsOk bs
  else if i = 0x8004 then bs.length == 3405
  else if i = 0x8010 then bs.length == 8192
  else if i = 0x8030 then bs.length == 32
  else if 0x9121 ≤ i ∧ i ≤ 0x912F then ringFieldsOk bs
  else true

/-- Has the value of a STRING or BLOB entry of a fixed layout its length (check 5 of R391)? -/
def blobLenOk (i sub : Nat) (bs : Bytes) : Bool :=
  if i / 4 = 0x4130 / 4 then bs.length == (if sub ≤ 0x10 then 64 else 16)
  else if i / 4 = 0x2040 / 4 then bs.length == 32
  else if i / 4 = 0x5008 / 4 ∨ i = 0x8010 then bs.length == 8192
  else if i / 32 = 0x5100 / 32 then
    decide (32 ≤ bs.length) && (bs.length == 32 + 4 * leAt bs 2 2 || (leAt bs 0 1 == 255 && bs.length == 32))
  else if i = 0x8004 then bs.length == 3405
  else if i = 0x8030 ∨ (0x9121 ≤ i ∧ i ≤ 0x912F) then bs.length == 32
  else true

/-- Is the value within the entry's stated range (check 6 of R391)? -/
def Mach.rangeOk (m : Mach) (r : DictRow) (i sub : Nat) (bs : Bytes) : Bool :=
  let n := ofLe bs
  match r.typ with
  | .string | .blob => m.blobOk i sub bs
  | t =>
    let fin := t != .f32 || isFin (BitVec.ofNat 32 n)
    match r.range with
    | .any => fin && (t != .handle || n < 2 ^ 20)
    | .span lo hi => lo ≤ n && n ≤ hi
    | .spanOr lo hi o => (lo ≤ n && n ≤ hi) || n == o
    | .oneOf vs => vs.contains n
    | .mask w => n &&& w == n
    | .f32fin => fin
    | .f32span lo hi => lo ≤ n && n ≤ hi
    | .special => m.specialOk i sub n

/-! ### Copies of the configuration store (R401, R402) -/

/-- The largest copy. -/
def storeRegion : Nat := 524288
def storeMagic : Nat := 0x54534353
/-- A record: its key (index × 256 + sub), type and value. -/
structure StoreRec where
  key : Nat
  typ : Nat
  val : Bytes
  deriving DecidableEq, Repr

def StoreRec.toBytes (r : StoreRec) : Bytes :=
  toLe 2 (r.key / 256) ++ toLe 1 r.key ++ toLe 1 r.typ ++ toLe 2 r.val.length ++ zeroBytes 2
    ++ fitBytes (roundUp r.val.length 4) r.val

/-- The records of a copy's body, parsed to its end. -/
def storeParse : Nat → Bytes → Option (List StoreRec)
  | 0, bs => if bs.isEmpty then some [] else none
  | fuel + 1, bs =>
    if bs.isEmpty then some [] else
    let n := leAt bs 4 2
    let len := 8 + roundUp n 4
    if bs.length < len ∨ leAt bs 6 2 ≠ 0 then none else
    (storeParse fuel (bs.drop len)).map fun rs =>
      ⟨leAt bs 0 2 * 256 + leAt bs 2 1, leAt bs 3 1, subBytes bs 8 n⟩ :: rs

/-- A copy with a version: header, records in ascending order, check word. -/
def storeCopy (version fw : Nat) (rs : List StoreRec) : Bytes :=
  let body := rs.flatMap StoreRec.toBytes
  let bs := toLe 4 storeMagic ++ toLe 4 version ++ toLe 4 (36 + body.length) ++ toLe 4 rs.length ++ toLe 4 fw ++ zeroBytes 12
    ++ body
  bs ++ toLe 4 (crc32c bs).toNat

/-- The version and records of a copy; none when it is not valid. -/
def storeValid (bs : Bytes) : Option (Nat × List StoreRec) :=
  let len := leAt bs 8 4
  if leAt bs 0 4 ≠ storeMagic ∨ len < 36 ∨ storeRegion < len ∨ bs.length < len ∨ leAt bs 20 12 ≠ 0 then none
  else if leAt bs (len - 4) 4 ≠ (crc32c (bs.take (len - 4))).toNat then none
  else match storeParse (len / 8 + 1) ((bs.take (len - 4)).drop 32) with
    | none => none
    | some rs =>
      if rs.length = leAt bs 12 4 ∧ strictAsc (rs.map (·.key)) then some (leAt bs 4 4, rs) else none

/-- The records of the stored entries that differ from their defaults. -/
def Mach.storeRecs (m : Mach) : List StoreRec :=
  m.dict.filterMap fun q =>
    match dictRow (q.1 / 256) (q.1 % 256) with
    | some r => if r.pers = .stored then some ⟨q.1, r.typ.code, q.2⟩ else none
    | none => none

/-! ### Loading the store (R403) -/

/-- Does the running firmware define the record's entry, in this form? -/
def StoreRec.row? (r : StoreRec) : Option DictRow :=
  match dictRow (r.key / 256) (r.key % 256) with
  | none => none
  | some row =>
    let lenOk : Bool := match row.typ.size with | some n => r.val.length == n | none => decide (r.val.length ≤ row.maxLen)
    if row.pers = .stored ∧ row.typ.code = r.typ ∧ lenOk = true then some row else none
/-- Load the records; those out of range take their default. The machine, and how many were skipped. -/
def Mach.loadRecs (m : Mach) (rs : List StoreRec) : Mach × Nat :=
  let known := rs.filter fun r => r.row?.isSome
  let all := known.foldl (fun (m : Mach) r => m.dictPut (r.key / 256) (r.key % 256) r.val) m
  known.foldl (fun (acc : Mach × Nat) r =>
    let ok := match r.row? with
      | some row => all.rangeOk row (r.key / 256) (r.key % 256) r.val
      | none => false
    if ok then acc
    else (acc.1.dictPut (r.key / 256) (r.key % 256) (dictDefault (r.key / 256) (r.key % 256)), acc.2 + 1))
    (all, rs.length - known.length)

/-- The strikes in force, as the strike log tells them: of an instance that is not fenced, those after its last fencing. -/
def strikesOf (log : Bytes) (fenced : List Nat) : List Strike :=
  let rs := (pieces 32 (log.length / 32) log).reverse
  rs.foldl (fun (a : List Strike) r =>
    let id := leAt r 8 2
    if leAt r 12 1 = 1 ∧ !fenced.contains id then a.filter (·.inst != id)
    else a ++ [⟨id, leAt r 10 1, leAt r 0 8⟩]) []

/-- The controller loads the valid copy with the higher version. -/
def Mach.loadStore (m : Mach) : Mach :=
  let a := storeValid m.store.copyA
  let b := storeValid m.store.copyB
  let pick : Option (Nat × Nat × List StoreRec) := match a, b with
    | some x, some y => if x.1 < y.1 then some (1, y) else some (0, x)
    | some x, none => some (0, x)
    | none, some y => some (1, y)
    | none, none => none
  let m := match pick with
    | none =>
      ({ m with store := { m.store with inForce := 255, damaged := false, defaults := true } } : Mach).moEvent evDefaultsUsed
    | some (k, v, rs) =>
      let m : Mach := { m with store := { m.store with inForce := k, version := v, damaged := a.isNone || b.isNone } }
      let (m, skips) := m.loadRecs rs
      if skips = 0 then m else (m.dset 0x9020 2 skips).moEvent evStoreEntrySkipped (toLe 2 skips)
  let m := (List.range 32).foldl (fun (m : Mach) g => if cgDefined (m.cgRec g) then m.dset (0x5100 + g) 2 1 else m) m
  let m := m.dset 0x7002 3 m.fencedList.length
  { m with strikes := strikesOf (m.dict? 0x7001 0x20) m.fencedList }.expireStrikes

/-! ### The powered-time log (R404) -/

/-- A record: magic, powered milliseconds, check word. -/
def timeRec (ms : Nat) : Bytes :=
  let b := toLe 4 0x50544C47 ++ toLe 8 ms
  b ++ toLe 4 (crc32c b).toNat
/-- The milliseconds of a record; none when it is not valid. -/
def timeOf (b : Bytes) : Option Nat :=
  if b.length = 16 ∧ leAt b 0 4 = 0x50544C47 ∧ leAt b 12 4 = (crc32c (b.take 12)).toNat then some (leAt b 4 8) else none
/-- Records of 16 bytes in a sector of 64 KiB. -/
def timeSector : Nat := 4096
/-- When the sector that is written is full, the other is erased, and the records go on there. -/
def TimeLog.turn (l : TimeLog) : TimeLog :=
  if l.inB then (if timeSector ≤ l.secB.length then { l with secA := [], inB := false } else l)
  else if timeSector ≤ l.secA.length then { l with secB := [], inB := true } else l
/-- Append a record where the sector has room. -/
def TimeLog.append (l : TimeLog) (r : Bytes) : TimeLog :=
  if l.inB then (if l.secB.length < timeSector then { l with secB := l.secB ++ [r] } else l)
  else if l.secA.length < timeSector then { l with secA := l.secA ++ [r] } else l

/-- The powered time at boot: the largest count of a valid record (R404). -/
def Mach.loadTime (m : Mach) : Mach :=
  let l := m.store.timeLog
  { m with
    store := { m.store with timeLog := if m.power.nvInhibit then l else l.turn }
    power := { m.power with aoMs := ((l.secA ++ l.secB).filterMap timeOf).foldl max 0 } }

end Sys2Proof.Machine
end

