-- ==== Sys2Proof/Machine/Vault.lean ====
section
/-! DEFINITION. The security chapter's records: the key chain, firmware images and slots, anti-rollback, waivers, measurements,
quotes (spec/17, R427 to R442). -/

namespace Sys2Proof.Machine

/-- H: SHAKE256 with 32 bytes of output. -/
def hash32 (bs : Bytes) : Bytes := shake256 bs 32

/-- "TSP-ID", "TSP-AR", "TSP-PUF-CHK" (R435). -/
def strId : Bytes := [0x54, 0x53, 0x50, 0x2D, 0x49, 0x44]
def strAr : Bytes := [0x54, 0x53, 0x50, 0x2D, 0x41, 0x52]
def strChk : Bytes := [0x54, 0x53, 0x50, 0x2D, 0x50, 0x55, 0x46, 0x2D, 0x43, 0x48, 0x4B]

/-- The bytes of an open constant. -/
def constBytes (n : Nat) (f : Nat → Byte) : Bytes := (List.range n).map f
def serialBytes : Bytes := constBytes 16 Config.serial
def isZero (bs : Bytes) : Bool := bs.all (· == 0)
/-- The check digest of the SRAM-PUF helper data (R435). -/
def pufCheck : Bytes := hash32 (strChk ++ constBytes 32 Config.pufKey)
/-- The identity certificate (R437): the serial, the identity public key, the index of its root key, the signature over them. -/
def certBytes : Bytes :=
  let b := serialBytes ++ fitBytes 1952 (Config.mldsaPublic (hash32 (strId ++ constBytes 32 Config.pufKey))) ++ toLe 2 Config.certIndex.toNat
  b ++ fitBytes 3309 (Config.mldsaSign Config.certSeed b 0)

/-! ### The flash's regions (R427) -/

/-- Who writes a region. -/
inductive FlashWriter where
  | firmware     -- the management firmware
  | host         -- the management firmware, from the host
  | moduleTest   -- module test only: every master is refused
  | nobody       -- reserved
  deriving DecidableEq, Repr
/-- The regions of the 64 MiB flash in order of offset, which each begins where the one before ends: KiB, and who writes it. Boot control;
key-transition records; anti-rollback records; calibration record; SRAM-PUF helper data; identity certificate; waiver records; reserved;
the four firmware slots; trained values; powered-time log; reserved; configuration store. No command names a flash offset: what the
firmware keeps in a region is `Flash` and `Store`, and what module test wrote is of `Config`. -/
def flashRegions : List (Nat × FlashWriter) :=
  [(128, .firmware), (128, .host), (128, .firmware), (128, .moduleTest), (64, .moduleTest), (64, .moduleTest), (128, .host), (256, .nobody),
    (4096, .firmware), (4096, .firmware), (16384, .firmware), (16384, .firmware), (19456, .firmware), (128, .firmware), (2944, .nobody),
    (1024, .firmware)]
/-- The offset of region `k`. -/
def flashOffset (k : Nat) : Nat := ((flashRegions.take k).map fun r => r.1 * 1024).sum

/-! ### The key chain (R428, R429) -/

def keyMagic : Nat := 0x4B545352
/-- Place 0: pk_0 with index 0 and a zero signature. -/
def keyRecord0 : Bytes := fitBytes 8192 (toLe 4 keyMagic ++ zeroBytes 4 ++ constBytes 1952 Config.rootKey)
/-- The chain's records, in place order. -/
def Flash.chain (f : Flash) : List Bytes := keyRecord0 :: f.keys
/-- The public key of a record. -/
def keyOf (r : Bytes) : Bytes := subBytes r 8 1952
/-- The active root key: the last of the chain. -/
def Flash.rootPk (f : Flash) : Bytes := keyOf ((f.chain.getLast?).getD [])
/-- Does a record of 8 KiB verify as the next of the chain? -/
def Flash.keyOk (f : Flash) (r : Bytes) : Bool :=
  r.length == 8192 && leAt r 0 4 == keyMagic && leAt r 4 2 == f.chain.length && leAt r 6 2 == 0 && isZero (r.drop 5269)
  && Config.mldsaVerify f.rootPk (r.take 1960) (subBytes r 1960 3309)
/-- The chain is valid when it is as long as the anti-rollback record in force says. -/
def Flash.chainValid (f : Flash) : Bool := f.force.keyCount ≤ f.chain.length

/-! ### Images (R430) -/

def imgVersion (b : Bytes) : Nat := leAt b 8 4
def imgSvn (b : Bytes) : Nat := leAt b 12 4
def imgIf (b : Bytes) : Nat := leAt b 16 2
def imgPeerMin (b : Bytes) : Nat := leAt b 18 2
def imgPeerMax (b : Bytes) : Nat := leAt b 20 2
def imgSeam (b : Bytes) : Nat := leAt b 22 2
def imgNumerics (b : Bytes) : Nat := leAt b 24 4
/-- The stepping codes of a list of eight: unused bytes are 0. -/
def stepHas (b : Bytes) (off : Nat) : Bool := (subBytes b off 8).contains 0xB0
/-- The image digest. -/
def imgDigest (b : Bytes) : Bytes := hash32 (fitBytes 512 b)
/-- Bytes of a slot of a kind: 0 management, 1 Gaffer. -/
def slotSize (kind : Nat) : Nat := if kind = 0 then 4194304 else 16777216
/-- The anti-rollback counter of a kind. -/
def AntiRollback.svn (a : AntiRollback) (kind : Nat) : Nat := if kind = 0 then a.svnMgmt else a.svnGaffer

/-- Does an image verify? -/
def Flash.imageOk (f : Flash) (kind : Nat) (b : Bytes) : Bool :=
  let n := leAt b 28 4
  4096 ≤ b.length && leAt b 0 4 == 0x464D5754 && leAt b 4 1 == kind && leAt b 5 1 == 1
  && isZero (subBytes b 6 2) && isZero (subBytes b 40 8) && isZero (subBytes b 80 432) && isZero (subBytes b 3821 275)
  && n ≤ slotSize kind - 4096 && 4096 + n ≤ b.length
  && f.chainValid && Config.mldsaVerify f.rootPk (b.take 512) (subBytes b 512 3309)
  && hash32 (subBytes b 4096 n) == subBytes b 48 32 && f.force.svn kind ≤ imgSvn b

def Flash.slot (f : Flash) (kind k : Nat) : FwSlot := f.slots.getD (2 * kind + k) {}
def Flash.updSlot (f : Flash) (kind k : Nat) (g : FwSlot → FwSlot) : Flash := { f with slots := updAt f.slots (2 * kind + k) g }
def Flash.boot (f : Flash) (kind : Nat) : BootCtl := f.ctl.getD kind {}
/-- What the check word of a boot control copy covers. -/
def BootCopy.body (c : BootCopy) : Bytes :=
  (c.ctl.flatMap fun x => toLe 1 x.active ++ toLe 1 x.trial.toNat ++ toLe 1 x.left) ++ toLe 4 c.ver
/-- The boot control record after a change: written over the other copy, with the next version (R431). -/
def Flash.updBoot (f : Flash) (kind : Nat) (g : BootCtl → BootCtl) : Flash :=
  let c : BootCopy := { ver := f.ctlCopy.ver + 1, ctl := updAt f.ctl kind g }
  { f with ctl := c.ctl, ctlCopy := { c with crc := crc32c c.body }, ctlOther := f.ctlCopy }
/-- Boot uses the valid copy of the boot control record with the higher version (R431); with no valid copy no trial is pending and
slot A is active (the model's choice, log entry 20). -/
def Flash.readBoot (f : Flash) : Flash :=
  let ok (c : BootCopy) : Bool := c.ver != 0 && c.crc == crc32c c.body
  match ok f.ctlCopy, ok f.ctlOther with
  | true, true => if f.ctlCopy.ver < f.ctlOther.ver
      then { f with ctl := f.ctlOther.ctl, ctlCopy := f.ctlOther, ctlOther := f.ctlCopy } else { f with ctl := f.ctlCopy.ctl }
  | true, false => { f with ctl := f.ctlCopy.ctl }
  | false, true => { f with ctl := f.ctlOther.ctl, ctlCopy := f.ctlOther, ctlOther := f.ctlCopy }
  | false, false => { f with ctl := [{}, {}] }
def Flash.slotOk (f : Flash) (kind k : Nat) : Bool := f.imageOk kind (f.slot kind k).image

/-- The slot to run (R432), with the boot control after it. A boot under the write inhibit runs the active slot and costs no
trial. -/
def Flash.selectSlot (f : Flash) (kind : Nat) (inhibit : Bool) : Flash × Option Nat :=
  let c := f.boot kind
  let tries := c.trial && decide (0 < c.left) && !inhibit
  let f := if tries then f.updBoot kind fun c => { c with left := c.left - 1 } else f
  let order := (if tries then [1 - c.active] else []) ++ [c.active, 1 - c.active]
  (f, order.find? fun k => f.slotOk kind k)

/-- A slot other than the trial slot runs while a trial is pending: the trial is over and its slot invalid. -/
def Flash.fallBack (f : Flash) (kind : Nat) : Flash :=
  let k := 1 - (f.boot kind).active
  (f.updSlot kind k fun x => { x with state := 4 }).updBoot kind fun c => { c with trial := false, left := 0 }

/-! ### Pairs and waivers (R440, R442) -/

/-- Are a management and a Gaffer image a tested pair on this module? -/
def testedPair (mi gi : Bytes) : Bool :=
  imgPeerMin mi ≤ imgIf gi && imgIf gi ≤ imgPeerMax mi && imgPeerMin gi ≤ imgIf mi && imgIf mi ≤ imgPeerMax gi
  && stepHas mi 32 && stepHas gi 32

/-- Is a waiver valid: well formed, and signed by the active root key? -/
def Flash.waiverOk (f : Flash) (w : Bytes) : Bool :=
  w.length == 3405 && leAt w 0 4 == 0x57565253 && leAt w 4 2 + 1 == f.chain.length && leAt w 6 2 == 0
  && Config.mldsaVerify f.rootPk (w.take 96) (subBytes w 96 3309)
/-- Does a waiver cover a pair on this module? -/
def Flash.covers (f : Flash) (mi gi w : Bytes) : Bool :=
  f.waiverOk w && (isZero (subBytes w 8 16) || subBytes w 8 16 == serialBytes)
  && subBytes w 24 32 == imgDigest mi && subBytes w 56 32 == imgDigest gi && stepHas w 88
/-- The waiver that covers a pair, the newest first; none covers it. -/
def Flash.waiverFor (f : Flash) (mi gi : Bytes) : Option Bytes := f.waivers.reverse.find? fun w => f.covers mi gi w
/-- What a pairing check of a pair extends M3 with: zeros for a tested pair, H of the waiver that covers another; none: nothing does. -/
def Flash.pairDigest (f : Flash) (mi gi : Bytes) : Option Bytes :=
  if testedPair mi gi then some (zeroBytes 32) else (f.waiverFor mi gi).map hash32
/-- A waiver is stored in the first empty place, or in place of the oldest of sixteen. -/
def Flash.addWaiver (f : Flash) (w : Bytes) : Flash :=
  { f with waivers := (if f.waivers.length < 16 then f.waivers else f.waivers.drop 1) ++ [w] }

/-! ### Anti-rollback (R434) -/

/-- Bytes 0 to 31 of an anti-rollback copy, which its MAC covers, and the whole copy. -/
def AntiRollback.head (a : AntiRollback) : Bytes :=
  toLe 4 a.magic ++ toLe 4 a.seq ++ toLe 4 a.svnMgmt ++ toLe 4 a.svnGaffer ++ toLe 2 a.keyCount ++ zeroBytes 14
def AntiRollback.bytes (a : AntiRollback) : Bytes := a.head ++ fitBytes 32 a.mac
/-- Has the copy its magic, and its MAC under a key? -/
def AntiRollback.valid (a : AntiRollback) (key : Bytes) : Bool := a.magic == 0x41524253 && a.mac == hash32 (key ++ a.head)
/-- The higher counters of two copies. -/
def AntiRollback.join (a b : AntiRollback) : AntiRollback :=
  { seq := max a.seq b.seq, svnMgmt := max a.svnMgmt b.svnMgmt, svnGaffer := max a.svnGaffer b.svnGaffer
    keyCount := max a.keyCount b.keyCount }
/-- Boot reads the anti-rollback record: of the copies with magic and MAC the one of the higher seq is in force (R434). Without K the
higher counters of both count (R436), as they do where no copy is valid (the model's choice, log entry 20). -/
def Vault.readAr (v : Vault) : Vault :=
  let a := v.flash.ar
  let b := v.flash.arOther
  let r := if v.pufFailed then a.join b
    else match a.valid v.arK, b.valid v.arK with
      | true, true => if a.seq < b.seq then b else a
      | true, false => a
      | false, true => b
      | false, false => a.join b
  { v with flash := { v.flash with force := r } }
/-- Raise the counters: a record with the next seq, over the copy that is not in force (R434). Without K no record is written (R436);
none is written that would lower a counter of the copy it replaces, damaged or not (log entry 20). -/
def Vault.raise (v : Vault) (mgmt gaffer keys : Nat) : Vault :=
  let a := v.flash.force
  if v.pufFailed || (mgmt ≤ a.svnMgmt && gaffer ≤ a.svnGaffer && keys ≤ a.keyCount) then v else
  let j := (a.join v.flash.ar).join v.flash.arOther
  let n : AntiRollback := { seq := j.seq + 1, svnMgmt := max j.svnMgmt mgmt, svnGaffer := max j.svnGaffer gaffer
                            keyCount := max j.keyCount keys, magic := 0x41524253 }
  let n := { n with mac := hash32 (v.arK ++ n.head) }
  { v with flash := { v.flash with arOther := if v.flash.arOther == a then a else v.flash.ar, ar := n, force := n } }

/-- Change the flash; while the write inhibit holds, what the flash itself holds is kept aside (R405). -/
def Vault.write (v : Vault) (inhibit : Bool) (g : Vault → Vault) : Vault :=
  let w := g v
  { w with held := if inhibit then some (v.held.getD v.flash) else none }

/-! ### Trained values of the memory interfaces (R270) -/

/-- What a record's check word covers. -/
def PhyRec.body (r : PhyRec) : Bytes :=
  toLe 1 r.unit ++ fitBytes 16 r.serial ++ toLe 2 r.level ++ toLe 4 (r.temp % 4294967296).toNat ++ r.values
/-- May a record be used by firmware of an interface level at a temperature? -/
def PhyRec.usable (r : PhyRec) (level : Nat) (temp : Int) : Bool :=
  r.crc == crc32c r.body && r.serial == serialBytes && r.level == level && (temp - r.temp).natAbs ≤ 120
/-- The record that a full training leaves. -/
def phyRecord (u level : Nat) (temp : Int) (values : Bytes) : PhyRec :=
  let r : PhyRec := ⟨u, serialBytes, level, temp, values, 0⟩
  { r with crc := crc32c r.body }
/-- Keep a record in place of the one its unit had. -/
def Flash.keepTrained (f : Flash) (r : PhyRec) : Flash :=
  { f with trained := sortBy (fun x => x.unit) (r :: f.trained.filter fun x => x.unit != r.unit) }

/-! ### Measurements (R438) -/

def Vault.extend (v : Vault) (r kind : Nat) (d : Bytes) : Vault :=
  let er := toLe 4 v.measLog.length ++ toLe 1 r ++ zeroBytes 3 ++ toLe 4 kind ++ zeroBytes 4 ++ fitBytes 32 d
  { v with meas := updAt v.meas r fun x => hash32 (x ++ toLe 4 kind ++ fitBytes 32 d), measLog := v.measLog ++ [er] }
/-- The extensions at each start of a management image. -/
def Vault.measureMgmt (v : Vault) (k : Nat) : Vault :=
  (v.extend 0 1 (imgDigest (v.flash.slot 0 k).image)).extend 0 2 (hash32 v.flash.chain.flatten)

/-! ### What runs -/

def Vault.slotRunning (v : Vault) (n : Nat) : Option Nat := v.running.getD n none
def Vault.mgmtImage (v : Vault) : Bytes := match v.slotRunning 0 with | some k => (v.flash.slot 0 k).image | none => []
def Vault.gafferImage (v : Vault) (d : Nat) : Bytes :=
  match v.slotRunning (1 + d) with | some k => (v.flash.slot 1 k).image | none => []
def Vault.mgmtVersion (v : Vault) : Nat := imgVersion v.mgmtImage
/-- Is a trial of a kind pending? -/
def Vault.onTrial (v : Vault) (kind : Nat) : Bool := (v.flash.boot kind).trial

/-! ### What the entries read as (R449) -/

/-- fw_slots: state, trials_left, version, svn, if_level, seam_level of each slot. -/
def Vault.slotBytes (v : Vault) (kind k : Nat) : Bytes :=
  let c := v.flash.boot kind
  let x := v.flash.slot kind k
  let tr := c.trial && k != c.active
  let st := if x.state ≠ 1 then x.state else if k = c.active then 2 else if tr then 3 else 1
  let b := x.image
  toLe 1 st ++ toLe 1 (if tr then c.left else 0) ++ zeroBytes 2 ++ toLe 4 (imgVersion b) ++ toLe 4 (imgSvn b)
    ++ toLe 2 (imgIf b) ++ toLe 2 (imgSeam b)

/-- update_state. -/
def updateState (m : Mach) (v : Vault) : Nat :=
  if m.mgmt.restarting then 1 else if m.liveDie = some 1 then 2 else if m.liveDie = some 0 then 3
  else if v.recovery then 5 else if bitAt m.restricted 1 then 6
  else if v.onTrial 0 || v.onTrial 1 then 4 else 0

/-- pair_state. Of a running pair whose waiver has lapsed none of its values is true: it is free (R442, log entry 42). -/
def pairState (m : Mach) (v : Vault) : Nat :=
  if bitAt m.restricted 0 then 2 else match v.lapsed with
  | some n => (Config.freeWord n).toNat % 3
  | none => if v.waiver.isEmpty then 0 else 1

/-! ### Quotes (R439) -/

/-- The index of a master in a quote. -/
def masterNum : Master → Nat | .host => 0 | .mgmt => 1

/-- The quote for a master's nonce. -/
def quoteBytes (m : Mach) (v : Vault) (who : Nat) (nonce : Bytes) : Bytes :=
  let fl := (m.restricted != 0).toNat + 2 * (!v.waiver.isEmpty).toNat + 4 * m.liveDie.isSome.toNat
  let a := v.flash.force
  let body := toLe 1 1 ++ toLe 1 fl ++ toLe 1 who ++ zeroBytes 1 ++ toLe 4 v.quoteSeq ++ serialBytes ++ fitBytes 32 nonce
    ++ toLe 8 m.power.aoMs ++ toLe 4 v.mgmtVersion ++ toLe 4 (m.die 0).gaffer ++ toLe 4 (m.die 1).gaffer ++ toLe 4 m.level
    ++ toLe 4 a.svnMgmt ++ toLe 4 a.svnGaffer ++ toLe 2 a.keyCount ++ toLe 2 (m.dnum 0x5001 2) ++ toLe 4 v.measLog.length
    ++ (v.meas.flatMap fun x => fitBytes 32 x) ++ zeroBytes 32
  fitBytes 256 body ++ fitBytes 3309 (Config.mldsaSign v.xi (fitBytes 256 body) v.signs)

/-- QUOTE_READY: the quote for the nonce that a master wrote. -/
def quoteReady (m : Mach) (v : Vault) (who : Master) : Vault :=
  let n := masterNum who
  match mapGet v.nonces n with
  | none => v
  | some x =>
    if v.pufFailed || m.mgmt.restarting || (mapGet v.quotes n).isSome then v else
    { v with quotes := mapSet v.quotes n (quoteBytes m v n x), quoteSeq := v.quoteSeq + 1, signs := v.signs + 1 }

end Sys2Proof.Machine
end

