-- ==== Sys2Proof/Machine/Reset.lean ====
section
/-! DEFINITION. Resets and bring-up: cold, warm and die reset, the ten steps after a cold reset, restricted mode, Deep
(R399, R403, R409, R412 to R424, R432, R433, R435, R436, R438, R441). -/

namespace Sys2Proof.Machine

def State.setM (s : State) (f : Mach → Mach) : State := { s with m := f s.m }
def State.setV (s : State) (f : Vault → Vault) : State := { s with v := f s.v }

/-- ALERT_N (R409): a supply warning, thermal throttling, or a die held in reset by a cause other than a command. -/
def Mach.alert (m : Mach) : Bool :=
  m.power.warn || m.dies.any fun x => x.throttled || (!x.up && (x.heldBy == 8 || x.heldBy == 9))

/-- The six service words of a die (0x1002.09). -/
def Mach.insvcWords (m : Mach) (d : Nat) : Bytes :=
  [0x10, 0x14, 0x18, 0x1C, 0x20, 0x24].flatMap fun o => toLe 4 (m.reg .ident d 0 o)
/-- The service words as 0x1002 shows them: as they stood before the dies left Run (R388). -/
def Mach.insvcMap (m : Mach) : Bytes :=
  if m.power.insvc.isEmpty then m.insvcWords 0 ++ m.insvcWords 1 else m.power.insvc
/-- Hold the service words while a die is not in Run. -/
def Mach.holdInsvc (m : Mach) : Mach :=
  if m.power.insvc.isEmpty && m.power.ready
  then { m with power := { m.power with insvc := m.insvcWords 0 ++ m.insvcWords 1 } } else m
def Mach.freeInsvc (m : Mach) : Mach :=
  if (m.die 0).up && (m.die 1).up then { m with power := { m.power with insvc := [] } } else m

/-! ### Waking (R415 to R417) -/

def Mach.updPower (m : Mach) (f : Power → Power) : Mach := { m with power := f m.power }
/-- A wake source, by its bit of wake_mask. -/
def Mach.wake (m : Mach) (b : Nat) : Mach :=
  if 3 ≤ b || !bitAt (m.dnum 0x3005 1) b then m
  else if m.power.deepSteps = 1 then
    (if m.power.wakeLatched.isSome then m else m.updPower fun x => { x with wakeLatched := some b })
  else if m.power.deepSteps = 2 then (m.updPower fun x => { x with deepSteps := 3 }).dset 0x3005 4 b
  else if m.power.deepSteps = 3 then m.dset 0x3005 4 (setFld (m.dnum 0x3005 4) 7 7 1)
  else m

/-! ### The host link comes up (R451, R467) -/

/-- The link leaves step 5 for good: flits not acknowledged wait for its return (R453). -/
def Mach.linkLow (m : Mach) : Mach :=
  { m with link := { m.link with
      up := false, lanes := 0, retraining := false, replay := [], hlWait := m.link.replay.map (·.2) ++ m.link.hlWait } }
/-- The link is up on a number of lanes: what was held is written, and event records follow. A host's signal wakes the module (R415). -/
def Mach.linkUp (m : Mach) (lanes : Nat) : Mach :=
  if m.link.up || !(lanes == 2 || lanes == 4 || lanes == 8) then m else
  let m : Mach := { m with link := { m.link with
    up := true, lanes := lanes, retraining := false, detached := false, rxSeq := 0, txSeq := 0, nakOut := false, replay := []
    replays := 0 } }
  let m := m.moEvent evHostLinkUp (toLe 1 lanes)
  (pumpEvents 300 ((List.range 16).foldl (fun (m : Mach) r => m.flushRing r) (hlPump 64 m))).wake 1

/-! ### Dies -/

/-- Is a register's address in a die's main domain: any slot but the AOPM's? -/
def inMain (d a : Nat) : Bool :=
  match csrSplit a with | some (e, s, _) => e == d && s != 256 | none => false
/-- SYNC's counter words and epochs, which a live update and Deep save and restore (R414, R446). -/
def isSyncWord (d a : Nat) : Bool :=
  match csrSplit a with | some (e, s, o) => e == d && s == 4 && 0x50 ≤ o && o < 0x5000 | none => false
def isInsvcWord (d a : Nat) : Bool :=
  match csrSplit a with | some (e, s, o) => e == d && s == 0 && 0x10 ≤ o && o < 0x28 | none => false

/-- The main domain of a die stops: registers, events and time are lost. `saved` says that firmware saved the
synchronisation words. -/
def Mach.dropDie (m : Mach) (d cause : Nat) (saved : Bool) : Mach :=
  let m := m.holdInsvc
  let live (w : PWait) : Bool := w.who != .fw
  let m := m.updDie d fun x =>
    { x with
      up := false, time := 0, latch := 0, evq := [], throttled := false, heldBy := cause, gaffer := 0, parityFails := [], persistent := []
      sync := if saved then x.sync else
        { waits := (x.sync.waits.map fun w => (w.1, w.2.filter live)).filter fun w => !w.2.isEmpty
          frozen := x.sync.frozen.filter fun a => match a with | .wait _ w => live w | .signal _ _ => false } }
  let ins (n : Nat) : Bool := (n / 256) % 16 == d
  { m with
    csr := m.csr.filter fun q => !inMain d q.1 || (saved && (isSyncWord d q.1 || isInsvcWord d q.1))
    badPar := m.badPar.filter fun a => !inMain d a
    shadow := m.shadow.filter fun q => !inMain d q.1
    power := { m.power with insts := m.power.insts.filter fun q => !ins q.1 }
    disputes := m.disputes.filter fun x => x.bench / 32 != d
    loans := m.loans.filter fun l => l.bench / 32 != d && l.partner / 32 != d
    fritWait := m.fritWait.filter fun l => l.bench / 32 != d && l.partner / 32 != d
    benchOffs := m.benchOffs.filter fun b => b / 32 != d
    ports := m.ports.zipIdx.map fun q => if portDie m q.2 = d then {} else q.1 }

/-- The ports of a die begin to train (R307). -/
def Mach.trainPorts (m : Mach) (d : Nat) : Mach :=
  { m with ports := m.ports.zipIdx.map fun q =>
      if q.2 < m.portCount && portDie m q.2 == d then { st := .training } else q.1 }

/-- A Crucible loses its contents: its bytes are anything, its codewords sound. -/
def Mach.loseCru (m : Mach) (d : Nat) : Mach := m.lose [256 * d + 128]
/-- What the stations of a die held is lost with it. Of the contexts that end, so are the operations; the segments that ran on the
die's benches begin again, a GEMM whose partial lay in its Crucible from its first reduction tile; other operations complete when
the die is back (the model's choice, log entry 79). -/
def Mach.dropFlights (m : Mach) (d : Nat) : Mach :=
  let m := (List.range 32).foldl (fun (m : Mach) b => m.resetBench (32 * d + b)) m
  let lost (g : Gemm) : Bool := match g.room with | some r => tierOf r.1 == some (.cru, d) | none => false
  let m := (m.gemms.filter lost).foldl (fun (m : Mach) g => m.setGemm { g with bench := none, lo := 0, room := none }) m
  let m := m.loseCru d
  let keep (f : Flight) : Bool := match f.inst with | some i => i.die != d | none => true
  let ends (x : Ctx) : Bool := x.want == .stop || x.want == .faultStop
  let m : Mach := { m with ctxs := m.ctxs.map fun x => if ends x then { x with flights := x.flights.filter keep } else x }
  let m := (StKind.all.flatMap fun k => (List.range k.perDie).map fun i => (⟨k, d, i⟩ : Inst)).foldl Mach.handOff m
  (List.range 32).foldl (fun (m : Mach) c => m.settleCtx c) m

/-- Groups with a context on a die. -/
def Mach.groupsOn (m : Mach) (d : Nat) : List (Nat × Nat) :=
  (m.groups.filter fun g => (m.ctxsOf g.part g.num).any fun c => ctxDie c == d).map fun g => (g.part, g.num)
/-- Is some context of the group RUNNING or WAITING? -/
def Mach.groupActive (m : Mach) (g : Nat × Nat) : Bool := !m.groupPaused g.1 g.2

/-- AOPM_RESET_CAUSE. -/
def Mach.setCause (m : Mach) (cause d : Nat) : Mach := m.putReg .aopm 0 0 4 (cause + 16 * d)
/-- What holds a die in reset, as a cause: its hold bit (R426), its temperature (R411); 0 nothing. -/
def Mach.dieHeld (m : Mach) (d : Nat) : Nat := if m.bit .aopm 0 0 0 d then 7 else if (m.die d).hot then 8 else 0
/-- Do a die's PLLs lock, as bring-up found it? -/
def pllOf (o : BootObs) (d : Nat) : Bool := if d = 0 then o.pll0 else o.pll1
/-- A die that is down runs again, where nothing holds it and its PLLs lock. -/
def Mach.raiseDie (m : Mach) (d : Nat) (pll : Bool) : Mach :=
  let h := m.dieHeld d
  m.updDie d fun x => { x with up := h == 0 && pll, heldBy := if h ≠ 0 then h else if pll then 0 else 9, time := 0 }

/-- A die reset begins (R420, R421). One that is not commanded ends every group with a context on the die; a commanded one leaves
the contexts as they are (R40). -/
def Mach.dieReset (m : Mach) (d cause : Nat) : Mach :=
  if 2 ≤ d || !(m.die d).up then m else
  let own : Bool := cause == 8 || cause == 9
  let gs := if own then m.groupsOn d else []
  let m := gs.foldl (fun (m : Mach) g => (m.stopGroup g.1 g.2).abandonColls g.1 g.2) m
  let m := ((m.dropDie d cause false).dropFlights d).updDie d fun x => { x with hot := x.hot || cause == 8 }
  let m := if m.dnum 0x7010 6 = 1 ∨ m.dnum 0x7010 6 = 2 then m.dset 0x7010 6 0 else m
  let m := m.setCause cause d
  if own then m.moEvent evDieReset (toLe 1 cause ++ toLe 1 d ++ gs.flatMap fun g => toLe 1 g.1 ++ toLe 2 g.2) else m

/-- The next die of a live update after one is done: the other, unless it runs the new image already (R446, R448). -/
def State.nextLive (s : State) (d : Nat) : Option Nat :=
  let other := 1 - d
  if s.v.slotRunning (1 + other) = s.v.slotRunning (1 + d) then none else some other

/-- A die's Gaffer image is verified and started: M1 extended, the blocks configured and enabled, the ports trained. -/
def State.startDie (s : State) (d : Nat) : State :=
  if s.m.restricted ≠ 0 then s else
  let im := s.v.gafferImage d
  { s with
    v := s.v.extend 1 3 (imgDigest im)
    m := (((({ s.m with level := imgNumerics im } : Mach).updDie d fun x => { x with gaffer := imgVersion im }).configDie
      d).trainPorts d).thaw d }

/-! ### Training of the memory interfaces (step 7 of R423; R270) -/

/-- The stacks and packages of a die. -/
def memUnits (d : Nat) : List Nat := ((List.range 4).map fun k => 4 * d + k) ++ (List.range 8).map fun k => 8 + 8 * d + k
/-- The channels of a stack or package. -/
def unitChans (u : Nat) : List Chan :=
  if u < 8 then (List.range 16).map fun k => ⟨false, u / 4, u % 4 * 16 + k⟩
  else (List.range 4).map fun k => ⟨true, (u - 8) / 8, (u - 8) % 8 * 4 + k⟩
/-- One stack or package takes the values recorded for it, where its record may be used, or is trained in full. A full training
in which no channel failed leaves a record. -/
def State.trainUnit (obs : BootObs) (s : State) (u : Nat) : State :=
  let level := imgIf s.v.mgmtImage
  let temp := obs.temps.getD u 0
  let use (m : Mach) (values : Bytes) : Mach := { m with phy := mapSet m.phy u values }
  match s.v.flash.trained.find? fun r => r.unit == u && r.usable level temp && s.m.dnum 0x6003 3 == 0 with
  | some r => s.setM fun m => use m r.values
  | none =>
    let values := obs.trained.getD u []
    let bad := obs.badChans.filter (unitChans u).contains
    let s := s.setM fun m => bad.foldl (fun (m : Mach) c => m.updChan c fun x => { x with failedTrain := true }) (use m values)
    if bad.isEmpty then s.setV fun v => v.write s.m.power.nvInhibit fun v =>
      { v with flash := v.flash.keepTrained (phyRecord u level temp values) } else s
/-- The memory of a die is made ready. -/
def State.trainMem (s : State) (obs : BootObs) (d : Nat) : State :=
  if (s.m.die d).up then (memUnits d).foldl (State.trainUnit obs) s else s

/-- Step 10 for a die that comes back (R420): MODULE_READY with the cause of its reset (DEDUCED, log entry 24). -/
def Mach.dieReady (m : Mach) : Mach :=
  if m.restricted ≠ 0 || !m.power.ready then m else m.moEvent evModuleReady (toLe 1 (m.reg .aopm 0 0 4 % 16))

/-- A die comes back from its reset, unless its hold bit or its temperature holds it, or its PLLs did not lock when the module came up.
During a live update it restarts on the new image. -/
def State.dieReturn (s : State) (d : Nat) : State :=
  match s.m.power.boot with
  | none => s
  | some obs =>
  if 2 ≤ d || (s.m.die d).up || s.m.power.deepSteps != 0 then s else
  let s := s.setM fun m => m.raiseDie d (pllOf obs d)
  if !(s.m.die d).up then s else
  let s := s.trainMem obs d
  match s.m.liveDie with
  | none => (s.startDie d).setM fun m => m.freeInsvc.dieReady
  | some _ =>
    let s := s.setV fun v => { v with running := updAt v.running (1 + d) fun _ => some (1 - (v.flash.boot 1).active) }
    let s := (s.startDie d).setM Mach.freeInsvc
    s.setM fun m => { m with liveDie := s.nextLive d }

/-! ### Restricted mode and the start of the Gaffer firmware (step 8 of R423; R433, R440, R441) -/

/-- A pairing check extends M3. Of a pair that is neither tested nor covered the spec gives no digest: it is free (log entry 42). -/
def State.pairMeasured (s : State) (mi gi : Bytes) : State :=
  match s.v.flash.pairDigest mi gi with
  | some d => s.setV fun v => v.extend 3 6 d
  | none => let (m, d) := s.m.freeBytes 32; ({ s with m := m } : State).setV fun v => v.extend 3 6 d
/-- The pairing check: the waiver in force, M3, and whether the pair may run. -/
def State.pairCheck (s : State) (mi gi : Bytes) : State × Bool :=
  let ok := (s.v.flash.pairDigest mi gi).isSome
  let w := if testedPair mi gi then [] else (s.v.flash.waiverFor mi gi).getD []
  let s := (s.pairMeasured mi gi).setV fun v => { v with waiver := w, lapsed := none }
  (if ok then s else s.setM fun m => m.moEvent evFwPairUntested, ok)

/-- Step 8: the Gaffer image selected, the pair checked, restricted mode entered or left, the image started on each die that
runs. -/
def State.startGaffer (s : State) : State :=
  let was := s.m.restricted
  let inh := s.m.power.nvInhibit
  let c := s.v.flash.boot 1
  let (f, k) := s.v.flash.selectSlot 1 inh
  let fell := c.trial && k.isSome && k != some (1 - c.active) && !inh
  let f := if fell then f.fallBack 1 else f
  let s : State := { s with v := { s.v with flash := f, running := [s.v.slotRunning 0, k, k] } }
  let s := if fell then s.setM fun m => m.moEvent evFwFallback (toLe 1 1) else s
  let (s, more) := match k with
    | none => (s, 2)
    | some k =>
      let (s, ok) := s.pairCheck s.v.mgmtImage (s.v.flash.slot 1 k).image
      (s, if ok then 0 else 1)
  let now := was / 4 * 4 + more
  let s := s.setM fun m => { m with restricted := now }
  let s := if now ≠ 0 ∧ was = 0 then s.setV fun v => v.extend 3 7 (fitBytes 32 [2])
    else if now = 0 ∧ was ≠ 0 then s.setV fun v => v.extend 3 7 (zeroBytes 32) else s
  [0, 1].foldl (fun (s : State) d => if (s.m.die d).up then s.startDie d else s) s

/-! ### Bring-up (R423) -/

/-- The ports that training brings up (step 9). -/
def Mach.bootPorts (m : Mach) (ps : List PortObs) : Mach := ps.foldl (fun (m : Mach) o => m.portUp o) m

/-- Step 10: ready. What boot_ms reads is open within its bound. -/
def Mach.getReady (m : Mach) (cause : Nat) : Mach :=
  let (m, w) := m.freeWord
  ({ m with power := { m.power with ready := true } }.dsetAny 0x3006 3 (w.toNat % 1995)).freeInsvc.moEvent evModuleReady
    (toLe 1 cause)

/-- Steps 9 and 10, unless the module is restricted. What was written for the Gaffer firmware before it started takes effect first. -/
def State.finishBoot (s : State) (cause : Nat) (obs : BootObs) : State :=
  if s.m.restricted ≠ 0 then s.setM fun m => { m with power := { m.power with stopAt := 8 } }
  else s.setM fun m => ((m.runDeferred.bootPorts obs.ports).updPower fun x => { x with stopAt := 0 }).getReady cause

/-- Steps 5 to 10. -/
def State.bootDies (s : State) (cause : Nat) (obs : BootObs) : State :=
  let s := s.setM fun m => (m.raiseDie 0 obs.pll0).raiseDie 1 obs.pll1
  let s := (s.trainMem obs 0).trainMem obs 1
  s.startGaffer.finishBoot cause obs

/-- Step 4: the store and the powered time loaded, M2 extended, the host link trained. -/
def State.bootControl (s : State) (cause : Nat) (obs : BootObs) : State :=
  let s := s.setM fun m => m.loadTime.loadStore
  let s := if cause = 2 then s.setM fun m => m.storePut 0x3003 2 (toLe 4 (satAdd 0xFFFFFFFF (m.dnum 0x3003 2) 1)) else s
  let s := s.setM fun m => m.mirror 0x3005 1
  let s := s.setV fun v => (v.extend 2 4 (constBytes 32 Config.calibrationDigest)).extend 2 5 (hash32 certBytes)
  let s := s.setM fun m => m.linkUp obs.hostLanes
  let s := if s.v.pufFailed then s.setM fun m => m.moEvent evPufFailed else s
  let s := if Config.calibrationOk then s else s.setM fun m => m.moEvent evCalibrationInvalid
  let causes := 4 * s.v.pufFailed.toNat + 8 * (!Config.calibrationOk).toNat
  if causes = 0 then s
  else (s.setM fun m => { m with restricted := causes }).setV fun v => v.extend 3 7 (fitBytes 32 [2])

/-- Step 3 and what follows it: the ROM selects and starts the management image, or enters recovery. -/
def State.bootRom (s : State) (cause : Nat) (obs : BootObs) : State :=
  let inh := s.m.power.nvInhibit
  let c := s.v.flash.boot 0
  let (f, k) := s.v.flash.selectSlot 0 inh
  let fell := c.trial && k.isSome && k != some (1 - c.active) && !inh
  let f := if fell then f.fallBack 0 else f
  match k with
  | none =>
    let s : State := { s with v := { s.v with flash := f, recovery := true, running := [none, none, none] } }
    let s := s.setM fun m => (m.updPower fun x => { x with stopAt := 3 }).linkUp obs.hostLanes
    -- the entries of ranges 0x1000 and 0x8000 show why K was not accepted (R436)
    if s.v.pufFailed then s.setM fun m => ({ m with restricted := 4 } : Mach).moEvent evPufFailed else s
  | some n =>
    let s : State := { s with v := ({ s.v with flash := f, recovery := false, running := [some n, none, none] }).measureMgmt n }
    let s := s.setM fun m => m.updPower fun x => { x with stopAt := 0 }
    let s := if fell then s.setM fun m => m.moEvent evFwFallback (toLe 1 0) else s
    (s.bootControl cause obs).bootDies cause obs

/-- Step 2: K is accepted when its check digest is right (R435). -/
def Vault.readPuf (v : Vault) (k : Option Bytes) : Vault :=
  match k with
  | none => { v with pufFailed := true }
  | some b =>
    if b.length = 32 ∧ hash32 (strChk ++ b) = pufCheck
    then { v with pufFailed := false, xi := hash32 (strId ++ b), arK := hash32 (strAr ++ b) }
    else { v with pufFailed := true }

/-- The bring-up, from the supply's return: the ROM has read the anti-rollback and the boot control record when it selects an image. -/
def State.bringUp (s : State) (obs : BootObs) : State :=
  let cause := s.m.reg .aopm 0 0 4 % 16
  let s := (s.setM fun m => m.updPower fun x => { x with boot := some obs }).setV fun v =>
    let v := (v.readPuf obs.pufK).readAr
    { v with flash := v.flash.readBoot }
  s.bootRom cause obs

/-- A waiver that covers the running pair ends a restriction for an untested pair: bring-up resumes at step 8 (R442). -/
def State.resumeBoot (s : State) : State :=
  let (s, ok) := s.pairCheck s.v.mgmtImage (s.v.gafferImage 0)
  if !ok then s else
  let s := (s.setM fun m => { m with restricted := 0 }).setV fun v => v.extend 3 7 (zeroBytes 32)
  let s := [0, 1].foldl (fun (s : State) d => if (s.m.die d).up then s.startDie d else s) s
  match s.m.power.boot with
  | some obs => s.finishBoot (s.m.reg .aopm 0 0 4 % 16) obs
  | none => s

/-! ### Cold and warm reset (R420, R422, R424) -/

/-- A cold reset: everything but the flash, the pins and the supply's state. -/
def State.coldReset (s : State) (cause : Nat) : State :=
  let o := s.m
  let fresh : Mach := {
    store := { copyA := o.store.copyA, copyB := o.store.copyB, timeLog := o.store.timeLog }
    power := { overvolt := o.power.overvolt, resetLow := o.power.resetLow, nvInhibit := o.power.nvInhibit, warn := o.power.warn }
    mgmt := { chainIn := o.mgmt.chainIn, lost := o.mgmt.lost }
    lost := [(allUnits, o.freeCtr)], freeCtr := o.freeCtr + 1, out := o.out }
  let browns := if cause = 1 ∨ cause = 3 then 0 else o.reg .aopm 0 0 0x14
  { s with
    m := (fresh.setCause cause 0).putReg .aopm 0 0 0x14 browns
    v := { flash := s.v.held.getD s.v.flash } }

/-- Host commands in flight complete with ABORTED (R469). -/
def Mach.abortCmds (m : Mach) : Mach :=
  let cs := m.link.cmds
  let m : Mach := { m with link := { m.link with detaching := none } }
  cs.foldl (fun (m : Mach) c => m.finishHost c stAborted 0) m

/-- A warm reset of the dies' main domains. -/
def Mach.dropDies (m : Mach) : Mach :=
  let m := m.holdInsvc
  let m : Mach := { m with
    dies := m.dies.map fun x => { temp := x.temp, hot := x.hot }, badPar := [], shadow := [], mem := [], chk := [], lost := [(allUnits, m.freeCtr)], freeCtr := m.freeCtr + 1, tensors := [], progs := []
    groups := [], ctxs := List.replicate 32 {}, ports := List.replicate 16 {}, tx := [], rx := [], loop := [], cgroups := []
    colls := [], unreach := [], disputes := [], loans := [], phy := [], peers := [], fritWait := [], benches := [], gemms := [], benchOffs := [], fritNum := 0, digest := [], ckpts := [], claims := []
    hosted := [], warm := [], shaky := [], liveDie := none
    csr := m.csr.filter fun q => !(inMain 0 q.1 || inMain 1 q.1)
    chans := (m.chans.map fun q => (q.1, { q.2 with
      state := if q.2.state = 0 then 0 else 2, failedTrain := false, svc := 0, recalDue := false, clock := false })).filter
      fun q => q.2 != {}
    power := { m.power with ready := false, deepSteps := 0, deepPorts := false, wakeLatched := none, insts := [], comparator := false, withheld := 0
                            throttled := false } }
  let m := if m.dnum 0x7010 6 = 1 ∨ m.dnum 0x7010 6 = 2 then m.dset 0x7010 6 0 else m
  m.abortCmds

/-- A warm reset. One asked for while a cold reset is under way is discarded. -/
def State.warmReset (s : State) : State :=
  match s.m.power.boot with
  | none => s
  | some obs =>
    if s.v.recovery then s else
    let s := s.setM fun m => m.dropDies.setCause 6 (fld (m.reg .aopm 0 0 4) 4 4)  -- which die was reset last stays (R426)
    s.bootDies 6 obs

/-! ### Deep (R414 to R417) -/

/-- May Deep be entered? -/
def Mach.deepOk (m : Mach) : Bool :=
  m.allIdle && m.dnum 0x7010 6 != 1 && m.dnum 0x7010 6 != 2 && m.liveDie.isNone && m.power.deepSteps == 0
  && m.chans.all fun q => q.2.state != 4

/-- Steps 1 to 4 of entry: tiles out of the Crucibles (the planner keeps none there), the ports down. -/
def Mach.deepBegin (m : Mach) : Mach :=
  { m with ports := List.replicate 16 {}, power := { m.power with deepSteps := 1 } }

/-- Deep is entered: the dies lose power, the Crucibles their contents; the host link is in its low-power state. A wake that
was latched begins the exit. -/
def Mach.deepEntered (m : Mach) : Mach :=
  let m := (m.loseCru 0).loseCru 1
  let m := [0, 1].foldl (fun (m : Mach) d => m.dropDie d (m.die d).heldBy true) m
  let m := m.linkLow
  let m := m.dadd 0x3005 5 1
  match m.power.wakeLatched with
  | some b => { m with power := { m.power with deepSteps := 3, wakeLatched := none } }.dset 0x3005 4 b
  | none => { m with power := { m.power with deepSteps := 2 } }

/-- Steps 1 and 2 of the exit: each die that nothing holds is raised. -/
def Mach.deepLeft (m : Mach) : Mach :=
  [0, 1].foldl (fun (m : Mach) d => m.raiseDie d (match m.power.boot with | some o => pllOf o d | none => false)) m
/-- Step 3: whether the temperature of a stack or package has moved by more than 15 °C, so that it is trained in full, is free; so are
the new values and the temperature of its record (R270, log entry 19). -/
def State.deepTrain (s : State) (u : Nat) : State :=
  let (m, w) := s.m.freeWord
  if !bitAt w.toNat 0 then { s with m := m } else
  let (m, v) := m.freeBytes 64
  let (m, t) := m.freeWord
  ({ s with m := { m with phy := mapSet m.phy u v } } : State).setV fun x => x.write m.power.nvInhibit fun x =>
    { x with flash := x.flash.keepTrained (phyRecord u (imgIf x.mgmtImage) t.toInt v) }
/-- Step 4 for a die that is up: the Gaffer firmware goes on from the state saved at entry, and the ports train. -/
def Mach.resumeDie (m : Mach) (d ver : Nat) : Mach :=
  if !(m.die d).up then m else
  let words := [0x10, 0x14, 0x18, 0x1C, 0x20, 0x24].map fun o => (o, m.reg .ident d 0 o)
  let m := (m.updDie d fun x => { x with gaffer := ver }).configDie d
  ((words.foldl (fun (m : Mach) w => m.putReg .ident d 0 w.1 w.2) m).trainPorts d).thaw d
/-- Steps 1 to 4 of an exit from Deep. The ports train then; a restricted module has none to train, and is out of Deep. -/
def State.deepExit (s : State) : State :=
  let s := s.setM Mach.deepLeft
  let s := ([0, 1].flatMap fun d => if (s.m.die d).up then memUnits d else []).foldl State.deepTrain s
  let ver (d : Nat) : Nat := imgVersion (s.v.gafferImage d)
  s.setM fun m =>
    if m.restricted ≠ 0 then (m.updPower fun x => { x with deepSteps := 0 }).freeInsvc
    else ((m.resumeDie 0 (ver 0)).resumeDie 1 (ver 1)).updPower fun x => { x with deepPorts := true }
/-- Is step 5 over: no port trains any longer, or the 62 ms for it have passed (R307, R416)? -/
def Mach.deepReady (m : Mach) : Bool :=
  (m.ports.all fun p => p.st != .training) || m.dies.any fun x => x.up && decide (62000000 ≤ x.time)
/-- The end of an exit from Deep: MODULE_READY. -/
def Mach.deepDone (m : Mach) : Mach :=
  if m.deepReady then (m.updPower fun x => { x with deepSteps := 0, deepPorts := false }).getReady 12 else m

end Sys2Proof.Machine
end

