-- ==== Sys2Proof/Machine/Views.lean ====
section
/-! DEFINITION. What dictionary entries read as (R48, R109, R166, R190, R223, R243, R274, R298, R333, R384, R388, R406, R407,
R425, R449, R470). -/

namespace Sys2Proof.Machine

/-! ### Counts of what is in service (R388) -/

/-- Word `k` of die `d` of the 48-byte map. -/
def insvcWord (map : Bytes) (d k : Nat) : Nat := leAt map (24 * d + 4 * k) 4
/-- Ones among bits [hi:lo] of a word. -/
def onesIn (w hi lo : Nat) : Nat := (List.range (hi + 1 - lo)).countP fun i => bitAt w (lo + i)
/-- 0x1002.01 to 0x1002.08. -/
def insvcCount (map : Bytes) (sub : Nat) : Nat :=
  let both (k hi lo : Nat) : Nat := onesIn (insvcWord map 0 k) hi lo + onesIn (insvcWord map 1 k) hi lo
  match sub with
  | 1 => both 0 31 0 | 2 => both 1 7 0 | 3 => both 1 11 8 | 4 => both 2 15 0 | 5 => both 1 15 12 | 6 => both 1 17 16
  | 7 => both 3 31 0 + both 4 31 0 | _ => both 5 31 0

/-! ### Flags, owners, ports, the link -/

/-- flags (0x1001.02). -/
def Mach.flagWord (m : Mach) : Nat :=
  m.store.defaults.toNat + 2 * m.power.nvInhibit.toNat + 4 * (!m.store.pending.isEmpty).toNat
    + 8 * (m.link.up && !m.link.retraining).toNat + 16 * m.mgmt.takeover.toNat + 32 * m.store.damaged.toNat
/-- owner_map (R393, 0x9010.03). -/
def Mach.ownerMap (m : Mach) : Nat := if m.mgmt.takeover then 0x7FE else m.dnum 0x9010 1 &&& 0x7FE
/-- The owner of range `k` (R393). -/
def Mach.owner (m : Mach) (k : Nat) : Master := if bitAt m.ownerMap k then .mgmt else .host

/-- The state code of a port (0x5001.11). -/
def PortSt.code : PortSt → Nat
  | .down => 0 | .training => 1 | .retraining => 1 | .up => 2 | .degraded => 3
def Port.info (p : Port) : Bytes :=
  let (a, b, c) := p.peer.getD (0, 0, 0)
  toLe 1 p.st.code ++ toLe 1 p.lanes ++ toLe 2 a ++ toLe 1 b ++ toLe 1 c ++ zeroBytes 10
/-- link_state (0x9101.01). -/
def Link.code (l : Link) : Nat :=
  if l.up then (if l.retraining then 3 else 2) else if l.detached then 4 else 0

/-- fenced_channels (0x6002.13): fenced under R263, or out of service since training failed. -/
def Mach.fencedMap (m : Mach) : Bytes :=
  let bit (lp : Bool) (n : Nat) : Bool :=
    let per := if lp then 32 else 64
    let s := m.chan ⟨lp, n / per, n % per⟩
    s.fenced || s.failedTrain
  (List.range 16).map (fun k => BitVec.ofNat 8 (maskOf 8 fun j => bit false (8 * k + j)))
    ++ (List.range 8).map (fun k => BitVec.ofNat 8 (maskOf 8 fun j => bit true (8 * k + j)))

/-- Tiles now marked poisoned. -/
def Mach.poisonedTiles (m : Mach) : Nat := (m.tensors.map fun t => t.marks.countP fun q => q.2.poisoned).sum

/-! ### Entries of a partition -/

/-- Five counts of layers by level (0x4110.16). -/
def layersByLevel (l : List (Nat × LadderRec)) : Bytes :=
  (List.range 5).flatMap fun k => toLe 4 (l.countP fun q => q.2.level == k)

/-- A hosted slot (0x2030.18). -/
def Mach.hostedInfo (m : Mach) (x : HostedSlot) : Bytes :=
  let h := (m.collect 0 (areaPart x.places 0 16)).2.1
  toLe 2 x.module ++ toLe 1 x.part ++ toLe 1 x.idx ++ toLe 1 (leAt h 1 1) ++ zeroBytes 3 ++ toLe 8 (leAt h 8 8)

/-- The word of the barrier that barrier_select names. -/
def Mach.selBarrier (m : Mach) (p w : Nat) : Nat :=
  if w < 256 then m.barWord (partDie m.mode p) (physBar m.mode p w)
  else let q := physFbar m.mode p (w - 256); m.fbarWord q.1 q.2

/-- Computed entries of partition `p`, by the base index of their table. -/
def Mach.partView (m : Mach) (base p sub : Nat) : Option Bytes :=
  let mine := m.tensors.filter fun t => t.part == p
  let gs := m.groups.filter fun g => g.part == p
  let hs := mine.filterMap fun t => t.hist
  let u (n v : Nat) : Option Bytes := some (toLe n v)
  if base = 0x2010 then
    (if sub = 2 then u 4 mine.length else if sub = 3 then u 1 gs.length
     else if sub = 4 then u 1 ((m.ctxs.zipIdx).countP fun q => ctxOwned m.mode p q.2 && q.1.st == .free) else none)
  else if base = 0x2030 then
    (if sub = 0x10 then u 8 (match m.group? p (m.dnum (0x2030 + p) 1) with | some x => x.earliest | none => 0)
     else if sub = 0x18 then some ((m.hosted.filter fun x => x.hpart == p).flatMap m.hostedInfo) else none)
  else if base = 0x2048 then
    (if sub = 2 then u 1 (m.isWarm p).toNat
     else if sub = 0x13 then u 4 (((mine.filter fun t => t.desc.cls == 5).map fun t =>
       (List.range t.desc.tileCount).countP t.cached).sum) else none)
  else if base = 0x4100 then
    (if sub = 0x10 then u 4 (hs.countP fun h => h.cold)
     else if sub = 0x11 then u 4 ((hs.map fun h => h.hot.length).sum) else none)
  else if base = 0x4110 then
    let g := m.group? p (m.dnum (0x4110 + p) 0x20)
    (if sub = 0x11 then u 8 (m.reserveUsed p)
     else if sub = 0x16 then some (match g with | some x => layersByLevel x.ladder | none => zeroBytes 20)
     else if sub = 0x21 then some (match g with | some x => ladderBytes x.reheats x.ladder | none => []) else none)
  else if base = 0x4120 then
    let g := m.group? p (m.dnum (0x4120 + p) 0x20)
    (if sub = 0x10 then u 8 ((gs.map fun x => x.journalBytes).sum)
     else if sub = 0x11 then u 8 ((gs.map fun x => x.journalUsed).sum)
     else if sub = 0x21 then some (match g with | some x => ratioBytes x.ratios | none => [])
     else if sub = 0x22 then u 8 (match g with | some x => x.seed | none => 0) else none)
  else if base = 0x5040 then
    (if sub = 4 then u 4 (match m.group? p (m.dnum (0x2030 + p) 1) with | some x => x.epoch | none => 0)
     else if sub = 0x21 then u 4 (m.ctrWord (partDie m.mode p) (physCtr m.mode p (m.dnum (0x5040 + p) 0x20)))
     else if sub = 0x23 then u 4 (m.selBarrier p (m.dnum (0x5040 + p) 0x22)) else none)
  else none

/-! ### The other computed entries of the machine -/

/-- Index ranges of four entries, one per partition. -/
def partBases : List Nat := [0x2010, 0x2030, 0x2040, 0x2048, 0x4100, 0x4110, 0x4120, 0x4130, 0x5008, 0x5040, 0x7020, 0x7030]
/-- The base and the partition of a partition's index. -/
def partIndex (i : Nat) : Option (Nat × Nat) := (partBases.find? fun b => b ≤ i && i < b + 4).map fun b => (b, i - b)

/-- Computed entries of the module; none: the entry's held value is what it reads as. -/
def Mach.viewOf (m : Mach) (i sub : Nat) : Option Bytes :=
  let k := dictKey i sub
  let u (n v : Nat) : Option Bytes := some (toLe n v)
  match partIndex i with
  | some (b, p) => m.partView b p sub
  | none =>
    if i = 0x1001 then
      (if sub = 1 then u 1 m.moduleState else if sub = 2 then u 4 m.flagWord else if sub = 3 then u 8 m.power.aoMs
       else u 4 m.level)
    else if i = 0x1002 then (if sub = 9 then some m.insvcMap else u 1 (insvcCount m.insvcMap sub))
    else if k = 0x100401 then u 4 m.store.version
    else if k = 0x100402 then u 1 m.store.inForce
    else if k = 0x100404 then u 2 m.store.pending.length
    else if k = 0x200102 then u 1 (maskOf m.mode m.partIdle)
    else if k = 0x300102 then u 4 (fpOfRatio m.power.meanMw 1000).toNat
    else if k = 0x300105 then u 1 (m.power.shares.sum / 100)
    else if k = 0x300202 then some (toLe 2 (unsignedOf 16 (m.die 0).temp) ++ toLe 2 (unsignedOf 16 (m.die 1).temp))
    else if k = 0x300404 then u 1 m.power.deepSteps
    else if k = 0x300406 then u 2 (m.power.insts.countP fun q => q.2 == .retained)
    else if k = 0x300602 then u 1 (m.reg .aopm 0 0 4 % 16)
    else if k = 0x500110 then u 2 (maskOf m.portCount fun q => (m.port q).isUp)
    else if k = 0x500111 then some ((m.ports.take m.portCount).flatMap Port.info)
    else if i / 32 = 0x5100 / 32 ∧ sub = 3 then
      u 4 (if cgDefined (m.cgRec (i - 0x5100)) then (defTag (m.cgRec (i - 0x5100))).toNat else 0)
    else if k = 0x600105 then u 1 (maskOf 4 m.isWarm)
    else if k = 0x600212 then u 4 m.poisonedTiles
    else if k = 0x600213 then some m.fencedMap
    else if k = 0x600220 then some m.errlog.flatten
    else if k = 0x601003 then u 1 (match svcChan (m.dnum 0x6010 1) with | some c => m.svcState c | none => 0)
    else if k = 0x900101 then u 1 m.mgmt.nodeId
    else if k = 0x900102 then u 1 (m.mgmt.chainIn.toNat + 2 * m.mgmt.chainOut.toNat + 4 * m.mgmt.sweeping.toNat)
    else if k = 0x901003 then u 2 m.ownerMap
    else if k = 0x910101 then u 1 m.link.code
    else if k = 0x910102 then u 1 (if m.link.up then m.link.lanes else 0)
    else if k = 0xA00101 then some (m.log.flatMap EvRec.toBytes)
    else if k = 0xA00201 then some m.store.copyA
    else if k = 0xA00202 then some m.store.copyB
    else none

/-! ### Entries whose value lies with the vault, or is open -/

/-- Entries that the vault holds; `who` reads. -/
def State.vaultView (s : State) (who : Master) (i sub : Nat) : Option Bytes :=
  let v := s.v
  let k := dictKey i sub
  let u (n x : Nat) : Option Bytes := some (toLe n x)
  if k = 0x100003 then some serialBytes
  else if k = 0x100005 then some [Config.boardRev]
  else if k = 0x100301 then u 4 v.mgmtVersion
  else if k = 0x100302 then u 4 (if (s.m.die 0).up then (s.m.die 0).gaffer else (s.m.die 1).gaffer)
  else if k = 0x100303 then u 4 Config.romVersion.toNat
  else if k = 0x800101 then some (v.slotBytes 0 0 ++ v.slotBytes 0 1 ++ v.slotBytes 1 0 ++ v.slotBytes 1 1)
  else if k = 0x800304 then u 1 (updateState s.m v)
  else if k = 0x800401 then u 1 (pairState s.m v)
  else if k = 0x800402 then some v.waiver
  else if k = 0x800403 then u 4 s.m.restricted
  else if k = 0x801002 then u 2 v.flash.force.keyCount
  else if k = 0x801003 then some v.flash.rootPk
  else if k = 0x801101 then u 4 v.flash.force.svnMgmt
  else if k = 0x801102 then u 4 v.flash.force.svnGaffer
  else if k = 0x802001 then some (if v.pufFailed then [] else fitBytes 1952 (Config.mldsaPublic v.xi))
  else if k = 0x802002 then some certBytes
  else if k = 0x802003 then u 1 v.pufFailed.toNat
  else if k = 0x803001 then some (mapGetD v.nonces (masterNum who) (zeroBytes 32))
  else if k = 0x803003 then some (v.meas.flatMap fun x => fitBytes 32 x)
  else if k = 0x803004 then some (v.measLog.take 1024).flatten
  else none

/-- Entries that report what no command brings: bytes of a free value. -/
def openEntry (i sub : Nat) : Nat :=
  let k := dictKey i sub
  if k = 0x300103 ∨ k = 0x300104 then 4 else if k = 0x300203 then 16 else 0

def osOk : Nat := 0
def osBadFrame : Nat := 1
def osNoEntry : Nat := 2
def osReadOnly : Nat := 3
def osWriteOnly : Nat := 4
def osNotOwner : Nat := 5
def osBadType : Nat := 6
def osBadLength : Nat := 7
def osOutOfRange : Nat := 8
def osBusy : Nat := 9
def osBadState : Nat := 10
def osSeqError : Nat := 11
def osNvDeferred : Nat := 12
def osNvError : Nat := 13

/-- Does the index belong to a partition that the mode lacks (R48)? -/
def Mach.absent (m : Mach) (i : Nat) : Bool := match partIndex i with | some (_, p) => m.mode ≤ p | none => false

/-- The value of an entry as a master reads it, or the status that the owning chapter refuses with. -/
def State.readEntry (s : State) (who : Master) (i sub : Nat) : State × Except Nat Bytes :=
  if sub = 0 then (s, .ok (toLe 1 ((dictTop i).getD 0)))
  else if s.m.absent i then
    (s, .ok (match dictRow i sub with
      | some r => zeroBytes (match r.typ.size with | some n => n | none => (dictDefault i sub).length)
      | none => []))
  else if dictKey i sub = 0x803002 then
    (s, if s.v.pufFailed then .error osBadState
        else match mapGet s.v.quotes (masterNum who) with | some q => .ok q | none => .error osBusy)
  else if dictKey i sub = 0xA00302 then
    if s.m.dnum 0xA003 3 ≠ 1 then (s, .error osBadState) else
    let (m, w) := s.m.csrRead (s.m.dnum 0xA003 1) 4
    ({ s with m := m }, .ok (toLe 4 w))
  else if dictKey i sub = 0x300106 then
    -- what has been consumed since the last read is open (R425, log entry 3)
    let (m, w) := s.m.freeWord
    let e := min (m.power.energy + w.toNat) (2 ^ 64 - 1)
    ({ s with m := { m with power := { m.power with energy := e } } }, .ok (toLe 8 e))
  else if openEntry i sub ≠ 0 then
    let (m, bs) := s.m.freeBytes (openEntry i sub)
    ({ s with m := m }, .ok bs)
  else match s.vaultView who i sub with
    | some bs => (s, .ok bs)
    | none => (s, .ok ((s.m.viewOf i sub).getD (s.m.dict? i sub)))

end Sys2Proof.Machine
end

