-- ==== Sys2Proof/Machine/DictApply.lean ====
section
/-! DEFINITION. What a write of a dictionary entry does once its checks have passed: the rule of the chapter that owns the
entry (check 8 of R391) and the effect. -/

namespace Sys2Proof.Machine

/-- What begins once the response has been given. -/
inductive After where
  | nothing
  | cold
  | warm
  | die (d : Nat)
  | mgmt              -- the management controller restarts (R445)
  | rom               -- the boot ROM tries an image written in recovery (R433)
  | pair              -- bring-up resumes at step 8 (R442)
  deriving DecidableEq, Repr

/-! ### Applying and storing -/

/-- The status of a write that reaches the flash: deferred while the inhibit holds (R405). -/
def Mach.nvStatus (m : Mach) : Nat := if m.power.nvInhibit then osNvDeferred else osOk

/-- Hold a value, store it where its entry is stored, and bring the registers that copy it into step. -/
def Mach.applyEntry (m : Mach) (r : DictRow) (i sub : Nat) (bs : Bytes) : Mach :=
  (if r.pers = .stored then m.storePut i sub bs else m.dictPut i sub bs).mirror i sub
def Mach.entryStatus (m : Mach) (r : DictRow) : Nat := if r.pers = .stored then m.nvStatus else osOk

/-- What the rule and the effect of an entry come to. -/
abbrev Written := Nat × State × After
def refuse (s : State) (st : Nat) : Written := (st, s, .nothing)
def accept (s : State) (st : Nat) (m : Mach) : Written := (st, { s with m := m }, .nothing)

/-- A change of the interleaving moves every byte of the HBM (R250): `old` tells whether it was fine before. -/
def Mach.reinterleave (m : Mach) (old : Bool) : Mach :=
  if m.fineMode = old then m else
  let go (a : Nat) : Nat := if a < 0x006000000000 then hbmMoved old m.fineMode a else a
  { m with mem := m.mem.foldl (fun (q : List Host.Cell) c => memStore q (go c.1) [c.2]) []
           chk := m.chk.foldl (fun q c => mapSet q (go c.1) c.2) [] }

/-! ### Rules of single entries -/

/-- May the slot record be written while the programs that name it are loaded (R170)? -/
def Mach.slotRule (m : Mach) (p slot : Nat) (bs : Bytes) : Bool :=
  let x := OptSlot.ofBytes bs
  let desc (h : Nat) : Option HDesc := (m.tensor? p h).map fun t => t.desc
  (m.progs.filter fun q => q.part == p).all fun q => q.ops.all fun o =>
    if o.param ≠ slot then true else
    let d (i : Nat) : HDesc := ((o.refs[i]?).bind fun r => desc r.handle).getD (HDesc.ofWords [])
    match o.kind with
    | .update => updateOk o x desc (d 0) (d 1) (d 2)
    | .rowUpdate => rowUpdateOk o x desc (d 0) (d 1) (d 2)
    | _ => true

/-- May the schedule be written: its step lies after the step in progress of every training group (R171)? -/
def Mach.schedRule (m : Mach) (p : Nat) (bs : Bytes) : Bool :=
  m.groups.all fun g => g.part != p || g.kind != .training || !g.started || decide (g.step < leAt bs 8 8)

/-- The table-map record's table (R232). -/
def Mach.tableRule (m : Mach) (p : Nat) (bs : Bytes) : Bool :=
  let t := TableMap.ofBytes bs
  t.table == 0 || (match m.tensor? p t.table with
    | some x => x.desc.cls == 5 && x.desc.ext.d1 == shardRows t
    | none => false)

/-- The group record as a whole (R320). -/
def Mach.groupRule (m : Mach) (g : Nat) (bs : Bytes) : Bool :=
  if leAt bs 0 1 = 255 then true else
  let ms := cgMembers bs
  let p := leAt bs 0 1
  let g1 := leAt bs 1 1
  let old := m.cgRec g
  let had := if leAt old 0 1 = p then leAt old 20 4 else 0
  decide (p < m.mode) && leAt bs 2 2 == g1 * leAt bs 4 2 * leAt bs 6 2
  && noDup (ms.map fun x => x.1 * 4 + x.2)
  && ms[cgRank bs]? == some (m.modNum, p)
  && ((List.range (ms.length / g1)).all fun k =>
      let x := (ms.drop (k * g1)).take g1
      x.all fun y => y.1 == (x.headD (0, 0)).1)
  && m.partIdle p && (leAt bs 20 4 ≤ had || m.topFits p .hbm ((leAt bs 20 4 - had) * 1048576))

/-- An accepted group record: defined anew, nothing of the old generation is left (R331). -/
def Mach.defineGroup (m : Mach) (r : DictRow) (g : Nat) (bs : Bytes) : Mach :=
  let m := m.applyEntry r (0x5100 + g) 1 bs
  let m := (m.dset (0x5100 + g) 2 (if cgDefined bs then 1 else 0)).dictPut (0x5100 + g) 4 []
  { m with cgroups := mapDel m.cgroups g }

/-- May a ring pair be enabled with the record: sizes of 2^4 to 2^15 entries, aligned addresses, a partition of the mode? -/
def Mach.ringRecOk (m : Mach) (bs : Bytes) : Bool :=
  4 ≤ leAt bs 16 1 && leAt bs 16 1 ≤ 15 && 4 ≤ leAt bs 17 1 && leAt bs 17 1 ≤ 15
  && leAt bs 0 8 % 4096 == 0 && leAt bs 8 8 % 4096 == 0 && decide (leAt bs 18 1 < m.mode)
/-- A write of a ring-pair record (R488). -/
def Mach.ringWrite (m : Mach) (i : Nat) (bs : Bytes) : Nat × Mach :=
  let r := i - 0x9120
  let old := m.ringRec r
  let on := leAt bs 19 1
  if leAt old 19 1 = 0 then
    if on = 1 then
      if m.ringRecOk bs then (osOk, (m.dictPut i 1 bs).updRing r fun _ => {}) else (osOutOfRange, m)
    else (osOk, m.dictPut i 1 bs)
  else if overlay old 19 [0] != overlay bs 19 [0] then (osBadState, m)
  else if leAt old 19 1 = 1 then
    if on = 1 then (osOk, m) else (osOk, (m.dictPut i 1 (overlay old 19 [2])).flushRing r)
  else (osOk, m.updRing r fun q => { q with again := on == 1 })

/-- Every port trains anew: its lanes have changed (R300). -/
def Mach.retrainAll (m : Mach) : Mach :=
  ([0, 1].filter fun d => (m.die d).up && m.restricted == 0).foldl (fun (m : Mach) d => m.trainPorts d)
    { m with ports := List.replicate 16 {} }

/-- A command to the Gaffer firmware written in restricted mode takes effect when that firmware starts (R441). -/
def Mach.defer (m : Mach) (key v : Nat) : Nat × Mach :=
  (osOk, { m with power := { m.power with deferred := m.power.deferred ++ [(key, v)] } })
/-- selftest_cmd (R351, R441). -/
def Mach.selftest (m : Mach) (n : Nat) : Nat × Mach :=
  if m.restricted ≠ 0 then m.defer 0x701005 n
  else if n = 2 ∧ !m.allIdle then (osBusy, m) else (osOk, m.selftestOn n)
/-- svc_command (R272, R274, R441). -/
def Mach.service (m : Mach) (n : Nat) : Nat × Mach :=
  if m.restricted ≠ 0 then m.defer 0x601002 (65536 * m.dnum 0x6010 1 + n) else
  match m.serviceOn (m.dnum 0x6010 1) n with
  | some m => (osOk, m)
  | none => (osBadState, m)
/-- unfence (R346, R441). -/
def Mach.unfence (m : Mach) (n : Nat) : Nat × Mach :=
  if m.restricted ≠ 0 then m.defer 0x700202 n else
  match m.unfenceInst n with
  | some m => (m.nvStatus, m)
  | none => (osBadState, m)

/-- Every stored entry at its default, and a copy to be written (R388). -/
def Mach.restored (m : Mach) : Mach :=
  let stored (q : Nat × Bytes) : Bool := match dictRow (q.1 / 256) (q.1 % 256) with
    | some r => r.pers == .stored
    | none => false
  let ks := (m.dict.filter stored).map fun q => q.1
  let mode := m.mode
  let ports := m.dnum 0x5001 1
  let fine := m.fineMode
  let m : Mach := { m with
    dict := m.dict.filter fun q => !stored q, strikes := [], cgroups := []
    store := { m.store with pending := if ks.isEmpty then [dictKey 0x1004 0x10] else ks } }
  let m := (List.range 32).foldl (fun (m : Mach) g => (m.dset (0x5100 + g) 2 0).dictPut (0x5100 + g) 4 []) (m.dset 0x7002 3 0)
  let m := (if m.mode = mode then m else m.newMode).reinterleave fine
  let m := if m.dnum 0x5001 1 = ports then m else m.retrainAll
  let m := ks.foldl (fun (m : Mach) k => m.mirror (k / 256) (k % 256)) m
  ([0, 1].filter fun d => (m.die d).up && m.restricted == 0).foldl (fun (m : Mach) d => m.configService d) m
/-- restore_defaults (R388). The default mode and interleaving are a change like any other, which R47 refuses while handles or groups exist
and R250 while handles do. -/
def Mach.restoreAll (m : Mach) : Nat × Mach :=
  if !m.allIdle then (osBusy, m)
  else if (m.mode ≠ 1 ∧ (!m.tensors.isEmpty ∨ !m.groups.isEmpty)) ∨ (m.fineMode ∧ !m.tensors.isEmpty) then (osBadState, m)
  else (m.restored.nvStatus, m.restored)

/-! ### Register writes that the reset control acts on (R420, R426) -/

/-- AOPM_RESET_CTRL after a write: a die held in reset, or released from it; a warm reset. -/
def State.resetCtrl (s : State) (old w : Nat) : State :=
  let s := [0, 1].foldl (fun (s : State) d =>
    let on := s.m.bit .aopm 0 0 0 d
    if on && !bitAt old d then s.setM fun m => m.dieReset d 7
    else if !on && bitAt old d then s.dieReturn d else s) s
  if bitAt w 2 then s.warmReset else s

/-- A CSR write of `size` bytes, with what AOPM_RESET_CTRL starts. -/
def State.csrWrite (s : State) (addr size w : Nat) : State :=
  let a := regAddr .aopm 0 0 0
  let old := s.m.csrAt a
  let s := s.setM fun m => m.csrWrite addr size w
  if addr = a ∧ size = 4 then s.resetCtrl old w else s

/-- A die's sensor reads below 95 °C: its temperature holds it no longer (R411). -/
def State.coolDie (s : State) (d : Nat) : State := (s.setM fun m => m.updDie d fun x => { x with hot := false }).dieReturn d
/-- Is every station instance of a die drained, and no context of it RUNNING or WAITING (R420)? -/
def Mach.dieQuiet (m : Mach) (d : Nat) : Bool :=
  (allIdx m.ctxs fun c x => ctxDie c != d || (x.st != .running && x.st != .waiting))
  && StKind.all.all fun k => (List.range k.perDie).all fun i => bitAt (m.idleBits ⟨k, d, i⟩) 1

/-- reset_cmd (R420, R425). -/
def State.resetCmd (s : State) (n : Nat) : Written :=
  if n = 0x434F4C44 then (if s.m.allIdle then (osOk, s, .cold) else refuse s osBusy)
  else if n = 0x5741524D then (if s.m.allIdle then (osOk, s, .warm) else refuse s osBusy)
  else
    let d := n - 0x44494530
    if s.m.dieQuiet d then (osOk, s, .die d) else refuse s osBusy

/-! ### Security entries (R429, R433, R439, R442 to R447) -/

def State.writeVault (s : State) (g : Vault → Vault) : State := s.setV fun v => v.write s.m.power.nvInhibit g

/-- An image write to slot `n` of 0x8002 (R431, R433, R443). -/
def State.writeImage (s : State) (n : Nat) (bs : Bytes) : Written :=
  let kind := n / 2
  let k := n % 2
  let c := s.v.flash.boot kind
  let runs := if kind = 0 then s.v.slotRunning 0 == some k
              else s.v.slotRunning 1 == some k || s.v.slotRunning 2 == some k
  if s.v.recovery then
    if kind = 1 then refuse s osBadState
    else if !s.v.flash.imageOk 0 bs then
      (osBadState, s.writeVault fun v => { v with flash := v.flash.updSlot 0 k fun _ => ⟨bs, 4⟩ }, .nothing)
    else
      let trial : BootCtl := ⟨1 - k, true, s.m.dnum 0x8003 3⟩
      (s.m.nvStatus, s.writeVault fun v =>
        { v with flash := (v.flash.updSlot 0 k fun _ => ⟨bs, 1⟩).updBoot 0 fun _ => trial }, .rom)
  else if c.active = k ∨ runs = true then refuse s osBadState
  else if s.v.flash.imageOk kind bs then
    (s.m.nvStatus, s.writeVault fun v => { v with flash := v.flash.updSlot kind k fun _ => ⟨bs, 1⟩ }, .nothing)
  else (osBadState, s.writeVault fun v => { v with flash := v.flash.updSlot kind k fun _ => ⟨bs, 4⟩ }, .nothing)

/-- The management and the Gaffer image that an activation would pair. -/
def State.newPair (s : State) (kind : Nat) : Bytes × Bytes :=
  let im := (s.v.flash.slot kind (1 - (s.v.flash.boot kind).active)).image
  (if kind = 0 then im else s.v.mgmtImage, if kind = 1 then im else s.v.gafferImage 0)
/-- The first check of R444: the inactive slot is not written, or another activation is not yet confirmed or fallen back. -/
def State.activateBars (s : State) (kind : Nat) : Bool :=
  (s.v.flash.slot kind (1 - (s.v.flash.boot kind).active)).state != 1 || s.v.onTrial 0 || s.v.onTrial 1 || s.m.liveDie.isSome
    || s.v.recovery
/-- Is there a running image of the other kind to pair with? -/
def State.paired (s : State) (kind : Nat) : Bool := kind == 1 || (s.v.slotRunning 1).isSome
/-- The pairing check before an activation, where it is reached, extends M3 (R438, R440). -/
def State.activateMeasured (s : State) (kind : Nat) : State :=
  if s.activateBars kind || !s.paired kind then s else s.pairMeasured (s.newPair kind).1 (s.newPair kind).2
/-- What refuses an activation, in the order of R444. -/
def State.activateCheck (s : State) (kind : Nat) : Option Nat :=
  let (mi, gi) := s.newPair kind
  let im := if kind = 0 then mi else gi
  if s.activateBars kind then some osBadState
  else if s.paired kind && (s.v.flash.pairDigest mi gi).isNone then some osBadState
  else if kind == 1 && imgNumerics im != s.m.level && !s.m.progs.isEmpty then some osBusy
  else if kind == 1 && imgSeam im != imgSeam (s.v.gafferImage 0) && !s.m.allIdle then some osBusy
  else if s.m.power.deepSteps != 0 || (s.m.chans.any fun q => q.2.state == 4) || s.m.dnum 0x7010 6 == 2
      || !(s.m.die 0).up || !(s.m.die 1).up then some osBusy
  else none

/-- An activation that nothing refuses: a trial is recorded, the event raised; the controller restarts, or the live update
begins at die 1. A Gaffer image for a module that runs none, or with another Seam level, is activated by a warm reset. -/
def State.activated (s : State) (kind : Nat) : Written :=
  let k := 1 - (s.v.flash.boot kind).active
  let im := (s.v.flash.slot kind k).image
  let n := s.m.dnum 0x8003 3
  let st := s.m.nvStatus
  let warm := s.m.restricted != 0 || imgSeam im != imgSeam (s.v.gafferImage 0)
  let s := s.writeVault fun v => { v with flash := v.flash.updBoot kind fun c => { c with trial := true, left := n } }
  let s := s.setM fun m => m.moEvent evFwActivated (toLe 1 kind ++ toLe 1 k)
  if kind = 0 then (st, s, .mgmt)
  else if warm then (st, s, .warm)
  else (st, s.setM fun m => { m with liveDie := some 1 }, .nothing)
/-- fw_activate (R444 to R446). -/
def State.activate (s : State) (kind : Nat) : Written :=
  match s.activateCheck kind with
  | some st => refuse (s.activateMeasured kind) st
  | none => (s.activateMeasured kind).activated kind

/-- Is the kind's trial slot running, on both dies for a Gaffer image (R447)? -/
def State.trialRuns (s : State) (kind : Nat) : Bool :=
  let k := 1 - (s.v.flash.boot kind).active
  s.v.onTrial kind && (if kind = 0 then s.v.slotRunning 0 == some k
    else s.v.slotRunning 1 == some k && s.v.slotRunning 2 == some k && s.m.restricted == 0 && (s.m.die 0).up && (s.m.die 1).up)

/-- fw_confirm (R447). -/
def State.confirm (s : State) (kind : Nat) : Written :=
  if !s.trialRuns kind then refuse s osBadState else
  let k := 1 - (s.v.flash.boot kind).active
  let n := imgSvn (s.v.flash.slot kind k).image
  let s' := s.writeVault fun v =>
    ({ v with flash := v.flash.updBoot kind fun _ => ⟨k, false, 0⟩ } : Vault).raise
      (if kind = 0 then n else 0) (if kind = 1 then n else 0) 0
  (s.m.nvStatus, s'.setM fun m => m.moEvent evFwConfirmed (toLe 1 kind ++ toLe 1 k), .nothing)

/-- The waiver in force has lapsed: the pair that runs is neither a tested one nor covered, and is not restricted before the next pairing
check (R442, log entry 42). -/
def Vault.lapse (v : Vault) (draw : Nat) : Vault := if v.waiver.isEmpty then v else { v with waiver := [], lapsed := some draw }
/-- A key-transition record (R429); it lapses every older waiver (R442). -/
def State.writeKey (s : State) (bs : Bytes) : Written :=
  if 15 ≤ s.v.flash.keys.length ∨ s.v.flash.keyOk bs = false then refuse s osBadState else
  let s' := s.writeVault fun v =>
    (({ v with flash := { v.flash with keys := v.flash.keys ++ [bs] } } : Vault).raise 0 0 (v.flash.chain.length + 1)).lapse s.m.freeCtr
  (s.m.nvStatus, s'.setM fun m => ({ m with freeCtr := m.freeCtr + 1 } : Mach).moEvent evKeyRotated (toLe 2 (leAt bs 4 2)), .nothing)

/-- A waiver (R442). -/
def State.writeWaiver (s : State) (bs : Bytes) : Written :=
  if s.v.flash.waiverOk bs = false then refuse s osBadState else
  let resume := s.m.restricted == 1 && s.v.flash.covers s.v.mgmtImage (s.v.gafferImage 0) bs
  (s.m.nvStatus, s.writeVault fun v => { v with flash := v.flash.addWaiver bs }, if resume then .pair else .nothing)

/-- A nonce (R439): a quote for it is prepared. -/
def State.writeNonce (s : State) (who : Master) (bs : Bytes) : Written :=
  let n := masterNum who
  (osOk, s.setV fun v => { v with nonces := mapSet v.nonces n bs, quotes := mapDel v.quotes n }, .nothing)

/-! ### Ownership (R393, R394) -/

/-- Stagings of a master that does not own the range any more are discarded. -/
def Mach.dropLosers (m : Mach) : Mach :=
  { m with staging := m.staging.filter fun x => m.owner (x.key / 256 / 4096) == x.master || x.key == dictKey 0x9010 1
                                                  || x.key == dictKey 0x8030 1 }

/-- control_token. -/
def Mach.writeToken (m : Mach) (who : Master) (bs : Bytes) : Mach :=
  let m := m.dictPut 0x9010 1 bs
  let ends := who == .host && m.mgmt.takeover
  let m := if ends then ({ m with mgmt := { m.mgmt with takeover := false } } : Mach).moEvent evMgmtReleased else m
  m.dropLosers

/-! ### The write -/

/-- The rule and the effect of a write that passed checks 1 to 7. -/
def State.writeEntry (s : State) (who : Master) (r : DictRow) (i sub : Nat) (bs : Bytes) : Written :=
  let m := s.m
  let n := ofLe bs
  let k := dictKey i sub
  let plain (_ : Unit) : Written := accept s (m.entryStatus r) (m.applyEntry r i sub bs)
  let onM (q : Nat × Mach) : Written := accept s q.1 q.2
  match partIndex i with
  | some (b, p) =>
    if b = 0x2010 ∧ m.tensors.any (fun t => t.part == p) = true then refuse s osBadState
    else if b = 0x2040 ∧ m.tableRule p bs = false then refuse s osBadState
    else if b = 0x4100 ∧ sub = 7 ∧ n < m.dnum i 8 then refuse s osBadState
    else if b = 0x4130 ∧ sub ≤ 0x10 ∧ m.slotRule p (sub - 1) bs = false then refuse s osBadState
    else if b = 0x4130 ∧ 0x21 ≤ sub ∧ m.schedRule p bs = false then refuse s osBadState
    else plain ()
  | none =>
    if k = 0x200101 then
      (if m.tensors.isEmpty && m.groups.isEmpty then accept s (m.entryStatus r) (m.applyEntry r i sub bs).newMode
       else refuse s osBadState)
    else if k = 0x500101 then accept s (m.entryStatus r) (m.applyEntry r i sub bs).retrainAll
    else if i / 32 = 0x5100 / 32 then
      (if m.groupRule (i - 0x5100) bs then accept s (m.entryStatus r) (m.defineGroup r (i - 0x5100) bs)
       else refuse s osBadState)
    else if k = 0x600101 then 
      (if m.tensors.isEmpty then accept s (m.entryStatus r) ((m.applyEntry r i sub bs).reinterleave m.fineMode)
       else refuse s osBadState)
    else if k = 0x601002 then onM (m.service n)
    else if k = 0x700202 then onM (m.unfence n)
    else if k = 0x701005 then onM (m.selftest n)
    else if k = 0x100410 then onM m.restoreAll
    else if k = 0x300405 then (if m.deepOk then accept s osOk m.deepBegin else refuse s osBusy)
    else if k = 0x300601 then s.resetCmd n
    else if i = 0x8002 then s.writeImage (sub - 1) bs
    else if k = 0x800301 then s.activate (n - 1)
    else if k = 0x800302 then s.confirm (n - 1)
    else if k = 0x800402 then s.writeWaiver bs
    else if k = 0x801001 then s.writeKey bs
    else if k = 0x803001 then s.writeNonce who bs
    else if k = 0x901001 then accept s osOk (m.writeToken who bs)
    else if 0x9121 ≤ i ∧ i ≤ 0x912F then onM (m.ringWrite i bs)
    else if k = 0xA00104 then accept s osOk { m with log := [] }
    else if k = 0xA00302 then
      (if m.dnum 0xA003 3 = 1 then (osOk, s.csrWrite (m.dnum 0xA003 1) 4 n, .nothing) else refuse s osBadState)
    else plain ()

/-- What a write began, once it is answered. -/
def State.after (s : State) (a : After) : State :=
  match a with
  | .nothing => s
  | .cold => s.coldReset 5
  | .warm => s.warmReset
  | .die d => (s.setM fun m => m.dieReset d 7).dieReturn d
  | .mgmt => s.setM fun m => { m with mgmt := { m.mgmt with restarting := true } }
  | .rom =>
    -- where the dies run, the controller alone has to start (R445)
    if s.m.dies.any fun x => x.up then s.setM fun m => { m with mgmt := { m.mgmt with restarting := true } } else
    match s.m.power.boot with
    | some obs => s.bootRom (s.m.reg .aopm 0 0 4 % 16) obs
    | none => s
  | .pair => s.resumeBoot

end Sys2Proof.Machine
end

