-- ==== Sys2Proof/Machine/Oap.lean ====
section
/-! DEFINITION. The Object Access Protocol: frames, the checks of a request, segments, snapshots, kept responses, and how a
request reaches the module over either port (R389 to R395, R397, R415, R433, R459). -/

namespace Sys2Proof.Machine

/-! ### Frames (R389) -/

/-- A request: operation, status byte, entry, announced length and the other fields. -/
structure OapReq where
  op     : Nat
  status : Nat
  index  : Nat
  sub    : Nat
  length : Nat
  rq     : DictReq
  deriving DecidableEq, Repr

/-- The frame of a request. -/
def OapReq.bytes (q : OapReq) : Bytes :=
  [q.rq.version] ++ toLe 1 q.op ++ toLe 1 q.status ++ [q.rq.flags] ++ toLe 2 q.rq.tag.toNat ++ toLe 2 q.index ++ toLe 1 q.sub
    ++ [q.rq.typ] ++ toLe 2 q.length ++ toLe 4 q.rq.offset ++ q.rq.data

/-- A request as a frame's bytes say it; bytes beyond the frame read as zeros. -/
def OapReq.ofBytes (who : Master) (b : Bytes) : OapReq :=
  { op := leAt b 1 1, status := leAt b 2 1, index := leAt b 6 2, sub := leAt b 8 1, length := leAt b 10 2
    rq := { master := who, version := BitVec.ofNat 8 (leAt b 0 1), flags := BitVec.ofNat 8 (leAt b 3 1)
            tag := BitVec.ofNat 16 (leAt b 4 2), typ := BitVec.ofNat 8 (leAt b 9 1), offset := leAt b 12 4
            data := subBytes b 16 (leAt b 10 2) } }

/-- The request of a row of the table: no status, as long as its data. -/
def OapReq.ofRow (op index sub : Nat) (rq : DictReq) : OapReq :=
  { op := op, status := 0, index := index % 65536, sub := sub % 256, length := rq.data.length, rq := rq }

/-- What a response carries beside what it echoes. -/
structure OapAns where
  status : Nat
  flags  : Nat := 3
  typ    : Nat
  offset : Nat := 0
  data   : Bytes := []
  deriving DecidableEq, Repr

/-- The frame of a response. -/
def OapReq.answer (q : OapReq) (a : OapAns) : Bytes :=
  toLe 1 1 ++ toLe 1 (setFld q.op 7 7 1) ++ toLe 1 a.status ++ toLe 1 a.flags ++ toLe 2 q.rq.tag.toNat ++ toLe 2 q.index
    ++ toLe 1 q.sub ++ toLe 1 a.typ ++ toLe 2 a.data.length ++ toLe 4 a.offset ++ a.data

/-- Data bytes of one frame at most. -/
def segLimit : Master → Nat | .host => 4096 | .mgmt => 1024

/-! ### The entry that a request names (R384, R333, R433) -/

def State.entryRow (s : State) (i sub : Nat) : Option DictRow :=
  if s.v.recovery ∧ i / 4096 ≠ 1 ∧ i / 4096 ≠ 8 then none
  else if i / 4 = 0x5008 / 4 ∧ s.m.absent i = true then none
  else if sub = 0 then (dictTop i).map fun n => ⟨i, 1, 0, 0, .u8, .ro, n, .computed, .any, 0⟩
  else dictRow i sub

/-- Is what the entry belongs to idle (check 7)? A group's entry belongs to its owner's partition. -/
def Mach.entryIdle (m : Mach) (i : Nat) (bs : Bytes) : Bool :=
  match partIndex i with
  | some (_, p) => m.partIdle p
  | none =>
    if i / 32 = 0x5100 / 32 then
      let old := leAt (m.cgRec (i - 0x5100)) 0 1
      let p := if old = 255 then leAt bs 0 1 else old
      !m.partOk p || m.partIdle p
    else m.allIdle

/-! ### INFO and READ (R390) -/

def DictRow.info (r : DictRow) : Bytes :=
  let acc : Nat := match r.acc with | .ro => 0 | .rw => 1 | .wo => 2 | .rwIdle => 3
  let pers : Nat := match r.pers with | .volatile => 0 | .stored => 1 | .computed => 2
  toLe 1 r.typ.code ++ toLe 1 acc ++ toLe 1 pers ++ zeroBytes 1 ++ toLe 4 (r.typ.size.getD r.maxLen)
    ++ toLe 8 (if r.typ.size.isSome then r.dflt else 0)

/-- The value that a READ is served from: a snapshot, or the entry as it stands, which a read at offset 0 snapshots. -/
def State.readValue (s : State) (who : Master) (i sub off : Nat) : State × Except Nat Bytes :=
  let k := dictKey i sub
  match (if off = 0 then none else s.m.snaps.find? fun x => x.master == who && x.key == k) with
  | some x => (s, .ok x.bytes)
  | none =>
    match s.readEntry who i sub with
    | (s, .error e) => (s, .error e)
    | (s, .ok bs) =>
      if off ≠ 0 then (s, .ok bs) else
      (s.setM fun m => { m with snaps := (m.snaps.filter fun x => !(x.master == who && x.key == k)) ++ [⟨who, k, bs⟩] }, .ok bs)

def State.oapRead (s : State) (who : Master) (q : OapReq) (r : DictRow) : State × OapAns :=
  let t := r.typ.code
  if r.acc = .wo then (s, { status := osWriteOnly, typ := t })
  else if q.rq.typ ≠ 0 ∧ q.rq.typ.toNat ≠ t then (s, { status := osBadType, typ := t })
  else if r.typ.size.isSome then
    if q.rq.offset ≠ 0 then (s, { status := osBadLength, typ := t }) else
    match s.readEntry who q.index q.sub with
    | (s, .error e) => (s, { status := e, typ := t })
    | (s, .ok bs) => (s, { status := osOk, typ := t, data := bs })
  else
    let off := q.rq.offset
    match s.readValue who q.index q.sub off with
    | (s, .error e) => (s, { status := e, typ := t })
    | (s, .ok bs) =>
      if bs.length < off then (s, { status := osBadLength, typ := t }) else
      let part := (bs.drop off).take (segLimit who)
      let fl := (if bs.length ≤ off + part.length then 1 else 0) + (if off = 0 then 2 else 0)
      (s, { status := osOk, flags := fl, typ := t, offset := off, data := part })

/-! ### WRITE (R390, R391) -/

/-- A segment staged: a status, or the whole value with the last one. -/
def Mach.stage (m : Mach) (who : Master) (q : OapReq) (r : DictRow) : Mach × Except Nat Bytes :=
  let k := dictKey q.index q.sub
  let mine (x : Staging) : Bool := x.master == who && x.key == k
  let fl := q.rq.flags.toNat
  let old := m.staging.find? mine
  let m : Mach := { m with staging := m.staging.filter fun x => !mine x }
  let start : Option Bytes :=
    if bitAt fl 1 then (if q.rq.offset = 0 then some [] else none)
    else match old with
      | some x => if q.rq.offset = x.bytes.length then some x.bytes else none
      | none => none
  match start with
  | none => (m, .error osSeqError)
  | some bs =>
    let all := bs ++ q.rq.data
    if r.maxLen < all.length then (m, .error osBadLength)
    else if bitAt fl 0 then (m, .ok all)
    else ({ m with staging := m.staging ++ [⟨who, k, all⟩] }, .error osOk)

/-- May the master write the entry (R393, R439)? The management port may only clear bits of the token. -/
def Mach.mayWrite (m : Mach) (who : Master) (i sub : Nat) (bs : Bytes) : Bool :=
  let k := dictKey i sub
  if k = 0x803001 then true
  else if k = 0x901001 then who == .host || ofLe (bs.take 2) &&& m.dnum 0x9010 1 == ofLe (bs.take 2)
  else m.owner (i / 4096) == who

/-- Does the write wait for the flash: an image, an activation, a confirmation, a waiver, a key record? -/
def waitsForFlash (i sub : Nat) : Bool := i == 0x8002 || [0x800301, 0x800302, 0x800402, 0x801001].contains (dictKey i sub)
/-- The rule and the effect of an entry. When the flash operation that the write waits for fails, and its retry, the write is answered
with NV_ERROR, and what the flash held stands, but for an image's slot, which is invalid and holds anything (R405; log entry 20). -/
def State.writeFlash (s : State) (bad : Bool) (who : Master) (r : DictRow) (i sub : Nat) (bs : Bytes) : Written :=
  let w := s.writeEntry who r i sub bs
  if bad && !s.m.power.nvInhibit && waitsForFlash i sub && w.1 == osOk then
    let (m, x) := s.m.freeBytes 64
    let s : State := { s with m := (m.dset 0x1004 5 2).moEvent evStoreWriteFailed }
    let s := if dictKey i sub = 0x800301 then s.activateMeasured (ofLe bs - 1) else s  -- its checks came before the flash
    (osNvError, if i = 0x8002 then s.setV fun v => { v with flash := v.flash.updSlot ((sub - 1) / 2) ((sub - 1) % 2) fun _ => ⟨x, 4⟩ }
      else s, .nothing)
  else w

/-- Checks 6 to 8 of a whole value, and the write. -/
def State.writeWhole (s : State) (bad : Bool) (who : Master) (r : DictRow) (i sub : Nat) (bs : Bytes) : Written :=
  let a := s.m.absent i
  let k := i / 4096
  if s.m.rangeOk r i sub bs = false then refuse s osOutOfRange
  else if r.acc = .rwIdle ∧ a = false ∧ s.m.entryIdle i bs = false then refuse s osBusy
  else if a = true then refuse s osBadState
  else if 2 ≤ s.m.power.deepSteps ∧ (k = 2 ∨ (4 ≤ k ∧ k ≤ 7)) then refuse s osBadState
  else s.writeFlash bad who r i sub bs

def State.oapWrite (s : State) (who : Master) (q : OapReq) (r : DictRow) : State × OapAns × After :=
  let t := r.typ.code
  let no (st : Nat) : State × OapAns × After := (s, { status := st, typ := t }, .nothing)
  let done (w : Written) : State × OapAns × After :=
    (w.2.1, { status := w.1, flags := fld q.rq.flags.toNat 1 0, typ := t, offset := q.rq.offset }, w.2.2)
  if r.acc = .ro then no osReadOnly
  else if s.m.mayWrite who q.index q.sub q.rq.data = false then no osNotOwner
  else if q.rq.typ.toNat ≠ t then no osBadType
  else match r.typ.size with
    | some n =>
      if q.rq.offset ≠ 0 ∨ fld q.rq.flags.toNat 1 0 ≠ 3 ∨ q.rq.data.length ≠ n then no osBadLength
      else done (s.writeWhole q.rq.flashBad who r q.index q.sub q.rq.data)
    | none =>
      if segLimit who < q.length then no osBadLength else
      match s.m.stage who q r with
      | (m, .error st) => done (st, { s with m := m }, .nothing)
      | (m, .ok bs) => if blobLenOk q.index q.sub bs then done ({ s with m := m }.writeWhole q.rq.flashBad who r q.index q.sub bs)
        else done (osBadLength, { s with m := m }, .nothing)

/-! ### A request -/

/-- Check 1: version, status byte, reserved flags, and an operation that a master sends. -/
def OapReq.malformed (q : OapReq) : Bool :=
  q.rq.version != 1 || q.status != 0 || fld q.rq.flags.toNat 7 2 != 0 || !(q.op == 1 || q.op == 2 || q.op == 3)
/-- The checks and the work of a request; what it begins is done once it is answered. -/
def State.oapExec (s : State) (who : Master) (q : OapReq) : State × Bytes × After :=
  let plain (st : Nat) (t : Nat) : State × Bytes × After := (s, q.answer { status := st, typ := t }, .nothing)
  if q.malformed then plain osBadFrame q.rq.typ.toNat
  else match s.entryRow q.index q.sub with
    | none => plain osNoEntry q.rq.typ.toNat
    | some r =>
      if q.op = 1 then let (s, a) := s.oapRead who q r; (s, q.answer a, .nothing)
      else if q.op = 2 then let (s, a, f) := s.oapWrite who q r; (s, q.answer a, f)
      else if q.rq.typ ≠ 0 ∧ q.rq.typ.toNat ≠ r.typ.code then plain osBadType r.typ.code
      else (s, q.answer { status := osOk, typ := r.typ.code, data := r.info }, .nothing)

/-- Keep a response: the last 16 tags of each master (R392). -/
def Mach.keep (m : Mach) (who : Master) (tag : Nat) (req ans : Bytes) : Mach :=
  let others := m.kept.filter fun x => x.master != who
  let mine := (m.kept.filter fun x => x.master == who && x.tag != tag) ++ [⟨who, tag, req, ans⟩]
  { m with kept := others ++ mine.drop (mine.length - 16) }

/-- A request answered from the kept responses, or executed. -/
def State.oapServe (s : State) (who : Master) (q : OapReq) : State × Bytes × After :=
  let req := q.bytes
  let tag := q.rq.tag.toNat
  match s.m.kept.find? fun x => x.master == who && x.tag == tag && x.request == req with
  | some x => (s, x.answer, .nothing)
  | none =>
    let (s, ans, f) := s.oapExec who q
    (s.setM fun m => m.keep who tag req ans, ans, f)

/-! ### The two ports -/

/-- A frame leaves on the management port for a node, unless the module is unaddressed or hears no beacon (R396, R397). -/
def Mach.mgmtSend (m : Mach) (dst : Nat) (bs : Bytes) : Mach :=
  if m.mgmt.lost || m.mgmt.nodeId == 255 then m else (m.emit (.mgmtFrame (ethFrame dst m.mgmt.nodeId bs))).dadd 0x9001 0x11 1
/-- A frame accepted on the management port is counted, and is a wake source when it was sent to the module's own address (R415). -/
def State.heard (s : State) (bcast : Bool) : State :=
  s.setM fun m => if bcast then m.dadd 0x9001 0x10 1 else (m.dadd 0x9001 0x10 1).wake 2

/-- A request over the management port. A frame is discarded that is not broadcast while the module has no address of its own, and one
that is broadcast and fails check 1; a restarting controller answers nothing (R391, R395, R397). -/
def State.oapMgmt (s : State) (q : OapReq) : State :=
  if s.m.power.boot.isNone || s.m.mgmt.restarting then s
  else if (if q.rq.bcast then q.malformed else s.m.mgmt.nodeId == 255) then s.setM fun m => m.dadd 0x9001 0x12 1 else
  let (s, ans, f) := (s.heard q.rq.bcast).oapServe .mgmt q
  (s.setM fun m => m.mgmtSend 0 ans).after f

/-- A request over the host link. -/
def State.oapHost (s : State) (q : OapReq) : State :=
  if s.m.power.boot.isNone || !s.m.link.up || s.m.link.retraining then s
  else if s.m.mgmt.restarting then
    s.setM fun m => m.emit (.oap .host (q.answer { status := osBusy, typ := q.rq.typ.toNat }))
  else
    let (s, ans, f) := s.oapServe .host q
    (s.setM fun m => m.emit (.oap .host ans)).after f

/-- A request of the table: an operation on an entry, over the port of its master. -/
def State.request (s : State) (rq : DictReq) (op index sub : Nat) : State :=
  let q := OapReq.ofRow op index sub rq
  match rq.master with
  | .mgmt => s.oapMgmt q
  | .host => s.oapHost q

/-- The end of a command that concerns more than the machine. -/
def State.finish (s : State) : Host.Outcome State Fault Refusal := .next { s with m := s.m.rest }

/-- A WRITE of an entry. -/
def State.writeRow (s : State) (rq : DictReq) (index sub : Nat) : Host.Outcome State Fault Refusal :=
  (s.request rq 2 index sub).finish

/-- The OAP host command (R459, R484). -/
def State.oapCommand (s : State) (h : HostHdr) (respAddr bufLen : Nat) (frame : Bytes) : State :=
  if !s.m.fetchable h none then s else
  let (m, c) := s.m.fetch h 0x01
  match m.hostGate h true with
  | some st => { s with m := m.finishHost c st 0 }
  | none =>
    if bufLen < 4112 then { s with m := m.finishHost c stBadCommand 0 }
    else if m.mgmt.restarting then { s with m := m.finishHost c stBusy 0 }
    else
      let (s, ans, f) := { s with m := m }.oapServe .host (OapReq.ofBytes .host frame)
      let s := s.setM fun m =>
        if h.fault = .output then m.finishHost c stHostFault 0
        else (m.toHost respAddr ans).finishHost c stOk ans.length
      s.after f

end Sys2Proof.Machine
end

