-- ==== Sys2Proof/Machine/DictRows.lean ====
section
/-! DEFINITION. The meanings of the commands that travel as requests of the object dictionary, and of the expiry of what they
leave held (spec/02, spec/07, spec/09 to spec/18). -/

namespace Sys2Proof.Machine

/-- OAP (R459): a request frame in host memory. -/
def execOap (h : HostHdr) (respAddr : DWord) (bufLen : Nat) (frame : Bytes) (s : State) : Host.Outcome State Fault Refusal :=
  (s.oapCommand h respAddr.toNat bufLen frame).finish
/-- OAP_READ (R390). -/
def execOapRead (rq : DictReq) (index sub : Nat) (s : State) : Host.Outcome State Fault Refusal :=
  (s.request rq 1 index sub).finish
/-- OAP_WRITE (R390, R391). -/
def execOapWrite (rq : DictReq) (index sub : Nat) (s : State) : Host.Outcome State Fault Refusal :=
  (s.request rq 2 index sub).finish
/-- OAP_INFO (R390). -/
def execOapInfo (rq : DictReq) (index sub : Nat) (s : State) : Host.Outcome State Fault Refusal :=
  (s.request rq 3 index sub).finish
/-- OAP_STAGING_TIMEOUT (R390). -/
def execOapStagingTimeout (who : Master) (index sub : Nat) (s : State) : Host.Outcome State Fault Refusal :=
  s.onMach fun m => { m with staging := m.staging.filter fun x => !(x.master == who && x.key == dictKey index sub) }
/-- OAP_SNAPSHOT_EXPIRE (R390). -/
def execOapSnapshotExpire (who : Master) (index sub : Nat) (s : State) : Host.Outcome State Fault Refusal :=
  s.onMach fun m => { m with snaps := m.snaps.filter fun x => !(x.master == who && x.key == dictKey index sub) }
/-- OAP_KEPT_RESPONSE_EXPIRE (R392). -/
def execOapKeptResponseExpire (who : Master) (tag : Half) (s : State) : Host.Outcome State Fault Refusal :=
  s.onMach fun m => { m with kept := m.kept.filter fun x => !(x.master == who && x.tag == tag.toNat) }

/-! ### Writes of entries with rows of their own -/

/-- PARTITION_MODE_WRITE (R47). -/
def execPartitionModeWrite (rq : DictReq) (s : State) : Host.Outcome State Fault Refusal := s.writeRow rq 0x2001 1
/-- HANDLE_COUNT_WRITE (R48). -/
def execHandleCountWrite (part : Nat) (rq : DictReq) (s : State) : Host.Outcome State Fault Refusal :=
  s.writeRow rq (0x2010 + part % 4) 1
/-- OPT_SLOT_WRITE (R170). -/
def execOptSlotWrite (part slot : Nat) (rq : DictReq) (s : State) : Host.Outcome State Fault Refusal :=
  s.writeRow rq (0x4130 + part % 4) (1 + slot % 16)
/-- LR_SCHEDULE_WRITE (R171). -/
def execLrScheduleWrite (part slot : Nat) (rq : DictReq) (s : State) : Host.Outcome State Fault Refusal :=
  s.writeRow rq (0x4130 + part % 4) (0x21 + slot % 16)
/-- TABLE_MAP_WRITE (R232). -/
def execTableMapWrite (part n : Nat) (rq : DictReq) (s : State) : Host.Outcome State Fault Refusal :=
  s.writeRow rq (0x2040 + part % 4) (1 + n % 32)
/-- HBM_INTERLEAVE_WRITE (R250). -/
def execHbmInterleaveWrite (rq : DictReq) (s : State) : Host.Outcome State Fault Refusal := s.writeRow rq 0x6001 1
/-- PORT_MODE_WRITE (R300). -/
def execPortModeWrite (rq : DictReq) (s : State) : Host.Outcome State Fault Refusal := s.writeRow rq 0x5001 1
/-- GROUP_DEFINITION_WRITE (R320, R331). -/
def execGroupDefinitionWrite (cgroup : Nat) (rq : DictReq) (s : State) : Host.Outcome State Fault Refusal :=
  s.writeRow rq (0x5100 + cgroup % 32) 1
/-- SVC_DRAIN (R268, R272): the value written is 1. -/
def execSvcDrain (rq : DictReq) (s : State) : Host.Outcome State Fault Refusal := s.writeRow { rq with data := [1] } 0x6010 2
/-- SVC_RETURN (R272): 2. -/
def execSvcReturn (rq : DictReq) (s : State) : Host.Outcome State Fault Refusal := s.writeRow { rq with data := [2] } 0x6010 2
/-- SVC_RECALIBRATE (R271, R272): 3. -/
def execSvcRecalibrate (rq : DictReq) (s : State) : Host.Outcome State Fault Refusal :=
  s.writeRow { rq with data := [3] } 0x6010 2
/-- SVC_MARGIN (R272, R274): 4. -/
def execSvcMargin (rq : DictReq) (s : State) : Host.Outcome State Fault Refusal := s.writeRow { rq with data := [4] } 0x6010 2
/-- SELFTEST_ROLLING (R351): selftest_cmd 1. -/
def execSelftestRolling (rq : DictReq) (s : State) : Host.Outcome State Fault Refusal :=
  s.writeRow { rq with data := [1] } 0x7010 5
/-- SELFTEST_WHOLE_MODULE (R351): selftest_cmd 2. -/
def execSelftestWholeModule (rq : DictReq) (s : State) : Host.Outcome State Fault Refusal :=
  s.writeRow { rq with data := [2] } 0x7010 5
/-- UNFENCE (R346). -/
def execUnfence (rq : DictReq) (s : State) : Host.Outcome State Fault Refusal := s.writeRow rq 0x7002 2
/-- CONTROL_TOKEN_WRITE (R393, R394). -/
def execControlTokenWrite (rq : DictReq) (s : State) : Host.Outcome State Fault Refusal := s.writeRow rq 0x9010 1
/-- RESTORE_DEFAULTS (R388). -/
def execRestoreDefaults (rq : DictReq) (s : State) : Host.Outcome State Fault Refusal := s.writeRow rq 0x1004 0x10
/-- LOG_CLEAR (R407). -/
def execLogClear (rq : DictReq) (s : State) : Host.Outcome State Fault Refusal := s.writeRow rq 0xA001 4
/-- CSR_DATA_READ (R407). -/
def execCsrDataRead (rq : DictReq) (s : State) : Host.Outcome State Fault Refusal := (s.request rq 1 0xA003 2).finish
/-- CSR_DATA_WRITE (R407). -/
def execCsrDataWrite (rq : DictReq) (s : State) : Host.Outcome State Fault Refusal := s.writeRow rq 0xA003 2
/-- RING_PAIR_WRITE (R488). -/
def execRingPairWrite (ring : Nat) (rq : DictReq) (s : State) : Host.Outcome State Fault Refusal :=
  s.writeRow rq (0x9120 + ring) 1
/-- RESET_CMD_COLD (R420): reset_cmd "COLD". -/
def execResetCmdCold (rq : DictReq) (s : State) : Host.Outcome State Fault Refusal :=
  s.writeRow { rq with data := toLe 4 0x434F4C44 } 0x3006 1
/-- RESET_CMD_WARM (R420): reset_cmd "WARM". -/
def execResetCmdWarm (rq : DictReq) (s : State) : Host.Outcome State Fault Refusal :=
  s.writeRow { rq with data := toLe 4 0x5741524D } 0x3006 1
/-- RESET_CMD_DIE (R420): reset_cmd "DIE0" or "DIE1". -/
def execResetCmdDie (rq : DictReq) (s : State) : Host.Outcome State Fault Refusal := s.writeRow rq 0x3006 1
/-- DEEP_CMD (R414). -/
def execDeepCmd (rq : DictReq) (s : State) : Host.Outcome State Fault Refusal := s.writeRow rq 0x3004 5

end Sys2Proof.Machine
end

