-- ==== Sys2Proof/Machine/StepRows.lean ====
section
/-! DEFINITION. The meanings of the events of training steps, checkpoints and digests, and of silent errors (spec/07,
spec/08, spec/13). -/

namespace Sys2Proof.Machine

/-- A packet arrives at a port that is up. -/
def Mach.arrivePkt (m : Mach) (port typ : Nat) (hdr : PktHdr) (ext : Option ExtHdr) (payload : Bytes) : Mach :=
  if port < m.portCount && (m.port port).isUp then m.rxPacket (some port) ⟨typ, hdr, ext, payload⟩ else m
/-- A notice of a kind (R326): the kind stands above the level in the extension. -/
def Mach.arriveNotice (m : Mach) (port kind : Nat) (hdr : PktHdr) (ext : ExtHdr) (payload : Bytes) : Mach :=
  m.arrivePkt port ptNotice hdr (some { ext with level := kind * 16 + ext.level % 16 }) payload

/-- The benches whose row a rerun freed: a yield that waited for it has taken effect, and its bit is clear (R144, R146). -/
def Mach.rowsDone (m after : Mach) : Mach :=
  ((List.range 64).filter fun n => m.holdsRow n && !after.holdsRow n).foldl (fun (m : Mach) n =>
    m.clrBit .bench (n / 32) (n % 32) 0 2) after

/-- AGREED_STATUS (R202, R203, R205). -/
def execAgreedStatus (part group : Nat) (s : State) : Host.Outcome State Fault Refusal :=
  s.onMach fun m => m.agreedStatus part group
/-- ABORT_NOTICE (R204, R326). -/
def execAbortNotice (port : Nat) (hdr : PktHdr) (ext : ExtHdr) (payload : Bytes) (s : State) :
    Host.Outcome State Fault Refusal :=
  s.onMach fun m => m.arriveNotice port nkAbort hdr ext payload
/-- COMMIT_ACK (R206, R326). -/
def execCommitAck (port : Nat) (hdr : PktHdr) (ext : ExtHdr) (s : State) : Host.Outcome State Fault Refusal :=
  s.onMach fun m => m.arriveNotice port nkAck hdr ext []
/-- CKPT_SHIPPED (R215). -/
def execCkptShipped (part : Nat) (s : State) : Host.Outcome State Fault Refusal := s.onMach fun m => m.shipped part
/-- DIGEST_NOTICE (R326, R354, R355). -/
def execDigestNotice (port : Nat) (hdr : PktHdr) (ext : ExtHdr) (payload : Bytes) (s : State) :
    Host.Outcome State Fault Refusal :=
  s.onMach fun m => m.arriveNotice port nkDigest hdr ext payload
/-- DIGEST_TIMEOUT (R358). -/
def execDigestTimeout (part : Nat) (s : State) : Host.Outcome State Fault Refusal := s.onMach fun m => m.digestExpire part
/-- DIGESTS_COMPUTED (R354). -/
def execDigestsComputed (part : Nat) (s : State) : Host.Outcome State Fault Refusal := s.onMach fun m => m.digestsDone part
/-- JOURNAL_ROOM_RESUME (R188). -/
def execJournalRoomResume (ctx : Nat) (s : State) : Host.Outcome State Fault Refusal :=
  s.onMach fun m => m.journalResume ctx

/-- STRAIN_RERUN_DONE (R341 to R344). -/
def execStrainRerunDone (bench run : Nat) (fault : Option BenchFault) (origAgrees : Bool) (s : State) :
    Host.Outcome State Fault Refusal :=
  s.onMach fun m => m.rowsDone (m.rerunDone bench run fault origAgrees)
/-- STRIKE_EXPIRE (R345). -/
def execStrikeExpire (s : State) : Host.Outcome State Fault Refusal := s.onMach fun m => m.expireStrikes
/-- FRIT_TEST_START (R347). -/
def execFritTestStart (bench partner : Nat) (s : State) : Host.Outcome State Fault Refusal :=
  s.onMach fun m => m.fritStart bench partner
/-- FRIT_TEST_DONE (R350). -/
def execFritTestDone (bench : Nat) (runs : List FritRun) (s : State) : Host.Outcome State Fault Refusal :=
  s.onMach fun m => m.fritDone bench runs
/-- FRIT_LEND_EXPIRE (R347). -/
def execFritLendExpire (bench : Nat) (s : State) : Host.Outcome State Fault Refusal := s.onMach fun m => m.fritExpire bench
/-- KNOWN_ANSWER_TEST (R349). -/
def execKnownAnswerTest (inst : Inst) (got1 got1again : KavResult) (second : Nat) (got2 : KavResult) (s : State) :
    Host.Outcome State Fault Refusal :=
  s.onMach fun m => m.knownAnswer inst got1 got1again second got2
/-- SELFTEST_COMPLETE (R351). -/
def execSelftestComplete (results : List (Nat × Bool × Nat)) (s : State) : Host.Outcome State Fault Refusal :=
  s.onMach fun m => m.selftestDone results
/-- JACKS_RESERVE_GRANT (R324). -/
def execJacksReserveGrant (cgroup : Nat) (s : State) : Host.Outcome State Fault Refusal :=
  s.onMach fun m => m.jacksGrant cgroup

end Sys2Proof.Machine
end

