-- ==== Sys2Proof/Machine/FabricRows.lean ====
section
/-! DEFINITION. The meanings of the fabric's events (spec/12). -/

namespace Sys2Proof.Machine

/-- PKT_WRITE (R310 to R315). -/
def execPktWrite (port : Nat) (hdr : PktHdr) (payload : Bytes) (s : State) : Host.Outcome State Fault Refusal :=
  s.onMach fun m => m.arrivePkt port ptWrite hdr none payload
/-- PKT_WRITE_SIGNAL (R310 to R315). -/
def execPktWriteSignal (port : Nat) (hdr : PktHdr) (payload : Bytes) (s : State) : Host.Outcome State Fault Refusal :=
  s.onMach fun m => m.arrivePkt port ptWriteSignal hdr none payload
/-- PKT_READ_REQ (R310 to R315). -/
def execPktReadReq (port : Nat) (hdr : PktHdr) (payload : Bytes) (s : State) : Host.Outcome State Fault Refusal :=
  s.onMach fun m => m.arrivePkt port ptReadReq hdr none payload
/-- PKT_READ_RESP (R310 to R315). -/
def execPktReadResp (port : Nat) (hdr : PktHdr) (payload : Bytes) (s : State) : Host.Outcome State Fault Refusal :=
  s.onMach fun m => m.arrivePkt port ptReadResp hdr none payload
/-- PKT_COLL_CHUNK (R322 to R329). -/
def execPktCollChunk (port : Nat) (hdr : PktHdr) (ext : ExtHdr) (payload : Bytes) (s : State) :
    Host.Outcome State Fault Refusal :=
  s.onMach fun m => m.arrivePkt port ptColl hdr (some ext) payload
/-- NOTICE_STATUS (R202, R326). -/
def execNoticeStatus (port : Nat) (hdr : PktHdr) (ext : ExtHdr) (payload : Bytes) (s : State) :
    Host.Outcome State Fault Refusal :=
  s.onMach fun m => m.arriveNotice port nkStatus hdr ext payload
/-- NOTICE_BARRIER_ARRIVE (R290, R326). -/
def execNoticeBarrierArrive (port : Nat) (hdr : PktHdr) (ext : ExtHdr) (payload : Bytes) (s : State) :
    Host.Outcome State Fault Refusal :=
  s.onMach fun m => m.arriveNotice port nkBarrier hdr ext payload
/-- NOTICE_RESEND (R325, R326). -/
def execNoticeResend (port : Nat) (hdr : PktHdr) (ext : ExtHdr) (payload : Bytes) (s : State) :
    Host.Outcome State Fault Refusal :=
  s.onMach fun m => m.arriveNotice port nkResend hdr ext payload
/-- PKT_TACK (R311). -/
def execPktTack (port : Nat) (hdr : PktHdr) (s : State) : Host.Outcome State Fault Refusal :=
  s.onMach fun m => m.arrivePkt port ptTack hdr none []
/-- PKT_REFUSE (R315). -/
def execPktRefuse (port : Nat) (hdr : PktHdr) (payload : Bytes) (s : State) : Host.Outcome State Fault Refusal :=
  s.onMach fun m => m.arrivePkt port ptRefuse hdr none payload
/-- RETX_TIMER_EXPIRE (R311). -/
def execRetxTimerExpire (flow : Nat) (s : State) : Host.Outcome State Fault Refusal := s.onMach fun m => m.retx flow
/-- DEST_UNREACHABLE (R330). -/
def execDestUnreachable (part module dstPart : Nat) (s : State) : Host.Outcome State Fault Refusal :=
  s.onMach fun m => m.destLost part module dstPart
/-- FLIT_RECEIVE (R302 to R306). -/
def execFlitReceive (port : Nat) (symbols : List (List Nat)) (s : State) : Host.Outcome State Fault Refusal :=
  s.onMach fun m => m.rxFlit port symbols
/-- FLIT_REPLAY_TIMEOUT (R306). -/
def execFlitReplayTimeout (port : Nat) (s : State) : Host.Outcome State Fault Refusal :=
  s.onMach fun m => if port < m.portCount then m.replayPort port else m
/-- PORT_FAST_RETRAIN (R307). -/
def execPortFastRetrain (port : Nat) (s : State) : Host.Outcome State Fault Refusal := s.onMach fun m => m.retrainPort port
/-- PORT_DOWN (R308). -/
def execPortDown (port : Nat) (s : State) : Host.Outcome State Fault Refusal := s.onMach fun m => m.dropPort port
/-- PORT_TRAINED (R307, R308). -/
def execPortTrained (port lanes module part : Nat) (peer : PortPeer) (s : State) : Host.Outcome State Fault Refusal :=
  s.onMach fun m => if (m.port port).st == .down then m else m.portUp ⟨port, lanes, module, part, peer.port, peer.credits⟩

end Sys2Proof.Machine
end

