-- ==== Sys2Proof/Machine/HostRows.lean ====
section
/-! DEFINITION. The meanings of the host commands that do not pass through the dictionary (R459 to R464, R468). -/

namespace Sys2Proof.Machine

/-- HANDLE_WRITE (R20, R22, R24). -/
def execHandleWrite (h : HostHdr) (handle : Nat) (words : List DWord) (s : State) : Host.Outcome State Fault Refusal :=
  s.onMach fun m => m.hostNow h 0x10 none fun m => m.handleWrite h.partition handle ((words.map fun w => w.toNat).take 6)
/-- HANDLE_READ (R24). -/
def execHandleRead (h : HostHdr) (handle : Nat) (addr : DWord) (s : State) : Host.Outcome State Fault Refusal :=
  s.onMach fun m => m.hostNow h 0x11 none fun m => m.handleRead h.partition handle addr.toNat (h.fault == .output)
/-- HANDLE_FREE (R24). -/
def execHandleFree (h : HostHdr) (handle : Nat) (s : State) : Host.Outcome State Fault Refusal :=
  s.onMach fun m => m.hostNow h 0x12 none fun m => m.handleFree h.partition handle
/-- PROGRAM_LOAD (R33): fetched here, checked when it completes. -/
def execProgramLoad (h : HostHdr) (byteLength : Nat) (image : Bytes) (s : State) : Host.Outcome State Fault Refusal :=
  s.onMach fun m => m.hostSlow h 0x20 none fun _ => .ok fun c =>
    { c with len := byteLength, data := fitBytes byteLength image }
/-- PROGRAM_UNLOAD (R33). -/
def execProgramUnload (h : HostHdr) (program : Nat) (s : State) : Host.Outcome State Fault Refusal :=
  s.onMach fun m => m.hostNow h 0x21 none fun m => m.programUnload h.partition program
/-- GROUP_CREATE (R37, R50). -/
def execGroupCreate (h : HostHdr) (group kind : Nat) (seed first rpt : DWord) (s : State) :
    Host.Outcome State Fault Refusal :=
  s.onMach fun m => m.hostNow h 0x22 (some group) fun m =>
    m.groupCreate h.partition group kind seed.toNat first.toNat rpt.toNat
/-- BIND (R38, R50). -/
def execBind (h : HostHdr) (group program pick : Nat) (s : State) : Host.Outcome State Fault Refusal :=
  s.onMach fun m => m.hostNow h 0x23 (some group) fun m => m.bindProg h.partition group program pick
/-- START (R40, R50, R192). -/
def execStart (h : HostHdr) (group : Nat) (s : State) : Host.Outcome State Fault Refusal :=
  s.onMach fun m => m.hostNow h 0x24 (some group) fun m =>
    let (st, m) := m.startGroup h.partition group
    (st, 0, m)
/-- PAUSE (R40, R41, R207). -/
def execPause (h : HostHdr) (group : Nat) (s : State) : Host.Outcome State Fault Refusal :=
  s.onMach fun m => m.slowGroup h 0x25 group
/-- RESUME (R40, R50, R209). -/
def execResume (h : HostHdr) (group : Nat) (s : State) : Host.Outcome State Fault Refusal :=
  s.onMach fun m => m.hostNow h 0x26 (some group) fun m =>
    let (st, m) := m.resumeGroup h.partition group
    (st, 0, m)
/-- STOP (R40, R41, R207). -/
def execStop (h : HostHdr) (group : Nat) (s : State) : Host.Outcome State Fault Refusal :=
  s.onMach fun m => m.slowGroup h 0x27 group
/-- UNBIND (R50). -/
def execUnbind (h : HostHdr) (context : Nat) (s : State) : Host.Outcome State Fault Refusal :=
  s.onMach fun m => m.hostNow h 0x28 (some (m.ctx context).group) fun m =>
    let (st, m) := m.unbindCtx h.partition context
    (st, 0, m)
/-- GROUP_DESTROY (R50). -/
def execGroupDestroy (h : HostHdr) (group : Nat) (s : State) : Host.Outcome State Fault Refusal :=
  s.onMach fun m => m.hostNow h 0x29 (some group) fun m =>
    let (st, m) := m.destroyGroup h.partition group
    (st, 0, m)
/-- CKPT_READ (R217): the slot is one that the command's partition hosts. -/
def execCkptRead (h : HostHdr) (module partition slot : Nat) (addr : DWord) (length : Nat) (s : State) :
    Host.Outcome State Fault Refusal :=
  s.onMach fun m => m.hostSlow h 0x2A none fun m =>
    if (match m.hostedSlot module partition slot (some h.partition) with | some x => m.slotWriting x | none => true)
    then .error (stBadState, 0, m)
    else .ok fun c => { c with extra := [module, partition, slot], addr := addr.toNat, len := length }
/-- CKPT_RESTORE (R217, R218): from host memory or from a hosted slot. -/
def execCkptRestore (h : HostHdr) (group source slot module partition : Nat) (image : Bytes) (s : State) :
    Host.Outcome State Fault Refusal :=
  s.onMach fun m => m.hostSlow h 0x2B (some group) fun m =>
    if 1 < source then .error (stBadCommand, 0, m)
    else if !m.restoreReady h.partition group then .error (stBadState, 0, m)
    else .ok fun c => { c with extra := [group, source, slot, module, partition], data := image }
/-- NOP (R459). -/
def execNop (h : HostHdr) (s : State) : Host.Outcome State Fault Refusal :=
  s.onMach fun m => m.hostNow h 0x02 none fun m => (stOk, 0, m)
/-- DMA_WRITE (R462). -/
def execDmaWrite (h : HostHdr) (length : Nat) (tile : TileRef) (mode offset : Nat) (data : Bytes) (s : State) :
    Host.Outcome State Fault Refusal :=
  s.onMach fun m => m.hostSlow h 0x30 none fun m =>
    match m.dmaRange h.partition tile mode offset length with
    | .error e => .error e
    | .ok _ => .ok fun c => { c with len := length, tile := if mode = 0 then some tile else none, off := offset
                                     data := fitBytes length data }
/-- DMA_READ (R462). -/
def execDmaRead (h : HostHdr) (addr : DWord) (length : Nat) (tile : TileRef) (mode offset : Nat) (s : State) :
    Host.Outcome State Fault Refusal :=
  s.onMach fun m => m.hostSlow h 0x31 none fun m =>
    match m.dmaRange h.partition tile mode offset length with
    | .error e => .error e
    | .ok _ => .ok fun c => { c with len := length, tile := if mode = 0 then some tile else none, off := offset
                                     addr := addr.toNat }
/-- SIGNAL (R278, R463). -/
def execSignal (h : HostHdr) (counter : Half) (s : State) : Host.Outcome State Fault Refusal :=
  s.onMach fun m => m.hostNow h 0x32 none fun m =>
    match extCtr m.mode h.partition counter.toNat with
    | none => (stBadCommand, 0, m)
    | some (d, i) => (stOk, 0, m.signal d i)
/-- WAIT (R282, R463). -/
def execWait (h : HostHdr) (counter : Half) (count timeout : Nat) (s : State) : Host.Outcome State Fault Refusal :=
  s.onMach fun m => m.hostWait h counter count timeout
/-- HOST_WAIT_TIMEOUT (R463). -/
def execHostWaitTimeout (ring : Nat) (tag : Half) (s : State) : Host.Outcome State Fault Refusal :=
  s.onMach fun m => m.hostWaitExpire ring tag
/-- TIME_EXCHANGE (R464). -/
def execTimeExchange (h : HostHdr) (hostTime addr : DWord) (s : State) : Host.Outcome State Fault Refusal :=
  s.onMach fun m => m.hostNow h 0x34 none fun m => m.timeExchange hostTime.toNat addr.toNat (h.fault == .output)
/-- DETACH (R468). -/
def execDetach (h : HostHdr) (s : State) : Host.Outcome State Fault Refusal := s.onMach fun m => m.detach h
/-- COMMAND_COMPLETE (R456, R462, R484). -/
def execCommandComplete (ring : Nat) (tag : Half) (fault : HostFault) (done : Nat) (s : State) :
    Host.Outcome State Fault Refusal :=
  s.onMach fun m => m.commandDone ring tag (fault != .none) done

end Sys2Proof.Machine
end

