-- ==== Sys2Proof/Machine/LinkRows.lean ====
section
/-! DEFINITION. The meanings of the host link's own events: flits, loss and return of the link, doorbells, the link control
space, the rings (R451 to R456, R465, R467, R488). -/

namespace Sys2Proof.Machine

def Mach.updLink (m : Mach) (f : Link → Link) : Mach := { m with link := f m.link }

/-! ### Flits (R452) -/

/-- Send again what is not acknowledged; at the sixteenth replay of the same flit a fast retrain starts. -/
def Mach.hlReplay (m : Mach) : Mach :=
  let l := m.link
  if l.replay.isEmpty || !l.up || l.retraining then m else
  let m := l.replay.foldl (fun (m : Mach) f => m.emit (.hlFlit (hlFlitBytes 1 f.1 l.rxSeq false f.2))) m
  (m.dadd 0x9101 0x10 l.replay.length).updLink fun l =>
    { l with replays := l.replays + 1, retraining := decide (16 ≤ l.replays + 1) }
/-- A flit is discarded: one nak until the expected one arrives. -/
def Mach.hlNak (m : Mach) : Mach :=
  if m.link.nakOut then m
  else (m.updLink fun l => { l with nakOut := true }).emit (.hlFlit (hlFlitBytes 2 0 m.link.rxSeq true []))
/-- A flit whose check holds: its acknowledgement, its nak, its sequence number. A flit out of its turn is discarded whole. One that is
taken is acknowledged by a flit of its own (the model's choice, log entry 18). What it carries are commands of their own. -/
def Mach.hlTake (m : Mach) (w : Nat) : Mach :=
  let ack := fld w 27 16
  if fld w 3 0 = 1 ∧ fld w 15 4 ≠ m.link.rxSeq then m.hlNak else
  let m := if !bitAt w 28 then m else
    let left := m.link.replay.filter fun f => !decide ((ack + 4096 - 1 - f.1) % 4096 < 2048)
    m.updLink fun l => { l with replay := left, replays := if left.length = l.replay.length then l.replays else 0 }
  let m := if bitAt w 28 && bitAt w 29 then m.hlReplay else m
  let m := hlPump 64 m
  if fld w 3 0 ≠ 1 then m else
  let m := m.updLink fun l => { l with rxSeq := (l.rxSeq + 1) % 4096, nakOut := false }
  if m.link.retraining then m else m.emit (.hlFlit (hlFlitBytes 0 0 m.link.rxSeq false []))
/-- HL_FLIT_RECEIVE (R452). -/
def execHlFlitReceive (flit : Bytes) (s : State) : Host.Outcome State Fault Refusal :=
  s.onMach fun m =>
    if !m.link.up || m.link.retraining then m
    else if flit.length ≠ 256 ∨ leAt flit 252 4 ≠ (crc32c (flit.take 252)).toNat then m.hlNak
    else m.hlTake (leAt flit 0 4)
/-- HL_REPLAY_TIMEOUT (R452). -/
def execHlReplayTimeout (s : State) : Host.Outcome State Fault Refusal := s.onMach Mach.hlReplay

/-! ### Retraining, loss and return (R452, R467, R469) -/

/-- A fast retrain is done: what is not acknowledged is sent again, and what waited goes on. -/
def Mach.hlRetrained (m : Mach) : Mach :=
  if !m.link.up then m else
  let m := m.updLink fun l => { l with retraining := false, replays := 0 }
  let m := ((m.dadd 0x9101 0x11 1).moEvent evHostLinkRetrained).hlReplay
  hlPump 64 m
/-- HOST_LINK_RETRAINED (R452, R467). -/
def execHostLinkRetrained (s : State) : Host.Outcome State Fault Refusal := s.onMach Mach.hlRetrained

/-- The link is down: DMAs in progress are aborted, and what they had not finished is undefined. -/
def Mach.linkLost (m : Mach) : Mach :=
  if !m.link.up then m else
  let m := ((m.linkLow).dadd 0x9101 0x12 1).moEvent evHostLinkDown
  (m.link.cmds.filter fun c => c.kind == 0x30 || c.kind == 0x31).foldl (fun (m : Mach) c =>
    (if c.kind = 0x30 then m.dmaLost c 0 else m).finishHost c stAborted 0) m
/-- HOST_LINK_DOWN (R452, R467). -/
def execHostLinkDown (s : State) : Host.Outcome State Fault Refusal := s.onMach Mach.linkLost
/-- HOST_LINK_UP (R451). -/
def execHostLinkUp (lanes : Nat) (s : State) : Host.Outcome State Fault Refusal :=
  s.onMach fun m => if m.power.boot.isNone then m else m.linkUp lanes

/-! ### Doorbells (R453, R455, R456, R465) -/

/-- The count of slots returned after a head doorbell: an index names a slot of the ring (log entry 7). Counts are kept modulo
2^16; `tail` slots are written and `head` returned. -/
def ringHead (tail head n i : Nat) : Nat :=
  let out := (tail + 65536 - head) % 65536
  let d := (i + n - head % n) % n
  (head + min out (if d = 0 ∧ out = n then n else d)) % 65536
/-- SQ_DOORBELL (R455). -/
def execSqDoorbell (ring : Nat) (tail : Half) (s : State) : Host.Outcome State Fault Refusal :=
  s.onMach fun m => if !m.link.up || 16 ≤ ring then m else m.updRing ring fun q => { q with sqTail := tail.toNat % m.sqSize ring }
/-- CQ_DOORBELL (R456). -/
def execCqDoorbell (ring : Nat) (head : Half) (s : State) : Host.Outcome State Fault Refusal :=
  s.onMach fun m => if !m.link.up || 16 ≤ ring then m else
    (m.updRing ring fun q =>
      { q with cqHead := ringHead q.cqTail q.cqHead (m.cqSize ring) head.toNat }).flushRing ring
/-- EVENT_HEAD_DOORBELL (R465). -/
def execEventHeadDoorbell (head : Half) (s : State) : Host.Outcome State Fault Refusal :=
  s.onMach fun m => if !m.link.up then m else pumpEvents 300 (m.updLink fun l =>
      { l with evHead := ringHead l.evTail l.evHead l.evSize head.toNat })

/-! ### The link control space (R454) -/

/-- May enable be set? -/
def Link.configOk (l : Link) : Bool :=
  let w := l.sizes.toNat
  ([fld w 3 0, fld w 7 4, fld w 11 8].all fun k => 4 ≤ k && k ≤ 15) && fld w 63 12 == 0
  && [l.adminSq, l.adminCq, l.evRing].all fun a => fld a.toNat 11 0 == 0
/-- HL_STATUS. -/
def Mach.hlStatus (m : Mach) : Nat :=
  m.link.attached.toNat + 2 * (m.moduleState == 1).toNat + 4 * m.link.lanes + 64 * m.link.badConfig.toNat
/-- Rings whose address or size was written while enable was 0 restart with head and tail 0 and phase 1. -/
def Mach.restartRings (m : Mach) : Mach :=
  let t := m.link.touched
  let m := if t.contains 8 || t.contains 0x20 then m.updRing 0 fun q => { q with sqHead := 0, sqTail := 0 } else m
  let m := if t.contains 0x10 || t.contains 0x20 then m.updRing 0 fun q => { q with cqHead := 0, cqTail := 0 } else m
  let m := if t.contains 0x18 || t.contains 0x20 then m.updLink fun l => { l with evHead := 0, evTail := 0 } else m
  m.updLink fun l => { l with touched := [] }
/-- A write of HL_CTRL. -/
def Mach.hlCtrl (m : Mach) (w : Nat) : Mach :=
  if !m.link.up then m
  else if !bitAt w 0 then m.updLink fun l => { l with enable := false, badConfig := false }
  else if m.link.enable then m.updLink fun l => { l with badConfig := false }
  else if !m.link.configOk then m.updLink fun l => { l with badConfig := true }
  else
    let m := m.restartRings.updLink fun l => { l with enable := true, attached := true, badConfig := false }
    pumpEvents 300 (m.flushRing 0)
/-- HL_CTRL_WRITE (R454). -/
def execHlCtrlWrite (w : DWord) (s : State) : Host.Outcome State Fault Refusal := s.onMach fun m => m.hlCtrl w.toNat
/-- CTRL_WRITE (R454): ignored while enable is 1. -/
def execCtrlWrite (offset : Nat) (w : DWord) (s : State) : Host.Outcome State Fault Refusal :=
  s.onMach fun m =>
    if !m.link.up || m.link.enable || !([8, 0x10, 0x18, 0x20].contains offset) then m else
    m.updLink fun l =>
      let l := { l with touched := if l.touched.contains offset then l.touched else l.touched ++ [offset] }
      if offset = 8 then { l with adminSq := w } else if offset = 0x10 then { l with adminCq := w }
      else if offset = 0x18 then { l with evRing := w } else { l with sizes := w }
/-- RING_PAIR_DRAINED (R488). -/
def execRingPairDrained (ring : Nat) (s : State) : Host.Outcome State Fault Refusal :=
  s.onMach fun m => if ring < 16 then m.flushRing ring else m

end Sys2Proof.Machine
end

