-- ==== Sys2Proof/Machine/MemRows.lean ====
section
/-! DEFINITION. The meanings of the planner's and the memory service's events (spec/09, spec/10, spec/16). -/

namespace Sys2Proof.Machine

/-- PLANNER_TICK (R240, R264). -/
def execPlannerTick (s : State) : Host.Outcome State Fault Refusal := s.onMach Mach.plannerTick
/-- COUNTERS_WARM (R265). -/
def execCountersWarm (part : Nat) (s : State) : Host.Outcome State Fault Refusal := s.onMach fun m => m.countersWarm part
/-- TABLE_COUNTER_HALVE (R241). -/
def execTableCounterHalve (part : Nat) (s : State) : Host.Outcome State Fault Refusal :=
  s.onMach fun m => m.halveCounters part
/-- MIGRATION_COPY_DONE (R266). -/
def execMigrationCopyDone (part handle tile : Nat) (s : State) : Host.Outcome State Fault Refusal :=
  s.onMach fun m => m.copyDone part handle tile
/-- SCRUB_PATROL (R248, R261, R262). -/
def execScrubPatrol (o : PatrolObs) (s : State) : Host.Outcome State Fault Refusal :=
  s.onMach fun m => m.scrub o.addr o.upset o.parity o.later
/-- RECALIBRATION_TRIGGER (R271). -/
def execRecalibrationTrigger (chan : Chan) (s : State) : Host.Outcome State Fault Refusal :=
  s.onMach fun m => m.recalAnnounce chan
/-- RECAL_HOLD (R271). -/
def execRecalHold (chan : Chan) (s : State) : Host.Outcome State Fault Refusal := s.onMach fun m => m.recalHold chan
/-- RECALIBRATION_END (R271, R275). -/
def execRecalibrationEnd (chan : Chan) (holdNs : Nat) (s : State) : Host.Outcome State Fault Refusal :=
  s.onMach fun m => m.recalEnd chan holdNs
/-- CHANNEL_DRAINED (R268). -/
def execChannelDrained (chan : Chan) (s : State) : Host.Outcome State Fault Refusal := s.onMach fun m => m.chanDrained chan
/-- MARGIN_DONE (R274). -/
def execMarginDone (chan : Chan) (result : Bytes) (s : State) : Host.Outcome State Fault Refusal :=
  s.onMach fun m => m.marginDone chan result
/-- STATION_DRAINED (R268). -/
def execStationDrained (inst : Inst) (s : State) : Host.Outcome State Fault Refusal := s.onMach fun m => m.stationDrained inst
/-- STATION_GATE (R412). -/
def execStationGate (inst : Inst) (s : State) : Host.Outcome State Fault Refusal := s.onMach fun m => m.stationGate inst
/-- STATION_WAKE (R293, R412): a signal or a release raises the wake line of a gated instance. -/
def execStationWake (inst : Inst) (s : State) : Host.Outcome State Fault Refusal :=
  s.onMach fun m => if mapGet m.power.insts (Inst.id' inst) = some .gated then m.wakeInst inst else m
/-- STATION_RETAIN (R412, R413). -/
def execStationRetain (inst : Inst) (s : State) : Host.Outcome State Fault Refusal := s.onMach fun m => m.stationRetain inst
/-- RETAINED_ACCESS (R412, R413): the first access to a Retained instance restores it. -/
def execRetainedAccess (inst : Inst) (s : State) : Host.Outcome State Fault Refusal :=
  s.onMach fun m => if mapGet m.power.insts (Inst.id' inst) = some .retained then m.wakeInst inst else m

end Sys2Proof.Machine
end

