-- ==== Sys2Proof/Machine/MgmtRows.lean ====
section
/-! DEFINITION. The meanings of the events of the management segment and of the configuration store (R394, R396 to R399, R401
to R405). -/

namespace Sys2Proof.Machine

/-- Does the management controller serve its port? -/
def Mach.mgmtServes (m : Mach) : Bool := m.power.boot.isSome && !m.mgmt.restarting
def Mach.updMgmt (m : Mach) (f : Mgmt → Mgmt) : Mach := { m with mgmt := f m.mgmt }

/-! ### Chain addressing and beacons -/

/-- SWEEP_BEGIN (R398). -/
def execSweepBegin (s : State) : Host.Outcome State Fault Refusal :=
  s.onMach fun m => if !m.mgmtServes then m else
    (m.dadd 0x9001 0x10 1).updMgmt fun x => { x with chainOut := false, sweeping := true }

/-- ADDRESS_ACK: the serial, the previous node ID, reserved bytes; to the coordinator, sub equal to the node ID held. -/
def ackBytes (node prev : Nat) : Bytes :=
  toLe 1 1 ++ toLe 1 0x12 ++ toLe 1 0 ++ toLe 1 3 ++ toLe 2 0 ++ toLe 2 0 ++ toLe 1 node ++ toLe 1 0 ++ toLe 2 20 ++ toLe 4 0
    ++ serialBytes ++ toLe 1 prev ++ zeroBytes 3
/-- An offer of a node number, acted on by a pending module whose chain input is asserted. -/
def Mach.offered (m : Mach) (n : Nat) : Mach :=
  if !m.mgmtServes then m else
  let m := m.dadd 0x9001 0x10 1
  if !m.mgmt.sweeping || !m.mgmt.chainIn || n = 0 || 32 < n then m else
  let prev := m.mgmt.nodeId
  let now := if prev = 255 then n else prev
  let m := (m.updMgmt fun x => { x with nodeId := now, sweeping := false, chainOut := true }).dadd 0x9001 0x13 1
  m.mgmtSend 0 (ackBytes now prev)
/-- ADDRESS_OFFER (R398). -/
def execAddressOffer (node : Nat) (s : State) : Host.Outcome State Fault Refusal := s.onMach fun m => m.offered node
/-- MGMT_BEACON_LOST (R396). -/
def execMgmtBeaconLost (s : State) : Host.Outcome State Fault Refusal :=
  s.onMach fun m => if m.mgmt.lost || m.power.boot.isNone then m else
    ((m.updMgmt fun x => { x with lost := true }).dadd 0x9001 0x14 1).moEvent evMgmtBeaconLost
/-- MGMT_BEACON_RESUMED (R396). -/
def execMgmtBeaconResumed (s : State) : Host.Outcome State Fault Refusal :=
  s.onMach fun m => m.updMgmt fun x => { x with lost := false }
/-- MGMT_CHAIN_IN_LOST (R399). -/
def execMgmtChainInLost (s : State) : Host.Outcome State Fault Refusal :=
  s.onMach fun m =>
    let was := m.mgmt.chainIn
    let m := m.updMgmt fun x => { x with chainIn := false }
    if was && m.power.boot.isSome then m.moEvent evMgmtChainInLost else m
/-- MGMT_CHAIN_IN_ASSERTED (R398). -/
def execMgmtChainInAsserted (s : State) : Host.Outcome State Fault Refusal :=
  s.onMach fun m => m.updMgmt fun x => { x with chainIn := true }
/-- MGMT_FRAME_DISCARDED (R391, R397). -/
def execMgmtFrameDiscarded (s : State) : Host.Outcome State Fault Refusal :=
  s.onMach fun m => if m.mgmtServes then m.dadd 0x9001 0x12 1 else m
/-- MGMT_TAKEOVER (R394): the host link has been down, fast retrain included, for takeover_ms. -/
def execMgmtTakeover (s : State) : Host.Outcome State Fault Refusal :=
  s.onMach fun m =>
    if m.power.boot.isNone || m.mgmt.takeover || (m.link.up && !m.link.retraining) then m else
    (((m.updMgmt fun x => { x with takeover := true }).dadd 0x9010 4 1).moEvent evMgmtTakeover).dropLosers

/-! ### The configuration store -/

/-- A new copy, one version above the copy in force, in the region of the older copy. With no copy in force it is A's. When
the flash operation and its retry fail, what the region then holds is open, and the copy in force stands. -/
def State.writeCopy (s : State) (ok : Bool) : State :=
  let m := s.m
  let b := m.store.inForce == 0
  let put (x : Store) (bs : Bytes) : Store := if b then { x with copyB := bs } else { x with copyA := bs }
  if ok then
    let n := m.store.version + 1
    let bs := storeCopy n s.v.mgmtVersion m.storeRecs
    let m : Mach := { m with store := { put m.store bs with inForce := b.toNat, version := n, pending := [] } }
    { s with m := (m.dadd 0x1004 3 1).dset 0x1004 5 0 }
  else
    let (m, bs) := m.freeBytes 64
    let m : Mach := { m with store := put m.store bs }
    { s with m := (m.dset 0x1004 5 2).moEvent evStoreWriteFailed }

/-- The store write delay has passed. Under the write inhibit the copy is deferred (R405). -/
def State.storeDue (s : State) (ok : Bool) : State :=
  if s.m.power.boot.isNone || s.v.recovery || s.m.store.pending.isEmpty then s
  else if s.m.power.nvInhibit then s.setM fun m => m.dset 0x1004 5 1
  else s.writeCopy ok
/-- STORE_COPY_WRITE (R404, R405). -/
def execStoreCopyWrite (flashOk : Bool) (s : State) : Host.Outcome State Fault Refusal := (s.storeDue flashOk).finish

def Mach.updTimeLog (m : Mach) (f : TimeLog → TimeLog) : Mach := { m with store := { m.store with timeLog := f m.store.timeLog } }
/-- Append a powered-time record; a sector that it fills is left for the other, whose erasure waits for the end of the inhibit. -/
def Mach.timeRecord (m : Mach) : Mach :=
  m.updTimeLog fun l => (fun l : TimeLog => if m.power.nvInhibit then l else l.turn) (l.append (timeRec m.power.aoMs))
/-- POWERED_TIME_RECORD (R404). -/
def execPoweredTimeRecord (s : State) : Host.Outcome State Fault Refusal :=
  s.onMach fun m => if m.power.boot.isNone || m.power.nvInhibit then m else m.timeRecord
/-- NV_INHIBIT_BEGIN (R404, R405). -/
def execNvInhibitBegin (s : State) : Host.Outcome State Fault Refusal :=
  s.onMach fun m => if m.power.nvInhibit then m else
    let m : Mach := { m with power := { m.power with nvInhibit := true } }
    if m.power.boot.isNone then m else m.timeRecord
/-- The inhibit has ended: what was held is written, and a full sector of the powered-time log left. Whether the flash takes the copy of
the store is free (R405). -/
def State.inhibitEnd (s : State) : State :=
  let s := (s.setM fun m => ({ m with power := { m.power with nvInhibit := false } } : Mach).updTimeLog TimeLog.turn).setV fun v =>
    { v with held := none }
  let (m, w) := s.m.freeWord
  ({ s with m := m } : State).storeDue (bitAt w.toNat 0)
/-- NV_INHIBIT_END (R405). -/
def execNvInhibitEnd (s : State) : Host.Outcome State Fault Refusal := s.inhibitEnd.finish

end Sys2Proof.Machine
end

