-- ==== Sys2Proof/Machine/PowerRows.lean ====
section
/-! DEFINITION. The meanings of the supply's, the power limit's, the sensors', the clocks', the resets' and the wake events
(R408 to R411, R415 to R423, R426). -/

namespace Sys2Proof.Machine

/-! ### The supply and cold resets -/

/-- SUPPLY_GOOD (R408, R422, R423): bring-up, unless it has begun or the input converters are stopped; while MOD_RESET_N is low it waits
for the release. -/
def execSupplyGood (obs : BootObs) (s : State) : Host.Outcome State Fault Refusal :=
  (if s.m.power.overvolt || s.m.power.boot.isSome then s
   else if s.m.power.resetLow then s.setM fun m => m.updPower fun x => { x with supplied := some obs }
   else s.bringUp obs).finish
/-- SUPPLY_LOW (R408). -/
def execSupplyLow (s : State) : Host.Outcome State Fault Refusal :=
  s.onMach fun m =>
    let was := m.power.warn
    let m := m.updPower fun x => { x with warn := true }
    if was || m.power.boot.isNone then m else m.moEvent evSupplyLow
/-- SUPPLY_WARN_END (R408). -/
def execSupplyWarnEnd (s : State) : Host.Outcome State Fault Refusal :=
  s.onMach fun m => m.updPower fun x => { x with warn := false }
/-- A brown-out, counted in AOPM_BROWNOUTS. -/
def State.brownOut (s : State) : State :=
  (s.coldReset 2).setM fun m => m.count .aopm 0 0 0x14 1
/-- BROWN_OUT (R408, R420). -/
def execBrownOut (s : State) : Host.Outcome State Fault Refusal := s.brownOut.finish
/-- AUX_LOSS (R408, R420). -/
def execAuxLoss (s : State) : Host.Outcome State Fault Refusal := (s.coldReset 3).finish
/-- OVERVOLTAGE (R408): the module is unpowered. -/
def execOvervoltage (s : State) : Host.Outcome State Fault Refusal :=
  ((s.setM fun m => m.updPower fun x => { x with overvolt := true }).coldReset 11).finish
/-- OVERVOLTAGE_END (R408): it starts with a cold reset. -/
def execOvervoltageEnd (s : State) : Host.Outcome State Fault Refusal :=
  (if s.m.power.overvolt then
    (s.setM fun m => m.updPower fun x => { x with overvolt := false }).coldReset 11 else s).finish
/-- MOD_RESET_N (R420, R422): a cold reset; a supply that was good stays so. -/
def State.pinReset (s : State) : State :=
  let obs := s.m.power.boot <|> s.m.power.supplied
  ((s.setM fun m => m.updPower fun x => { x with resetLow := true }).coldReset 4).setM fun m =>
    m.updPower fun x => { x with supplied := obs }
def execModResetN (s : State) : Host.Outcome State Fault Refusal := s.pinReset.finish
/-- MOD_RESET_N_RELEASE (R422): bring-up starts from step 1, at once where the supply is good. What it finds is what the last
supply good told (the model's choice, log entry 45). -/
def State.pinRelease (s : State) : State :=
  let s' := s.setM fun m => m.updPower fun x => { x with resetLow := false, supplied := none }
  match s.m.power.resetLow, s.m.power.boot, s.m.power.supplied with
  | true, none, some obs => s'.bringUp obs
  | _, _, _ => s'
def execModResetNRelease (s : State) : Host.Outcome State Fault Refusal := s.pinRelease.finish

/-! ### The power limit and the sensors -/

/-- One millisecond of R410. How many bench cycles are withheld while the mean is above the limit, or while a die is above its
temperature, is open; they are released by at most 5 % in a millisecond. -/
def Mach.powerTick (m : Mach) (meanMw : Nat) : Mach :=
  if !m.power.ready then m else
  let lim := 1000 * m.dnum 0x3001 1
  let on := if lim < meanMw then true else if meanMw + 10000 < lim then false else m.power.throttled
  let hot := m.dies.any fun x => x.throttled
  let (m, w) := m.freeWord
  let share := if on || hot then w.toNat % 101 else m.power.withheld - w.toNat % 6
  let seen := if m.power.comparator then max 50 share else share
  m.updPower fun x =>
    { x with meanMw := meanMw, throttled := on, withheld := share, shares := (x.shares ++ [seen]).drop (x.shares.length - 99) }
/-- POWER_LIMIT_TICK (R410). -/
def execPowerLimitTick (meanMw : Nat) (s : State) : Host.Outcome State Fault Refusal := s.onMach fun m => m.powerTick meanMw
/-- POWER_COMPARATOR_TRIP (R410). -/
def execPowerComparatorTrip (s : State) : Host.Outcome State Fault Refusal :=
  s.onMach fun m => m.updPower fun x => { x with comparator := m.dies.any fun y => y.up }
/-- POWER_COMPARATOR_RELEASE (R410). -/
def execPowerComparatorRelease (s : State) : Host.Outcome State Fault Refusal :=
  s.onMach fun m => m.updPower fun x => { x with comparator := false }

/-- A die's hottest sensor, in eighths of a degree (R411). -/
def Mach.thermal (m : Mach) (d : Nat) (t : Int) : Mach :=
  let m := m.updDie d fun x => { x with temp := t }
  if !(m.die d).up || m.restricted ≠ 0 then m else
  let lim : Int := 8 * m.dnum 0x3002 1
  if (m.die d).throttled then (if t ≤ lim - 24 then m.updDie d fun x => { x with throttled := false } else m)
  else if lim < t then
    ((m.updDie d fun x => { x with throttled := true }).dadd 0x3002 4 1).fwEvent evThermalThrottle d 0 none
  else m
/-- THERMAL_SAMPLE (R411). -/
def execThermalSample (die : Nat) (eighthsC : Int) (s : State) : Host.Outcome State Fault Refusal :=
  s.onMach fun m => if die < 2 then m.thermal die eighthsC else m
/-- THERMAL_DIE_RESET (R411): the die's rails are removed until its sensor reads below 95 °C. -/
def execThermalDieReset (die : Nat) (s : State) : Host.Outcome State Fault Refusal := s.onMach fun m => m.dieReset die 8
/-- THERMAL_RESET_END (R411): the temperature holds the die no longer. -/
def execThermalResetEnd (die : Nat) (s : State) : Host.Outcome State Fault Refusal :=
  (if (s.m.die die).hot then s.coolDie die else s).finish

/-- A monitored PLL fails (R419). -/
def State.clockFault (s : State) (src : ClockSrc) : State :=
  match src with
  | .die d =>
    if 2 ≤ d || !(s.m.die d).up then s else
    (s.setM fun m => (m.fwEvent evClockFault d 0 none (toLe 1 0 ++ toLe 1 d)).dieReset d 9).dieReturn d
  | .chan c =>
    if !c.ok || !(s.m.die c.die).up then s else s.setM fun m =>
      let m := m.fwEvent evClockFault c.die (160 + c.memc) none (toLe 1 1 ++ toLe 2 (c.idx + 16384 * c.die + 32768 * c.lp.toNat))
      m.chanClock c
  | .port q =>
    if s.m.portCount ≤ q || !(s.m.die (portDie s.m q)).up then s else s.setM fun m =>
      (m.fwEvent evClockFault (portDie m q) 0 (some (m.portPart q)) (toLe 1 2 ++ toLe 1 q)).retrainPort q
/-- CLOCK_FAULT (R419). -/
def execClockFault (src : ClockSrc) (s : State) : Host.Outcome State Fault Refusal := (s.clockFault src).finish

/-! ### Waking (R415 to R417) -/

/-- WAKE (R415, R417). -/
def execWake (source : Nat) (s : State) : Host.Outcome State Fault Refusal := s.onMach fun m => m.wake source

/-! ### Register writes of the reset control and of any other register -/

/-- CSR_WRITE (R367 to R369, R375). -/
def execCsrWrite (addr size : Nat) (w : Word) (s : State) : Host.Outcome State Fault Refusal :=
  (s.csrWrite addr size w.toNat).finish
/-- AOPM_WARM (R420, R426): a write of AOPM_RESET_CTRL with warm set. -/
def execAopmWarm (w : Word) (s : State) : Host.Outcome State Fault Refusal :=
  (s.csrWrite (regAddr .aopm 0 0 0) 4 (setFld w.toNat 2 2 1)).finish
/-- DIE_HOLD (R426): a write of AOPM_RESET_CTRL's hold bits. -/
def execDieHold (w : Word) (s : State) : Host.Outcome State Fault Refusal :=
  (s.csrWrite (regAddr .aopm 0 0 0) 4 (setFld w.toNat 2 2 0)).finish

end Sys2Proof.Machine
end

