-- ==== Sys2Proof/Machine/SecurityRows.lean ====
section
/-! DEFINITION. The meanings of the security and firmware commands (spec/17). -/

namespace Sys2Proof.Machine

/-- FW_IMAGE_WRITE (R431, R443): management A and B, Gaffer A and B. -/
def execFwImageWrite (slot : Nat) (rq : DictReq) (s : State) : Host.Outcome State Fault Refusal :=
  s.writeRow rq 0x8002 (1 + slot % 4)
/-- FW_ACTIVATE_MGMT (R444, R445): fw_activate 1. -/
def execFwActivateMgmt (rq : DictReq) (s : State) : Host.Outcome State Fault Refusal :=
  s.writeRow { rq with data := [1] } 0x8003 1
/-- FW_ACTIVATE_GAFFER (R444, R446): fw_activate 2. -/
def execFwActivateGaffer (rq : DictReq) (s : State) : Host.Outcome State Fault Refusal :=
  s.writeRow { rq with data := [2] } 0x8003 1
/-- FW_CONFIRM (R447). -/
def execFwConfirm (rq : DictReq) (s : State) : Host.Outcome State Fault Refusal := s.writeRow rq 0x8003 2
/-- KEY_RECORD_WRITE (R429). -/
def execKeyRecordWrite (rq : DictReq) (s : State) : Host.Outcome State Fault Refusal := s.writeRow rq 0x8010 1
/-- WAIVER_WRITE (R442). -/
def execWaiverWrite (rq : DictReq) (s : State) : Host.Outcome State Fault Refusal := s.writeRow rq 0x8004 2
/-- QUOTE_NONCE_WRITE (R439). -/
def execQuoteNonceWrite (rq : DictReq) (s : State) : Host.Outcome State Fault Refusal := s.writeRow rq 0x8030 1
/-- QUOTE_READ (R439). -/
def execQuoteRead (rq : DictReq) (s : State) : Host.Outcome State Fault Refusal := (s.request rq 1 0x8030 2).finish
/-- QUOTE_READY (R439). -/
def execQuoteReady (who : Master) (s : State) : Host.Outcome State Fault Refusal :=
  (s.setV fun v => quoteReady s.m v who).finish

/-- Groups that a live update held and that no die of it holds any longer go on (step 9 of R446). -/
def Mach.resumeHeld (m : Mach) : Mach :=
  (m.groups.filter fun g => g.pausedBy == 18 && !m.updHeld g.part g.num).foldl
    (fun (m : Mach) g => (m.resumeGroup g.part g.num).2.openGate g.part g.num) m

/-- Steps 3 to 9 of R446 for a die: what it holds saved, a die reset with cause live update, the new image started. Groups
that only its gate held go on with it. -/
def State.updateDie (s : State) (d : Nat) : State :=
  if s.m.liveDie ≠ some d ∨ (s.m.die d).up = false ∨ (s.m.groupsOn d).any s.m.groupActive = true then s else
  let s := s.setM fun m => ((m.dropDie d 10 true).dropFlights d).setCause 10 d
  (s.dieReturn d).setM fun m =>
    let m := m.resumeHeld
    m.groups.foldl (fun (m : Mach) g => m.openGate g.part g.num) m
/-- LIVE_UPDATE_DIE_HELD (R446). -/
def execLiveUpdateDieHeld (die : Nat) (s : State) : Host.Outcome State Fault Refusal := (s.updateDie die).finish

/-- The restart of R445: the ROM verifies the images in the order of R432, the trial slot first, and extends M0. Where another slot than
the trial slot runs, the trial is over; where none verifies, the ROM enters recovery (R433). A quote being prepared is discarded (R448). -/
def State.mgmtRestart (s : State) : State :=
  if !s.m.mgmt.restarting then s else
  let c := s.v.flash.boot 0
  let run := ((if c.trial then [1 - c.active] else []) ++ [c.active, 1 - c.active]).find? fun k => s.v.flash.slotOk 0 k
  let fell := c.trial && run.isSome && run != some (1 - c.active)
  let s := if fell then s.writeVault fun v => { v with flash := v.flash.fallBack 0 } else s
  let s := s.setV fun v => { v with
    running := updAt v.running 0 fun _ => run, nonces := v.nonces.filter fun q => (mapGet v.quotes q.1).isSome }
  let s := s.setM fun m => { m with mgmt := { m.mgmt with restarting := false } }
  match run with
  | none => (s.setV fun v => { v with recovery := true }).setM fun m => m.updPower fun x => { x with stopAt := 3 }
  | some k =>
    let s := (s.setV fun v => { v with recovery := false }.measureMgmt k).setM fun m =>
      m.updPower fun x => { x with stopAt := if m.restricted = 0 then 0 else 8 }
    if fell then s.setM fun m => m.moEvent evFwFallback (toLe 1 0) else s
/-- MGMT_FW_RESTARTED (R445). -/
def execMgmtFwRestarted (s : State) : Host.Outcome State Fault Refusal := s.mgmtRestart.finish

end Sys2Proof.Machine
end

