-- ==== Sys2Proof/Machine/StationRows.lean ====
section
/-! DEFINITION. The meanings of reads and writes of registers other than those of the reset control, which Power.lean holds
(spec/14). -/

namespace Sys2Proof.Machine

/-- SYNC_FW_SIGNAL (R279, R299). -/
def execSyncFwSignal (die : Nat) (w : Word) (s : State) : Host.Outcome State Fault Refusal :=
  s.onMach fun m => m.regWrite .sync die 0 0x40 w
/-- SYNC_FW_WAIT (R283, R299). -/
def execSyncFwWait (die : Nat) (w : Word) (s : State) : Host.Outcome State Fault Refusal :=
  s.onMach fun m => m.regWrite .sync die 0 0x44 w
/-- MEMC_RECAL_REQ (R275). -/
def execMemcRecalReq (die inst : Nat) (w : Word) (s : State) : Host.Outcome State Fault Refusal :=
  s.onMach fun m => if inst < 96 then m.regWrite .memc die inst 0 w else m
/-- BENCH_DRAIN (R124, R144, R146): a write of BENCH_CTRL. -/
def execBenchDrain (die idx : Nat) (w : Word) (s : State) : Host.Outcome State Fault Refusal :=
  s.onMach fun m => if idx < 32 then m.regWrite .bench die idx 0 w else m
/-- BENCH_YIELD (R124, R144, R146): a write of BENCH_CTRL. -/
def execBenchYield (die idx : Nat) (w : Word) (s : State) : Host.Outcome State Fault Refusal :=
  s.onMach fun m => if 32 ≤ idx then m else m.regWrite .bench die idx 0 w
/-- COUNTER_READ_CLEAR (R6, R367). -/
def execCounterReadClear (addr size : Nat) (s : State) : Host.Outcome State Fault Refusal :=
  s.onMach fun m => m.csrReadOut addr size
/-- GCNT_LO_READ (R367, R382): of the time counter, or of the always-on counter. -/
def execGcntLoRead (die : Nat) (ao : Bool) (s : State) : Host.Outcome State Fault Refusal :=
  s.onMach fun m => if die < 2 then m.csrReadOut (regAddr .gcnt die 0 (if ao then 8 else 0)) 4 else m
/-- ALIAS_SET_CLEAR_TOGGLE (R372 to R374). -/
def execAliasSetClearToggle (addr : Nat) (w : Word) (s : State) : Host.Outcome State Fault Refusal :=
  s.onMach fun m => match csrSplit addr with
    | some (d, sl, o) => if 0x10000 ≤ o && !m.bitMode d sl then m.csrWrite addr 4 w.toNat else m
    | none => m
/-- ALIAS_BIT_WRITE (R372 to R374). -/
def execAliasBitWrite (addr : Nat) (w : Word) (s : State) : Host.Outcome State Fault Refusal :=
  s.onMach fun m => match csrSplit addr with
    | some (d, sl, o) => if 0x10000 ≤ o && m.bitMode d sl then m.csrWrite addr 4 w.toNat else m
    | none => m
/-- CSRMAP_MODE_WRITE (R371, R379). -/
def execCsrmapModeWrite (die n : Nat) (w : Word) (s : State) : Host.Outcome State Fault Refusal :=
  s.onMach fun m => if n < 16 then m.regWrite .csrmap die 0 (4 * n) w else m
/-- PARITY_SCAN (R375). -/
def execParityScan (die slot : Nat) (o : CsrObs) (s : State) : Host.Outcome State Fault Refusal :=
  s.onMach fun m => if die < 2 then m.parityScan die slot o.off o.flip else m
/-- CFG_PARITY_RELOAD (R377). -/
def execCfgParityReload (die slot : Nat) (s : State) : Host.Outcome State Fault Refusal :=
  s.onMach fun m => if die < 2 && m.csrUp die slot then m.parityReload die slot else m
/-- GCNT_PARITY_INJECT (R382). -/
def execGcntParityInject (die : Nat) (w : Word) (s : State) : Host.Outcome State Fault Refusal :=
  s.onMach fun m => m.regWrite .gcnt die 0 0x1C w
/-- EVENT_POP (R381, R407): a write of EVENT_CTRL. -/
def execEventPop (die : Nat) (w : Word) (s : State) : Host.Outcome State Fault Refusal :=
  s.onMach fun m => m.regWrite .event die 0 0 w
/-- AOPM_BLOCK_RESET (R370, R426). -/
def execAopmBlockReset (w : Word) (s : State) : Host.Outcome State Fault Refusal :=
  s.onMach fun m => m.regWrite .aopm 0 0 8 w

end Sys2Proof.Machine
end

