-- ==== Sys2Proof/Machine/TileRows.lean ====
section
/-! DEFINITION. The meanings of the tile operations and of the events of a stream (spec/02, spec/04 to spec/09, spec/11,
spec/12). -/

namespace Sys2Proof.Machine

/-- The tiles that an operation reads or writes whole: those it names, the others of a GEMM's reduction, the companions of an UPDATE,
every tile of a collective's tensors. A table's rows are counted as they are read (R241), and the tiles of a ROW_UPDATE when its
list is known. -/
def Mach.accessTiles (m : Mach) (p : Nat) (o : Op) : List (Nat × Nat) :=
  let named := (o.refs.filter fun r => r.handle != 0).map (m.refAt p)
  match o.kind with
  | .bagSum | .bagMean | .bagMax => named.drop 1
  | .rowUpdate => named.take 2
  | .gemm => m.gemmTiles p (o.ref 0) o.param ++ m.gemmTiles p (o.ref 1) o.param ++ named.drop 2
  | .update =>
    let w := m.refAt p (o.ref 1)
    named ++ [(w.1 + 1, w.2)] ++ (if (m.optSlot p o.param).kind = 2 then [(w.1 + 2, w.2)] else [])
  | .collective => named.flatMap fun w => match m.tensor? p w.1 with
    | some t => (List.range t.desc.tileCount).map fun k => (w.1, k)
    | none => []
  | _ => named
/-- Count an operation's accesses to tiles, and the sectors of them that cross the Seam, by the die of its instance, for the planner (R264). -/
def Mach.noteNear (m : Mach) (p : Nat) (o : Op) (i : Inst) : Mach := m.noteTiles p i (m.accessTiles p o)
/-- Every tile that an operation writes: handle and tile. -/
def Mach.outTiles (m : Mach) (p : Nat) (o : Op) : List (Nat × Nat) :=
  (m.writesOf p o).flatMap fun q => match q.2 with
    | some k => [(q.1, k)]
    | none => match m.tensor? p q.1 with
      | some t => (List.range t.desc.tileCount).map fun k => (q.1, k)
      | none => []
/-- Does the planner elide the operation (R198): one of a backward program, not accumulating, every output tile of which is a
retained tile, and none of whose input tiles has been written since the forward wrote those? -/
def Mach.elidable (m : Mach) (c : Nat) (o : Op) : Bool :=
  let x := m.ctx c
  match m.prog? x.part x.prog, m.group? x.part x.group with
  | some q, some g =>
    let outs := m.outTiles x.part o
    let saves := outs.filterMap fun w => g.saves.find? fun s => s.handle == w.1 && s.tile == w.2
    q.kind == .backward && g.kind == .training && !o.acc && !outs.isEmpty && saves.length == outs.length
    && (m.readsOf x.part o).all fun t => saves.all fun s => !s.dirty.any fun d => meets (d.1, some d.2) t
  | _, _ => false
/-- Does context `c` issue an operation of this kind that is elided? -/
def Mach.elides (m : Mach) (c : Nat) (k : OpKind) : Bool :=
  match m.issuable c k with | some o => m.elidable c o | none => false
/-- A tile operation issues to a station instance; one that is elided writes nothing, needs no instance, and completes and signals
as if it had run (R198). -/
def Mach.issueOp (m : Mach) (c n : Nat) (k : OpKind) (st : StKind) (run : Mach → Op → Nat → Inst → Mach) : Mach :=
  if m.elides c k then (m.dadd (0x2030 + (m.ctx c).part) 0x15 1).takeOff c none [] [] true
  else m.onStation c n k st fun m o p i => run (m.noteNear p o i) o p i

/-- COPY (R226). -/
def execCopy (ctx inst : Nat) (s : State) : Host.Outcome State Fault Refusal :=
  s.onMach fun m => m.issueOp ctx inst .copy .gather (Mach.copyRun ctx)
/-- BAG_SUM (R228 to R230). -/
def execBagSum (ctx inst : Nat) (s : State) : Host.Outcome State Fault Refusal :=
  s.onMach fun m => m.issueOp ctx inst .bagSum .gather (Mach.bagRun ctx .sum)
/-- BAG_MEAN (R228 to R230). -/
def execBagMean (ctx inst : Nat) (s : State) : Host.Outcome State Fault Refusal :=
  s.onMach fun m => m.issueOp ctx inst .bagMean .gather (Mach.bagRun ctx .mean)
/-- BAG_MAX (R228 to R230). -/
def execBagMax (ctx inst : Nat) (s : State) : Host.Outcome State Fault Refusal :=
  s.onMach fun m => m.issueOp ctx inst .bagMax .gather (Mach.bagRun ctx .max)
/-- GRAD_MERGE (R237, R238). -/
def execGradMerge (ctx inst : Nat) (s : State) : Host.Outcome State Fault Refusal :=
  s.onMach fun m => m.issueOp ctx inst .gradMerge .gather (Mach.mergeRun ctx)
/-- QUANT (R84 to R99). -/
def execQuant (ctx inst : Nat) (s : State) : Host.Outcome State Fault Refusal :=
  s.onMach fun m => m.issueOp ctx inst .quant .marver (Mach.quantRun ctx)
/-- MEASURE (R485). -/
def execMeasure (ctx inst : Nat) (s : State) : Host.Outcome State Fault Refusal :=
  s.onMach fun m => m.issueOp ctx inst .measure .marver (Mach.measureRun ctx)
/-- DEQUANT (R72, R88). -/
def execDequant (ctx inst : Nat) (s : State) : Host.Outcome State Fault Refusal :=
  s.onMach fun m => m.issueOp ctx inst .dequant .marver (Mach.dequantRun ctx)
/-- GEMM (R31, R111 to R126). -/
def execGemm (ctx inst : Nat) (cuts : List (Nat × Nat)) (fault : Option BenchFault) (s : State) : Host.Outcome State Fault Refusal :=
  s.onMach fun m => m.issueOp ctx inst .gemm .bench (Mach.gemmStart ctx cuts fault)
/-- ELEMENTWISE (R136 to R139). -/
def execElementwise (ctx inst : Nat) (s : State) : Host.Outcome State Fault Refusal :=
  s.onMach fun m => m.issueOp ctx inst .elementwise .jacks fun m o p i =>
    Mach.jacksRun ctx (o.refs.length - 1) ewRun m o p i
/-- NORM (R140). -/
def execNorm (ctx inst : Nat) (s : State) : Host.Outcome State Fault Refusal :=
  s.onMach fun m => m.issueOp ctx inst .norm .jacks (Mach.jacksRun ctx 2 normRun)
/-- SOFTMAX (R141). -/
def execSoftmax (ctx inst : Nat) (s : State) : Host.Outcome State Fault Refusal :=
  s.onMach fun m => m.issueOp ctx inst .softmax .jacks (Mach.jacksRun ctx 1 softmaxRun)
/-- REDUCE_SUM (R142). -/
def execReduceSum (ctx inst : Nat) (s : State) : Host.Outcome State Fault Refusal :=
  s.onMach fun m => m.issueOp ctx inst .reduceSum .jacks (Mach.jacksRun ctx 1 reduceSumRun)
/-- REDUCE_MAX (R134, R135). -/
def execReduceMax (ctx inst : Nat) (s : State) : Host.Outcome State Fault Refusal :=
  s.onMach fun m => m.issueOp ctx inst .reduceMax .jacks (Mach.winnerRun ctx true)
/-- REDUCE_MIN (R134, R135). -/
def execReduceMin (ctx inst : Nat) (s : State) : Host.Outcome State Fault Refusal :=
  s.onMach fun m => m.issueOp ctx inst .reduceMin .jacks (Mach.winnerRun ctx false)
/-- UPDATE (R172 to R190). -/
def execUpdate (ctx inst : Nat) (s : State) : Host.Outcome State Fault Refusal :=
  s.onMach fun m => m.issueOp ctx inst .update .lehr (Mach.updateRun ctx)
/-- ROW_UPDATE (R178). -/
def execRowUpdate (ctx inst : Nat) (s : State) : Host.Outcome State Fault Refusal :=
  s.onMach fun m => m.issueOp ctx inst .rowUpdate .lehr (Mach.rowUpdateRun ctx)
/-- SNAPSHOT (R219 to R223). -/
def execSnapshot (ctx inst : Nat) (s : State) : Host.Outcome State Fault Refusal :=
  s.onMach fun m => m.issueOp ctx inst .snapshot .lehr (Mach.snapshotRun ctx)
/-- PUT (R313 to R315). -/
def execPut (ctx inst : Nat) (s : State) : Host.Outcome State Fault Refusal :=
  s.onMach fun m => m.issueOp ctx inst .put .pontil (Mach.putRun ctx false)
/-- GET (R313 to R315). -/
def execGet (ctx inst : Nat) (s : State) : Host.Outcome State Fault Refusal :=
  s.onMach fun m => m.issueOp ctx inst .get .pontil (Mach.getRun ctx)
/-- PUT_SIGNAL (R313 to R315). -/
def execPutSignal (ctx inst : Nat) (s : State) : Host.Outcome State Fault Refusal :=
  s.onMach fun m => m.issueOp ctx inst .putSignal .pontil (Mach.putRun ctx true)
/-- COLLECTIVE (R321 to R325). -/
def execCollective (ctx : Nat) (issue : CollIssue) (s : State) : Host.Outcome State Fault Refusal :=
  s.onMach fun m => m.issueOp ctx issue.inst .collective .pontil (Mach.collRun ctx issue.faults)
/-- SYNC (R43). -/
def execSync (ctx : Nat) (s : State) : Host.Outcome State Fault Refusal := s.onMach fun m => m.syncOp ctx
/-- BARRIER (R286, R287). -/
def execBarrier (ctx : Nat) (s : State) : Host.Outcome State Fault Refusal := s.onMach fun m => m.barrierOp ctx
/-- STEP_BOUNDARY (R193, R201). -/
def execStepBoundary (ctx : Nat) (s : State) : Host.Outcome State Fault Refusal := s.onMach fun m => m.stepBoundary ctx
/-- END (R43). -/
def execOpEnd (ctx : Nat) (s : State) : Host.Outcome State Fault Refusal := s.onMach fun m => m.endOp ctx

/-- OP_COMPLETE (R35, R42). -/
def execOpComplete (ctx opIdx : Nat) (s : State) : Host.Outcome State Fault Refusal :=
  s.onMach fun m => m.opComplete ctx opIdx
/-- WAIT_WATCHDOG_EXPIRE (R294, R295). -/
def execWaitWatchdogExpire (ctx : Nat) (s : State) : Host.Outcome State Fault Refusal :=
  s.onMach fun m => m.waitWatchdog ctx
/-- COLLECTIVE_WATCHDOG_EXPIRE (R295, R331). -/
def execCollectiveWatchdogExpire (subject : CollSubject) (s : State) : Host.Outcome State Fault Refusal :=
  s.onMach fun m => m.collWatchdog subject

end Sys2Proof.Machine
end

