-- ==== Sys2Proof/Machine/Dispatch.lean ====
section
/-! DEFINITION. The meaning of a command: one arm for each constructor of `Instr`. -/

namespace Sys2Proof.Machine

def exec (i : Instr) (s : State) : Host.Outcome State Fault Refusal :=
  match i with
  | .handleWrite h handle words => Sys2Proof.Machine.execHandleWrite h handle words s
  | .handleRead h handle addr => Sys2Proof.Machine.execHandleRead h handle addr s
  | .handleFree h handle => Sys2Proof.Machine.execHandleFree h handle s
  | .programLoad h byteLength image => Sys2Proof.Machine.execProgramLoad h byteLength image s
  | .programUnload h program => Sys2Proof.Machine.execProgramUnload h program s
  | .groupCreate h group kind seed first rpt => Sys2Proof.Machine.execGroupCreate h group kind seed first rpt s
  | .bind h group program pick => Sys2Proof.Machine.execBind h group program pick s
  | .start h group => Sys2Proof.Machine.execStart h group s
  | .pause h group => Sys2Proof.Machine.execPause h group s
  | .resume h group => Sys2Proof.Machine.execResume h group s
  | .stop h group => Sys2Proof.Machine.execStop h group s
  | .unbind h context => Sys2Proof.Machine.execUnbind h context s
  | .groupDestroy h group => Sys2Proof.Machine.execGroupDestroy h group s
  | .ckptRead h module partition slot addr length => Sys2Proof.Machine.execCkptRead h module partition slot addr length s
  | .ckptRestore h group source slot module partition image => Sys2Proof.Machine.execCkptRestore h group source slot module partition image s
  | .oap h respAddr bufLen frame => Sys2Proof.Machine.execOap h respAddr bufLen frame s
  | .nop h => Sys2Proof.Machine.execNop h s
  | .dmaWrite h length tile mode offset data => Sys2Proof.Machine.execDmaWrite h length tile mode offset data s
  | .dmaRead h addr length tile mode offset => Sys2Proof.Machine.execDmaRead h addr length tile mode offset s
  | .signal h counter => Sys2Proof.Machine.execSignal h counter s
  | .wait h counter count timeout => Sys2Proof.Machine.execWait h counter count timeout s
  | .hostWaitTimeout ring tag => Sys2Proof.Machine.execHostWaitTimeout ring tag s
  | .timeExchange h hostTime addr => Sys2Proof.Machine.execTimeExchange h hostTime addr s
  | .detach h => Sys2Proof.Machine.execDetach h s
  | .copy ctx inst => Sys2Proof.Machine.execCopy ctx inst s
  | .bagSum ctx inst => Sys2Proof.Machine.execBagSum ctx inst s
  | .bagMean ctx inst => Sys2Proof.Machine.execBagMean ctx inst s
  | .bagMax ctx inst => Sys2Proof.Machine.execBagMax ctx inst s
  | .gradMerge ctx inst => Sys2Proof.Machine.execGradMerge ctx inst s
  | .quant ctx inst => Sys2Proof.Machine.execQuant ctx inst s
  | .measure ctx inst => Sys2Proof.Machine.execMeasure ctx inst s
  | .dequant ctx inst => Sys2Proof.Machine.execDequant ctx inst s
  | .gemm ctx inst cuts fault => Sys2Proof.Machine.execGemm ctx inst cuts fault s
  | .elementwise ctx inst => Sys2Proof.Machine.execElementwise ctx inst s
  | .norm ctx inst => Sys2Proof.Machine.execNorm ctx inst s
  | .softmax ctx inst => Sys2Proof.Machine.execSoftmax ctx inst s
  | .reduceSum ctx inst => Sys2Proof.Machine.execReduceSum ctx inst s
  | .reduceMax ctx inst => Sys2Proof.Machine.execReduceMax ctx inst s
  | .reduceMin ctx inst => Sys2Proof.Machine.execReduceMin ctx inst s
  | .update ctx inst => Sys2Proof.Machine.execUpdate ctx inst s
  | .rowUpdate ctx inst => Sys2Proof.Machine.execRowUpdate ctx inst s
  | .snapshot ctx inst => Sys2Proof.Machine.execSnapshot ctx inst s
  | .put ctx inst => Sys2Proof.Machine.execPut ctx inst s
  | .get ctx inst => Sys2Proof.Machine.execGet ctx inst s
  | .putSignal ctx inst => Sys2Proof.Machine.execPutSignal ctx inst s
  | .collective ctx issue => Sys2Proof.Machine.execCollective ctx issue s
  | .sync ctx => Sys2Proof.Machine.execSync ctx s
  | .barrier ctx => Sys2Proof.Machine.execBarrier ctx s
  | .stepBoundary ctx => Sys2Proof.Machine.execStepBoundary ctx s
  | .opEnd ctx => Sys2Proof.Machine.execOpEnd ctx s
  | .opComplete ctx opIdx => Sys2Proof.Machine.execOpComplete ctx opIdx s
  | .waitWatchdogExpire ctx => Sys2Proof.Machine.execWaitWatchdogExpire ctx s
  | .collectiveWatchdogExpire subject => Sys2Proof.Machine.execCollectiveWatchdogExpire subject s
  | .syncFwSignal die w => Sys2Proof.Machine.execSyncFwSignal die w s
  | .syncFwWait die w => Sys2Proof.Machine.execSyncFwWait die w s
  | .agreedStatus part group => Sys2Proof.Machine.execAgreedStatus part group s
  | .abortNotice port hdr ext payload => Sys2Proof.Machine.execAbortNotice port hdr ext payload s
  | .commitAck port hdr ext => Sys2Proof.Machine.execCommitAck port hdr ext s
  | .ckptShipped part => Sys2Proof.Machine.execCkptShipped part s
  | .digestNotice port hdr ext payload => Sys2Proof.Machine.execDigestNotice port hdr ext payload s
  | .digestTimeout part => Sys2Proof.Machine.execDigestTimeout part s
  | .journalRoomResume ctx => Sys2Proof.Machine.execJournalRoomResume ctx s
  | .strainRerunDone bench run fault origAgrees => Sys2Proof.Machine.execStrainRerunDone bench run fault origAgrees s
  | .strikeExpire => Sys2Proof.Machine.execStrikeExpire s
  | .fritTestStart bench partner => Sys2Proof.Machine.execFritTestStart bench partner s
  | .fritTestDone bench runs => Sys2Proof.Machine.execFritTestDone bench runs s
  | .fritLendExpire bench => Sys2Proof.Machine.execFritLendExpire bench s
  | .knownAnswerTest inst got1 got1again second got2 => Sys2Proof.Machine.execKnownAnswerTest inst got1 got1again second got2 s
  | .selftestRolling rq => Sys2Proof.Machine.execSelftestRolling rq s
  | .selftestWholeModule rq => Sys2Proof.Machine.execSelftestWholeModule rq s
  | .unfence rq => Sys2Proof.Machine.execUnfence rq s
  | .jacksReserveGrant cgroup => Sys2Proof.Machine.execJacksReserveGrant cgroup s
  | .pktWrite port hdr payload => Sys2Proof.Machine.execPktWrite port hdr payload s
  | .pktWriteSignal port hdr payload => Sys2Proof.Machine.execPktWriteSignal port hdr payload s
  | .pktReadReq port hdr payload => Sys2Proof.Machine.execPktReadReq port hdr payload s
  | .pktReadResp port hdr payload => Sys2Proof.Machine.execPktReadResp port hdr payload s
  | .pktCollChunk port hdr ext payload => Sys2Proof.Machine.execPktCollChunk port hdr ext payload s
  | .noticeStatus port hdr ext payload => Sys2Proof.Machine.execNoticeStatus port hdr ext payload s
  | .noticeBarrierArrive port hdr ext payload => Sys2Proof.Machine.execNoticeBarrierArrive port hdr ext payload s
  | .noticeResend port hdr ext payload => Sys2Proof.Machine.execNoticeResend port hdr ext payload s
  | .pktTack port hdr => Sys2Proof.Machine.execPktTack port hdr s
  | .pktRefuse port hdr payload => Sys2Proof.Machine.execPktRefuse port hdr payload s
  | .retxTimerExpire flow => Sys2Proof.Machine.execRetxTimerExpire flow s
  | .destUnreachable part module dstPart => Sys2Proof.Machine.execDestUnreachable part module dstPart s
  | .flitReceive port symbols => Sys2Proof.Machine.execFlitReceive port symbols s
  | .flitReplayTimeout port => Sys2Proof.Machine.execFlitReplayTimeout port s
  | .portFastRetrain port => Sys2Proof.Machine.execPortFastRetrain port s
  | .portDown port => Sys2Proof.Machine.execPortDown port s
  | .portTrained port lanes module part peer => Sys2Proof.Machine.execPortTrained port lanes module part peer s
  | .portModeWrite rq => Sys2Proof.Machine.execPortModeWrite rq s
  | .groupDefinitionWrite cgroup rq => Sys2Proof.Machine.execGroupDefinitionWrite cgroup rq s
  | .partitionModeWrite rq => Sys2Proof.Machine.execPartitionModeWrite rq s
  | .handleCountWrite part rq => Sys2Proof.Machine.execHandleCountWrite part rq s
  | .optSlotWrite part slot rq => Sys2Proof.Machine.execOptSlotWrite part slot rq s
  | .lrScheduleWrite part slot rq => Sys2Proof.Machine.execLrScheduleWrite part slot rq s
  | .tableMapWrite part rec rq => Sys2Proof.Machine.execTableMapWrite part rec rq s
  | .hbmInterleaveWrite rq => Sys2Proof.Machine.execHbmInterleaveWrite rq s
  | .plannerTick => Sys2Proof.Machine.execPlannerTick s
  | .countersWarm part => Sys2Proof.Machine.execCountersWarm part s
  | .tableCounterHalve part => Sys2Proof.Machine.execTableCounterHalve part s
  | .migrationCopyDone part handle tile => Sys2Proof.Machine.execMigrationCopyDone part handle tile s
  | .scrubPatrol o => Sys2Proof.Machine.execScrubPatrol o s
  | .recalibrationTrigger chan => Sys2Proof.Machine.execRecalibrationTrigger chan s
  | .recalHold chan => Sys2Proof.Machine.execRecalHold chan s
  | .svcDrain rq => Sys2Proof.Machine.execSvcDrain rq s
  | .svcReturn rq => Sys2Proof.Machine.execSvcReturn rq s
  | .svcRecalibrate rq => Sys2Proof.Machine.execSvcRecalibrate rq s
  | .svcMargin rq => Sys2Proof.Machine.execSvcMargin rq s
  | .channelDrained chan => Sys2Proof.Machine.execChannelDrained chan s
  | .marginDone chan result => Sys2Proof.Machine.execMarginDone chan result s
  | .memcRecalReq die inst w => Sys2Proof.Machine.execMemcRecalReq die inst w s
  | .benchDrain die idx w => Sys2Proof.Machine.execBenchDrain die idx w s
  | .benchYield die idx w => Sys2Proof.Machine.execBenchYield die idx w s
  | .stationDrained inst => Sys2Proof.Machine.execStationDrained inst s
  | .stationGate inst => Sys2Proof.Machine.execStationGate inst s
  | .stationWake inst => Sys2Proof.Machine.execStationWake inst s
  | .stationRetain inst => Sys2Proof.Machine.execStationRetain inst s
  | .retainedAccess inst => Sys2Proof.Machine.execRetainedAccess inst s
  | .csrWrite addr size w => Sys2Proof.Machine.execCsrWrite addr size w s
  | .counterReadClear addr size => Sys2Proof.Machine.execCounterReadClear addr size s
  | .gcntLoRead die ao => Sys2Proof.Machine.execGcntLoRead die ao s
  | .aliasSetClearToggle addr w => Sys2Proof.Machine.execAliasSetClearToggle addr w s
  | .aliasBitWrite addr w => Sys2Proof.Machine.execAliasBitWrite addr w s
  | .csrmapModeWrite die n w => Sys2Proof.Machine.execCsrmapModeWrite die n w s
  | .parityScan die slot o => Sys2Proof.Machine.execParityScan die slot o s
  | .cfgParityReload die slot => Sys2Proof.Machine.execCfgParityReload die slot s
  | .gcntParityInject die w => Sys2Proof.Machine.execGcntParityInject die w s
  | .eventPop die w => Sys2Proof.Machine.execEventPop die w s
  | .aopmBlockReset w => Sys2Proof.Machine.execAopmBlockReset w s
  | .aopmWarm w => Sys2Proof.Machine.execAopmWarm w s
  | .dieHold w => Sys2Proof.Machine.execDieHold w s
  | .oapRead rq index sub => Sys2Proof.Machine.execOapRead rq index sub s
  | .oapWrite rq index sub => Sys2Proof.Machine.execOapWrite rq index sub s
  | .oapInfo rq index sub => Sys2Proof.Machine.execOapInfo rq index sub s
  | .oapStagingTimeout m index sub => Sys2Proof.Machine.execOapStagingTimeout m index sub s
  | .controlTokenWrite rq => Sys2Proof.Machine.execControlTokenWrite rq s
  | .mgmtTakeover => Sys2Proof.Machine.execMgmtTakeover s
  | .restoreDefaults rq => Sys2Proof.Machine.execRestoreDefaults rq s
  | .logClear rq => Sys2Proof.Machine.execLogClear rq s
  | .csrDataRead rq => Sys2Proof.Machine.execCsrDataRead rq s
  | .csrDataWrite rq => Sys2Proof.Machine.execCsrDataWrite rq s
  | .sweepBegin => Sys2Proof.Machine.execSweepBegin s
  | .addressOffer node => Sys2Proof.Machine.execAddressOffer node s
  | .mgmtBeaconLost => Sys2Proof.Machine.execMgmtBeaconLost s
  | .mgmtBeaconResumed => Sys2Proof.Machine.execMgmtBeaconResumed s
  | .mgmtChainInLost => Sys2Proof.Machine.execMgmtChainInLost s
  | .storeCopyWrite flashOk => Sys2Proof.Machine.execStoreCopyWrite flashOk s
  | .poweredTimeRecord => Sys2Proof.Machine.execPoweredTimeRecord s
  | .nvInhibitBegin => Sys2Proof.Machine.execNvInhibitBegin s
  | .nvInhibitEnd => Sys2Proof.Machine.execNvInhibitEnd s
  | .supplyGood obs => Sys2Proof.Machine.execSupplyGood obs s
  | .supplyLow => Sys2Proof.Machine.execSupplyLow s
  | .supplyWarnEnd => Sys2Proof.Machine.execSupplyWarnEnd s
  | .brownOut => Sys2Proof.Machine.execBrownOut s
  | .auxLoss => Sys2Proof.Machine.execAuxLoss s
  | .overvoltage => Sys2Proof.Machine.execOvervoltage s
  | .overvoltageEnd => Sys2Proof.Machine.execOvervoltageEnd s
  | .modResetN => Sys2Proof.Machine.execModResetN s
  | .resetCmdCold rq => Sys2Proof.Machine.execResetCmdCold rq s
  | .resetCmdWarm rq => Sys2Proof.Machine.execResetCmdWarm rq s
  | .resetCmdDie rq => Sys2Proof.Machine.execResetCmdDie rq s
  | .powerLimitTick meanMw => Sys2Proof.Machine.execPowerLimitTick meanMw s
  | .powerComparatorTrip => Sys2Proof.Machine.execPowerComparatorTrip s
  | .powerComparatorRelease => Sys2Proof.Machine.execPowerComparatorRelease s
  | .thermalSample die eighthsC => Sys2Proof.Machine.execThermalSample die eighthsC s
  | .thermalDieReset die => Sys2Proof.Machine.execThermalDieReset die s
  | .clockFault src => Sys2Proof.Machine.execClockFault src s
  | .deepCmd rq => Sys2Proof.Machine.execDeepCmd rq s
  | .wake source => Sys2Proof.Machine.execWake source s
  | .fwImageWrite slot rq => Sys2Proof.Machine.execFwImageWrite slot rq s
  | .fwActivateMgmt rq => Sys2Proof.Machine.execFwActivateMgmt rq s
  | .fwActivateGaffer rq => Sys2Proof.Machine.execFwActivateGaffer rq s
  | .liveUpdateDieHeld die => Sys2Proof.Machine.execLiveUpdateDieHeld die s
  | .fwConfirm rq => Sys2Proof.Machine.execFwConfirm rq s
  | .keyRecordWrite rq => Sys2Proof.Machine.execKeyRecordWrite rq s
  | .waiverWrite rq => Sys2Proof.Machine.execWaiverWrite rq s
  | .quoteNonceWrite rq => Sys2Proof.Machine.execQuoteNonceWrite rq s
  | .quoteRead rq => Sys2Proof.Machine.execQuoteRead rq s
  | .hlFlitReceive flit => Sys2Proof.Machine.execHlFlitReceive flit s
  | .hlReplayTimeout => Sys2Proof.Machine.execHlReplayTimeout s
  | .hostLinkRetrained => Sys2Proof.Machine.execHostLinkRetrained s
  | .hostLinkDown => Sys2Proof.Machine.execHostLinkDown s
  | .hostLinkUp lanes => Sys2Proof.Machine.execHostLinkUp lanes s
  | .sqDoorbell ring tail => Sys2Proof.Machine.execSqDoorbell ring tail s
  | .cqDoorbell ring head => Sys2Proof.Machine.execCqDoorbell ring head s
  | .eventHeadDoorbell head => Sys2Proof.Machine.execEventHeadDoorbell head s
  | .hlCtrlWrite w => Sys2Proof.Machine.execHlCtrlWrite w s
  | .ctrlWrite offset w => Sys2Proof.Machine.execCtrlWrite offset w s
  | .ringPairWrite ring rq => Sys2Proof.Machine.execRingPairWrite ring rq s
  | .ringPairDrained ring => Sys2Proof.Machine.execRingPairDrained ring s
  | .commandComplete ring tag fault done => Sys2Proof.Machine.execCommandComplete ring tag fault done s
  | .recalibrationEnd chan holdNs => Sys2Proof.Machine.execRecalibrationEnd chan holdNs s
  | .digestsComputed part => Sys2Proof.Machine.execDigestsComputed part s
  | .thermalResetEnd die => Sys2Proof.Machine.execThermalResetEnd die s
  | .modResetNRelease => Sys2Proof.Machine.execModResetNRelease s
  | .mgmtChainInAsserted => Sys2Proof.Machine.execMgmtChainInAsserted s
  | .selftestComplete results => Sys2Proof.Machine.execSelftestComplete results s
  | .mgmtFwRestarted => Sys2Proof.Machine.execMgmtFwRestarted s
  | .quoteReady m => Sys2Proof.Machine.execQuoteReady m s
  | .oapSnapshotExpire m index sub => Sys2Proof.Machine.execOapSnapshotExpire m index sub s
  | .oapKeptResponseExpire m tag => Sys2Proof.Machine.execOapKeptResponseExpire m tag s
  | .mgmtFrameDiscarded => Sys2Proof.Machine.execMgmtFrameDiscarded s

end Sys2Proof.Machine
end

