-- ==== Sys2Proof/Machine/Tick.lean ====
section
/-! DEFINITION. What happens with the passing of time alone: the clocks count (R382), and a Deep entry or exit that has been
begun is completed (R414, R416; log entry 19). -/

namespace Sys2Proof.Machine

/-- One nanosecond: GCNT_TIME of each die that runs, and the always-on milliseconds. -/
def Mach.nanosecond (m : Mach) : Mach :=
  let full := m.power.aoNs + 1 = 1000000
  { m with
    dies := m.dies.map fun x => if x.up then { x with time := (x.time + 1) % 2 ^ 64 } else x
    power := { m.power with
      aoNs := if full then 0 else m.power.aoNs + 1
      aoMs := if full then (m.power.aoMs + 1) % 2 ^ 64 else m.power.aoMs } }

/-- A tick. -/
def State.tick (s : State) : State :=
  let s := s.setM Mach.nanosecond
  if s.m.power.deepSteps = 1 then s.setM Mach.deepEntered
  else if s.m.power.deepSteps = 3 then (if s.m.power.deepPorts then s.setM Mach.deepDone else s.deepExit)
  else s

end Sys2Proof.Machine
end

