-- ==== Sys2Proof/Safety.lean ====
section
/-! DEFINITION. The terms in which claims speak: what a command answers with, when a host command is taken, when an operation
issues, when the machine is at rest, the order of anti-rollback records, and the invariants. -/

namespace Sys2Proof.Machine

/-! ### Answers -/

/-- `s` with the machine `m`, run on until it waits for something outside: what a command that makes of the machine `m` answers
with. The queue and the vault are those of `s`. -/
def State.settled (s : State) (m : Mach) : State := { s with m := m.rest }
/-- A state whose machine has run on. -/
def State.atRest (s : State) : State := { s with m := s.m.rest }

/-- Has the port nothing to send and nothing to return to its peer, or is it not up? -/
def Port.idle (p : Port) : Bool :=
  !p.isUp || (p.queue.isEmpty && p.sending.isEmpty && !p.ackOwed && p.owed.all (· == 0))
/-- Is the machine at rest: no packet to itself, no port with something to send, no collective, no packet held for an epoch, no
fabric barrier, no context past a barrier, no PAUSE or STOP pending, no tile copy to switch to, no GEMM in flight, no bench to be
lent or drained, no channel with a record, no instance gated, no DETACH under way, no event on its way to the log, and each die's
interrupt as its EVENT queue has it? -/
def Mach.quiet (m : Mach) : Bool :=
  m.loop.isEmpty && m.ports.all Port.idle && m.colls.isEmpty && (m.cgroups.all fun q => q.2.ahead.isEmpty)
  && ([0, 1].all fun d => (m.die d).sync.fbars.isEmpty) && (m.ctxs.all fun x => !x.passed)
  && (m.link.cmds.all fun h => h.kind != 0x25 && h.kind != 0x27)
  && (m.tensors.all fun t => t.marks.all fun q => !(q.2.copied && q.2.migrating.isSome))
  && m.gemms.isEmpty && m.fritWait.isEmpty && m.benchOffs.isEmpty && m.chans.isEmpty && m.power.insts.isEmpty
  && m.link.detaching.isNone && m.evPend.isEmpty && ([0, 1].all fun d => (m.die d).irq == m.eventIrq d)

/-! ### Host commands (R455, R457, R460) -/

/-- The record of a command that has been fetched. -/
def cmdOf (h : HostHdr) (kind : Nat) : HostCmd :=
  { ring := h.ring, tag := h.tag, kind := kind, part := h.partition
    signal := if bitAt h.flags.toNat 0 then some h.signal.toNat else none }
/-- The machine that has fetched the command. -/
def Mach.fetched (m : Mach) (h : HostHdr) (kind : Nat) : Mach := (m.fetch h kind).1
/-- Is the command fetched now, and does nothing that comes before its own checks turn it away? -/
def Mach.takes (m : Mach) (h : HostHdr) (kind : Nat) (grp : Option Nat) : Bool :=
  m.fetchable h grp && ((m.fetched h kind).hostGate h false).isNone && h.fault == .none
/-- The answer of a host command that completes, with a status and a result, on the machine `m`. -/
def State.hostDone (s : State) (h : HostHdr) (kind : Nat) (m : Mach) (status result : Nat) : State :=
  s.settled (m.finishHost (cmdOf h kind) status result)

/-! ### Operations of streams (R34, R35) -/

/-- Does operation `o` of kind `k` issue from context `c` on instance `n` of a station kind: not elided (R198), and no record that it
uses damaged (R260)? -/
def Mach.issuesOn (m : Mach) (c n : Nat) (k : OpKind) (st : StKind) (o : Op) : Bool :=
  m.issuable c k == some o && !m.elidable c o && m.instReady (m.ctx c).part (instOf st n)
  && decide (m.instPart (instOf st n) = (m.ctx c).part) && (m.usesBad (m.ctx c).part o).isNone
/-- The machine once the operation's accesses are counted for the planner (R264). -/
def Mach.noted (m : Mach) (c n : Nat) (st : StKind) (o : Op) : Mach := m.noteNear (m.ctx c).part o (instOf st n)

/-! ### Requests of the object dictionary (R389 to R393) -/

/-- Does the port of the master answer: the module is past its reset and not restarting its controller; the host link is up, or
the module has an address on the management segment? -/
def State.portOpen (s : State) : Master → Bool
  | .host => s.m.power.boot.isSome && s.m.link.up && !s.m.link.retraining && !s.m.mgmt.restarting
  | .mgmt => s.m.power.boot.isSome && !s.m.mgmt.restarting && s.m.mgmt.nodeId != 255
/-- The frame of the request is counted where it came over the management segment; sent to the module's own address, it is a wake source
(R415). -/
def State.counted (s : State) (rq : DictReq) : State :=
  match rq.master with
  | .host => s
  | .mgmt => s.heard rq.bcast
/-- Is the frame's header well formed (check 1), the operation apart? -/
def OapReq.framed (q : OapReq) : Bool := q.rq.version == 1 && q.status == 0 && fld q.rq.flags.toNat 7 2 == 0
/-- Is the request executed: the port answers, the frame is good, and no response to the very same request is kept? -/
def State.serves (s : State) (q : OapReq) : Bool :=
  s.portOpen q.rq.master && q.framed
  && ((s.counted q.rq).m.kept.find? fun x =>
      x.master == q.rq.master && x.tag == q.rq.tag.toNat && x.request == q.bytes).isNone
/-- The request is answered: the response is kept and goes out over its master's port, what the write began happens, and the
machine runs on. -/
def State.answered (s : State) (q : OapReq) (a : Bytes) (f : After) : State :=
  let s := s.setM fun m => m.keep q.rq.master q.rq.tag.toNat q.bytes a
  ((match q.rq.master with
    | .host => s.setM fun m => m.emit (.oap .host a)
    | .mgmt => s.setM fun m => m.mgmtSend 0 a).after f).atRest
/-- The response to a write. -/
def OapReq.wrote (q : OapReq) (r : DictRow) (st : Nat) : Bytes :=
  q.answer { status := st, flags := fld q.rq.flags.toNat 1 0, typ := r.typ.code, offset := q.rq.offset }
/-- The whole value that the request completes, of the length that its entry's layout has, and the state without what was staged of it;
none while segments are missing, too long or out of place. -/
def State.whole (s : State) (q : OapReq) (r : DictRow) : Option (State × Bytes) :=
  match r.typ.size with
  | some n => if q.rq.offset = 0 ∧ fld q.rq.flags.toNat 1 0 = 3 ∧ q.rq.data.length = n then some (s, q.rq.data) else none
  | none => if segLimit q.rq.master < q.length then none else
    match s.m.stage q.rq.master q r with
    | (m, .ok bs) => if blobLenOk q.index q.sub bs then some ({ s with m := m }, bs) else none
    | _ => none
/-- Does a write that is executed in `s` pass the checks 2 to 7 of R391, with the whole value `bs`, in the state `s1`? -/
def State.admits (s : State) (q : OapReq) (r : DictRow) (s1 : State) (bs : Bytes) : Prop :=
  s.entryRow q.index q.sub = some r ∧ r.acc ≠ .ro ∧ s.m.mayWrite q.rq.master q.index q.sub q.rq.data
  ∧ q.rq.typ.toNat = r.typ.code ∧ s.whole q r = some (s1, bs) ∧ s1.m.rangeOk r q.index q.sub bs
  ∧ (r.acc = .rwIdle → s1.m.entryIdle q.index bs) ∧ s1.m.absent q.index = false
  ∧ (s1.m.power.deepSteps < 2 ∨ (q.index / 4096 ≠ 2 ∧ ¬ (4 ≤ q.index / 4096 ∧ q.index / 4096 ≤ 7)))

/-! ### Vaults (R405, R434) -/

/-- What the flash itself holds. -/
def Vault.stored (v : Vault) : Flash := v.held.getD v.flash
/-- No counter of `a` is above that of `b`. -/
def AntiRollback.le (a b : AntiRollback) : Prop :=
  a.seq ≤ b.seq ∧ a.svnMgmt ≤ b.svnMgmt ∧ a.svnGaffer ≤ b.svnGaffer ∧ a.keyCount ≤ b.keyCount
/-- What the flash holds is not ahead of what is in force. -/
def Vault.heldBehind (v : Vault) : Prop := v.stored.ar.le v.flash.ar

end Sys2Proof.Machine
end

