-- ==== Sys2Proof/Certificates/Slice0/Obligations.lean ====
section
/-! DEFINITION. The statements for the provers. Where a clause speaks of what a command answers, the state it names is the
machine that the command's own effect makes, run on until it waits for something outside (`State.settled`, `State.hostDone`,
`State.atRest`). -/

section
open Sys2Proof Sys2Proof.Machine

/-! ### Steps, reset, time -/

/-- The command at the front of the queue is the one that a step runs, on the state that is left. -/
def Obligations.StepRunsTheFrontCommand : Prop :=
  ∀ (c : Instr) (q : List Instr) (s : State), step { s with pending := c :: q } = exec c { s with pending := q }

/-- On an empty queue a step is one nanosecond (log entry 19: the model's choice; that the counter of a die that is up counts
nanoseconds is R382's). Outside an entry to or an exit from Deep it changes nothing else. -/
def Obligations.IdleStepLetsTimePass : Prop :=
  ∀ s : State, s.pending = [] → s.m.power.deepSteps ≠ 1 → s.m.power.deepSteps ≠ 3 →
    step s = .next { s with m := { s.m with
      dies := s.m.dies.map fun x => if x.up then { x with time := (x.time + 1) % 2 ^ 64 } else x
      power := { s.m.power with
        aoNs := if s.m.power.aoNs + 1 = 1000000 then 0 else s.m.power.aoNs + 1
        aoMs := if s.m.power.aoNs + 1 = 1000000 then (s.m.power.aoMs + 1) % 2 ^ 64 else s.m.power.aoMs } } }

/-- Every command of the table is carried out in every state: no meaning faults or refuses, and none touches the queue of the
commands that wait. -/
def Obligations.EveryCommandAnswers : Prop :=
  ∀ (c : Instr) (s : State), ∃ t : State, exec c s = .next t ∧ t.pending = s.pending

/-! ### Host commands -/

/-- HANDLE_WRITE, HANDLE_READ and HANDLE_FREE, fetched when nothing turns them away, answer with the status that R24 gives and
do their work: the handle must be one of the table, it must not be busy, the descriptor must meet R22; then the old tensor goes
and the new one is placed, the 64 bytes of the descriptor are written to the host, or the handle is freed. -/
def Obligations.HandleCommandsDoTheirWork : Prop :=
  ∀ (s : State) (h : HostHdr) (handle : Nat) (words : List DWord) (addr : DWord),
    let p := h.partition
    let ws := (words.map fun w => w.toNat).take 6
    (s.m.takes h 0x10 none →
      let m := s.m.fetched h 0x10
      (m.handleOk p handle = false → exec (.handleWrite h handle words) s = .next (s.hostDone h 0x10 m stBadDescriptor 0))
      ∧ (m.handleOk p handle → m.handleBusy p handle →
        exec (.handleWrite h handle words) s = .next (s.hostDone h 0x10 m stHandleBusy 0))
      ∧ (m.handleOk p handle → m.handleBusy p handle = false → (descOk handle ws && descMoreOk (HDesc.ofWords ws)) = false →
        exec (.handleWrite h handle words) s = .next (s.hostDone h 0x10 m stBadDescriptor 0))
      ∧ (m.handleOk p handle → m.handleBusy p handle = false → descOk handle ws → descMoreOk (HDesc.ofWords ws) →
        exec (.handleWrite h handle words) s = .next (match (m.freeHandle p handle).newTensor p (HDesc.ofWords ws) with
          | some m' => s.hostDone h 0x10 m' stOk 0
          | none => s.hostDone h 0x10 m stNoSpace 0)))
    ∧ (s.m.takes h 0x11 none →
      let m := s.m.fetched h 0x11
      (m.handleOk p handle = false → exec (.handleRead h handle addr) s = .next (s.hostDone h 0x11 m stBadDescriptor 0))
      ∧ (m.handleOk p handle → exec (.handleRead h handle addr) s = .next (s.hostDone h 0x11
          (m.toHost addr.toNat (bytesOf (match m.tensor? p handle with | some t => t.words | none => List.replicate 8 0))) stOk 0)))
    ∧ (s.m.takes h 0x12 none →
      let m := s.m.fetched h 0x12
      (m.handleOk p handle = false → exec (.handleFree h handle) s = .next (s.hostDone h 0x12 m stBadDescriptor 0))
      ∧ (m.handleOk p handle → m.handleBusy p handle →
        exec (.handleFree h handle) s = .next (s.hostDone h 0x12 m stHandleBusy 0))
      ∧ (m.handleOk p handle → m.handleBusy p handle = false →
        exec (.handleFree h handle) s = .next (s.hostDone h 0x12
          (if (m.tensor? p handle).isNone then m else
            ({ m with tensors := m.tensors.filter fun t => !(t.part == p && t.handle == handle) } : Mach).syncHandle p handle)
          stOk 0)))

/-- PROGRAM_LOAD is fetched and waits for its completion with what it brought; COMMAND_COMPLETE checks it whole and loads it
under the next number (R33). PROGRAM_UNLOAD, GROUP_CREATE and BIND answer in the order of their checks (R33, R37, R38, R50). -/
def Obligations.ProgramsAndGroupsComplete : Prop :=
  ∀ (s : State) (h : HostHdr) (n g kind pick len : Nat) (image : Bytes) (seed first rpt : DWord),
    let p := h.partition
    (s.m.takes h 0x20 none → exec (.programLoad h len image) s =
      .next (s.settled ((s.m.fetched h 0x20).keepCmd (cmdOf h 0x20) fun c => { c with len := len, data := fitBytes len image })))
    ∧ (s.m.takes h 0x21 none →
      let m := s.m.fetched h 0x21
      (m.progs.find? (fun q => q.num == n) = none → exec (.programUnload h n) s = .next (s.hostDone h 0x21 m stBadState 0))
      ∧ ∀ q, m.progs.find? (fun q => q.num == n) = some q →
        (q.part ≠ p → exec (.programUnload h n) s = .next (s.hostDone h 0x21 m stBounds 0))
        ∧ (q.part = p → (m.ctxs.any fun c => c.st != .free && c.part == p && c.prog == n) = true →
          exec (.programUnload h n) s = .next (s.hostDone h 0x21 m stBadState 0))
        ∧ (q.part = p → (m.ctxs.any fun c => c.st != .free && c.part == p && c.prog == n) = false →
          exec (.programUnload h n) s =
            .next (s.hostDone h 0x21 { m with progs := m.progs.filter fun q => q.num != n } stOk 0)))
    ∧ (s.m.takes h 0x22 (some g) →
      let m := s.m.fetched h 0x22
      (2 < kind → exec (.groupCreate h g kind seed first rpt) s = .next (s.hostDone h 0x22 m stBadCommand 0))
      ∧ (kind ≤ 2 → (m.group? p g).isSome →
        exec (.groupCreate h g kind seed first rpt) s = .next (s.hostDone h 0x22 m stBadState 0))
      ∧ ∀ k, groupKindOf kind = some k → m.group? p g = none →
        exec (.groupCreate h g kind seed first rpt) s = .next (s.hostDone h 0x22 { m with groups := m.groups ++
          [{ part := p, num := g, kind := k, seed := seed.toNat, first := first.toNat, rpt := rpt.toNat, step := first.toNat }] }
          stOk 0))
    ∧ (s.m.takes h 0x23 (some g) →
      let m := s.m.fetched h 0x23
      ∀ q, m.progs.find? (fun q => q.num == n) = some q →
        (q.part ≠ p → exec (.bind h g n pick) s = .next (s.hostDone h 0x23 m stBounds 0))
        ∧ (q.part = p → (m.group? p g).isSome → (m.ctxsOf p g).all (fun c => (m.ctx c).st == .bound) →
          (m.bindable p g = [] → exec (.bind h g n pick) s = .next (s.hostDone h 0x23 m stNoContext 0))
          ∧ (∀ c cs, m.bindable p g = c :: cs →
            let k := if (c :: cs).contains pick then pick else c
            exec (.bind h g n pick) s = .next (s.hostDone h 0x23
              (m.updCtx k fun _ => { st := .bound, part := p, group := g, prog := n }) stOk k))))

/-- START, PAUSE, RESUME, STOP, UNBIND and GROUP_DESTROY answer as R50 says: START checks the whole group, then the room of a
training group's reserve and journal, then that no self-test runs; RESUME in its own order; PAUSE and STOP wait until no round
is under way and the operations in flight have completed (R207); GROUP_DESTROY needs a group without contexts, and the going of
the last training group releases the reserve (R162). -/
def Obligations.StreamCommandsComplete : Prop :=
  ∀ (s : State) (h : HostHdr) (g c : Nat) (x : Group),
    let p := h.partition
    (s.m.takes h 0x24 (some g) →
      let m := s.m.fetched h 0x24
      (m.startOk p g = false → exec (.start h g) s = .next (s.hostDone h 0x24 m stBadState 0))
      ∧ (m.startOk p g → m.group? p g = some x →
        let m1 := m.startRoom p x
        (x.kind = .training → (m1.reserveFits p && m1.journalFits p g) = false →
          exec (.start h g) s = .next (s.hostDone h 0x24 m1 stNoSpace 0))
        ∧ ((x.kind = .training → m1.reserveFits p ∧ m1.journalFits p g) → m1.dnum 0x7010 6 = 2 →
          exec (.start h g) s = .next (s.hostDone h 0x24 m1 stBusy 0))
        ∧ ((x.kind = .training → m1.reserveFits p ∧ m1.journalFits p g) → m1.dnum 0x7010 6 ≠ 2 →
          exec (.start h g) s = .next (s.hostDone h 0x24 (m1.startWork p g x) stOk 0))))
    ∧ (s.m.takes h 0x26 (some g) →
      let m := s.m.fetched h 0x26
      m.group? p g = some x → x.pausedBy ≠ 16 →
        (m.ctxsOf p g).any (fun c => (m.ctx c).faulty) = false →
          (((m.ctxsOf p g).all fun c => (m.ctx c).st != .paused) →
            exec (.resume h g) s = .next (s.hostDone h 0x26 m stOk 0))
          ∧ (((m.ctxsOf p g).all fun c => (m.ctx c).st != .paused) = false →
            (x.kind = .training → m.reserveFits p = false →
              exec (.resume h g) s = .next (s.hostDone h 0x26 m stNoSpace 0))
            ∧ ((x.kind = .training → m.reserveFits p) → (m.dnum 0x7010 6 = 2 ∨ m.updHeld p g) →
              exec (.resume h g) s = .next (s.hostDone h 0x26 m stBusy 0))
            ∧ ((x.kind = .training → m.reserveFits p) → m.dnum 0x7010 6 ≠ 2 → m.updHeld p g = false →
              exec (.resume h g) s = .next (s.hostDone h 0x26 (m.resumeWork p g x) stOk 0))))
    ∧ (s.m.takes h 0x25 (some g) →
      let m := s.m.fetched h 0x25
      (m.group? p g = none → exec (.pause h g) s = .next (s.hostDone h 0x25 m stBadState 0))
      ∧ ((m.group? p g).isSome → exec (.pause h g) s =
        .next (s.settled (m.keepCmd (cmdOf h 0x25) fun k => { k with extra := [g, 0] }).pumpGroupCmds)))
    ∧ (s.m.takes h 0x27 (some g) →
      let m := s.m.fetched h 0x27
      (m.group? p g = none → exec (.stop h g) s = .next (s.hostDone h 0x27 m stBadState 0))
      ∧ ((m.group? p g).isSome → exec (.stop h g) s =
        .next (s.settled (m.keepCmd (cmdOf h 0x27) fun k => { k with extra := [g, 0] }).pumpGroupCmds)))
    ∧ (s.m.takes h 0x28 (some (s.m.ctx c).group) →
      let m := s.m.fetched h 0x28
      let train : Bool := match m.group? p (m.ctx c).group with | some g => g.kind == .training | none => false
      c < 32 → (m.ctx c).part = p → ctxOwned m.mode p c →
        ((m.ctx c).st ≠ .done → exec (.unbind h c) s = .next (s.hostDone h 0x28 m stBadState 0))
        ∧ ((m.ctx c).st = .done → train = false →
          exec (.unbind h c) s = .next (s.hostDone h 0x28 (m.updCtx c fun _ => {}) stOk 0))
        ∧ ((m.ctx c).st = .done → train → (m.ctxsOf p (m.ctx c).group).any (fun k => (m.ctx k).st != .done) →
          exec (.unbind h c) s = .next (s.hostDone h 0x28 m stBadState 0))
        ∧ ((m.ctx c).st = .done → train → (m.ctxsOf p (m.ctx c).group).any (fun k => (m.ctx k).st != .done) = false →
          exec (.unbind h c) s = .next (s.hostDone h 0x28
            ((match m.group? p (m.ctx c).group with
              | some y => if y.slotted then m.untagLeaving p c y else m
              | none => m).updCtx c fun _ => {}) stOk 0)))
    ∧ (s.m.takes h 0x29 (some g) →
      let m := s.m.fetched h 0x29
      let left := m.groups.filter fun y => !(y.part == p && y.num == g)
      (((m.group? p g).isNone || !(m.ctxsOf p g).isEmpty) →
        exec (.groupDestroy h g) s = .next (s.hostDone h 0x29 m stBadState 0))
      ∧ ((m.group? p g).isSome → m.ctxsOf p g = [] →
        ((left.any fun y => y.part == p && y.kind == .training) →
          exec (.groupDestroy h g) s = .next (s.hostDone h 0x29 (({ m with groups := left } : Mach).syncLent p) stOk 0))
        ∧ ((left.any fun y => y.part == p && y.kind == .training) = false →
          exec (.groupDestroy h g) s = .next (s.hostDone h 0x29
            (({ ({ m with groups := left } : Mach).syncLent p with tensors := m.tensors.map fun t => if t.part ≠ p then t else
              { t with marks := t.marks.map fun q => (q.1, { q.2 with charged := false }) } } : Mach).dset (0x4110 + p) 0x10 0)
            stOk 0))))

/-- Checkpoint transfers are fetched, checked (a slot under way is not read) and kept until their completion (R217, R456). NOP, SIGNAL, TIME_EXCHANGE do their
work at once (R278, R463, R464); WAIT is refused or posted (R281, R283, R463), and its timeout completes it with TIMEOUT. -/
def Obligations.TransfersSignalsAndTimeComplete : Prop :=
  ∀ (s : State) (h : HostHdr) (module part slot len group source count timeout off mode ring : Nat) (addr time : DWord)
    (ctr tag : Half) (image data : Bytes) (tile : TileRef) (x : HostedSlot) (d i : Nat),
    let p := h.partition
    (s.m.takes h 0x2A none →
      let m := s.m.fetched h 0x2A
      (m.hostedSlot module part slot (some p) = none →
        exec (.ckptRead h module part slot addr len) s = .next (s.hostDone h 0x2A m stBadState 0))
      ∧ (m.hostedSlot module part slot (some p) = some x → m.slotWriting x →
        exec (.ckptRead h module part slot addr len) s = .next (s.hostDone h 0x2A m stBadState 0))
      ∧ (m.hostedSlot module part slot (some p) = some x → m.slotWriting x = false →
        exec (.ckptRead h module part slot addr len) s = .next (s.settled (m.keepCmd (cmdOf h 0x2A) fun c =>
          { c with extra := [module, part, slot], addr := addr.toNat, len := len }))))
    ∧ (s.m.takes h 0x2B (some group) →
      let m := s.m.fetched h 0x2B
      (1 < source → exec (.ckptRestore h group source slot module part image) s = .next (s.hostDone h 0x2B m stBadCommand 0))
      ∧ (source ≤ 1 → m.restoreReady p group = false →
        exec (.ckptRestore h group source slot module part image) s = .next (s.hostDone h 0x2B m stBadState 0))
      ∧ (source ≤ 1 → m.restoreReady p group →
        exec (.ckptRestore h group source slot module part image) s = .next (s.settled (m.keepCmd (cmdOf h 0x2B) fun c =>
          { c with extra := [group, source, slot, module, part], data := image }))))
    ∧ (s.m.takes h 0x02 none → exec (.nop h) s = .next (s.hostDone h 0x02 (s.m.fetched h 0x02) stOk 0))
    ∧ (s.m.takes h 0x30 none →
      let m := s.m.fetched h 0x30
      (∀ r, m.dmaRange p tile mode off len = .ok r → exec (.dmaWrite h len tile mode off data) s =
        .next (s.settled (m.keepCmd (cmdOf h 0x30) fun c => { c with
          len := len, tile := if mode = 0 then some tile else none, off := off, data := fitBytes len data })))
      ∧ ∀ st res m', m.dmaRange p tile mode off len = .error (st, res, m') →
        exec (.dmaWrite h len tile mode off data) s = .next (s.hostDone h 0x30 m' st res))
    ∧ (s.m.takes h 0x31 none →
      let m := s.m.fetched h 0x31
      (∀ r, m.dmaRange p tile mode off len = .ok r → exec (.dmaRead h addr len tile mode off) s =
        .next (s.settled (m.keepCmd (cmdOf h 0x31) fun c => { c with
          len := len, tile := if mode = 0 then some tile else none, off := off, addr := addr.toNat })))
      ∧ ∀ st res m', m.dmaRange p tile mode off len = .error (st, res, m') →
        exec (.dmaRead h addr len tile mode off) s = .next (s.hostDone h 0x31 m' st res))
    ∧ (s.m.takes h 0x32 none →
      let m := s.m.fetched h 0x32
      (extCtr m.mode p ctr.toNat = none → exec (.signal h ctr) s = .next (s.hostDone h 0x32 m stBadCommand 0))
      ∧ (extCtr m.mode p ctr.toNat = some (d, i) → exec (.signal h ctr) s = .next (s.hostDone h 0x32 (m.signal d i) stOk 0)))
    ∧ (s.m.takes h 0x33 none →
      let m := s.m.fetched h 0x33
      ((timeout = 0 ∨ 600000 < timeout) → exec (.wait h ctr count timeout) s = .next (s.hostDone h 0x33 m stBadCommand 0))
      ∧ (0 < timeout → timeout ≤ 600000 → extCtr m.mode p ctr.toNat = none →
        exec (.wait h ctr count timeout) s = .next (s.hostDone h 0x33 m stBadCommand 0))
      ∧ (0 < timeout → timeout ≤ 600000 → extCtr m.mode p ctr.toNat = some (d, i) →
        ((count = 0 ∨ 255 < count) →
          exec (.wait h ctr count timeout) s = .next (s.hostDone h 0x33 (m.refuseWait d i) stWaitRefused 0))
        ∧ (0 < count → count ≤ 255 →
          exec (.wait h ctr count timeout) s = .next (s.settled (m.postWait d i ⟨.host h.ring h.tag, count⟩)))))
    ∧ (∀ c, s.m.hostCmd? ring tag = some c → c.kind = 0x33 →
        exec (.hostWaitTimeout ring tag) s =
          .next (s.settled ((s.m.dropWaits (.host ring tag)).finishHost c stTimeout 0)))
    ∧ (s.m.takes h 0x34 none →
      let m := s.m.fetched h 0x34
      exec (.timeExchange h time addr) s = .next (s.hostDone h 0x34 (m.toHost addr.toNat
        (toLe 8 time.toNat ++ toLe 8 (m.dieTime 0) ++ toLe 8 (m.dieTime 1) ++ toLe 8 m.power.aoMs)) stOk 0))

/-- COMMAND_COMPLETE ends what was kept (R33, R217, R218, R462): by its opcode a DMA, a program load, a checkpoint read or
restore. A DMA waits while the link retrains (R467); one of no bytes ends with OK; work whose channels or dies do not answer waits (R275, R421); a write stores what it brought and counts it; a
read without damage writes the host's memory and counts; a program that passes its checks gets the next number and its bytes lie
in its partition's memory; a slot is read to the host; an image that is good and of the module's numerics level is restored. -/
def Obligations.CommandCompleteEndsWork : Prop :=
  ∀ (s : State) (ring : Nat) (tag : Half) (c : HostCmd) (done : Nat) (r : Option (Nat × Nat)) (x : HostedSlot),
    s.m.hostCmd? ring tag = some c →
      let m := s.m
      (c.kind = 0x30 ∨ c.kind = 0x31 →
        m.dmaRange c.part (c.tile.getD ⟨0, 0, 0, 0, 0⟩) (if c.tile.isSome then 0 else 1) c.off c.len = .ok r →
        let m1 := m.farCount 0 (m.dmaAddr c) c.len
        (m.link.retraining → exec (.commandComplete ring tag .none done) s = .next (s.settled m))
        ∧ (m.link.retraining = false → c.len = 0 →
          exec (.commandComplete ring tag .none done) s = .next (s.settled (m.finishHost c stOk 0)))
        ∧ (m.link.retraining = false → c.len ≠ 0 → m.hostServed c.part (m.dmaAddr c) c.len = false →
          exec (.commandComplete ring tag .none done) s = .next (s.settled m))
        ∧ (m.link.retraining = false → c.len ≠ 0 → m.hostServed c.part (m.dmaAddr c) c.len → c.kind = 0x30 → exec (.commandComplete ring tag .none done) s =
          .next (s.settled (((m1.dmaStore c.part c (c.data.take c.len)).dadd 0x9101 0x14 c.len).finishHost c stOk c.len)))
        ∧ (m.link.retraining = false → c.len ≠ 0 → m.hostServed c.part (m.dmaAddr c) c.len → c.kind = 0x31 → (m1.dmaFetch c.part c c.len).2.2 = none →
          exec (.commandComplete ring tag .none done) s = .next (s.settled
            ((((m1.dmaFetch c.part c c.len).1.toHost c.addr ((m1.dmaFetch c.part c c.len).2.1.take c.len)).dadd 0x9101 0x14
              c.len).finishHost c stOk c.len))))
      ∧ (c.kind = 0x20 →
        (∀ st res, m.loadCheck c.part c.len c.data = .bad st res →
          exec (.commandComplete ring tag .none done) s = .next (s.settled (m.finishHost c st res)))
        ∧ ∀ k lvl ops, m.loadCheck c.part c.len c.data = .ok k lvl ops →
          let a := (m.programRoom c.part c.len).getD 0
          let copies := (ops.filter fun o => o.kind == .update).map fun o => (o.ref 2).handle
          let m1 := m.farCount 0 a c.len
          (m.hostServed c.part a c.len = false → exec (.commandComplete ring tag .none done) s = .next (s.settled m))
          ∧ (m.hostServed c.part a c.len → exec (.commandComplete ring tag .none done) s = .next (s.settled
            ((({ m1 with
              progs := m.progs ++ [{ part := c.part, num := m.nextProg, kind := k, level := lvl, bytes := c.len, ops := ops, addr := a }]
              nextProg := (m.nextProg + 1) % 2 ^ 32
              tensors := m.tensors.map fun t => if t.part == c.part && copies.contains t.handle then { t with copy := true } else t
              } : Mach).putIn c.part 2 a (c.data.take c.len)).finishHost c stOk m.nextProg))))
      ∧ (c.kind = 0x2A → m.hostedSlot (c.extra.getD 0 0) (c.extra.getD 1 0) (c.extra.getD 2 0) (some c.part) = some x →
        let n := min c.len x.size
        let at' := areaPart x.places 0 n
        let got := (m.farArea 0 at').collect 2 at'
        (m.slotWriting x → exec (.commandComplete ring tag .none done) s = .next (s.settled (m.finishHost c stBadState 0)))
        ∧ (m.slotWriting x = false → m.areaServed c.part at' = false →
          exec (.commandComplete ring tag .none done) s = .next (s.settled m))
        ∧ (m.slotWriting x = false → m.areaServed c.part at' → got.2.2 = none → exec (.commandComplete ring tag .none done) s =
          .next (s.settled ((got.1.toHost c.addr got.2.1).finishHost c stOk n)))
        ∧ (∀ b, m.slotWriting x = false → m.areaServed c.part at' → got.2.2 = some b → exec (.commandComplete ring tag .none done) s =
          .next (s.settled ((got.1.toHost c.addr (got.2.1.take (min n b))).finishHost c stPoison 0))))
      ∧ (c.kind = 0x2B → m.restoreReady c.part (c.extra.getD 0 0) → c.extra.getD 1 0 = 0 →
        (m.restoreServed c.part (c.extra.getD 0 0) = false → exec (.commandComplete ring tag .none done) s = .next (s.settled m))
        ∧ (m.restoreServed c.part (c.extra.getD 0 0) → m.slotOk c.part c.data = false →
          exec (.commandComplete ring tag .none done) s = .next (s.settled (m.finishHost c stBadCheckpoint 0)))
        ∧ (m.restoreServed c.part (c.extra.getD 0 0) → m.slotOk c.part c.data → leAt c.data 24 4 ≠ m.level →
          exec (.commandComplete ring tag .none done) s = .next (s.settled (m.finishHost c stNumerics 0)))
        ∧ (m.restoreServed c.part (c.extra.getD 0 0) → m.slotOk c.part c.data → leAt c.data 24 4 = m.level →
          let m1 := m.applySlot c.part (c.extra.getD 0 0) c.data
          exec (.commandComplete ring tag .none done) s = .next (s.settled
            (((m1.farArea 0 (m1.restoredTiles c.part (c.extra.getD 0 0))).updGroup c.part (c.extra.getD 0 0) fun y =>
              { y with first := min y.first y.step }).finishHost c stOk 0))))

/-- DETACH on the admin ring stops fetching and completes every waiting WAIT with ABORTED (R468); on another ring it is
BAD_COMMAND. The OAP host command answers into the host's buffer what the request answers, with the answer's length as its result
(R459). OAP runs in every module state (R441). -/
def Obligations.DetachAndOapComplete : Prop :=
  ∀ (s : State) (h : HostHdr) (respAddr : DWord) (bufLen : Nat) (frame : Bytes),
    h.fault = .none →
      (s.m.takes h 0x3F none →
        let m := s.m.fetched h 0x3F
        (h.ring ≠ 0 → exec (.detach h) s = .next (s.hostDone h 0x3F m stBadCommand 0))
        ∧ (h.ring = 0 → exec (.detach h) s = .next (s.settled ((m.link.cmds.filter fun k => k.kind == 0x33).foldl
            (fun m k => (m.dropWaits (.host k.ring k.tag)).finishHost k stAborted 0)
            { m with link := { m.link with detaching := some h.tag } }))))
      ∧ (s.m.fetchable h none → (s.m.fetched h 0x01).hostGate h true = none →
        let m := s.m.fetched h 0x01
        (bufLen < 4112 → exec (.oap h respAddr bufLen frame) s = .next (s.hostDone h 0x01 m stBadCommand 0))
        ∧ (4112 ≤ bufLen → m.mgmt.restarting → exec (.oap h respAddr bufLen frame) s = .next (s.hostDone h 0x01 m stBusy 0))
        ∧ (4112 ≤ bufLen → m.mgmt.restarting = false →
          let r := { s with m := m }.oapServe .host (OapReq.ofBytes .host frame)
          exec (.oap h respAddr bufLen frame) s = .next ({ r.1 with
            m := (r.1.m.toHost respAddr.toNat r.2.1).finishHost (cmdOf h 0x01) stOk r.2.1.length }.after r.2.2).atRest))

/-! ### Operations of streams -/

/-- A Gather operation that issues reads its inputs in order; a reading that fails is a station fault of its outputs, and one
that succeeds leaves the operation in flight with the bytes it will write: COPY the source's (R226; a poisoned source leaves the
destination poisoned too, R259), a bagged lookup the pooled rows, or FAULT_INDEX where an index lies beyond the table (R228 to R230), GRAD_MERGE the merged list (R237, R238). On a sharded
table the exchange of R233 begins instead. -/
def Obligations.GatherOperationsIssue : Prop :=
  ∀ (s : State) (c n : Nat) (o : Op),
    let p := (s.m.ctx c).part
    let i := instOf .gather n
    let m0 := s.m.noted c n .gather o
    (s.m.issuesOn c n .copy .gather o →
      let a := m0.refAt p (o.ref 0)
      let w := m0.refAt p (o.ref 1)
      let x := (m0.gatherReads i p [a]).fetchTiles p [a]
      let f := match x.1.tensor? p a.1 with | some t => t.form a.2 | none => .q4
      let f := match x.1.tensor? p w.1 with | some t => if t.desc.fmt.isBlock then f else t.desc.fmt | none => f
      (x.1.shapeTile p (x.1.ctx c).group w.1 w.2 f = none →
        exec (.copy c n) s = .next (s.settled (x.1.abortStep p (x.1.ctx c).group 3 (x.2.1.headD []).length true)))
      ∧ (∀ m' e, x.2.2 = some e → x.1.shapeTile p (x.1.ctx c).group w.1 w.2 f = some m' →
        (e.code = fcPoison → exec (.copy c n) s = .next (s.settled ((m'.copyBad p a w).stationFault c [] e)))
        ∧ (e.code ≠ fcPoison → exec (.copy c n) s = .next (s.settled (m'.stationFault c [w] e))))
      ∧ (∀ m', x.2.2 = none → x.1.shapeTile p (x.1.ctx c).group w.1 w.2 f = some m' →
        exec (.copy c n) s = .next (s.settled (m'.takeOff c (some i) [w] [⟨w.1, w.2, x.2.1.headD [], false⟩] true))))
    ∧ (∀ k ∈ ([(.bagSum, .sum, .bagSum c n), (.bagMean, .mean, .bagMean c n), (.bagMax, .max, .bagMax c n)] :
          List (OpKind × Pool × Instr)), s.m.issuesOn c n k.1 .gather o →
      let outs := m0.bagOuts o p k.2.1
      let ins := [m0.refAt p (o.ref 1), m0.refAt p (o.ref 2)]
      let x := (m0.gatherReads i p ins).fetchTiles p ins
      let y := x.1.readBags c o p i (x.2.1.getD 0 []) (x.2.1.getD 1 [])
      let h := (o.ref 0).handle
      let ext := match y.1.tensor? p h with | some t => t.desc.ext.d1 | none => 0
      let ps := y.2.positions
      let out : Bool := y.2.idx.any fun x => !padIndex y.2.fmt x && ext ≤ x
      let z := (y.1.checkRows i p h (ps.map fun q => y.2.idx.getD q 0)).readRows i p h (ps.map fun q => (q, y.2.idx.getD q 0))
      let b := z.1.finishBags o p i k.2.1 y.2 (z.2.1.foldl (fun a r => mapSet a r.1 r.2) [])
      (∀ r tm, m0.shardRec p o = some (r, tm) → exec k.2.2 s = .next (s.settled (m0.bagShard c tm k.2.1 o p i)))
      ∧ (m0.shardRec p o = none →
        (∀ e, x.2.2 = some e → exec k.2.2 s = .next (s.settled (x.1.stationFault c outs e)))
        ∧ (x.2.2 = none → out → exec k.2.2 s = .next (s.settled
            (y.1.stationFault c outs { code := fcIndex, handle := (o.ref 1).handle, coord := refCoord (o.ref 1) })))
        ∧ (∀ e, x.2.2 = none → out = false → z.2.2 = some e →
            exec k.2.2 s = .next (s.settled (z.1.stationFault c outs e)))
        ∧ (x.2.2 = none → out = false → z.2.2 = none →
            exec k.2.2 s = .next (s.settled (b.1.takeOff c (some i) outs b.2 true)))))
    ∧ (s.m.issuesOn c n .gradMerge .gather o →
      let wr := m0.refAt p (o.ref 2)
      let wi := m0.refAt p (o.ref 3)
      let ins := [m0.refAt p (o.ref 0), m0.refAt p (o.ref 1)] ++ accIns o.acc wr ++ accIns o.acc wi
      let x := (m0.gatherReads i p ins).fetchTiles p ins
      let new := mergeRows (x.1.mergeIns o p (x.2.1.getD 0 []) (x.2.1.getD 1 []))
      let m1 := x.1.count .gather i.die i.idx 0x30 (x.1.mergePads o p (x.2.1.getD 1 []))
      let all := if o.acc then mergeUnion (m1.priorMerged o p (x.2.1.getD 2 []) (x.2.1.getD 3 [])) new else new
      let b := m1.writeMerged c o p i all
      (∀ r tm, m0.shardRec p o = some (r, tm) → exec (.gradMerge c n) s = .next (s.settled (m0.mergeShard c tm o p i)))
      ∧ (m0.shardRec p o = none →
        (∀ e, x.2.2 = some e → exec (.gradMerge c n) s = .next (s.settled (x.1.stationFault c [wr, wi] e)))
        ∧ (x.2.2 = none →
          exec (.gradMerge c n) s = .next (s.settled (b.1.takeOff c (some i) [wr, wi] b.2 true)))))

/-- A Marver operation that issues reads its input, or faults its output. QUANT encodes the values into the output's record by
the history of its tensor (R84 to R99); where no record can be made the abort has been taken. MEASURE takes the largest
magnitude and the count of nonfinite values into the group and writes nothing (R485). DEQUANT writes the record's values,
unrotated, as floats (R72, R88). -/
def Obligations.MarverOperationsIssue : Prop :=
  ∀ (s : State) (c n : Nat) (o : Op) (t u : Tensor),
    let p := (s.m.ctx c).part
    let i := instOf .marver n
    let m0 := s.m.noted c n .marver o
    let a := m0.refAt p (o.ref 0)
    let w := m0.refAt p (o.ref 1)
    let x := m0.fetchTiles p [a]
    (s.m.issuesOn c n .quant .marver o →
      (∀ e, x.2.2 = some e → exec (.quant c n) s = .next (s.settled (x.1.stationFault c [w] e)))
      ∧ (x.2.2 = none → x.1.tensor? p a.1 = some t →
        let use := match x.1.ctxKind c with | some .forward | some .backward => EncUse.step | _ => EncUse.aside
        let y := x.1.encodeInto (some i) marverRegs p (x.1.ctx c).group w.1 w.2 use (t.values a.2 (x.2.1.headD []))
        (y.2 = none → exec (.quant c n) s = .next (s.settled y.1))
        ∧ (∀ r, y.2 = some r → exec (.quant c n) s = .next (s.settled ((y.1.noteRep c w.1).takeOff c (some i) [w] [r] true)))))
    ∧ (s.m.issuesOn c n .measure .marver o →
      (∀ e, x.2.2 = some e → exec (.measure c n) s = .next (s.settled (x.1.stationFault c [] e)))
      ∧ (x.2.2 = none → x.1.tensor? p a.1 = some t →
        let v := t.values a.2 (x.2.1.headD [])
        exec (.measure c n) s = .next (s.settled ((x.1.updGroup p (x.1.ctx c).group fun y =>
          { y with measMax := maxMag y.measMax (tileMax (t.geom a.2) (fun _ => false) v)
                   measBad := y.measBad + nonfiniteCount (t.geom a.2) v }).takeOff c (some i) [] [] true))))
    ∧ (s.m.issuesOn c n .dequant .marver o →
      (∀ e, x.2.2 = some e → exec (.dequant c n) s = .next (s.settled (x.1.stationFault c [w] e)))
      ∧ (x.2.2 = none → x.1.tensor? p a.1 = some t → x.1.tensor? p w.1 = some u →
        let m1 := x.1.checkRec .marver i.die i.idx t a.2 (x.2.1.headD [])
        let v := (t.geom a.2).memo (t.valuesU a.2 (x.2.1.headD []))
        exec (.dequant c n) s = .next (s.settled (m1.takeOff c (some i) [w]
          [⟨w.1, w.2, u.writeFloat w.2 (m1.rawTile p w.1 w.2) false v, false⟩] true))))

/-- A GEMM that issues reads its operand tiles in ascending reduction coordinate, or faults its output. A bench whose cap admits
the passes that its first segment's own tiles need takes it (R145), else the refusal is reported and the operation stays where it was.
One that is taken is in flight with its operands and its plan of segments (R124); free of faults it runs its plan, and where a
fault of the bench falls in a row of it, that row is taken to the Strain check (R337 to R341). -/
def Obligations.GemmIssues : Prop :=
  ∀ (s : State) (c n : Nat) (cuts : List (Nat × Nat)) (fault : Option BenchFault) (o : Op) (r : GemmRun) (t : Tensor),
    let p := (s.m.ctx c).part
    let i := instOf .bench n
    let m0 := s.m.noted c n .bench o
    let w := m0.refAt p (o.ref 2)
    let x := m0.fetchTiles p (m0.gemmIns o p)
    s.m.issuesOn c n .gemm .bench o →
      (∀ e, x.2.2 = some e → exec (.gemm c n cuts fault) s = .next (s.settled (x.1.stationFault c [w] e)))
      ∧ (x.2.2 = none → x.1.gemmRun o p x.2.1 = some r → x.1.tensor? p w.1 = some t →
        x.1.benchTakes p (benchNum i) 0 ((planOf r.k cuts).headD (r.k, 0)).1 r = false →
          exec (.gemm c n cuts fault) s = .next (s.settled (x.1.refusePasses c p i)))
      ∧ (x.2.2 = none → x.1.gemmRun o p x.2.1 = some r → x.1.tensor? p w.1 = some t →
        x.1.benchTakes p (benchNum i) 0 ((planOf r.k cuts).headD (r.k, 0)).1 r →
        let m1 := (((x.1.gemmIns o p).zip x.2.1).take (2 * r.k)).foldl (fun m q =>
          match m.tensor? p q.1.1 with | some u => m.checkRec .bench i.die i.idx u q.1.2 q.2 | none => m) x.1
        let op := (m1.ctx c).pc
        let g : Gemm := { ctx := c, op := op, part := p, o := o, tiles := x.2.1, bench := none, plan := planOf r.k cuts }
        let m2 := ({ m1 with gemms := m1.gemms ++ [g] }.takeOff c (some i) [w] [] true).beginSeg g r (benchNum i)
        ((∀ f, fault = some f → ¬ (f.red < r.k ∧ f.row < r.rows)) →
          exec (.gemm c n cuts fault) s = .next (s.settled (Mach.runPlan c op r.k r (r.k + 1) m2)))
        ∧ (∀ f, fault = some f → f.red < r.k → f.row < r.rows → exec (.gemm c n cuts fault) s =
            .next (s.settled (m2.meetFault c op r t w.2 (m2.prior p w x.2.1 o.acc (2 * r.k)) f))))

/-- A Jacks operation that issues reads its sources (and with acc its output), computes each output element as R137 to R142 say,
counts the NaNs made, and leaves its output in flight. REDUCE_MAX and REDUCE_MIN have two outputs, the winners'
values and places (R134, R135). -/
def Obligations.JacksOperationsIssue : Prop :=
  ∀ (s : State) (c n : Nat) (o : Op) (t u v : Tensor),
    let p := (s.m.ctx c).part
    let i := instOf .jacks n
    let m0 := s.m.noted c n .jacks o
    (∀ k ∈ ([(.elementwise, o.refs.length - 1, ewRun, .elementwise c n), (.norm, 2, normRun, .norm c n),
          (.softmax, 1, softmaxRun, .softmax c n), (.reduceSum, 1, reduceSumRun, .reduceSum c n)] :
          List (OpKind × Nat × (Mach → Op → Nat → List Src → (Dim4 → Word) × Nat) × Instr)),
      s.m.issuesOn c n k.1 .jacks o →
      let ins := (List.range k.2.1).map fun j => m0.refAt p (o.ref j)
      let w := m0.refAt p (o.ref k.2.1)
      let x := m0.fetchTiles p (ins ++ accIns o.acc w)
      (∀ e, x.2.2 = some e → exec k.2.2.2 s = .next (s.settled (x.1.stationFault c [w] e)))
      ∧ (x.2.2 = none → x.1.tensor? p w.1 = some t →
        let srcs := (ins.zipIdx).filterMap fun q => (x.1.tensor? p q.1.1).map fun u => u.src q.1.2 (x.2.1.getD q.2 [])
        let r := k.2.2.1 x.1 o p srcs
        let g := t.geom w.2
        let val := g.memo r.1
        let old := x.1.prior p w x.2.1 o.acc k.2.1
        let accN := if !o.acc then 0 else ((g.all.filter g.inside).map fun y =>
          made (fpAdd (plainValue t.desc.fmt g old y) (val y)) [plainValue t.desc.fmt g old y, val y]).sum
        exec k.2.2.2 s = .next (s.settled ((x.1.count .jacks i.die i.idx 0x20
          (r.2 + accN)).takeOff c (some i) [w] [⟨w.1, w.2, t.writeFloat w.2 old o.acc val, false⟩] true))))
    ∧ (∀ k ∈ ([(.reduceMax, true, .reduceMax c n), (.reduceMin, false, .reduceMin c n)] : List (OpKind × Bool × Instr)),
      s.m.issuesOn c n k.1 .jacks o →
      let a := m0.refAt p (o.ref 0)
      let w := m0.refAt p (o.ref 1)
      let l := m0.refAt p (o.ref 2)
      let x := m0.fetchTiles p [a]
      (∀ e, x.2.2 = some e → exec k.2.2 s = .next (s.settled (x.1.stationFault c [w, l] e)))
      ∧ (x.2.2 = none → x.1.tensor? p a.1 = some t → x.1.tensor? p w.1 = some u → x.1.tensor? p l.1 = some v →
        let src := t.src a.2 (x.2.1.headD [])
        exec k.2.2 s = .next (s.settled (x.1.takeOff c (some i) [w, l]
          [⟨w.1, w.2, u.writeFloat w.2 (x.1.rawTile p w.1 w.2) false fun y => (reduceWinner k.2.1 src (fld o.param 1 0) y).2, false⟩,
           ⟨l.1, l.2, writeIndex v.desc.fmt (v.geom l.2) (x.1.rawTile p l.1 l.2) fun y =>
              (reduceWinner k.2.1 src (fld o.param 1 0) y).1, false⟩] true))))

/-- A Lehr operation that issues: UPDATE and ROW_UPDATE read what they update, compute, and leave the tiles in flight, wait for
journal room, or have taken the abort (R172 to R190); where a reading fails, the tiles are journaled before the fault spoils them
(R186). SNAPSHOT completes with the source's content in the source's own form, poison with it (R189), and in a step that is no
multiple of the interval does nothing (R219 to R223). -/
def Obligations.LehrOperationsIssue : Prop :=
  ∀ (s : State) (c n : Nat) (o : Op) (t : Tensor) (g : Group),
    let p := (s.m.ctx c).part
    let i := instOf .lehr n
    let m0 := s.m.noted c n .lehr o
    (s.m.issuesOn c n .update .lehr o →
      let x := m0.updateFetch o p
      let r := x.1.updateWith c o p i x.2.1
      (∀ e, x.2.2 = some e → exec (.update c n) s = .next (s.settled (x.1.lehrFault c p i (m0.updateKinds o p) e)))
      ∧ (∀ ws, x.2.2 = none → r.2 = .done ws →
        exec (.update c n) s = .next (s.settled (r.1.takeOff c (some i) (m0.updateOuts o p) ws true)))
      ∧ (x.2.2 = none → r.2 = .gone → exec (.update c n) s = .next (s.settled r.1))
      ∧ (x.2.2 = none → r.2 = .wait → exec (.update c n) s = .next (s.settled (r.1.lehrOff c i (m0.updateOuts o p) .wait))))
    ∧ (s.m.issuesOn c n .rowUpdate .lehr o →
      let h := (o.ref 2).handle
      let x := m0.fetchTiles p [m0.refAt p (o.ref 0), m0.refAt p (o.ref 1)]
      let list := x.1.rowList o p (x.2.1.getD 0 []) (x.2.1.getD 1 [])
      let fine := list.filter fun q => q.1 < t.desc.ext.d1
      let tiles := rowTiles t fine
      let outs := tiles.flatMap fun k => [(h, k), (h + 1, k)]
      let kinds := tiles.flatMap fun k => [(h, k, 4), (h + 1, k, 1)]
      let y := (x.1.noteTiles p i outs).fetchTiles p outs
      let r := y.1.rowUpdateWith c o p i list tiles y.2.1
      (∀ e, x.2.2 = some e → exec (.rowUpdate c n) s = .next (s.settled (x.1.stationFault c [] e)))
      ∧ (x.2.2 = none → x.1.tensor? p h = some t →
        (fine.length < list.length → exec (.rowUpdate c n) s = .next (s.settled
          (x.1.lehrFault c p i kinds { code := fcIndex, handle := (o.ref 1).handle, coord := refCoord (o.ref 1) })))
        ∧ (list.length ≤ fine.length →
          (∀ e, y.2.2 = some e → exec (.rowUpdate c n) s = .next (s.settled (y.1.lehrFault c p i kinds e)))
          ∧ (y.2.2 = none → exec (.rowUpdate c n) s = .next (s.settled (r.1.lehrOff c i outs r.2))))))
    ∧ (s.m.issuesOn c n .snapshot .lehr o → m0.group? p (m0.ctx c).group = some g →
      let a := m0.refAt p (o.ref 0)
      let w := m0.refAt p (o.ref 1)
      let old := m0.rawTile p a.1 a.2
      let bad := (t.mark a.2).poisoned || (m0.suspects (t.tileAddr a.2) (t.tileLen a.2)).any fun cw =>
        match m0.cwClass cw with | .poison | .bad => true | _ => false
      (g.kind = .training → g.step % (max 1 g.snapInt) ≠ 0 →
        exec (.snapshot c n) s = .next (s.settled (m0.takeOff c (some i) [] [] true)))
      ∧ (¬ (g.kind = .training ∧ g.step % (max 1 g.snapInt) ≠ 0) → m0.tensor? p a.1 = some t →
        (m0.shapeTile p (m0.ctx c).group w.1 w.2 (t.form a.2) = none →
          exec (.snapshot c n) s = .next (s.settled (m0.abortStep p (m0.ctx c).group 3 old.length true)))
        ∧ (∀ m1, m0.shapeTile p (m0.ctx c).group w.1 w.2 (t.form a.2) = some m1 →
          exec (.snapshot c n) s = .next (s.settled ((m1.updGroup p (m0.ctx c).group fun y =>
            { y with snaps := if y.snaps.contains (g.step, w.1) then y.snaps else y.snaps ++ [(g.step, w.1)] }).takeOff c (some i)
              [w] [⟨w.1, w.2, old, bad⟩] true)))))

/-- PUT, PUT_SIGNAL and GET on an engine whose priority class is enabled read their tiles and the fabric descriptor, or fault.
With a descriptor that is good, PUT sends the source in packets: the descriptor with the first, which carries 2,016 bytes, then
2,048 bytes each, the last one marked, with the signal where the operation is PUT_SIGNAL; GET sends one read request (R313 to
R315; log entry 17: how a transfer is cut into packets). They stay in flight until the transfer is acknowledged. -/
def Obligations.FabricTransfersIssue : Prop :=
  ∀ (s : State) (c n : Nat) (o : Op) (d : FabDesc),
    let p := (s.m.ctx c).part
    let i := instOf .pontil n
    let m0 := s.m.noted c n .pontil o
    (∀ k ∈ ([(.put, false, .put c n), (.putSignal, true, .putSignal c n)] : List (OpKind × Bool × Instr)),
      s.m.issuesOn c n k.1 .pontil o →
      let x := m0.fetchTiles p [m0.refAt p (o.ref 0), m0.refAt p (o.ref 1)]
      (∀ e, x.2.2 = some e → exec k.2.2 s = .next (s.settled (x.1.stationFault c [] e)))
      ∧ (x.2.2 = none → bitAt (x.1.reg .pontil i.die i.idx 8) (2 + fld o.param 7 6) →
        FabDesc.ofBytes k.2.1 (x.2.1.getD 1 []) = some d →
        let data := x.2.1.getD 0 []
        let ps := data.take 2016 :: (if data.length ≤ 2016 then []
          else pieces 2048 (ceilDiv (data.length - 2016) 2048) (data.drop 2016))
        exec k.2.2 s = .next (s.settled ((ps.zipIdx.foldl (fun m y =>
          let last := y.2 + 1 == ps.length
          m.send p (fld o.param 7 6) (fld o.param 5 0) d.module d.part (if k.2.1 && last then ptWriteSignal else ptWrite)
            ((if y.2 = 0 then 16 else 0) + (if last then 32 else 0)) (if k.2.1 && last then d.signal else 0)
            (d.offset + (if y.2 = 0 then 0 else 2016 + 2048 * (y.2 - 1))) (m.ctxEpoch c) none
            ((if y.2 = 0 then fitBytes 32 (x.2.1.getD 1 []) else []) ++ y.1)
            (if last then some (c, (x.1.ctx c).pc) else none)) x.1).takeOff c (some i) [] [] false))))
    ∧ (s.m.issuesOn c n .get .pontil o →
      let w := m0.refAt p (o.ref 1)
      let x := m0.fetchTiles p [m0.refAt p (o.ref 0)]
      (∀ e, x.2.2 = some e → exec (.get c n) s = .next (s.settled (x.1.stationFault c [w] e)))
      ∧ (x.2.2 = none → bitAt (x.1.reg .pontil i.die i.idx 8) (2 + fld o.param 7 6) →
        FabDesc.ofBytes false (x.2.1.getD 0 []) = some d →
        let len := match x.1.tensor? p w.1 with | some t => t.tileLen w.2 | none => 0
        exec (.get c n) s = .next (s.settled ((x.1.send p (fld o.param 7 6) (fld o.param 5 0) d.module d.part ptReadReq 48 0
          d.offset (x.1.ctxEpoch c) none (fitBytes 32 (x.2.1.getD 0 []) ++ toLe 4 len) (some (c, (x.1.ctx c).pc))).takeOff
            c (some i) [w] [⟨w.1, w.2, zeroBytes len, false⟩] false))))

/-- A COLLECTIVE that issues reads its inputs, takes the group's next bucket number, and stands in flight with what it brings;
an ALL_REDUCE or REDUCE_SCATTER asks for its Jacks engines, or is counted as one that waits for them (R324); then the group's chunks that
may leave now leave in the order of buckets (R321 to R329). JACKS_RESERVE_GRANT gives the engines to the group's oldest exchange that waits for them. -/
def Obligations.CollectivesIssue : Prop :=
  ∀ (s : State) (c n : Nat) (faults : List FoldFault) (o : Op) (g : Group) (cg : Nat) (k0 : Coll) (ks : List Coll),
    let p := (s.m.ctx c).part
    let i := instOf .pontil n
    let m0 := s.m.noted c n .pontil o
    (s.m.issuesOn c n .collective .pontil o →
      let cg := fld o.param 4 0
      let kind := collKind o.param
      let root := collRoot o.param
      let r := m0.cgRec cg
      let hs := o.refs.map (·.handle)
      let pairs : List (Nat × Nat) :=
        if kind = 4 then hs.map fun h => (h, h)
        else (List.range (hs.length / 2)).map fun j => (hs.getD (2 * j) 0, hs.getD (2 * j + 1) 0)
      let all (h : Nat) : List (Nat × Nat) := match m0.tensor? p h with
        | some t => (List.range t.desc.tileCount).map fun k => (h, k) | none => []
      let ins := (pairs.zipIdx).flatMap fun q =>
        if kind = 4 ∧ root ≠ cgRank r then [] else (all q.1.1).map fun w => (q.2, w)
      let outs := pairs.flatMap fun q => all q.2
      let x := m0.fetchTiles p (ins.map (·.2))
      (∀ e, x.2.2 = some e → exec (.collective c ⟨n, faults⟩) s = .next (s.settled (x.1.stationFault c outs e)))
      ∧ (x.2.2 = none → x.1.group? p (m0.ctx c).group = some g →
        let bucket := mapGetD g.buckets cg 0
        let k : Coll :=
          { ctx := c, op := (m0.ctx c).pc, cgroup := cg, bucket := bucket, epoch := g.sendEpoch, kind := kind
            rop := collOp o.param, root := root, pairs := pairs, stage := if kind ≤ 1 then 0 else 5, faults := faults
            step := g.step
            held := (ins.zip x.2.1).foldl (fun h q => mapSet h (holdKey 0 q.1.1 q.1.2.2) q.2) [] }
        let m1 := (x.1.updGroup p (m0.ctx c).group fun y => { y with buckets := mapSet y.buckets cg (bucket + 1) }).takeOff c
          (some i) outs [] false
        let m2 : Mach := { m1 with colls := m1.colls ++ [k] }
        let m3 := if kind ≤ 1 then m2.jacksReserve p k else m2
        exec (.collective c ⟨n, faults⟩) s = .next (s.settled
          ((if m3.colls.any fun q => q.ctx == c && q.op == (m0.ctx c).pc && q.bucket == bucket && q.stage == 0
            then m3.dadd (0x5100 + cg) 0x12 1 else m3).sendGroup p cg))))
    ∧ (sortBy (fun k => k.bucket) (s.m.colls.filter fun k => k.cgroup == cg && k.stage == 0 && k.kind ≤ 1) = k0 :: ks →
      exec (.jacksReserveGrant cg) s = .next (s.settled (s.m.jacksReserve (s.m.ctx k0.ctx).part k0)))

/-- The control operations that issue, and the completion of an operation (R34, R35, R43, R193, R198, R260, R286, R287). A backward
operation whose outputs the device still holds from the forward pass is elided: it takes off with nothing to write and is counted.
An operation that names a tensor whose record is damaged faults its stream with FAULT_POISON instead of issuing. SYNC and END wait
for the operations in flight and give their signal; END begins the next repetition or, after the last, makes the context DONE;
BARRIER arrives at its barrier, whose die's SYNC is enabled; STEP_BOUNDARY enters the agreement, and in a step that is aborted its group first gives up its
collectives and its places at fabric barriers (R290); OP_COMPLETE lands what an operation that needs nothing more wrote, on its own instance or on
one that stands in for it (R268), its cycles counted by a free number (log entry 25), unless the parity of the instance's configuration
is wrong or was found so: then it goes to another instance (R375, R376); with no instance it waits. -/
def Obligations.StreamControlCompletes : Prop :=
  ∀ (s : State) (c n op q bad : Nat) (cuts : List (Nat × Nat)) (fault : Option BenchFault) (faults : List FoldFault) (o : Op)
    (g : Group) (f : Flight),
    let x := s.m.ctx c
    (∀ k ∈ ([(.gemm, .bench, .gemm c n cuts fault), (.elementwise, .jacks, .elementwise c n), (.norm, .jacks, .norm c n),
          (.softmax, .jacks, .softmax c n), (.reduceSum, .jacks, .reduceSum c n), (.reduceMax, .jacks, .reduceMax c n),
          (.reduceMin, .jacks, .reduceMin c n), (.quant, .marver, .quant c n), (.dequant, .marver, .dequant c n),
          (.measure, .marver, .measure c n), (.copy, .gather, .copy c n), (.bagSum, .gather, .bagSum c n),
          (.bagMean, .gather, .bagMean c n), (.bagMax, .gather, .bagMax c n), (.gradMerge, .gather, .gradMerge c n),
          (.update, .lehr, .update c n), (.rowUpdate, .lehr, .rowUpdate c n), (.snapshot, .lehr, .snapshot c n),
          (.put, .pontil, .put c n), (.putSignal, .pontil, .putSignal c n), (.get, .pontil, .get c n),
          (.collective, .pontil, .collective c ⟨n, faults⟩)] : List (OpKind × StKind × Instr)),
        s.m.issuable c k.1 = some o →
          (s.m.elidable c o → exec k.2.2 s =
            .next (s.settled ((s.m.dadd (0x2030 + x.part) 0x15 1).takeOff c none [] [] true)))
          ∧ (s.m.elidable c o = false → s.m.instReady x.part (instOf k.2.1 n) → s.m.instPart (instOf k.2.1 n) = x.part →
            s.m.usesBad x.part o = some (q, bad) →
              let y := s.m.metaFault x.part q 0 bad
              exec k.2.2 s = .next (s.settled (y.1.opFault c [] y.2))))
    ∧
    let sig (m : Mach) : Mach := if o.signalEn then m.ctxSignal c o.signalCtr else m
    (s.m.issuable c .sync = some o → x.flights = [] → exec (.sync c) s = .next (s.settled ((sig s.m).advance c)))
    ∧ (s.m.issuable c .barrier = some o → x.flights = [] →
        s.m.syncOn (barRef s.m.mode x.part (ctxDie c) (fld o.param 8 0)).die →
        exec (.barrier c) s = .next (s.settled (s.m.arrive (barRef s.m.mode x.part (ctxDie c) (fld o.param 8 0)) c
          (fld o.param 21 16) (fld o.param 28 24))))
    ∧ (s.m.issuable c .opEnd = some o → s.m.group? x.part x.group = some g → x.flights = [] →
        ((g.rpt ≠ 0 ∧ g.rpt ≤ x.rep + 1) → exec (.opEnd c) s = .next (s.settled
          (((sig s.m).updCtx c fun y => { y with st := .done, waitOk := false, waitFor := none }).closeReps x.part x.group)))
        ∧ (¬ (g.rpt ≠ 0 ∧ g.rpt ≤ x.rep + 1) → exec (.opEnd c) s = .next (s.settled
          ((((sig s.m).updCtx c fun y => { y with pc := 0, rep := y.rep + 1, waitOk := false, passed := false }).enterRep c).closeReps
            x.part x.group))))
    ∧ (∀ pc, s.m.boundaryReady c = some (pc, o) → s.m.group? x.part x.group = some g →
        (g.abortCode = 0 → exec (.stepBoundary c) s = .next (s.settled (s.m.issueBoundary c pc o)))
        ∧ (g.abortCode ≠ 0 → exec (.stepBoundary c) s = .next (s.settled
          ((((((s.m.abandonColls x.part x.group).abandonBars x.part x.group).dropWaits (.ctx c)).barStop c).updCtx c fun y =>
            { y with st := .running, waitFor := none, waitOk := false, passed := false, pc := pc, want := .nothing }).issueBoundary
              c pc o))))
    ∧ ((x.flights.find? fun f => f.op == op) = some f → f.ready → s.m.gemmEnds c op →
        (f.outs.all fun w => s.m.tileServed x.part w.1 w.2) →
        (s.m.endsOn c f = none → exec (.opComplete c op) s = .next (s.settled s.m))
        ∧ (∀ e, s.m.endsOn c f = some e →
          let m1 := (((s.m.tookTime e).opDone e).gemmLand c op).landFlight c op
          (e.filter s.m.withholds = none → exec (.opComplete c op) s = .next (s.settled (match (s.m.opsOf c)[op]? with
            | some q => m1.releaseRead c q f.outs
            | none => m1)))
          ∧ (∀ i, e.filter s.m.withholds = some i →
            exec (.opComplete c op) s = .next (s.settled ((s.m.parityFound i.die (slotOf i.kind.blk i.idx)).reissue c op f)))))

/-- Watchdogs (R294, R295, R331): a context that waits for a counter, a barrier or a held place is faulted by its watchdog; an
exchange of the fabric in flight is faulted by its own, a collective's group is marked lost; a round of agreement or of
acknowledgement that expires faults the context of its STEP_BOUNDARY. -/
def Obligations.WatchdogsFault : Prop :=
  ∀ (s : State) (c op p g : Nat) (k : Coll) (o o' : Op) (x : Group) (pc : Nat),
    let m := s.m
    let wd (m : Mach) (p : Nat) : Mach := m.dadd (0x5040 + p) 0x15 1
    (c < 32 → (m.ctx c).st = .waiting → (m.ctx c).faulty = false →
      ((m.ctx c).waitFor = some .counter ∨ (m.ctx c).waitFor = some .barrier ∨ (m.ctx c).waitFor = some .gateHeld) →
      exec (.waitWatchdogExpire c) s = .next (s.settled
        (((wd m (m.ctx c).part).count .sync (ctxDie c) 0 0x34 1).faultCtx c (m.ctx c).pc { code := fcWaitWd })))
    ∧ (m.collTimed c op = some k →
      exec (.collectiveWatchdogExpire (.op c op)) s = .next (s.settled
        (((wd { m with colls := m.colls.filter fun q => !(q.ctx == c && q.op == op) } (m.ctx c).part).cgLost k.cgroup).flightFault
          c op { code := fcCollWd })))
    ∧ (m.collTimed c op = none → (m.opsOf c)[op]? = some o →
      (o.kind = .put ∨ o.kind = .get ∨ o.kind = .putSignal) → ((m.ctx c).flights.any fun f => f.op == op && !f.ready) →
      exec (.collectiveWatchdogExpire (.op c op)) s = .next (s.settled
        ((wd m (m.ctx c).part).flightFault c op { code := fcCollWd })))
    ∧ (m.group? p g = some x → m.boundaryOp p g = some (c, pc, o') → (wd m p).statusCg p g = none →
      (x.phase = .agreeing → exec (.collectiveWatchdogExpire (.round p g)) s = .next (s.settled
        (((wd m p).flightFault c pc { code := fcCollWd }).updGroup p g fun y => { y with phase := .running })))
      ∧ (x.phase ≠ .agreeing → x.awaiting.isSome → exec (.collectiveWatchdogExpire (.round p g)) s = .next (s.settled
        ((wd m p).faultCtx c pc { code := fcCollWd }))))
    ∧ (∀ cg, m.group? p g = some x → m.boundaryOp p g = some (c, pc, o') → (wd m p).statusCg p g = some cg →
      (x.phase = .agreeing → exec (.collectiveWatchdogExpire (.round p g)) s = .next (s.settled
        ((((wd m p).cgLost cg).flightFault c pc { code := fcCollWd }).updGroup p g fun y => { y with phase := .running })))
      ∧ (x.phase ≠ .agreeing → x.awaiting.isSome → exec (.collectiveWatchdogExpire (.round p g)) s = .next (s.settled
        (((wd m p).cgLost cg).faultCtx c pc { code := fcCollWd }))))

/-- The events of training steps and checkpoints (R188, R202, R205, R215, R354, R358): AGREED_STATUS, once every rank's status is
held, folds them, completes the STEP_BOUNDARY and agrees the step; CKPT_SHIPPED puts the image of the commit into its slot, its first
4,096 bytes last, and commits it where a clean round came while it was shipping, unless the buddy cannot be reached; DIGESTS_COMPUTED enters the member's own digest and sends it to the others;
DIGEST_TIMEOUT ends the round with result 3; JOURNAL_ROOM_RESUME computes the waiting update anew. -/
def Obligations.StepEventsComplete : Prop :=
  ∀ (s : State) (p g c pc : Nat) (o : Op) (x : Group) (k : Ckpt) (b : Claim) (d : DigestRound) (f : Flight) (i : Inst),
    let m := s.m
    (m.group? p g = some x → m.boundaryOp p g = some (c, pc, o) → x.phase = .agreeing →
      (List.range (m.agreeRanks p g).1).all (fun j => (mapGet x.statuses j).isSome) →
      exec (.agreedStatus p g) s = .next (s.settled (m.agreeWith p g c pc o
        (foldStatus ((List.range (m.agreeRanks p g).1).map fun j => wordsOfBytes (mapGetD x.statuses j []))))))
    ∧ ((m.ckpts.find? fun c => c.part == p) = some k → (m.claims.find? fun c => c.part == p) = some b →
      let m1 : Mach := { m with ckpts := m.ckpts.filter fun x => x.part != p }
      (m1.buddyLost p b → exec (.ckptShipped p) s = .next (s.settled ((m1.ckptFailed p k.step 1).dropHeld p)))
      ∧ (m1.buddyLost p b = false → exec (.ckptShipped p) s = .next (s.settled
        ((match k.clean with | some r => (m1.shipSlot p k).commitSlots p r | none => m1.shipSlot p k).dropHeld p))))
    ∧ ((m.digest.find? fun d => d.part == p) = some d →
      exec (.digestTimeout p) s = .next (s.settled
        (((((({ m with digest := m.digest.filter fun x => x.part != p } : Mach).dset (0x7020 + p) 0x11 3).dset (0x7020 + p) 0x10
          d.step).dadd (0x7020 + p) 0x13 1).fwEvent evDigestTimeout (partDie m.mode p) 0 (some p) (toLe 8 d.step)).dropHeld p)))
    ∧ ((m.digest.find? fun d => d.part == p && !d.computed) = some d → m.digestCg p = none →
      exec (.digestsComputed p) s = .next (s.settled (((({ m with digest := m.digest.map fun (x : DigestRound) =>
        if x.part = p then { x with computed := true, got := mapSet x.got 0 d.mine } else x } : Mach).dictPut (0x7020 + p) 0x15
          (d.mine.drop 16)).dropHeld p).evalDigest p)))
    ∧ (∀ cg, (m.digest.find? fun d => d.part == p && !d.computed) = some d → m.digestCg p = some cg →
      let m1 := ({ m with digest := m.digest.map fun (x : DigestRound) =>
        if x.part = p then { x with computed := true, got := mapSet x.got (cgRank (m.cgRec cg)) d.mine } else x } : Mach).dictPut
          (0x7020 + p) 0x15 (d.mine.drop 16)
      m1.digestCg p = some cg →
      exec (.digestsComputed p) s = .next (s.settled (((m1.noticeAll cg nkDigest d.step
        (BitVec.ofNat 32 (match m.group? p (m.dnum (0x2030 + p) 1) with | some x => x.epoch | none => 0)) d.mine).dropHeld p).evalDigest
          p)))
    ∧ (((m.ctx c).flights.find? fun f => f.jwait) = some f → (m.opsOf c)[f.op]? = some o → f.inst = some i → o.kind = .update →
      m.group? (m.ctx c).part (m.ctx c).group = some x → x.abortCode = 0 →
      let y := m.updateFetch o (m.ctx c).part
      let r := y.1.updateWith c o (m.ctx c).part i y.2.1
      (∀ e, y.2.2 = some e → exec (.journalRoomResume c) s = .next (s.settled (y.1.lehrLate c f.op (m.ctx c).part i (y.1.updateKinds o (m.ctx c).part) e)))
      ∧ (y.2.2 = none → exec (.journalRoomResume c) s = .next (s.settled (r.1.lehrAgain c f.op i r.2))))

/-- A packet that arrives at a port that is up, addressed to this module and one of its partitions, is taken by the transport
(R310, R311): a TACK and a REFUSE go to the sending flow; of the others the one that is expected is taken and, where it is good,
acknowledged with those that follow it; one at most 256 ahead is kept with the port it came by; one that has been taken already is acknowledged again; any
other is dropped. A TACK or REFUSE that comes by another partition's port is dropped (R300). Every packet row and notice row of the table is such a packet (R326 for the notices' kinds). -/
def Obligations.PacketsAreTaken : Prop :=
  ∀ (s : State) (q : Nat) (h : PktHdr) (e : ExtHdr) (data : Bytes),
    let m := s.m
    let p := fld h.flags.toNat 1 0
    let notice (k : Nat) : Option ExtHdr := some { e with level := k * 16 + e.level % 16 }
    let rx := m.rxFlow h
    let d := (h.tseq + 2 ^ 24 - rx.expect) % 2 ^ 24
    q < m.portCount → (m.port q).isUp → m.modNum ≠ 0xFFFF → h.dstModule = m.modNum → m.partOk p → data.length ≤ 2048 →
      (h.resv = false → m.portPart q = p → exec (.pktTack q h) s = .next (s.settled (m.takeTack p h))
        ∧ exec (.pktRefuse q h data) s = .next (s.settled (m.takeRefuse p h (leAt data 0 1))))
      ∧ (m.portPart q ≠ p → exec (.pktTack q h) s = .next (s.settled m) ∧ exec (.pktRefuse q h data) s = .next (s.settled m))
      ∧ ∀ r ∈ ([(.pktWrite q h data, ⟨ptWrite, h, none, data⟩), (.pktWriteSignal q h data, ⟨ptWriteSignal, h, none, data⟩),
          (.pktReadReq q h data, ⟨ptReadReq, h, none, data⟩), (.pktReadResp q h data, ⟨ptReadResp, h, none, data⟩),
          (.pktCollChunk q h e data, ⟨ptColl, h, some e, data⟩), (.noticeStatus q h e data, ⟨ptNotice, h, notice nkStatus, data⟩),
          (.noticeBarrierArrive q h e data, ⟨ptNotice, h, notice nkBarrier, data⟩),
          (.noticeResend q h e data, ⟨ptNotice, h, notice nkResend, data⟩),
          (.abortNotice q h e data, ⟨ptNotice, h, notice nkAbort, data⟩),
          (.digestNotice q h e data, ⟨ptNotice, h, notice nkDigest, data⟩),
          (.commitAck q h e, ⟨ptNotice, h, notice nkAck, []⟩)] : List (Instr × Packet)),
        (d = 0 → ∀ m' rx', m.takePacket p (some q) r.2 rx = some (m', rx') →
          let y := drainEarly p 256 m' { rx' with expect := (rx'.expect + 1) % 2 ^ 24 }
          exec r.1 s = .next (s.settled ((y.1.putRx h y.2).ackRx h y.2)))
        ∧ (d = 0 → m.takePacket p (some q) r.2 rx = none → exec r.1 s = .next (s.settled (m.rxBusy p r.2)))
        ∧ (d ≠ 0 → d ≤ 256 → exec r.1 s = .next (s.settled
            (if rx.early.any fun k => k.2.hdr.tseq == h.tseq then m
              else m.putRx h { rx with early := rx.early ++ [(some q, r.2)] })))
        ∧ (2 ^ 23 ≤ d → exec r.1 s = .next (s.settled (m.ackRx h rx)))
        ∧ (256 < d → d < 2 ^ 23 → exec r.1 s = .next (s.settled m))

/-- The transport's timers and the links (R302 to R308, R311, R330): retransmission, an unreachable destination, the symbols of a
flit that is good or not, a replay (the 32nd in a row retrains the port), a fast retrain, a port that goes down, and a port that
comes up with its peer, or comes back with what it has to replay. -/
def Obligations.LinksAndTimersComplete : Prop :=
  ∀ (s : State) (q n p module dp : Nat) (f : TxFlow) (symbols : List (List Nat)) (o : PortObs),
    let m := s.m
    let i := m.pontilOf f.part f.engine
    let m1 : Mach := let k := (m.count .pontil i.die i.idx 0x1C f.unacked.length).dadd 0x5001 0x16 f.unacked.length
      { k with tx := k.tx.set n { f with retries := f.retries + 1 } }
    (m.tx[n]? = some f → f.unacked ≠ [] →
      (f.module = m1.modNum → exec (.retxTimerExpire n) s = .next (s.settled { m1 with loop := m1.loop ++ f.unacked }))
      ∧ (f.module ≠ m1.modNum → ∀ k, m1.flowPort f.part f.engine f.channel f.module f.dpart f.port = some k →
        exec (.retxTimerExpire n) s = .next (s.settled (f.unacked.foldl (fun m pk => m.putPort k pk)
          { m1 with tx := m1.tx.set n { f with retries := f.retries + 1, port := some k } })))
      ∧ (f.module ≠ m1.modNum → m1.flowPort f.part f.engine f.channel f.module f.dpart f.port = none →
        exec (.retxTimerExpire n) s = .next (s.settled m1)))
    ∧ (m.unreach.contains (module, dp) = false →
      (m.tx.any fun f => f.part == p && f.module == module && f.dpart == dp && !f.unacked.isEmpty) →
      let gone (f : TxFlow) : Bool := f.part == p && f.module == module && f.dpart == dp && !f.unacked.isEmpty
      let m2 := m.tx.foldl (fun m f => if gone f then
          m.setBit .pontil (m.pontilOf p f.engine).die (m.pontilOf p f.engine).idx 4 4 else m)
        { m with unreach := m.unreach ++ [(module, dp)] }
      let m3 := (List.range 32).foldl (fun m g =>
        match (cgMembers (m.cgRec g)).idxOf? (module, dp) with
        | some k =>
          if !cgDefined (m.cgRec g) then m else
          let old := m.dict? (0x5100 + g) 4
          (m.cgLost g).dictPut (0x5100 + g) 4
            (if (List.range (old.length / 2)).any fun i => leAt old (2 * i) 2 == k then old else old ++ toLe 2 k)
        | none => m) m2
      exec (.destUnreachable p module dp) s = .next (s.settled
        ((m3.fwEvent evDestUnreachable (partDie m3.mode p) 0 (some p) (toLe 2 module ++ toLe 1 dp)).ckptLost p module dp 1)))
    ∧ (q < m.portCount → (m.port q).isUp → symbols.length = 4 → (symbols.all fun c => c.length == 544) →
      let m0 := (m.lineCodewords q symbols).1
      let ds := (m.lineCodewords q symbols).2.map rsDecode
      let bad := ds.countP Option.isNone
      let m2 := (m0.dadd 0x5001 0x13 (ds.countP fun d => match d with | some x => x.2 != 0 | none => false)).dadd 0x5001 0x14 bad
      let bs := ds.flatMap fun d => match d with | some x => x.1 | none => []
      let good := leAt bs 508 4 = (crc32c (bs.take 508)).toNat ∧ fld (leAt bs 0 8) 63 57 = 0
      (bad ≠ 0 → exec (.flitReceive q symbols) s = .next (s.settled (m2.nakPort q)))
      ∧ (bad = 0 → ¬ good → exec (.flitReceive q symbols) s = .next (s.settled (m2.nakPort q)))
      ∧ (bad = 0 → good → exec (.flitReceive q symbols) s = .next (s.settled (m2.takeFlit q bs))))
    ∧ (q < m.portCount → (m.port q).isUp → (m.port q).replay ≠ [] →
      let m2 := (((m.port q).replay.foldl (fun m f => m.sendFlit q 1 false f) m).updPort q fun x =>
        { x with replays := x.replays + 1 }).dadd 0x5001 0x12 (m.port q).replay.length
      ((m.port q).replays + 1 < 32 → exec (.flitReplayTimeout q) s = .next (s.settled m2))
      ∧ (32 ≤ (m.port q).replays + 1 → exec (.flitReplayTimeout q) s = .next (s.settled (m2.retrainPort q))))
    ∧ (q < m.portCount → (m.port q).isUp → exec (.portFastRetrain q) s = .next (s.settled
        ((m.updPort q fun x => { x with st := .retraining }).dadd 0x5001 0x15 1)))
    ∧ (q < m.portCount → (m.port q).st = .retraining →
      let m2 := m.updPort q fun x => { x with st := .training, lanes := 0, replay := [], queue := [], sending := [], ring := [], rxPart := [] }
      exec (.portDown q) s = .next (s.settled (m2.fwEvent evPortDown (portDie m2 q) 0 (some (m2.portPart q)) (toLe 1 q))))
    ∧ (o.port < m.portCount → (m.die (portDie m o.port)).up → (o.lanes = m.portLanes ∨ 2 * o.lanes = m.portLanes) →
      let st : PortSt := if o.lanes = m.portLanes then .up else .degraded
      let peer := some (o.module % 4096, o.part % 4, o.peer % 16)
      let detail := toLe 1 o.port ++ toLe 1 o.lanes ++ toLe 2 (o.module % 4096) ++ toLe 1 (o.part % 4) ++ toLe 1 (o.peer % 16)
      let tell (m : Mach) : Mach :=
        let m : Mach := { m with peers := mapSet m.peers (4096 * m.portPart o.port + o.module % 4096) o.port }
        let m := m.fwEvent evPortUp (portDie m o.port) 0 (some (m.portPart o.port)) detail
        if o.lanes = m.portLanes then m else m.fwEvent evPortDegraded (portDie m o.port) 0 (some (m.portPart o.port)) detail
      ((m.port o.port).st = .training → exec (.portTrained o.port o.lanes o.module o.part ⟨o.peer, o.credits⟩) s = .next (s.settled (tell (m.updPort o.port fun _ =>
        { st := st, lanes := o.lanes, peer := peer, credits := [0, 1, 2].map fun c => o.credits.getD c 0 }))))
      ∧ ((m.port o.port).st = .retraining → exec (.portTrained o.port o.lanes o.module o.part ⟨o.peer, o.credits⟩) s = .next (s.settled ((tell (m.updPort o.port fun x =>
        { x with st := st, lanes := o.lanes, peer := peer, replays := 0 })).replayPort o.port))))

/-- Silent errors (R341 to R347, R349 to R351): a rerun's value decides a dispute as R343 and R344 say, charging the bench that was
wrong or settling it by vote; strikes past their life go; a bench test asks for two benches, which are lent once their rows are done, is counted, and charges
the odd one out by vote; a station that fails its known answer twice is compared with a second one; a self-test leaves its results. -/
def Obligations.SilentErrorEventsComplete : Prop :=
  ∀ (s : State) (b q : Nat) (fault : Option BenchFault) (orig : Bool) (d : Dispute)
    (runs : List FritRun) (l : Loan) (i : Inst) (got again got2 : KavResult) (second : Nat) (rs : List (Nat × Bool × Nat)),
    let m := s.m
    ((m.disputes.find? fun d => m.rerunOk d b && d.runs.length == q) = some d →
      let y := m.rerunTiles d
      let done (x : Mach) : Prop := exec (.strainRerunDone b q fault orig) s = .next (s.settled (m.rowsDone x))
      (∀ e, y.2.2 = some e → done ((({ y.1 with disputes := y.1.disputes.filter fun e => !(e.ctx == d.ctx && e.op == d.op) } :
        Mach).dropGemm d.ctx d.op).pumpFences.flightBounds d.ctx d.op e))
      ∧ (∀ value found, y.2.2 = none → y.1.rerunUnit d (fault.getD noFault) y.2.1 = some (value, found) →
        let cause := if found = 0 then (match fault with | some f => f.checker | none => 0) else found
        let agrees := if d.checker then orig else found == 0
        let first := match d.runs with | r :: _ => r.2.1 | [] => []
        let d' := { d with runs := d.runs ++ [(b, (value, (cause == 0, agrees)))] }
        let ran := y.1.count .strain (b / 32) (b % 32) 4 1
        let m1 := if cause = 0 then ran else ran.strainFail b cause
        let m1 : Mach := { m1 with disputes := m1.disputes.map fun e => if e = d then d' else e }
        let step := m1.ctxStep d.ctx
        let h := m1.opHandle d.ctx d.op
        (d.runs.length = 1 → value = first → cause = 0 →
          done (((m1.charge (instIdent (benchInst d.bench) true) d.cause step h).tellDispute d' 1).adopt d' first))
        ∧ (d.runs.length = 1 → value ≠ first → cause = 0 → agrees →
          done (((m1.charge (instIdent (benchInst d.bench) false) d.cause step h).tellDispute d' 2).adopt d' value))
        ∧ (d.runs.length = 1 → (cause ≠ 0 ∨ (value ≠ first ∧ agrees = false)) → done m1)
        ∧ (d.runs.length ≠ 1 → ∀ v, voteOf d'.runs = some v →
          done (((m1.chargeVote d'.runs v d.cause step h).tellDispute d' 3).adopt d' v))
        ∧ (d.runs.length ≠ 1 → voteOf d'.runs = none →
          done (if m1.dnum 0x7001 3 ≤ d'.runs.length then (m1.tellDispute d' 3).unresolved d' else m1))))
    ∧ exec .strikeExpire s = .next (s.settled { m with strikes := m.strikes.filter fun k => m.power.aoMs < k.time + m.strikeLife })
    ∧ (b < 64 → q < 64 → b ≠ q → instOwned m.mode (m.ownerOf (benchInst b)) (benchInst q) → m.inService (benchInst b) →
      m.inService (benchInst q) → m.lent b = false → m.lent q = false →
      ((List.range 64).any fun n => n != b && n != q && instOwned m.mode (m.ownerOf (benchInst b)) (benchInst n)
        && m.inService (benchInst n) && !m.lent n) →
      (m.loans.countP fun l => l.bench / 32 == b / 32) < m.dnum 0x7010 3 →
      let m1 := (m.yieldAt b false).getD m
      let m2 := (m1.yieldAt q false).getD m1
      exec (.fritTestStart b q) s = .next (s.settled ({ m2 with fritWait := m2.fritWait ++ [⟨b, q⟩] } : Mach).pumpLoans))
    ∧ ((m.loans.find? fun l => l.bench == b) = some l →
      let seed := m.dnum 0x7010 4
      let n := m.fritNum
      let m1 := ({ m with loans := m.loans.filter (fun l => l.bench != b), fritNum := n + 1 } : Mach).dadd 0x7010 0x10 1
      let free := (List.range 64).filter fun x => x != b && x != l.partner
        && instOwned m.mode (m.ownerOf (benchInst b)) (benchInst x) && m.inService (benchInst x) && !m.lent x
      let named := dedup (runs.map fun r => r.bench)
      let more := (named.filter free.contains) ++ free.filter fun x => !named.contains x
      let pass (k : Nat) : Bool := fritPass (fritRuns seed n k runs [b, l.partner])
      ((List.range 4).all pass → exec (.fritTestDone b runs) s = .next (s.settled
        ((List.range 4).foldl (fun m k => [b, l.partner].foldl (fun m x => m.fritCount seed n k runs x) m) m1)))
      ∧ ((List.range 4).all pass = false → exec (.fritTestDone b runs) s = .next (s.settled
          ((List.range 4).foldl (fun m k => m.fritPart seed n k runs [b, l.partner] more) (m1.dadd 0x7010 0x11 1)))))
    ∧ exec (.fritLendExpire b) s = .next (s.settled { m with
        loans := m.loans.filter (fun l => l.bench != b), fritWait := m.fritWait.filter fun l => l.bench != b })
    ∧ ((i.kind = .marver ∨ i.kind = .gather ∨ i.kind = .jacks ∨ i.kind = .lehr) → i.die < 2 → i.idx < i.kind.perDie →
      m.inService i → m.instActive i = false → (i.kind = .jacks → (m.colls.any fun k => k.jacks.contains i) = false) →
      let j := instOf i.kind second
      let w := m.wakeInst i
      let kav (m : Mach) (x : Inst) : Mach := if x.kind = .jacks then m.count .jacks x.die x.idx 0x1C 1 else m
      let m1 := kav (w.wakeInst j) i
      let m2 := if kavSame again then m1 else kav m1 i
      (kavSame got → exec (.knownAnswerTest i got again second got2) s = .next (s.settled w))
      ∧ (kavSame got = false → j ≠ i → w.kavFree j → kavSame got2 → exec (.knownAnswerTest i got again second got2) s =
        .next (s.settled (m2.charge (instIdent i false) 6 0 0)))
      ∧ (kavSame got = false → j ≠ i → w.kavFree j → kavSame got2 = false → exec (.knownAnswerTest i got again second got2) s =
        .next (s.settled ((kav m2 j).fwEvent evFritSuspect i.die (slotOf i.kind.blk i.idx) none
          (toLe 2 (instIdent i false) ++ toLe 2 (instIdent j false))))))
    ∧ ((m.dnum 0x7010 6 = 1 ∨ m.dnum 0x7010 6 = 2) → exec (.selftestComplete rs) s = .next (s.settled
      ((m.dictPut 0x7010 7 ((rs.flatMap fun r => toLe 2 r.1 ++ toLe 1 r.2.1.toNat ++ toLe 1 r.2.2).take 1024)).dset 0x7010 6
        (if rs.all fun r => r.2.1 then 3 else 4))))

/-! ### Memory service and stations -/

/-- The planner, the counters, the scrub and the channels (R241, R248, R261, R262, R264 to R266, R268, R271, R274, R275). -/
def Obligations.MemoryServiceCompletes : Prop :=
  ∀ (s : State) (p h k addr par ns : Nat) (later : List Nat) (ups : List (Nat × Nat)) (c : Chan) (t : Tensor) (u : MemUnit) (result : Bytes),
    let m := s.m
    -- the planner looks after the drains, then the tiles that pay in one ranking, and starts to count anew
    (m.moduleState ≠ 0 → m.moduleState ≠ 2 → m.power.deepSteps = 0 →
      let m1 := ([false, true].flatMap fun lp => [0, 1].flatMap fun d =>
          (List.range (if lp then 32 else 64)).map fun i => (⟨lp, d, i⟩ : Chan)).foldl (fun m c =>
        if (m.chan c).state = 1 then (m.drainMoves c).getD (m.drainStops c) else m) m
      let m2 := startMoves m1 (m1.dnum 0x6001 4 * 1000000) (m1.dnum 0x6001 4 * 1000000)
        (rankMoves (((List.range m1.mode).filter m1.isWarm).flatMap m1.candidates))
      exec .plannerTick s = .next (s.settled { m2 with tensors := m2.tensors.map fun t =>
        { t with marks := (t.marks.map fun q => (q.1, { q.2 with near0 := 0, near1 := 0 })).filter fun q => q.2 != {} } }))
    ∧ (m.partOk p → m.warm.contains p = false →
      exec (.countersWarm p) s = .next (s.settled { m with warm := sortBy id (p :: m.warm) }))
    ∧ exec (.tableCounterHalve p) s = .next (s.settled { m with tensors := m.tensors.map fun t =>
        if t.part ≠ p ∨ t.desc.cls ≠ 5 then t else
        { t with marks := (t.marks.map fun q => (q.1, { q.2 with count := q.2.count / 2 })).filter fun q => q.2 != {} } })
    ∧ (m.tensor? p h = some t → (t.mark k).migrating.isSome → exec (.migrationCopyDone p h k) s =
        .next (s.settled (m.updTensor p h fun t => t.setMark k fun x => { x with copied := true }).pumpSwitch))
    -- the patrol reads a codeword that may have been upset: one error is corrected and written back, more are recorded (R261,
    -- R262), and a parity error that stands on the retry is recorded as uncorrectable (R248; its syndrome is free, log entry 79)
    ∧ (let a := addr / 16 * 16
      memUnitOf m.fineMode a = some u →
      let m0 := ({ m with shaky := m.shaky ++ later } : Mach).upset a ups
      m0.memUp a 16 → (∀ c, u.chan? = some c → m0.bit .memc c.die c.memc 0 1) →
      let m1 := if par = 2 ∧ u.tier = .hbm then { m0 with shaky := a :: m0.shaky } else m0
      let m2 := (m1.memRead 1 a 16).1
      let close (m : Mach) : Mach := if a = m.lastCodeword u then m.memCount u 0x24 1 else m
      (∀ i e, m1.cwClass a = .fix i e → (mapGet m2.chk a).isSome → exec (.scrubPatrol ⟨addr, ups, par, later⟩) s =
        .next (s.settled (close ((m2.memCount u 0x14 (writeUnit u.tier / 16)).fixCodeword a i e))))
      ∧ ((∀ i e, m1.cwClass a = .fix i e → (mapGet m2.chk a).isSome = false) → exec (.scrubPatrol ⟨addr, ups, par, later⟩) s =
        .next (s.settled (close m2))))
    -- a channel recalibrates once no channel beside it does; a request that comes too early is kept
    ∧ (c.ok → m.recalOn c = false →
      let held : Bool := !(m.die c.die).up || m.bit .memc c.die c.memc 4 4 || (chanSiblings c).any m.recalOn
      (held = false → exec (.recalibrationTrigger c) s =
        .next (s.settled ((m.updChan c fun x => { x with recalDue := false }).setBit .memc c.die c.memc 4 1)))
      ∧ (held → exec (.recalibrationTrigger c) s = .next (s.settled (m.updChan c fun x => { x with recalDue := true }))))
    ∧ (c.ok → m.bit .memc c.die c.memc 4 1 → m.bit .memc c.die c.memc 4 2 = false → m.bit .memc c.die c.memc 4 4 = false →
      exec (.recalHold c) s = .next (s.settled (m.setBit .memc c.die c.memc 4 2)))
    ∧ (c.ok → m.bit .memc c.die c.memc 4 2 →
      let m1 := (((((m.clrBit .memc c.die c.memc 4 1).clrBit .memc c.die c.memc 4 2).clrBit .memc c.die c.memc 0 2).count .memc c.die
        c.memc 0x28 (min ns 2000 * 14 / 10)).dadd 0x6003 0x10 1).updChan c fun x => { x with svc := if x.svc = 3 then 0 else x.svc }
      exec (.recalibrationEnd c ns) s = .next (s.settled (m1.dset 0x6003 0x11 (max (m1.dnum 0x6003 0x11) (min ns 2000)))))
    -- a channel that has drained leaves service, is trained anew where its clock had failed, and goes off where its parity did
    ∧ (c.ok → (m.chan c).state = 1 → m.chanHolds c = false →
      let m1 := (((m.updChan c fun x => { x with state := 2 }).setChanService c false).drainResult c 0).retrainChan c
      ((m1.die c.die).persistent.contains (160 + c.memc) = false → exec (.channelDrained c) s = .next (s.settled m1))
      ∧ ((m1.die c.die).persistent.contains (160 + c.memc) → exec (.channelDrained c) s = .next (s.settled
        (m1.clrBit .memc c.die c.memc 0 0))))
    ∧ (c.ok → (m.chan c).state = 4 → exec (.marginDone c result) s = .next (s.settled
        ((m.updChan c fun x => { x with state := 2, svc := 0 }).dictPut 0x6020 0x10 (fitBytes (if c.lp then 32 else 144) result))))

/-- A station that is draining and has nothing in progress is drained and out of service (R146, R268, R380); a Pontil hands its engines to the next instance
of its partition first (R318); one that is idle, with no operation that it could take, while its die may gate is gated, keeps its state Retained where that is asked for, and wakes at a signal or at the first access (R293, R412, R413). -/
def Obligations.StationPowerCompletes : Prop :=
  ∀ (s : State) (i : Inst),
    let m := s.m
    let b := i.kind.blk
    let put (x : InstPower) : Mach := { m with power := { m.power with insts := mapSet m.power.insts (Inst.id' i) x } }
    let woken : Mach := { m with power := { m.power with insts := mapDel m.power.insts (Inst.id' i) } }
    (i.die < 2 → i.idx < i.kind.perDie → m.bit b i.die i.idx 0 1 → m.bit b i.die i.idx 0 0 →
      (i.kind ≠ .pontil → m.instActive i = false → exec (.stationDrained i) s = .next (s.settled
        ((m.clrBit b i.die i.idx 0 0).setService i false)))
      ∧ (∀ j, i.kind = .pontil → m.pontilHeir i = some j → exec (.stationDrained i) s =
        .next (s.settled (((m.moveEngines i j).clrBit b i.die i.idx 0 0).setService i false)))
      ∧ (i.kind = .pontil → m.pontilHeir i = none → m.pontilWork i = false → exec (.stationDrained i) s =
        .next (s.settled ((m.clrBit b i.die i.idx 0 0).setService i false))))
    ∧ (m.instOk i → m.bit .sync i.die 0 0 1 → m.instActive i = false → m.instWanted i = false → mapGet m.power.insts (Inst.id' i) = none →
      exec (.stationGate i) s = .next (s.settled (put .gated)))
    ∧ (mapGet m.power.insts (Inst.id' i) = some .gated → exec (.stationWake i) s = .next (s.settled woken))
    ∧ (mapGet m.power.insts (Inst.id' i) = some .retained → exec (.retainedAccess i) s = .next (s.settled woken))
    ∧ (mapGet m.power.insts (Inst.id' i) = some .gated → m.dnum 0x3004 2 = 1 →
      (allIdx m.ctxs fun c x => !ctxOwned m.mode (m.ownerOf i) c || (x.st != .running && x.st != .waiting)) →
      (i.kind = .bench → m.holdsRow (benchNum i) = false) →
      exec (.stationRetain i) s = .next (s.settled (put .retained)))

/-! ### Registers -/

/-- The writes of registers that have rows of their own (R275, R279, R283, R144, R146, R299, R370, R371, R381, R382, R426), control
registers all: each wakes a gated or Retained instance first (R412, R413), takes the written RW bits and starts what the register says;
an instance that the write puts back to work is in service again (R268, R380). A bench that still works on something stays
enabled and drains instead, and goes off when it has drained (R146), and a block reset that names no block is a bad access. -/
def Obligations.RegisterRowsComplete : Prop :=
  ∀ (s : State) (d bench chan mode : Nat) (w : Word) (r : RegRow),
    let m := s.m
    d < 2 → bench < 32 → chan < 96 → mode < 16 →
      ∀ x ∈ ([(.syncFwSignal d w, .sync, d, 0, 0x40), (.syncFwWait d w, .sync, d, 0, 0x44), (.memcRecalReq d chan w, .memc, d, chan, 0),
          (.benchDrain d bench w, .bench, d, bench, 0), (.benchYield d bench w, .bench, d, bench, 0),
          (.csrmapModeWrite d mode w, .csrmap, d, 0, 4 * mode), (.gcntParityInject d w, .gcnt, d, 0, 0x1C),
          (.eventPop d w, .event, d, 0, 0), (.aopmBlockReset w, .aopm, 0, 0, 8)] : List (Instr × Blk × Nat × Nat × Nat)),
        let b := x.2.1
        let e := x.2.2.1
        let i := x.2.2.2.1
        let off := x.2.2.2.2
        let t := m.touch e (slotOf b i)
        let new := t.newWord b e i off r w.toNat
        let put (v : Nat) : Mach := (t.putReg b e i off v).noteOn b e i off (t.atWork b e i)
        m.csrUp e (slotOf b i) → regRow b off = some r →
          (r.cls = .control → t.stillBusy b e i off new = false → noBlock b off new = false → exec x.1 s = .next (s.settled
            ((((put new).noteOff b e i off false).clearBits b e i off w.toNat r).writeEffect b e i off w.toNat)))
          ∧ (r.cls = .control → t.stillBusy b e i off new → noBlock b off new = false → exec x.1 s = .next (s.settled
            ((((put (new ||| 3)).noteOff b e i off true).clearBits b e i off w.toNat r).writeEffect b e i off w.toNat)))
          ∧ (r.cls = .control → noBlock b off new → exec x.1 s = .next (s.settled (t.badAccess 0)))

/-- Accesses by address (R6, R367, R371 to R374, R382). A write of an aligned word wakes the instance and updates its register (AOPM_RESET_CTRL, which
starts resets, has a statement of its own); an alias update computes the word from the one held; a counter that is read is cleared, through the alias window it is not;
the LO word of a time counter latches its HI word; any other size or alignment, and an offset that no map lists, is a bad access. -/
def Obligations.RegisterAccessesComplete : Prop :=
  ∀ (s : State) (addr size d sl o i : Nat) (w : Word) (b : Blk) (r : RegRow),
    let m := s.m
    let a := o - 0x10000
    let t := m.touch d sl
    csrSplit addr = some (d, sl, o) → m.csrUp d sl → blockAt d sl = some (b, i) →
      (size ≠ 4 ∨ addr % 4 ≠ 0 → exec (.csrWrite addr size w) s = .next (s.settled (m.badAccess d)))
      ∧ (addr % 4 = 0 →
        (o < 0x10000 → addr ≠ regAddr .aopm 0 0 0 →
          (regRow b o = none → exec (.csrWrite addr 4 w) s = .next (s.settled (m.badAccess d)))
          ∧ (regRow b o = some r → r.cls = .status →
            exec (.csrWrite addr 4 w) s = .next (s.settled (t.clearBits b d i o w.toNat r)))
          ∧ (regRow b o = some r → r.cls = .counter → exec (.csrWrite addr 4 w) s = .next (s.settled t))
          ∧ (regRow b o = some r → r.cls = .config → t.locked b d i →
            exec (.csrWrite addr 4 w) s = .next (s.settled (t.lockedWrite b d i)))
          ∧ (regRow b o = some r → r.cls = .config → t.locked b d i = false →
            exec (.csrWrite addr 4 w) s = .next (s.settled ((t.putReg b d i o (t.newWord b d i o r w.toNat)).setParity d sl o)))
          ∧ (exec (.csrWrite addr 4 w) s = .next (s.settled (m.regUpd d sl o (fun _ => w.toNat) w.toNat))))
        ∧ (o < 0x10000 → regRow b o = some r → r.cls = .counter → exec (.counterReadClear addr 4) s =
          .next (s.settled ((t.putReg b d i o 0).emit (.csrRead addr (t.regView b d i o)))))
        ∧ (o < 0x10000 → regRow b o = some r → r.cls ≠ .counter → exec (.counterReadClear addr 4) s =
          .next (s.settled ((t.regFound b d i o).1.emit (.csrRead addr (t.regFound b d i o).2))))
        ∧ (0x10000 ≤ o → a < 0x4000 → m.bitMode d sl = false → (regRow b a).isSome → exec (.counterReadClear addr 4) s =
          .next (s.settled ((t.regFound b d i a).1.emit (.csrRead addr (t.regFound b d i a).2))))
        ∧ (0x10000 ≤ o → m.bitMode d sl = false → (regRow b (a % 0x4000)).isSome → noAlias b (a % 0x4000) = false →
          (a < 0x4000 → exec (.aliasSetClearToggle addr w) s =
            .next (s.settled (m.regUpd d sl a (fun old => old ||| w.toNat) 0)))
          ∧ (0x4000 ≤ a → a < 0x8000 → exec (.aliasSetClearToggle addr w) s =
            .next (s.settled (m.regUpd d sl (a % 0x4000) (fun old => old &&& (0xFFFFFFFF ^^^ w.toNat)) w.toNat)))
          ∧ (0x8000 ≤ a → a < 0xC000 → exec (.aliasSetClearToggle addr w) s =
            .next (s.settled (m.regUpd d sl (a % 0x4000) (fun old => old ^^^ w.toNat) 0))))
        ∧ (0x10000 ≤ o → m.bitMode d sl → (regRow b (a / 128 * 4)).isSome → noAlias b (a / 128 * 4) = false →
          exec (.aliasBitWrite addr w) s = .next (s.settled (m.regUpd d sl (a / 128 * 4)
            (fun old => setFld old (a / 4 % 32) (a / 4 % 32) w.toNat) (if w.toNat % 2 = 1 then 2 ^ (a / 4 % 32) else 0)))))
      ∧ (d < 2 → (m.die d).up → exec (.gcntLoRead d false) s = .next (s.settled
        ((m.updDie d fun x => { x with latch := fld x.time 63 32 }).emit
          (.csrRead (regAddr .gcnt d 0 0) (fld (m.die d).time 31 0)))))
      ∧ ((m.die 0).up → exec (.gcntLoRead 0 true) s = .next (s.settled
        ((m.updDie 0 fun x => { x with aoLatch := fld m.power.aoMs 63 32 }).emit
          (.csrRead (regAddr .gcnt 0 0 8) (fld m.power.aoMs 31 0)))))

/-- Configuration parity and the reset control (R375 to R377, R420, R426): a scan that finds a register whose bits have flipped reports it;
the reload writes every configuration register again with what firmware wrote to it last and clears the flag; at the third failure of one register within a second the
instance is drained and leaves service, a memory channel is drained, and a block that has no drain is disabled (log entry 83); a write of AOPM_RESET_CTRL holds and releases dies, and with `warm` set resets them. -/
def Obligations.ParityAndResetRowsComplete : Prop :=
  ∀ (s : State) (d sl off flip i pb lb : Nat) (w : Word) (b : Blk) (inst : Inst),
    let m := s.m
    let mu := m.csrUpset d sl off flip
    let bad := m.badPar.filter fun a => csrBase d sl ≤ a && a < csrBase d sl + 0x10000
    let m1 := m.updDie d fun x => { x with
      parityFails := bad.map (fun a => (a, m.power.aoMs)) ++ x.parityFails.filter fun q => m.power.aoMs < q.2 + 1000 }
    let third := bad.any fun a => 3 ≤ ((m1.die d).parityFails.countP fun q => q.1 == a)
    let ctl := m.reg .aopm 0 0 0
    (d < 2 → m.csrUp d sl → blockAt d sl = some (b, i) → lockBits b = some (lb, some pb) → mu.csrUp d sl →
      mu.badPar.contains (csrAddr d sl off) → mu.bit b d i 4 pb = false → exec (.parityScan d sl ⟨off, flip⟩) s =
        .next (s.settled (((mu.setBit b d i 4 pb).count .gcnt d 0 0x14 1).hwEvent evCfgParity d sl off)))
    ∧ (d < 2 → m.csrUp d sl → blockAt d sl = some (b, i) → lockBits b = some (lb, some pb) → m.parityBad d sl = some off →
      (b = .bench → m.holdsRow (32 * d + i) = false) →
      let reload (m : Mach) : Mach := ((configOffs b).foldl (fun m o =>
        m.regUpd d sl o (mapGetD m.shadow (csrAddr d sl o)) 0) m).regUpd d sl 4 id (2 ^ pb)
      let m2 := (m1.updDie d fun x => { x with persistent := sl :: x.persistent.filter (· != sl) }).fwEvent evCfgParityPersistent d
        sl none (toLe 2 sl ++ toLe 2 off)
      (third = false → exec (.cfgParityReload d sl) s = .next (s.settled (reload m1)))
      ∧ (third = true → blkInst b d i = some inst → exec (.cfgParityReload d sl) s = .next (s.settled
        ((m2.setBit b d i 0 1).setService inst false)))
      ∧ (third = true → b = .memc → exec (.cfgParityReload d sl) s = .next (s.settled
        (((reload m2).beginDrain ⟨64 ≤ i, d, if 64 ≤ i then i - 64 else i⟩).getD (reload m2))))
      ∧ (third = true → blkInst b d i = none → b ≠ .memc → exec (.cfgParityReload d sl) s = .next (s.settled
        (m2.clrBit b d i 0 0))))
    ∧ exec (.aopmWarm w) s = .next ((s.setM fun m =>
        m.regUpd 0 256 0 (fun _ => setFld w.toNat 2 2 1) (setFld w.toNat 2 2 1)).resetCtrl ctl (setFld w.toNat 2 2 1)).atRest
    ∧ exec (.dieHold w) s = .next ((s.setM fun m =>
        m.regUpd 0 256 0 (fun _ => setFld w.toNat 2 2 0) (setFld w.toNat 2 2 0)).resetCtrl ctl (setFld w.toNat 2 2 0)).atRest

/-! ### The object dictionary -/

/-- Requests of the object dictionary (R389 to R392, R407, R439): INFO tells an entry's type, access, persistence, size and
default; a READ answers with the value, whole or from an offset of its snapshot; a WRITE whose value is complete and passes its checks is answered with what the
entry's rule says; with NV_ERROR where the flash that it waits for fails (R405); a segment that is not the last is staged. A staging, a snapshot and a kept response go when their time is up. -/
def Obligations.DictionaryRequestsComplete : Prop :=
  ∀ (s s1 : State) (rq : DictReq) (index sub : Nat) (r : DictRow) (bs : Bytes) (who : Master) (tag : Half),
    let s0 := s.counted rq
    let wr := OapReq.ofRow 2 index sub rq
    let inf := OapReq.ofRow 3 index sub rq
    (s.serves inf → s0.entryRow inf.index inf.sub = some r → (rq.typ = 0 ∨ rq.typ.toNat = r.typ.code) →
      exec (.oapInfo rq index sub) s = .next (s0.answered inf
        (inf.answer { status := osOk, typ := r.typ.code, data := r.info }) .nothing))
    ∧ (∀ x ∈ ([(.oapRead rq index sub, index, sub), (.csrDataRead rq, 0xA003, 2), (.quoteRead rq, 0x8030, 2)] :
        List (Instr × Nat × Nat)),
      let q := OapReq.ofRow 1 x.2.1 x.2.2 rq
      s.serves q → s0.entryRow q.index q.sub = some r → r.acc ≠ .wo → (rq.typ = 0 ∨ rq.typ.toNat = r.typ.code) →
        (r.typ.size.isSome → rq.offset = 0 → s0.readEntry rq.master q.index q.sub = (s1, .ok bs) → exec x.1 s = .next
          (s1.answered q (q.answer { status := osOk, typ := r.typ.code, data := bs }) .nothing))
        ∧ (r.typ.size = none → rq.offset ≤ bs.length → s0.readValue rq.master q.index q.sub rq.offset = (s1, .ok bs) →
          exec x.1 s = .next (s1.answered q (q.answer
            { status := osOk, typ := r.typ.code, offset := rq.offset, data := (bs.drop rq.offset).take (segLimit rq.master)
              flags := (if bs.length ≤ rq.offset + segLimit rq.master then 1 else 0) + (if rq.offset = 0 then 2 else 0) })
            .nothing)))
    ∧ (s.serves wr → s0.admits wr r s1 bs → let w := s1.writeFlash rq.flashBad rq.master r wr.index wr.sub bs
      exec (.oapWrite rq index sub) s = .next (w.2.1.answered wr (wr.wrote r w.1) w.2.2))
    ∧ (∀ m, s.serves wr → s0.entryRow wr.index wr.sub = some r → r.acc ≠ .ro → s0.m.mayWrite rq.master wr.index wr.sub rq.data →
      rq.typ.toNat = r.typ.code → r.typ.size = none → rq.data.length ≤ segLimit rq.master → s0.m.stage rq.master wr r = (m, .error osOk) →
      exec (.oapWrite rq index sub) s = .next ({ s0 with m := m }.answered wr (wr.wrote r osOk) .nothing))
    ∧ exec (.oapStagingTimeout who index sub) s = .next (s.settled { s.m with
      staging := s.m.staging.filter fun x => !(x.master == who && x.key == dictKey index sub) })
    ∧ exec (.oapSnapshotExpire who index sub) s = .next (s.settled { s.m with
      snaps := s.m.snaps.filter fun x => !(x.master == who && x.key == dictKey index sub) })
    ∧ exec (.oapKeptResponseExpire who tag) s = .next (s.settled { s.m with
      kept := s.m.kept.filter fun x => !(x.master == who && x.tag == tag.toNat) })

/-- Writes of entries that change the machine, once they are admitted: each holds its entry's rule and has the effect of it,
a command to the Gaffer firmware in restricted mode when that firmware starts (R441) (R47,
R48, R170, R171, R232, R250, R268, R272, R274, R300, R320, R331, R346, R351, R388, R393, R407, R414, R488). -/
def Obligations.ConfigurationWritesComplete : Prop :=
  ∀ (s s1 : State) (rq : DictReq) (p slot n g ring : Nat) (r : DictRow) (bs : Bytes) (c : Chan) (t : Mach),
    let s0 := s.counted rq
    let m := s1.m
    let stored := m.entryStatus r
    let put (i sub : Nat) : Mach := m.applyEntry r i sub bs
    p < 4 → slot < 16 → n < 32 → g < 32 → 1 ≤ ring → ring < 16 →
      ∀ x ∈ ([
        (.partitionModeWrite rq, 0x2001, 1, rq.data, m.tensors.isEmpty && m.groups.isEmpty, stored, (put 0x2001 1).newMode),
        (.handleCountWrite p rq, 0x2010 + p, 1, rq.data, m.tensors.all (fun t => t.part != p), stored, put (0x2010 + p) 1),
        (.optSlotWrite p slot rq, 0x4130 + p, 1 + slot, rq.data, m.slotRule p slot bs, stored, put (0x4130 + p) (1 + slot)),
        (.lrScheduleWrite p slot rq, 0x4130 + p, 0x21 + slot, rq.data, m.schedRule p bs, stored, put (0x4130 + p) (0x21 + slot)),
        (.tableMapWrite p n rq, 0x2040 + p, 1 + n, rq.data, m.tableRule p bs, stored, put (0x2040 + p) (1 + n)),
        (.hbmInterleaveWrite rq, 0x6001, 1, rq.data, m.tensors.isEmpty, stored, (put 0x6001 1).reinterleave m.fineMode),
        (.portModeWrite rq, 0x5001, 1, rq.data, true, stored, (put 0x5001 1).retrainAll),
        (.groupDefinitionWrite g rq, 0x5100 + g, 1, rq.data, m.groupRule g bs, stored, m.defineGroup r g bs),
        (.svcDrain rq, 0x6010, 2, [1], m.restricted == 0 && svcChan (m.dnum 0x6010 1) == some c && !m.svcBusy c, osOk, m.svcDrain c),
        (.svcDrain rq, 0x6010, 2, [1], m.restricted != 0, osOk, (m.defer 0x601002 (65536 * m.dnum 0x6010 1 + 1)).2),
        (.svcReturn rq, 0x6010, 2, [2], m.restricted == 0 && svcChan (m.dnum 0x6010 1) == some c && !m.svcBusy c, osOk, m.svcReturn c),
        (.svcReturn rq, 0x6010, 2, [2], m.restricted != 0, osOk, (m.defer 0x601002 (65536 * m.dnum 0x6010 1 + 2)).2),
        (.svcRecalibrate rq, 0x6010, 2, [3], m.restricted == 0 && svcChan (m.dnum 0x6010 1) == some c && !m.svcBusy c, osOk, m.svcRecal c),
        (.svcRecalibrate rq, 0x6010, 2, [3], m.restricted != 0, osOk, (m.defer 0x601002 (65536 * m.dnum 0x6010 1 + 3)).2),
        (.svcMargin rq, 0x6010, 2, [4], m.restricted == 0 && svcChan (m.dnum 0x6010 1) == some c && !m.svcBusy c, osOk, m.svcMargin c),
        (.svcMargin rq, 0x6010, 2, [4], m.restricted != 0, osOk, (m.defer 0x601002 (65536 * m.dnum 0x6010 1 + 4)).2),
        (.selftestRolling rq, 0x7010, 5, [1], m.restricted == 0 && m.dnum 0x7010 6 != 2, osOk, m.dset 0x7010 6 1),
        (.selftestRolling rq, 0x7010, 5, [1], m.restricted == 0 && m.dnum 0x7010 6 == 2, osOk, m),
        (.selftestRolling rq, 0x7010, 5, [1], m.restricted != 0, osOk, (m.defer 0x701005 1).2),
        (.selftestWholeModule rq, 0x7010, 5, [2], m.restricted == 0 && m.allIdle, osOk, m.dset 0x7010 6 2),
        (.selftestWholeModule rq, 0x7010, 5, [2], m.restricted != 0, osOk, (m.defer 0x701005 2).2),
        (.unfence rq, 0x7002, 2, rq.data, m.restricted == 0 && m.unfenceInst (ofLe bs) == some t, t.nvStatus, t),
        (.unfence rq, 0x7002, 2, rq.data, m.restricted != 0, osOk, (m.defer 0x700202 (ofLe bs)).2),
        (.controlTokenWrite rq, 0x9010, 1, rq.data, true, osOk, m.writeToken rq.master bs),
        (.restoreDefaults rq, 0x1004, 0x10, rq.data,
          m.allIdle && (m.mode == 1 || (m.tensors.isEmpty && m.groups.isEmpty)) && (!m.fineMode || m.tensors.isEmpty),
          m.restored.nvStatus, m.restored),
        (.logClear rq, 0xA001, 4, rq.data, true, osOk, { m with log := [] }),
        (.deepCmd rq, 0x3004, 5, rq.data, m.deepOk, osOk, m.deepBegin),
        (.ringPairWrite ring rq, 0x9120 + ring, 1, rq.data, leAt (m.ringRec ring) 19 1 == 0 && leAt bs 19 1 != 1, osOk,
          m.dictPut (0x9120 + ring) 1 bs),
        (.ringPairWrite ring rq, 0x9120 + ring, 1, rq.data,
          leAt (m.ringRec ring) 19 1 == 0 && leAt bs 19 1 == 1 && m.ringRecOk bs, osOk,
          (m.dictPut (0x9120 + ring) 1 bs).updRing ring fun _ => {}),
        (.ringPairWrite ring rq, 0x9120 + ring, 1, rq.data,
          leAt (m.ringRec ring) 19 1 == 1 && leAt bs 19 1 != 1 && overlay (m.ringRec ring) 19 [0] == overlay bs 19 [0], osOk,
          (m.dictPut (0x9120 + ring) 1 (overlay (m.ringRec ring) 19 [2])).flushRing ring)] :
        List (Instr × Nat × Nat × Bytes × Bool × Nat × Mach)),
        let q := OapReq.ofRow 2 x.2.1 x.2.2.1 { rq with data := x.2.2.2.1 }
        let rule := x.2.2.2.2.1
        let status := x.2.2.2.2.2.1
        s.serves q → s0.admits q r s1 bs → rule →
          exec x.1 s = .next ({ s1 with m := x.2.2.2.2.2.2 }.answered q (q.wrote r status) .nothing)

/-- Writes that concern more than the machine, once they are admitted (R407, R420, R429, R431, R439, R442 to R447): resets, firmware
images, their activation and confirmation, key records, waivers, nonces, and a register written through the dictionary; where the
flash fails, NV_ERROR, and what the flash held stands. -/
def Obligations.SecurityAndResetWritesComplete : Prop :=
  ∀ (s s1 : State) (rq : DictReq) (slot : Nat) (r : DictRow) (bs : Bytes),
    let s0 := s.counted rq
    let m := s1.m
    let f := s1.v.flash
    let kind := slot / 2
    let k := slot % 2
    let n := ofLe bs
    let nv := m.nvStatus
    let event (x : State) (e : Nat) (d : Bytes) : State := x.setM fun m => m.moEvent e d
    let free : Bool := (f.boot kind).active != k
      && (if kind = 0 then s1.v.slotRunning 0 != some k else s1.v.slotRunning 1 != some k && s1.v.slotRunning 2 != some k)
    slot < 4 →
      ∀ x ∈ ([
        (.resetCmdCold rq, 0x3006, 1, toLe 4 0x434F4C44, n == 0x434F4C44 && m.allIdle, (osOk, s1, .cold)),
        (.resetCmdWarm rq, 0x3006, 1, toLe 4 0x5741524D, n == 0x5741524D && m.allIdle, (osOk, s1, .warm)),
        (.resetCmdDie rq, 0x3006, 1, rq.data, n == 0x44494530 && m.dieQuiet 0, (osOk, s1, .die 0)),
        (.resetCmdDie rq, 0x3006, 1, rq.data, n == 0x44494531 && m.dieQuiet 1, (osOk, s1, .die 1)),
        (.fwImageWrite slot rq, 0x8002, 1 + slot, rq.data, !s1.v.recovery && free && f.imageOk kind bs,
          (nv, s1.writeVault fun v => { v with flash := v.flash.updSlot kind k fun _ => ⟨bs, 1⟩ }, .nothing)),
        (.fwImageWrite slot rq, 0x8002, 1 + slot, rq.data, s1.v.recovery && kind == 0 && f.imageOk 0 bs,
          (nv, s1.writeVault fun v => { v with flash := (v.flash.updSlot 0 k fun _ => ⟨bs, 1⟩).updBoot 0 fun _ =>
            ⟨1 - k, true, m.dnum 0x8003 3⟩ }, .rom)),
        (.fwActivateMgmt rq, 0x8003, 1, [1], n == 1 && (s1.activateCheck 0).isNone,
          (s1.activateMeasured 0).activated 0),
        (.fwActivateGaffer rq, 0x8003, 1, [2], n == 2 && (s1.activateCheck 1).isNone,
          (s1.activateMeasured 1).activated 1),
        (.fwConfirm rq, 0x8003, 2, rq.data, n == 1 && s1.trialRuns 0,
          (nv, event (s1.writeVault fun v => ({ v with flash := v.flash.updBoot 0 fun _ => ⟨1 - (f.boot 0).active, false, 0⟩ } :
            Vault).raise (imgSvn (f.slot 0 (1 - (f.boot 0).active)).image) 0 0) evFwConfirmed
              (toLe 1 0 ++ toLe 1 (1 - (f.boot 0).active)), .nothing)),
        (.fwConfirm rq, 0x8003, 2, rq.data, n == 2 && s1.trialRuns 1,
          (nv, event (s1.writeVault fun v => ({ v with flash := v.flash.updBoot 1 fun _ => ⟨1 - (f.boot 1).active, false, 0⟩ } :
            Vault).raise 0 (imgSvn (f.slot 1 (1 - (f.boot 1).active)).image) 0) evFwConfirmed
              (toLe 1 1 ++ toLe 1 (1 - (f.boot 1).active)), .nothing)),
        (.keyRecordWrite rq, 0x8010, 1, rq.data, decide (f.keys.length < 15) && f.keyOk bs,
          (nv, event ((s1.writeVault fun v => (({ v with flash := { v.flash with keys := v.flash.keys ++ [bs] } } : Vault).raise 0 0
            (v.flash.chain.length + 1)).lapse m.freeCtr).setM fun m => { m with freeCtr := m.freeCtr + 1 }) evKeyRotated
              (toLe 2 (leAt bs 4 2)), .nothing)),
        (.waiverWrite rq, 0x8004, 2, rq.data, f.waiverOk bs, (nv, s1.writeVault fun v => { v with flash := f.addWaiver bs },
          if m.restricted = 1 ∧ f.covers s1.v.mgmtImage (s1.v.gafferImage 0) bs then .pair else .nothing)),
        (.quoteNonceWrite rq, 0x8030, 1, rq.data, true, (osOk, s1.setV fun v =>
          { v with nonces := mapSet v.nonces (masterNum rq.master) bs, quotes := mapDel v.quotes (masterNum rq.master) }, .nothing)),
        (.csrDataWrite rq, 0xA003, 2, rq.data, m.dnum 0xA003 3 == 1, (osOk, s1.csrWrite (m.dnum 0xA003 1) 4 n, .nothing))] :
        List (Instr × Nat × Nat × Bytes × Bool × Written)),
        let q := OapReq.ofRow 2 x.2.1 x.2.2.1 { rq with data := x.2.2.2.1 }
        let rule := x.2.2.2.2.1
        let w := x.2.2.2.2.2
        s.serves q → s0.admits q r s1 bs → rule →
          (rq.flashBad = false → exec x.1 s = .next (w.2.1.answered q (q.wrote r w.1) w.2.2))
          -- the flash operation that it waits for fails, and its retry (R405)
          ∧ (rq.flashBad → m.power.nvInhibit = false → waitsForFlash q.index q.sub → w.1 = osOk →
            ∃ t : State, exec x.1 s = .next (t.answered q (q.wrote r osNvError) .nothing)
              ∧ (q.index ≠ 0x8002 → t.v.flash = f) ∧ t.v.flash.ctl = f.ctl ∧ t.v.flash.ar = f.ar ∧ t.m.dnum 0x1004 5 = 2)

/-! ### The management segment and the configuration store -/

/-- The management segment (R391, R394, R396 to R399): a sweep and an offer, taken only while the chain input is asserted and an
address is pending; beacons lost and resumed; the chain input; a discarded frame; the takeover of all ranges while the host link is
down. -/
def Obligations.ManagementEventsComplete : Prop :=
  ∀ (s : State) (n : Nat),
    let m := s.m
    let heard := m.dadd 0x9001 0x10 1
    (m.mgmtServes → exec .sweepBegin s = .next (s.settled { heard with
        mgmt := { m.mgmt with chainOut := false, sweeping := true } })
      ∧ exec .mgmtFrameDiscarded s = .next (s.settled (m.dadd 0x9001 0x12 1))
      ∧ (m.mgmt.sweeping → m.mgmt.chainIn → 1 ≤ n → n ≤ 32 →
        let id := if m.mgmt.nodeId = 255 then n else m.mgmt.nodeId
        exec (.addressOffer n) s = .next (s.settled ((({ heard with
          mgmt := { m.mgmt with nodeId := id, sweeping := false, chainOut := true } } : Mach).dadd 0x9001 0x13 1).mgmtSend 0
            (ackBytes id m.mgmt.nodeId))))
      ∧ (m.mgmt.sweeping = false ∨ m.mgmt.chainIn = false → exec (.addressOffer n) s = .next (s.settled heard)))
    ∧ (m.power.boot.isSome → m.mgmt.lost = false → exec .mgmtBeaconLost s = .next (s.settled
        ((({ m with mgmt := { m.mgmt with lost := true } } : Mach).dadd 0x9001 0x14 1).moEvent evMgmtBeaconLost)))
    ∧ exec .mgmtBeaconResumed s = .next (s.settled { m with mgmt := { m.mgmt with lost := false } })
    ∧ (m.power.boot.isSome → m.mgmt.chainIn → exec .mgmtChainInLost s = .next (s.settled
        (({ m with mgmt := { m.mgmt with chainIn := false } } : Mach).moEvent evMgmtChainInLost)))
    ∧ exec .mgmtChainInAsserted s = .next (s.settled { m with mgmt := { m.mgmt with chainIn := true } })
    ∧ (m.power.boot.isSome → m.mgmt.takeover = false → (m.link.up = false ∨ m.link.retraining) →
        exec .mgmtTakeover s = .next (s.settled
          ((({ m with mgmt := { m.mgmt with takeover := true } } : Mach).dadd 0x9010 4 1).moEvent evMgmtTakeover).dropLosers))

/-- The configuration store (R401, R404, R405): the stored records go into the older of the two regions as a copy one version above
the copy in force, unless the write inhibit holds; a flash operation that fails twice leaves the copy in force; the powered time is
recorded, and recorded as the inhibit begins; when it ends, what was held is written, unless the flash fails again, which is free (log entry 20). -/
def Obligations.StoreEventsComplete : Prop :=
  ∀ (s : State),
    let m := s.m
    let wrote (x : Mach) : Mach :=
      let copy := storeCopy (x.store.version + 1) s.v.mgmtVersion x.storeRecs
      let inA := x.store.inForce ≠ 0
      (({ x with store := { x.store with copyA := if inA then copy else x.store.copyA
                                         copyB := if inA then x.store.copyB else copy
                                         inForce := if inA then 0 else 1, version := x.store.version + 1, pending := [] } } :
        Mach).dadd 0x1004 3 1).dset 0x1004 5 0
    let lost (x : Mach) : Mach :=
      let y := x.freeBytes 64
      (({ y.1 with store := if x.store.inForce ≠ 0 then { y.1.store with copyA := y.2 } else { y.1.store with copyB := y.2 } } :
        Mach).dset 0x1004 5 2).moEvent evStoreWriteFailed
    let quiet := (({ m with power := { m.power with nvInhibit := false } } : Mach).updTimeLog TimeLog.turn).freeWord
    let freed : State := { s with v := { s.v with held := none } }
    let due := m.power.boot.isSome ∧ s.v.recovery = false ∧ m.store.pending ≠ []
    (due → m.power.nvInhibit = false → exec (.storeCopyWrite true) s = .next (s.settled (wrote m)))
    ∧ (due → m.power.nvInhibit = false → exec (.storeCopyWrite false) s = .next (s.settled (lost m)))
    ∧ (∀ ok, due → m.power.nvInhibit → exec (.storeCopyWrite ok) s = .next (s.settled (m.dset 0x1004 5 1)))
    ∧ (m.power.boot.isSome → m.power.nvInhibit = false → exec .poweredTimeRecord s = .next (s.settled m.timeRecord)
        ∧ exec .nvInhibitBegin s = .next (s.settled ({ m with power := { m.power with nvInhibit := true } } : Mach).timeRecord))
    ∧ (¬ due → exec .nvInhibitEnd s = .next (freed.settled quiet.1))
    ∧ (due → exec .nvInhibitEnd s = .next (freed.settled (if bitAt quiet.2.toNat 0 then wrote quiet.1 else lost quiet.1)))

/-! ### Power, clocks, resets -/

/-- The supply and the pins (R408, R420, R422, R423): bring-up with the supply good, the warning of a falling supply, brown-out and
the other cold resets with their causes, MOD_RESET_N, whose release starts bring-up at once where the supply is good (log entry 45). -/
def Obligations.SupplyEventsComplete : Prop :=
  ∀ (s : State) (obs : BootObs),
    let m := s.m
    let power (f : Power → Power) : State := { s with m := { m with power := f m.power } }
    (m.power.overvolt = false → m.power.resetLow = false → m.power.boot = none →
        exec (.supplyGood obs) s = .next (s.bringUp obs).atRest)
    ∧ (m.power.overvolt = false → m.power.resetLow → m.power.boot = none →
        exec (.supplyGood obs) s = .next (power fun x => { x with supplied := some obs }).atRest)
    ∧ (m.power.boot.isSome → m.power.warn = false → exec .supplyLow s = .next (s.settled
        (({ m with power := { m.power with warn := true } } : Mach).moEvent evSupplyLow)))
    ∧ exec .supplyWarnEnd s = .next (power fun x => { x with warn := false }).atRest
    ∧ exec .brownOut s = .next ((s.coldReset 2).setM fun m => m.count .aopm 0 0 0x14 1).atRest
    ∧ exec .auxLoss s = .next (s.coldReset 3).atRest
    ∧ exec .overvoltage s = .next ((power fun x => { x with overvolt := true }).coldReset 11).atRest
    ∧ (m.power.overvolt → exec .overvoltageEnd s = .next ((power fun x => { x with overvolt := false }).coldReset 11).atRest)
    ∧ exec .modResetN s = .next (((power fun x => { x with resetLow := true }).coldReset 4).setM fun k =>
        { k with power := { k.power with supplied := m.power.boot <|> m.power.supplied } }).atRest
    ∧ (m.power.resetLow → m.power.boot = none → m.power.supplied = some obs → exec .modResetNRelease s =
        .next ((power fun x => { x with resetLow := false, supplied := none }).bringUp obs).atRest)
    ∧ (m.power.resetLow = false ∨ m.power.boot.isSome ∨ m.power.supplied = none → exec .modResetNRelease s =
        .next (power fun x => { x with resetLow := false, supplied := none }).atRest)

/-- The power limit, the comparator and the sensors (R409 to R411): what share of the bench cycles is withheld while the mean is over
the limit or a die is too hot is free (log entry 3); the comparator holds half; a die above its limit throttles until it is 3 °C
below. A die whose rails a sensor removed comes back when it has cooled. -/
def Obligations.PowerAndSensorEventsComplete : Prop :=
  ∀ (s : State) (mean d : Nat) (t : Int),
    let m := s.m
    let lim := 1000 * m.dnum 0x3001 1
    let on := if lim < mean then true else if mean + 10000 < lim then false else m.power.throttled
    let w := Config.freeWord m.freeCtr
    let share := if on || m.dies.any (fun x => x.throttled) then w.toNat % 101 else m.power.withheld - w.toNat % 6
    let hot : Int := 8 * m.dnum 0x3002 1
    let seen := m.updDie d fun x => { x with temp := t }
    (m.power.ready → exec (.powerLimitTick mean) s = .next (s.settled { m with
        freeCtr := m.freeCtr + 1
        power := { m.power with meanMw := mean, throttled := on, withheld := share
                                shares := (m.power.shares ++ [if m.power.comparator then max 50 share else share]).drop
                                  (m.power.shares.length - 99) } }))
    ∧ exec .powerComparatorTrip s = .next (s.settled { m with
        power := { m.power with comparator := m.dies.any fun x => x.up } })
    ∧ exec .powerComparatorRelease s = .next (s.settled { m with power := { m.power with comparator := false } })
    ∧ (d < 2 → (seen.die d).up → m.restricted = 0 →
        ((seen.die d).throttled = false → hot < t → exec (.thermalSample d t) s = .next (s.settled
          (((seen.updDie d fun x => { x with throttled := true }).dadd 0x3002 4 1).fwEvent evThermalThrottle d 0 none)))
        ∧ ((seen.die d).throttled → t ≤ hot - 24 → exec (.thermalSample d t) s = .next (s.settled
          (seen.updDie d fun x => { x with throttled := false })))
        ∧ ((seen.die d).throttled = false → t ≤ hot → exec (.thermalSample d t) s = .next (s.settled seen))
        ∧ ((seen.die d).throttled → hot - 24 < t → exec (.thermalSample d t) s = .next (s.settled seen)))
    ∧ (d < 2 → (m.die d).up → exec (.thermalDieReset d) s = .next (s.settled (m.dieReset d 8)))
    ∧ ((m.die d).hot → exec (.thermalResetEnd d) s = .next ((s.setM fun m => m.updDie d fun x => { x with hot := false }).dieReturn
        d).atRest)

/-- Clock faults, waking, live updates and quotes (R415, R417, R419, R439, R445, R446, R448): the PLL of a die resets the die, of a
channel drains the channel, which is trained anew once it has drained, of a port retrains it; a wake is latched during an entry to Deep, begins the exit from Deep, and is noted
during it; a die of a live update whose groups have stopped restarts on the new image; the management controller starts its trial
image where it verifies, falls back where it does not, and enters recovery where no image verifies. -/
def Obligations.ClockWakeAndUpdateEventsComplete : Prop :=
  ∀ (s : State) (d q b : Nat) (c : Chan) (who : Master),
    let m := s.m
    let k := 1 - (s.v.flash.boot 0).active
    let chanBytes := toLe 1 1 ++ toLe 2 (c.idx + 16384 * c.die + 32768 * c.lp.toNat)
    let m1 := m.fwEvent evClockFault c.die (160 + c.memc) none chanBytes
    (d < 2 → (m.die d).up → exec (.clockFault (.die d)) s = .next ((s.setM fun m =>
        (m.fwEvent evClockFault d 0 none (toLe 1 0 ++ toLe 1 d)).dieReset d 9).dieReturn d).atRest)
    ∧ (c.ok → (m.die c.die).up →
        let mark (m : Mach) : Mach := m.updChan c fun x => { x with clock := true }
        ((m1.fineMode ∧ c.lp = false) ∨ (m1.chan c).state = 4 → exec (.clockFault (.chan c)) s = .next (s.settled m1))
        ∧ ((m1.fineMode = false ∨ c.lp) →
          ((m1.chan c).state = 1 → exec (.clockFault (.chan c)) s = .next (s.settled (mark m1)))
          ∧ ((m1.chan c).state = 2 → exec (.clockFault (.chan c)) s = .next (s.settled ((mark m1).retrainChan c)))
          ∧ ((m1.chan c).state ≠ 1 → (m1.chan c).state ≠ 2 → (m1.chan c).state ≠ 4 →
            exec (.clockFault (.chan c)) s = .next (s.settled (match m1.beginDrain c with | some m2 => mark m2 | none => m1)))))
    ∧ (q < m.portCount → (m.die (portDie m q)).up → exec (.clockFault (.port q)) s = .next (s.settled
        ((m.fwEvent evClockFault (portDie m q) 0 (some (m.portPart q)) (toLe 1 2 ++ toLe 1 q)).retrainPort q)))
    ∧ (b < 3 → bitAt (m.dnum 0x3005 1) b →
        (m.power.deepSteps = 1 → m.power.wakeLatched = none →
          exec (.wake b) s = .next (s.settled { m with power := { m.power with wakeLatched := some b } }))
        ∧ (m.power.deepSteps = 2 →
          exec (.wake b) s = .next (s.settled (({ m with power := { m.power with deepSteps := 3 } } : Mach).dset 0x3005 4 b)))
        ∧ (m.power.deepSteps = 3 →
          exec (.wake b) s = .next (s.settled (m.dset 0x3005 4 (setFld (m.dnum 0x3005 4) 7 7 1)))))
    ∧ (m.liveDie = some d → (m.die d).up → (m.groupsOn d).any m.groupActive = false →
        exec (.liveUpdateDieHeld d) s = .next (((s.setM fun m => ((m.dropDie d 10 true).dropFlights d).setCause 10 d).dieReturn d).setM fun m =>
          m.resumeHeld.groups.foldl (fun (m : Mach) g => m.openGate g.part g.num) m.resumeHeld).atRest)
    ∧ (m.mgmt.restarting →
        let act := (s.v.flash.boot 0).active
        let ok := s.v.flash.slotOk 0
        let after (v : Vault) (run : Option Nat) : Vault := { v with
          running := updAt v.running 0 fun _ => run, nonces := v.nonces.filter fun x => (mapGet v.quotes x.1).isSome }
        let back (n : Nat) : Mach := { m with mgmt := { m.mgmt with restarting := false }, power := { m.power with stopAt := n } }
        let open_ : Mach := back (if m.restricted = 0 then 0 else 8)
        let runs (v : Vault) (n : Nat) : State := { s with v := ({ after v (some n) with recovery := false } : Vault).measureMgmt n }
        ((s.v.flash.boot 0).trial → ok k → exec .mgmtFwRestarted s = .next ((runs s.v k).settled open_))
        ∧ ((s.v.flash.boot 0).trial = false → ok act → exec .mgmtFwRestarted s = .next ((runs s.v act).settled open_))
        ∧ ((s.v.flash.boot 0).trial = false → ok act = false → ok k → exec .mgmtFwRestarted s = .next ((runs s.v k).settled open_))
        ∧ ((s.v.flash.boot 0).trial → ok k = false → ok act → exec .mgmtFwRestarted s = .next
          ((runs (s.v.write m.power.nvInhibit fun v => { v with flash := v.flash.fallBack 0 }) act).settled
            (open_.moEvent evFwFallback (toLe 1 0))))
        ∧ (ok k = false → ok act = false → exec .mgmtFwRestarted s = .next
          ({ s with v := { after s.v none with recovery := true } }.settled (back 3))))
    ∧ (∀ x, mapGet s.v.nonces (masterNum who) = some x → s.v.pufFailed = false → m.mgmt.restarting = false →
        mapGet s.v.quotes (masterNum who) = none → exec (.quoteReady who) s = .next ({ s with v := { s.v with
          quotes := mapSet s.v.quotes (masterNum who) (quoteBytes m s.v (masterNum who) x)
          quoteSeq := s.v.quoteSeq + 1, signs := s.v.signs + 1 } }.settled m))

/-! ### The host link -/

/-- The host link's flits, loss and return (R451 to R453, R467, R469): a damaged flit is answered by one nak; a good one frees what it
acknowledges and is taken in sequence; what is not acknowledged is sent again; the link goes down and the DMAs in flight are
aborted; it comes up and what waited goes out; SQ_DOORBELL, CQ_DOORBELL, EVENT_HEAD_DOORBELL, HL_CTRL_WRITE, CTRL_WRITE and
RING_PAIR_DRAINED complete on a link that is up. -/
def Obligations.HostLinkEventsComplete : Prop :=
  ∀ (s : State) (flit : Bytes) (lanes ring off : Nat) (i : Half) (w : DWord),
    let m := s.m
    let good := flit.length = 256 ∧ leAt flit 252 4 = (crc32c (flit.take 252)).toNat
    let low := (m.linkLow.dadd 0x9101 0x12 1).moEvent evHostLinkDown
    (m.link.up → m.link.retraining = false →
        (¬ good → m.link.nakOut → exec (.hlFlitReceive flit) s = .next (s.settled m))
        ∧ (¬ good → m.link.nakOut = false → exec (.hlFlitReceive flit) s = .next (s.settled
          (({ m with link := { m.link with nakOut := true } } : Mach).emit (.hlFlit (hlFlitBytes 2 0 m.link.rxSeq true [])))))
        ∧ (good → exec (.hlFlitReceive flit) s = .next (s.settled (m.hlTake (leAt flit 0 4))))
        ∧ (m.link.replay ≠ [] → exec .hlReplayTimeout s = .next (s.settled
          (let x := m.link.replay.foldl (fun (k : Mach) f => k.emit (.hlFlit (hlFlitBytes 1 f.1 m.link.rxSeq false f.2))) m
           let y := x.dadd 0x9101 0x10 m.link.replay.length
           { y with link := { y.link with replays := y.link.replays + 1
                                          retraining := decide (16 ≤ y.link.replays + 1) } }))))
    ∧ (m.link.up → exec .hostLinkRetrained s = .next (s.settled (hlPump 64
        ((({ m with link := { m.link with retraining := false, replays := 0 } } : Mach).dadd 0x9101 0x11 1).moEvent
          evHostLinkRetrained).hlReplay)))
    ∧ (m.link.up → exec .hostLinkDown s = .next (s.settled
        ((low.link.cmds.filter fun c => c.kind == 0x30 || c.kind == 0x31).foldl (fun (k : Mach) c =>
          (if c.kind = 0x30 then k.dmaLost c 0 else k).finishHost c stAborted 0) low)))
    ∧ (m.power.boot.isSome → m.link.up = false → (lanes = 2 ∨ lanes = 4 ∨ lanes = 8) →
        exec (.hostLinkUp lanes) s = .next (s.settled (m.linkUp lanes)))
    -- transactions that the link delivers: doorbells, and words of the control space
    ∧ (m.link.up → m.link.retraining = false →
        (ring < 16 → exec (.sqDoorbell ring i) s = .next (s.settled
          (m.updRing ring fun q => { q with sqTail := i.toNat % m.sqSize ring })))
        ∧ (ring < 16 → exec (.cqDoorbell ring i) s = .next (s.settled ((m.updRing ring fun q =>
          { q with cqHead := ringHead q.cqTail q.cqHead (m.cqSize ring) i.toNat }).flushRing ring)))
        ∧ exec (.eventHeadDoorbell i) s = .next (s.settled (pumpEvents 300 { m with
          link := { m.link with evHead := ringHead m.link.evTail m.link.evHead m.link.evSize i.toNat } }))
        ∧ exec (.hlCtrlWrite w) s = .next (s.settled (m.hlCtrl w.toNat))
        ∧ (m.link.enable → exec (.ctrlWrite off w) s = .next (s.settled m))
        ∧ (ring < 16 → exec (.ringPairDrained ring) s = .next (s.settled (m.flushRing ring))))

/-- SQ_DOORBELL, CQ_DOORBELL, EVENT_HEAD_DOORBELL, HL_CTRL_WRITE, CTRL_WRITE and RING_PAIR_DRAINED complete (R453 to R456, R465, R488):
a tail or a head index takes its place in its ring, modulo the ring's size (log entry 7), and what waited for room goes out; enabling checks the configuration and restarts
the rings whose registers were written; those registers hold while enabled; a pair whose commands are complete and written reads
enable 0, or 1 where it was set again. -/
def Obligations.DoorbellsAndLinkControlComplete : Prop :=
  ∀ (s : State) (ring off : Nat) (i : Half) (w : DWord),
    let m := s.m
    let touch (l : Link) : Link := { l with touched := if l.touched.contains off then l.touched else l.touched ++ [off] }
    let rings : Mach := m.restartRings
    (m.link.up → ring < 16 → exec (.sqDoorbell ring i) s = .next (s.settled
      (m.updRing ring fun q => { q with sqTail := i.toNat % m.sqSize ring })))
    ∧ (m.link.up → ring < 16 → exec (.cqDoorbell ring i) s = .next (s.settled ((m.updRing ring fun q =>
      { q with cqHead := ringHead q.cqTail q.cqHead (m.cqSize ring) i.toNat }).flushRing ring)))
    ∧ (m.link.up → exec (.eventHeadDoorbell i) s = .next (s.settled (pumpEvents 300 { m with
      link := { m.link with evHead := ringHead m.link.evTail m.link.evHead m.link.evSize i.toNat } })))
    ∧ (m.link.up → bitAt w.toNat 0 = false → exec (.hlCtrlWrite w) s = .next (s.settled { m with
      link := { m.link with enable := false, badConfig := false } }))
    ∧ (m.link.up → bitAt w.toNat 0 → m.link.enable → exec (.hlCtrlWrite w) s = .next (s.settled { m with
      link := { m.link with badConfig := false } }))
    ∧ (m.link.up → bitAt w.toNat 0 → m.link.enable = false → m.link.configOk = false → exec (.hlCtrlWrite w) s =
      .next (s.settled { m with link := { m.link with badConfig := true } }))
    ∧ (m.link.up → bitAt w.toNat 0 → m.link.enable = false → m.link.configOk → exec (.hlCtrlWrite w) s =
      .next (s.settled (pumpEvents 300 (({ rings with
        link := { rings.link with enable := true, attached := true, badConfig := false } } : Mach).flushRing 0))))
    ∧ (m.link.up → m.link.enable = false → off = 8 → exec (.ctrlWrite off w) s = .next (s.settled
      { m with link := { touch m.link with adminSq := w } }))
    ∧ (m.link.up → m.link.enable = false → off = 0x10 → exec (.ctrlWrite off w) s = .next (s.settled
      { m with link := { touch m.link with adminCq := w } }))
    ∧ (m.link.up → m.link.enable = false → off = 0x18 → exec (.ctrlWrite off w) s = .next (s.settled
      { m with link := { touch m.link with evRing := w } }))
    ∧ (m.link.up → m.link.enable = false → off = 0x20 → exec (.ctrlWrite off w) s = .next (s.settled
      { m with link := { touch m.link with sizes := w } }))
    ∧ (m.link.up → m.link.enable → exec (.ctrlWrite off w) s = .next (s.settled m))
    ∧ (ring < 16 → exec (.ringPairDrained ring) s = .next (s.settled (m.flushRing ring)))
    ∧ (0 < ring → ring < 16 → leAt (m.ringRec ring) 19 1 = 2 → (m.ring ring).held = [] → (m.link.cmds.all fun c => c.ring != ring) →
      exec (.ringPairDrained ring) s = .next (s.settled ((m.dictPut (0x9120 + ring) 1
        (overlay (m.ringRec ring) 19 [if (m.ring ring).again then 1 else 0])).updRing ring fun _ => {})))

/-! ### Reset, rest, frames -/

/-- The module right after a cold reset, before bring-up (R420 to R424, R426): powered for the first time, both dies down, the link
and the ports down, nothing loaded, no command waiting, registers and dictionary at their reset values and defaults. Memory lists
nothing (log entry 2) and the flash is as it left the maker (log entry 20): the model's choices. -/
def Obligations.ResetState : Prop :=
  let s := State.reset
  s.pending = [] ∧ s.m.power.boot = none ∧ (∀ d, (s.m.die d).up = false) ∧ s.m.link.up = false ∧ (∀ q, (s.m.port q).isUp = false)
  ∧ s.m.reg .aopm 0 0 4 = 1 ∧ s.m.reg .aopm 0 0 0x10 = 0x1F47 ∧ s.m.mgmt.nodeId = 255
  ∧ (∀ i sub, s.m.dict? i sub = dictDefault i sub) ∧ s.m.tensors = [] ∧ s.m.progs = [] ∧ s.m.groups = []
  ∧ (∀ c, (s.m.ctx c).st = .free) ∧ Memory.wf s.m.mem ∧ (∀ a, memByte s.m.mem a = 0) ∧ s.m.quiet
  ∧ s.v.meas = List.replicate 4 (zeroBytes 32) ∧ s.v.heldBehind

/-- A machine at rest stays as it is when it is run on: a command changes nothing beyond its own effect. -/
def Obligations.QuietMachineRests : Prop := ∀ m : Mach, m.quiet → m.rest = m

/-- The frame of the events of the board and of the doorbells: on a machine at rest they leave every byte of memory, its check
bits, the tensors, programs, groups, contexts and registers, and the vault; a release of MOD_RESET_N does where no supply waits for it. -/
def Obligations.BoardEventsLeaveTheRest : Prop :=
  ∀ (s t : State) (n sub : Nat) (x : Half) (w : DWord) (who : Master) (c : Instr),
    s.m.quiet →
      c ∈ ([.sqDoorbell n x, .cqDoorbell n x, .eventHeadDoorbell x, .hlCtrlWrite w, .ctrlWrite n w, .ringPairDrained n,
        .hlReplayTimeout, .hostLinkRetrained, .hostLinkUp n, .sweepBegin, .addressOffer n, .mgmtBeaconLost, .mgmtBeaconResumed,
        .mgmtChainInLost, .mgmtChainInAsserted, .mgmtFrameDiscarded, .mgmtTakeover, .poweredTimeRecord, .nvInhibitBegin, .supplyLow,
        .supplyWarnEnd, .modResetNRelease, .powerLimitTick n, .powerComparatorTrip, .powerComparatorRelease, .wake n,
        .oapStagingTimeout who n sub, .oapSnapshotExpire who n sub, .oapKeptResponseExpire who x] : List Instr) →
      (c = .modResetNRelease → s.m.power.supplied = none) → exec c s = .next t →
        (∀ a, memByte t.m.mem a = memByte s.m.mem a) ∧ t.m.chk = s.m.chk ∧ t.m.lost = s.m.lost ∧ t.m.tensors = s.m.tensors ∧ t.m.progs = s.m.progs
        ∧ t.m.groups = s.m.groups ∧ t.m.ctxs = s.m.ctxs ∧ t.m.csr = s.m.csr ∧ t.m.dies = s.m.dies ∧ t.v = s.v
        ∧ t.pending = s.pending

/-! ### Registers -/

/-- A write changes the bits that the map calls RW and no other; the alias windows compute those bits from the ones held (R367,
R368, R372, R373). -/
def Obligations.WritesChangeOnlyWritableBits : Prop :=
  ∀ (m : Mach) (b : Blk) (d i off k bit : Nat) (r : RegRow) (w : Nat),
    k < 32 → bit < 32 →
      let old := m.reg b d i off
      let after (v : Nat) : Bool := bitAt (m.newWord b d i off r v) k
      let rw := bitAt (rwMask b i off r) k
      after w = (if rw then bitAt w k else bitAt old k)
      ∧ after (old ||| w) = (bitAt old k || (rw && bitAt w k))
      ∧ after (old &&& (0xFFFFFFFF ^^^ w)) = (bitAt old k && !(rw && bitAt w k))
      ∧ after (old ^^^ w) = (bitAt old k != (rw && bitAt w k))
      ∧ after (setFld old bit bit w) = (if rw && decide (k = bit) then bitAt w 0 else bitAt old k)

/-- While its block's lock is closed a configuration register keeps its value; the block's flag is set and the die's count of such
writes goes up, up to its limit; every register of another address, and memory, stay (R369). -/
def Obligations.LockedRegisterKeepsItsValue : Prop :=
  ∀ (m : Mach) (d sl off i lb : Nat) (pb : Option Nat) (b : Blk) (r : RegRow) (f : Nat → Nat) (clr : Nat),
    d < 2 → blockAt d sl = some (b, i) → regRow b off = some r → r.cls = .config → lockBits b = some (lb, pb) → m.locked b d i →
      let t := m.regUpd d sl off f clr
      t.reg b d i off = m.reg b d i off
      ∧ t.bit b d i 4 lb
      ∧ t.reg .gcnt d 0 0x10 = min 0xFFFFFFFF (m.reg .gcnt d 0 0x10 + 1)
      ∧ (∀ a, a ≠ regAddr b d i 4 → a ≠ regAddr .gcnt d 0 0x10 → t.csrAt a = m.csrAt a)
      ∧ t.mem = m.mem ∧ t.badPar = m.badPar

/-- A hardware event is queued while the queue of its die is enabled and has room, else it is lost and counted; every event is
counted as raised, and the queue of the other die stays (R381). -/
def Obligations.EventsQueueOrAreCounted : Prop :=
  ∀ (m : Mach) (code d slot detail : Nat),
    d < 2 → m.dies.length = 2 →
      let t := m.hwEvent code d slot detail
      let room := m.bit .event d 0 0 0 = true ∧ (m.die d).evq.length < 256
      t.reg .event d 0 0x20 = min 0xFFFFFFFF (m.reg .event d 0 0x20 + 1)
      ∧ (room → (t.die d).evq = (m.die d).evq ++ [⟨code, slot, detail, (m.die d).time⟩]
        ∧ t.reg .event d 0 0x24 = m.reg .event d 0 0x24)
      ∧ (¬ room → (t.die d).evq = (m.die d).evq ∧ t.reg .event d 0 0x24 = min 0xFFFFFFFF (m.reg .event d 0 0x24 + 1)
        ∧ t.bit .event d 0 4 1)
      ∧ (t.die (1 - d)).evq = (m.die (1 - d)).evq

/-! ### Synchronisation -/

/-- A refused wait consumes nothing and is not posted: every counter's value and waits stay; the counter's refused flag and the
count of refused waits say so (R283). -/
def Obligations.RefusedWaitConsumesNothing : Prop :=
  ∀ (m : Mach) (d i : Nat),
    d < 2 → i < 4096 → m.dies.length = 2 →
      let t := m.refuseWait d i
      (∀ e j, e < 2 → j < 4096 → t.ctrVal e j = m.ctrVal e j ∧ t.waitsOf e j = m.waitsOf e j)
      ∧ t.bit .sync d 0 (ctrOff i) 9
      ∧ t.reg .sync d 0 0x2C = min 0xFFFFFFFF (m.reg .sync d 0 0x2C + 1)
      ∧ t.mem = m.mem ∧ t.ctxs = m.ctxs ∧ t.tensors = m.tensors

/-- A signal that finds the counter at 255 is lost: the value stays, no wait is served, the loss is counted and the counter's
saturated flag is set; only the first loss raises an event (R281). -/
def Obligations.SaturatedSignalIsLost : Prop :=
  ∀ (m : Mach) (d i : Nat),
    d < 2 → i < 4096 → m.dies.length = 2 → m.syncHeld d = false → m.bit .sync d 0 0 0 → m.ctrVal d i = 255 →
      let t := m.signal d i
      t.ctrVal d i = 255 ∧ t.waitsOf d i = m.waitsOf d i
      ∧ t.bit .sync d 0 (ctrOff i) 8
      ∧ t.reg .sync d 0 0x24 = min 0xFFFFFFFF (m.reg .sync d 0 0x24 + 1)
      ∧ (m.bit .sync d 0 (ctrOff i) 8 → (t.die d).evq = (m.die d).evq)
      ∧ (m.bit .sync d 0 (ctrOff i) 8 = false → m.bit .event d 0 0 0 → (m.die d).evq.length < 256 →
        ∃ x, (t.die d).evq = (m.die d).evq ++ [x] ∧ x.code = evSignalSaturated)

/-- A signal with nobody waiting is kept in the value; the pending waits of a counter are served oldest first: one behind a wait
that is not satisfied is not looked at (R280, R282). -/
def Obligations.WaitsAreServedInOrder : Prop :=
  ∀ (m : Mach) (d i : Nat) (w x : PWait) (ws : List PWait),
    d < 2 → i < 4096 → m.dies.length = 2 → m.syncHeld d = false →
      (m.bit .sync d 0 0 0 → m.waitsOf d i = [] → m.ctrVal d i < 255 → (m.signal d i).ctrVal d i = m.ctrVal d i + 1)
      ∧ (m.waitsOf d i = w :: ws → m.ctrVal d i < w.count →
        (m.postWait d i x).waitsOf d i = w :: ws ++ [x] ∧ (m.postWait d i x).ctrVal d i = m.ctrVal d i
        ∧ (m.postWait d i x).ctxs = m.ctxs)
      ∧ (m.bit .sync d 0 0 0 → m.waitsOf d i = [] → x.who = .fw → x.count ≤ m.ctrVal d i →
        (m.postWait d i x).waitsOf d i = [] ∧ (m.postWait d i x).ctrVal d i = m.ctrVal d i - x.count)

/-! ### Memory and its code -/

/-- A store changes the bytes it names and no other; a wide read gives back what was stored, in a unit that has lost its contents
too. -/
def Obligations.MemoryReadsBackWhatWasStored : Prop :=
  ∀ (mem : List Host.Cell) (a b : Nat) (bs : Bytes),
    memByte (memStore mem a bs) b = (if a ≤ b ∧ b < a + bs.length then bs.getD (b - a) 0 else memByte mem b)
    ∧ memBytes (memStore mem a bs) a bs.length = bs
    ∧ (b + bs.length ≤ a ∨ a + bs.length ≤ b → memBytes (memStore mem a bs) b bs.length = memBytes mem b bs.length)
    ∧ ∀ m : Mach, (m.storeAt a bs).bytesAt a bs.length = bs
      ∧ (b + bs.length ≤ a ∨ a + bs.length ≤ b → (m.storeAt a bs).bytesAt b bs.length = m.bytesAt b bs.length)

/-- The encoder's check symbols are those of the rule, and every codeword written has syndrome 0 (R256). -/
def Obligations.WrittenCodewordsHaveSyndromeZero : Prop :=
  ∀ d : Bytes, d.length = 16 →
    let s := sigma d
    s = (List.range 32).foldl (fun a i => a.xor ((symColumn i).smul (dataSym d i))) Syn.zero
    ∧ checkSym (checkBits d) 0 = s.s1 ^^^ s.s2 ^^^ gfMul gfLambda s.s3
    ∧ checkSym (checkBits d) 1 = s.s0 ^^^ s.s2 ^^^ s.s3
    ∧ checkSym (checkBits d) 2 = s.s2
    ∧ checkSym (checkBits d) 3 = s.s3
    ∧ syndrome d (checkBits d) = Syn.zero

/-- Headline. An error in one symbol of a codeword, data or check, whatever its value, is corrected: the decoder names the symbol and the
error, and a read of the memory that does not fail parity (R248) gives the bytes that were written and reports nothing (R257). -/
def Obligations.OneSymbolErrorsAreCorrected : Prop :=
  ∀ (m : Mach) (d : Bytes) (i source cw : Nat) (e : Gf),
    d.length = 16 → i < 36 → e ≠ 0 →
      let hit := flipData d i e
      let check := checkBits d ^^^ (if i < 32 then 0 else e.setWidth 16 <<< (4 * (i - 32)))
      classify (syndrome hit check) = .fix i e
      ∧ flipData hit i e = d
      ∧ (cw % 16 = 0 → m.bytesAt cw 16 = hit → m.chk = [(cw, check ^^^ checkBits hit)] → m.shakyIn cw 16 = [] →
        (m.memRead source cw 16).2 = (d, none))

/-- Headline. Errors in two symbols of a codeword are never taken for a good word nor corrected into another one: a read of the memory
reports the codeword. (R257's sentence says uncorrectable; sixteen of these errors have the syndrome that its table calls
poisoned, log entry 21.) -/
def Obligations.TwoSymbolErrorsAreReported : Prop :=
  ∀ (m : Mach) (d : Bytes) (i j source cw : Nat) (e f : Gf),
    d.length = 16 → i < j → j < 36 → e ≠ 0 → f ≠ 0 →
      let hit := flipData (flipData d i e) j f
      let mask (k : Nat) (g : Gf) : BitVec 16 := if k < 32 then 0 else g.setWidth 16 <<< (4 * (k - 32))
      let check := checkBits d ^^^ mask i e ^^^ mask j f
      (classify (syndrome hit check) = .bad ∨ classify (syndrome hit check) = .poison)
      ∧ (cw % 16 = 0 → m.bytesAt cw 16 = hit → m.chk = [(cw, check ^^^ checkBits hit)] →
        (m.memRead source cw 16).2.2 = some cw)

/-- What a DMA_WRITE stores, and where: the tile's record from its offset, or the physical range; every byte elsewhere stays (R462).
Said of memory without damage, whose accesses do not fail parity, and of a tile that is not kept as a Stringer image. The contexts, the link and the groups stay, but
for the forward tiles that a group keeps beyond their need: one that is written is kept no longer (R198). -/
def Obligations.DmaStoresItsBytesAndNoOthers : Prop :=
  ∀ (m : Mach) (p b : Nat) (c : HostCmd) (bs : Bytes) (r : TileRef) (t : Tensor),
    m.chk = [] → m.shaky = [] →
      let stored (a : Nat) : Bytes := if a ≤ b ∧ b < a + bs.length then [bs.getD (b - a) 0] else m.bytesAt b 1
      let rest (g : Group) : Group := { g with saves := [] }
      (c.tile = none → (m.dmaStore p c bs).bytesAt b 1 = stored c.off)
      ∧ (c.tile = some r → m.tensor? p r.handle = some t → (t.mark (refTile t.desc r)).stringer = false →
        (m.dmaStore p c bs).bytesAt b 1 = stored (t.tileAddr (refTile t.desc r) + c.off))
      ∧ (m.dmaStore p c bs).ctxs = m.ctxs ∧ (m.dmaStore p c bs).groups.map rest = m.groups.map rest
      ∧ (m.dmaStore p c bs).link = m.link

/-! ### Numbers, words and frames -/

/-- Conversion to BF16, bit for bit (R77). -/
def Obligations.Bf16ConversionRule : Prop :=
  ∀ f : Word,
    let n := f.toNat
    let nan := n / 2 ^ 23 % 256 = 255 ∧ n % 2 ^ 23 ≠ 0
    (nan → (toBf16 f).toNat = n / 2 ^ 16 ||| 0x0040)
    ∧ (¬ nan → (toBf16 f).toNat = (n + 0x7FFF + n / 2 ^ 16 % 2) % 2 ^ 32 / 2 ^ 16)

/-- A completion entry is the tag, the ring, the status, the submission head, the phase and the result, each in its place (R458). -/
def Obligations.CompletionEntryLayout : Prop :=
  ∀ (ring status head result : Nat) (tag : Half) (phase : Bool),
    let e := completionBytes ring tag status head phase result
    e.length = 16 ∧ leAt e 0 2 = tag.toNat ∧ leAt e 2 1 = ring % 2 ^ 8 ∧ leAt e 3 1 = status % 2 ^ 8
    ∧ leAt e 4 2 = head % 2 ^ 16 ∧ leAt e 6 1 = phase.toNat ∧ leAt e 7 1 = 0 ∧ leAt e 8 8 = result % 2 ^ 64

/-- Every bit of a handle descriptor's fields is kept by its eight words (R20). -/
def Obligations.HandleDescriptorRoundTrip : Prop :=
  ∀ d : HDesc,
    d.handle < 2 ^ 20 → d.fmtCode < 2 ^ 4 → d.cls < 2 ^ 4 → d.rankM1 < 2 ^ 2 → d.redAxis < 2 ^ 2 → d.scaleBase < 2 ^ 8 →
    d.rotSize < 2 ^ 2 → d.ovfThreshold < 2 ^ 8 → d.hotLimit < 2 ^ 8 →
    d.ext.d0 < 2 ^ 48 → d.ext.d1 < 2 ^ 48 → d.ext.d2 < 2 ^ 48 → d.ext.d3 < 2 ^ 48 →
    d.tile.d0 < 2 ^ 16 → d.tile.d1 < 2 ^ 16 → d.tile.d2 < 2 ^ 16 → d.tile.d3 < 2 ^ 16 →
    d.layer < 2 ^ 16 → d.rotSeed < 2 ^ 32 → d.placeMap < 2 ^ 48 → d.placeGen < 2 ^ 16 → d.histAddr < 2 ^ 48 →
      HDesc.ofWords d.toWords = d ∧ ∀ w ∈ d.toWords, w < 2 ^ 64

/-- A request frame read back is the request: no bit of a field is dropped, and the data are those it announces (R389).
How it was addressed and what the flash will do are no part of it. -/
def Obligations.OapFrameRoundTrip : Prop :=
  ∀ q : OapReq,
    q.op < 2 ^ 8 → q.status < 2 ^ 8 → q.index < 2 ^ 16 → q.sub < 2 ^ 8 → q.rq.offset < 2 ^ 32 → q.rq.data.length < 2 ^ 16 →
      q.length = q.rq.data.length →
        OapReq.ofBytes q.rq.master q.bytes = { q with rq := { q.rq with bcast := false, flashBad := false } }

/-! ### The object dictionary -/

/-- A write is checked in the order of R391, and the first check that fails gives the status and leaves everything unchanged. -/
def Obligations.RequestsAreCheckedInOrder : Prop :=
  ∀ (s : State) (q : OapReq) (r : DictRow) (n : Nat),
    let no (st t : Nat) : State × Bytes × After := (s, q.answer { status := st, typ := t }, .nothing)
    let t := r.typ.code
    let who := q.rq.master
    let wrote (st : Nat) : State × Bytes × After := (s, q.wrote r st, .nothing)
    (q.framed = false ∨ (q.op ≠ 1 ∧ q.op ≠ 2 ∧ q.op ≠ 3) → s.oapExec who q = no osBadFrame q.rq.typ.toNat)
    ∧ (q.framed → q.op = 1 ∨ q.op = 2 ∨ q.op = 3 →
      (s.entryRow q.index q.sub = none → s.oapExec who q = no osNoEntry q.rq.typ.toNat)
      ∧ (s.entryRow q.index q.sub = some r → q.op = 1 → r.acc = .wo → s.oapExec who q = no osWriteOnly t)
      ∧ (s.entryRow q.index q.sub = some r → q.op = 2 →
        (r.acc = .ro → s.oapExec who q = no osReadOnly t)
        ∧ (r.acc ≠ .ro → s.m.mayWrite who q.index q.sub q.rq.data = false → s.oapExec who q = no osNotOwner t)
        ∧ (r.acc ≠ .ro → s.m.mayWrite who q.index q.sub q.rq.data → q.rq.typ.toNat ≠ t → s.oapExec who q = no osBadType t)
        ∧ (r.acc ≠ .ro → s.m.mayWrite who q.index q.sub q.rq.data → q.rq.typ.toNat = t → r.typ.size = some n →
          let whole := q.rq.offset = 0 ∧ fld q.rq.flags.toNat 1 0 = 3 ∧ q.rq.data.length = n
          let inRange := s.m.rangeOk r q.index q.sub q.rq.data = true
          let busy := r.acc = .rwIdle ∧ s.m.absent q.index = false ∧ s.m.entryIdle q.index q.rq.data = false
          (¬ whole → s.oapExec who q = no osBadLength t)
          ∧ (whole → ¬ inRange → s.oapExec who q = wrote osOutOfRange)
          ∧ (whole → inRange → busy → s.oapExec who q = wrote osBusy)
          ∧ (whole → inRange → ¬ busy → s.m.absent q.index → s.oapExec who q = wrote osBadState))
        ∧ (r.acc ≠ .ro → s.m.mayWrite who q.index q.sub q.rq.data → q.rq.typ.toNat = t → r.typ.size = none →
          segLimit who < q.length → s.oapExec who q = no osBadLength t)))

/-- A request that is answered already, with the same tag and the same bytes, gets the kept response again and is not executed a second time
(R392); a broadcast frame that fails check 1 is discarded before (R391). -/
def Obligations.KeptResponsesAreRepeated : Prop :=
  ∀ (s : State) (rq : DictReq) (index sub : Nat) (k : Kept),
    s.portOpen rq.master →
      ∀ x ∈ ([(.oapRead rq index sub, 1), (.oapWrite rq index sub, 2), (.oapInfo rq index sub, 3)] : List (Instr × Nat)),
        let q := OapReq.ofRow x.2 index sub rq
        let heard := s.counted rq
        (rq.master = .mgmt → rq.bcast → q.framed) →
        (heard.m.kept.find? fun y => y.master == rq.master && y.tag == rq.tag.toNat && y.request == q.bytes) = some k →
          exec x.1 s = .next (heard.settled (match rq.master with
            | .host => heard.m.emit (.oap .host k.answer)
            | .mgmt => heard.m.mgmtSend 0 k.answer))

/-- Who may write (R393, R439): the management port everywhere during a takeover, else it owns the ranges of its bits of the control
token and the host link the others; to the token itself the host link writes anything and the management port what sets no
bit; both write their nonces. -/
def Obligations.OwnershipRule : Prop :=
  ∀ (m : Mach) (who : Master) (i sub : Nat) (bs : Bytes),
    let k := i / 4096
    1 ≤ k → k ≤ 10 →
      m.owner k = (if m.mgmt.takeover ∨ bitAt (m.dnum 0x9010 1) k then Master.mgmt else Master.host)
      ∧ (sub < 256 → (i ≠ 0x9010 ∨ sub ≠ 1) → (i ≠ 0x8030 ∨ sub ≠ 1) → (m.mayWrite who i sub bs = true ↔ m.owner k = who))
      ∧ m.mayWrite .host 0x9010 1 bs
      ∧ (m.mayWrite .mgmt 0x9010 1 bs = true ↔ ∀ b, bitAt (ofLe (bs.take 2)) b → bitAt (m.dnum 0x9010 1) b)
      ∧ m.mayWrite who 0x8030 1 bs

/-! ### Security -/

/-- The slot to run (R432): while a trial is pending and has boots left, and no write inhibit holds, the boot is counted and the
trial slot comes first; then the active slot, then the other one; the first whose image verifies runs, and none does where none
verifies. -/
def Obligations.SlotSelection : Prop :=
  ∀ (f : Flash) (kind : Nat) (inhibit : Bool),
    kind < f.ctl.length →
      let c := f.boot kind
      let a := c.active
      let ok := f.slotOk kind
      let tries := c.trial = true ∧ 0 < c.left ∧ inhibit = false
      (tries → ((f.selectSlot kind inhibit).1.boot kind).left = c.left - 1
        ∧ (f.selectSlot kind inhibit).2 = (if ok (1 - a) then some (1 - a) else if ok a then some a else none))
      ∧ (¬ tries → (f.selectSlot kind inhibit).1 = f
        ∧ (f.selectSlot kind inhibit).2 = (if ok a then some a else if ok (1 - a) then some (1 - a) else none))
      ∧ (f.selectSlot kind inhibit).1.slots = f.slots ∧ (f.selectSlot kind inhibit).1.ar = f.ar

/-- Headline. Whatever command is given in whatever state, the anti-rollback record that the flash holds never goes back: no counter of it
falls, across resets of every kind, the write inhibit, activations, confirmations and key rotations; and the flash is never ahead of
what is in force (R405, R434). -/
def Obligations.AntiRollbackNeverFalls : Prop :=
  ∀ s t : State, s.v.heldBehind → step s = .next t → t.v.heldBehind ∧ s.v.stored.ar.le t.v.stored.ar


end
end

