-- ==== Sys2Proof/Laws/State.lean ====
section
/-! SUPPORT. One lemma for each field after each update, each true by unfolding: later proofs cite these and unfold no record
update. The names say the update and the field. -/

namespace Sys2Proof.Machine

/-! ### The parts of a state -/

@[simp] theorem State.setM_m (s : State) (f : Mach → Mach) : (s.setM f).m = f s.m := rfl
@[simp] theorem State.setM_v (s : State) (f : Mach → Mach) : (s.setM f).v = s.v := rfl
@[simp] theorem State.setM_pending (s : State) (f : Mach → Mach) : (s.setM f).pending = s.pending := rfl
@[simp] theorem State.setV_m (s : State) (f : Vault → Vault) : (s.setV f).m = s.m := rfl
@[simp] theorem State.setV_v (s : State) (f : Vault → Vault) : (s.setV f).v = f s.v := rfl
@[simp] theorem State.setV_pending (s : State) (f : Vault → Vault) : (s.setV f).pending = s.pending := rfl
@[simp] theorem State.settled_m (s : State) (m : Mach) : (s.settled m).m = m.rest := by simp only [State.settled]
@[simp] theorem State.settled_v (s : State) (m : Mach) : (s.settled m).v = s.v := by simp only [State.settled]
@[simp] theorem State.settled_pending (s : State) (m : Mach) : (s.settled m).pending = s.pending := by simp only [State.settled]
@[simp] theorem State.atRest_m (s : State) : s.atRest.m = s.m.rest := by simp only [State.atRest]
@[simp] theorem State.atRest_v (s : State) : s.atRest.v = s.v := by simp only [State.atRest]
@[simp] theorem State.atRest_pending (s : State) : s.atRest.pending = s.pending := by simp only [State.atRest]

/-- What a command that acts on the machine alone answers. -/
theorem State.onMach_eq (s : State) (f : Mach → Mach) : s.onMach f = .next (s.settled (f s.m)) := by
  simp only [State.onMach, State.settled]
/-- What a command that acts on more than the machine answers. -/
theorem State.finish_eq (s : State) : s.finish = .next s.atRest := by
  simp only [State.finish, State.atRest]

/-! ### The fields of the machine -/

@[simp] theorem Mach.emit_dies (m : Mach) (o : Out) : (m.emit o).dies = m.dies := rfl
@[simp] theorem Mach.emit_csr (m : Mach) (o : Out) : (m.emit o).csr = m.csr := rfl
@[simp] theorem Mach.emit_dict (m : Mach) (o : Out) : (m.emit o).dict = m.dict := rfl
@[simp] theorem Mach.emit_mem (m : Mach) (o : Out) : (m.emit o).mem = m.mem := rfl
@[simp] theorem Mach.emit_chk (m : Mach) (o : Out) : (m.emit o).chk = m.chk := rfl
@[simp] theorem Mach.emit_tensors (m : Mach) (o : Out) : (m.emit o).tensors = m.tensors := rfl
@[simp] theorem Mach.emit_groups (m : Mach) (o : Out) : (m.emit o).groups = m.groups := rfl
@[simp] theorem Mach.emit_ctxs (m : Mach) (o : Out) : (m.emit o).ctxs = m.ctxs := rfl
@[simp] theorem Mach.emit_link (m : Mach) (o : Out) : (m.emit o).link = m.link := rfl
@[simp] theorem Mach.emit_power (m : Mach) (o : Out) : (m.emit o).power = m.power := rfl
@[simp] theorem Mach.emit_badPar (m : Mach) (o : Out) : (m.emit o).badPar = m.badPar := rfl
@[simp] theorem Mach.emit_cgroups (m : Mach) (o : Out) : (m.emit o).cgroups = m.cgroups := rfl
@[simp] theorem Mach.emit_colls (m : Mach) (o : Out) : (m.emit o).colls = m.colls := rfl
@[simp] theorem Mach.emit_chans (m : Mach) (o : Out) : (m.emit o).chans = m.chans := rfl
@[simp] theorem Mach.emit_progs (m : Mach) (o : Out) : (m.emit o).progs = m.progs := rfl
@[simp] theorem Mach.emit_lost (m : Mach) (o : Out) : (m.emit o).lost = m.lost := rfl
@[simp] theorem Mach.emit_shadow (m : Mach) (o : Out) : (m.emit o).shadow = m.shadow := rfl
@[simp] theorem Mach.emit_gemms (m : Mach) (o : Out) : (m.emit o).gemms = m.gemms := rfl
@[simp] theorem Mach.emit_benches (m : Mach) (o : Out) : (m.emit o).benches = m.benches := rfl
@[simp] theorem Mach.emit_fritWait (m : Mach) (o : Out) : (m.emit o).fritWait = m.fritWait := rfl
@[simp] theorem Mach.emit_benchOffs (m : Mach) (o : Out) : (m.emit o).benchOffs = m.benchOffs := rfl
@[simp] theorem Mach.emit_phy (m : Mach) (o : Out) : (m.emit o).phy = m.phy := rfl
@[simp] theorem Mach.emit_peers (m : Mach) (o : Out) : (m.emit o).peers = m.peers := rfl
@[simp] theorem Mach.emit_disputes (m : Mach) (o : Out) : (m.emit o).disputes = m.disputes := rfl
@[simp] theorem Mach.emit_loans (m : Mach) (o : Out) : (m.emit o).loans = m.loans := rfl
@[simp] theorem Mach.emit_ports (m : Mach) (o : Out) : (m.emit o).ports = m.ports := rfl
@[simp] theorem Mach.emit_hosted (m : Mach) (o : Out) : (m.emit o).hosted = m.hosted := rfl
@[simp] theorem Mach.emit_ckpts (m : Mach) (o : Out) : (m.emit o).ckpts = m.ckpts := rfl
@[simp] theorem Mach.emit_claims (m : Mach) (o : Out) : (m.emit o).claims = m.claims := rfl
@[simp] theorem Mach.emit_digest (m : Mach) (o : Out) : (m.emit o).digest = m.digest := rfl
@[simp] theorem Mach.emit_shaky (m : Mach) (o : Out) : (m.emit o).shaky = m.shaky := rfl
@[simp] theorem Mach.emit_evPend (m : Mach) (o : Out) : (m.emit o).evPend = m.evPend := rfl
@[simp] theorem Mach.emit_fenceWait (m : Mach) (o : Out) : (m.emit o).fenceWait = m.fenceWait := rfl
@[simp] theorem Mach.emit_store (m : Mach) (o : Out) : (m.emit o).store = m.store := rfl
@[simp] theorem Mach.emit_tx (m : Mach) (o : Out) : (m.emit o).tx = m.tx := rfl
@[simp] theorem Mach.emit_rx (m : Mach) (o : Out) : (m.emit o).rx = m.rx := rfl
@[simp] theorem Mach.updDie_csr (m : Mach) (d : Nat) (f : Die → Die) : (m.updDie d f).csr = m.csr := rfl
@[simp] theorem Mach.updDie_dict (m : Mach) (d : Nat) (f : Die → Die) : (m.updDie d f).dict = m.dict := rfl
@[simp] theorem Mach.updDie_mem (m : Mach) (d : Nat) (f : Die → Die) : (m.updDie d f).mem = m.mem := rfl
@[simp] theorem Mach.updDie_chk (m : Mach) (d : Nat) (f : Die → Die) : (m.updDie d f).chk = m.chk := rfl
@[simp] theorem Mach.updDie_tensors (m : Mach) (d : Nat) (f : Die → Die) : (m.updDie d f).tensors = m.tensors := rfl
@[simp] theorem Mach.updDie_groups (m : Mach) (d : Nat) (f : Die → Die) : (m.updDie d f).groups = m.groups := rfl
@[simp] theorem Mach.updDie_ctxs (m : Mach) (d : Nat) (f : Die → Die) : (m.updDie d f).ctxs = m.ctxs := rfl
@[simp] theorem Mach.updDie_link (m : Mach) (d : Nat) (f : Die → Die) : (m.updDie d f).link = m.link := rfl
@[simp] theorem Mach.updDie_power (m : Mach) (d : Nat) (f : Die → Die) : (m.updDie d f).power = m.power := rfl
@[simp] theorem Mach.updDie_out (m : Mach) (d : Nat) (f : Die → Die) : (m.updDie d f).out = m.out := rfl
@[simp] theorem Mach.updDie_badPar (m : Mach) (d : Nat) (f : Die → Die) : (m.updDie d f).badPar = m.badPar := rfl
@[simp] theorem Mach.updDie_cgroups (m : Mach) (d : Nat) (f : Die → Die) : (m.updDie d f).cgroups = m.cgroups := rfl
@[simp] theorem Mach.updDie_colls (m : Mach) (d : Nat) (f : Die → Die) : (m.updDie d f).colls = m.colls := rfl
@[simp] theorem Mach.updDie_chans (m : Mach) (d : Nat) (f : Die → Die) : (m.updDie d f).chans = m.chans := rfl
@[simp] theorem Mach.updDie_progs (m : Mach) (d : Nat) (f : Die → Die) : (m.updDie d f).progs = m.progs := rfl
@[simp] theorem Mach.updDie_lost (m : Mach) (d : Nat) (f : Die → Die) : (m.updDie d f).lost = m.lost := rfl
@[simp] theorem Mach.updDie_shadow (m : Mach) (d : Nat) (f : Die → Die) : (m.updDie d f).shadow = m.shadow := rfl
@[simp] theorem Mach.updDie_gemms (m : Mach) (d : Nat) (f : Die → Die) : (m.updDie d f).gemms = m.gemms := rfl
@[simp] theorem Mach.updDie_benches (m : Mach) (d : Nat) (f : Die → Die) : (m.updDie d f).benches = m.benches := rfl
@[simp] theorem Mach.updDie_fritWait (m : Mach) (d : Nat) (f : Die → Die) : (m.updDie d f).fritWait = m.fritWait := rfl
@[simp] theorem Mach.updDie_benchOffs (m : Mach) (d : Nat) (f : Die → Die) : (m.updDie d f).benchOffs = m.benchOffs := rfl
@[simp] theorem Mach.updDie_phy (m : Mach) (d : Nat) (f : Die → Die) : (m.updDie d f).phy = m.phy := rfl
@[simp] theorem Mach.updDie_peers (m : Mach) (d : Nat) (f : Die → Die) : (m.updDie d f).peers = m.peers := rfl
@[simp] theorem Mach.updDie_disputes (m : Mach) (d : Nat) (f : Die → Die) : (m.updDie d f).disputes = m.disputes := rfl
@[simp] theorem Mach.updDie_loans (m : Mach) (d : Nat) (f : Die → Die) : (m.updDie d f).loans = m.loans := rfl
@[simp] theorem Mach.updDie_ports (m : Mach) (d : Nat) (f : Die → Die) : (m.updDie d f).ports = m.ports := rfl
@[simp] theorem Mach.updDie_hosted (m : Mach) (d : Nat) (f : Die → Die) : (m.updDie d f).hosted = m.hosted := rfl
@[simp] theorem Mach.updDie_ckpts (m : Mach) (d : Nat) (f : Die → Die) : (m.updDie d f).ckpts = m.ckpts := rfl
@[simp] theorem Mach.updDie_claims (m : Mach) (d : Nat) (f : Die → Die) : (m.updDie d f).claims = m.claims := rfl
@[simp] theorem Mach.updDie_digest (m : Mach) (d : Nat) (f : Die → Die) : (m.updDie d f).digest = m.digest := rfl
@[simp] theorem Mach.updDie_shaky (m : Mach) (d : Nat) (f : Die → Die) : (m.updDie d f).shaky = m.shaky := rfl
@[simp] theorem Mach.updDie_evPend (m : Mach) (d : Nat) (f : Die → Die) : (m.updDie d f).evPend = m.evPend := rfl
@[simp] theorem Mach.updDie_fenceWait (m : Mach) (d : Nat) (f : Die → Die) : (m.updDie d f).fenceWait = m.fenceWait := rfl
@[simp] theorem Mach.updDie_store (m : Mach) (d : Nat) (f : Die → Die) : (m.updDie d f).store = m.store := rfl
@[simp] theorem Mach.updDie_tx (m : Mach) (d : Nat) (f : Die → Die) : (m.updDie d f).tx = m.tx := rfl
@[simp] theorem Mach.updDie_rx (m : Mach) (d : Nat) (f : Die → Die) : (m.updDie d f).rx = m.rx := rfl
@[simp] theorem Mach.csrPut_dies (m : Mach) (a v : Nat) : (m.csrPut a v).dies = m.dies := rfl
@[simp] theorem Mach.csrPut_dict (m : Mach) (a v : Nat) : (m.csrPut a v).dict = m.dict := rfl
@[simp] theorem Mach.csrPut_mem (m : Mach) (a v : Nat) : (m.csrPut a v).mem = m.mem := rfl
@[simp] theorem Mach.csrPut_chk (m : Mach) (a v : Nat) : (m.csrPut a v).chk = m.chk := rfl
@[simp] theorem Mach.csrPut_tensors (m : Mach) (a v : Nat) : (m.csrPut a v).tensors = m.tensors := rfl
@[simp] theorem Mach.csrPut_groups (m : Mach) (a v : Nat) : (m.csrPut a v).groups = m.groups := rfl
@[simp] theorem Mach.csrPut_ctxs (m : Mach) (a v : Nat) : (m.csrPut a v).ctxs = m.ctxs := rfl
@[simp] theorem Mach.csrPut_link (m : Mach) (a v : Nat) : (m.csrPut a v).link = m.link := rfl
@[simp] theorem Mach.csrPut_power (m : Mach) (a v : Nat) : (m.csrPut a v).power = m.power := rfl
@[simp] theorem Mach.csrPut_out (m : Mach) (a v : Nat) : (m.csrPut a v).out = m.out := rfl
@[simp] theorem Mach.csrPut_badPar (m : Mach) (a v : Nat) : (m.csrPut a v).badPar = m.badPar := rfl
@[simp] theorem Mach.csrPut_cgroups (m : Mach) (a v : Nat) : (m.csrPut a v).cgroups = m.cgroups := rfl
@[simp] theorem Mach.csrPut_colls (m : Mach) (a v : Nat) : (m.csrPut a v).colls = m.colls := rfl
@[simp] theorem Mach.csrPut_chans (m : Mach) (a v : Nat) : (m.csrPut a v).chans = m.chans := rfl
@[simp] theorem Mach.csrPut_progs (m : Mach) (a v : Nat) : (m.csrPut a v).progs = m.progs := rfl
@[simp] theorem Mach.csrPut_lost (m : Mach) (a v : Nat) : (m.csrPut a v).lost = m.lost := rfl
@[simp] theorem Mach.csrPut_shadow (m : Mach) (a v : Nat) : (m.csrPut a v).shadow = m.shadow := rfl
@[simp] theorem Mach.csrPut_gemms (m : Mach) (a v : Nat) : (m.csrPut a v).gemms = m.gemms := rfl
@[simp] theorem Mach.csrPut_benches (m : Mach) (a v : Nat) : (m.csrPut a v).benches = m.benches := rfl
@[simp] theorem Mach.csrPut_fritWait (m : Mach) (a v : Nat) : (m.csrPut a v).fritWait = m.fritWait := rfl
@[simp] theorem Mach.csrPut_benchOffs (m : Mach) (a v : Nat) : (m.csrPut a v).benchOffs = m.benchOffs := rfl
@[simp] theorem Mach.csrPut_phy (m : Mach) (a v : Nat) : (m.csrPut a v).phy = m.phy := rfl
@[simp] theorem Mach.csrPut_peers (m : Mach) (a v : Nat) : (m.csrPut a v).peers = m.peers := rfl
@[simp] theorem Mach.csrPut_disputes (m : Mach) (a v : Nat) : (m.csrPut a v).disputes = m.disputes := rfl
@[simp] theorem Mach.csrPut_loans (m : Mach) (a v : Nat) : (m.csrPut a v).loans = m.loans := rfl
@[simp] theorem Mach.csrPut_ports (m : Mach) (a v : Nat) : (m.csrPut a v).ports = m.ports := rfl
@[simp] theorem Mach.csrPut_hosted (m : Mach) (a v : Nat) : (m.csrPut a v).hosted = m.hosted := rfl
@[simp] theorem Mach.csrPut_ckpts (m : Mach) (a v : Nat) : (m.csrPut a v).ckpts = m.ckpts := rfl
@[simp] theorem Mach.csrPut_claims (m : Mach) (a v : Nat) : (m.csrPut a v).claims = m.claims := rfl
@[simp] theorem Mach.csrPut_digest (m : Mach) (a v : Nat) : (m.csrPut a v).digest = m.digest := rfl
@[simp] theorem Mach.csrPut_shaky (m : Mach) (a v : Nat) : (m.csrPut a v).shaky = m.shaky := rfl
@[simp] theorem Mach.csrPut_evPend (m : Mach) (a v : Nat) : (m.csrPut a v).evPend = m.evPend := rfl
@[simp] theorem Mach.csrPut_fenceWait (m : Mach) (a v : Nat) : (m.csrPut a v).fenceWait = m.fenceWait := rfl
@[simp] theorem Mach.csrPut_store (m : Mach) (a v : Nat) : (m.csrPut a v).store = m.store := rfl
@[simp] theorem Mach.csrPut_tx (m : Mach) (a v : Nat) : (m.csrPut a v).tx = m.tx := rfl
@[simp] theorem Mach.csrPut_rx (m : Mach) (a v : Nat) : (m.csrPut a v).rx = m.rx := rfl
@[simp] theorem Mach.putReg_dies (m : Mach) (b : Blk) (d i off v : Nat) : (m.putReg b d i off v).dies = m.dies := rfl
@[simp] theorem Mach.putReg_dict (m : Mach) (b : Blk) (d i off v : Nat) : (m.putReg b d i off v).dict = m.dict := rfl
@[simp] theorem Mach.putReg_mem (m : Mach) (b : Blk) (d i off v : Nat) : (m.putReg b d i off v).mem = m.mem := rfl
@[simp] theorem Mach.putReg_chk (m : Mach) (b : Blk) (d i off v : Nat) : (m.putReg b d i off v).chk = m.chk := rfl
@[simp] theorem Mach.putReg_tensors (m : Mach) (b : Blk) (d i off v : Nat) : (m.putReg b d i off v).tensors = m.tensors := rfl
@[simp] theorem Mach.putReg_groups (m : Mach) (b : Blk) (d i off v : Nat) : (m.putReg b d i off v).groups = m.groups := rfl
@[simp] theorem Mach.putReg_ctxs (m : Mach) (b : Blk) (d i off v : Nat) : (m.putReg b d i off v).ctxs = m.ctxs := rfl
@[simp] theorem Mach.putReg_link (m : Mach) (b : Blk) (d i off v : Nat) : (m.putReg b d i off v).link = m.link := rfl
@[simp] theorem Mach.putReg_power (m : Mach) (b : Blk) (d i off v : Nat) : (m.putReg b d i off v).power = m.power := rfl
@[simp] theorem Mach.putReg_out (m : Mach) (b : Blk) (d i off v : Nat) : (m.putReg b d i off v).out = m.out := rfl
@[simp] theorem Mach.putReg_badPar (m : Mach) (b : Blk) (d i off v : Nat) : (m.putReg b d i off v).badPar = m.badPar := rfl
@[simp] theorem Mach.putReg_cgroups (m : Mach) (b : Blk) (d i off v : Nat) : (m.putReg b d i off v).cgroups = m.cgroups := rfl
@[simp] theorem Mach.putReg_colls (m : Mach) (b : Blk) (d i off v : Nat) : (m.putReg b d i off v).colls = m.colls := rfl
@[simp] theorem Mach.putReg_chans (m : Mach) (b : Blk) (d i off v : Nat) : (m.putReg b d i off v).chans = m.chans := rfl
@[simp] theorem Mach.putReg_progs (m : Mach) (b : Blk) (d i off v : Nat) : (m.putReg b d i off v).progs = m.progs := rfl
@[simp] theorem Mach.putReg_lost (m : Mach) (b : Blk) (d i off v : Nat) : (m.putReg b d i off v).lost = m.lost := rfl
@[simp] theorem Mach.putReg_shadow (m : Mach) (b : Blk) (d i off v : Nat) : (m.putReg b d i off v).shadow = m.shadow := rfl
@[simp] theorem Mach.putReg_gemms (m : Mach) (b : Blk) (d i off v : Nat) : (m.putReg b d i off v).gemms = m.gemms := rfl
@[simp] theorem Mach.putReg_benches (m : Mach) (b : Blk) (d i off v : Nat) : (m.putReg b d i off v).benches = m.benches := rfl
@[simp] theorem Mach.putReg_fritWait (m : Mach) (b : Blk) (d i off v : Nat) : (m.putReg b d i off v).fritWait = m.fritWait := rfl
@[simp] theorem Mach.putReg_benchOffs (m : Mach) (b : Blk) (d i off v : Nat) : (m.putReg b d i off v).benchOffs = m.benchOffs := rfl
@[simp] theorem Mach.putReg_phy (m : Mach) (b : Blk) (d i off v : Nat) : (m.putReg b d i off v).phy = m.phy := rfl
@[simp] theorem Mach.putReg_peers (m : Mach) (b : Blk) (d i off v : Nat) : (m.putReg b d i off v).peers = m.peers := rfl
@[simp] theorem Mach.putReg_disputes (m : Mach) (b : Blk) (d i off v : Nat) : (m.putReg b d i off v).disputes = m.disputes := rfl
@[simp] theorem Mach.putReg_loans (m : Mach) (b : Blk) (d i off v : Nat) : (m.putReg b d i off v).loans = m.loans := rfl
@[simp] theorem Mach.putReg_ports (m : Mach) (b : Blk) (d i off v : Nat) : (m.putReg b d i off v).ports = m.ports := rfl
@[simp] theorem Mach.putReg_hosted (m : Mach) (b : Blk) (d i off v : Nat) : (m.putReg b d i off v).hosted = m.hosted := rfl
@[simp] theorem Mach.putReg_ckpts (m : Mach) (b : Blk) (d i off v : Nat) : (m.putReg b d i off v).ckpts = m.ckpts := rfl
@[simp] theorem Mach.putReg_claims (m : Mach) (b : Blk) (d i off v : Nat) : (m.putReg b d i off v).claims = m.claims := rfl
@[simp] theorem Mach.putReg_digest (m : Mach) (b : Blk) (d i off v : Nat) : (m.putReg b d i off v).digest = m.digest := rfl
@[simp] theorem Mach.putReg_shaky (m : Mach) (b : Blk) (d i off v : Nat) : (m.putReg b d i off v).shaky = m.shaky := rfl
@[simp] theorem Mach.putReg_evPend (m : Mach) (b : Blk) (d i off v : Nat) : (m.putReg b d i off v).evPend = m.evPend := rfl
@[simp] theorem Mach.putReg_fenceWait (m : Mach) (b : Blk) (d i off v : Nat) : (m.putReg b d i off v).fenceWait = m.fenceWait := rfl
@[simp] theorem Mach.putReg_store (m : Mach) (b : Blk) (d i off v : Nat) : (m.putReg b d i off v).store = m.store := rfl
@[simp] theorem Mach.putReg_tx (m : Mach) (b : Blk) (d i off v : Nat) : (m.putReg b d i off v).tx = m.tx := rfl
@[simp] theorem Mach.putReg_rx (m : Mach) (b : Blk) (d i off v : Nat) : (m.putReg b d i off v).rx = m.rx := rfl
@[simp] theorem Mach.dictPut_dies (m : Mach) (i sub : Nat) (v : Bytes) : (m.dictPut i sub v).dies = m.dies := rfl
@[simp] theorem Mach.dictPut_csr (m : Mach) (i sub : Nat) (v : Bytes) : (m.dictPut i sub v).csr = m.csr := rfl
@[simp] theorem Mach.dictPut_mem (m : Mach) (i sub : Nat) (v : Bytes) : (m.dictPut i sub v).mem = m.mem := rfl
@[simp] theorem Mach.dictPut_chk (m : Mach) (i sub : Nat) (v : Bytes) : (m.dictPut i sub v).chk = m.chk := rfl
@[simp] theorem Mach.dictPut_tensors (m : Mach) (i sub : Nat) (v : Bytes) : (m.dictPut i sub v).tensors = m.tensors := rfl
@[simp] theorem Mach.dictPut_groups (m : Mach) (i sub : Nat) (v : Bytes) : (m.dictPut i sub v).groups = m.groups := rfl
@[simp] theorem Mach.dictPut_ctxs (m : Mach) (i sub : Nat) (v : Bytes) : (m.dictPut i sub v).ctxs = m.ctxs := rfl
@[simp] theorem Mach.dictPut_link (m : Mach) (i sub : Nat) (v : Bytes) : (m.dictPut i sub v).link = m.link := rfl
@[simp] theorem Mach.dictPut_power (m : Mach) (i sub : Nat) (v : Bytes) : (m.dictPut i sub v).power = m.power := rfl
@[simp] theorem Mach.dictPut_out (m : Mach) (i sub : Nat) (v : Bytes) : (m.dictPut i sub v).out = m.out := rfl
@[simp] theorem Mach.dictPut_badPar (m : Mach) (i sub : Nat) (v : Bytes) : (m.dictPut i sub v).badPar = m.badPar := rfl
@[simp] theorem Mach.dictPut_cgroups (m : Mach) (i sub : Nat) (v : Bytes) : (m.dictPut i sub v).cgroups = m.cgroups := rfl
@[simp] theorem Mach.dictPut_colls (m : Mach) (i sub : Nat) (v : Bytes) : (m.dictPut i sub v).colls = m.colls := rfl
@[simp] theorem Mach.dictPut_chans (m : Mach) (i sub : Nat) (v : Bytes) : (m.dictPut i sub v).chans = m.chans := rfl
@[simp] theorem Mach.dictPut_progs (m : Mach) (i sub : Nat) (v : Bytes) : (m.dictPut i sub v).progs = m.progs := rfl
@[simp] theorem Mach.dictPut_lost (m : Mach) (i sub : Nat) (v : Bytes) : (m.dictPut i sub v).lost = m.lost := rfl
@[simp] theorem Mach.dictPut_shadow (m : Mach) (i sub : Nat) (v : Bytes) : (m.dictPut i sub v).shadow = m.shadow := rfl
@[simp] theorem Mach.dictPut_gemms (m : Mach) (i sub : Nat) (v : Bytes) : (m.dictPut i sub v).gemms = m.gemms := rfl
@[simp] theorem Mach.dictPut_benches (m : Mach) (i sub : Nat) (v : Bytes) : (m.dictPut i sub v).benches = m.benches := rfl
@[simp] theorem Mach.dictPut_fritWait (m : Mach) (i sub : Nat) (v : Bytes) : (m.dictPut i sub v).fritWait = m.fritWait := rfl
@[simp] theorem Mach.dictPut_benchOffs (m : Mach) (i sub : Nat) (v : Bytes) : (m.dictPut i sub v).benchOffs = m.benchOffs := rfl
@[simp] theorem Mach.dictPut_phy (m : Mach) (i sub : Nat) (v : Bytes) : (m.dictPut i sub v).phy = m.phy := rfl
@[simp] theorem Mach.dictPut_peers (m : Mach) (i sub : Nat) (v : Bytes) : (m.dictPut i sub v).peers = m.peers := rfl
@[simp] theorem Mach.dictPut_disputes (m : Mach) (i sub : Nat) (v : Bytes) : (m.dictPut i sub v).disputes = m.disputes := rfl
@[simp] theorem Mach.dictPut_loans (m : Mach) (i sub : Nat) (v : Bytes) : (m.dictPut i sub v).loans = m.loans := rfl
@[simp] theorem Mach.dictPut_ports (m : Mach) (i sub : Nat) (v : Bytes) : (m.dictPut i sub v).ports = m.ports := rfl
@[simp] theorem Mach.dictPut_hosted (m : Mach) (i sub : Nat) (v : Bytes) : (m.dictPut i sub v).hosted = m.hosted := rfl
@[simp] theorem Mach.dictPut_ckpts (m : Mach) (i sub : Nat) (v : Bytes) : (m.dictPut i sub v).ckpts = m.ckpts := rfl
@[simp] theorem Mach.dictPut_claims (m : Mach) (i sub : Nat) (v : Bytes) : (m.dictPut i sub v).claims = m.claims := rfl
@[simp] theorem Mach.dictPut_digest (m : Mach) (i sub : Nat) (v : Bytes) : (m.dictPut i sub v).digest = m.digest := rfl
@[simp] theorem Mach.dictPut_shaky (m : Mach) (i sub : Nat) (v : Bytes) : (m.dictPut i sub v).shaky = m.shaky := rfl
@[simp] theorem Mach.dictPut_evPend (m : Mach) (i sub : Nat) (v : Bytes) : (m.dictPut i sub v).evPend = m.evPend := rfl
@[simp] theorem Mach.dictPut_fenceWait (m : Mach) (i sub : Nat) (v : Bytes) : (m.dictPut i sub v).fenceWait = m.fenceWait := rfl
@[simp] theorem Mach.dictPut_store (m : Mach) (i sub : Nat) (v : Bytes) : (m.dictPut i sub v).store = m.store := rfl
@[simp] theorem Mach.dictPut_tx (m : Mach) (i sub : Nat) (v : Bytes) : (m.dictPut i sub v).tx = m.tx := rfl
@[simp] theorem Mach.dictPut_rx (m : Mach) (i sub : Nat) (v : Bytes) : (m.dictPut i sub v).rx = m.rx := rfl
@[simp] theorem Mach.updCtx_dies (m : Mach) (c : Nat) (f : Ctx → Ctx) : (m.updCtx c f).dies = m.dies := rfl
@[simp] theorem Mach.updCtx_csr (m : Mach) (c : Nat) (f : Ctx → Ctx) : (m.updCtx c f).csr = m.csr := rfl
@[simp] theorem Mach.updCtx_dict (m : Mach) (c : Nat) (f : Ctx → Ctx) : (m.updCtx c f).dict = m.dict := rfl
@[simp] theorem Mach.updCtx_mem (m : Mach) (c : Nat) (f : Ctx → Ctx) : (m.updCtx c f).mem = m.mem := rfl
@[simp] theorem Mach.updCtx_chk (m : Mach) (c : Nat) (f : Ctx → Ctx) : (m.updCtx c f).chk = m.chk := rfl
@[simp] theorem Mach.updCtx_tensors (m : Mach) (c : Nat) (f : Ctx → Ctx) : (m.updCtx c f).tensors = m.tensors := rfl
@[simp] theorem Mach.updCtx_groups (m : Mach) (c : Nat) (f : Ctx → Ctx) : (m.updCtx c f).groups = m.groups := rfl
@[simp] theorem Mach.updCtx_link (m : Mach) (c : Nat) (f : Ctx → Ctx) : (m.updCtx c f).link = m.link := rfl
@[simp] theorem Mach.updCtx_power (m : Mach) (c : Nat) (f : Ctx → Ctx) : (m.updCtx c f).power = m.power := rfl
@[simp] theorem Mach.updCtx_out (m : Mach) (c : Nat) (f : Ctx → Ctx) : (m.updCtx c f).out = m.out := rfl
@[simp] theorem Mach.updCtx_badPar (m : Mach) (c : Nat) (f : Ctx → Ctx) : (m.updCtx c f).badPar = m.badPar := rfl
@[simp] theorem Mach.updCtx_cgroups (m : Mach) (c : Nat) (f : Ctx → Ctx) : (m.updCtx c f).cgroups = m.cgroups := rfl
@[simp] theorem Mach.updCtx_colls (m : Mach) (c : Nat) (f : Ctx → Ctx) : (m.updCtx c f).colls = m.colls := rfl
@[simp] theorem Mach.updCtx_chans (m : Mach) (c : Nat) (f : Ctx → Ctx) : (m.updCtx c f).chans = m.chans := rfl
@[simp] theorem Mach.updCtx_progs (m : Mach) (c : Nat) (f : Ctx → Ctx) : (m.updCtx c f).progs = m.progs := rfl
@[simp] theorem Mach.updCtx_lost (m : Mach) (c : Nat) (f : Ctx → Ctx) : (m.updCtx c f).lost = m.lost := rfl
@[simp] theorem Mach.updCtx_shadow (m : Mach) (c : Nat) (f : Ctx → Ctx) : (m.updCtx c f).shadow = m.shadow := rfl
@[simp] theorem Mach.updCtx_gemms (m : Mach) (c : Nat) (f : Ctx → Ctx) : (m.updCtx c f).gemms = m.gemms := rfl
@[simp] theorem Mach.updCtx_benches (m : Mach) (c : Nat) (f : Ctx → Ctx) : (m.updCtx c f).benches = m.benches := rfl
@[simp] theorem Mach.updCtx_fritWait (m : Mach) (c : Nat) (f : Ctx → Ctx) : (m.updCtx c f).fritWait = m.fritWait := rfl
@[simp] theorem Mach.updCtx_benchOffs (m : Mach) (c : Nat) (f : Ctx → Ctx) : (m.updCtx c f).benchOffs = m.benchOffs := rfl
@[simp] theorem Mach.updCtx_phy (m : Mach) (c : Nat) (f : Ctx → Ctx) : (m.updCtx c f).phy = m.phy := rfl
@[simp] theorem Mach.updCtx_peers (m : Mach) (c : Nat) (f : Ctx → Ctx) : (m.updCtx c f).peers = m.peers := rfl
@[simp] theorem Mach.updCtx_disputes (m : Mach) (c : Nat) (f : Ctx → Ctx) : (m.updCtx c f).disputes = m.disputes := rfl
@[simp] theorem Mach.updCtx_loans (m : Mach) (c : Nat) (f : Ctx → Ctx) : (m.updCtx c f).loans = m.loans := rfl
@[simp] theorem Mach.updCtx_ports (m : Mach) (c : Nat) (f : Ctx → Ctx) : (m.updCtx c f).ports = m.ports := rfl
@[simp] theorem Mach.updCtx_hosted (m : Mach) (c : Nat) (f : Ctx → Ctx) : (m.updCtx c f).hosted = m.hosted := rfl
@[simp] theorem Mach.updCtx_ckpts (m : Mach) (c : Nat) (f : Ctx → Ctx) : (m.updCtx c f).ckpts = m.ckpts := rfl
@[simp] theorem Mach.updCtx_claims (m : Mach) (c : Nat) (f : Ctx → Ctx) : (m.updCtx c f).claims = m.claims := rfl
@[simp] theorem Mach.updCtx_digest (m : Mach) (c : Nat) (f : Ctx → Ctx) : (m.updCtx c f).digest = m.digest := rfl
@[simp] theorem Mach.updCtx_shaky (m : Mach) (c : Nat) (f : Ctx → Ctx) : (m.updCtx c f).shaky = m.shaky := rfl
@[simp] theorem Mach.updCtx_evPend (m : Mach) (c : Nat) (f : Ctx → Ctx) : (m.updCtx c f).evPend = m.evPend := rfl
@[simp] theorem Mach.updCtx_fenceWait (m : Mach) (c : Nat) (f : Ctx → Ctx) : (m.updCtx c f).fenceWait = m.fenceWait := rfl
@[simp] theorem Mach.updCtx_store (m : Mach) (c : Nat) (f : Ctx → Ctx) : (m.updCtx c f).store = m.store := rfl
@[simp] theorem Mach.updCtx_tx (m : Mach) (c : Nat) (f : Ctx → Ctx) : (m.updCtx c f).tx = m.tx := rfl
@[simp] theorem Mach.updCtx_rx (m : Mach) (c : Nat) (f : Ctx → Ctx) : (m.updCtx c f).rx = m.rx := rfl
@[simp] theorem Mach.updGroup_dies (m : Mach) (p g : Nat) (f : Group → Group) : (m.updGroup p g f).dies = m.dies := rfl
@[simp] theorem Mach.updGroup_csr (m : Mach) (p g : Nat) (f : Group → Group) : (m.updGroup p g f).csr = m.csr := rfl
@[simp] theorem Mach.updGroup_dict (m : Mach) (p g : Nat) (f : Group → Group) : (m.updGroup p g f).dict = m.dict := rfl
@[simp] theorem Mach.updGroup_mem (m : Mach) (p g : Nat) (f : Group → Group) : (m.updGroup p g f).mem = m.mem := rfl
@[simp] theorem Mach.updGroup_chk (m : Mach) (p g : Nat) (f : Group → Group) : (m.updGroup p g f).chk = m.chk := rfl
@[simp] theorem Mach.updGroup_tensors (m : Mach) (p g : Nat) (f : Group → Group) : (m.updGroup p g f).tensors = m.tensors := rfl
@[simp] theorem Mach.updGroup_ctxs (m : Mach) (p g : Nat) (f : Group → Group) : (m.updGroup p g f).ctxs = m.ctxs := rfl
@[simp] theorem Mach.updGroup_link (m : Mach) (p g : Nat) (f : Group → Group) : (m.updGroup p g f).link = m.link := rfl
@[simp] theorem Mach.updGroup_power (m : Mach) (p g : Nat) (f : Group → Group) : (m.updGroup p g f).power = m.power := rfl
@[simp] theorem Mach.updGroup_out (m : Mach) (p g : Nat) (f : Group → Group) : (m.updGroup p g f).out = m.out := rfl
@[simp] theorem Mach.updGroup_badPar (m : Mach) (p g : Nat) (f : Group → Group) : (m.updGroup p g f).badPar = m.badPar := rfl
@[simp] theorem Mach.updGroup_cgroups (m : Mach) (p g : Nat) (f : Group → Group) : (m.updGroup p g f).cgroups = m.cgroups := rfl
@[simp] theorem Mach.updGroup_colls (m : Mach) (p g : Nat) (f : Group → Group) : (m.updGroup p g f).colls = m.colls := rfl
@[simp] theorem Mach.updGroup_chans (m : Mach) (p g : Nat) (f : Group → Group) : (m.updGroup p g f).chans = m.chans := rfl
@[simp] theorem Mach.updGroup_progs (m : Mach) (p g : Nat) (f : Group → Group) : (m.updGroup p g f).progs = m.progs := rfl
@[simp] theorem Mach.updGroup_lost (m : Mach) (p g : Nat) (f : Group → Group) : (m.updGroup p g f).lost = m.lost := rfl
@[simp] theorem Mach.updGroup_shadow (m : Mach) (p g : Nat) (f : Group → Group) : (m.updGroup p g f).shadow = m.shadow := rfl
@[simp] theorem Mach.updGroup_gemms (m : Mach) (p g : Nat) (f : Group → Group) : (m.updGroup p g f).gemms = m.gemms := rfl
@[simp] theorem Mach.updGroup_benches (m : Mach) (p g : Nat) (f : Group → Group) : (m.updGroup p g f).benches = m.benches := rfl
@[simp] theorem Mach.updGroup_fritWait (m : Mach) (p g : Nat) (f : Group → Group) : (m.updGroup p g f).fritWait = m.fritWait := rfl
@[simp] theorem Mach.updGroup_benchOffs (m : Mach) (p g : Nat) (f : Group → Group) : (m.updGroup p g f).benchOffs = m.benchOffs := rfl
@[simp] theorem Mach.updGroup_phy (m : Mach) (p g : Nat) (f : Group → Group) : (m.updGroup p g f).phy = m.phy := rfl
@[simp] theorem Mach.updGroup_peers (m : Mach) (p g : Nat) (f : Group → Group) : (m.updGroup p g f).peers = m.peers := rfl
@[simp] theorem Mach.updGroup_disputes (m : Mach) (p g : Nat) (f : Group → Group) : (m.updGroup p g f).disputes = m.disputes := rfl
@[simp] theorem Mach.updGroup_loans (m : Mach) (p g : Nat) (f : Group → Group) : (m.updGroup p g f).loans = m.loans := rfl
@[simp] theorem Mach.updGroup_ports (m : Mach) (p g : Nat) (f : Group → Group) : (m.updGroup p g f).ports = m.ports := rfl
@[simp] theorem Mach.updGroup_hosted (m : Mach) (p g : Nat) (f : Group → Group) : (m.updGroup p g f).hosted = m.hosted := rfl
@[simp] theorem Mach.updGroup_ckpts (m : Mach) (p g : Nat) (f : Group → Group) : (m.updGroup p g f).ckpts = m.ckpts := rfl
@[simp] theorem Mach.updGroup_claims (m : Mach) (p g : Nat) (f : Group → Group) : (m.updGroup p g f).claims = m.claims := rfl
@[simp] theorem Mach.updGroup_digest (m : Mach) (p g : Nat) (f : Group → Group) : (m.updGroup p g f).digest = m.digest := rfl
@[simp] theorem Mach.updGroup_shaky (m : Mach) (p g : Nat) (f : Group → Group) : (m.updGroup p g f).shaky = m.shaky := rfl
@[simp] theorem Mach.updGroup_evPend (m : Mach) (p g : Nat) (f : Group → Group) : (m.updGroup p g f).evPend = m.evPend := rfl
@[simp] theorem Mach.updGroup_fenceWait (m : Mach) (p g : Nat) (f : Group → Group) : (m.updGroup p g f).fenceWait = m.fenceWait := rfl
@[simp] theorem Mach.updGroup_store (m : Mach) (p g : Nat) (f : Group → Group) : (m.updGroup p g f).store = m.store := rfl
@[simp] theorem Mach.updGroup_tx (m : Mach) (p g : Nat) (f : Group → Group) : (m.updGroup p g f).tx = m.tx := rfl
@[simp] theorem Mach.updGroup_rx (m : Mach) (p g : Nat) (f : Group → Group) : (m.updGroup p g f).rx = m.rx := rfl
@[simp] theorem Mach.updTensor_dies (m : Mach) (p h : Nat) (f : Tensor → Tensor) : (m.updTensor p h f).dies = m.dies := rfl
@[simp] theorem Mach.updTensor_csr (m : Mach) (p h : Nat) (f : Tensor → Tensor) : (m.updTensor p h f).csr = m.csr := rfl
@[simp] theorem Mach.updTensor_dict (m : Mach) (p h : Nat) (f : Tensor → Tensor) : (m.updTensor p h f).dict = m.dict := rfl
@[simp] theorem Mach.updTensor_mem (m : Mach) (p h : Nat) (f : Tensor → Tensor) : (m.updTensor p h f).mem = m.mem := rfl
@[simp] theorem Mach.updTensor_chk (m : Mach) (p h : Nat) (f : Tensor → Tensor) : (m.updTensor p h f).chk = m.chk := rfl
@[simp] theorem Mach.updTensor_groups (m : Mach) (p h : Nat) (f : Tensor → Tensor) : (m.updTensor p h f).groups = m.groups := rfl
@[simp] theorem Mach.updTensor_ctxs (m : Mach) (p h : Nat) (f : Tensor → Tensor) : (m.updTensor p h f).ctxs = m.ctxs := rfl
@[simp] theorem Mach.updTensor_link (m : Mach) (p h : Nat) (f : Tensor → Tensor) : (m.updTensor p h f).link = m.link := rfl
@[simp] theorem Mach.updTensor_power (m : Mach) (p h : Nat) (f : Tensor → Tensor) : (m.updTensor p h f).power = m.power := rfl
@[simp] theorem Mach.updTensor_out (m : Mach) (p h : Nat) (f : Tensor → Tensor) : (m.updTensor p h f).out = m.out := rfl
@[simp] theorem Mach.updTensor_badPar (m : Mach) (p h : Nat) (f : Tensor → Tensor) : (m.updTensor p h f).badPar = m.badPar := rfl
@[simp] theorem Mach.updTensor_cgroups (m : Mach) (p h : Nat) (f : Tensor → Tensor) : (m.updTensor p h f).cgroups = m.cgroups := rfl
@[simp] theorem Mach.updTensor_colls (m : Mach) (p h : Nat) (f : Tensor → Tensor) : (m.updTensor p h f).colls = m.colls := rfl
@[simp] theorem Mach.updTensor_chans (m : Mach) (p h : Nat) (f : Tensor → Tensor) : (m.updTensor p h f).chans = m.chans := rfl
@[simp] theorem Mach.updTensor_progs (m : Mach) (p h : Nat) (f : Tensor → Tensor) : (m.updTensor p h f).progs = m.progs := rfl
@[simp] theorem Mach.updTensor_lost (m : Mach) (p h : Nat) (f : Tensor → Tensor) : (m.updTensor p h f).lost = m.lost := rfl
@[simp] theorem Mach.updTensor_shadow (m : Mach) (p h : Nat) (f : Tensor → Tensor) : (m.updTensor p h f).shadow = m.shadow := rfl
@[simp] theorem Mach.updTensor_gemms (m : Mach) (p h : Nat) (f : Tensor → Tensor) : (m.updTensor p h f).gemms = m.gemms := rfl
@[simp] theorem Mach.updTensor_benches (m : Mach) (p h : Nat) (f : Tensor → Tensor) : (m.updTensor p h f).benches = m.benches := rfl
@[simp] theorem Mach.updTensor_fritWait (m : Mach) (p h : Nat) (f : Tensor → Tensor) : (m.updTensor p h f).fritWait = m.fritWait := rfl
@[simp] theorem Mach.updTensor_benchOffs (m : Mach) (p h : Nat) (f : Tensor → Tensor) : (m.updTensor p h f).benchOffs = m.benchOffs := rfl
@[simp] theorem Mach.updTensor_phy (m : Mach) (p h : Nat) (f : Tensor → Tensor) : (m.updTensor p h f).phy = m.phy := rfl
@[simp] theorem Mach.updTensor_peers (m : Mach) (p h : Nat) (f : Tensor → Tensor) : (m.updTensor p h f).peers = m.peers := rfl
@[simp] theorem Mach.updTensor_disputes (m : Mach) (p h : Nat) (f : Tensor → Tensor) : (m.updTensor p h f).disputes = m.disputes := rfl
@[simp] theorem Mach.updTensor_loans (m : Mach) (p h : Nat) (f : Tensor → Tensor) : (m.updTensor p h f).loans = m.loans := rfl
@[simp] theorem Mach.updTensor_ports (m : Mach) (p h : Nat) (f : Tensor → Tensor) : (m.updTensor p h f).ports = m.ports := rfl
@[simp] theorem Mach.updTensor_hosted (m : Mach) (p h : Nat) (f : Tensor → Tensor) : (m.updTensor p h f).hosted = m.hosted := rfl
@[simp] theorem Mach.updTensor_ckpts (m : Mach) (p h : Nat) (f : Tensor → Tensor) : (m.updTensor p h f).ckpts = m.ckpts := rfl
@[simp] theorem Mach.updTensor_claims (m : Mach) (p h : Nat) (f : Tensor → Tensor) : (m.updTensor p h f).claims = m.claims := rfl
@[simp] theorem Mach.updTensor_digest (m : Mach) (p h : Nat) (f : Tensor → Tensor) : (m.updTensor p h f).digest = m.digest := rfl
@[simp] theorem Mach.updTensor_shaky (m : Mach) (p h : Nat) (f : Tensor → Tensor) : (m.updTensor p h f).shaky = m.shaky := rfl
@[simp] theorem Mach.updTensor_evPend (m : Mach) (p h : Nat) (f : Tensor → Tensor) : (m.updTensor p h f).evPend = m.evPend := rfl
@[simp] theorem Mach.updTensor_fenceWait (m : Mach) (p h : Nat) (f : Tensor → Tensor) : (m.updTensor p h f).fenceWait = m.fenceWait := rfl
@[simp] theorem Mach.updTensor_store (m : Mach) (p h : Nat) (f : Tensor → Tensor) : (m.updTensor p h f).store = m.store := rfl
@[simp] theorem Mach.updTensor_tx (m : Mach) (p h : Nat) (f : Tensor → Tensor) : (m.updTensor p h f).tx = m.tx := rfl
@[simp] theorem Mach.updTensor_rx (m : Mach) (p h : Nat) (f : Tensor → Tensor) : (m.updTensor p h f).rx = m.rx := rfl
@[simp] theorem Mach.updLink_dies (m : Mach) (f : Link → Link) : (m.updLink f).dies = m.dies := rfl
@[simp] theorem Mach.updLink_csr (m : Mach) (f : Link → Link) : (m.updLink f).csr = m.csr := rfl
@[simp] theorem Mach.updLink_dict (m : Mach) (f : Link → Link) : (m.updLink f).dict = m.dict := rfl
@[simp] theorem Mach.updLink_mem (m : Mach) (f : Link → Link) : (m.updLink f).mem = m.mem := rfl
@[simp] theorem Mach.updLink_chk (m : Mach) (f : Link → Link) : (m.updLink f).chk = m.chk := rfl
@[simp] theorem Mach.updLink_tensors (m : Mach) (f : Link → Link) : (m.updLink f).tensors = m.tensors := rfl
@[simp] theorem Mach.updLink_groups (m : Mach) (f : Link → Link) : (m.updLink f).groups = m.groups := rfl
@[simp] theorem Mach.updLink_ctxs (m : Mach) (f : Link → Link) : (m.updLink f).ctxs = m.ctxs := rfl
@[simp] theorem Mach.updLink_power (m : Mach) (f : Link → Link) : (m.updLink f).power = m.power := rfl
@[simp] theorem Mach.updLink_out (m : Mach) (f : Link → Link) : (m.updLink f).out = m.out := rfl
@[simp] theorem Mach.updLink_badPar (m : Mach) (f : Link → Link) : (m.updLink f).badPar = m.badPar := rfl
@[simp] theorem Mach.updLink_cgroups (m : Mach) (f : Link → Link) : (m.updLink f).cgroups = m.cgroups := rfl
@[simp] theorem Mach.updLink_colls (m : Mach) (f : Link → Link) : (m.updLink f).colls = m.colls := rfl
@[simp] theorem Mach.updLink_chans (m : Mach) (f : Link → Link) : (m.updLink f).chans = m.chans := rfl
@[simp] theorem Mach.updLink_progs (m : Mach) (f : Link → Link) : (m.updLink f).progs = m.progs := rfl
@[simp] theorem Mach.updLink_lost (m : Mach) (f : Link → Link) : (m.updLink f).lost = m.lost := rfl
@[simp] theorem Mach.updLink_shadow (m : Mach) (f : Link → Link) : (m.updLink f).shadow = m.shadow := rfl
@[simp] theorem Mach.updLink_gemms (m : Mach) (f : Link → Link) : (m.updLink f).gemms = m.gemms := rfl
@[simp] theorem Mach.updLink_benches (m : Mach) (f : Link → Link) : (m.updLink f).benches = m.benches := rfl
@[simp] theorem Mach.updLink_fritWait (m : Mach) (f : Link → Link) : (m.updLink f).fritWait = m.fritWait := rfl
@[simp] theorem Mach.updLink_benchOffs (m : Mach) (f : Link → Link) : (m.updLink f).benchOffs = m.benchOffs := rfl
@[simp] theorem Mach.updLink_phy (m : Mach) (f : Link → Link) : (m.updLink f).phy = m.phy := rfl
@[simp] theorem Mach.updLink_peers (m : Mach) (f : Link → Link) : (m.updLink f).peers = m.peers := rfl
@[simp] theorem Mach.updLink_disputes (m : Mach) (f : Link → Link) : (m.updLink f).disputes = m.disputes := rfl
@[simp] theorem Mach.updLink_loans (m : Mach) (f : Link → Link) : (m.updLink f).loans = m.loans := rfl
@[simp] theorem Mach.updLink_ports (m : Mach) (f : Link → Link) : (m.updLink f).ports = m.ports := rfl
@[simp] theorem Mach.updLink_hosted (m : Mach) (f : Link → Link) : (m.updLink f).hosted = m.hosted := rfl
@[simp] theorem Mach.updLink_ckpts (m : Mach) (f : Link → Link) : (m.updLink f).ckpts = m.ckpts := rfl
@[simp] theorem Mach.updLink_claims (m : Mach) (f : Link → Link) : (m.updLink f).claims = m.claims := rfl
@[simp] theorem Mach.updLink_digest (m : Mach) (f : Link → Link) : (m.updLink f).digest = m.digest := rfl
@[simp] theorem Mach.updLink_shaky (m : Mach) (f : Link → Link) : (m.updLink f).shaky = m.shaky := rfl
@[simp] theorem Mach.updLink_evPend (m : Mach) (f : Link → Link) : (m.updLink f).evPend = m.evPend := rfl
@[simp] theorem Mach.updLink_fenceWait (m : Mach) (f : Link → Link) : (m.updLink f).fenceWait = m.fenceWait := rfl
@[simp] theorem Mach.updLink_store (m : Mach) (f : Link → Link) : (m.updLink f).store = m.store := rfl
@[simp] theorem Mach.updLink_tx (m : Mach) (f : Link → Link) : (m.updLink f).tx = m.tx := rfl
@[simp] theorem Mach.updLink_rx (m : Mach) (f : Link → Link) : (m.updLink f).rx = m.rx := rfl
@[simp] theorem Mach.updMgmt_dies (m : Mach) (f : Mgmt → Mgmt) : (m.updMgmt f).dies = m.dies := rfl
@[simp] theorem Mach.updMgmt_csr (m : Mach) (f : Mgmt → Mgmt) : (m.updMgmt f).csr = m.csr := rfl
@[simp] theorem Mach.updMgmt_dict (m : Mach) (f : Mgmt → Mgmt) : (m.updMgmt f).dict = m.dict := rfl
@[simp] theorem Mach.updMgmt_mem (m : Mach) (f : Mgmt → Mgmt) : (m.updMgmt f).mem = m.mem := rfl
@[simp] theorem Mach.updMgmt_chk (m : Mach) (f : Mgmt → Mgmt) : (m.updMgmt f).chk = m.chk := rfl
@[simp] theorem Mach.updMgmt_tensors (m : Mach) (f : Mgmt → Mgmt) : (m.updMgmt f).tensors = m.tensors := rfl
@[simp] theorem Mach.updMgmt_groups (m : Mach) (f : Mgmt → Mgmt) : (m.updMgmt f).groups = m.groups := rfl
@[simp] theorem Mach.updMgmt_ctxs (m : Mach) (f : Mgmt → Mgmt) : (m.updMgmt f).ctxs = m.ctxs := rfl
@[simp] theorem Mach.updMgmt_link (m : Mach) (f : Mgmt → Mgmt) : (m.updMgmt f).link = m.link := rfl
@[simp] theorem Mach.updMgmt_power (m : Mach) (f : Mgmt → Mgmt) : (m.updMgmt f).power = m.power := rfl
@[simp] theorem Mach.updMgmt_out (m : Mach) (f : Mgmt → Mgmt) : (m.updMgmt f).out = m.out := rfl
@[simp] theorem Mach.updMgmt_badPar (m : Mach) (f : Mgmt → Mgmt) : (m.updMgmt f).badPar = m.badPar := rfl
@[simp] theorem Mach.updMgmt_cgroups (m : Mach) (f : Mgmt → Mgmt) : (m.updMgmt f).cgroups = m.cgroups := rfl
@[simp] theorem Mach.updMgmt_colls (m : Mach) (f : Mgmt → Mgmt) : (m.updMgmt f).colls = m.colls := rfl
@[simp] theorem Mach.updMgmt_chans (m : Mach) (f : Mgmt → Mgmt) : (m.updMgmt f).chans = m.chans := rfl
@[simp] theorem Mach.updMgmt_progs (m : Mach) (f : Mgmt → Mgmt) : (m.updMgmt f).progs = m.progs := rfl
@[simp] theorem Mach.updMgmt_lost (m : Mach) (f : Mgmt → Mgmt) : (m.updMgmt f).lost = m.lost := rfl
@[simp] theorem Mach.updMgmt_shadow (m : Mach) (f : Mgmt → Mgmt) : (m.updMgmt f).shadow = m.shadow := rfl
@[simp] theorem Mach.updMgmt_gemms (m : Mach) (f : Mgmt → Mgmt) : (m.updMgmt f).gemms = m.gemms := rfl
@[simp] theorem Mach.updMgmt_benches (m : Mach) (f : Mgmt → Mgmt) : (m.updMgmt f).benches = m.benches := rfl
@[simp] theorem Mach.updMgmt_fritWait (m : Mach) (f : Mgmt → Mgmt) : (m.updMgmt f).fritWait = m.fritWait := rfl
@[simp] theorem Mach.updMgmt_benchOffs (m : Mach) (f : Mgmt → Mgmt) : (m.updMgmt f).benchOffs = m.benchOffs := rfl
@[simp] theorem Mach.updMgmt_phy (m : Mach) (f : Mgmt → Mgmt) : (m.updMgmt f).phy = m.phy := rfl
@[simp] theorem Mach.updMgmt_peers (m : Mach) (f : Mgmt → Mgmt) : (m.updMgmt f).peers = m.peers := rfl
@[simp] theorem Mach.updMgmt_disputes (m : Mach) (f : Mgmt → Mgmt) : (m.updMgmt f).disputes = m.disputes := rfl
@[simp] theorem Mach.updMgmt_loans (m : Mach) (f : Mgmt → Mgmt) : (m.updMgmt f).loans = m.loans := rfl
@[simp] theorem Mach.updMgmt_ports (m : Mach) (f : Mgmt → Mgmt) : (m.updMgmt f).ports = m.ports := rfl
@[simp] theorem Mach.updMgmt_hosted (m : Mach) (f : Mgmt → Mgmt) : (m.updMgmt f).hosted = m.hosted := rfl
@[simp] theorem Mach.updMgmt_ckpts (m : Mach) (f : Mgmt → Mgmt) : (m.updMgmt f).ckpts = m.ckpts := rfl
@[simp] theorem Mach.updMgmt_claims (m : Mach) (f : Mgmt → Mgmt) : (m.updMgmt f).claims = m.claims := rfl
@[simp] theorem Mach.updMgmt_digest (m : Mach) (f : Mgmt → Mgmt) : (m.updMgmt f).digest = m.digest := rfl
@[simp] theorem Mach.updMgmt_shaky (m : Mach) (f : Mgmt → Mgmt) : (m.updMgmt f).shaky = m.shaky := rfl
@[simp] theorem Mach.updMgmt_evPend (m : Mach) (f : Mgmt → Mgmt) : (m.updMgmt f).evPend = m.evPend := rfl
@[simp] theorem Mach.updMgmt_fenceWait (m : Mach) (f : Mgmt → Mgmt) : (m.updMgmt f).fenceWait = m.fenceWait := rfl
@[simp] theorem Mach.updMgmt_store (m : Mach) (f : Mgmt → Mgmt) : (m.updMgmt f).store = m.store := rfl
@[simp] theorem Mach.updMgmt_tx (m : Mach) (f : Mgmt → Mgmt) : (m.updMgmt f).tx = m.tx := rfl
@[simp] theorem Mach.updMgmt_rx (m : Mach) (f : Mgmt → Mgmt) : (m.updMgmt f).rx = m.rx := rfl
@[simp] theorem Mach.updPower_dies (m : Mach) (f : Power → Power) : (m.updPower f).dies = m.dies := rfl
@[simp] theorem Mach.updPower_csr (m : Mach) (f : Power → Power) : (m.updPower f).csr = m.csr := rfl
@[simp] theorem Mach.updPower_dict (m : Mach) (f : Power → Power) : (m.updPower f).dict = m.dict := rfl
@[simp] theorem Mach.updPower_mem (m : Mach) (f : Power → Power) : (m.updPower f).mem = m.mem := rfl
@[simp] theorem Mach.updPower_chk (m : Mach) (f : Power → Power) : (m.updPower f).chk = m.chk := rfl
@[simp] theorem Mach.updPower_tensors (m : Mach) (f : Power → Power) : (m.updPower f).tensors = m.tensors := rfl
@[simp] theorem Mach.updPower_groups (m : Mach) (f : Power → Power) : (m.updPower f).groups = m.groups := rfl
@[simp] theorem Mach.updPower_ctxs (m : Mach) (f : Power → Power) : (m.updPower f).ctxs = m.ctxs := rfl
@[simp] theorem Mach.updPower_link (m : Mach) (f : Power → Power) : (m.updPower f).link = m.link := rfl
@[simp] theorem Mach.updPower_out (m : Mach) (f : Power → Power) : (m.updPower f).out = m.out := rfl
@[simp] theorem Mach.updPower_badPar (m : Mach) (f : Power → Power) : (m.updPower f).badPar = m.badPar := rfl
@[simp] theorem Mach.updPower_cgroups (m : Mach) (f : Power → Power) : (m.updPower f).cgroups = m.cgroups := rfl
@[simp] theorem Mach.updPower_colls (m : Mach) (f : Power → Power) : (m.updPower f).colls = m.colls := rfl
@[simp] theorem Mach.updPower_chans (m : Mach) (f : Power → Power) : (m.updPower f).chans = m.chans := rfl
@[simp] theorem Mach.updPower_progs (m : Mach) (f : Power → Power) : (m.updPower f).progs = m.progs := rfl
@[simp] theorem Mach.updPower_lost (m : Mach) (f : Power → Power) : (m.updPower f).lost = m.lost := rfl
@[simp] theorem Mach.updPower_shadow (m : Mach) (f : Power → Power) : (m.updPower f).shadow = m.shadow := rfl
@[simp] theorem Mach.updPower_gemms (m : Mach) (f : Power → Power) : (m.updPower f).gemms = m.gemms := rfl
@[simp] theorem Mach.updPower_benches (m : Mach) (f : Power → Power) : (m.updPower f).benches = m.benches := rfl
@[simp] theorem Mach.updPower_fritWait (m : Mach) (f : Power → Power) : (m.updPower f).fritWait = m.fritWait := rfl
@[simp] theorem Mach.updPower_benchOffs (m : Mach) (f : Power → Power) : (m.updPower f).benchOffs = m.benchOffs := rfl
@[simp] theorem Mach.updPower_phy (m : Mach) (f : Power → Power) : (m.updPower f).phy = m.phy := rfl
@[simp] theorem Mach.updPower_peers (m : Mach) (f : Power → Power) : (m.updPower f).peers = m.peers := rfl
@[simp] theorem Mach.updPower_disputes (m : Mach) (f : Power → Power) : (m.updPower f).disputes = m.disputes := rfl
@[simp] theorem Mach.updPower_loans (m : Mach) (f : Power → Power) : (m.updPower f).loans = m.loans := rfl
@[simp] theorem Mach.updPower_ports (m : Mach) (f : Power → Power) : (m.updPower f).ports = m.ports := rfl
@[simp] theorem Mach.updPower_hosted (m : Mach) (f : Power → Power) : (m.updPower f).hosted = m.hosted := rfl
@[simp] theorem Mach.updPower_ckpts (m : Mach) (f : Power → Power) : (m.updPower f).ckpts = m.ckpts := rfl
@[simp] theorem Mach.updPower_claims (m : Mach) (f : Power → Power) : (m.updPower f).claims = m.claims := rfl
@[simp] theorem Mach.updPower_digest (m : Mach) (f : Power → Power) : (m.updPower f).digest = m.digest := rfl
@[simp] theorem Mach.updPower_shaky (m : Mach) (f : Power → Power) : (m.updPower f).shaky = m.shaky := rfl
@[simp] theorem Mach.updPower_evPend (m : Mach) (f : Power → Power) : (m.updPower f).evPend = m.evPend := rfl
@[simp] theorem Mach.updPower_fenceWait (m : Mach) (f : Power → Power) : (m.updPower f).fenceWait = m.fenceWait := rfl
@[simp] theorem Mach.updPower_store (m : Mach) (f : Power → Power) : (m.updPower f).store = m.store := rfl
@[simp] theorem Mach.updPower_tx (m : Mach) (f : Power → Power) : (m.updPower f).tx = m.tx := rfl
@[simp] theorem Mach.updPower_rx (m : Mach) (f : Power → Power) : (m.updPower f).rx = m.rx := rfl
@[simp] theorem Mach.updChan_dies (m : Mach) (c : Chan) (f : ChanSt → ChanSt) : (m.updChan c f).dies = m.dies := rfl
@[simp] theorem Mach.updChan_csr (m : Mach) (c : Chan) (f : ChanSt → ChanSt) : (m.updChan c f).csr = m.csr := rfl
@[simp] theorem Mach.updChan_dict (m : Mach) (c : Chan) (f : ChanSt → ChanSt) : (m.updChan c f).dict = m.dict := rfl
@[simp] theorem Mach.updChan_mem (m : Mach) (c : Chan) (f : ChanSt → ChanSt) : (m.updChan c f).mem = m.mem := rfl
@[simp] theorem Mach.updChan_chk (m : Mach) (c : Chan) (f : ChanSt → ChanSt) : (m.updChan c f).chk = m.chk := rfl
@[simp] theorem Mach.updChan_tensors (m : Mach) (c : Chan) (f : ChanSt → ChanSt) : (m.updChan c f).tensors = m.tensors := rfl
@[simp] theorem Mach.updChan_groups (m : Mach) (c : Chan) (f : ChanSt → ChanSt) : (m.updChan c f).groups = m.groups := rfl
@[simp] theorem Mach.updChan_ctxs (m : Mach) (c : Chan) (f : ChanSt → ChanSt) : (m.updChan c f).ctxs = m.ctxs := rfl
@[simp] theorem Mach.updChan_link (m : Mach) (c : Chan) (f : ChanSt → ChanSt) : (m.updChan c f).link = m.link := rfl
@[simp] theorem Mach.updChan_power (m : Mach) (c : Chan) (f : ChanSt → ChanSt) : (m.updChan c f).power = m.power := rfl
@[simp] theorem Mach.updChan_out (m : Mach) (c : Chan) (f : ChanSt → ChanSt) : (m.updChan c f).out = m.out := rfl
@[simp] theorem Mach.updChan_badPar (m : Mach) (c : Chan) (f : ChanSt → ChanSt) : (m.updChan c f).badPar = m.badPar := rfl
@[simp] theorem Mach.updChan_cgroups (m : Mach) (c : Chan) (f : ChanSt → ChanSt) : (m.updChan c f).cgroups = m.cgroups := rfl
@[simp] theorem Mach.updChan_colls (m : Mach) (c : Chan) (f : ChanSt → ChanSt) : (m.updChan c f).colls = m.colls := rfl
@[simp] theorem Mach.updChan_progs (m : Mach) (c : Chan) (f : ChanSt → ChanSt) : (m.updChan c f).progs = m.progs := rfl
@[simp] theorem Mach.updChan_lost (m : Mach) (c : Chan) (f : ChanSt → ChanSt) : (m.updChan c f).lost = m.lost := rfl
@[simp] theorem Mach.updChan_shadow (m : Mach) (c : Chan) (f : ChanSt → ChanSt) : (m.updChan c f).shadow = m.shadow := rfl
@[simp] theorem Mach.updChan_gemms (m : Mach) (c : Chan) (f : ChanSt → ChanSt) : (m.updChan c f).gemms = m.gemms := rfl
@[simp] theorem Mach.updChan_benches (m : Mach) (c : Chan) (f : ChanSt → ChanSt) : (m.updChan c f).benches = m.benches := rfl
@[simp] theorem Mach.updChan_fritWait (m : Mach) (c : Chan) (f : ChanSt → ChanSt) : (m.updChan c f).fritWait = m.fritWait := rfl
@[simp] theorem Mach.updChan_benchOffs (m : Mach) (c : Chan) (f : ChanSt → ChanSt) : (m.updChan c f).benchOffs = m.benchOffs := rfl
@[simp] theorem Mach.updChan_phy (m : Mach) (c : Chan) (f : ChanSt → ChanSt) : (m.updChan c f).phy = m.phy := rfl
@[simp] theorem Mach.updChan_peers (m : Mach) (c : Chan) (f : ChanSt → ChanSt) : (m.updChan c f).peers = m.peers := rfl
@[simp] theorem Mach.updChan_disputes (m : Mach) (c : Chan) (f : ChanSt → ChanSt) : (m.updChan c f).disputes = m.disputes := rfl
@[simp] theorem Mach.updChan_loans (m : Mach) (c : Chan) (f : ChanSt → ChanSt) : (m.updChan c f).loans = m.loans := rfl
@[simp] theorem Mach.updChan_ports (m : Mach) (c : Chan) (f : ChanSt → ChanSt) : (m.updChan c f).ports = m.ports := rfl
@[simp] theorem Mach.updChan_hosted (m : Mach) (c : Chan) (f : ChanSt → ChanSt) : (m.updChan c f).hosted = m.hosted := rfl
@[simp] theorem Mach.updChan_ckpts (m : Mach) (c : Chan) (f : ChanSt → ChanSt) : (m.updChan c f).ckpts = m.ckpts := rfl
@[simp] theorem Mach.updChan_claims (m : Mach) (c : Chan) (f : ChanSt → ChanSt) : (m.updChan c f).claims = m.claims := rfl
@[simp] theorem Mach.updChan_digest (m : Mach) (c : Chan) (f : ChanSt → ChanSt) : (m.updChan c f).digest = m.digest := rfl
@[simp] theorem Mach.updChan_shaky (m : Mach) (c : Chan) (f : ChanSt → ChanSt) : (m.updChan c f).shaky = m.shaky := rfl
@[simp] theorem Mach.updChan_evPend (m : Mach) (c : Chan) (f : ChanSt → ChanSt) : (m.updChan c f).evPend = m.evPend := rfl
@[simp] theorem Mach.updChan_fenceWait (m : Mach) (c : Chan) (f : ChanSt → ChanSt) : (m.updChan c f).fenceWait = m.fenceWait := rfl
@[simp] theorem Mach.updChan_store (m : Mach) (c : Chan) (f : ChanSt → ChanSt) : (m.updChan c f).store = m.store := rfl
@[simp] theorem Mach.updChan_tx (m : Mach) (c : Chan) (f : ChanSt → ChanSt) : (m.updChan c f).tx = m.tx := rfl
@[simp] theorem Mach.updChan_rx (m : Mach) (c : Chan) (f : ChanSt → ChanSt) : (m.updChan c f).rx = m.rx := rfl
@[simp] theorem Mach.updTimeLog_dies (m : Mach) (f : TimeLog → TimeLog) : (m.updTimeLog f).dies = m.dies := rfl
@[simp] theorem Mach.updTimeLog_csr (m : Mach) (f : TimeLog → TimeLog) : (m.updTimeLog f).csr = m.csr := rfl
@[simp] theorem Mach.updTimeLog_dict (m : Mach) (f : TimeLog → TimeLog) : (m.updTimeLog f).dict = m.dict := rfl
@[simp] theorem Mach.updTimeLog_mem (m : Mach) (f : TimeLog → TimeLog) : (m.updTimeLog f).mem = m.mem := rfl
@[simp] theorem Mach.updTimeLog_chk (m : Mach) (f : TimeLog → TimeLog) : (m.updTimeLog f).chk = m.chk := rfl
@[simp] theorem Mach.updTimeLog_tensors (m : Mach) (f : TimeLog → TimeLog) : (m.updTimeLog f).tensors = m.tensors := rfl
@[simp] theorem Mach.updTimeLog_groups (m : Mach) (f : TimeLog → TimeLog) : (m.updTimeLog f).groups = m.groups := rfl
@[simp] theorem Mach.updTimeLog_ctxs (m : Mach) (f : TimeLog → TimeLog) : (m.updTimeLog f).ctxs = m.ctxs := rfl
@[simp] theorem Mach.updTimeLog_link (m : Mach) (f : TimeLog → TimeLog) : (m.updTimeLog f).link = m.link := rfl
@[simp] theorem Mach.updTimeLog_power (m : Mach) (f : TimeLog → TimeLog) : (m.updTimeLog f).power = m.power := rfl
@[simp] theorem Mach.updTimeLog_out (m : Mach) (f : TimeLog → TimeLog) : (m.updTimeLog f).out = m.out := rfl
@[simp] theorem Mach.updTimeLog_badPar (m : Mach) (f : TimeLog → TimeLog) : (m.updTimeLog f).badPar = m.badPar := rfl
@[simp] theorem Mach.updTimeLog_cgroups (m : Mach) (f : TimeLog → TimeLog) : (m.updTimeLog f).cgroups = m.cgroups := rfl
@[simp] theorem Mach.updTimeLog_colls (m : Mach) (f : TimeLog → TimeLog) : (m.updTimeLog f).colls = m.colls := rfl
@[simp] theorem Mach.updTimeLog_chans (m : Mach) (f : TimeLog → TimeLog) : (m.updTimeLog f).chans = m.chans := rfl
@[simp] theorem Mach.updTimeLog_progs (m : Mach) (f : TimeLog → TimeLog) : (m.updTimeLog f).progs = m.progs := rfl
@[simp] theorem Mach.updTimeLog_lost (m : Mach) (f : TimeLog → TimeLog) : (m.updTimeLog f).lost = m.lost := rfl
@[simp] theorem Mach.updTimeLog_shadow (m : Mach) (f : TimeLog → TimeLog) : (m.updTimeLog f).shadow = m.shadow := rfl
@[simp] theorem Mach.updTimeLog_gemms (m : Mach) (f : TimeLog → TimeLog) : (m.updTimeLog f).gemms = m.gemms := rfl
@[simp] theorem Mach.updTimeLog_benches (m : Mach) (f : TimeLog → TimeLog) : (m.updTimeLog f).benches = m.benches := rfl
@[simp] theorem Mach.updTimeLog_fritWait (m : Mach) (f : TimeLog → TimeLog) : (m.updTimeLog f).fritWait = m.fritWait := rfl
@[simp] theorem Mach.updTimeLog_benchOffs (m : Mach) (f : TimeLog → TimeLog) : (m.updTimeLog f).benchOffs = m.benchOffs := rfl
@[simp] theorem Mach.updTimeLog_phy (m : Mach) (f : TimeLog → TimeLog) : (m.updTimeLog f).phy = m.phy := rfl
@[simp] theorem Mach.updTimeLog_peers (m : Mach) (f : TimeLog → TimeLog) : (m.updTimeLog f).peers = m.peers := rfl
@[simp] theorem Mach.updTimeLog_disputes (m : Mach) (f : TimeLog → TimeLog) : (m.updTimeLog f).disputes = m.disputes := rfl
@[simp] theorem Mach.updTimeLog_loans (m : Mach) (f : TimeLog → TimeLog) : (m.updTimeLog f).loans = m.loans := rfl
@[simp] theorem Mach.updTimeLog_ports (m : Mach) (f : TimeLog → TimeLog) : (m.updTimeLog f).ports = m.ports := rfl
@[simp] theorem Mach.updTimeLog_hosted (m : Mach) (f : TimeLog → TimeLog) : (m.updTimeLog f).hosted = m.hosted := rfl
@[simp] theorem Mach.updTimeLog_ckpts (m : Mach) (f : TimeLog → TimeLog) : (m.updTimeLog f).ckpts = m.ckpts := rfl
@[simp] theorem Mach.updTimeLog_claims (m : Mach) (f : TimeLog → TimeLog) : (m.updTimeLog f).claims = m.claims := rfl
@[simp] theorem Mach.updTimeLog_digest (m : Mach) (f : TimeLog → TimeLog) : (m.updTimeLog f).digest = m.digest := rfl
@[simp] theorem Mach.updTimeLog_shaky (m : Mach) (f : TimeLog → TimeLog) : (m.updTimeLog f).shaky = m.shaky := rfl
@[simp] theorem Mach.updTimeLog_evPend (m : Mach) (f : TimeLog → TimeLog) : (m.updTimeLog f).evPend = m.evPend := rfl
@[simp] theorem Mach.updTimeLog_fenceWait (m : Mach) (f : TimeLog → TimeLog) : (m.updTimeLog f).fenceWait = m.fenceWait := rfl
@[simp] theorem Mach.updTimeLog_tx (m : Mach) (f : TimeLog → TimeLog) : (m.updTimeLog f).tx = m.tx := rfl
@[simp] theorem Mach.updTimeLog_rx (m : Mach) (f : TimeLog → TimeLog) : (m.updTimeLog f).rx = m.rx := rfl
@[simp] theorem Mach.storeAt_dies (m : Mach) (a : Nat) (bs : Bytes) : (m.storeAt a bs).dies = m.dies := rfl
@[simp] theorem Mach.storeAt_csr (m : Mach) (a : Nat) (bs : Bytes) : (m.storeAt a bs).csr = m.csr := rfl
@[simp] theorem Mach.storeAt_dict (m : Mach) (a : Nat) (bs : Bytes) : (m.storeAt a bs).dict = m.dict := rfl
@[simp] theorem Mach.storeAt_chk (m : Mach) (a : Nat) (bs : Bytes) : (m.storeAt a bs).chk = m.chk := rfl
@[simp] theorem Mach.storeAt_tensors (m : Mach) (a : Nat) (bs : Bytes) : (m.storeAt a bs).tensors = m.tensors := rfl
@[simp] theorem Mach.storeAt_groups (m : Mach) (a : Nat) (bs : Bytes) : (m.storeAt a bs).groups = m.groups := rfl
@[simp] theorem Mach.storeAt_ctxs (m : Mach) (a : Nat) (bs : Bytes) : (m.storeAt a bs).ctxs = m.ctxs := rfl
@[simp] theorem Mach.storeAt_link (m : Mach) (a : Nat) (bs : Bytes) : (m.storeAt a bs).link = m.link := rfl
@[simp] theorem Mach.storeAt_power (m : Mach) (a : Nat) (bs : Bytes) : (m.storeAt a bs).power = m.power := rfl
@[simp] theorem Mach.storeAt_out (m : Mach) (a : Nat) (bs : Bytes) : (m.storeAt a bs).out = m.out := rfl
@[simp] theorem Mach.storeAt_badPar (m : Mach) (a : Nat) (bs : Bytes) : (m.storeAt a bs).badPar = m.badPar := rfl
@[simp] theorem Mach.storeAt_cgroups (m : Mach) (a : Nat) (bs : Bytes) : (m.storeAt a bs).cgroups = m.cgroups := rfl
@[simp] theorem Mach.storeAt_colls (m : Mach) (a : Nat) (bs : Bytes) : (m.storeAt a bs).colls = m.colls := rfl
@[simp] theorem Mach.storeAt_chans (m : Mach) (a : Nat) (bs : Bytes) : (m.storeAt a bs).chans = m.chans := rfl
@[simp] theorem Mach.storeAt_progs (m : Mach) (a : Nat) (bs : Bytes) : (m.storeAt a bs).progs = m.progs := rfl
@[simp] theorem Mach.storeAt_lost (m : Mach) (a : Nat) (bs : Bytes) : (m.storeAt a bs).lost = m.lost := rfl
@[simp] theorem Mach.storeAt_shadow (m : Mach) (a : Nat) (bs : Bytes) : (m.storeAt a bs).shadow = m.shadow := rfl
@[simp] theorem Mach.storeAt_gemms (m : Mach) (a : Nat) (bs : Bytes) : (m.storeAt a bs).gemms = m.gemms := rfl
@[simp] theorem Mach.storeAt_benches (m : Mach) (a : Nat) (bs : Bytes) : (m.storeAt a bs).benches = m.benches := rfl
@[simp] theorem Mach.storeAt_fritWait (m : Mach) (a : Nat) (bs : Bytes) : (m.storeAt a bs).fritWait = m.fritWait := rfl
@[simp] theorem Mach.storeAt_benchOffs (m : Mach) (a : Nat) (bs : Bytes) : (m.storeAt a bs).benchOffs = m.benchOffs := rfl
@[simp] theorem Mach.storeAt_phy (m : Mach) (a : Nat) (bs : Bytes) : (m.storeAt a bs).phy = m.phy := rfl
@[simp] theorem Mach.storeAt_peers (m : Mach) (a : Nat) (bs : Bytes) : (m.storeAt a bs).peers = m.peers := rfl
@[simp] theorem Mach.storeAt_disputes (m : Mach) (a : Nat) (bs : Bytes) : (m.storeAt a bs).disputes = m.disputes := rfl
@[simp] theorem Mach.storeAt_loans (m : Mach) (a : Nat) (bs : Bytes) : (m.storeAt a bs).loans = m.loans := rfl
@[simp] theorem Mach.storeAt_ports (m : Mach) (a : Nat) (bs : Bytes) : (m.storeAt a bs).ports = m.ports := rfl
@[simp] theorem Mach.storeAt_hosted (m : Mach) (a : Nat) (bs : Bytes) : (m.storeAt a bs).hosted = m.hosted := rfl
@[simp] theorem Mach.storeAt_ckpts (m : Mach) (a : Nat) (bs : Bytes) : (m.storeAt a bs).ckpts = m.ckpts := rfl
@[simp] theorem Mach.storeAt_claims (m : Mach) (a : Nat) (bs : Bytes) : (m.storeAt a bs).claims = m.claims := rfl
@[simp] theorem Mach.storeAt_digest (m : Mach) (a : Nat) (bs : Bytes) : (m.storeAt a bs).digest = m.digest := rfl
@[simp] theorem Mach.storeAt_shaky (m : Mach) (a : Nat) (bs : Bytes) : (m.storeAt a bs).shaky = m.shaky := rfl
@[simp] theorem Mach.storeAt_evPend (m : Mach) (a : Nat) (bs : Bytes) : (m.storeAt a bs).evPend = m.evPend := rfl
@[simp] theorem Mach.storeAt_fenceWait (m : Mach) (a : Nat) (bs : Bytes) : (m.storeAt a bs).fenceWait = m.fenceWait := rfl
@[simp] theorem Mach.storeAt_store (m : Mach) (a : Nat) (bs : Bytes) : (m.storeAt a bs).store = m.store := rfl
@[simp] theorem Mach.storeAt_tx (m : Mach) (a : Nat) (bs : Bytes) : (m.storeAt a bs).tx = m.tx := rfl
@[simp] theorem Mach.storeAt_rx (m : Mach) (a : Nat) (bs : Bytes) : (m.storeAt a bs).rx = m.rx := rfl
@[simp] theorem Mach.tell_dies (m : Mach) (turn code source time : Nat) (d : Bytes) : (m.tell turn code source time d).dies = m.dies := rfl
@[simp] theorem Mach.tell_csr (m : Mach) (turn code source time : Nat) (d : Bytes) : (m.tell turn code source time d).csr = m.csr := rfl
@[simp] theorem Mach.tell_dict (m : Mach) (turn code source time : Nat) (d : Bytes) : (m.tell turn code source time d).dict = m.dict := rfl
@[simp] theorem Mach.tell_mem (m : Mach) (turn code source time : Nat) (d : Bytes) : (m.tell turn code source time d).mem = m.mem := rfl
@[simp] theorem Mach.tell_chk (m : Mach) (turn code source time : Nat) (d : Bytes) : (m.tell turn code source time d).chk = m.chk := rfl
@[simp] theorem Mach.tell_tensors (m : Mach) (turn code source time : Nat) (d : Bytes) : (m.tell turn code source time d).tensors = m.tensors := rfl
@[simp] theorem Mach.tell_groups (m : Mach) (turn code source time : Nat) (d : Bytes) : (m.tell turn code source time d).groups = m.groups := rfl
@[simp] theorem Mach.tell_ctxs (m : Mach) (turn code source time : Nat) (d : Bytes) : (m.tell turn code source time d).ctxs = m.ctxs := rfl
@[simp] theorem Mach.tell_link (m : Mach) (turn code source time : Nat) (d : Bytes) : (m.tell turn code source time d).link = m.link := rfl
@[simp] theorem Mach.tell_power (m : Mach) (turn code source time : Nat) (d : Bytes) : (m.tell turn code source time d).power = m.power := rfl
@[simp] theorem Mach.tell_out (m : Mach) (turn code source time : Nat) (d : Bytes) : (m.tell turn code source time d).out = m.out := rfl
@[simp] theorem Mach.tell_badPar (m : Mach) (turn code source time : Nat) (d : Bytes) : (m.tell turn code source time d).badPar = m.badPar := rfl
@[simp] theorem Mach.tell_cgroups (m : Mach) (turn code source time : Nat) (d : Bytes) : (m.tell turn code source time d).cgroups = m.cgroups := rfl
@[simp] theorem Mach.tell_colls (m : Mach) (turn code source time : Nat) (d : Bytes) : (m.tell turn code source time d).colls = m.colls := rfl
@[simp] theorem Mach.tell_chans (m : Mach) (turn code source time : Nat) (d : Bytes) : (m.tell turn code source time d).chans = m.chans := rfl
@[simp] theorem Mach.tell_progs (m : Mach) (turn code source time : Nat) (d : Bytes) : (m.tell turn code source time d).progs = m.progs := rfl
@[simp] theorem Mach.tell_lost (m : Mach) (turn code source time : Nat) (d : Bytes) : (m.tell turn code source time d).lost = m.lost := rfl
@[simp] theorem Mach.tell_shadow (m : Mach) (turn code source time : Nat) (d : Bytes) : (m.tell turn code source time d).shadow = m.shadow := rfl
@[simp] theorem Mach.tell_gemms (m : Mach) (turn code source time : Nat) (d : Bytes) : (m.tell turn code source time d).gemms = m.gemms := rfl
@[simp] theorem Mach.tell_benches (m : Mach) (turn code source time : Nat) (d : Bytes) : (m.tell turn code source time d).benches = m.benches := rfl
@[simp] theorem Mach.tell_fritWait (m : Mach) (turn code source time : Nat) (d : Bytes) : (m.tell turn code source time d).fritWait = m.fritWait := rfl
@[simp] theorem Mach.tell_benchOffs (m : Mach) (turn code source time : Nat) (d : Bytes) : (m.tell turn code source time d).benchOffs = m.benchOffs := rfl
@[simp] theorem Mach.tell_phy (m : Mach) (turn code source time : Nat) (d : Bytes) : (m.tell turn code source time d).phy = m.phy := rfl
@[simp] theorem Mach.tell_peers (m : Mach) (turn code source time : Nat) (d : Bytes) : (m.tell turn code source time d).peers = m.peers := rfl
@[simp] theorem Mach.tell_disputes (m : Mach) (turn code source time : Nat) (d : Bytes) : (m.tell turn code source time d).disputes = m.disputes := rfl
@[simp] theorem Mach.tell_loans (m : Mach) (turn code source time : Nat) (d : Bytes) : (m.tell turn code source time d).loans = m.loans := rfl
@[simp] theorem Mach.tell_ports (m : Mach) (turn code source time : Nat) (d : Bytes) : (m.tell turn code source time d).ports = m.ports := rfl
@[simp] theorem Mach.tell_hosted (m : Mach) (turn code source time : Nat) (d : Bytes) : (m.tell turn code source time d).hosted = m.hosted := rfl
@[simp] theorem Mach.tell_ckpts (m : Mach) (turn code source time : Nat) (d : Bytes) : (m.tell turn code source time d).ckpts = m.ckpts := rfl
@[simp] theorem Mach.tell_claims (m : Mach) (turn code source time : Nat) (d : Bytes) : (m.tell turn code source time d).claims = m.claims := rfl
@[simp] theorem Mach.tell_digest (m : Mach) (turn code source time : Nat) (d : Bytes) : (m.tell turn code source time d).digest = m.digest := rfl
@[simp] theorem Mach.tell_shaky (m : Mach) (turn code source time : Nat) (d : Bytes) : (m.tell turn code source time d).shaky = m.shaky := rfl
@[simp] theorem Mach.tell_fenceWait (m : Mach) (turn code source time : Nat) (d : Bytes) : (m.tell turn code source time d).fenceWait = m.fenceWait := rfl
@[simp] theorem Mach.tell_store (m : Mach) (turn code source time : Nat) (d : Bytes) : (m.tell turn code source time d).store = m.store := rfl
@[simp] theorem Mach.tell_tx (m : Mach) (turn code source time : Nat) (d : Bytes) : (m.tell turn code source time d).tx = m.tx := rfl
@[simp] theorem Mach.tell_rx (m : Mach) (turn code source time : Nat) (d : Bytes) : (m.tell turn code source time d).rx = m.rx := rfl

end Sys2Proof.Machine
end

