-- ==== Sys2Proof/Laws/Commands.lean ====
section
/-! SUPPORT. How commands reach their work, said once: a host command that is taken, an operation that issues, the inputs of an
operation, a register row, a request of the object dictionary. A statement of what a command answers goes through these. -/

namespace Sys2Proof.Machine

/-! ### Host commands -/

theorem takes_iff {m : Mach} {h : HostHdr} {k : Nat} {g : Option Nat} (hh : m.takes h k g = true) :
    m.fetchable h g = true ∧ (m.fetched h k).hostGate h false = none ∧ h.fault = .none := by
  simpa [Mach.takes, Bool.and_eq_true, and_assoc] using hh

/-- A command that is taken does its work on the machine that has fetched it. -/
theorem hostRun_takes {m : Mach} {h : HostHdr} {k : Nat} {g : Option Nat} (hh : m.takes h k g = true)
    (body : HostCmd → Mach → Mach) : m.hostRun h k g false body = body (cmdOf h k) (m.fetched h k) := by
  obtain ⟨a, b, -⟩ := takes_iff hh
  have hc : m.fetch h k = (m.fetched h k, cmdOf h k) := rfl
  simp [Mach.hostRun, a, hc, b]
theorem hostNow_takes {m : Mach} {h : HostHdr} {k : Nat} {g : Option Nat} (hh : m.takes h k g = true)
    (f : Mach → Nat × Nat × Mach) : m.hostNow h k g f =
      (f (m.fetched h k)).2.2.finishHost (cmdOf h k) (f (m.fetched h k)).1 (f (m.fetched h k)).2.1 := by
  rw [Mach.hostNow, hostRun_takes hh]
  simp [(takes_iff hh).2.2]
theorem hostSlow_takes {m : Mach} {h : HostHdr} {k : Nat} {g : Option Nat} (hh : m.takes h k g = true)
    (f : Mach → Except (Nat × Nat × Mach) (HostCmd → HostCmd)) : m.hostSlow h k g f =
      (match f (m.fetched h k) with
        | .error (st, res, m') => m'.finishHost (cmdOf h k) st res
        | .ok keep => (m.fetched h k).keepCmd (cmdOf h k) keep) := by
  rw [Mach.hostSlow, hostRun_takes hh] <;> (rcases f (m.fetched h k) with ⟨a, b, c⟩ | g <;> rfl)

/-- A command that ends at once answers with its status, its result and the machine it has made. -/
theorem done_of {s : State} {h : HostHdr} {k : Nat} {g : Option Nat} (ht : s.m.takes h k g = true) {i : Instr}
    {f : Mach → Nat × Nat × Mach} (he : exec i s = s.onMach fun m => m.hostNow h k g f) {st res : Nat} {m' : Mach}
    (hf : f (s.m.fetched h k) = (st, res, m')) : exec i s = .next (s.hostDone h k m' st res) := by
  rw [he]
  simp only [State.onMach, hostNow_takes ht, hf, State.hostDone, State.settled]
/-- A command that takes time ends at once where its first checks turn it away. -/
theorem slow_of {s : State} {h : HostHdr} {k : Nat} {g : Option Nat} (ht : s.m.takes h k g = true) {i : Instr}
    {f : Mach → Except (Nat × Nat × Mach) (HostCmd → HostCmd)} (he : exec i s = s.onMach fun m => m.hostSlow h k g f)
    {st res : Nat} {m' : Mach} (hf : f (s.m.fetched h k) = .error (st, res, m')) :
    exec i s = .next (s.hostDone h k m' st res) := by
  rw [he]
  simp only [State.onMach, hostSlow_takes ht, hf, State.hostDone, State.settled]
/-- A command that takes time is kept until its completion. -/
theorem kept_of {s : State} {h : HostHdr} {k : Nat} {g : Option Nat} (ht : s.m.takes h k g = true) {i : Instr}
    {f : Mach → Except (Nat × Nat × Mach) (HostCmd → HostCmd)} (he : exec i s = s.onMach fun m => m.hostSlow h k g f)
    {keep : HostCmd → HostCmd} (hf : f (s.m.fetched h k) = .ok keep) :
    exec i s = .next (s.settled ((s.m.fetched h k).keepCmd (cmdOf h k) keep)) := by
  rw [he]
  simp only [State.onMach, hostSlow_takes ht, hf, State.settled]

/-! ### Operations of streams -/

/-- An operation that issues runs on the machine that has counted its accesses. -/
theorem issue_of {s : State} {c n : Nat} {k : OpKind} {st : StKind} {o : Op} (h : s.m.issuesOn c n k st o = true)
    {run : Mach → Op → Nat → Inst → Mach} {i : Instr} (he : exec i s = s.onMach fun m => m.issueOp c n k st run) {m' : Mach}
    (hr : run (s.m.noted c n st o) o (s.m.ctx c).part (instOf st n) = m') : exec i s = .next (s.settled m') := by
  rw [he]
  simp only [Mach.issuesOn, Bool.and_eq_true, Bool.not_eq_true', beq_iff_eq, decide_eq_true_eq, Option.isNone_iff_eq_none] at h
  obtain ⟨⟨⟨⟨h1, h0⟩, h2⟩, h3⟩, h4⟩ := h
  simp only [State.onMach, Mach.issueOp, Mach.elides, Mach.onStation, h1, h0, h2, h3, h4, Bool.not_true, Bool.false_eq_true,
    if_false, ne_eq, not_true_eq_false, State.settled]
  unfold Mach.noted at hr
  rw [hr]
/-- An operation that is elided takes off with nothing to write and is counted (R198). -/
theorem elided_of {s : State} {c n : Nat} {k : OpKind} {st : StKind} {o : Op} (h : s.m.issuable c k = some o)
    (hl : s.m.elidable c o = true) {run : Mach → Op → Nat → Inst → Mach} {i : Instr}
    (he : exec i s = s.onMach fun m => m.issueOp c n k st run) :
    exec i s = .next (s.settled ((s.m.dadd (0x2030 + (s.m.ctx c).part) 0x15 1).takeOff c none [] [] true)) := by
  rw [he]
  simp only [State.onMach, Mach.issueOp, Mach.elides, h, hl, if_true, State.settled]
/-- An operation that would use a record known to be damaged faults its stream (R260). -/
theorem damaged_of {s : State} {c n : Nat} {k : OpKind} {st : StKind} {o : Op} (h : s.m.issuable c k = some o)
    (hl : s.m.elidable c o = false) (hr : s.m.instReady (s.m.ctx c).part (instOf st n) = true)
    (hp : s.m.instPart (instOf st n) = (s.m.ctx c).part) {q b : Nat} (hb : s.m.usesBad (s.m.ctx c).part o = some (q, b))
    {run : Mach → Op → Nat → Inst → Mach} {i : Instr} (he : exec i s = s.onMach fun m => m.issueOp c n k st run) :
    exec i s = .next (s.settled ((s.m.metaFault (s.m.ctx c).part q 0 b).1.opFault c []
      (s.m.metaFault (s.m.ctx c).part q 0 b).2)) := by
  rw [he]
  simp only [State.onMach, Mach.issueOp, Mach.elides, Mach.onStation, h, hl, hr, hp, hb, Bool.not_true, Bool.false_eq_true,
    if_false, ne_eq, not_true_eq_false, State.settled]
theorem withInputs_bad {m : Mach} {c p : Nat} {outs ins : List (Nat × Nat)} {k : Mach → List Bytes → Mach} {x : FaultInfo}
    (h : (m.fetchTiles p ins).2.2 = some x) :
    m.withInputs c p outs ins k = (m.fetchTiles p ins).1.stationFault c outs x := by
  simp only [Mach.withInputs]
  rw [h]
theorem withInputs_ok {m : Mach} {c p : Nat} {outs ins : List (Nat × Nat)} {k : Mach → List Bytes → Mach}
    (h : (m.fetchTiles p ins).2.2 = none) :
    m.withInputs c p outs ins k = k (m.fetchTiles p ins).1 (m.fetchTiles p ins).2.1 := by
  simp only [Mach.withInputs]
  rw [h]

/-! ### Registers -/

/-- An update of a register that a map lists. -/
theorem regUpd_listed (m : Mach) {d i sl off : Nat} {b : Blk} {r : RegRow} (f : Nat → Nat) (clr : Nat)
    (h : blockAt d sl = some (b, i)) (hr : regRow b off = some r) :
    m.regUpd d sl off f clr = (m.touch d sl).rowUpd b d i sl off r (f (m.reg b d i off)) clr := by
  unfold Mach.regUpd
  rw [h]
  dsimp only
  rw [hr]
/-- A write of a register by its block, where the die answers. -/
theorem regWrite_up (m : Mach) {d i off : Nat} {b : Blk} (w : Word) (hd : d < 2) (h : m.csrUp d (slotOf b i) = true) :
    m.regWrite b d i off w = m.regUpd d (slotOf b i) off (fun _ => w.toNat) w.toNat := by
  unfold Mach.regWrite
  simp [hd, h]

/-! ### Requests of the object dictionary -/

/-- A request over the host link that is executed is answered with what its execution gives. -/
theorem request_host (s : State) (rq : DictReq) (op index sub : Nat) (hm : rq.master = .host)
    (h : s.portOpen .host = true) {s1 : State} {a : Bytes} {f : After}
    (he : s.oapServe .host (OapReq.ofRow op index sub rq) = (s1, a, f)) :
    s.request rq op index sub = (s1.setM fun m => m.emit (.oap .host a)).after f := by
  simp only [State.portOpen, Bool.and_eq_true, Bool.not_eq_true'] at h
  obtain ⟨⟨⟨h1, h2⟩, h3⟩, h4⟩ := h
  unfold State.request
  rw [hm]
  unfold State.oapHost
  dsimp only
  rw [if_neg (by cases hb : s.m.power.boot <;> simp_all), if_neg (by simp [h4]), he]
/-- A request over the management segment that is not discarded. -/
theorem request_mgmt (s : State) (rq : DictReq) (op index sub : Nat) (hm : rq.master = .mgmt)
    (h : s.portOpen .mgmt = true) (hb : rq.bcast = true → (OapReq.ofRow op index sub rq).malformed = false)
    {s1 : State} {a : Bytes} {f : After} (he : (s.counted rq).oapServe .mgmt (OapReq.ofRow op index sub rq) = (s1, a, f)) :
    s.request rq op index sub = (s1.setM fun m => m.mgmtSend 0 a).after f := by
  simp only [State.portOpen, Bool.and_eq_true, Bool.not_eq_true', bne_iff_ne] at h
  obtain ⟨⟨h1, h2⟩, h3⟩ := h
  unfold State.request
  rw [hm]
  unfold State.oapMgmt
  dsimp only
  have hq : (OapReq.ofRow op index sub rq).rq = rq := rfl
  have hd : (if rq.bcast = true then (OapReq.ofRow op index sub rq).malformed else s.m.mgmt.nodeId == 255) = false := by
    split
    · exact hb ‹_›
    · simpa using h3
  have he : (s.heard rq.bcast).oapServe .mgmt (OapReq.ofRow op index sub rq) = (s1, a, f) := by
    simpa [State.counted, hm] using he
  rw [if_neg (by cases h : s.m.power.boot <;> simp_all), hq, if_neg (by simp [hd]), he]

end Sys2Proof.Machine
end

