-- ==== Sys2Proof/Laws/Frames.lean ====
section
/-! SUPPORT. What the shared operations leave alone: counters, bits of registers, dictionary counters, events. -/

namespace Sys2Proof.Machine

/-! ### Counters and bits of registers touch the registers alone -/

theorem Mach.count_frame (m : Mach) (b : Blk) (d i off n : Nat) :
    ∃ c, m.count b d i off n = { m with csr := c } := by
  unfold Mach.count
  split
  · exact ⟨m.csr, rfl⟩
  · exact ⟨_, rfl⟩
theorem Mach.setBit_frame (m : Mach) (b : Blk) (d i off k : Nat) : ∃ c, m.setBit b d i off k = { m with csr := c } := ⟨_, rfl⟩
theorem Mach.clrBit_frame (m : Mach) (b : Blk) (d i off k : Nat) : ∃ c, m.clrBit b d i off k = { m with csr := c } := ⟨_, rfl⟩
theorem Mach.memCount_frame (m : Mach) (u : MemUnit) (off n : Nat) : ∃ c, m.memCount u off n = { m with csr := c } := by
  unfold Mach.memCount
  split
  · exact ⟨m.csr, rfl⟩
  · exact m.count_frame ..

/-! ### Dictionary counters touch the dictionary alone -/

theorem Mach.dset_frame (m : Mach) (i sub n : Nat) : ∃ c, m.dset i sub n = { m with dict := c } := by
  unfold Mach.dset
  split
  · exact ⟨m.dict, rfl⟩
  · exact ⟨_, rfl⟩
theorem Mach.daddAny_frame (m : Mach) (i sub n : Nat) : ∃ c, m.daddAny i sub n = { m with dict := c } := by
  unfold Mach.daddAny
  split
  · exact ⟨m.dict, rfl⟩
  · exact ⟨_, rfl⟩
theorem Mach.dadd_frame (m : Mach) (i sub n : Nat) : ∃ c, m.dadd i sub n = { m with dict := c } := by
  unfold Mach.dadd
  split
  · exact ⟨m.dict, rfl⟩
  · exact m.daddAny_frame ..

/-- A count over a range of memory touches the registers alone. -/
theorem Mach.countRange_frame (m : Mach) (off a n : Nat) : ∃ c, m.countRange off a n = { m with csr := c } := by
  unfold Mach.countRange
  generalize memRuns a n = l
  induction l generalizing m with
  | nil => exact ⟨m.csr, rfl⟩
  | cons r l ih =>
    rw [List.foldl_cons]
    cases memUnitOf m.fineMode r.1 with
    | none => exact ih m
    | some u =>
      obtain ⟨c, hc⟩ := m.memCount_frame u off ((r.1 + r.2 - 1) / 16 - r.1 / 16 + 1)
      obtain ⟨c', hc'⟩ := ih (m.memCount u off ((r.1 + r.2 - 1) / 16 - r.1 / 16 + 1))
      refine ⟨c', ?_⟩
      show List.foldl _ (m.memCount u off ((r.1 + r.2 - 1) / 16 - r.1 / 16 + 1)) l = _
      rw [hc', hc]

/-! ### What goes out to the host touches the link and the record of outputs alone -/

theorem hlPump_frame (n : Nat) (m : Mach) : ∃ l o, hlPump n m = { m with link := l, out := o } := by
  induction n generalizing m with
  | zero => exact ⟨m.link, m.out, rfl⟩
  | succ n ih =>
    unfold hlPump
    cases h : m.link.hlWait with
    | nil => exact ⟨m.link, m.out, by simp only [h]⟩
    | cons b rest =>
      by_cases hc : (decide (64 ≤ m.link.replay.length) || !m.link.up || m.link.retraining) = true
      · exact ⟨m.link, m.out, by simp only [h, hc, if_true]⟩
      · simp only [h, hc]
        obtain ⟨l, o, hh⟩ := ih { m with
          link := { m.link with hlWait := rest, replay := m.link.replay ++ [(m.link.txSeq, b)], txSeq := (m.link.txSeq + 1) % 4096 }
          out := .hlFlit (hlFlitBytes 1 m.link.txSeq m.link.rxSeq false b) :: m.out }
        exact ⟨l, o, hh⟩
theorem Mach.hostWrite_frame (m : Mach) (a : Nat) (bs : Bytes) :
    ∃ l o, m.hostWrite a bs = { m with link := l, out := o } := by
  unfold Mach.hostWrite
  dsimp only
  generalize pieces 248 _ _ = ps
  obtain ⟨l, o, h⟩ := hlPump_frame (ps.length + 64)
    { m with out := .hostWrite a bs :: m.out, link := { m.link with hlWait := m.link.hlWait ++ ps } }
  exact ⟨l, o, h⟩

/-! ### Events touch the log, the dictionary, the link and the record of outputs -/

/-- The fields that no event touches stay: the memory and its check bits, the streams, the tensors, the registers. -/
def Mach.SameCore (m t : Mach) : Prop :=
  t.mem = m.mem ∧ t.chk = m.chk ∧ t.tensors = m.tensors ∧ t.progs = m.progs ∧ t.groups = m.groups ∧ t.ctxs = m.ctxs ∧ t.dies = m.dies
  ∧ t.csr = m.csr ∧ t.chans = m.chans ∧ t.power = m.power
theorem Mach.SameCore.rfl' (m : Mach) : m.SameCore m := ⟨rfl, rfl, rfl, rfl, rfl, rfl, rfl, rfl, rfl, rfl⟩
theorem Mach.SameCore.trans {a b c : Mach} (h : a.SameCore b) (k : b.SameCore c) : a.SameCore c := by
  obtain ⟨h1, h2, h3, h4, h5, h6, h7, h8, h9, h0⟩ := h
  obtain ⟨k1, k2, k3, k4, k5, k6, k7, k8, k9, k0⟩ := k
  exact ⟨k1.trans h1, k2.trans h2, k3.trans h3, k4.trans h4, k5.trans h5, k6.trans h6, k7.trans h7, k8.trans h8, k9.trans h9,
    k0.trans h0⟩
theorem Mach.core_link (m : Mach) (l : Link) : m.SameCore { m with link := l } := ⟨rfl, rfl, rfl, rfl, rfl, rfl, rfl, rfl, rfl, rfl⟩
theorem Mach.dset_core (m : Mach) (i sub n : Nat) : m.SameCore (m.dset i sub n) := by
  obtain ⟨c, h⟩ := m.dset_frame i sub n
  rw [h]
  exact Mach.SameCore.rfl' m
theorem Mach.dadd_core (m : Mach) (i sub n : Nat) : m.SameCore (m.dadd i sub n) := by
  obtain ⟨c, h⟩ := m.dadd_frame i sub n
  rw [h]
  exact Mach.SameCore.rfl' m
theorem Mach.hostWrite_core (m : Mach) (a : Nat) (bs : Bytes) : m.SameCore (m.hostWrite a bs) := by
  obtain ⟨l, o, h⟩ := m.hostWrite_frame a bs
  rw [h]
  exact Mach.SameCore.rfl' m
theorem Mach.logRaw_core (m : Mach) (code source time : Nat) (detail : Bytes) :
    m.SameCore (m.logRaw code source time detail).1 := by
  unfold Mach.logRaw
  dsimp only
  have h (x : Mach) (hx : m.SameCore x) : m.SameCore (x.dadd 0xA001 2 1) := hx.trans (x.dadd_core ..)
  have h0 := h { m with log := (⟨m.logSeq % 2 ^ 32, code, source, time, fitBytes 16 detail⟩ :: m.log).take 256
                        logSeq := m.logSeq + 1 } (Mach.SameCore.rfl' m)
  split
  · exact h0.trans (Mach.SameCore.trans (Mach.SameCore.rfl' _) (Mach.dadd_core _ ..))
  · exact h0
theorem Mach.evWrite_core (m : Mach) (e : EvRec) : m.SameCore (m.evWrite e) := by
  unfold Mach.evWrite
  exact (m.core_link _).trans (Mach.hostWrite_core _ _ _)
theorem pumpEvents_core (n : Nat) (m : Mach) : m.SameCore (pumpEvents n m) := by
  induction n generalizing m with
  | zero => exact Mach.SameCore.rfl' m
  | succ n ih =>
    unfold pumpEvents
    split
    · exact Mach.SameCore.rfl' m
    · split
      · dsimp only
        exact (((((m.dadd_core _ _ _).trans (Mach.core_link _ _)).trans (Mach.logRaw_core _ _ _ _ _)).trans
          (Mach.core_link _ _)).trans (Mach.evWrite_core _ _)).trans (ih _)
      · split
        · exact Mach.SameCore.rfl' m
        · exact ((m.core_link _).trans (Mach.evWrite_core _ _)).trans (ih _)
theorem Mach.logAppend_core (m : Mach) (code source time : Nat) (detail : Bytes) :
    m.SameCore (m.logAppend code source time detail) := by
  have h := (m.logRaw_core code source time detail).trans (pumpEvents_core 300 _)
  unfold Mach.logAppend
  dsimp only
  split
  · exact h
  · exact h
/-- An event that waits for the firmware's pass touches nothing else, and the pass no more than the records. -/
theorem Mach.tell_core (m : Mach) (turn code source time : Nat) (detail : Bytes) : m.SameCore (m.tell turn code source time detail) :=
  Mach.SameCore.rfl' m
theorem Mach.moEvent_core (m : Mach) (code : Nat) (detail : Bytes) : m.SameCore (m.moEvent code detail) := m.tell_core ..
theorem Mach.fwEvent_core (m : Mach) (code die slot : Nat) (part : Option Nat) (detail : Bytes) :
    m.SameCore (m.fwEvent code die slot part detail) := m.tell_core ..
theorem Mach.pollEvents_core (m : Mach) : m.SameCore m.pollEvents := by
  unfold Mach.pollEvents
  dsimp only
  have h (l : List PendEv) (x : Mach) (hx : m.SameCore x) :
      m.SameCore (l.foldl (fun (m : Mach) e => m.logAppend e.code e.source e.time e.detail) x) := by
    induction l generalizing x with
    | nil => exact hx
    | cons e l ih => exact ih _ (hx.trans (x.logAppend_core ..))
  exact h _ _ (Mach.SameCore.rfl' m)

/-- The memory and its check bits stay. -/
def Mach.SameMem (m t : Mach) : Prop := t.mem = m.mem ∧ t.chk = m.chk
theorem Mach.SameCore.mem {m t : Mach} (h : m.SameCore t) : m.SameMem t := ⟨h.1, h.2.1⟩
theorem Mach.SameMem.trans {a b c : Mach} (h : a.SameMem b) (k : b.SameMem c) : a.SameMem c := ⟨k.1.trans h.1, k.2.trans h.2⟩
theorem Mach.memCount_mem (m : Mach) (u : MemUnit) (off n : Nat) : m.SameMem (m.memCount u off n) := by
  obtain ⟨c, h⟩ := m.memCount_frame u off n
  rw [h]
  exact ⟨rfl, rfl⟩
theorem Mach.countRange_mem (m : Mach) (off a n : Nat) : m.SameMem (m.countRange off a n) := by
  obtain ⟨c, h⟩ := m.countRange_frame off a n
  rw [h]
  exact ⟨rfl, rfl⟩
/-- The record of an error leaves memory alone. -/
theorem Mach.memError_mem (m : Mach) (a : Nat) (y : Syn) (cls sym source : Nat) : m.SameMem (m.memError a y cls sym source) := by
  unfold Mach.memError
  split
  · exact ⟨rfl, rfl⟩
  · dsimp only
    generalize hx : ({ m with errlog := _ } : Mach) = x
    have hm : m.SameMem x := by rw [← hx]; exact ⟨rfl, rfl⟩
    split
    · exact (hm.trans (x.memCount_mem ..)).trans (Mach.dadd_core _ ..).mem
    · split
      · exact hm
      · rename_i u _ _ _
        have h2 := (hm.trans (x.memCount_mem u 0x20 1)).trans (Mach.dadd_core (x.memCount u 0x20 1) 0x6002 0x11 1).mem
        split
        · exact h2
        · split
          · exact h2.trans ⟨rfl, rfl⟩
          · exact h2.trans ⟨rfl, rfl⟩
theorem Mach.ceStorm_mem (m : Mach) (u : MemUnit) : m.SameMem (m.ceStorm u) := by
  unfold Mach.ceStorm
  split
  · exact ⟨rfl, rfl⟩
  · dsimp only
    split
    · split
      · exact ⟨rfl, rfl⟩
      · exact Mach.SameMem.trans (b := (Mach.updChan (Mach.updChan m _ _) _ _)) ⟨rfl, rfl⟩ (Mach.fwEvent_core _ ..).mem
    · exact ⟨rfl, rfl⟩

/-- So does the record of a codeword that can not be read as it was written. -/
theorem Mach.logBad_mem (m : Mach) (cw source : Nat) (poison : Bool) (y : Syn) : m.SameMem (m.logBad cw source poison y) := by
  unfold Mach.logBad
  split
  · exact ⟨rfl, rfl⟩
  · split
    · exact m.memError_mem ..
    · split
      · exact (m.memError_mem ..).trans (Mach.fwEvent_core _ ..).mem
      · exact m.memError_mem ..
/-- And the record of accesses that failed parity twice. -/
theorem Mach.parityHits_mem (m : Mach) (source a n : Nat) : m.SameMem (m.parityHits source a n) := by
  unfold Mach.parityHits
  dsimp only
  generalize m.shakyIn a n = l
  have h (l : List Nat) (x : Mach) (hx : m.SameMem x) : m.SameMem (l.foldl (fun (m : Mach) x =>
      m.freeSyn.1.logBad x source false m.freeSyn.2) x) := by
    induction l generalizing x with
    | nil => exact hx
    | cons e l ih => exact ih _ (hx.trans (Mach.SameMem.trans (b := x.freeSyn.1) ⟨rfl, rfl⟩ (Mach.logBad_mem ..)))
  exact h _ _ ⟨rfl, rfl⟩

/-- A hardware event touches neither memory nor streams. -/
theorem Mach.hwEvent_mem (m : Mach) (code d slot detail : Nat) :
    (m.hwEvent code d slot detail).mem = m.mem ∧ (m.hwEvent code d slot detail).chk = m.chk := by
  unfold Mach.hwEvent
  obtain ⟨c, hc⟩ := m.count_frame .event d 0 0x20 1
  rw [hc]
  dsimp only
  split
  · exact ⟨rfl, rfl⟩
  · generalize hx : ({ m with csr := c } : Mach) = x
    have hm : x.mem = m.mem ∧ x.chk = m.chk := by rw [← hx]; exact ⟨rfl, rfl⟩
    obtain ⟨c2, h2⟩ := x.count_frame .event d 0 0x24 1
    rw [h2]
    obtain ⟨c3, h3⟩ := ((({ x with csr := c2 } : Mach).setBit .event d 0 4 1)).dadd_frame 0xA001 3 1
    rw [h3]
    exact hm

end Sys2Proof.Machine
end

