-- ==== Sys2Proof/Laws/Mem.lean ====
section
/-! SUPPORT. The canonical form of memory (log entry 2): every operation on memory keeps it, and the memory after reset has it. -/

namespace Sys2Proof.Machine

/-- The canonical form, as a property of a list: addresses rising, no byte 0. -/
def MemSorted (l : List Host.Cell) : Prop := l.Pairwise (fun c d => c.1 < d.1) ∧ ∀ c ∈ l, c.2 ≠ 0

theorem wf_iff (l : List Host.Cell) : Memory.wf l = true ↔ MemSorted l := by
  unfold Memory.wf MemSorted
  induction l with
  | nil => simp [memWfFrom]
  | cons c l ih =>
    cases l with
    | nil => simp [memWfFrom]
    | cons d r =>
      simp only [memWfFrom, Bool.and_eq_true, bne_iff_ne, ne_eq, decide_eq_true_eq, ih]
      constructor
      · rintro ⟨⟨hc, hlt⟩, hp, hall⟩
        refine ⟨List.pairwise_cons.2 ⟨fun x hx => ?_, hp⟩, fun x hx => ?_⟩
        · rcases List.mem_cons.1 hx with rfl | hx
          · exact hlt
          · exact Nat.lt_trans hlt ((List.pairwise_cons.1 hp).1 x hx)
        · rcases List.mem_cons.1 hx with rfl | hx
          · exact hc
          · exact hall x hx
      · rintro ⟨hp, hall⟩
        obtain ⟨h1, h2⟩ := List.pairwise_cons.1 hp
        exact ⟨⟨hall c (by simp), h1 d (by simp)⟩, h2, fun x hx => hall x (List.mem_cons_of_mem _ hx)⟩

/-- The cells of a byte string are in canonical form and lie in their range. -/
theorem cellsOf_sorted (bs : Bytes) (a : Nat) :
    MemSorted (cellsOf a bs) ∧ ∀ c ∈ cellsOf a bs, a ≤ c.1 ∧ c.1 < a + bs.length := by
  induction bs generalizing a with
  | nil => simp [cellsOf, MemSorted]
  | cons b bs ih =>
    obtain ⟨⟨hp, hz⟩, hr⟩ := ih (a + 1)
    have hr' : ∀ c ∈ cellsOf (a + 1) bs, a ≤ c.1 ∧ c.1 < a + (b :: bs).length := fun c hc => by
      have := hr c hc
      simp only [List.length_cons]
      omega
    unfold cellsOf
    split
    · exact ⟨⟨hp, hz⟩, hr'⟩
    · refine ⟨⟨List.pairwise_cons.2 ⟨fun c hc => ?_, hp⟩, fun c hc => ?_⟩, fun c hc => ?_⟩
      · exact (hr c hc).1
      · rcases List.mem_cons.1 hc with rfl | hc
        · assumption
        · exact hz c hc
      · rcases List.mem_cons.1 hc with rfl | hc
        · simp
        · exact hr' c hc

/-- A store keeps the canonical form. -/
theorem memStore_wf (mem : List Host.Cell) (a : Nat) (bs : Bytes) (h : Memory.wf mem = true) :
    Memory.wf (memStore mem a bs) = true := by
  rw [wf_iff] at h ⊢
  obtain ⟨hp, hz⟩ := h
  obtain ⟨⟨cp, cz⟩, cr⟩ := cellsOf_sorted bs a
  unfold memStore
  refine ⟨?_, fun c hc => ?_⟩
  · rw [List.pairwise_append, List.pairwise_append]
    refine ⟨⟨hp.filter _, cp, fun x hx y hy => ?_⟩, hp.filter _, fun x hx y hy => ?_⟩
    · have hx := (List.mem_filter.1 hx).2
      have := (cr y hy).1
      simp only [decide_eq_true_eq] at hx
      omega
    · have hy := (List.mem_filter.1 hy).2
      simp only [decide_eq_true_eq] at hy
      rcases List.mem_append.1 hx with hx | hx
      · have hx := (List.mem_filter.1 hx).2
        simp only [decide_eq_true_eq] at hx
        omega
      · have := (cr x hx).2
        omega
  · rcases List.mem_append.1 hc with hc | hc
    · rcases List.mem_append.1 hc with hc | hc
      · exact hz c (List.mem_filter.1 hc).1
      · exact cz c hc
    · exact hz c (List.mem_filter.1 hc).1

/-- A filter of a memory keeps the canonical form. -/
theorem filter_wf (mem : List Host.Cell) (f : Host.Cell → Bool) (h : Memory.wf mem = true) : Memory.wf (mem.filter f) = true := by
  rw [wf_iff] at h ⊢
  exact ⟨h.1.filter _, fun c hc => h.2 c (List.mem_filter.1 hc).1⟩

/-! ### The operations on memory -/

theorem fixCodeword_wf (m : Mach) (cw i : Nat) (e : Gf) (h : Memory.wf m.mem = true) : Memory.wf (m.fixCodeword cw i e).mem = true :=
  memStore_wf _ _ _ h

/-- A property that every round keeps holds after all of them. -/
theorem foldl_keeps {α β : Type} (P : β → Prop) (f : β → α → β) (h : ∀ b a, P b → P (f b a)) (l : List α) (b : β) (hb : P b) :
    P (l.foldl f b) := by
  induction l generalizing b with
  | nil => exact hb
  | cons a l ih => exact ih _ (h b a hb)

/-- A logged error of a codeword leaves the memory. -/
theorem logged_wf (m : Mach) (cw : Nat) (y : Syn) (i source : Nat) (u : MemUnit) (h : Memory.wf m.mem = true) :
    Memory.wf ((m.memError cw y 0 i source).ceStorm u).mem = true := by
  rw [(Mach.ceStorm_mem ..).1, (m.memError_mem ..).1]
  exact h

/-- A read, which may write corrected codewords back, keeps the canonical form. -/
theorem memRead_wf (m : Mach) (source a n : Nat) (h : Memory.wf m.mem = true) : Memory.wf (m.memRead source a n).1.mem = true := by
  unfold Mach.memRead
  dsimp only
  rw [(Mach.parityHits_mem _ ..).1]
  refine foldl_keeps (fun acc : Mach × Bytes × Option Nat => Memory.wf acc.1.mem = true) _ ?_ _ _ ?_
  · rintro ⟨m, bs, bad⟩ cw ha
    dsimp only at ha ⊢
    split
    · exact ha
    · dsimp only
      split
      · exact ha
      · split
        · refine fixCodeword_wf _ _ _ _ ?_
          rw [(Mach.memCount_mem _ ..).1]
          exact logged_wf _ _ _ _ _ _ ha
        · exact logged_wf _ _ _ _ _ _ ha
    · rw [(Mach.logBad_mem _ ..).1]
      exact ha
    · rw [(Mach.logBad_mem _ ..).1]
      exact ha
  · rw [(m.countRange_mem ..).1]
    exact h

/-- The units of a write that failed parity hold something. -/
theorem parityLost_wf (m : Mach) (source a n : Nat) (h : Memory.wf m.mem = true) : Memory.wf (m.parityLost source a n).mem = true := by
  unfold Mach.parityLost
  refine foldl_keeps (fun x : Mach => Memory.wf x.mem = true) _ (fun _ _ hm => memStore_wf _ _ _ hm) _ _ ?_
  rw [(Mach.parityHits_mem _ ..).1]
  exact h
/-- A write keeps it. -/
theorem memWrite_wf (m : Mach) (source a : Nat) (bs : Bytes) (h : Memory.wf m.mem = true) :
    Memory.wf (m.memWrite source a bs).1.mem = true := by
  let P : Mach × List Nat → Prop := fun x => Memory.wf x.1.mem = true
  unfold Mach.memWrite
  dsimp only
  refine iteInduction (motive := P) (fun _ => h) (fun _ => parityLost_wf _ _ _ _ (memStore_wf _ _ _ ?_))
  refine foldl_keeps P _ ?_ _ _ ?_
  · rintro ⟨m, bad⟩ cw ha
    refine iteInduction (motive := P) (fun _ => ha) (fun _ => ?_)
    dsimp only [P] at ha ⊢
    split
    · exact ha
    · refine iteInduction (motive := fun x : Mach => Memory.wf x.mem = true) (fun _ => ?_) (fun _ => fixCodeword_wf _ _ _ _ ?_) <;>
        split <;> first | exact ha | exact logged_wf _ _ _ _ _ _ ha
    · rw [(Mach.logBad_mem _ ..).1]
      exact ha
    · rw [(Mach.logBad_mem _ ..).1]
      exact ha
  · refine foldl_keeps (fun x : Mach => Memory.wf x.mem = true) _ ?_ _ _ ?_
    · intro x k hx
      split
      · exact hx
      · rw [(Mach.memCount_mem ..).1, (Mach.memCount_mem ..).1]
        exact hx
    · rw [(m.countRange_mem ..).1]
      exact h

/-- A loss of the contents of memory units keeps it: the cells that stay are those of other units. -/
theorem lose_wf (m : Mach) (ks : List Nat) (h : Memory.wf m.mem = true) : Memory.wf (m.lose ks).mem = true := filter_wf _ _ h
/-- Errors met in a codeword keep it. -/
theorem upset_wf (m : Mach) (cw : Nat) (errs : List (Nat × Nat)) (h : Memory.wf m.mem = true) :
    Memory.wf (m.upset cw errs).mem = true :=
  foldl_keeps (fun x : Mach => Memory.wf x.mem = true) _ (fun _ _ hm => memStore_wf _ _ _ hm) _ _ h
/-- A count of the sectors that cross the Seam leaves the memory. -/
theorem farCount_wf (m : Mach) (d a n : Nat) (h : Memory.wf m.mem = true) : Memory.wf (m.farCount d a n).mem = true := by
  unfold Mach.farCount
  split
  · split
    · exact h
    · rw [(Mach.dadd_core _ ..).1]
      exact h
  · exact h
/-- A copy of bytes keeps it. -/
theorem copyBytes_wf (m : Mach) (source a dst n : Nat) (h : Memory.wf m.mem = true) :
    Memory.wf (m.copyBytes source a dst n).1.mem = true := by
  unfold Mach.copyBytes
  dsimp only
  refine foldl_keeps (fun x : Mach => Memory.wf x.mem = true) _ ?_ _ _ (memWrite_wf _ _ _ _ (memRead_wf _ _ _ _ ?_))
  · exact fun _ _ hm => hm
  · split
    · exact farCount_wf _ _ _ _ h
    · exact h
/-- So does a store into the parts of an area. -/
theorem scatter_wf (m : Mach) (source : Nat) (ps : List (Nat × Nat)) (bs : Bytes) (h : Memory.wf m.mem = true) :
    Memory.wf (m.scatter source ps bs).mem = true := by
  induction ps generalizing m bs with
  | nil => exact h
  | cons q r ih => exact ih _ _ (memWrite_wf _ _ _ _ h)
/-- A change of the interleaving moves every byte and keeps it. -/
theorem reinterleave_wf (m : Mach) (old : Bool) (h : Memory.wf m.mem = true) : Memory.wf (m.reinterleave old).mem = true := by
  unfold Mach.reinterleave
  split
  · exact h
  · exact foldl_keeps (fun l : List Host.Cell => Memory.wf l = true) _ (fun _ _ hm => memStore_wf _ _ _ hm) _ _ rfl

theorem reset_wf : Memory.wf State.reset.m.mem = true := rfl

end Sys2Proof.Machine
end

