-- ==== Sys2Proof/WellFormed.lean ====
section
/-! DEFINITION. Well-formed commands: every operand within the field that the manual gives it. The meanings are total on all
commands; a well-formed one is what the outside world can bring. -/

namespace Sys2Proof

/-- A submission entry's common fields (R457). -/
def HostHdr.wf (h : HostHdr) : Bool := decide (h.ring < 16) && decide (h.partition < 256)
/-- A tile reference: a handle of 20 bits, two coordinates of 32 bits and two of 16 (R25). -/
def TileRef.wf (t : TileRef) : Bool :=
  decide (t.handle < 1048576) && decide (t.t0 < 4294967296) && decide (t.t1 < 4294967296) && decide (t.t2 < 65536)
  && decide (t.t3 < 65536)
/-- A request's header (R389). -/
def DictReq.wf (q : DictReq) : Bool := decide (q.offset < 4294967296) && decide (q.data.length < 65536)
/-- A transport packet's header (R310). -/
def PktHdr.wf (h : PktHdr) : Bool :=
  decide (h.dstModule < 65536) && decide (h.srcModule < 65536) && decide (h.tseq < 4294967296)
  && decide (h.offset < 18446744073709551616)
/-- The extension of a chunk or notice (R326). -/
def ExtHdr.wf (e : ExtHdr) : Bool :=
  decide (e.generation < 4294967296) && decide (e.cgroup < 256) && decide (e.level < 256) && decide (e.chunk < 4294967296)
  && decide (e.sender < 65536) && decide (e.elements < 4294967296)
/-- An instance exists (R10). -/
def Inst.wf (i : Inst) : Bool :=
  decide (i.die < 2) && decide (i.idx < (match i.kind with
    | .bench => 32 | .marver => 8 | .gather => 4 | .jacks => 16 | .lehr => 4 | .pontil => 2))
/-- A memory channel exists (R248, R251). -/
def Chan.wf (c : Chan) : Bool := decide (c.die < 2) && decide (c.idx < (if c.lp then 32 else 64))
/-- A fault on a bench is of a row of the array, of its bands and columns, of a stage that there is. -/
def BenchFault.wf (f : BenchFault) : Bool :=
  decide (f.row < 512) && (f.bands.all fun e => decide (e.1 < 3) && decide (e.2.1 < 4) && decide (e.2.2.1 < 256))
  && (f.prods.all fun e => decide (e.1 < 128) && decide (e.2.1 < 256)) && (f.totals.all fun e => decide (e.1 < 256)) && (f.sums.all fun e => decide (e.1 < 256)) && decide (f.stage < 4)
  && decide (f.checker < 5) && decide (f.entry < 64) && (f.upset.all fun e => decide (e.1 < 36) && decide (e.2 < 16))
/-- A fold takes place at a level of a reduction (R323, R352). -/
def FoldFault.wf (f : FoldFault) : Bool := decide (1 ≤ f.level) && decide (f.level < 4)
def FritRun.wf (o : FritRun) : Bool := decide (o.bench < 64) && decide (o.part < 4) && (o.fault.all BenchFault.wf)
def CollSubject.wf : CollSubject → Bool
  | .op ctx _ => decide (ctx < 32)
  | .round part group => decide (part < 4) && decide (group < 65536)
def ClockSrc.wf : ClockSrc → Bool
  | .die d => decide (d < 2)
  | .chan c => c.wf
  | .port q => decide (q < 16)
/-- A port that has trained: its number, lanes and peer within their fields, and credits for the three classes. -/
def PortObs.wf (o : PortObs) : Bool :=
  decide (o.port < 16) && decide (o.lanes < 9) && decide (o.module < 4096) && decide (o.part < 4) && decide (o.peer < 16)
  && o.credits.length == 3 && o.credits.all fun n => decide (n < 65536)
/-- What the outside world brings to a bring-up. -/
def BootObs.wf (o : BootObs) : Bool :=
  o.badChans.all Chan.wf && [0, 2, 4, 8].contains o.hostLanes && o.ports.all PortObs.wf
  && o.temps.length == 24 && o.trained.length == 24

/-- Is the command well formed? -/
def Instr.wf : Instr → Bool
  | .handleWrite h handle words => h.wf && decide (handle < 4294967296) && words.length == 6
  | .handleRead h handle _ => h.wf && decide (handle < 4294967296)
  | .handleFree h handle => h.wf && decide (handle < 4294967296)
  | .programLoad h byteLength _ => h.wf && decide (byteLength < 4294967296)
  | .programUnload h program => h.wf && decide (program < 4294967296)
  | .groupCreate h group kind _ _ _ => h.wf && decide (group < 65536) && decide (kind < 256)
  | .bind h group program pick => h.wf && decide (group < 65536) && decide (program < 4294967296) && decide (pick < 32)
  | .start h group => h.wf && decide (group < 65536)
  | .pause h group => h.wf && decide (group < 65536)
  | .resume h group => h.wf && decide (group < 65536)
  | .stop h group => h.wf && decide (group < 65536)
  | .unbind h context => h.wf && decide (context < 32)
  | .groupDestroy h group => h.wf && decide (group < 65536)
  | .ckptRead h module partition slot _ length => h.wf && decide (module < 4096) && decide (partition < 4) && decide (slot < 256) && decide (length < 18446744073709551616)
  | .ckptRestore h group source slot module partition _ => h.wf && decide (group < 65536) && decide (source < 256) && decide (slot < 256) && decide (module < 4096) && decide (partition < 4)
  | .oap h _ bufLen _ => h.wf && decide (bufLen < 4294967296)
  | .nop h => h.wf
  | .dmaWrite h length tile mode offset _ => h.wf && decide (length < 18446744073709551616) && tile.wf && decide (mode < 256) && decide (offset < 18446744073709551616)
  | .dmaRead h _ length tile mode offset => h.wf && decide (length < 18446744073709551616) && tile.wf && decide (mode < 256) && decide (offset < 18446744073709551616)
  | .signal h _ => h.wf
  | .wait h _ count timeout => h.wf && decide (count < 65536) && decide (timeout < 4294967296)
  | .hostWaitTimeout ring _ => decide (ring < 16)
  | .timeExchange h _ _ => h.wf
  | .detach h => h.wf
  | .copy ctx inst => decide (ctx < 32) && decide (inst < 65536)
  | .bagSum ctx inst => decide (ctx < 32) && decide (inst < 65536)
  | .bagMean ctx inst => decide (ctx < 32) && decide (inst < 65536)
  | .bagMax ctx inst => decide (ctx < 32) && decide (inst < 65536)
  | .gradMerge ctx inst => decide (ctx < 32) && decide (inst < 65536)
  | .quant ctx inst => decide (ctx < 32) && decide (inst < 65536)
  | .measure ctx inst => decide (ctx < 32) && decide (inst < 65536)
  | .dequant ctx inst => decide (ctx < 32) && decide (inst < 65536)
  | .gemm ctx inst cuts f => decide (ctx < 32) && decide (inst < 65536) && (cuts.all fun q => decide (q.2 < 64)) && (f.all BenchFault.wf)
  | .elementwise ctx inst => decide (ctx < 32) && decide (inst < 65536)
  | .norm ctx inst => decide (ctx < 32) && decide (inst < 65536)
  | .softmax ctx inst => decide (ctx < 32) && decide (inst < 65536)
  | .reduceSum ctx inst => decide (ctx < 32) && decide (inst < 65536)
  | .reduceMax ctx inst => decide (ctx < 32) && decide (inst < 65536)
  | .reduceMin ctx inst => decide (ctx < 32) && decide (inst < 65536)
  | .update ctx inst => decide (ctx < 32) && decide (inst < 65536)
  | .rowUpdate ctx inst => decide (ctx < 32) && decide (inst < 65536)
  | .snapshot ctx inst => decide (ctx < 32) && decide (inst < 65536)
  | .put ctx inst => decide (ctx < 32) && decide (inst < 65536)
  | .get ctx inst => decide (ctx < 32) && decide (inst < 65536)
  | .putSignal ctx inst => decide (ctx < 32) && decide (inst < 65536)
  | .collective ctx w => decide (ctx < 32) && decide (w.inst < 65536) && w.faults.all FoldFault.wf
  | .sync ctx => decide (ctx < 32)
  | .barrier ctx => decide (ctx < 32)
  | .stepBoundary ctx => decide (ctx < 32)
  | .opEnd ctx => decide (ctx < 32)
  | .opComplete ctx opIdx => decide (ctx < 32) && decide (opIdx < 4294967296)
  | .waitWatchdogExpire ctx => decide (ctx < 32)
  | .collectiveWatchdogExpire subject => subject.wf
  | .syncFwSignal die _ => decide (die < 2)
  | .syncFwWait die _ => decide (die < 2)
  | .agreedStatus part group => decide (part < 4) && decide (group < 65536)
  | .abortNotice port hdr ext _ => decide (port < 16) && hdr.wf && ext.wf
  | .commitAck port hdr ext => decide (port < 16) && hdr.wf && ext.wf
  | .ckptShipped part => decide (part < 4)
  | .digestNotice port hdr ext _ => decide (port < 16) && hdr.wf && ext.wf
  | .digestTimeout part => decide (part < 4)
  | .journalRoomResume ctx => decide (ctx < 32)
  | .strainRerunDone bench run f _ => decide (bench < 64) && decide (run < 256) && (f.all BenchFault.wf)
  | .strikeExpire => true
  | .fritTestStart bench partner => decide (bench < 64) && decide (partner < 64)
  | .fritTestDone bench runs => decide (bench < 64) && (runs.all FritRun.wf)
  | .fritLendExpire bench => decide (bench < 64)
  | .knownAnswerTest inst a b second c => inst.wf && decide (second < 65536) && (a ++ b ++ c).all fun q => decide (q.2 < 256)
  | .selftestRolling rq => rq.wf
  | .selftestWholeModule rq => rq.wf
  | .unfence rq => rq.wf
  | .jacksReserveGrant cgroup => decide (cgroup < 32)
  | .pktWrite port hdr _ => decide (port < 16) && hdr.wf
  | .pktWriteSignal port hdr _ => decide (port < 16) && hdr.wf
  | .pktReadReq port hdr _ => decide (port < 16) && hdr.wf
  | .pktReadResp port hdr _ => decide (port < 16) && hdr.wf
  | .pktCollChunk port hdr ext _ => decide (port < 16) && hdr.wf && ext.wf
  | .noticeStatus port hdr ext _ => decide (port < 16) && hdr.wf && ext.wf
  | .noticeBarrierArrive port hdr ext _ => decide (port < 16) && hdr.wf && ext.wf
  | .noticeResend port hdr ext _ => decide (port < 16) && hdr.wf && ext.wf
  | .pktTack port hdr => decide (port < 16) && hdr.wf
  | .pktRefuse port hdr _ => decide (port < 16) && hdr.wf
  | .retxTimerExpire flow => decide (flow < 65536)
  | .destUnreachable part module dstPart => decide (part < 4) && decide (module < 4096) && decide (dstPart < 4)
  | .flitReceive port symbols =>
    decide (port < 16) && symbols.length == 4 && symbols.all fun c => c.length == 544 && c.all fun l => decide (l < 4)
  | .flitReplayTimeout port => decide (port < 16)
  | .portFastRetrain port => decide (port < 16)
  | .portDown port => decide (port < 16)
  | .portTrained port lanes module part peer => PortObs.wf ⟨port, lanes, module, part, peer.port, peer.credits⟩
  | .portModeWrite rq => rq.wf
  | .groupDefinitionWrite cgroup rq => decide (cgroup < 32) && rq.wf
  | .partitionModeWrite rq => rq.wf
  | .handleCountWrite part rq => decide (part < 4) && rq.wf
  | .optSlotWrite part slot rq => decide (part < 4) && decide (slot < 16) && rq.wf
  | .lrScheduleWrite part slot rq => decide (part < 4) && decide (slot < 16) && rq.wf
  | .tableMapWrite part n rq => decide (part < 4) && decide (n < 32) && rq.wf
  | .hbmInterleaveWrite rq => rq.wf
  | .plannerTick => true
  | .countersWarm part => decide (part < 4)
  | .tableCounterHalve part => decide (part < 4)
  | .migrationCopyDone part handle tile => decide (part < 4) && decide (handle < 4294967296) && decide (tile < 4294967296)
  | .scrubPatrol o =>
    decide (o.addr < 18446744073709551616) && (o.upset.all fun e => decide (e.1 < 36) && decide (e.2 < 16)) && decide (o.parity ≤ 2)
  | .recalibrationTrigger chan => chan.wf
  | .recalHold chan => chan.wf
  | .svcDrain rq => rq.wf
  | .svcReturn rq => rq.wf
  | .svcRecalibrate rq => rq.wf
  | .svcMargin rq => rq.wf
  | .channelDrained chan => chan.wf
  | .marginDone chan _ => chan.wf
  | .memcRecalReq die inst _ => decide (die < 2) && decide (inst < 96)
  | .benchDrain die idx _ => decide (die < 2) && decide (idx < 32)
  | .benchYield die idx _ => decide (die < 2) && decide (idx < 32)
  | .stationDrained inst => inst.wf
  | .stationGate inst => inst.wf
  | .stationWake inst => inst.wf
  | .stationRetain inst => inst.wf
  | .retainedAccess inst => inst.wf
  | .csrWrite addr size _ => decide (addr < 18446744073709551616) && decide (size < 9)
  | .counterReadClear addr size => decide (addr < 18446744073709551616) && decide (size < 9)
  | .gcntLoRead die _ => decide (die < 2)
  | .aliasSetClearToggle addr _ => decide (addr < 18446744073709551616)
  | .aliasBitWrite addr _ => decide (addr < 18446744073709551616)
  | .csrmapModeWrite die n _ => decide (die < 2) && decide (n < 16)
  | .parityScan die slot o =>
    decide (die < 2) && decide (slot < 512) && decide (o.off < 131072) && decide (o.flip < 4294967296)
  | .cfgParityReload die slot => decide (die < 2) && decide (slot < 512)
  | .gcntParityInject die _ => decide (die < 2)
  | .eventPop die _ => decide (die < 2)
  | .aopmBlockReset _ => true
  | .aopmWarm _ => true
  | .dieHold _ => true
  | .oapRead rq index sub => rq.wf && decide (index < 65536) && decide (sub < 256)
  | .oapWrite rq index sub => rq.wf && decide (index < 65536) && decide (sub < 256)
  | .oapInfo rq index sub => rq.wf && decide (index < 65536) && decide (sub < 256)
  | .oapStagingTimeout _ index sub => decide (index < 65536) && decide (sub < 256)
  | .controlTokenWrite rq => rq.wf
  | .mgmtTakeover => true
  | .restoreDefaults rq => rq.wf
  | .logClear rq => rq.wf
  | .csrDataRead rq => rq.wf
  | .csrDataWrite rq => rq.wf
  | .sweepBegin => true
  | .addressOffer node => decide (node < 256)
  | .mgmtBeaconLost => true
  | .mgmtBeaconResumed => true
  | .mgmtChainInLost => true
  | .storeCopyWrite _ => true
  | .poweredTimeRecord => true
  | .nvInhibitBegin => true
  | .nvInhibitEnd => true
  | .supplyGood obs => obs.wf
  | .supplyLow => true
  | .supplyWarnEnd => true
  | .brownOut => true
  | .auxLoss => true
  | .overvoltage => true
  | .overvoltageEnd => true
  | .modResetN => true
  | .resetCmdCold rq => rq.wf
  | .resetCmdWarm rq => rq.wf
  | .resetCmdDie rq => rq.wf
  | .powerLimitTick meanMw => decide (meanMw < 4294967296)
  | .powerComparatorTrip => true
  | .powerComparatorRelease => true
  | .thermalSample die _ => decide (die < 2)
  | .thermalDieReset die => decide (die < 2)
  | .clockFault src => src.wf
  | .deepCmd rq => rq.wf
  | .wake source => decide (source < 3)
  | .fwImageWrite slot rq => decide (slot < 4) && rq.wf
  | .fwActivateMgmt rq => rq.wf
  | .fwActivateGaffer rq => rq.wf
  | .liveUpdateDieHeld die => decide (die < 2)
  | .fwConfirm rq => rq.wf
  | .keyRecordWrite rq => rq.wf
  | .waiverWrite rq => rq.wf
  | .quoteNonceWrite rq => rq.wf
  | .quoteRead rq => rq.wf
  | .hlFlitReceive flit => flit.length == 256
  | .hlReplayTimeout => true
  | .hostLinkRetrained => true
  | .hostLinkDown => true
  | .hostLinkUp lanes => decide (lanes < 9)
  | .sqDoorbell ring _ => decide (ring < 16)
  | .cqDoorbell ring _ => decide (ring < 16)
  | .eventHeadDoorbell _ => true
  | .hlCtrlWrite _ => true
  | .ctrlWrite offset _ => decide (offset < 18446744073709551616)
  | .ringPairWrite ring rq => decide (ring < 16) && rq.wf
  | .ringPairDrained ring => decide (ring < 16)
  | .commandComplete ring _ _ done => decide (ring < 16) && decide (done < 18446744073709551616)
  | .recalibrationEnd chan holdNs => chan.wf && decide (holdNs < 4294967296)
  | .digestsComputed part => decide (part < 4)
  | .thermalResetEnd die => decide (die < 2)
  | .modResetNRelease => true
  | .mgmtChainInAsserted => true
  | .selftestComplete _ => true
  | .mgmtFwRestarted => true
  | .quoteReady _ => true
  | .oapSnapshotExpire _ index sub => decide (index < 65536) && decide (sub < 256)
  | .oapKeptResponseExpire _ _ => true
  | .mgmtFrameDiscarded => true

end Sys2Proof
end

