-- ==== Sys2Proof/Tests/Slice0.lean ====
section
/-! SUPPORT. This package's own tests: the well-formedness checks, small values that the manual itself gives, and for each
statement a concrete state and operands that meet its hypotheses. -/

namespace Sys2Proof.Tests
open Sys2Proof Sys2Proof.Machine
set_option Elab.async false

/-! ### Small states -/

/-- A host command's header on the admin ring. -/
def hdr : HostHdr := ⟨0, 7, 0, 0, 0, 0, false, .none⟩
def bootObs : BootObs :=
  ⟨some (List.replicate 32 0x5A), true, true, [], 8, [], List.replicate 24 0, List.replicate 24 []⟩
/-- A module that runs, its host link up, one entry in the admin ring. -/
def upM : Mach :=
  { dies := [{ up := true }, { up := true }]
    power := { ready := true, boot := some bootObs }
    link := { up := true, enable := true, sizes := 0x888, rings := [(0, { sqTail := 1 })] } }
/-- The state around a machine. -/
def st (m : Mach) : State := { m := m }
def ref (h : Nat) : TileRef := ⟨h, 0, 0, 0, 0⟩
def mkOp (k : OpKind) (hs : List Nat) (param : Nat) : Op := ⟨k, false, false, false, 0, 0, 0, param, hs.map ref⟩
/-- A descriptor of one tile of n × k elements. -/
def desc (h : Nat) (f : Fmt) (n k : Nat) : HDesc :=
  { handle := h, fmtCode := f.code, cls := 0, rankM1 := 1, redAxis := 0, scaleBase := 0, fixedScale := false, valid := true
    rotSize := 0, ovfThreshold := 0, hotLimit := 0, ext := ⟨n, k, 1, 1⟩, tile := ⟨n, k, 1, 1⟩, layer := 0xFFFF, rotSeed := 0
    placeMap := 0, placeGen := 0, histAddr := 0 }
def tens (h : Nat) (f : Fmt) (n k : Nat) : Tensor :=
  { part := 0, handle := h, desc := desc h f n k, hist := none, runs := [⟨0, 1, 1, 65536 * h⟩], stride := 65536 }
def prog (num : Nat) (k : ProgKind) (ops : List Op) : Program :=
  { part := 0, num := num, kind := k, level := 0, bytes := 64, ops := ops }
def group (k : GroupKind) : Group := { part := 0, num := 1, kind := k, seed := 0, first := 0, rpt := 1, started := true, open_ := true }
/-- A context of group 1 that runs program 1. -/
def runCtx : Ctx := { st := .running, group := 1, prog := 1 }
/-- The module with a group that runs one program in context 0, over these tensors. -/
def runM (k : GroupKind) (pk : ProgKind) (ops : List Op) (ts : List Tensor) : Mach :=
  { upM with tensors := ts, progs := [prog 1 pk ops], groups := [group k], ctxs := updAt upM.ctxs 0 fun _ => runCtx }
/-- The module with an instance of a station in service and configured. -/
def enabled (m : Mach) (i : Inst) : Mach := (m.setService i true).configStation i
/-- The module with the memory channel of address 0 serving requests (R275). -/
def serving (m : Mach) : Mach := m.putReg .memc 0 0 0 1
/-- The module with die 0's barriers and waits served (R299). -/
def synced (m : Mach) : Mach := m.putReg .sync 0 0 0 1
/-- The module with the bounds of partition 0 set on both dies. -/
def bounded (m : Mach) : Mach := (m.configPart 0 0).configPart 1 0

/-- A training group of three contexts in state `k`, over one status tensor. -/
def trainM (k : CtxSt) : Mach :=
  { upM with
    tensors := [{ tens 1 .fp32 64 1 with desc := { desc 1 .fp32 64 1 with cls := 7 } }]
    progs := [prog 1 .forward [mkOp .opEnd [1] 0], prog 2 .backward [mkOp .opEnd [1] 0],
              prog 3 .update [mkOp .stepBoundary [1] 0, mkOp .opEnd [1] 0]]
    groups := [{ group .training with started := false }]
    ctxs := updAt (updAt (updAt upM.ctxs 0 fun _ => { runCtx with st := k }) 1 fun _ => { runCtx with st := k, prog := 2 }) 2
      fun _ => { runCtx with st := k, prog := 3 } }

/-- Context 0 at an operation on instance 0 of a station, over these tensors. -/
def opM (st : StKind) (k : GroupKind) (pk : ProgKind) (o : Op) (ts : List Tensor) : Mach :=
  serving (enabled (bounded (runM k pk [o, mkOp .opEnd [1] 0] ts)) (instOf st 0))
/-- The module with the first codeword of a tile's place poisoned. -/
def bad (m : Mach) (h : Nat) : Mach := { m with chk := [(65536 * h, poisonMask)] }
def u32t (h n : Nat) : Tensor := { tens h .u32 n 1 with desc := { desc h .u32 n 1 with rankM1 := 0, cls := 7 } }
def table : Tensor := { tens 1 .q4 32 4 with desc := { desc 1 .q4 32 4 with cls := 5 } }

/-- A request of the host for an entry: its type, one segment. -/
def req (s : State) (op i sub : Nat) (data : Bytes) : OapReq :=
  OapReq.ofRow op i sub ⟨.host, 1, 3, 0, BitVec.ofNat 8 (match s.entryRow i sub with | some r => r.typ.code | none => 0), 0, data, false, false⟩
/-- Is the write of an entry served and admitted, with the rule given met by the state it is admitted in? -/
def granted (s : State) (i sub : Nat) (data : Bytes) (rule : State → Bytes → Bool) : Bool :=
  let q := req s 2 i sub data
  s.serves q && match s.entryRow i sub with
  | none => false
  | some r => r.acc != .ro && s.m.mayWrite .host i sub data && q.rq.typ.toNat == r.typ.code && match s.whole q r with
    | none => false
    | some (s1, bs) => s1.m.rangeOk r i sub bs && (r.acc != .rwIdle || s1.m.entryIdle i bs) && !s1.m.absent i
      && s1.m.power.deepSteps < 2 && rule s1 bs

/-! ### Well-formed commands: an ill-formed term for each check -/

def goodReq : DictReq := ⟨.host, 1, 3, 0, 0, 0, [], false, false⟩
def goodPkt : PktHdr := ⟨0, 0, 0, 0, 0, 0, 0, 0, false⟩
def goodExt : ExtHdr := ⟨0, 0, 0, 0, 0, 0, 0, 0, 0, false⟩
/-- A fault of a bench that leaves everything as it is, in row 0 of reduction tile 0. -/
def goodFault : BenchFault := ⟨0, 0, [], [], [], 0, [], 0, 0, []⟩
def goodFold : FoldFault := ⟨1, 0, 0, [], false⟩
def goodPort : PortObs := ⟨0, 4, 0, 0, 0, [0, 0, 0]⟩
/-- Four codewords as levels on the line. -/
def levels : List (List Nat) := List.replicate 4 (List.replicate 544 3)

def illFormed1 : List Instr := [
  .handleWrite { hdr with ring := 16 } 0 (List.replicate 6 0), .handleWrite hdr 4294967296 (List.replicate 6 0),
  .handleWrite hdr 0 [], .handleRead { hdr with ring := 16 } 0 0, .handleRead hdr 4294967296 0,
  .handleFree { hdr with ring := 16 } 0, .handleFree hdr 4294967296, .programLoad { hdr with ring := 16 } 0 [],
  .programLoad hdr 4294967296 [], .programUnload { hdr with ring := 16 } 0, .programUnload hdr 4294967296,
  .groupCreate { hdr with ring := 16 } 0 0 0 0 0, .groupCreate hdr 65536 0 0 0 0, .groupCreate hdr 0 256 0 0 0,
  .bind { hdr with ring := 16 } 0 0 0, .bind hdr 65536 0 0, .bind hdr 0 4294967296 0, .bind hdr 0 0 32,
  .start { hdr with ring := 16 } 0, .start hdr 65536, .pause { hdr with ring := 16 } 0, .pause hdr 65536,
  .resume { hdr with ring := 16 } 0, .resume hdr 65536, .stop { hdr with ring := 16 } 0, .stop hdr 65536,
  .unbind { hdr with ring := 16 } 0, .unbind hdr 32, .groupDestroy { hdr with ring := 16 } 0, .groupDestroy hdr 65536,
  .ckptRead { hdr with ring := 16 } 0 0 0 0 0, .ckptRead hdr 4096 0 0 0 0, .ckptRead hdr 0 4 0 0 0,
  .ckptRead hdr 0 0 256 0 0, .ckptRead hdr 0 0 0 0 18446744073709551616, .ckptRestore { hdr with ring := 16 } 0 0 0 0 0 [],
  .ckptRestore hdr 65536 0 0 0 0 [], .ckptRestore hdr 0 256 0 0 0 [], .ckptRestore hdr 0 0 256 0 0 [],
  .ckptRestore hdr 0 0 0 4096 0 [], .ckptRestore hdr 0 0 0 0 4 [], .oap { hdr with ring := 16 } 0 0 [],
  .oap hdr 0 4294967296 [], .nop { hdr with ring := 16 }, .dmaWrite { hdr with ring := 16 } 0 (ref 1) 0 0 [],
  .dmaWrite hdr 18446744073709551616 (ref 1) 0 0 [], .dmaWrite hdr 0 { ref 1 with t3 := 65536 } 0 0 [],
  .dmaWrite hdr 0 (ref 1) 256 0 [], .dmaWrite hdr 0 (ref 1) 0 18446744073709551616 [],
  .dmaRead { hdr with ring := 16 } 0 0 (ref 1) 0 0, .dmaRead hdr 0 18446744073709551616 (ref 1) 0 0,
  .dmaRead hdr 0 0 { ref 1 with t3 := 65536 } 0 0, .dmaRead hdr 0 0 (ref 1) 256 0,
  .dmaRead hdr 0 0 (ref 1) 0 18446744073709551616, .signal { hdr with ring := 16 } 0, .wait { hdr with ring := 16 } 0 0 0,
  .wait hdr 0 65536 0, .wait hdr 0 0 4294967296, .hostWaitTimeout 16 0, .timeExchange { hdr with ring := 16 } 0 0]

def illFormed2 : List Instr := [
  .detach { hdr with ring := 16 }, .copy 32 0, .copy 0 65536, .bagSum 32 0, .bagSum 0 65536, .bagMean 32 0, .bagMean 0 65536,
  .bagMax 32 0, .bagMax 0 65536, .gradMerge 32 0, .gradMerge 0 65536, .quant 32 0, .quant 0 65536, .measure 32 0,
  .measure 0 65536, .dequant 32 0, .dequant 0 65536, .gemm 32 0 [] none, .gemm 0 65536 [] none,
  .gemm 0 0 [(0, 64)] none, .gemm 0 0 [] (some { goodFault with row := 512 }), .elementwise 32 0, .elementwise 0 65536, .norm 32 0, .norm 0 65536,
  .softmax 32 0, .softmax 0 65536, .reduceSum 32 0, .reduceSum 0 65536, .reduceMax 32 0, .reduceMax 0 65536, .reduceMin 32 0,
  .reduceMin 0 65536, .update 32 0, .update 0 65536, .rowUpdate 32 0, .rowUpdate 0 65536, .snapshot 32 0, .snapshot 0 65536,
  .put 32 0, .put 0 65536, .get 32 0, .get 0 65536, .putSignal 32 0, .putSignal 0 65536, .collective 32 ⟨0, []⟩,
  .collective 0 ⟨65536, []⟩, .collective 0 ⟨0, [{ goodFold with level := 0 }]⟩, .collective 0 ⟨0, [{ goodFold with level := 4 }]⟩, .sync 32, .barrier 32, .stepBoundary 32, .opEnd 32, .opComplete 32 0, .opComplete 0 4294967296,
  .waitWatchdogExpire 32, .collectiveWatchdogExpire (.op 32 0), .syncFwSignal 2 0, .syncFwWait 2 0, .agreedStatus 4 0,
  .agreedStatus 0 65536, .abortNotice 16 goodPkt goodExt [], .abortNotice 0 { goodPkt with tseq := 4294967296 } goodExt []]

def illFormed3 : List Instr := [
  .abortNotice 0 goodPkt { goodExt with level := 256 } [], .commitAck 16 goodPkt goodExt,
  .commitAck 0 { goodPkt with tseq := 4294967296 } goodExt, .commitAck 0 goodPkt { goodExt with level := 256 },
  .ckptShipped 4, .digestNotice 16 goodPkt goodExt [], .digestNotice 0 { goodPkt with tseq := 4294967296 } goodExt [],
  .digestNotice 0 goodPkt { goodExt with level := 256 } [], .digestTimeout 4, .journalRoomResume 32,
  .strainRerunDone 64 1 none false, .strainRerunDone 0 256 none false, .strainRerunDone 0 1 (some { goodFault with stage := 4 }) false, .fritTestStart 64 0, .fritTestStart 0 64, .fritTestDone 64 [],
  .fritTestDone 0 [⟨64, 0, none⟩], .fritTestDone 0 [⟨0, 4, none⟩],
  .fritTestDone 0 [⟨0, 0, some { goodFault with checker := 5 }⟩], .fritLendExpire 64, .knownAnswerTest ⟨.gather, 0, 4⟩ [] [] 0 [],
  .knownAnswerTest ⟨.gather, 0, 0⟩ [(0, 256)] [] 0 [], .knownAnswerTest ⟨.gather, 0, 0⟩ [] [] 0 [(0, 256)],
  .knownAnswerTest ⟨.gather, 0, 0⟩ [] [] 65536 [], .selftestRolling { goodReq with offset := 4294967296 },
  .selftestWholeModule { goodReq with offset := 4294967296 }, .unfence { goodReq with offset := 4294967296 },
  .jacksReserveGrant 32, .pktWrite 16 goodPkt [], .pktWrite 0 { goodPkt with tseq := 4294967296 } [],
  .pktWriteSignal 16 goodPkt [], .pktWriteSignal 0 { goodPkt with tseq := 4294967296 } [], .pktReadReq 16 goodPkt [],
  .pktReadReq 0 { goodPkt with tseq := 4294967296 } [], .pktReadResp 16 goodPkt [],
  .pktReadResp 0 { goodPkt with tseq := 4294967296 } [], .pktCollChunk 16 goodPkt goodExt [],
  .pktCollChunk 0 { goodPkt with tseq := 4294967296 } goodExt [], .pktCollChunk 0 goodPkt { goodExt with level := 256 } [],
  .noticeStatus 16 goodPkt goodExt [], .noticeStatus 0 { goodPkt with tseq := 4294967296 } goodExt [],
  .noticeStatus 0 goodPkt { goodExt with level := 256 } [], .noticeBarrierArrive 16 goodPkt goodExt [],
  .noticeBarrierArrive 0 { goodPkt with tseq := 4294967296 } goodExt [],
  .noticeBarrierArrive 0 goodPkt { goodExt with level := 256 } [], .noticeResend 16 goodPkt goodExt [],
  .noticeResend 0 { goodPkt with tseq := 4294967296 } goodExt [], .noticeResend 0 goodPkt { goodExt with level := 256 } [],
  .pktTack 16 goodPkt, .pktTack 0 { goodPkt with tseq := 4294967296 }, .pktRefuse 16 goodPkt [],
  .pktRefuse 0 { goodPkt with tseq := 4294967296 } [], .retxTimerExpire 65536, .destUnreachable 4 0 0,
  .destUnreachable 0 4096 0, .destUnreachable 0 0 4, .flitReceive 16 levels, .flitReceive 0 [],
  .flitReceive 0 (List.replicate 4 []), .flitReceive 0 (List.replicate 4 (List.replicate 544 4)), .flitReplayTimeout 16,
  .portFastRetrain 16, .portDown 16, .portTrained 16 4 0 0 ⟨0, [0, 0, 0]⟩, .portTrained 0 9 0 0 ⟨0, [0, 0, 0]⟩,
  .portTrained 0 4 4096 0 ⟨0, [0, 0, 0]⟩, .portTrained 0 4 0 4 ⟨0, [0, 0, 0]⟩]

def illFormed4 : List Instr := [
  .portTrained 0 4 0 0 ⟨16, [0, 0, 0]⟩, .portTrained 0 4 0 0 ⟨0, [0, 0]⟩,
  .portTrained 0 4 0 0 ⟨0, [0, 65536, 0]⟩, .portModeWrite { goodReq with offset := 4294967296 }, .groupDefinitionWrite 32 goodReq,
  .groupDefinitionWrite 0 { goodReq with offset := 4294967296 }, .partitionModeWrite { goodReq with offset := 4294967296 },
  .handleCountWrite 4 goodReq, .handleCountWrite 0 { goodReq with offset := 4294967296 }, .optSlotWrite 4 0 goodReq,
  .optSlotWrite 0 16 goodReq, .optSlotWrite 0 0 { goodReq with offset := 4294967296 }, .lrScheduleWrite 4 0 goodReq,
  .lrScheduleWrite 0 16 goodReq, .lrScheduleWrite 0 0 { goodReq with offset := 4294967296 }, .tableMapWrite 4 0 goodReq,
  .tableMapWrite 0 32 goodReq, .tableMapWrite 0 0 { goodReq with offset := 4294967296 },
  .hbmInterleaveWrite { goodReq with offset := 4294967296 }, .countersWarm 4, .tableCounterHalve 4, .migrationCopyDone 4 0 0,
  .migrationCopyDone 0 4294967296 0, .migrationCopyDone 0 0 4294967296, .scrubPatrol ⟨18446744073709551616, [], 0, []⟩,
  .scrubPatrol ⟨0, [(36, 1)], 0, []⟩, .scrubPatrol ⟨0, [(35, 16)], 0, []⟩, .scrubPatrol ⟨0, [], 3, []⟩,
  .recalibrationTrigger ⟨true, 0, 32⟩, .recalHold ⟨true, 0, 32⟩, .svcDrain { goodReq with offset := 4294967296 },
  .svcReturn { goodReq with offset := 4294967296 }, .svcRecalibrate { goodReq with offset := 4294967296 },
  .svcMargin { goodReq with offset := 4294967296 }, .channelDrained ⟨true, 0, 32⟩, .marginDone ⟨true, 0, 32⟩ [],
  .memcRecalReq 2 0 0, .memcRecalReq 0 96 0, .benchDrain 2 0 0, .benchDrain 0 32 0, .benchYield 2 0 0, .benchYield 0 32 0,
  .stationDrained ⟨.gather, 0, 4⟩, .stationGate ⟨.gather, 0, 4⟩, .stationWake ⟨.gather, 0, 4⟩,
  .stationRetain ⟨.gather, 0, 4⟩, .retainedAccess ⟨.gather, 0, 4⟩, .csrWrite 18446744073709551616 0 0, .csrWrite 0 9 0,
  .counterReadClear 18446744073709551616 0, .counterReadClear 0 9, .gcntLoRead 2 false,
  .aliasSetClearToggle 18446744073709551616 0, .aliasBitWrite 18446744073709551616 0, .csrmapModeWrite 2 0 0,
  .csrmapModeWrite 0 16 0, .parityScan 2 0 ⟨0, 0⟩, .parityScan 0 512 ⟨0, 0⟩, .parityScan 0 0 ⟨131072, 0⟩,
  .parityScan 0 0 ⟨0, 4294967296⟩, .cfgParityReload 2 0,
  .cfgParityReload 0 512, .gcntParityInject 2 0, .eventPop 2 0, .oapRead { goodReq with offset := 4294967296 } 0 0,
  .oapRead goodReq 65536 0]

def illFormed5 : List Instr := [
  .oapRead goodReq 0 256, .oapWrite { goodReq with offset := 4294967296 } 0 0, .oapWrite goodReq 65536 0,
  .oapWrite goodReq 0 256, .oapInfo { goodReq with offset := 4294967296 } 0 0, .oapInfo goodReq 65536 0,
  .oapInfo goodReq 0 256, .oapStagingTimeout .host 65536 0, .oapStagingTimeout .host 0 256,
  .controlTokenWrite { goodReq with offset := 4294967296 }, .restoreDefaults { goodReq with offset := 4294967296 },
  .logClear { goodReq with offset := 4294967296 }, .csrDataRead { goodReq with offset := 4294967296 },
  .csrDataWrite { goodReq with offset := 4294967296 }, .addressOffer 256, .supplyGood { bootObs with hostLanes := 3 },
  .resetCmdCold { goodReq with offset := 4294967296 }, .resetCmdWarm { goodReq with offset := 4294967296 },
  .resetCmdDie { goodReq with offset := 4294967296 }, .powerLimitTick 4294967296, .thermalSample 2 0, .thermalDieReset 2,
  .clockFault (.die 2), .deepCmd { goodReq with offset := 4294967296 }, .wake 3, .fwImageWrite 4 goodReq,
  .fwImageWrite 0 { goodReq with offset := 4294967296 }, .fwActivateMgmt { goodReq with offset := 4294967296 },
  .fwActivateGaffer { goodReq with offset := 4294967296 }, .liveUpdateDieHeld 2,
  .fwConfirm { goodReq with offset := 4294967296 }, .keyRecordWrite { goodReq with offset := 4294967296 },
  .waiverWrite { goodReq with offset := 4294967296 }, .quoteNonceWrite { goodReq with offset := 4294967296 },
  .quoteRead { goodReq with offset := 4294967296 }, .hlFlitReceive [], .hostLinkUp 9, .sqDoorbell 16 0, .cqDoorbell 16 0,
  .ctrlWrite 18446744073709551616 0, .ringPairWrite 16 goodReq, .ringPairWrite 0 { goodReq with offset := 4294967296 },
  .ringPairDrained 16, .commandComplete 16 0 .none 0, .commandComplete 0 0 .none 18446744073709551616,
  .recalibrationEnd ⟨true, 0, 32⟩ 0, .recalibrationEnd ⟨true, 0, 0⟩ 4294967296, .digestsComputed 4, .thermalResetEnd 2,
  .oapSnapshotExpire .host 65536 0, .oapSnapshotExpire .host 0 256, .nop { hdr with partition := 256 },
  .dmaRead hdr 0 0 { ref 1 with handle := 4294967296 } 0 0, .unfence { goodReq with data := List.replicate 65536 0 },
  .pktTack 0 { goodPkt with dstModule := 65536 }, .pktTack 0 { goodPkt with srcModule := 65536 },
  .pktTack 0 { goodPkt with offset := 18446744073709551616 }, .commitAck 0 goodPkt { goodExt with generation := 4294967296 },
  .commitAck 0 goodPkt { goodExt with cgroup := 256 }, .commitAck 0 goodPkt { goodExt with chunk := 4294967296 }]

def illFormed6 : List Instr := [
  .commitAck 0 goodPkt { goodExt with sender := 65536 }, .commitAck 0 goodPkt { goodExt with elements := 4294967296 },
  .stationGate ⟨.gather, 2, 0⟩, .recalHold ⟨true, 2, 0⟩, .recalHold ⟨false, 0, 64⟩,
  .gemm 0 0 [] (some { goodFault with bands := [(3, 0, 0, 1)] }), .gemm 0 0 [] (some { goodFault with bands := [(0, 4, 0, 1)] }),
  .gemm 0 0 [] (some { goodFault with bands := [(0, 0, 256, 1)] }), .gemm 0 0 [] (some { goodFault with totals := [(256, 0)] }),
  .gemm 0 0 [] (some { goodFault with sums := [(256, 0)] }), .gemm 0 0 [] (some { goodFault with entry := 64 }),
  .gemm 0 0 [] (some { goodFault with upset := [(36, 1)] }), .gemm 0 0 [] (some { goodFault with upset := [(35, 16)] }),
  .collectiveWatchdogExpire (.round 4 0), .collectiveWatchdogExpire (.round 0 65536), .clockFault (.chan ⟨true, 0, 32⟩),
  .clockFault (.port 16), .supplyGood { bootObs with badChans := [⟨true, 2, 0⟩] },
  .supplyGood { bootObs with ports := [{ goodPort with port := 16 }] }, .supplyGood { bootObs with temps := [] },
  .supplyGood { bootObs with trained := [] }, .dmaRead hdr 0 0 { ref 1 with handle := 1048576 } 0 0,
  .dmaRead hdr 0 0 { ref 1 with t0 := 4294967296 } 0 0, .dmaRead hdr 0 0 { ref 1 with t1 := 4294967296 } 0 0,
  .dmaRead hdr 0 0 { ref 1 with t2 := 65536 } 0 0]

def wellFormed1 : List Instr := [
  .handleWrite hdr 0 (List.replicate 6 0), .handleRead hdr 0 0, .handleFree hdr 0, .programLoad hdr 0 [],
  .programUnload hdr 0, .groupCreate hdr 0 0 0 0 0, .bind hdr 0 0 0, .start hdr 0, .pause hdr 0, .resume hdr 0, .stop hdr 0,
  .unbind hdr 0, .groupDestroy hdr 0, .ckptRead hdr 0 0 0 0 0, .ckptRestore hdr 0 0 0 0 0 [], .oap hdr 0 0 [], .nop hdr,
  .dmaWrite hdr 0 (ref 1) 0 0 [], .dmaRead hdr 0 0 (ref 1) 0 0, .signal hdr 0, .wait hdr 0 0 0, .hostWaitTimeout 0 0,
  .timeExchange hdr 0 0, .detach hdr, .copy 0 0, .bagSum 0 0, .bagMean 0 0, .bagMax 0 0, .gradMerge 0 0, .quant 0 0,
  .measure 0 0, .dequant 0 0, .gemm 0 0 [(1, 63)] (some goodFault), .elementwise 0 0, .norm 0 0, .softmax 0 0, .reduceSum 0 0, .reduceMax 0 0,
  .reduceMin 0 0, .update 0 0, .rowUpdate 0 0, .snapshot 0 0, .put 0 0, .get 0 0, .putSignal 0 0, .collective 0 ⟨0, [goodFold]⟩, .sync 0,
  .barrier 0, .stepBoundary 0, .opEnd 0, .opComplete 0 0, .waitWatchdogExpire 0, .collectiveWatchdogExpire (.op 0 0),
  .syncFwSignal 0 0, .syncFwWait 0 0, .agreedStatus 0 0, .abortNotice 0 goodPkt goodExt [], .commitAck 0 goodPkt goodExt,
  .ckptShipped 0, .digestNotice 0 goodPkt goodExt [], .digestTimeout 0, .journalRoomResume 0,
  .strainRerunDone 0 1 (some goodFault) false, .strikeExpire, .fritTestStart 0 0, .fritTestDone 0 [⟨63, 3, some goodFault⟩], .fritLendExpire 0,
  .knownAnswerTest ⟨.gather, 0, 0⟩ [(3, 255)] [] 0 [], .selftestRolling goodReq, .selftestWholeModule goodReq]

def wellFormed2 : List Instr := [
  .unfence goodReq, .jacksReserveGrant 0, .pktWrite 0 goodPkt [], .pktWriteSignal 0 goodPkt [], .pktReadReq 0 goodPkt [],
  .pktReadResp 0 goodPkt [], .pktCollChunk 0 goodPkt goodExt [], .noticeStatus 0 goodPkt goodExt [],
  .noticeBarrierArrive 0 goodPkt goodExt [], .noticeResend 0 goodPkt goodExt [], .pktTack 0 goodPkt, .pktRefuse 0 goodPkt [],
  .retxTimerExpire 0, .destUnreachable 0 0 0, .flitReceive 0 levels, .flitReplayTimeout 0,
  .portFastRetrain 0, .portDown 0, .portTrained 0 4 0 0 ⟨0, [0, 0, 0]⟩, .portModeWrite goodReq, .groupDefinitionWrite 0 goodReq,
  .partitionModeWrite goodReq, .handleCountWrite 0 goodReq, .optSlotWrite 0 0 goodReq, .lrScheduleWrite 0 0 goodReq,
  .tableMapWrite 0 0 goodReq, .hbmInterleaveWrite goodReq, .plannerTick, .countersWarm 0, .tableCounterHalve 0,
  .migrationCopyDone 0 0 0, .scrubPatrol ⟨0, [(35, 15)], 2, [32]⟩, .recalibrationTrigger ⟨true, 0, 0⟩, .recalHold ⟨true, 0, 0⟩, .svcDrain goodReq,
  .svcReturn goodReq, .svcRecalibrate goodReq, .svcMargin goodReq, .channelDrained ⟨true, 0, 0⟩, .marginDone ⟨true, 0, 0⟩ [],
  .memcRecalReq 0 0 0, .benchDrain 0 0 0, .benchYield 0 0 0, .stationDrained ⟨.gather, 0, 0⟩, .stationGate ⟨.gather, 0, 0⟩,
  .stationWake ⟨.gather, 0, 0⟩, .stationRetain ⟨.gather, 0, 0⟩, .retainedAccess ⟨.gather, 0, 0⟩, .csrWrite 0 0 0,
  .counterReadClear 0 0, .gcntLoRead 0 false, .aliasSetClearToggle 0 0, .aliasBitWrite 0 0, .csrmapModeWrite 0 0 0,
  .parityScan 0 0 ⟨0, 1⟩, .cfgParityReload 0 0, .gcntParityInject 0 0, .eventPop 0 0, .aopmBlockReset 0, .aopmWarm 0, .dieHold 0,
  .oapRead goodReq 0 0, .oapWrite goodReq 0 0, .oapInfo goodReq 0 0, .oapStagingTimeout .host 0 0,
  .controlTokenWrite goodReq, .mgmtTakeover, .restoreDefaults goodReq, .logClear goodReq, .csrDataRead goodReq]

def wellFormed3 : List Instr := [
  .csrDataWrite goodReq, .sweepBegin, .addressOffer 0, .mgmtBeaconLost, .mgmtBeaconResumed, .mgmtChainInLost,
  .storeCopyWrite false, .poweredTimeRecord, .nvInhibitBegin, .nvInhibitEnd, .supplyGood bootObs, .supplyLow, .supplyWarnEnd,
  .brownOut, .auxLoss, .overvoltage, .overvoltageEnd, .modResetN, .resetCmdCold goodReq, .resetCmdWarm goodReq,
  .resetCmdDie goodReq, .powerLimitTick 0, .powerComparatorTrip, .powerComparatorRelease, .thermalSample 0 0,
  .thermalDieReset 0, .clockFault (.die 0), .deepCmd goodReq, .wake 0, .fwImageWrite 0 goodReq, .fwActivateMgmt goodReq,
  .fwActivateGaffer goodReq, .liveUpdateDieHeld 0, .fwConfirm goodReq, .keyRecordWrite goodReq, .waiverWrite goodReq,
  .quoteNonceWrite goodReq, .quoteRead goodReq, .hlFlitReceive (zeroBytes 256), .hlReplayTimeout, .hostLinkRetrained,
  .hostLinkDown, .hostLinkUp 0, .sqDoorbell 0 0, .cqDoorbell 0 0, .eventHeadDoorbell 0, .hlCtrlWrite 0, .ctrlWrite 0 0,
  .ringPairWrite 0 goodReq, .ringPairDrained 0, .commandComplete 0 0 .none 0, .recalibrationEnd ⟨true, 0, 0⟩ 0,
  .digestsComputed 0, .thermalResetEnd 0, .modResetNRelease, .mgmtChainInAsserted, .selftestComplete [], .mgmtFwRestarted,
  .quoteReady .host, .oapSnapshotExpire .host 0 0, .oapKeptResponseExpire .host 0, .mgmtFrameDiscarded]

/-- Each check refuses the term that breaks it. -/
theorem test_ill_formed_refused : (illFormed1 ++ illFormed2 ++ illFormed3 ++ illFormed4 ++ illFormed5 ++ illFormed6).all (fun i => !i.wf) = true := by
  decide +kernel
/-- One term of every row passes. -/
theorem test_well_formed_accepted : (wellFormed1 ++ wellFormed2 ++ wellFormed3).all Instr.wf = true := by
  decide +kernel

/-! ### Values that the manual gives -/

/-- R402: the check value over "123456789". -/
theorem test_crc32c_check_value : crc32c [0x31, 0x32, 0x33, 0x34, 0x35, 0x36, 0x37, 0x38, 0x39] = 0xE3069283#32 := by decide +kernel
/-- R86: mix32(0) is 0. -/
theorem test_mix32_zero : mix32 0 = 0 := by decide +kernel
/-- R231: with N = 10 and seed 0 row 3 goes to 1. -/
theorem test_row_perm : rowPerm 3 10 0 = 1 := by decide +kernel
/-- R250: the worked address in frame mode: channel 57, pseudo-channel 0, offset 145,509,632. -/
theorem test_hbm_frame_address : hbmDecode false 0x000456789A00 = (57, 0, 145509632) := by decide +kernel
/-- R46: what partition 3 owns in mode 4. -/
theorem test_partition_three : partRegion 4 3 .hbm = (0x004800000000, 0x001800000000)
    ∧ partRegion 4 3 .lp = (0x01A800000000, 0x003800000000) ∧ partRegion 4 3 .cru = (0x040018000000, 0x000008000000) := by decide +kernel
/-- R365, R366: the window of bench 1.17. -/
theorem test_bench_window : csrBase 1 (slotOf .bench 17) = 0x080004A20000 := by decide +kernel
/-- R63: the record of a Q4 tile of 128 × 256, without and with sixteen hot slices. -/
theorem test_record_length : tileBytes .q4 (geomOf (desc 1 .q4 128 256) ⟨0, 0, 0, 0⟩) 0 = 20512
    ∧ tileBytes .q4 (geomOf (desc 1 .q4 128 256) ⟨0, 0, 0, 0⟩) 16 = 20512 + 8448 := by decide +kernel
/-- R256, R257: data byte 0 = 0x01 has the check bytes 0x35 and 0x20, and error 0x3 in symbol 5 is found. -/
theorem test_code_example : (checkBits (1 :: zeroBytes 15)).toNat = 0x2035
    ∧ classify (syndrome (flipData (1 :: zeroBytes 15) 5 3) (checkBits (1 :: zeroBytes 15))) = .fix 5 3 := by decide +kernel
/-- R77: ties go to even, a NaN is made quiet. -/
theorem test_bf16 : toBf16 0x3F808000 = 0x3F80 ∧ toBf16 0x3F818000 = 0x3F82 ∧ toBf16 0x7FA00001 = 0x7FE0 := by decide +kernel
/-- R179: the worked stochastic store, and the draw just below the carry. -/
theorem test_stochastic_store : toBf16Sr 0x3F807000 0x90C0 = 0x3F81 ∧ toBf16Sr 0x3F807000 0x8FFF = 0x3F80 := by decide +kernel
/-- R118: the worked three-pass product. -/
theorem test_three_pass_product : cellProduct .w16 .w16 30000 (-20000) = -600010752 := by decide +kernel

/-- The lanes of an operand of the worked band, by reduction index. -/
def laneOf (base delta : Nat) (ls : List Lane) : BenchOperand := ⟨.q4, base, fun i _ => ls.getD i (.code 0 delta), fun _ _ => delta⟩
/-- R119 to R121, R147: the worked band promotes to −1.5, and with its Cullet term the column total is 0.375. -/
theorem test_worked_band :
    let a := laneOf 125 2 [.code 3 2, .code (-5) 2, .esc 0x3FA0, .code 7 2]
    let b := laneOf 130 4 [.code 5 4, .code 14 4, .code 3 4, .code 1 4]
    (bandPromoted a b 0 0 0 0).1 = 0xBFC00000 ∧ (columnTotal a b 0 0 0).1 = 0x3EC00000 := by decide +kernel

/-- A source row of one tile along dimension 0. -/
def rowOf (xs : List Word) : Src := ⟨⟨⟨xs.length, 1, 1, 1⟩, ⟨xs.length, 1, 1, 1⟩, ⟨0, 0, 0, 0⟩, 0⟩, fun i => xs.getD i.d0 0⟩
/-- R135: the worked winners; a signalling NaN wins and is made quiet. -/
theorem test_winners :
    let xs : List Word := [0x40400000, 0, 0x40F00000, 0x40F00000, 0x80000000]
    let r (x : Word) (mx : Bool) := reduceWinner mx (rowOf (xs ++ [x])) 0 ⟨0, 0, 0, 0⟩
    r 0x3F800000 true = (2, 0x40F00000) ∧ r 0x3F800000 false = (4, 0x80000000)
    ∧ r 0x7FA00000 true = (5, 0x7FE00000) ∧ r 0x7FA00000 false = (5, 0x7FE00000) := by decide +kernel
/-- R140: the worked row; r is 1/√12.5 rounded to FP32, 0x3E90D0C3. -/
theorem test_rms_norm :
    let y (i : Nat) := normElement false 0 (rowOf [0x40400000, 0xC0800000]) (fun k => if k = 0 then 0x3F800000 else 0x3F000000) 0 ⟨i, 0, 0, 0⟩
    y 0 = 0x3F593924 ∧ y 1 = 0xBF10D0C3 := by decide +kernel

/-- One block of a Q4 or Q8 tile encoded with a base, a delta and a Z: its code bytes, its header, its side list. -/
def oneBlock (f : Fmt) (base delta : Nat) (z : Int) (xs : List Word) : Bytes × Nat × List Nat × Nat :=
  let g := geomOf (desc 1 f 32 1) ⟨0, 0, 0, 0⟩
  let e := encodeTile f g 0 ⟨base, fun _ => delta, fun _ => z⟩ [] false fun i => xs.getD i.d0 0
  (subBytes e.1 16 f.codeBytes, recBlkWord f g e.1 0, segEntries f g e.1 0, e.2.sat)
/-- R66, R67: the worked Q4 block, its escape entered for block 0. -/
theorem test_q4_block : oneBlock .q4 125 0 7 [0x3F000000, 0xBFE00000, 0x3EC00000, 0x3E000000, 0x40A00000, 0x3FD00000] =
    ([0x09, 0x79, 0xDF] ++ List.replicate 13 0x77, 0x0E80, [4 * 65536 + 0x40A0], 0) := by decide +kernel
/-- R66 to R68: the worked Q8 block, with a NaN, an infinity and a saturation. -/
theorem test_q8_block : oneBlock .q8 130 3 0 [0x42C8CCCD, 0xC3020000, 0x7FA00001, 0x7F800000, 0xC0600000, 0x43480000] =
    ([0x64, 0x80, 0x80, 0x80, 0xFC, 0x7F] ++ zeroBytes 26, 0x7800, [0x0001C302, 0x00027FE0, 0x00037F80], 1) := by decide +kernel
/-- R66: the worked Q4 block with Z 0. -/
theorem test_q4_zero_point : oneBlock .q4 127 1 0 [0, 0x3F000000, 0x40400000, 0x40D80000, 0x40DCCCCD, 0x3FA00000] =
    ([0x10, 0xE6, 0x2E] ++ zeroBytes 13, 0x2000, [], 0) := by decide +kernel

/-! ### Single steps -/

/-- What a command answers, read through a function of the machine. -/
def after {α : Type} (c : Instr) (m : Mach) (f : Mach → α) : Option α :=
  match exec c (st m) with
  | .next t => some (f t.m)
  | _ => none
/-- R280, R282: two signals make 2, and a wait for 2 then consumes them. -/
theorem test_signal_then_wait :
    after (.signal hdr 0x40) ((upM.putReg .sync 0 0 0 1).setCtr 0 0x40 1) (fun m => m.ctrVal 0 0x40) = some 2
    ∧ after (.wait hdr 0x40 2 1000) ((upM.putReg .sync 0 0 0 1).setCtr 0 0x40 2) (fun m => (m.ctrVal 0 0x40, m.link.cmds.length)) =
      some (0, 0) := by decide +kernel
/-- R458: a NOP's completion has the tag, status 0 and phase 1, and lies in the first slot of the completion ring. -/
theorem test_nop_completes : after (.nop hdr) upM (fun m => m.out.getLast?) =
    some (some (.hostWrite 0 ([7, 0, 0, 0, 1, 0, 1, 0] ++ zeroBytes 8))) := by decide +kernel
/-- R226: a COPY issues, and OP_COMPLETE puts the source's bytes into the destination. -/
theorem test_copy :
    let o := mkOp .copy [1, 2] 0
    let m : Mach := { opM .gather .general .general o [tens 1 .u32 4 1, tens 2 .u32 4 1] with mem := [(65541, 0x7B)] }
    (match exec (.copy 0 0) (st m) with
      | .next t => after (.opComplete 0 0) t.m fun m => (memByte m.mem 131077, memByte m.mem 131076)
      | _ => none) = some (0x7B, 0) := by decide +kernel
/-- R369: a write of a locked register is counted and changes nothing. -/
theorem test_locked_write : after (.csrWrite (regAddr .gather 0 0 8) 4 1) (upM.putReg .gather 0 0 0 1)
    (fun m => (m.reg .gather 0 0 8, m.reg .gcnt 0 0 0x10, m.bit .gather 0 0 4 2)) = some (0, 1, true) := by decide +kernel
/-- R381: EVENT_POP takes the oldest entry off the queue. -/
theorem test_event_pop : after (.eventPop 0 3) (upM.updDie 0 fun x => { x with evq := [⟨0x10, 4, 9, 0⟩, ⟨0x11, 4, 9, 0⟩] })
    (fun m => (m.die 0).evq.map (·.code)) = some [0x11] := by decide +kernel
/-- R408, R420: a brown-out brings the module down and leaves cause 2. -/
theorem test_brown_out : after .brownOut upM (fun m => ((m.die 0).up, m.reg .aopm 0 0 4 % 16, m.reg .aopm 0 0 0x14)) = some (false, 2, 1) := by
  decide +kernel

/-! ### Hypotheses that rest on a signature -/

/-- An image that the checks accept where the signature does. -/
def image : Bytes := overlay (overlay (zeroBytes 4096) 0 (toLe 4 0x464D5754 ++ [0, 1])) 48 (hash32 [])
/-- The image, key and waiver writes and the start of a slot rest on the opaque verification (log entry 5): where it accepts, these
pass every other check. -/
theorem witness_signed (h : ∀ k m s, Config.mldsaVerify k m s = true) :
    State.reset.v.flash.imageOk 0 image = true
    ∧ State.reset.v.flash.keyOk (fitBytes 8192 (toLe 4 keyMagic ++ toLe 2 State.reset.v.flash.chain.length)) = true
    ∧ State.reset.v.flash.waiverOk (fitBytes 3405 (toLe 4 0x57565253 ++ toLe 2 (State.reset.v.flash.chain.length - 1))) = true := by
  refine ⟨?_, ?_, ?_⟩
  · simp only [Flash.imageOk, h, Bool.and_true]
    decide +kernel
  · simp only [Flash.keyOk, h, Bool.and_true]
    decide +kernel
  · simp only [Flash.waiverOk, h, Bool.and_true]
    decide +kernel

/-! ### Witnesses: for each statement, states and operands that meet the hypotheses of its clauses, at the ends of their ranges -/

theorem witness_IdleStepLetsTimePass : List.all (
     [
      ((st upM).pending = [] ∧ (st upM).m.power.deepSteps ≠ 1 ∧ (st upM).m.power.deepSteps ≠ 3)] : List Bool) id = true := by
  decide +kernel

theorem witness_HandleCommandsDoTheirWork : List.all (
     let busy := runM .general .general [mkOp .copy [1, 2] 0] [tens 1 .fp32 32 32, tens 2 .fp32 32 32]
     let ws := ((desc 1 .fp32 32 32).toWords).take 6
     [
      upM.takes hdr 0x10 none && !(upM.fetched hdr 0x10).handleOk 0 0,
      upM.takes hdr 0x10 none && (upM.fetched hdr 0x10).handleOk 0 1 && !(upM.fetched hdr 0x10).handleBusy 0 1
        && !(descOk 1 [] && descMoreOk (HDesc.ofWords [])),
      (upM.fetched hdr 0x10).handleOk 0 1 && !(upM.fetched hdr 0x10).handleBusy 0 1 && descOk 1 ws && descMoreOk (HDesc.ofWords ws),
      busy.takes hdr 0x10 none && (busy.fetched hdr 0x10).handleOk 0 1 && (busy.fetched hdr 0x10).handleBusy 0 1,
      upM.takes hdr 0x11 none && !(upM.fetched hdr 0x11).handleOk 0 65536 && (upM.fetched hdr 0x11).handleOk 0 65535,
      upM.takes hdr 0x12 none && !(upM.fetched hdr 0x12).handleOk 0 0 && (upM.fetched hdr 0x12).handleOk 0 1
        && !(upM.fetched hdr 0x12).handleBusy 0 1,
      busy.takes hdr 0x12 none && (busy.fetched hdr 0x12).handleBusy 0 2] : List Bool) id = true := by
  decide +kernel

theorem witness_ProgramsAndGroupsComplete : List.all (
     let pm : Mach := { upM with progs := [prog 3 .general [mkOp .opEnd [0] 0], { prog 4 .general [] with part := 1 }] }
     let pg : Mach := { pm with groups := [group .general] }
     let pb : Mach := { pg with ctxs := updAt upM.ctxs 2 fun _ => { st := .bound, group := 1, prog := 3 } }
     let full : Mach := { pg with ctxs := List.replicate 32 { st := .bound, group := 2, prog := 3 } }
     [
      upM.takes hdr 0x20 none,
      pm.takes hdr 0x21 none && ((pm.fetched hdr 0x21).progs.find? fun q => q.num == 9) == none,
      ((pm.fetched hdr 0x21).progs.find? fun q => q.num == 4) == some { prog 4 .general [] with part := 1 },
      ((pm.fetched hdr 0x21).progs.find? fun q => q.num == 3) == some (prog 3 .general [mkOp .opEnd [0] 0])
        && !(pm.fetched hdr 0x21).ctxs.any fun c => c.st != .free && c.part == 0 && c.prog == 3,
      pb.takes hdr 0x21 none && (pb.fetched hdr 0x21).ctxs.any fun c => c.st != .free && c.part == 0 && c.prog == 3,
      upM.takes hdr 0x22 (some 65535) && (upM.fetched hdr 0x22).group? 0 65535 == none && groupKindOf 2 == some .general,
      pg.takes hdr 0x22 (some 1) && ((pg.fetched hdr 0x22).group? 0 1).isSome,
      pg.takes hdr 0x23 (some 1) && (pg.fetched hdr 0x23).bindable 0 1 != []
        && (((pg.fetched hdr 0x23).ctxsOf 0 1).all fun c => ((pg.fetched hdr 0x23).ctx c).st == .bound),
      full.takes hdr 0x23 (some 1) && ((full.fetched hdr 0x23).group? 0 1).isSome && (full.fetched hdr 0x23).bindable 0 1 == []
        && (((full.fetched hdr 0x23).ctxsOf 0 1).all fun c => ((full.fetched hdr 0x23).ctx c).st == .bound)] : List Bool) id = true := by
  decide +kernel

theorem witness_StreamCommandsComplete : List.all (
     let bd : Mach := { upM with progs := [prog 1 .inference [mkOp .opEnd [0] 0]], groups := [{ group .inference with started := false }], ctxs := updAt upM.ctxs 0 fun _ => { runCtx with st := .bound } }
     let x := { group .inference with started := false }
     let test : Mach := bd.dset 0x7010 6 2
     let tr : Mach := trainM .bound
     let xt := { group .training with started := false }
     let big : Mach := { tr with tensors := tr.tensors ++ [{ tens 9 .q4 32 32 with runs := [⟨0, 1, 1, 412316794880⟩] }] }
     let paused : Mach := { bd with ctxs := updAt bd.ctxs 0 fun _ => { runCtx with st := .paused } }
     let pausedT : Mach := { paused with groups := [xt] }
     let bigT : Mach := { big with ctxs := updAt big.ctxs 0 fun _ => { runCtx with st := .paused } }
     let done : Mach := { bd with ctxs := updAt bd.ctxs 0 fun _ => { runCtx with st := .done } }
     let doneT : Mach := { tr with ctxs := tr.ctxs.map fun x => if x.st = .bound then { x with st := .done } else x }
     let doneP : Mach := { tr with ctxs := updAt tr.ctxs 0 fun x => { x with st := .done } }
     let two : Mach := { upM with groups := [group .general, { group .training with num := 2 }] }
     [
      upM.takes hdr 0x24 (some 1) && !(upM.fetched hdr 0x24).startOk 0 1,
      bd.takes hdr 0x24 (some 1) && (bd.fetched hdr 0x24).startOk 0 1 && (bd.fetched hdr 0x24).group? 0 1 == some x && x.kind != .training
        && ((bd.fetched hdr 0x24).startRoom 0 x).dnum 0x7010 6 != 2,
      (test.fetched hdr 0x24).startOk 0 1 && (test.fetched hdr 0x24).group? 0 1 == some x
        && ((test.fetched hdr 0x24).startRoom 0 x).dnum 0x7010 6 == 2,
      tr.takes hdr 0x24 (some 1) && (tr.fetched hdr 0x24).startOk 0 1 && (tr.fetched hdr 0x24).group? 0 1 == some xt
        && ((tr.fetched hdr 0x24).startRoom 0 xt).reserveFits 0 && ((tr.fetched hdr 0x24).startRoom 0 xt).journalFits 0 1
        && ((tr.fetched hdr 0x24).startRoom 0 xt).dnum 0x7010 6 != 2,
      big.takes hdr 0x24 (some 1) && (big.fetched hdr 0x24).startOk 0 1 && (big.fetched hdr 0x24).group? 0 1 == some xt
        && !((big.fetched hdr 0x24).startRoom 0 xt).reserveFits 0,
      bd.takes hdr 0x26 (some 1) && (bd.fetched hdr 0x26).group? 0 1 == some x && x.pausedBy != 16
        && !((bd.fetched hdr 0x26).ctxsOf 0 1).any (fun c => ((bd.fetched hdr 0x26).ctx c).faulty)
        && ((bd.fetched hdr 0x26).ctxsOf 0 1).all fun c => ((bd.fetched hdr 0x26).ctx c).st != .paused,
      paused.takes hdr 0x26 (some 1) && !(((paused.fetched hdr 0x26).ctxsOf 0 1).all fun c => ((paused.fetched hdr 0x26).ctx c).st != .paused)
        && (paused.fetched hdr 0x26).dnum 0x7010 6 != 2 && !(paused.fetched hdr 0x26).updHeld 0 1,
      ({ paused with liveDie := some 0 } : Mach).takes hdr 0x26 (some 1) && (({ paused with liveDie := some 0 } : Mach).fetched hdr 0x26).updHeld 0 1,
      (pausedT.fetched hdr 0x26).group? 0 1 == some xt && (pausedT.fetched hdr 0x26).reserveFits 0,
      bigT.takes hdr 0x26 (some 1) && (bigT.fetched hdr 0x26).group? 0 1 == some xt && !(bigT.fetched hdr 0x26).reserveFits 0
        && !(((bigT.fetched hdr 0x26).ctxsOf 0 1).all fun c => ((bigT.fetched hdr 0x26).ctx c).st != .paused),
      upM.takes hdr 0x25 (some 1) && (upM.fetched hdr 0x25).group? 0 1 == none,
      bd.takes hdr 0x25 (some 1) && ((bd.fetched hdr 0x25).group? 0 1).isSome,
      upM.takes hdr 0x27 (some 1) && (upM.fetched hdr 0x27).group? 0 1 == none,
      bd.takes hdr 0x27 (some 1) && ((bd.fetched hdr 0x27).group? 0 1).isSome,
      bd.takes hdr 0x28 (some 1) && (bd.fetched hdr 0x28).ctx 0 == { runCtx with st := .bound } && ctxOwned (bd.fetched hdr 0x28).mode 0 0,
      done.takes hdr 0x28 (some 1) && ((done.fetched hdr 0x28).ctx 0).st == .done,
      doneT.takes hdr 0x28 (some 1) && ((doneT.fetched hdr 0x28).ctx 0).st == .done && (doneT.group? 0 1).any (fun g => g.kind == .training)
        && !((doneT.fetched hdr 0x28).ctxsOf 0 1).any fun k => ((doneT.fetched hdr 0x28).ctx k).st != .done,
      doneP.takes hdr 0x28 (some 1) && ((doneP.fetched hdr 0x28).ctx 0).st == .done
        && ((doneP.fetched hdr 0x28).ctxsOf 0 1).any fun k => ((doneP.fetched hdr 0x28).ctx k).st != .done,
      upM.takes hdr 0x29 (some 1) && ((upM.fetched hdr 0x29).group? 0 1).isNone,
      two.takes hdr 0x29 (some 1) && ((two.fetched hdr 0x29).group? 0 1).isSome && (two.fetched hdr 0x29).ctxsOf 0 1 == []
        && (((two.fetched hdr 0x29).groups.filter fun y => !(y.part == 0 && y.num == 1)).any fun y => y.part == 0 && y.kind == .training),
      two.takes hdr 0x29 (some 2) && ((two.fetched hdr 0x29).group? 0 2).isSome && (two.fetched hdr 0x29).ctxsOf 0 2 == []
        && !(((two.fetched hdr 0x29).groups.filter fun y => !(y.part == 0 && y.num == 2)).any fun y => y.part == 0 && y.kind == .training)] : List Bool) id = true := by
  decide +kernel

theorem witness_TransfersSignalsAndTimeComplete : List.all (
     let b : Mach := { bounded upM with tensors := [tens 1 .fp32 32 32] }
     let x : HostedSlot := ⟨5, 1, 2, [(0x100000, 4096)], 4096, 0⟩
     let hs : Mach := { upM with hosted := [x] }
     let writing : Mach := { hs with mem := [(0x100001, 1)] }
     let bd : Mach := { upM with groups := [group .general] }
     let run : Mach := { bd with ctxs := updAt upM.ctxs 0 fun _ => runCtx }
     let w : Mach := { upM with link := { upM.link with cmds := [{ ring := 0, tag := 9, kind := 0x33, part := 0, signal := none }] } }
     let isOk (r : Except (Nat × Nat × Mach) (Option (Nat × Nat))) : Bool := match r with | .ok _ => true | .error _ => false
     [
      upM.takes hdr 0x2A none && (upM.fetched hdr 0x2A).hostedSlot 5 1 2 (some 0) == none,
      hs.takes hdr 0x2A none && (hs.fetched hdr 0x2A).hostedSlot 5 1 2 (some 0) == some x && !(hs.fetched hdr 0x2A).slotWriting x,
      writing.takes hdr 0x2A none && (writing.fetched hdr 0x2A).hostedSlot 5 1 2 (some 0) == some x
        && (writing.fetched hdr 0x2A).slotWriting x,
      upM.takes hdr 0x2B (some 1),
      !(upM.fetched hdr 0x2B).restoreReady 0 1 && !(run.fetched hdr 0x2B).restoreReady 0 1 && run.takes hdr 0x2B (some 1),
      bd.takes hdr 0x2B (some 1) && (bd.fetched hdr 0x2B).restoreReady 0 1,
      upM.takes hdr 0x02 none,
      b.takes hdr 0x30 none && isOk ((b.fetched hdr 0x30).dmaRange 0 (ref 1) 0 0 4096)
        && isOk ((b.fetched hdr 0x30).dmaRange 0 (ref 1) 0 4096 0) && isOk ((b.fetched hdr 0x30).dmaRange 0 (ref 1) 1 0x100000 64),
      !isOk ((b.fetched hdr 0x30).dmaRange 0 (ref 1) 0 16 4096) && !isOk ((b.fetched hdr 0x30).dmaRange 0 (ref 2) 0 0 64)
        && !isOk ((b.fetched hdr 0x30).dmaRange 0 (ref 1) 2 0 64),
      b.takes hdr 0x31 none && isOk ((b.fetched hdr 0x31).dmaRange 0 (ref 1) 0 0 4096)
        && !isOk ((b.fetched hdr 0x31).dmaRange 0 (ref 1) 0 16 4096),
      upM.takes hdr 0x32 none && extCtr (upM.fetched hdr 0x32).mode 0 0x2000 == none
        && extCtr (upM.fetched hdr 0x32).mode 0 0x1FFF == some (1, 4095),
      upM.takes hdr 0x33 none && extCtr (upM.fetched hdr 0x33).mode 0 0x2000 == none
        && extCtr (upM.fetched hdr 0x33).mode 0 0 == some (0, 0),
      (w.hostCmd? 0 9).any fun c => c.kind == 0x33,
      upM.takes hdr 0x34 none] : List Bool) id = true := by
  decide +kernel

theorem witness_CommandCompleteEndsWork : List.all (
     let slot0 : HostedSlot := ⟨5, 1, 2, [(0x100000, 4096)], 4096, 0⟩
     let cmd (k : Nat) (f : HostCmd → HostCmd) : Mach := { serving (bounded upM) with
       groups := [group .general], tensors := [tens 1 .fp32 32 32], hosted := [slot0]
       link := { upM.link with cmds := [f { ring := 0, tag := 7, kind := k, part := 0, signal := none }] } }
     let raw (n : Nat) (c : HostCmd) : HostCmd := { c with off := 0x100000, len := n, data := List.replicate n 3 }
     let isOk (r : Except (Nat × Nat × Mach) (Option (Nat × Nat))) : Bool := match r with | .ok _ => true | .error _ => false
     let dmaOk (k n : Nat) : Bool := ((cmd k (raw n)).hostCmd? 0 7).any fun c => c.kind == k && c.len == n
       && isOk ((cmd k (raw n)).dmaRange c.part (c.tile.getD ⟨0, 0, 0, 0, 0⟩) (if c.tile.isSome then 0 else 1) c.off c.len)
     let image := bytesOf ([1 + 4 * 2 ^ 8 + 1 * 2 ^ 32, 0, 64, 0] ++ (mkOp .opEnd [1] 0).toWords)
     let load (bs : Bytes) : LoadOut := (cmd 0x20 id).loadCheck 0 64 bs
     let slot := overlay (overlay (overlay (overlay (List.replicate 4096 0) 0 [1, 3]) 7 [1]) 32 (toLe 8 4096)) 64 (shake256 [] 32)
     let restore (bs : Bytes) (m : Mach) : Bool := (m.hostCmd? 0 7).any fun c => c.kind == 0x2B && c.data == bs
       && m.restoreReady c.part (c.extra.getD 0 0) && c.extra.getD 1 0 == 0
     let given (bs : Bytes) (c : HostCmd) : HostCmd := { c with extra := [1, 0, 0, 0, 0], data := bs }
     [
      dmaOk 0x30 0 && dmaOk 0x31 0 && !(cmd 0x30 (raw 0)).link.retraining,
      (let x := cmd 0x30 (raw 0); let y : Mach := { x with link := { x.link with retraining := true } }
       y.link.retraining && (y.hostCmd? 0 7).isSome && isOk (y.dmaRange 0 ⟨0, 0, 0, 0, 0⟩ 1 0x100000 0)),
      dmaOk 0x30 64 && (cmd 0x30 (raw 64)).served 0 0x100000 64 && !(bounded upM).served 0 0x100000 64,
      dmaOk 0x31 64 && (cmd 0x31 (raw 64)).served 0 0x100000 64 && ((cmd 0x31 (raw 64)).dmaFetch 0 (raw 64 { ring := 0, tag := 7, kind := 0x31, part := 0, signal := none }) 64).2.2 == none,
      (match load [] with | .bad .. => true | _ => false),
      (match load image with | .ok .. => true | _ => false),
      (cmd 0x2A fun c => { c with extra := [5, 1, 2], len := 64 }).hostedSlot 5 1 2 (some 0) == some slot0
        && !(cmd 0x2A id).slotWriting slot0 && ((cmd 0x2A id).collect 2 (areaPart slot0.places 0 64)).2.2 == none,
      (({ cmd 0x2A id with chk := [(0x100020, poisonMask)] } : Mach).collect 2 (areaPart slot0.places 0 64)).2.2 == some 32,
      ({ cmd 0x2A id with mem := [(0x100001, 1)] } : Mach).slotWriting slot0,
      restore [] (cmd 0x2B (given [])) && !(cmd 0x2B (given [])).slotOk 0 [],
      restore slot (cmd 0x2B (given slot)) && (cmd 0x2B (given slot)).slotOk 0 slot && leAt slot 24 4 == (cmd 0x2B (given slot)).level,
      leAt slot 24 4 != ({ cmd 0x2B (given slot) with level := 1 } : Mach).level && ({ cmd 0x2B (given slot) with level := 1 } : Mach).slotOk 0 slot
        && restore slot { cmd 0x2B (given slot) with level := 1 }] : List Bool) id = true := by
  decide +kernel

theorem witness_DetachAndOapComplete : List.all (
     let h1 := { hdr with ring := 15 }
     let m1 : Mach := { upM with link := { upM.link with rings := [(0, { sqTail := 1 }), (15, { sqTail := 1 })] }
                                 dict := [(dictKey 0x912F 1, List.replicate 16 0 ++ [8, 8, 0, 1] ++ List.replicate 20 0)] }
     [
      upM.takes hdr 0x3F none && hdr.ring == 0,
      m1.takes h1 0x3F none && h1.ring != 0,
      (upM.fetched hdr 0x01).hostGate hdr true == none && !(upM.fetched hdr 0x01).mgmt.restarting,
      ({ upM with mgmt := { restarting := true } } : Mach).fetchable hdr none
        && (({ upM with mgmt := { restarting := true } } : Mach).fetched hdr 0x01).hostGate hdr true == none] : List Bool) id = true := by
  decide +kernel

theorem witness_GatherOperationsIssue_COPY : List.all (
     let o := mkOp .copy [1, 2] 0
     let m : Mach := opM .gather .general .general o [tens 1 .fp32 32 1, tens 2 .fp32 32 1]
     let wide : Tensor := { tens 1 .q4 32 1 with marks := [(0, { form := some .w16 })] }
     let t : Mach := opM .gather .training .forward o [wide, tens 2 .q4 32 1]
     let far : Mach := serving (enabled (runM .general .general [o, mkOp .opEnd [1] 0] [tens 1 .fp32 32 1, tens 2 .fp32 32 1]) (instOf .gather 0))
     let x (m : Mach) : Mach × List Bytes × Option FaultInfo :=
       ((m.noted 0 0 .gather o).gatherReads (instOf .gather 0) 0 [(1, 0)]).fetchTiles 0 [(1, 0)]
     [
      m.issuesOn 0 0 .copy .gather o && (m.noted 0 0 .gather o).refAt 0 (o.ref 0) == (1, 0),
      (x m).2.2.isNone && ((x m).1.shapeTile 0 1 2 0 .fp32).isSome,
      (bad m 1).issuesOn 0 0 .copy .gather o && (x (bad m 1)).2.2.any (fun e => e.code == fcPoison) && ((x (bad m 1)).1.shapeTile 0 1 2 0 .fp32).isSome,
      far.issuesOn 0 0 .copy .gather o && (x far).2.2.any (fun e => e.code != fcPoison) && ((x far).1.shapeTile 0 1 2 0 .fp32).isSome,
      t.issuesOn 0 0 .copy .gather o && (x t).2.2.isNone && wide.form 0 == .w16 && ((x t).1.shapeTile 0 1 2 0 .w16).isNone] : List Bool) id = true := by
  decide +kernel

theorem witness_GatherOperationsIssue_bags : List.all (
     let ts := [table, u32t 2 4, u32t 3 2, tens 4 .fp32 32 1, u32t 5 1]
     let op (k : OpKind) : Op := mkOp k (if k = .bagMax then [1, 2, 3, 4, 5] else [1, 2, 3, 4]) 0
     let m (k : OpKind) (row : Byte) : Mach := { opM .gather .general .general (op k) ts with mem := [(131072, row + 1), (196612, 1)] }
     let m1 (k : OpKind) (row : Byte) (b : Nat) : Mach := let m : Mach := m k row; if b = 0 then m else bad m b
     let clause (k : OpKind) (row : Byte) (b : Nat) : Bool × Bool × Bool :=
       let o := op k
       let m0 := (m1 k row b).noted 0 0 .gather o
       let ins := [m0.refAt 0 (o.ref 1), m0.refAt 0 (o.ref 2)]
       let x := (m0.gatherReads (instOf .gather 0) 0 ins).fetchTiles 0 ins
       let y := x.1.readBags 0 o 0 (instOf .gather 0) (x.2.1.getD 0 []) (x.2.1.getD 1 [])
       let ps := y.2.positions
       let z := (y.1.checkRows (instOf .gather 0) 0 1 (ps.map fun q => y.2.idx.getD q 0)).readRows (instOf .gather 0) 0 1
         (ps.map fun q => (q, y.2.idx.getD q 0))
       (x.2.2.isSome, y.2.idx.any (fun q => !padIndex y.2.fmt q && 4 ≤ q), z.2.2.isSome)
     let kinds : List OpKind := [.bagSum, .bagMean, .bagMax]
     let two : List OpKind := [.bagMean, .bagMax]
     [
      kinds.all fun k => (m k 0).issuesOn 0 0 k .gather (op k) && (m k 9).issuesOn 0 0 k .gather (op k)
        && (m1 k 0 2).issuesOn 0 0 k .gather (op k) && (m1 k 0 1).issuesOn 0 0 k .gather (op k),
      kinds.all fun k => ((m k 0).noted 0 0 .gather (op k)).shardRec 0 (op k) == none,
      two.all fun k => clause k 0 0 == (false, false, false) && clause k 2 0 == (false, false, false),
      two.all fun k => clause k 3 0 == (false, true, false) || clause k 3 0 == (false, true, true),
      two.all fun k => (clause k 0 2).1,
      two.all fun k => clause k 0 1 == (false, false, true),
      kinds.all fun k =>
        let s : Mach := (m k 0).dictPut 0x2040 1 (toLe 4 1 ++ toLe 4 4 ++ List.replicate 32 0)
        s.issuesOn 0 0 k .gather (op k) && ((s.noted 0 0 .gather (op k)).shardRec 0 (op k)).isSome] : List Bool) id = true := by
  decide +kernel

theorem witness_GatherOperationsIssue_GRAD_MERGE : List.all (
     let o := mkOp .gradMerge [1, 2, 3, 4] 0
     let ts := [tens 1 .fp32 32 4, u32t 2 4, tens 3 .fp32 32 4, u32t 4 4]
     let m : Mach := opM .gather .general .general o ts
     let s : Mach := m.dictPut 0x2040 1 (toLe 4 5 ++ toLe 4 4 ++ List.replicate 32 0)
     let x (m : Mach) : Mach × List Bytes × Option FaultInfo :=
       ((m.noted 0 0 .gather o).gatherReads (instOf .gather 0) 0 [(1, 0), (2, 0)]).fetchTiles 0 [(1, 0), (2, 0)]
     [
      m.issuesOn 0 0 .gradMerge .gather o && (m.noted 0 0 .gather o).shardRec 0 o == none && (x m).2.2.isNone,
      (bad m 2).issuesOn 0 0 .gradMerge .gather o && (x (bad m 2)).2.2.isSome,
      s.issuesOn 0 0 .gradMerge .gather o && ((s.noted 0 0 .gather o).shardRec 0 o).isSome] : List Bool) id = true := by
  decide +kernel

theorem witness_MarverOperationsIssue : List.all (
     let op (k : OpKind) : Op := mkOp k (if k = .measure then [1] else [1, 2]) 0
     let f (k : OpKind) : Fmt := if k = .dequant then .q4 else .fp32
     let g (k : OpKind) : Fmt := if k = .dequant then .fp32 else .q4
     let m (k : OpKind) : Mach := opM .marver .general .general (op k) [tens 1 (f k) 32 1, tens 2 (g k) 32 1]
     let rec' (k : GroupKind) (form : Option Fmt) : Bool :=
       let o := op .quant
       let m : Mach := opM .marver k .forward o [tens 1 .fp32 32 1, { tens 2 .q4 32 1 with desc := { desc 2 .q4 32 1 with layer := 0, cls := 1 } }]
       let m : Mach := match form with
         | none => m
         | some _ => m.updGroup 0 1 fun x => { x with ladder := [(0, { level := 3 })], floor := 3 }
       let x := (m.noted 0 0 .marver o).fetchTiles 0 [(1, 0)]
       m.issuesOn 0 0 .quant .marver o && x.2.2.isNone
         && (x.1.encodeInto (some (instOf .marver 0)) marverRegs 0 1 2 0 .step ((tens 1 .fp32 32 1).values 0 (x.2.1.headD []))).2.isNone
           == form.isSome
     let kinds : List OpKind := [.quant, .measure, .dequant]
     [
      kinds.all fun k => (m k).issuesOn 0 0 k .marver (op k) && (((m k).noted 0 0 .marver (op k)).fetchTiles 0 [(1, 0)]).2.2.isNone
        && ((m k).noted 0 0 .marver (op k)).refAt 0 ((op k).ref 0) == (1, 0),
      kinds.all fun k => (bad (m k) 1).issuesOn 0 0 k .marver (op k)
        && (((bad (m k) 1).noted 0 0 .marver (op k)).fetchTiles 0 [(1, 0)]).2.2.isSome,
      kinds.all fun k => ((((m k).noted 0 0 .marver (op k)).fetchTiles 0 [(1, 0)]).1.tensor? 0 1).isSome
        && ((((m k).noted 0 0 .marver (op k)).fetchTiles 0 [(1, 0)]).1.tensor? 0 2).isSome,
      rec' .general none,
      rec' .training (some .w16)] : List Bool) id = true := by
  decide +kernel

theorem witness_GemmIssues : List.all (
     let o := mkOp .gemm [1, 2, 3] 1
     let m : Mach := opM .bench .general .general o [tens 1 .q4 32 1, tens 2 .q4 32 1, tens 3 .fp32 32 1]
     let w : Mach := { m with tensors := [tens 1 .w16 32 1, tens 2 .q4 32 1, tens 3 .fp32 32 1] }.putReg .bench 0 0 0x0C 1
     let x (m : Mach) : Mach × List Bytes × Option FaultInfo := (m.noted 0 0 .bench o).fetchTiles 0 ((m.noted 0 0 .bench o).gemmIns o 0)
     let able (m : Mach) : Bool := ((x m).1.gemmRun o 0 (x m).2.1).any fun r => (x m).1.benchTakes 0 0 0 r.k r
     [
      m.issuesOn 0 0 .gemm .bench o && (x m).2.2.isNone && able m && ((x m).1.tensor? 0 ((m.noted 0 0 .bench o).refAt 0 (o.ref 2)).1).isSome,
      w.issuesOn 0 0 .gemm .bench o && (x w).2.2.isNone && ((x w).1.gemmRun o 0 (x w).2.1).isSome && !able w,
      (bad m 2).issuesOn 0 0 .gemm .bench o && (x (bad m 2)).2.2.isSome,
      ((x m).1.gemmRun o 0 (x m).2.1).any fun r => goodFault.red < r.k && goodFault.row < r.rows] : List Bool) id = true := by
  decide +kernel

theorem witness_JacksOperationsIssue : List.all (
     let op (k : OpKind) : Op := mkOp k (match k with | .norm | .reduceMax | .reduceMin => [1, 2, 3] | _ => [1, 2]) 0
     let m (k : OpKind) : Mach := opM .jacks .general .general (op k) [tens 1 .fp32 4 1, tens 2 .fp32 4 1, u32t 3 4]
     let kinds : List OpKind := [.elementwise, .norm, .softmax, .reduceSum, .reduceMax, .reduceMin]
     let x (m : Mach) (k : OpKind) : Mach × List Bytes × Option FaultInfo :=
       (m.noted 0 0 .jacks (op k)).fetchTiles 0 (if k = .norm then [(1, 0), (2, 0)] else [(1, 0)])
     [
      kinds.all fun k => (m k).issuesOn 0 0 k .jacks (op k) && (x (m k) k).2.2.isNone
        && ([1, 2, 3].all fun h => ((x (m k) k).1.tensor? 0 h).isSome),
      kinds.all fun k => (bad (m k) 1).issuesOn 0 0 k .jacks (op k) && (x (bad (m k) 1) k).2.2.isSome] : List Bool) id = true := by
  decide +kernel

theorem witness_LehrOperationsIssue_UPDATE : List.all (
     let o := mkOp .update [1, 2, 5] 0
     let ts := [tens 1 .fp32 32 1, tens 2 .fp32 32 1, tens 3 .fp32 32 1, tens 4 .fp32 32 1, tens 5 .q4 32 1]
     let opt : Bytes := [1] ++ List.replicate 63 0
     let base (ts : List Tensor) : Mach := (opM .lehr .training .update o ts).dictPut 0x4130 1 opt
     let m : Mach := (base ts).updGroup 0 1 fun g => { g with journalArea := [(0x010000000000, 65536)] }
     let full : Mach := (base ts).updGroup 0 1 fun g => { g with awaiting := some 8 }
     let x (m : Mach) : Mach × List Bytes × Option FaultInfo := (m.noted 0 0 .lehr o).fetchTiles 0 ((m.noted 0 0 .lehr o).updateIns o 0)
     let r (m : Mach) : LehrOut := ((x m).1.updateWith 0 o 0 (instOf .lehr 0) (x m).2.1).2
     [
      m.issuesOn 0 0 .update .lehr o && (x m).2.2.isNone,
      (match r m with | .done _ => true | _ => false),
      (bad m 2).issuesOn 0 0 .update .lehr o && (x (bad m 2)).2.2.isSome,
      (base ts).issuesOn 0 0 .update .lehr o && (x (base ts)).2.2.isNone && (match r (base ts) with | .gone => true | _ => false),
      full.issuesOn 0 0 .update .lehr o && (x full).2.2.isNone && (match r full with | .wait => true | _ => false)] : List Bool) id = true := by
  decide +kernel

theorem witness_LehrOperationsIssue_ROW_UPDATE : List.all (
     let o := mkOp .rowUpdate [4, 3, 1] 0
     let acc := { tens 2 .fp32 1 4 with desc := { desc 2 .fp32 1 4 with cls := 4 } }
     let m (row : Byte) : Mach := { (opM .lehr .general .general o [table, acc, u32t 3 4, tens 4 .fp32 32 4]).dictPut 0x4130 1
       ([3] ++ List.replicate 63 0) with mem := (if row = 0 then [] else [(196608, row)]) ++ [(196612, 0xFF), (196613, 0xFF), (196614, 0xFF), (196615, 0xFF)] }
     let x (m : Mach) : Mach × List Bytes × Option FaultInfo := (m.noted 0 0 .lehr o).fetchTiles 0 [(4, 0), (3, 0)]
     let list (m : Mach) : List (Nat × List Word) := (x m).1.rowList o 0 ((x m).2.1.getD 0 []) ((x m).2.1.getD 1 [])
     let fine (m : Mach) : List (Nat × List Word) := (list m).filter fun q => q.1 < 4
     let y (m : Mach) : Mach × List Bytes × Option FaultInfo :=
       (x m).1.fetchTiles 0 ((rowTiles table (fine m)).flatMap fun k => [(1, k), (2, k)])
     [
      (m 3).issuesOn 0 0 .rowUpdate .lehr o && (x (m 3)).2.2.isNone && ((x (m 3)).1.tensor? 0 1).isSome
        && (list (m 3)).length ≤ (fine (m 3)).length && !(list (m 3)).isEmpty && (y (m 3)).2.2.isNone,
      (m 4).issuesOn 0 0 .rowUpdate .lehr o && (x (m 4)).2.2.isNone && (fine (m 4)).length < (list (m 4)).length,
      (bad (m 3) 3).issuesOn 0 0 .rowUpdate .lehr o && (x (bad (m 3) 3)).2.2.isSome,
      (bad (m 3) 1).issuesOn 0 0 .rowUpdate .lehr o && (x (bad (m 3) 1)).2.2.isNone && (y (bad (m 3) 1)).2.2.isSome
        && (list (bad (m 3) 1)).length ≤ (fine (bad (m 3) 1)).length] : List Bool) id = true := by
  decide +kernel

theorem witness_LehrOperationsIssue_SNAPSHOT : List.all (
     let o := mkOp .snapshot [1, 2] 0
     let base (k : GroupKind) : Mach := opM .lehr k .update o [tens 1 .fp32 32 1, tens 2 .fp32 32 1]
     let wide : Mach := opM .lehr .training .update o [{ tens 1 .q4 32 1 with marks := [(0, { form := some .w16 })] }, tens 2 .q4 32 1]
     let skip : Mach := (base .training).updGroup 0 1 fun g => { g with step := 3, snapInt := 2 }
     let take : Mach := (base .training).updGroup 0 1 fun g => { g with step := 4, snapInt := 2 }
     let shaped (m : Mach) (f : Fmt) : Bool := ((m.noted 0 0 .lehr o).shapeTile 0 1 2 0 f).isSome
     let due (m : Mach) : Bool := !(((m.noted 0 0 .lehr o).group? 0 1).any fun g => g.kind == .training && g.step % (max 1 g.snapInt) != 0)
     [
      skip.issuesOn 0 0 .snapshot .lehr o && !due skip,
      [base .general, take].all fun m => m.issuesOn 0 0 .snapshot .lehr o && due m && shaped m .fp32,
      [base .general, take].all fun m => (bad m 1).issuesOn 0 0 .snapshot .lehr o && due (bad m 1) && shaped (bad m 1) .fp32,
      wide.issuesOn 0 0 .snapshot .lehr o && due wide && !shaped wide .w16] : List Bool) id = true := by
  decide +kernel

theorem witness_FabricTransfersIssue : List.all (
     let op (k : OpKind) : Op := mkOp k [1, 2] 0
     let m (k : OpKind) : Mach := opM .pontil .general .general (op k) [tens 1 .fp32 8 1, tens 2 .fp32 8 1]
     let x (m : Mach) (k : OpKind) : Mach × List Bytes × Option FaultInfo :=
       (m.noted 0 0 .pontil (op k)).fetchTiles 0 (if k = .get then [(1, 0)] else [(1, 0), (2, 0)])
     let kinds : List OpKind := [.put, .putSignal, .get]
     [
      kinds.all fun k => (m k).issuesOn 0 0 k .pontil (op k) && (x (m k) k).2.2.isNone && bitAt ((x (m k) k).1.reg .pontil 0 0 8) 2,
      kinds.all fun k => (FabDesc.ofBytes (k == .putSignal) ((x (m k) k).2.1.getD (if k = .get then 0 else 1) [])).isSome,
      kinds.all fun k => (bad (m k) 1).issuesOn 0 0 k .pontil (op k) && (x (bad (m k) 1) k).2.2.isSome] : List Bool) id = true := by
  decide +kernel

theorem witness_CollectivesIssue : List.all (
     let o (kind : Nat) : Op := mkOp .collective [1, 2] (32 * kind)
     let m (kind : Nat) : Mach := opM .pontil .general .general (o kind) [tens 1 .fp32 8 1, tens 2 .fp32 8 1]
     let x (m : Mach) (kind : Nat) : Mach × List Bytes × Option FaultInfo :=
       let m0 := m.noted 0 0 .pontil (o kind)
       m0.fetchTiles 0 (if kind = 4 then (if cgRank (m0.cgRec 0) = 0 then [(1, 0), (2, 0)] else []) else [(1, 0)])
     let k0 : Coll := { ctx := 0, op := 0, cgroup := 3, bucket := 0, epoch := 0, kind := 0, rop := 0, root := 0, pairs := [(1, 2)] }
     [
      [0, 1, 2, 3].all fun k => (m k).issuesOn 0 0 .collective .pontil (o k) && collKind (o k).param == k && (x (m k) k).2.2.isNone
        && ((x (m k) k).1.group? 0 1).isSome,
      (m 4).issuesOn 0 0 .collective .pontil (o 4) && (x (m 4) 4).2.2.isNone,
      (bad (m 0) 1).issuesOn 0 0 .collective .pontil (o 0) && (x (bad (m 0) 1) 0).2.2.isSome,
      sortBy (fun k => k.bucket) (({ upM with colls := [k0] } : Mach).colls.filter fun k => k.cgroup == 3 && k.stage == 0 && k.kind ≤ 1) == [k0]] : List Bool) id = true := by
  decide +kernel

theorem witness_StreamControlCompletes : List.all (
     let o (k : OpKind) : Op := mkOp k [1] 0
     let run (k : OpKind) : Mach := synced (runM .general .general [o k, mkOp .opEnd [1] 0] [tens 1 .fp32 64 1])
     let last (r : Nat) : Mach := { runM .general .general [o .opEnd] [] with groups := [{ group .general with rpt := r }] }
     let tr : Mach := { trainM .done with groups := [group .training], ctxs := (trainM .done).ctxs.map fun (x : Ctx) => if x.prog = 3 then { x with st := .running } else { x with rep := 1 } }
     let ab : Mach := tr.updGroup 0 1 fun g => { g with abortCode := 2 }
     let fl : Flight := { op := 0, inst := some (instOf .gather 0), outs := [], writes := [], ready := true }
     let flying : Mach := (run .sync).updCtx 0 fun x => { x with pc := 1, flights := [fl] }
     let broken : Mach := { flying with badPar := [csrAddr 0 (slotOf .gather 0) 8] }
     let cp := mkOp .copy [1, 2] 0
     let saved : Mach := (opM .gather .training .backward cp [tens 1 .fp32 32 1, tens 2 .fp32 32 1]).updGroup 0 1 fun g =>
       { g with saves := [⟨2, 0, 131072, 128, []⟩] }
     let torn : Mach := opM .gather .general .general cp [tens 1 .fp32 32 1, tens 2 .fp32 32 1]
     let torn : Mach := { torn with chk := [(torn.htabAddr 0 2, poisonMask)] }
     [
      ((run .sync).issuable 0 .sync).isSome && ((run .sync).ctx 0).flights == [],
      ((run .barrier).issuable 0 .barrier).isSome && ((run .barrier).ctx 0).flights == [] && !(run .barrier).syncHeld 0 && (run .barrier).syncOn 0,
      [0, 1, 2].all fun r => ((last r).issuable 0 .opEnd).isSome && ((last r).group? 0 1).isSome && ((last r).ctx 0).flights == [],
      (tr.boundaryReady 2).isSome && (tr.group? 0 1).any fun g => g.abortCode == 0,
      (ab.boundaryReady 2).isSome && (ab.group? 0 1).any fun g => g.abortCode != 0,
      (saved.issuable 0 .copy).any fun o => saved.elidable 0 o,
      (torn.issuable 0 .copy).any fun o => !torn.elidable 0 o && torn.instReady 0 (instOf .gather 0) && torn.instPart (instOf .gather 0) == 0
        && (torn.usesBad 0 o).isSome,
      ((flying.ctx 0).flights.find? fun f => f.op == 0) == some fl && fl.ready && flying.gemmEnds 0 0 && flying.parityBad 0 (slotOf .gather 0) == none,
      ((broken.ctx 0).flights.find? fun f => f.op == 0) == some fl && (broken.parityBad 0 (slotOf .gather 0)).isSome] : List Bool) id = true := by
  decide +kernel

theorem witness_WatchdogsFault : List.all (
     let wait (w : WaitFor) : Mach := upM.updCtx 31 fun _ => { runCtx with st := .waiting, waitFor := some w }
     let k : Coll := { ctx := 0, op := 0, cgroup := 3, bucket := 0, epoch := 0, kind := 0, rop := 0, root := 0, pairs := [(1, 2)] }
     let fl : Flight := { op := 0, inst := some (instOf .pontil 0), outs := [], writes := [], ready := false }
     let put : Mach := (runM .general .general [mkOp .put [1, 2] 0] []).updCtx 0 fun x => { x with flights := [fl] }
     let tr (f : Group → Group) (cg : Bool) : Mach :=
       let m : Mach := { trainM .running with groups := [f (group .training)] }
       if cg then (m.dset 0x2030 1 1).dictPut 0x5100 1 (List.replicate 4128 0) else m.dset 0x2030 1 7
     let ok (m : Mach) (cg : Bool) : Bool := (m.group? 0 1).isSome && (m.boundaryOp 0 1).isSome && ((m.dadd 0x5040 0x15 1).statusCg 0 1).isSome == cg
     [
      [.counter, .barrier, .gateHeld].all fun w => ((wait w).ctx 31).st == .waiting && !((wait w).ctx 31).faulty && ((wait w).ctx 31).waitFor == some w,
      ({ put with colls := [k] } : Mach).collTimed 0 0 == some k && ({ put with colls := [{ k with stage := 20 }] } : Mach).collTimed 0 0 == some { k with stage := 20 },
      put.collTimed 0 0 == none && (put.opsOf 0)[0]? == some (mkOp .put [1, 2] 0) && (put.ctx 0).flights.any fun f => f.op == 0 && !f.ready,
      [false, true].all fun cg => ok (tr (fun g => { g with phase := .agreeing }) cg) cg && ok (tr (fun g => { g with awaiting := some 4 }) cg) cg] : List Bool) id = true := by
  decide +kernel

theorem witness_StepEventsComplete : List.all (
     let agree : Mach := { trainM .running with groups := [{ group .training with phase := .agreeing, statuses := [(0, zeroBytes 256)] }] }
     let k : Ckpt := { part := 0, slot := 1, step := 4, group := 1 }
     let ck (n : Nat) : Mach := { upM with ckpts := [k], claims := [{ part := 0, module := n, bpart := 0, size := 4096 }] }
     let d : DigestRound := { part := 0, step := 9 }
     let dg : Mach := { upM with digest := [d] }
     let cg : Mach := (dg.dset 0x7020 2 31).dictPut 0x511F 1 (List.replicate 4128 0)
     let noCg : Mach := dg.dset 0x7020 2 255
     let o := mkOp .update [1, 2, 5] 0
     let fl : Flight := { op := 0, inst := some (instOf .lehr 0), outs := [], writes := [], ready := false, jwait := true }
     let jw : Mach := (opM .lehr .training .update o [tens 1 .fp32 32 1, tens 2 .fp32 32 1, tens 3 .fp32 32 1, tens 4 .fp32 32 1, tens 5 .q4 32 1]).updCtx 0 fun x => { x with flights := [fl] }
     [
      (agree.group? 0 1).any (fun g => g.phase == .agreeing && (List.range (agree.agreeRanks 0 1).1).all fun j => (mapGet g.statuses j).isSome)
        && (agree.boundaryOp 0 1).isSome,
      ((ck 0).ckpts.find? fun c => c.part == 0) == some k && (ck upM.modNum).claims.any fun b => !({ ck upM.modNum with ckpts := [] } : Mach).buddyLost 0 b,
      (ck 5).claims.any fun b => ({ ck 5 with ckpts := [] } : Mach).buddyLost 0 b,
      (dg.digest.find? fun d => d.part == 0) == some d,
      (noCg.digest.find? fun d => d.part == 0 && !d.computed) == some d && noCg.digestCg 0 == none,
      (cg.digest.find? fun d => d.part == 0 && !d.computed) == some d && cg.digestCg 0 == some 31,
      ((jw.ctx 0).flights.find? fun f => f.jwait) == some fl && (jw.opsOf 0)[0]? == some o && (jw.group? 0 1).any fun g => g.abortCode == 0,
      (jw.fetchTiles 0 (jw.updateIns o 0)).2.2.isNone && ((bad jw 2).fetchTiles 0 ((bad jw 2).updateIns o 0)).2.2.isSome] : List Bool) id = true := by
  decide +kernel

theorem witness_PacketsAreTaken : List.all (
     let m : Mach := ({ upM with ports := upM.ports.map fun p => { p with st := .up, lanes := 4 } } : Mach).dset 0x5001 2 5
     let h (n : Nat) (resv : Bool) : PktHdr := ⟨0x10, 5, 9, 0, n, 0, 0, 0, resv⟩
     let e : ExtHdr := ⟨0, 0, 40, 0, 0, 0, 0, 0, 0, false⟩
     let other : Mach := m.dset 0x2001 1 4
     let d (n : Nat) : Nat := ((h n false).tseq + 2 ^ 24 - (m.rxFlow (h n false)).expect) % 2 ^ 24
     let taken (r : Packet) : Bool := (m.takePacket 0 (some 0) r (m.rxFlow r.hdr)).isSome
     [
      0 < m.portCount && (m.port 0).isUp && m.modNum != 0xFFFF && (h 0 false).dstModule == m.modNum && m.partOk 0 && !(h 0 false).resv
        && m.portPart 0 == 0,
      0 < other.portCount && (other.port 0).isUp && (h 0 false).dstModule == other.modNum && other.partOk 3 && other.portPart 0 != 3,
      d 0 == 0 && d 1 == 1 && d 256 == 256 && d 257 == 257 && d (2 ^ 23 - 1) == 2 ^ 23 - 1 && d (2 ^ 23) == 2 ^ 23 && d (2 ^ 24 - 1) == 2 ^ 24 - 1,
      [ptWrite, ptWriteSignal, ptReadReq, ptReadResp].all fun t => taken ⟨t, h 0 false, none, zeroBytes 32⟩ && taken ⟨t, h 0 true, none, []⟩,
      taken ⟨ptColl, h 0 true, some e, []⟩ && taken ⟨ptNotice, h 0 true, some e, []⟩] : List Bool) id = true := by
  decide +kernel

set_option maxRecDepth 200000 in
theorem witness_LinksAndTimersComplete : List.all (
     let h : PktHdr := ⟨0, 5, 9, 0, 0, 0, 0, 0, false⟩
     let f (n : Nat) : TxFlow := { part := 0, engine := 0, channel := 0, module := n, dpart := 0, unacked := [⟨ptWrite, h, none, []⟩] }
     let tx : Mach := { upM with tx := [f upM.modNum, f 9] }
     let rt : Mach := { tx with peers := [(9, 3)], ports := upM.ports.map fun p => { p with st := .up, lanes := 4, peer := some (9, 0, 0) } }
     let port (s : PortSt) : Mach := { upM with ports := updAt upM.ports 7 fun p => { p with st := s, lanes := 4, replay := [⟨0, 0, [], 0, 0⟩] } }
     let last : Mach := (port .up).updPort 7 fun p => { p with replays := 31 }
     let cw := rsEncode (zeroBytes 128)
     let hit := cw.modify 3 fun b => b ^^^ 0x41
     let dead := [0, 9, 18, 27, 36].foldl (fun (x : Bytes) i => x.modify i fun b => b ^^^ 0x41) cw
     [
      tx.tx[0]? == some (f tx.modNum) && (f 9).unacked != [] && tx.tx[1]? == some (f 9),
      rt.tx[1]? == some (f 9) && (rt.flowPort 0 0 0 9 0 none).isSome && rt.modNum != 9,
      !tx.unreach.contains (9, 0) && tx.tx.any fun f => f.part == 0 && f.module == 9 && f.dpart == 0 && !f.unacked.isEmpty,
      7 < (port .up).portCount && ((port .up).port 7).isUp && ((port .degraded).port 7).isUp && ((port .up).port 7).replay != []
        && ((port .up).port 7).replays + 1 < 32 && 32 ≤ (last.port 7).replays + 1,
      ((port .retraining).port 7).st == .retraining && ((port .training).port 7).st == .training && ((port .training).die (portDie upM 7)).up && [2, 4].contains upM.portLanes,
      [hit, cw, dead].all fun c => (lineOut 0 c).1.length == 544 && lineIn 0 (lineOut 0 c).1 == (c, (lineOut 0 c).2),
      (rsDecode dead).isNone && (rsDecode hit).any (fun d => d == (zeroBytes 128, 1)) && (rsDecode cw).any (fun d => d.2 == 0)] : List Bool) id = true := by
  decide +kernel

set_option maxRecDepth 200000 in
theorem witness_LinksAndTimersComplete_flits : List.all (
     let cw := rsEncode (zeroBytes 128)
     let hit := cw.modify 3 fun b => b ^^^ 0x41
     let data := zeroBytes 508
     let last := rsEncode (zeroBytes 124 ++ toLe 4 (crc32c data).toNat)
     let m : Mach := { upM with ports := upM.ports.map fun p => { p with st := .up, lanes := 4 } }
     [
      (m.lineCodewords 7 ([hit, cw, cw, last].map fun c => (lineOut 0 c).1)).2 == [hit, cw, cw, last],
      let bs := ([hit, cw, cw, last].map rsDecode).flatMap fun d => match d with | some x => x.1 | none => [];
        (([hit, cw, cw, last].map rsDecode).all Option.isSome) && leAt bs 508 4 == (crc32c (bs.take 508)).toNat && fld (leAt bs 0 8) 63 57 == 0,
      let bs := ([cw, cw, cw, cw].map rsDecode).flatMap fun d => match d with | some x => x.1 | none => [];
        leAt bs 508 4 != (crc32c (bs.take 508)).toNat] : List Bool) id = true := by
  decide +kernel

theorem witness_SilentErrorEventsComplete : List.all (
     let v : List Word := List.replicate 256 0
     let serve (m : Mach) : Mach := (List.range 64).foldl (fun (m : Mach) b => m.setService (benchInst b) true) m
     let d (runs : List (Nat × (List Word × (Bool × Bool)))) : Dispute := ⟨0, 0, 3, 0, 0, 3, 4, false, runs⟩
     let one : Dispute := d [(3, (v, (false, false)))]
     let other : Dispute := d [(3, ([5], (false, false)))]
     let two : Dispute := d [(3, ([5], (false, false))), (4, (v, (true, true)))]
     let three : Dispute := d [(3, ([5], (false, false))), (4, ([6], (true, true)))]
     let o := mkOp .gemm [1, 2, 3] 1
     let gm : Mach := opM .bench .general .general o [tens 1 .q4 32 1, tens 2 .q4 32 1, tens 3 .fp32 1 1]
     let dm (d : Dispute) : Mach := { serve gm with disputes := [d], gemms :=
       [{ ctx := 0, op := 0, part := 0, o := o, tiles := [zeroBytes 64, zeroBytes 64], bench := some 3
          fixes := [⟨0, 0, 0, v⟩, ⟨0, 0, 1, v⟩] }] }
     let vote (q : Dispute) (x : List Word) : Option (List Word) := voteOf (q.runs ++ [(31, (x, (true, true)))])
     let loan : Mach := { upM with loans := [⟨3, 4⟩] }
     let torn (d : Dispute) : Mach := { dm d with chk := [(65536, poisonMask)] }
     let pass (runs : List FritRun) (k : Nat) : Bool := fritPass (fritRuns (loan.dnum 0x7010 4) loan.fritNum k runs [3, 4])
     let kat (i : Inst) : Mach := (upM.setService i true).setService (instOf i.kind 1) true
     [
      [one, other, two, three].all fun d => ((dm d).disputes.find? fun q => (dm d).rerunOk q 31 && q.runs.length == d.runs.length) == some d,
      [one, other, two, three].all fun d => ((dm d).rerunTiles d).2.2.isNone
        && (dm d).rerunUnit d noFault ((dm d).rerunTiles d).2.1 == some (v, 0)
        && (dm d).rerunUnit d { noFault with checker := 1 } ((dm d).rerunTiles d).2.1 == some (v, 0),
      ((torn one).rerunTiles { one with stage := 0 }).2.2.isSome,
      one.runs.length == 1 && other.runs.length == 1 && two.runs.length == 2 && three.runs.length == 2,
      vote three v == none && vote two v == some v,
      serve upM |>.dnum 0x7010 3 |> fun n => 0 < n,
      let m : Mach := serve upM;
        instOwned m.mode (m.ownerOf (benchInst 0)) (benchInst 63) && m.inService (benchInst 0) && m.inService (benchInst 63)
        && m.lent 0 == false && m.lent 63 == false && !m.holdsRow 0 && !m.holdsRow 63
        && ((List.range 64).any fun n => n != 0 && n != 63 && instOwned m.mode (m.ownerOf (benchInst 0)) (benchInst n)
        && m.inService (benchInst n) && !m.lent n),
      (loan.loans.find? fun l => l.bench == 3) == some ⟨3, 4⟩,
      (List.range 4).all (pass []) && (List.range 4).all (pass [⟨3, 0, none⟩, ⟨5, 1, none⟩]),
      [StKind.marver, .gather, .jacks, .lehr].all fun k => (kat (instOf k 0)).inService (instOf k 0) && !(kat (instOf k 0)).instActive (instOf k 0)
        && (kat (instOf k 0)).colls == [] && instOf k 0 != instOf k 1 && ((kat (instOf k 0)).wakeInst (instOf k 0)).kavFree (instOf k 1),
      kavSame [] && kavSame [(7, 0)] && !kavSame [(7, 1)],
      (upM.dset 0x7010 6 1).dnum 0x7010 6 == 1 && (upM.dset 0x7010 6 2).dnum 0x7010 6 == 2] : List Bool) id = true := by
  decide +kernel

/-- A bench whose Strain errs fails its part of a test. -/
theorem witness_SilentErrorEventsComplete_frit (seed n : Nat) :
    (List.range 4).all (fun k => fritPass (fritRuns seed n k [⟨3, 2, some { goodFault with checker := 1 }⟩] [3, 4])) = false := by
  have h : (fritCause seed n 2 (some { goodFault with checker := 1 }) == 0) = false := by
    unfold fritCause
    dsimp only
    split_ifs <;> rfl
  simp [List.range, List.range.loop, fritPass, fritRuns, h]

theorem witness_MemoryServiceCompletes : List.all (
     let t : Tensor := { tens 1 .fp32 32 1 with marks := [(0, { migrating := some 0x200000 })] }
     let m : Mach := { upM with tensors := [t] }
     let c : Chan := ⟨true, 1, 31⟩
     let memc (off v : Nat) : Mach := upM.putReg .memc 1 c.memc off v
     let s0 : Mach := upM.putReg .memc 0 0 0 3
     let late : Mach := s0.putReg .memc 0 0 8 1
     let two (a : Nat) : Mach := s0.upset a [(0, 1), (5, 3)]
     let st (n : Nat) : Mach := { upM with chans := [] }.updChan c fun x => { x with state := n }
     [
      upM.moduleState != 0 && upM.moduleState != 2 && upM.power.deepSteps == 0,
      upM.partOk 0 && !upM.warm.contains 0,
      (m.tensor? 0 1) == some t && (t.mark 0).migrating.isSome,
      (memUnitOf upM.fineMode (1099511627791 / 16 * 16)).any fun u => (upM.die u.die).up,
      (memUnitOf upM.fineMode 0).any fun u => u.tier == .hbm && u.chan? == some ⟨false, 0, 0⟩,
      s0.bit .memc 0 0 0 1 && !s0.bit .memc 0 0 4 4 && s0.bit .memc 0 0 8 0,
      (s0.upset 16 [(31, 15)]).cwClass 16 == .fix 31 15 && (mapGet (((s0.upset 16 [(31, 15)]).memRead 1 16 16).1.chk) 16).isNone,
      (late.upset 16 [(31, 15)]).cwClass 16 == .fix 31 15 && (mapGet (((late.upset 16 [(31, 15)]).memRead 1 16 16).1.chk) 16).isSome,
      (two 16).cwClass 16 == .bad && (s0.upset 16 []).cwClass 16 == .clean,
      c.ok && !upM.recalOn c && (upM.die c.die).up && !upM.bit .memc c.die c.memc 4 4 && !(chanSiblings c).any upM.recalOn,
      let k := (chanSiblings c).getD 0 c; let m := upM.setBit .memc k.die k.memc 4 1; !m.recalOn c && (chanSiblings c).any m.recalOn,
      (memc 4 2).bit .memc 1 c.memc 4 1 && !(memc 4 2).bit .memc 1 c.memc 4 2 && !(memc 4 2).bit .memc 1 c.memc 4 4,
      (memc 4 6).bit .memc 1 c.memc 4 2,
      ((st 1).chan c).state == 1 && !(st 1).chanHolds c,
      ((st 4).chan c).state == 4] : List Bool) id = true := by
  decide +kernel

theorem witness_StationPowerCompletes : List.all (
     let i : Inst := ⟨.bench, 1, 31⟩
     let on : Mach := upM.putReg .bench 1 31 0 3
     let gate : Mach := upM.putReg .sync 1 0 0 3
     let put (x : InstPower) : Mach := { upM with power := { upM.power with insts := [(Inst.id' i, x)] } }
     let p : Inst := ⟨.pontil, 1, 1⟩
     let one : Mach := upM.putReg .pontil 1 1 0 3
     let two : Mach := one.putReg .pontil 0 0 0 1
     [
      i.die < 2 && i.idx < i.kind.perDie && on.bit .bench 1 31 0 1 && on.bit .bench 1 31 0 0 && !on.instActive i,
      one.bit .pontil 1 1 0 1 && one.bit .pontil 1 1 0 0 && one.pontilHeir p == none && !one.pontilWork p,
      two.bit .pontil 1 1 0 1 && two.bit .pontil 1 1 0 0 && two.pontilHeir p == some ⟨.pontil, 0, 0⟩,
      gate.instOk i && gate.bit .sync 1 0 0 1 && !gate.instActive i && !gate.instWanted i && mapGet gate.power.insts (Inst.id' i) == none,
      mapGet (put .gated).power.insts (Inst.id' i) == some .gated && mapGet (put .retained).power.insts (Inst.id' i) == some .retained,
      let m : Mach := (put .gated).dset 0x3004 2 1;
        mapGet m.power.insts (Inst.id' i) == some .gated && m.dnum 0x3004 2 == 1 && !m.holdsRow (benchNum i)
        && allIdx m.ctxs fun c x => !ctxOwned m.mode (m.ownerOf i) c || (x.st != .running && x.st != .waiting)] : List Bool) id = true := by
  decide +kernel

theorem witness_RegisterRowsComplete : List.all (
     let busy : Mach := (upM.putReg .bench 0 31 0 1).updCtx 0 fun x => { x with flights := [⟨0, some ⟨.bench, 0, 31⟩, [], [], true, false⟩] }
     let cls (b : Blk) (off : Nat) (c : RegClass) : Bool := (regRow b off).any fun r => r.cls == c
     let new (m : Mach) (b : Blk) (e i off w : Nat) : Nat := match regRow b off with | some r => m.newWord b e i off r w | none => 0
     [
      upM.csrUp 1 (slotOf .sync 0) && cls .sync 0x40 .control && cls .sync 0x44 .control && cls .memc 0 .control && cls .bench 0 .control,
      upM.csrUp 1 (slotOf .memc 95) && upM.csrUp 1 (slotOf .bench 31) && upM.csrUp 0 (slotOf .aopm 0) && upM.csrUp 1 (slotOf .csrmap 0),
      [(Blk.sync, 0x40), (.sync, 0x44), (.memc, 0), (.bench, 0), (.csrmap, 60), (.gcnt, 0x1C), (.event, 0), (.aopm, 8)].all fun q => cls q.1 q.2 .control
        && !upM.stillBusy q.1 0 0 q.2 (new upM q.1 0 0 q.2 0) && !noBlock q.1 q.2 (new upM q.1 0 0 q.2 0),
      busy.stillBusy .bench 0 31 0 (new busy .bench 0 31 0 0) && !noBlock .bench 0 (new busy .bench 0 31 0 0),
      noBlock .aopm 8 (new upM .aopm 0 0 8 0x800001FF)] : List Bool) id = true := by
  decide +kernel

theorem witness_RegisterAccessesComplete : List.all (
     let at' (b : Blk) (i off : Nat) : Option (Nat × Nat × Nat) := csrSplit (regAddr b 1 i off)
     let lock : Mach := upM.putReg .sync 1 0 0 1
     let twin (off : Nat) : Nat := csrAddr 1 (slotOf .sync 0) (0x10000 + off)
     let bits : Mach := upM.putReg .csrmap 1 0 (4 * (slotOf .sync 0 / 32)) (2 ^ (slotOf .sync 0 % 32))
     [
      at' .sync 0 8 == some (1, slotOf .sync 0, 8) && upM.csrUp 1 (slotOf .sync 0) && blockAt 1 (slotOf .sync 0) == some (.sync, 0),
      (regRow .sync 0xFFC).isNone && csrSplit (regAddr .sync 1 0 0xFFC) == some (1, slotOf .sync 0, 0xFFC) && regAddr .sync 1 0 0xFFC % 4 == 0,
      (regRow .sync 4).any (fun r => r.cls == .status) && (regRow .sync 0x20).any fun r => r.cls == .counter,
      (regRow .sync 8).any (fun r => r.cls == .config) && lock.locked .sync 1 0 && !upM.locked .sync 1 0,
      csrSplit (twin 0) == some (1, slotOf .sync 0, 0x10000) && csrSplit (twin 0x4000) == some (1, slotOf .sync 0, 0x14000)
        && csrSplit (twin 0x8000) == some (1, slotOf .sync 0, 0x18000),
      !upM.bitMode 1 (slotOf .sync 0) && (regRow .sync 0).isSome && !noAlias .sync 0,
      bits.bitMode 1 (slotOf .sync 0) && csrSplit (twin 0x7C) == some (1, slotOf .sync 0, 0x1007C),
      (upM.die 1).up && (upM.die 0).up] : List Bool) id = true := by
  decide +kernel

theorem witness_ParityAndResetRowsComplete : List.all (
     let sl := slotOf .gather 0
     let a := csrAddr 1 sl 8
     let m : Mach := { upM with badPar := [a] }
     let again : Mach := m.updDie 1 fun x => { x with parityFails := [(a, 0), (a, 0)] }
     let third (m : Mach) : Bool :=
       let bad := m.badPar.filter fun a => csrBase 1 sl ≤ a && a < csrBase 1 sl + 0x10000
       let m1 := m.updDie 1 fun x => { x with
         parityFails := bad.map (fun a => (a, m.power.aoMs)) ++ x.parityFails.filter fun q => m.power.aoMs < q.2 + 1000 }
       bad.any fun a => 3 ≤ ((m1.die 1).parityFails.countP fun q => q.1 == a)
     [
      m.csrUp 1 sl && blockAt 1 sl == some (.gather, 0) && lockBits .gather == some (2, some 3) && m.parityBad 1 sl == some 8,
      let mu := upM.csrUpset 1 sl 8 1; mu.csrUp 1 sl && mu.badPar.contains (csrAddr 1 sl 8) && !mu.bit .gather 1 0 4 3,
      (m.csrUpset 1 sl 8 0).badPar.contains (csrAddr 1 sl 8) && !(m.csrUpset 1 sl 8 0).bit .gather 1 0 4 3,
      !third m && third again && blkInst .gather 1 0 == some ⟨.gather, 1, 0⟩ && again.parityBad 1 sl == some 8] : List Bool) id = true := by
  decide +kernel

theorem witness_DictionaryRequestsComplete : List.all (
     let s := st upM
     let read (i sub : Nat) : Bool := s.serves (req s 1 i sub []) && (s.entryRow i sub).any (fun r => r.acc != .wo)
     let got (i sub off : Nat) : Bool := match s.readValue .host i sub off with | (_, .ok bs) => decide (off ≤ bs.length) | _ => false
     let whole (i sub : Nat) : Bool := match s.readEntry .host i sub with | (_, .ok _) => true | _ => false
     let part := { req s 2 0x8002 1 [1, 2] with rq := { (req s 2 0x8002 1 [1, 2]).rq with flags := 2 } }
     [
      s.serves (req s 3 0x1001 1 []) && (s.entryRow 0x1001 1).isSome,
      read 0x2001 1 && whole 0x2001 1 && (s.entryRow 0x2001 1).any fun r => r.typ.size.isSome,
      read 0x7002 1 && got 0x7002 1 0 && (s.entryRow 0x7002 1).any fun r => r.typ.size == none,
      granted s 0x3001 1 (toLe 2 700) fun _ _ => true,
      s.serves part && (s.entryRow 0x8002 1).any (fun r => r.acc != .ro && r.typ.size == none && part.rq.typ.toNat == r.typ.code
        && match s.m.stage .host part r with | (_, .error e) => e == osOk | _ => false) && s.m.mayWrite .host 0x8002 1 [1, 2]] : List Bool) id = true := by
  decide +kernel

theorem witness_ConfigurationWritesComplete : List.all (
     let w (m : Mach) (i sub : Nat) (data : Bytes) (rule : Mach → Bytes → Bool) : Bool := granted (st m) i sub data fun s bs => rule s.m bs
     let four : Mach := upM.dset 0x2001 1 4
     let yes (_ : Mach) (_ : Bytes) : Bool := true
     let chan : Mach := upM.dset 0x6010 1 0x801F
     let svc (m : Mach) (_ : Bytes) : Bool := svcChan (m.dnum 0x6010 1) == some ⟨true, 0, 31⟩ && !m.svcBusy ⟨true, 0, 31⟩
     let fenced : Mach := upM.setFenced [0x1000]
     let ring (e : Byte) : Bytes := List.replicate 16 0 ++ [4, 15, 0, e] ++ List.replicate 12 0
     let on : Mach := upM.dictPut 0x9121 1 (ring 1)
     [
      w upM 0x2001 1 [2] fun m _ => m.tensors.isEmpty && m.groups.isEmpty,
      w four 0x2013 1 (toLe 4 4096) fun m _ => m.tensors.all fun t => t.part != 3,
      w four 0x4133 16 (List.replicate 64 0) fun m bs => m.slotRule 3 15 bs,
      w four 0x4133 0x30 (dictDefault 0x4133 0x30) fun m bs => m.schedRule 3 bs,
      w four 0x2043 32 (dictDefault 0x2043 32) fun m bs => m.tableRule 3 bs,
      w upM 0x6001 1 [1] fun m _ => m.tensors.isEmpty,
      w upM 0x5001 1 [1] yes,
      w upM 0x511F 1 (dictDefault 0x511F 1) fun m bs => m.groupRule 31 bs,
      [1, 2, 3, 4].all fun k => w chan 0x6010 2 [k] svc,
      w upM 0x7010 5 [1] fun m _ => m.dnum 0x7010 6 != 2,
      w upM 0x7010 5 [2] fun m _ => m.allIdle,
      w fenced 0x7002 2 (toLe 2 0x1000) fun m bs => (m.unfenceInst (ofLe bs)).isSome,
      w upM 0x9010 1 (toLe 2 6) yes,
      w upM 0x1004 0x10 (toLe 4 1145849428) fun m _ => m.allIdle && m.mode == 1 && !m.fineMode,
      w upM 0xA001 4 [1] yes,
      w upM 0x3004 5 [1] fun m _ => m.deepOk,
      w upM 0x9121 1 (ring 0) fun m bs => leAt (m.ringRec 1) 19 1 == 0 && leAt bs 19 1 != 1,
      w upM 0x912F 1 (ring 1) fun m bs => leAt (m.ringRec 15) 19 1 == 0 && leAt bs 19 1 == 1 && m.ringRecOk bs,
      w on 0x9121 1 (ring 0) fun m bs => leAt (m.ringRec 1) 19 1 == 1 && leAt bs 19 1 != 1 && overlay (m.ringRec 1) 19 [0] == overlay bs 19 [0]] : List Bool) id = true := by
  decide +kernel

theorem witness_SecurityAndResetWritesComplete : List.all (
     let base := st upM
     let trial (k : Nat) : State := { base with v := { base.v with
       flash := { base.v.flash with slots := List.replicate 4 ⟨[], 1⟩, ctl := updAt base.v.flash.ctl k fun _ => ⟨0, true, 2⟩ }
       running := if k = 0 then [some 1, some 0, some 0] else [some 0, some 1, some 1] } }
     let open_ : State := st (upM.dset 0xA003 3 1)
     [
      granted base 0x3006 1 (toLe 4 0x434F4C44) fun s bs => ofLe bs == 0x434F4C44 && s.m.allIdle,
      granted base 0x3006 1 (toLe 4 0x5741524D) fun s bs => ofLe bs == 0x5741524D && s.m.allIdle,
      granted base 0x3006 1 (toLe 4 0x44494530) fun s bs => ofLe bs == 0x44494530 && s.m.dieQuiet 0,
      granted base 0x3006 1 (toLe 4 0x44494531) fun s bs => ofLe bs == 0x44494531 && s.m.dieQuiet 1,
      granted (trial 0) 0x8003 2 [1] fun s bs => ofLe bs == 1 && s.trialRuns 0,
      granted (trial 1) 0x8003 2 [2] fun s bs => ofLe bs == 2 && s.trialRuns 1,
      granted base 0x8030 1 (List.replicate 32 7) fun _ _ => true,
      granted open_ 0xA003 2 (toLe 4 1) fun s _ => s.m.dnum 0xA003 3 == 1] : List Bool) id = true := by
  decide +kernel

theorem witness_SecurityAndResetWritesComplete_activate : List.all (
     let img : Bytes := overlay (overlay (zeroBytes 4096) 16 (toLe 2 1 ++ toLe 2 1 ++ toLe 2 1)) 32 [0xB0]
     let fl : Flash := { slots := List.replicate 4 ⟨img, 1⟩ }
     let s (r : List (Option Nat)) : State := { st upM with v := { flash := fl, running := r } }
     [
      granted (s [some 0, none, none]) 0x8003 1 [1] fun s bs => ofLe bs == 1 && (s.activateCheck 0).isNone,
      granted (s [some 0, some 0, some 0]) 0x8003 1 [2] fun s bs => ofLe bs == 2 && (s.activateCheck 1).isNone] : List Bool) id = true := by
  decide +kernel

theorem witness_ManagementEventsComplete : List.all (
     let sw : Mach := { upM with mgmt := { sweeping := true, chainIn := true } }
     let lost : Mach := { upM with link := { upM.link with up := false } }
     [
      upM.mgmtServes && sw.mgmtServes && sw.mgmt.sweeping && sw.mgmt.chainIn && !upM.mgmt.sweeping,
      upM.power.boot.isSome && !upM.mgmt.lost,
      lost.power.boot.isSome && !lost.mgmt.takeover && !lost.link.up] : List Bool) id = true := by
  decide +kernel

theorem witness_StoreEventsComplete : List.all (
     let m (i : Bool) (pend : List Nat) : Mach := { upM with power := { upM.power with nvInhibit := i }, store := { pending := pend } }
     let due (m : Mach) : Bool := m.power.boot.isSome && !(st m).v.recovery && m.store.pending != []
     [
      due (m false [0x300101]) && !(m false [0x300101]).power.nvInhibit,
      due (m true [0x300101]) && (m true [0x300101]).power.nvInhibit,
      !due (m false []) && (m false []).power.boot.isSome] : List Bool) id = true := by
  decide +kernel

theorem witness_SupplyEventsComplete : List.all (
     let hot : Mach := { upM with power := { upM.power with overvolt := true } }
     [
      !State.reset.m.power.overvolt && !State.reset.m.power.resetLow && State.reset.m.power.boot == none,
      upM.power.boot.isSome && !upM.power.warn && hot.power.overvolt] : List Bool) id = true := by
  decide +kernel

theorem witness_PowerAndSensorEventsComplete : List.all (
     let hot : Int := 8 * upM.dnum 0x3002 1
     let t (b : Bool) : Mach := upM.updDie 1 fun x => { x with throttled := b }
     let gone : Mach := upM.updDie 1 fun x => { x with up := false, heldBy := 8 }
     [
      upM.power.ready,
      ((upM.updDie 1 fun x => { x with temp := hot + 1 }).die 1).up && upM.restricted == 0 && !((t false).die 1).throttled && hot < hot + 1,
      ((t true).die 1).up && ((t true).die 1).throttled && hot - 24 ≤ hot - 24 && hot - 24 < hot - 23,
      (upM.die 1).up && !(gone.die 1).up && (gone.die 1).heldBy == 8] : List Bool) id = true := by
  decide +kernel

theorem witness_ClockWakeAndUpdateEventsComplete : List.all (
     let c : Chan := ⟨true, 1, 31⟩
     let m1 (m : Mach) : Mach := m.fwEvent evClockFault c.die (160 + c.memc) none (toLe 1 1 ++ toLe 2 (c.idx + 16384 * c.die + 32768 * c.lp.toNat))
     let busy : Mach := upM.updChan c fun x => { x with state := 2 }
     let deep (n : Nat) : Mach := { upM.dset 0x3005 1 7 with power := { upM.power with deepSteps := n } }
     let live : Mach := { upM with liveDie := some 1 }
     let re (b : Bool) : State := { st { upM with mgmt := { restarting := true } } with v := { flash := { ctl := [⟨0, b, 1⟩, {}] } } }
     let q : State := { st upM with v := { nonces := [(masterNum .mgmt, [1])] } }
     [
      (upM.die 1).up && c.ok && !(m1 upM).svcBusy c && ((m1 upM).chan c).state != 2 && ((m1 upM).beginDrain c).isSome,
      ((m1 busy).chan c).state == 2,
      0 < upM.portCount && (upM.die (portDie upM 0)).up,
      [1, 2, 3].all fun n => bitAt ((deep n).dnum 0x3005 1) 2 && (deep n).power.deepSteps == n && (deep n).power.wakeLatched == none,
      live.liveDie == some 1 && (live.die 1).up && !(live.groupsOn 1).any live.groupActive,
      (re true).m.mgmt.restarting && ((re true).v.flash.boot 0).trial && !((re false).v.flash.boot 0).trial,
      (mapGet q.v.nonces (masterNum .mgmt)).isSome && !q.v.pufFailed && !q.m.mgmt.restarting && mapGet q.v.quotes (masterNum .mgmt) == none] : List Bool) id = true := by
  decide +kernel

set_option maxRecDepth 200000 in
theorem witness_HostLinkEventsComplete : List.all (
     let good : Bytes := zeroBytes 252 ++ toLe 4 (crc32c (zeroBytes 252)).toNat
     let nak : Mach := { upM with link := { upM.link with nakOut := true } }
     let rep : Mach := { upM with link := { upM.link with replay := [(0, [])] } }
     let down : Mach := { upM with link := { upM.link with up := false } }
     [
      upM.link.up && !upM.link.retraining && !upM.link.nakOut && nak.link.nakOut && rep.link.replay != [],
      good.length == 256 && leAt good 252 4 == (crc32c (good.take 252)).toNat,
      (zeroBytes 256).length == 256 && leAt (zeroBytes 256) 252 4 != (crc32c ((zeroBytes 256).take 252)).toNat,
      down.power.boot.isSome && !down.link.up] : List Bool) id = true := by
  decide +kernel

theorem witness_DoorbellsAndLinkControlComplete : List.all (
     let off : Mach := { upM with link := { upM.link with enable := false } }
     [
      upM.link.up && off.link.up && off.link.enable == false && off.link.configOk && upM.link.enable,
      !({ off.link with sizes := 0 } : Link).configOk] : List Bool) id = true := by
  decide +kernel

theorem witness_BoardEventsLeaveTheRest : List.all (
     [
      upM.quiet && (match exec .supplyLow (st upM) with | .next t => t.m.mem == [] | _ => false)
        && (match exec (.hostLinkUp 8) (st upM) with | .next _ => true | _ => false)] : List Bool) id = true := by
  decide +kernel

theorem witness_LockedRegisterKeepsItsValue : List.all (
     let lock (b : Blk) : Mach := upM.putReg b 1 0 0 1
     [
      [Blk.part, .marver, .gather, .lehr, .pontil, .jacks, .bench, .event, .memc, .sync].all fun b =>
        blockAt 1 (slotOf b 0) == some (b, 0) && (lockBits b).isSome && (lock b).locked b 1 0,
      [Blk.part, .marver, .gather, .lehr, .pontil, .sync].all fun b => (regRow b 8).any fun r => r.cls == .config] : List Bool) id = true := by
  decide +kernel

theorem witness_EventsQueueOrAreCounted : List.all (
     let on : Mach := upM.putReg .event 1 0 0 1
     let full : Mach := on.updDie 1 fun x => { x with evq := List.replicate 256 ⟨1, 0, 0, 0⟩ }
     [
      upM.dies.length == 2 && on.bit .event 1 0 0 0 && (on.die 1).evq.length < 256 && (full.die 1).evq.length == 256 && !upM.bit .event 1 0 0 0] : List Bool) id = true := by
  decide +kernel

theorem witness_SaturatedSignalIsLost : List.all (
     let c (v : Nat) : Mach := ((upM.putReg .sync 1 0 0 1).putReg .event 1 0 0 1).setCtr 1 4095 v
     [
      !(c 255).syncHeld 1 && (c 255).bit .sync 1 0 0 0 && (c 255).ctrVal 1 4095 == 255 && (c 255).dies.length == 2,
      !(c 255).bit .sync 1 0 (ctrOff 4095) 8 && (c 255).bit .event 1 0 0 0,
      let m := (c 255).setBit .sync 1 0 (ctrOff 4095) 8;
        m.ctrVal 1 4095 == 255 && m.bit .sync 1 0 (ctrOff 4095) 8] : List Bool) id = true := by
  decide +kernel

theorem witness_WaitsAreServedInOrder : List.all (
     let c (v : Nat) : Mach := (upM.putReg .sync 1 0 0 1).setCtr 1 4095 v
     let w : Mach := (c 2).setWaits 1 4095 [⟨.fw, 3⟩]
     [
      !(c 254).syncHeld 1 && (c 254).bit .sync 1 0 0 0 && (c 254).waitsOf 1 4095 == [] && (c 254).ctrVal 1 4095 == 254,
      w.waitsOf 1 4095 == [⟨.fw, 3⟩] && w.ctrVal 1 4095 == 2,
      (c 3).waitsOf 1 4095 == [] && (c 3).ctrVal 1 4095 == 3 && upM.dies.length == 2] : List Bool) id = true := by
  decide +kernel

theorem witness_MemoryCode : List.all (
     let d := zeroBytes 16
     let one := flipData d 31 0x8
     let two := flipData d 0 1
     let m (hit : Bytes) (check : BitVec 16) : Mach := { upM with mem := cellsOf 32 hit, chk := [(32, check ^^^ checkBits hit)] }
     [
      d.length == 16 && memBytes (m one (checkBits d)).mem 32 16 == one && 32 % 16 == 0,
      let c := checkBits d ^^^ (0x3 : Gf).setWidth 16 <<< 12;
        memBytes (m two c).mem 32 16 == two && (m two c).chk == [(32, checkBits d ^^^ 0 ^^^ (0x3 : Gf).setWidth 16 <<< (4 * (35 - 32)) ^^^ checkBits two)]] : List Bool) id = true := by
  decide +kernel

theorem witness_DmaStoresItsBytesAndNoOthers : List.all (
     let t := tens 1 .fp32 32 1
     let m : Mach := { upM with tensors := [t] }
     [
      m.chk == [] && m.tensor? 0 1 == some t && !(t.mark (refTile t.desc (ref 1))).stringer] : List Bool) id = true := by
  decide +kernel

theorem witness_WordsAndFrames : List.all (
     let q : OapReq := req (st upM) 2 0x3001 1 (toLe 2 700)
     let d := desc 1 .q4 32 1
     [
      0x7FC00000 / 2 ^ 23 % 256 == 255 && 0x7FC00000 % 2 ^ 23 != 0 && 0x3F800000 / 2 ^ 23 % 256 != 255,
      d.fits && q.op < 256 && q.index < 65536 && q.length == q.rq.data.length] : List Bool) id = true := by
  decide +kernel

theorem witness_RequestsAreCheckedInOrder : List.all (
     let s (m : Mach) : State := st m
     let q (op i sub : Nat) (data : Bytes) : OapReq := req (s upM) op i sub data
     let row (i sub : Nat) (f : DictRow → Bool) : Bool := ((s upM).entryRow i sub).any f
     let typed (q : OapReq) (f : OapReq → Bool) : Bool := row q.index q.sub fun r => r.acc != .ro && q.rq.typ.toNat == r.typ.code && f q
     let whole (q : OapReq) : Bool := row q.index q.sub fun r => q.rq.offset == 0 && fld q.rq.flags.toNat 1 0 == 3 && r.typ.size == some q.rq.data.length
     let ok (q : OapReq) : Bool := row q.index q.sub fun r => upM.rangeOk r q.index q.sub q.rq.data
     let token : Mach := upM.dset 0x9010 1 8
     let work : Mach := runM .general .general [mkOp .sync [1] 0] []
     [
      (q 9 0x3001 1 []).framed && !{ q 1 0x3001 1 [] with status := 1 }.framed,
      (q 1 0x3001 1 []).framed && ((s upM).entryRow 0x3FFF 1).isNone && row 0x3006 1 fun r => r.acc == .wo,
      row 0x3001 2 fun r => r.acc == .ro,
      !token.mayWrite .host 0x3001 1 [] && upM.mayWrite .host 0x3001 1 [],
      row 0x3001 1 fun r => ({ (q 2 0x3001 1 []).rq with typ := 0 } : DictReq).typ.toNat != r.typ.code,
      typed (q 2 0x3001 1 [1]) fun q => !whole q,
      typed (q 2 0x3001 1 [1, 0]) fun q => whole q && !ok q,
      typed (q 2 0x2001 1 [2]) fun q => whole q && ok q && row 0x2001 1 (fun r => r.acc == .rwIdle) && !work.entryIdle 0x2001 q.rq.data,
      typed (q 2 0x2013 1 (toLe 4 4096)) fun q => whole q && ok q && upM.absent 0x2013] : List Bool) id = true := by
  decide +kernel

theorem witness_KeptResponsesAreRepeated : List.all (
     let q := req (st upM) 1 0x1001 1 []
     [
      (st upM).portOpen .host && ((upM.keep .host 0 q.bytes [1, 2]).kept.find? fun y => y.master == .host && y.tag == 0 && y.request == q.bytes).isSome] : List Bool) id = true := by
  decide +kernel

theorem witness_SlotSelectionAndAntiRollback : List.all (
     let f : Flash := { ctl := [⟨0, true, 2⟩, {}] }
     [
      0 < f.ctl.length && (f.boot 0).trial && 0 < (f.boot 0).left && !(f.boot 1).trial && 1 < f.ctl.length,
      decide (State.reset.v.stored.ar.seq ≤ State.reset.v.flash.ar.seq ∧ State.reset.v.stored.ar.svnMgmt ≤ State.reset.v.flash.ar.svnMgmt)
        && decide (State.reset.v.stored.ar.svnGaffer ≤ State.reset.v.flash.ar.svnGaffer ∧ State.reset.v.stored.ar.keyCount ≤ State.reset.v.flash.ar.keyCount)] : List Bool) id = true := by
  decide +kernel

theorem witness_StreamCommandsComplete_slotted : List.all (
     let tr : Mach := trainM .done
     let m : Mach := { tr with groups := [{ group .training with slotted := true }] }
     [
      m.takes hdr 0x28 (some 1) && ((m.fetched hdr 0x28).ctx 0).st == .done && ((m.fetched hdr 0x28).group? 0 1).any fun g => g.slotted] : List Bool) id = true := by
  decide +kernel

theorem witness_CommandCompleteEndsWork_waits : List.all (
     let slot0 : HostedSlot := ⟨5, 1, 2, [(0x100000, 4096)], 4096, 0⟩
     let cmd (k : Nat) (f : HostCmd → HostCmd) : Mach := { serving (bounded upM) with
       groups := [group .general], tensors := [tens 1 .fp32 32 32], hosted := [slot0]
       link := { upM.link with cmds := [f { ring := 0, tag := 7, kind := k, part := 0, signal := none }] } }
     let off (m : Mach) : Mach := m.putReg .memc 0 0 0 0
     let raw (c : HostCmd) : HostCmd := { c with off := 0x100000, len := 64, data := zeroBytes 64 }
     let slot := overlay (overlay (overlay (overlay (List.replicate 4096 0) 0 [1, 3]) 7 [1]) 32 (toLe 8 4096)) 64 (shake256 [] 32)
     let m : Mach := { cmd 0x2B fun c => { c with extra := [1, 0, 0, 0, 0], data := slot } with progs := [prog 1 .general [mkOp .opEnd [1] 0]] }
     let bd (m : Mach) : Mach := { m with ctxs := updAt m.ctxs 0 fun _ => { runCtx with st := .bound } }
     let ra := ((cmd 0x20 id).programRoom 0 64).getD 0
     [
      ((cmd 0x30 raw).hostCmd? 0 7).any fun c => (cmd 0x30 raw).hostServed 0 ((cmd 0x30 raw).dmaAddr c) 64
        && !(off (cmd 0x30 raw)).hostServed 0 ((cmd 0x30 raw).dmaAddr c) 64,
      !(cmd 0x20 id).hostServed 0 ra 64 && (match memUnitOf false ra with
        | some u => u.chan?.any fun c => ((cmd 0x20 id).putReg .memc c.die c.memc 0 1).hostServed 0 ra 64
        | none => false),
      (cmd 0x2A id).areaServed 0 (areaPart slot0.places 0 64) && !(off (cmd 0x2A id)).areaServed 0 (areaPart slot0.places 0 64),
      m.restoreServed 0 1 && (bd m).restoreServed 0 1] : List Bool) id = true := by
  decide +kernel

theorem witness_StreamControlCompletes_ends : List.all (
     let o := mkOp .copy [1, 2] 0
     let m (f : Flight) : Mach := (opM .gather .general .general o [tens 1 .fp32 32 1, tens 2 .fp32 32 1]).updCtx 0 fun x =>
       { x with pc := 1, flights := [f] }
     let fl (i : Option Inst) : Flight := { op := 0, inst := i, outs := [(2, 0)], writes := [], ready := true }
     let on : Mach := m (fl none)
     let off : Mach := (on.configStation (instOf .gather 0)).putReg .gather 0 0 0 0
     let broken : Mach := { m (fl (some (instOf .gather 0))) with badPar := [csrAddr 0 (slotOf .gather 0) 8] }
     [
      (fl none).outs.all (fun w => on.tileServed 0 w.1 w.2) && on.gemmEnds 0 0 && (fl none).ready,
      on.endsOn 0 (fl none) == some (some (instOf .gather 0)) && ((some (instOf .gather 0)).filter on.withholds).isNone,
      off.endsOn 0 (fl none) == none && (fl none).outs.all (fun w => off.tileServed 0 w.1 w.2),
      broken.endsOn 0 (fl (some (instOf .gather 0))) == some (some (instOf .gather 0)) && ((some (instOf .gather 0)).filter broken.withholds).isSome] : List Bool) id = true := by
  decide +kernel

theorem witness_StepEventsComplete_more : List.all (
     let k : Ckpt := { part := 0, slot := 1, step := 4, group := 1, clean := some 9 }
     let ck : Mach := { upM with ckpts := [k], claims := [{ part := 0, module := upM.modNum, bpart := 0, size := 4096 }] }
     let o := mkOp .update [1, 2, 5] 0
     let fl : Flight := { op := 0, inst := some (instOf .lehr 0), outs := [], writes := [], ready := false, jwait := true }
     let jw : Mach := (opM .lehr .training .update o [tens 1 .fp32 32 1, tens 2 .fp32 32 1, tens 3 .fp32 32 1, tens 4 .fp32 32 1, tens 5 .q4 32 1]).updCtx 0 fun x => { x with flights := [fl] }
     [
      (ck.ckpts.find? fun c => c.part == 0) == some k && k.clean == some 9 && ck.claims.any fun b => !({ ck with ckpts := [] } : Mach).buddyLost 0 b,
      (jw.updateFetch o 0).2.2.isNone && ((bad jw 2).updateFetch o 0).2.2.isSome] : List Bool) id = true := by
  decide +kernel

theorem witness_PacketsAreTaken_full : List.all (
     let m : Mach := ({ upM with ports := upM.ports.map fun p => { p with st := .up, lanes := 4 } } : Mach).dset 0x5001 2 5
     let h : PktHdr := ⟨0x10, 5, 9, 0, 0, 0, 0, 0, false⟩
     let r : Packet := ⟨ptReadReq, { h with offset := 0x100000 }, none, [0, 0x40] ++ zeroBytes 30 ++ toLe 4 64⟩
     [
      ((bounded m).takePacket 0 (some 0) r (m.rxFlow h)).isNone,
      ((serving (bounded m)).takePacket 0 (some 0) r (m.rxFlow h)).isSome] : List Bool) id = true := by
  decide +kernel

theorem witness_MemoryServiceCompletes_more : List.all (
     let c : Chan := ⟨true, 1, 31⟩
     let s0 : Mach := upM.putReg .memc 0 0 0 3
     let a := 1099511627791 / 16 * 16
     let st : Mach := upM.updChan c fun x => { x with state := 1 }
     [
      s0.memUp 16 16 && (s0.upset 16 [(31, 15)]).memUp 16 16,
      (memUnitOf upM.fineMode a).any fun u => u.chan?.any fun c =>
        let m := upM.putReg .memc c.die c.memc 0 3
        m.memUp a 16 && m.bit .memc c.die c.memc 0 1,
      !(st.die 1).persistent.contains (160 + c.memc),
      (st.chan c).state == 1 && !st.chanHolds c && ((st.updDie 1 fun x => { x with persistent := [160 + c.memc] }).die 1).persistent.contains (160 + c.memc)] : List Bool) id = true := by
  decide +kernel

theorem witness_ParityAndResetRowsComplete_third : List.all (
     let at' (b : Blk) : Bool :=
       let sl := slotOf b 0
       let off := (configOffs b).headD 8
       let a := csrAddr 1 sl off
       let m : Mach := { upM.updDie 1 fun x => { x with parityFails := [(a, 0), (a, 0)] } with badPar := [a] }
       let m1 := m.updDie 1 fun x => { x with parityFails := (a, m.power.aoMs) :: x.parityFails.filter fun q => m.power.aoMs < q.2 + 1000 }
       m.csrUp 1 sl && blockAt 1 sl == some (b, 0) && (lockBits b).any (fun q => q.2.isSome) && m.parityBad 1 sl == some off
         && 3 ≤ ((m1.die 1).parityFails.countP fun q => q.1 == a) && (b != .bench || !m.holdsRow 32)
     [
      at' .memc && (blkInst .memc 1 0).isNone, [Blk.sync, .event].all (fun b => at' b && (blkInst b 1 0).isNone),
      at' .bench && blkInst .bench 1 0 == some ⟨.bench, 1, 0⟩] : List Bool) id = true := by
  decide +kernel

theorem witness_ConfigurationWritesComplete_restricted : List.all (
     let w (m : Mach) (i sub : Nat) (data : Bytes) (rule : Mach → Bytes → Bool) : Bool := granted (st m) i sub data fun s bs => rule s.m bs
     let held : Mach := { upM with restricted := 3 }
     let chan (m : Mach) : Mach := m.dset 0x6010 1 0x801F
     let no (m : Mach) (_ : Bytes) : Bool := m.restricted != 0
     let yes (m : Mach) (_ : Bytes) : Bool := m.restricted == 0
     let c : Chan := ⟨true, 0, 31⟩
     [
      [1, 2, 3, 4].all (fun k => w (chan held) 0x6010 2 [k] no) && [1, 2, 3, 4].all (fun k => w (chan upM) 0x6010 2 [k] fun m _ =>
        m.restricted == 0 && svcChan (m.dnum 0x6010 1) == some c && !m.svcBusy c),
      w held 0x7010 5 [1] no && w held 0x7010 5 [2] no && w (upM.dset 0x7010 6 2) 0x7010 5 [1] fun m _ => m.dnum 0x7010 6 == 2,
      w held 0x7002 2 (toLe 2 0x1000) no && w upM 0x7010 5 [1] yes && w upM 0x7010 5 [2] fun m _ => m.restricted == 0 && m.allIdle,
      w (upM.setFenced [0x1000]) 0x7002 2 (toLe 2 0x1000) fun m bs => m.restricted == 0 && (m.unfenceInst (ofLe bs)).isSome] : List Bool) id = true := by
  decide +kernel

/-- A write that waits for the flash, in a machine without the write inhibit: the confirmation of a trial. -/
theorem witness_SecurityAndResetWritesComplete_flash : List.all (
     let base := st upM
     let s : State := { base with v := { base.v with
       flash := { base.v.flash with slots := List.replicate 4 ⟨[], 1⟩, ctl := updAt base.v.flash.ctl 0 fun _ => ⟨0, true, 2⟩ }
       running := [some 1, some 0, some 0] } }
     [
      granted s 0x8003 2 [1] fun s bs => ofLe bs == 1 && s.trialRuns 0 && !s.m.power.nvInhibit && waitsForFlash 0x8003 2 && s.m.nvStatus == osOk] : List Bool) id = true := by
  decide +kernel

theorem witness_SupplyEventsComplete_release : List.all (
     let m (b : Option BootObs) : Mach := { State.reset.m with power := { State.reset.m.power with resetLow := true, supplied := b } }
     [
      (m (some bootObs)).power.resetLow && (m (some bootObs)).power.boot == none && (m (some bootObs)).power.supplied == some bootObs,
      (m none).power.resetLow && !(m none).power.overvolt && (m none).power.boot == none && (m none).power.supplied == none] : List Bool) id = true := by
  decide +kernel

theorem witness_ClockWakeAndUpdateEventsComplete_more : List.all (
     let c : Chan := ⟨false, 1, 63⟩
     let m1 (m : Mach) : Mach := m.fwEvent evClockFault c.die (160 + c.memc) none (toLe 1 1 ++ toLe 2 (c.idx + 16384 * c.die + 32768 * c.lp.toNat))
     let st' (n : Nat) : Mach := upM.updChan c fun x => { x with state := n }
     let fine : Mach := upM.dset 0x6001 1 1
     let hot : Mach := upM.updDie 1 fun x => { x with up := false, heldBy := 8, hot := true }
     let re : State := { st { upM with mgmt := { restarting := true } } with v := { flash := { ctl := [⟨0, false, 1⟩, {}] } } }
     [
      c.ok && (upM.die 1).up && (m1 fine).fineMode && !(m1 upM).fineMode && ((m1 (st' 4)).chan c).state == 4,
      [0, 1, 2, 3].all fun n => ((m1 (st' n)).chan c).state == n,
      (hot.die 1).hot,
      re.m.mgmt.restarting && !(re.v.flash.boot 0).trial && !re.v.flash.slotOk 0 0 && !re.v.flash.slotOk 0 1] : List Bool) id = true := by
  decide +kernel

/-- A start of the management controller's image where the signature holds (log entry 5). -/
theorem witness_ClockWakeAndUpdateEventsComplete_image (h : ∀ k m s, Config.mldsaVerify k m s = true) :
    ({ slots := List.replicate 4 ⟨image, 1⟩ } : Flash).slotOk 0 0 = true := by
  have hi : ({ slots := List.replicate 4 ⟨image, 1⟩ } : Flash).imageOk 0 image = true := by
    simp only [Flash.imageOk, h, Bool.and_true]
    decide +kernel
  simpa [Flash.slotOk, Flash.slot] using hi

theorem witness_DoorbellsAndLinkControlComplete_drained : List.all (
     let rec' : Bytes := List.replicate 16 0 ++ [4, 15, 0, 2] ++ List.replicate 12 0
     let m : Mach := upM.dictPut 0x9121 1 rec'
     [
      leAt (m.ringRec 1) 19 1 == 2 && (m.ring 1).held == [] && m.link.cmds.all fun c => c.ring != 1] : List Bool) id = true := by
  decide +kernel

theorem witness_RequestsAreCheckedInOrder_segment : List.all (
     let q := req (st upM) 2 0x8002 1 (List.replicate (segLimit .host + 1) 0)
     [
      q.framed && segLimit .host < q.length && upM.mayWrite .host 0x8002 1 q.rq.data
        && ((st upM).entryRow 0x8002 1).any fun r => r.acc != .ro && r.typ.size == none && q.rq.typ.toNat == r.typ.code] : List Bool) id = true := by
  decide +kernel

theorem witness_KeptResponsesAreRepeated_broadcast : List.all (
     let q := req (st upM) 1 0x1001 1 []
     let b : OapReq := { q with rq := { q.rq with master := .mgmt, bcast := true } }
     [
      (st { upM with mgmt := { nodeId := 4 } }).portOpen .mgmt && b.framed && ((upM.keep .mgmt 0 b.bytes [1]).kept.find? fun y => y.master == .mgmt && y.tag == 0 && y.request == b.bytes).isSome] : List Bool) id = true := by
  decide +kernel

theorem witness_Memory_noParityFailure : List.all (
     [
      upM.shaky == [] && upM.shakyIn 32 16 == []] : List Bool) id = true := by
  decide +kernel

end Sys2Proof.Tests
end

section
/-! Conversion to BF16 (R77): the bit fields that the conversion tests, as numbers, then what it answers for a NaN and for
every other value. -/

namespace Sys2Proof

open Machine

/-! ### The fields of an FP32 value -/

/-- A mask of `k` ones from bit `j` keeps the field that stands there. -/
theorem and_shiftedMask (n k j : Nat) : n &&& ((2 ^ k - 1) <<< j) = (n / 2 ^ j % 2 ^ k) <<< j := by
  apply Nat.eq_of_testBit_eq
  intro i
  by_cases hi : j ≤ i
  · simp [hi, Nat.testBit_div_two_pow, Nat.testBit_mod_two_pow, Bool.and_comm]
  · simp [hi]

theorem exponentMask_toNat (f : Word) : (f &&& 0x7F800000#32).toNat = f.toNat / 2 ^ 23 % 2 ^ 8 * 2 ^ 23 := by
  rw [BitVec.toNat_and, ← Nat.shiftLeft_eq]
  exact and_shiftedMask f.toNat 8 23

theorem fractionMask_toNat (f : Word) : (f &&& 0x007FFFFF#32).toNat = f.toNat % 2 ^ 23 := by
  rw [BitVec.toNat_and]
  exact Nat.and_two_pow_sub_one_eq_mod f.toNat 23

theorem lowBit_toNat (f : Word) : (f &&& 1#32).toNat = f.toNat % 2 := by
  rw [BitVec.toNat_and]
  exact Nat.and_two_pow_sub_one_eq_mod f.toNat 1

/-- The upper half, as a BF16 value. -/
theorem upperHalf_toNat (f : Word) : ((f >>> 16).setWidth 16).toNat = f.toNat / 2 ^ 16 := by
  rw [BitVec.toNat_setWidth, BitVec.toNat_ushiftRight, Nat.shiftRight_eq_div_pow]
  omega

theorem exponentMask_full_iff (f : Word) :
    f &&& 0x7F800000#32 = 0x7F800000#32 ↔ f.toNat / 2 ^ 23 % 256 = 255 := by
  rw [← BitVec.toNat_inj, exponentMask_toNat, BitVec.toNat_ofNat]
  omega

theorem fractionMask_eq_zero_iff (f : Word) : f &&& 0x007FFFFF#32 = 0 ↔ f.toNat % 2 ^ 23 = 0 := by
  rw [← BitVec.toNat_inj, fractionMask_toNat]
  rfl

/-- R77's test for a NaN: the exponent is all ones and the fraction is not zero. -/
theorem nanMasks_iff (f : Word) :
    (f &&& 0x7F800000#32 = 0x7F800000#32 ∧ f &&& 0x007FFFFF#32 ≠ 0)
      ↔ (f.toNat / 2 ^ 23 % 256 = 255 ∧ f.toNat % 2 ^ 23 ≠ 0) :=
  and_congr (exponentMask_full_iff f) (fractionMask_eq_zero_iff f).not

/-! ### The conversion -/

theorem toBf16_toNat_of_nan {f : Word} (h : f.toNat / 2 ^ 23 % 256 = 255 ∧ f.toNat % 2 ^ 23 ≠ 0) :
    (toBf16 f).toNat = f.toNat / 2 ^ 16 ||| 0x0040 := by
  rw [toBf16, if_pos ((nanMasks_iff f).mpr h), BitVec.toNat_or, upperHalf_toNat]
  rfl

theorem toBf16_toNat_of_not_nan {f : Word} (h : ¬ (f.toNat / 2 ^ 23 % 256 = 255 ∧ f.toNat % 2 ^ 23 ≠ 0)) :
    (toBf16 f).toNat = (f.toNat + 0x7FFF + f.toNat / 2 ^ 16 % 2) % 2 ^ 32 / 2 ^ 16 := by
  have hlsb : (f >>> 16 &&& 1#32).toNat = f.toNat / 2 ^ 16 % 2 := by
    rw [lowBit_toNat, BitVec.toNat_ushiftRight, Nat.shiftRight_eq_div_pow]
  rw [toBf16, if_neg (mt (nanMasks_iff f).mp h), upperHalf_toNat, BitVec.toNat_add, BitVec.toNat_add, hlsb,
    BitVec.toNat_ofNat, Nat.mod_add_mod]

/-- Settles O52: `toBf16` takes one branch for a NaN and the other for every other value. -/
theorem bf16ConversionRule : Obligations.Bf16ConversionRule :=
  fun _ => ⟨toBf16_toNat_of_nan, toBf16_toNat_of_not_nan⟩

end Sys2Proof
end

section
/-! The encoder of the symbol code (R256): where the check symbols stand in the check bits, what each of them contributes to the
syndrome, and why the syndrome of a written codeword vanishes. -/

namespace Sys2Proof

open Machine

/-! ### Products with the entries of the check columns -/

@[simp] theorem gfMul_zero (a : Gf) : gfMul a 0#4 = 0#4 := by
  simp [gfMul]

@[simp] theorem gfMul_one (a : Gf) : gfMul a 1#4 = a := by
  simp [gfMul]

/-- The rule writes λ on the left of a product, a column on its right. -/
theorem gfMul_gfLambda (a : Gf) : gfMul a gfLambda = gfMul gfLambda a := by
  revert a
  decide

/-! ### Symbols in the check bits (R254) -/

/-- A symbol at place `j` of the check bits. -/
def placeSym (a : Gf) (j : Nat) : BitVec 16 := a.setWidth 16 <<< (4 * j)

/-- A placed symbol is read at its own place, and at every other place nothing of it is. -/
theorem checkSym_placeSym (a : Gf) {j : Nat} (hj : j < 4) (k : Nat) :
    checkSym (placeSym a j) k = if j = k then a else 0 := by
  ext i hi
  rcases lt_trichotomy j k with h | rfl | h
  · have hout : 4 ≤ 4 * k + i - 4 * j := by omega
    simp [checkSym, placeSym, h.ne, BitVec.getLsbD_of_ge _ _ hout]
  · have hin : 4 * j + i < 16 := by omega
    simp [checkSym, placeSym, hi, hin]
  · have hlow : 4 * k + i < 4 * j := by omega
    simp [checkSym, placeSym, h.ne', hlow]

theorem checkSym_or (b c : BitVec 16) (k : Nat) : checkSym (b ||| c) k = checkSym b k ||| checkSym c k := by
  simp [checkSym, BitVec.ushiftRight_or_distrib, BitVec.setWidth_or]

/-- The encoder places T, R, Q and P at 3, 2, 1 and 0. -/
theorem checkBits_eq_placeSym (d : Bytes) :
    checkBits d = placeSym (sigma d).s3 3 ||| placeSym (sigma d).s2 2
      ||| placeSym ((sigma d).s0 ^^^ (sigma d).s2 ^^^ (sigma d).s3) 1
      ||| placeSym ((sigma d).s1 ^^^ (sigma d).s2 ^^^ gfMul gfLambda (sigma d).s3) 0 := by
  simp [checkBits, placeSym]

/-- R256's four check symbols, as the encoder writes them. -/
theorem checkSym_checkBits (d : Bytes) :
    checkSym (checkBits d) 0 = (sigma d).s1 ^^^ (sigma d).s2 ^^^ gfMul gfLambda (sigma d).s3
    ∧ checkSym (checkBits d) 1 = (sigma d).s0 ^^^ (sigma d).s2 ^^^ (sigma d).s3
    ∧ checkSym (checkBits d) 2 = (sigma d).s2
    ∧ checkSym (checkBits d) 3 = (sigma d).s3 := by
  simp [checkBits_eq_placeSym, checkSym_or, checkSym_placeSym]

/-! ### The syndrome -/

/-- The columns of P, Q, R and T are (0, 1, 0, 0), (1, 0, 0, 0), (1, 1, 1, 0) and (1, λ, 0, 1) (R255). -/
theorem checkSyn_eq (c : BitVec 16) :
    checkSyn c =
      ⟨checkSym c 1 ^^^ checkSym c 2 ^^^ checkSym c 3,
       checkSym c 0 ^^^ checkSym c 2 ^^^ gfMul gfLambda (checkSym c 3),
       checkSym c 2, checkSym c 3⟩ := by
  have hP : symColumn 32 = ⟨0, 1, 0, 0⟩ := rfl
  have hQ : symColumn 33 = ⟨1, 0, 0, 0⟩ := by decide
  have hR : symColumn 34 = ⟨1, 1, 1, 0⟩ := by decide
  have hT : symColumn 35 = ⟨1, gfLambda, 0, 1⟩ := by decide
  simp [checkSyn, hP, hQ, hR, hT, Syn.smul, Syn.xor, gfMul_gfLambda, BitVec.xor_assoc]

theorem xor_pair_cancel (a b c : Gf) : a ^^^ b ^^^ c ^^^ b ^^^ c = a := by
  rw [BitVec.xor_assoc (a ^^^ b ^^^ c), BitVec.xor_assoc a, BitVec.xor_assoc a, BitVec.xor_self, BitVec.xor_zero]

/-- The check symbols contribute σ itself: R and T cancel out of P and Q. -/
theorem checkSyn_checkBits (d : Bytes) : checkSyn (checkBits d) = sigma d := by
  obtain ⟨hP, hQ, hR, hT⟩ := checkSym_checkBits d
  rw [checkSyn_eq, hP, hQ, hR, hT, xor_pair_cancel, xor_pair_cancel]

theorem Machine.Syn.xor_self (a : Syn) : a.xor a = Syn.zero := by
  simp [Syn.xor, Syn.zero]

theorem syndrome_checkBits (d : Bytes) : syndrome d (checkBits d) = Syn.zero := by
  rw [syndrome, checkSyn_checkBits, Syn.xor_self]

/-- Settles O48: the check symbols are read back from their places, and their contribution to the syndrome is σ, which cancels
the data's. -/
theorem writtenCodewordsHaveSyndromeZero : Obligations.WrittenCodewordsHaveSyndromeZero := by
  intro d _
  obtain ⟨hP, hQ, hR, hT⟩ := checkSym_checkBits d
  exact ⟨rfl, hP, hQ, hR, hT, syndrome_checkBits d⟩

end Sys2Proof
end

section
/-! Little-endian fields (R3) and the completion entry (R458): a number of `n` bytes that stands in a string is read back from its
place, modulo 2^(8n), and the fields before it are skipped. -/

namespace Sys2Proof

open Machine

/-! ### Numbers as bytes -/

@[simp] theorem length_toLe (n v : Nat) : (toLe n v).length = n := by
  induction n generalizing v with
  | zero => rfl
  | succ n ih => simp [toLe, ih]

theorem ofLe_toLe (n v : Nat) : ofLe (toLe n v) = v % 2 ^ (8 * n) := by
  induction n generalizing v with
  | zero => simp [toLe, ofLe, Nat.mod_one]
  | succ n ih =>
    rw [toLe, ofLe, ih, BitVec.toNat_ofNat, Nat.mul_succ, Nat.add_comm (8 * n), Nat.pow_add]
    exact Nat.mod_mul.symm

theorem zeroBytes_eq_toLe (n : Nat) : zeroBytes n = toLe n 0 := by
  induction n with
  | zero => rfl
  | succ n ih => rw [toLe, Nat.zero_div, ← ih]; rfl

/-! ### Fields of a byte string -/

theorem fitBytes_length_append (xs ys : Bytes) : fitBytes xs.length (xs ++ ys) = xs := by
  simp [fitBytes, zeroBytes]

/-- Reading behind the first part of a string reads the rest. -/
theorem leAt_append_of_le {xs : Bytes} {o : Nat} (h : xs.length ≤ o) (ys : Bytes) (n : Nat) :
    leAt (xs ++ ys) o n = leAt ys (o - xs.length) n := by
  rw [leAt, subBytes, List.drop_append, List.drop_of_length_le h, List.nil_append, leAt, subBytes]

theorem leAt_toLe_append (n v : Nat) (ys : Bytes) : leAt (toLe n v ++ ys) 0 n = v % 2 ^ (8 * n) := by
  have hfit := fitBytes_length_append (toLe n v) ys
  rw [length_toLe] at hfit
  rw [leAt, subBytes, List.drop_zero, hfit, ofLe_toLe]

theorem leAt_toLe (n v : Nat) : leAt (toLe n v) 0 n = v % 2 ^ (8 * n) := by
  simpa using leAt_toLe_append n v []

/-! ### The completion entry (R458) -/

/-- The entry as its seven fields, the reserved byte a number like the others. -/
theorem completionBytes_eq (ring status head result : Nat) (tag : Half) (phase : Bool) :
    completionBytes ring tag status head phase result =
      toLe 2 tag.toNat ++ (toLe 1 ring ++ (toLe 1 status ++ (toLe 2 head ++
        (toLe 1 phase.toNat ++ (toLe 1 0 ++ toLe 8 result))))) := by
  simp [completionBytes, zeroBytes_eq_toLe]

/-- Settles O53: each field is reached by skipping those before it and holds its number modulo its width; a tag and a phase bit
fit theirs. -/
theorem completionEntryLayout : Obligations.CompletionEntryLayout := by
  intro ring status head result tag phase
  have htag : tag.toNat % 2 ^ 16 = tag.toNat := Nat.mod_eq_of_lt tag.isLt
  have hphase : phase.toNat % 2 ^ 8 = phase.toNat := Nat.mod_eq_of_lt (phase.toNat_lt.trans (by decide))
  rw [completionBytes_eq]
  refine ⟨?length, ?tagField, ?ringField, ?statusField, ?headField, ?phaseField, ?reservedField, ?resultField⟩
  case length => simp
  case tagField => rw [leAt_toLe_append, htag]
  case phaseField => simpa [leAt_append_of_le, leAt_toLe_append] using hphase
  case resultField => simp [leAt_append_of_le, leAt_toLe]
  case ringField | statusField | headField | reservedField => simp [leAt_append_of_le, leAt_toLe_append]

end Sys2Proof
end

section
/-! Sparse maps and registers: what is read at a key after a key is set or removed, and at a register after a register is
written, counted or has a bit set. -/

namespace Sys2Proof

open Machine

/-! ### Sparse maps -/

@[simp] theorem mapGet_mapSet_same {α : Type} (l : List (Nat × α)) (k : Nat) (v : α) : mapGet (mapSet l k v) k = some v := by
  induction l with
  | nil => simp [mapSet, mapGet]
  | cons q l ih =>
    simp only [mapSet]
    split
    · simp [mapGet]
    · split
      · simp [mapGet]
      · next hne => simp [mapGet, hne, ih]

theorem mapGet_mapSet_ne {α : Type} (l : List (Nat × α)) {k j : Nat} (v : α) (h : j ≠ k) :
    mapGet (mapSet l k v) j = mapGet l j := by
  induction l with
  | nil => simp [mapSet, mapGet, h.symm]
  | cons q l ih =>
    simp only [mapSet]
    split
    · simp [mapGet, h.symm]
    · split
      · next hk => simp [mapGet, hk, h.symm]
      · simp [mapGet, ih]

@[simp] theorem mapGet_mapDel_same {α : Type} (l : List (Nat × α)) (k : Nat) : mapGet (mapDel l k) k = none := by
  induction l with
  | nil => rfl
  | cons q l ih =>
    by_cases hq : q.1 = k
    · simpa [mapDel, hq] using ih
    · simpa [mapDel, hq, mapGet] using ih

theorem mapGet_mapDel_ne {α : Type} (l : List (Nat × α)) {k j : Nat} (h : j ≠ k) : mapGet (mapDel l k) j = mapGet l j := by
  induction l with
  | nil => rfl
  | cons q l ih =>
    by_cases hq : q.1 = k
    · simpa [mapDel, hq, mapGet, h.symm] using ih
    · by_cases hj : q.1 = j
      · simp [mapDel, mapGet, hj, h]
      · simpa [mapDel, hq, mapGet, hj] using ih

/-! ### Addresses of registers (R365, R366) -/

/-- Registers whose offsets differ within a slot's window have different addresses. -/
theorem regAddr_ne_of_off {b c : Blk} {d e i j o p : Nat} (ho : o < 0x20000) (hp : p < 0x20000) (h : o ≠ p) :
    regAddr b d i o ≠ regAddr c e j p := by
  unfold regAddr csrAddr csrBase
  omega

theorem regAddr_ne_of_slot {b c : Blk} {d e i j o p : Nat} (ho : o < 0x20000) (hp : p < 0x20000)
    (hs : slotOf b i < 512) (ht : slotOf c j < 512) (h : (d, slotOf b i) ≠ (e, slotOf c j)) :
    regAddr b d i o ≠ regAddr c e j p := by
  unfold regAddr csrAddr csrBase
  intro heq
  apply h
  rw [Prod.mk.injEq]
  omega

/-- Registers of the two dies have different addresses. -/
theorem regAddr_ne_of_die {b c : Blk} {d e i j o p : Nat} (ho : o < 0x20000) (hp : p < 0x20000)
    (hs : slotOf b i < 512) (ht : slotOf c j < 512) (h : d ≠ e) : regAddr b d i o ≠ regAddr c e j p :=
  regAddr_ne_of_slot ho hp hs ht fun hq => h (congrArg Prod.fst hq)

/-! ### Stored values -/

@[simp] theorem csrAt_csrPut_same (m : Mach) (a v : Nat) : (m.csrPut a v).csrAt a = v := by
  unfold Mach.csrAt Mach.csrPut mapGetD
  by_cases h : v = csrResetAt a <;> simp [h]

theorem csrAt_csrPut_ne (m : Mach) {a c : Nat} (v : Nat) (h : c ≠ a) : (m.csrPut a v).csrAt c = m.csrAt c := by
  unfold Mach.csrAt Mach.csrPut mapGetD
  by_cases hv : v = csrResetAt a
  · simp [hv, mapGet_mapDel_ne _ h]
  · simp [hv, mapGet_mapSet_ne _ _ h]

@[simp] theorem reg_putReg_same (m : Mach) (b : Blk) (d i off v : Nat) : (m.putReg b d i off v).reg b d i off = v :=
  csrAt_csrPut_same ..

theorem csrAt_putReg_ne (m : Mach) {b : Blk} {d i off c : Nat} (v : Nat) (h : c ≠ regAddr b d i off) :
    (m.putReg b d i off v).csrAt c = m.csrAt c :=
  csrAt_csrPut_ne m v h

/-- A count leaves the registers at other addresses. -/
theorem csrAt_count_ne (m : Mach) {b : Blk} {d i off n c : Nat} (h : c ≠ regAddr b d i off) :
    (m.count b d i off n).csrAt c = m.csrAt c := by
  unfold Mach.count Mach.countAny Mach.csrAt mapGetD
  by_cases hn : n = 0
  · simp [hn]
  · simp [hn, mapGet_mapSet_ne _ _ h]

theorem reg_count_one (m : Mach) (b : Blk) (d i off : Nat) :
    (m.count b d i off 1).reg b d i off = min 0xFFFFFFFF (m.reg b d i off + 1) := by
  simp [Mach.count, Mach.countAny, Mach.reg, Mach.csrAt, mapGetD, satAdd]

theorem csrAt_setBit_ne (m : Mach) {b : Blk} {d i off k c : Nat} (h : c ≠ regAddr b d i off) :
    (m.setBit b d i off k).csrAt c = m.csrAt c :=
  csrAt_putReg_ne m _ h

theorem csrAt_clrBit_ne (m : Mach) {b : Blk} {d i off k c : Nat} (h : c ≠ regAddr b d i off) :
    (m.clrBit b d i off k).csrAt c = m.csrAt c :=
  csrAt_putReg_ne m _ h

/-- The bits of a value with a field replaced (R2). -/
theorem bitAt_setFld (v lo x k : Nat) {hi : Nat} (h : lo ≤ hi) :
    bitAt (setFld v hi lo x) k = if lo ≤ k ∧ k ≤ hi then bitAt x (k - lo) else bitAt v k := by
  have hdecomp : setFld v hi lo x
      = 2 ^ (hi + 1) * (v >>> (hi + 1)) + (2 ^ lo * (x % 2 ^ (hi + 1 - lo)) + v % 2 ^ lo) := by
    simp only [setFld, Nat.shiftLeft_eq]
    ring
  have hlow : v % 2 ^ lo < 2 ^ lo := Nat.mod_lt _ (by positivity)
  have hmid : 2 ^ lo * (x % 2 ^ (hi + 1 - lo)) + v % 2 ^ lo < 2 ^ (hi + 1) := by
    have hx : x % 2 ^ (hi + 1 - lo) + 1 ≤ 2 ^ (hi + 1 - lo) := Nat.mod_lt _ (by positivity)
    calc 2 ^ lo * (x % 2 ^ (hi + 1 - lo)) + v % 2 ^ lo
        < 2 ^ lo * (x % 2 ^ (hi + 1 - lo) + 1) := by rw [Nat.mul_add]; omega
      _ ≤ 2 ^ lo * 2 ^ (hi + 1 - lo) := Nat.mul_le_mul_left _ hx
      _ = 2 ^ (hi + 1) := by rw [← pow_add]; congr 1; omega
  unfold bitAt
  rw [hdecomp, Nat.testBit_two_pow_mul_add _ hmid, Nat.testBit_two_pow_mul_add _ hlow]
  by_cases hk : k < hi + 1
  · by_cases hl : k < lo
    · have : ¬ lo ≤ k := by omega
      simp [hk, hl, Nat.testBit_mod_two_pow, this]
    · have h1 : lo ≤ k ∧ k ≤ hi := by omega
      have h2 : k - lo < hi + 1 - lo := by omega
      simp [hk, hl, h1, h2, Nat.testBit_mod_two_pow]
  · have h1 : ¬ (lo ≤ k ∧ k ≤ hi) := by omega
    have h2 : hi + 1 + (k - (hi + 1)) = k := by omega
    simp [hk, h1, Nat.testBit_shiftRight, h2]

@[simp] theorem bit_setBit_same (m : Mach) (b : Blk) (d i off k : Nat) : (m.setBit b d i off k).bit b d i off k = true := by
  rw [Mach.bit, Mach.setBit, reg_putReg_same, bitAt_setFld _ _ _ _ le_rfl]
  simp [bitAt]

theorem bit_setBit_ne (m : Mach) {b : Blk} {d i off k j : Nat} (h : j ≠ k) :
    (m.setBit b d i off k).bit b d i off j = m.bit b d i off j := by
  have : ¬ (k ≤ j ∧ j ≤ k) := by omega
  rw [Mach.bit, Mach.setBit, reg_putReg_same, bitAt_setFld _ _ _ _ le_rfl, if_neg this, Mach.bit]

end Sys2Proof
end

section
/-! The decoder of the symbol code (R255 to R257). The syndrome is linear, so an error in a symbol adds a multiple of the symbol's
column. All columns lie on the quadric S0·S1 = quad(S2, S3), and so does every syndrome that the decoder takes for a good word or
corrects; the sum of multiples of two different columns never does, so two errors are always seen. -/

namespace Sys2Proof

open Machine

/-! ### Products in GF(16) -/

theorem gfMul_xor (a b c : Gf) : gfMul (a ^^^ b) c = gfMul a c ^^^ gfMul b c := by
  revert a b c
  decide +kernel

theorem gfMul_comm (a b : Gf) : gfMul a b = gfMul b a := by
  revert a b
  decide +kernel

theorem gfMul_assoc (a b c : Gf) : gfMul (gfMul a b) c = gfMul a (gfMul b c) := by
  revert a b c
  decide +kernel

theorem xor_gfMul (a b c : Gf) : gfMul a (b ^^^ c) = gfMul a b ^^^ gfMul a c := by
  rw [gfMul_comm, gfMul_xor, gfMul_comm b, gfMul_comm c]

theorem gfMul_left_comm (a b c : Gf) : gfMul a (gfMul b c) = gfMul b (gfMul a c) := by
  rw [← gfMul_assoc, gfMul_comm a b, gfMul_assoc]

theorem gfInv_gfMul {a : Gf} (h : a ≠ 0) : gfMul (gfInv a) a = 1#4 := by
  revert a
  decide

theorem gfMul_ne_zero {a b : Gf} (ha : a ≠ 0) (hb : b ≠ 0) : gfMul a b ≠ 0 := by
  revert a b
  decide

theorem xor_xor_cancel_left (a b : Gf) : a ^^^ (a ^^^ b) = b := by
  rw [← BitVec.xor_assoc, BitVec.xor_self, BitVec.zero_xor]

theorem xor_left_comm (a b c : Gf) : a ^^^ (b ^^^ c) = b ^^^ (a ^^^ c) := by
  rw [← BitVec.xor_assoc, BitVec.xor_comm a, BitVec.xor_assoc]

/-! ### The quadric of the columns -/

/-- The quadratic form that vanishes on the columns. -/
def quadric (y : Syn) : Gf := gfMul y.s0 y.s1 ^^^ quad y.s2 y.s3
/-- Its polar form. -/
def polar (a b : Syn) : Gf := gfMul a.s0 b.s1 ^^^ gfMul b.s0 a.s1 ^^^ (gfMul a.s2 b.s3 ^^^ gfMul b.s2 a.s3)

theorem quadric_xor (a b : Syn) : quadric (a.xor b) = quadric a ^^^ quadric b ^^^ polar a b := by
  simp only [quadric, polar, quad, Syn.xor, gfMul_xor, xor_gfMul, gfMul_comm b.s2 a.s2, gfMul_comm b.s3 a.s3,
    gfMul_comm b.s2 a.s3, BitVec.xor_assoc, BitVec.xor_comm, xor_left_comm, xor_xor_cancel_left]

theorem quadric_smul (c : Gf) (a : Syn) : quadric (a.smul c) = gfMul (gfMul c c) (quadric a) := by
  simp only [quadric, quad, Syn.smul, xor_gfMul, gfMul_left_comm, gfMul_comm]

theorem polar_smul (c e : Gf) (a b : Syn) : polar (a.smul c) (b.smul e) = gfMul (gfMul c e) (polar a b) := by
  simp only [polar, Syn.smul, xor_gfMul, gfMul_left_comm, gfMul_comm]

theorem quadric_column {i : Nat} (h : i < 36) : quadric (symColumn i) = 0 := by
  revert i
  decide

/-- No line through two columns touches the quadric: quad is anisotropic. -/
theorem polar_column_ne_zero {i j : Nat} (hi : i < 36) (hj : j < 36) (h : i ≠ j) :
    polar (symColumn i) (symColumn j) ≠ 0 := by
  have hall : ∀ i < 36, ∀ j < 36, i ≠ j → polar (symColumn i) (symColumn j) ≠ 0 := by decide +kernel
  exact hall i hi j hj h

/-- Errors in two symbols have a syndrome off the quadric. -/
theorem quadric_two_columns {i j : Nat} {e f : Gf} (hi : i < 36) (hj : j < 36) (h : i ≠ j) (he : e ≠ 0) (hf : f ≠ 0) :
    quadric (((symColumn i).smul e).xor ((symColumn j).smul f)) ≠ 0 := by
  rw [quadric_xor, quadric_smul, quadric_smul, polar_smul, quadric_column hi, quadric_column hj]
  simpa using gfMul_ne_zero (gfMul_ne_zero he hf) (polar_column_ne_zero hi hj h)

/-- A syndrome that scales to a point of the quadric with S0 = 1 lies on it. -/
theorem quadric_of_scaled {y : Syn} {k : Gf} (hk : gfMul k y.s0 = 1#4)
    (h : gfMul y.s1 k = quad (gfMul y.s2 k) (gfMul y.s3 k)) : quadric y = 0 := by
  have hk0 : k ≠ 0 := by
    rintro rfl
    simp [gfMul_comm 0#4] at hk
  have hscaled : quadric (y.smul k) = 0 := by
    simp [quadric, Syn.smul, hk, gfMul_comm 1#4, gfMul_comm k, h]
  rw [quadric_smul] at hscaled
  by_contra hy
  exact gfMul_ne_zero (gfMul_ne_zero hk0 hk0) hy hscaled

/-- A syndrome that the decoder corrects lies on the quadric. -/
theorem quadric_of_fix {y : Syn} {i : Nat} {e : Gf} (h : classify y = .fix i e) : quadric y = 0 := by
  unfold classify at h
  dsimp only at h
  split_ifs at h with hz hp h0 hu h2
  · exact quadric_of_scaled (gfInv_gfMul h0) hu
  · split at h <;> cases h
  · simp only [ne_eq, not_not] at h0
    simp [quadric, quad, h0, h2.1, h2.2, gfMul_comm 0#4]

/-- The decoder reports every syndrome off the quadric. -/
theorem reported_of_quadric {y : Syn} (h : quadric y ≠ 0) : classify y = .bad ∨ classify y = .poison := by
  cases hc : classify y with
  | bad => exact .inl rfl
  | poison => exact .inr rfl
  | fix i e => exact absurd (quadric_of_fix hc) h
  | clean =>
    have hy : y = Syn.zero := by
      unfold classify at hc
      dsimp only at hc
      split_ifs at hc with hz
      · exact hz
      all_goals split at hc <;> cases hc
    exact absurd (by rw [hy]; decide) h

/-- A multiple of a column names its symbol and the factor. -/
theorem classify_column {i : Nat} {e : Gf} (hi : i < 36) (he : e ≠ 0) : classify ((symColumn i).smul e) = .fix i e := by
  have hall : ∀ i < 36, ∀ e : Gf, e ≠ 0 → classify ((symColumn i).smul e) = .fix i e := by decide +kernel
  exact hall i hi e he

/-! ### The syndrome is linear -/

theorem Machine.Syn.xor_assoc (a b c : Syn) : (a.xor b).xor c = a.xor (b.xor c) := by
  simp [Syn.xor, BitVec.xor_assoc]

theorem Machine.Syn.xor_comm (a b : Syn) : a.xor b = b.xor a := by
  simp [Syn.xor, BitVec.xor_comm]

theorem Machine.Syn.zero_xor (a : Syn) : Syn.zero.xor a = a := by
  simp [Syn.xor, Syn.zero]

theorem Machine.Syn.smul_xor (a b : Gf) (y : Syn) : y.smul (a ^^^ b) = (y.smul a).xor (y.smul b) := by
  simp [Syn.smul, Syn.xor, gfMul_xor]

/-- The contribution of one symbol to a sum of columns goes out of the sum. -/
theorem foldl_column_update (f g : Nat → Gf) (i : Nat) (e : Gf) (h : ∀ j, g j = if j = i then f j ^^^ e else f j) (n : Nat) :
    (List.range n).foldl (fun a j => a.xor ((symColumn j).smul (g j))) Syn.zero
      = if i < n then ((List.range n).foldl (fun a j => a.xor ((symColumn j).smul (f j))) Syn.zero).xor ((symColumn i).smul e)
        else (List.range n).foldl (fun a j => a.xor ((symColumn j).smul (f j))) Syn.zero := by
  induction n with
  | zero => simp
  | succ n ih =>
    rw [List.range_succ, List.foldl_append, List.foldl_append, ih, List.foldl_cons, List.foldl_nil, h n]
    rcases lt_trichotomy n i with hlt | rfl | hgt
    · have h1 : ¬ i < n := by omega
      have h2 : ¬ i < n + 1 := by omega
      simp [h1, h2, hlt.ne]
    · simp [Syn.smul_xor, Syn.xor_assoc]
    · have h2 : i < n + 1 := by omega
      simp only [hgt, h2, hgt.ne', if_true, if_false, List.foldl_cons, List.foldl_nil, Syn.xor_assoc]
      rw [Syn.xor_comm ((symColumn i).smul e)]

theorem highNibble_low (e : Gf) : ((e.setWidth 8 : Byte) >>> 4).setWidth 4 = 0#4 := by
  revert e
  decide

theorem highNibble_high (e : Gf) : ((e.setWidth 8 <<< 4 : Byte) >>> 4).setWidth 4 = e := by
  revert e
  decide

theorem dataSym_flipData {d : Bytes} {i : Nat} (e : Gf) (hd : d.length = 16) (hi : i < 32) (j : Nat) :
    dataSym (flipData d i e) j = if j = i then dataSym d j ^^^ e else dataSym d j := by
  have hlen : i / 2 < d.length := by omega
  by_cases hij : j / 2 = i / 2
  · have hget : (flipData d i e).getD (j / 2) 0
        = d.getD (j / 2) 0 ^^^ (if i % 2 = 0 then e.setWidth 8 else e.setWidth 8 <<< 4) := by
      simp [flipData, hi, hij, hlen, List.getD_eq_getElem?_getD]
    have hsym : j = i ↔ j % 2 = i % 2 := by omega
    simp only [dataSym, hget, hsym]
    rcases Nat.mod_two_eq_zero_or_one i with h0 | h1 <;> rcases Nat.mod_two_eq_zero_or_one j with k0 | k1
    all_goals simp_all [BitVec.setWidth_xor, BitVec.ushiftRight_xor_distrib, highNibble_low, highNibble_high]
  · have hne : j ≠ i := fun h => hij (by rw [h])
    have hget : (flipData d i e).getD (j / 2) 0 = d.getD (j / 2) 0 := by
      simp [flipData, hi, List.getD_eq_getElem?_getD, Ne.symm hij]
    simp only [dataSym, hget, hne, if_false]

theorem sigma_flipData {d : Bytes} {i : Nat} (e : Gf) (hd : d.length = 16) (hi : i < 32) :
    sigma (flipData d i e) = (sigma d).xor ((symColumn i).smul e) := by
  rw [sigma, foldl_column_update (dataSym d) _ i e (dataSym_flipData e hd hi) 32, if_pos hi, sigma]

theorem checkSym_xor (b c : BitVec 16) (k : Nat) : checkSym (b ^^^ c) k = checkSym b k ^^^ checkSym c k := by
  simp [checkSym, BitVec.ushiftRight_xor_distrib, BitVec.setWidth_xor]

theorem checkSyn_xor (b c : BitVec 16) : checkSyn (b ^^^ c) = (checkSyn b).xor (checkSyn c) := by
  simp only [checkSyn, checkSym_xor, Syn.smul_xor, Syn.xor, BitVec.xor_assoc, xor_left_comm]

/-- What an error in symbol `i` changes in the check bits: nothing where the symbol is one of the data's. -/
def checkFlip (i : Nat) (e : Gf) : BitVec 16 := if i < 32 then 0 else e.setWidth 16 <<< (4 * (i - 32))

theorem checkSyn_checkFlip {i : Nat} (e : Gf) (h : 32 ≤ i) (hi : i < 36) : checkSyn (checkFlip i e) = (symColumn i).smul e := by
  have hall : ∀ i < 36, 32 ≤ i → ∀ e : Gf, checkSyn (checkFlip i e) = (symColumn i).smul e := by decide +kernel
  exact hall i hi h e

/-- An error in a symbol adds its multiple of the symbol's column to the syndrome. -/
theorem syndrome_flip {d : Bytes} {i : Nat} (e : Gf) (c : BitVec 16) (hd : d.length = 16) (hi : i < 36) :
    syndrome (flipData d i e) (c ^^^ checkFlip i e) = (syndrome d c).xor ((symColumn i).smul e) := by
  by_cases h : i < 32
  · have hc : c ^^^ checkFlip i e = c := by simp [checkFlip, h]
    rw [syndrome, syndrome, hc, sigma_flipData e hd h, Syn.xor_assoc, Syn.xor_assoc,
      Syn.xor_comm (checkSyn c)]
  · have hf : flipData d i e = d := if_neg h
    rw [syndrome, syndrome, hf, checkSyn_xor, checkSyn_checkFlip e (by omega) hi, Syn.xor_assoc]

@[simp] theorem length_flipData (d : Bytes) (i : Nat) (e : Gf) : (flipData d i e).length = d.length := by
  unfold flipData
  split <;> simp

/-- The same error twice is none. -/
theorem flipData_flipData (d : Bytes) (i : Nat) (e : Gf) : flipData (flipData d i e) i e = d := by
  have hid (x : Byte) : (fun b : Byte => b ^^^ x) ∘ (fun b => b ^^^ x) = id := by
    funext b
    simp
  unfold flipData
  split
  · rw [List.modify_modify_eq, hid, List.modify_id]
  · rfl

/-! ### A read of one codeword -/

/-- What the parity check of an access reads stays: the interleaving, the failing addresses, the controllers' configuration. -/
def SameParity (m t : Mach) : Prop :=
  t.dict = m.dict ∧ t.shaky = m.shaky ∧ ∀ d i, t.reg .memc d i 8 = m.reg .memc d i 8

theorem shakyIn_congr {m t : Mach} (h : SameParity m t) (a n : Nat) : t.shakyIn a n = m.shakyIn a n := by
  obtain ⟨hd, hs, hr⟩ := h
  have hf : t.fineMode = m.fineMode := by simp [Mach.fineMode, Mach.dnum, Mach.dict?, hd]
  have hp (x : Nat) : t.parityOn x = m.parityOn x := by simp [Mach.parityOn, hf, Mach.bit, hr]
  simp [Mach.shakyIn, hs, hp]

/-- A count of accesses is no part of it. -/
theorem countRange_sameParity (m : Mach) (a n : Nat) : SameParity m (m.countRange 0x10 a n) := by
  unfold Mach.countRange
  refine foldl_keeps (SameParity m) _ ?_ _ _ ⟨rfl, rfl, fun _ _ => rfl⟩
  rintro x r ⟨hd, hs, hr⟩
  split
  · exact ⟨hd, hs, hr⟩
  · unfold Mach.memCount
    split
    · exact ⟨hd, hs, hr⟩
    · next c _ =>
      obtain ⟨v, hv⟩ := x.count_frame .memc c.die c.memc 0x10 ((r.1 + r.2 - 1) / 16 - r.1 / 16 + 1)
      refine ⟨by rw [hv]; exact hd, by rw [hv]; exact hs, fun d i => ?_⟩
      rw [← hr d i]
      exact csrAt_count_ne x (regAddr_ne_of_off (by decide) (by decide) (by decide))

/-- What a read of a codeword gives whose check bits differ from the code's, by its class: the bytes as they lie, the corrected bytes, or
the codeword's address. -/
def codewordRead (m : Mach) (cw : Nat) : CwClass → Bytes × Option Nat
  | .clean => (m.bytesAt cw 16, (m.shakyIn cw 16).head?)
  | .fix i e => (flipData (m.bytesAt cw 16) i e, (m.shakyIn cw 16).head?)
  | .poison | .bad => (m.bytesAt cw 16, some cw)

theorem bytesAt_length (m : Mach) (a n : Nat) : (m.bytesAt a n).length = n := by
  unfold Mach.bytesAt Mach.over memBytes
  split <;> simp

/-- Every byte of a codeword is taken from the corrected one. -/
theorem readBack_corrected (cw : Nat) (bs fixed : Bytes) (h : fixed.length = 16) :
    ((List.range 16).map fun k => if cw ≤ cw + k && cw + k < cw + 16 then fixed.getD (cw + k - cw) 0 else bs.getD k 0) = fixed := by
  apply List.ext_getElem
  · simp [h]
  · intro k hk hk'
    have : k < 16 := by simpa using hk
    simp [this, h]

theorem memRead_codeword {m : Mach} {source cw : Nat} {c : Half} (hcw : cw % 16 = 0) (hc : m.chk = [(cw, c)]) :
    (m.memRead source cw 16).2 = codewordRead m cw (classify (checkSyn c)) := by
  have hshaky := shakyIn_congr (countRange_sameParity m cw 16) cw 16
  obtain ⟨v, hv⟩ := m.countRange_frame 0x10 cw 16
  have hat : cw / 16 * 16 = cw := by omega
  have hsus : (m.countRange 0x10 cw 16).suspects cw 16 = [cw] := by simp [hv, Mach.suspects, hc, hat]
  have hget : mapGet (m.countRange 0x10 cw 16).chk cw = some c := by simp [hv, hc, mapGet]
  have hbytes : (m.countRange 0x10 cw 16).bytesAt cw 16 = m.bytesAt cw 16 := by rw [hv]; rfl
  unfold Mach.memRead
  simp only [hshaky, hsus, hbytes, List.foldl_cons, List.foldl_nil, hget]
  cases hclass : classify (checkSyn c) with
  | clean => simp [codewordRead]
  | bad => simp [codewordRead]
  | poison => simp [codewordRead]
  | fix i e =>
    simp only [codewordRead]
    rw [readBack_corrected _ _ _ (by simp [bytesAt_length])]
    rfl

/-! ### Errors in one and in two symbols -/

theorem syndrome_zero_xor_column (d : Bytes) (y : Syn) : (syndrome d (checkBits d)).xor y = y := by
  rw [syndrome_checkBits, Syn.zero_xor]

/-- Settles O49: the syndrome of the word is the error times the symbol's column, which the decoder names. -/
theorem oneSymbolErrorsAreCorrected : Obligations.OneSymbolErrorsAreCorrected := by
  intro m d i source cw e hd hi he
  have hclass : classify (syndrome (flipData d i e) (checkBits d ^^^ checkFlip i e)) = .fix i e := by
    rw [syndrome_flip e _ hd hi, syndrome_zero_xor_column, classify_column hi he]
  refine ⟨hclass, flipData_flipData d i e, fun hcw hbytes hchk hshaky => ?_⟩
  rw [memRead_codeword hcw hchk]
  have hsyn : checkSyn (checkBits d ^^^ checkFlip i e ^^^ checkBits (flipData d i e))
      = syndrome (flipData d i e) (checkBits d ^^^ checkFlip i e) := by
    rw [checkSyn_xor, checkSyn_checkBits, syndrome, Syn.xor_comm]
  have hread : codewordRead m cw (.fix i e) = (d, none) := by
    rw [codewordRead, hbytes, flipData_flipData, hshaky, List.head?_nil]
  rw [← hread, ← hclass, ← hsyn]
  rfl

/-- Settles O50: the syndrome lies off the quadric, where the decoder knows no good word and no correction. -/
theorem twoSymbolErrorsAreReported : Obligations.TwoSymbolErrorsAreReported := by
  intro m d i j source cw e f hd hij hj he hf hit mask check
  have hi : i < 36 := hij.trans hj
  have hsyndrome : syndrome hit check = ((symColumn i).smul e).xor ((symColumn j).smul f) := by
    have h1 := syndrome_flip e (checkBits d) hd hi
    have h2 := syndrome_flip f (checkBits d ^^^ checkFlip i e) ((length_flipData d i e).trans hd) hj
    rw [h1, Syn.xor_assoc, syndrome_zero_xor_column] at h2
    exact h2
  have hreported : classify (syndrome hit check) = .bad ∨ classify (syndrome hit check) = .poison := by
    rw [hsyndrome]
    exact reported_of_quadric (quadric_two_columns hi hj hij.ne he hf)
  refine ⟨hreported, fun hcw hbytes hchk => ?_⟩
  have hsyn : checkSyn (check ^^^ checkBits hit) = syndrome hit check := by
    rw [checkSyn_xor, checkSyn_checkBits, syndrome, Syn.xor_comm]
  rw [memRead_codeword hcw hchk, hsyn]
  rcases hreported with h | h <;> rw [h] <;> rfl

end Sys2Proof
end

section
/-! What every meaning does to the queue and to the anti-rollback record: the queue stays, and the record in the flash does not go
back. Each operation on the state is shown once to follow from the state it begins with; the commands are made of them. -/

namespace Sys2Proof.Machine

/-! ### The order of anti-rollback records (R434) -/

theorem AntiRollback.le_refl (a : AntiRollback) : a.le a := ⟨Nat.le_refl _, Nat.le_refl _, Nat.le_refl _, Nat.le_refl _⟩

theorem AntiRollback.le_trans {a b c : AntiRollback} (h : a.le b) (k : b.le c) : a.le c := by
  obtain ⟨h1, h2, h3, h4⟩ := h
  obtain ⟨k1, k2, k3, k4⟩ := k
  exact ⟨h1.trans k1, h2.trans k2, h3.trans k3, h4.trans k4⟩

/-- A join is above each of the two. -/
theorem AntiRollback.le_join_left (a b : AntiRollback) : a.le (a.join b) :=
  ⟨Nat.le_max_left .., Nat.le_max_left .., Nat.le_max_left .., Nat.le_max_left ..⟩

theorem AntiRollback.le_join_right (a b : AntiRollback) : b.le (a.join b) :=
  ⟨Nat.le_max_right .., Nat.le_max_right .., Nat.le_max_right .., Nat.le_max_right ..⟩

/-! ### Changes of the vault -/

/-- From a vault whose flash is not ahead of what is in force comes another such, whose flash has not gone back. -/
def Vault.Ahead (v w : Vault) : Prop := v.heldBehind → w.heldBehind ∧ v.stored.ar.le w.stored.ar

theorem Vault.Ahead.refl (v : Vault) : v.Ahead v := fun h => ⟨h, AntiRollback.le_refl _⟩

theorem Vault.Ahead.trans {v w x : Vault} (h : v.Ahead w) (k : w.Ahead x) : v.Ahead x := fun hv => by
  obtain ⟨hw, hle⟩ := h hv
  obtain ⟨hx, hle'⟩ := k hw
  exact ⟨hx, AntiRollback.le_trans hle hle'⟩

/-- A change that leaves the record in force and what is held aside. -/
theorem Vault.Ahead.of_same {v w : Vault} (hh : w.held = v.held) (hf : w.flash.ar = v.flash.ar) : v.Ahead w := by
  intro h
  have hs : w.stored.ar = v.stored.ar := by
    unfold Vault.stored
    rw [hh]
    cases v.held with
    | none => exact hf
    | some f => rfl
  refine ⟨?_, by rw [hs]; exact AntiRollback.le_refl _⟩
  unfold Vault.heldBehind
  rw [hs, hf]
  exact h

/-- The vault in force becomes what the flash holds: at the end of the inhibit, and the other way round after a cold reset. -/
theorem Vault.Ahead.of_unheld {v w : Vault} (hw : w.held = none) (hf : v.stored.ar.le w.flash.ar) : v.Ahead w := fun _ => by
  have hs : w.stored = w.flash := by simp [Vault.stored, hw]
  refine ⟨?_, by rw [hs]; exact hf⟩
  unfold Vault.heldBehind
  rw [hs]
  exact AntiRollback.le_refl _

/-- A write of the flash that does not lower the record in force (R405). -/
theorem Vault.write_ahead {v : Vault} {g : Vault → Vault} (inhibit : Bool) (h : v.flash.ar.le (g v).flash.ar) :
    v.Ahead (v.write inhibit g) := by
  cases inhibit with
  | false => exact fun hv => Vault.Ahead.of_unheld rfl (AntiRollback.le_trans hv h) hv
  | true =>
    intro hv
    have hs : (v.write true g).stored = v.stored := rfl
    refine ⟨?_, by rw [hs]; exact AntiRollback.le_refl _⟩
    unfold Vault.heldBehind
    rw [hs]
    exact AntiRollback.le_trans hv h

/-- A raised record is above both copies (R434). -/
theorem Vault.raise_ar (v : Vault) (mgmt gaffer keys : Nat) : v.flash.ar.le (v.raise mgmt gaffer keys).flash.ar := by
  unfold Vault.raise
  dsimp only
  split
  · exact AntiRollback.le_refl _
  · have hj := AntiRollback.le_trans (v.flash.force.le_join_right v.flash.ar)
      ((v.flash.force.join v.flash.ar).le_join_left v.flash.arOther)
    obtain ⟨h1, h2, h3, h4⟩ := hj
    exact ⟨Nat.le_succ_of_le h1, h2.trans (Nat.le_max_left ..), h3.trans (Nat.le_max_left ..), h4.trans (Nat.le_max_left ..)⟩

/-! ### The operations that leave the record -/

@[simp] theorem Flash.updSlot_ar (f : Flash) (kind k : Nat) (g : FwSlot → FwSlot) : (f.updSlot kind k g).ar = f.ar := rfl
@[simp] theorem Flash.updBoot_ar (f : Flash) (kind : Nat) (g : BootCtl → BootCtl) : (f.updBoot kind g).ar = f.ar := rfl
@[simp] theorem Flash.fallBack_ar (f : Flash) (kind : Nat) : (f.fallBack kind).ar = f.ar := rfl
@[simp] theorem Flash.addWaiver_ar (f : Flash) (w : Bytes) : (f.addWaiver w).ar = f.ar := rfl
@[simp] theorem Flash.keepTrained_ar (f : Flash) (r : PhyRec) : (f.keepTrained r).ar = f.ar := rfl
@[simp] theorem Flash.selectSlot_ar (f : Flash) (kind : Nat) (inhibit : Bool) : (f.selectSlot kind inhibit).1.ar = f.ar := by
  unfold Flash.selectSlot
  dsimp only
  split <;> rfl
@[simp] theorem Flash.readBoot_ar (f : Flash) : f.readBoot.ar = f.ar := by
  unfold Flash.readBoot
  dsimp only
  split
  · split <;> rfl
  all_goals rfl

/-! ### States that follow -/

/-- The queue stays, and the anti-rollback record does not go back. -/
def State.Follows (s t : State) : Prop := t.pending = s.pending ∧ s.v.Ahead t.v

theorem State.Follows.refl (s : State) : s.Follows s := ⟨rfl, Vault.Ahead.refl _⟩

theorem State.Follows.trans {s t u : State} (h : s.Follows t) (k : t.Follows u) : s.Follows u :=
  ⟨k.1.trans h.1, h.2.trans k.2⟩

/-- A change of the machine alone. -/
theorem State.Follows.of_mach {s t : State} (hp : t.pending = s.pending) (hv : t.v = s.v) : s.Follows t :=
  ⟨hp, by rw [hv]; exact Vault.Ahead.refl _⟩

/-- A change of the vault that leaves its record. -/
theorem State.Follows.of_same {s t : State} (hp : t.pending = s.pending) (hh : t.v.held = s.v.held)
    (hf : t.v.flash.ar = s.v.flash.ar) : s.Follows t :=
  ⟨hp, Vault.Ahead.of_same hh hf⟩

/-! Each step of a chain: what follows from `s` up to `t` follows up to what a step makes of `t`. -/

section
variable {s t : State} (h : s.Follows t)
include h

theorem State.Follows.setM (f : Mach → Mach) : s.Follows (t.setM f) := h.trans (.of_mach rfl rfl)
theorem State.Follows.withM (m : Mach) : s.Follows { t with m := m } := h.trans (.of_mach rfl rfl)
theorem State.Follows.settled (m : Mach) : s.Follows (t.settled m) :=
  h.trans (.of_mach (t.settled_pending m) (t.settled_v m))
theorem State.Follows.atRest : s.Follows t.atRest := h.trans (.of_mach t.atRest_pending t.atRest_v)
/-- A change of the vault that leaves what is held and the record in the flash. -/
theorem State.Follows.setV {f : Vault → Vault} (hh : (f t.v).held = t.v.held) (hf : (f t.v).flash.ar = t.v.flash.ar) :
    s.Follows (t.setV f) := h.trans (.of_same rfl hh hf)
theorem State.Follows.withV {v : Vault} (hh : v.held = t.v.held) (hf : v.flash.ar = t.v.flash.ar) :
    s.Follows { t with v := v } := h.trans (.of_same rfl hh hf)
/-- An extension of a measurement register. -/
theorem State.Follows.extend (r k : Nat) (d : Bytes) : s.Follows (t.setV fun v => v.extend r k d) := h.setV rfl rfl
theorem State.Follows.writeVault {g : Vault → Vault} (hg : t.v.flash.ar.le (g t.v).flash.ar) : s.Follows (t.writeVault g) :=
  h.trans ⟨rfl, Vault.write_ahead _ hg⟩
/-- A write that leaves the record. -/
theorem State.Follows.writeSame {g : Vault → Vault} (hg : (g t.v).flash.ar = t.v.flash.ar) : s.Follows (t.writeVault g) :=
  h.writeVault (by rw [hg]; exact AntiRollback.le_refl _)
/-- A property that every round keeps. -/
theorem State.Follows.foldl {α : Type} {f : State → α → State} (hf : ∀ (u : State) a, u.Follows (f u a)) (l : List α) :
    s.Follows (l.foldl f t) :=
  foldl_keeps (fun u => s.Follows u) f (fun u a hu => hu.trans (hf u a)) l t h
end

/-- Where each branch follows, the choice does. -/
theorem State.Follows.ite {s t u : State} {c : Prop} [Decidable c] (ht : s.Follows t) (hu : s.Follows u) :
    s.Follows (if c then t else u) :=
  iteInduction (fun _ => ht) fun _ => hu

/-! ### Dies and bring-up (R420, R423, R446) -/

theorem State.startDie_follows (s : State) (d : Nat) : s.Follows (s.startDie d) := by
  unfold State.startDie
  split
  · exact .refl s
  · exact .of_same rfl rfl rfl

theorem State.trainUnit_follows (obs : BootObs) (s : State) (u : Nat) : s.Follows (State.trainUnit obs s u) := by
  unfold State.trainUnit
  dsimp only
  split
  · exact (State.Follows.refl s).setM _
  · have htaught := (State.Follows.refl s).setM fun m =>
      ((obs.badChans.filter (unitChans u).contains).foldl (fun (m : Mach) c => m.updChan c fun x => { x with failedTrain := true })
        { m with phy := mapSet m.phy u (obs.trained.getD u []) })
    exact State.Follows.ite (htaught.writeSame rfl) htaught

theorem State.trainMem_follows (s : State) (obs : BootObs) (d : Nat) : s.Follows (s.trainMem obs d) := by
  unfold State.trainMem
  exact State.Follows.ite ((State.Follows.refl s).foldl (State.trainUnit_follows obs) _) (.refl s)

/-- What follows a die that is up again: its firmware starts, alone or in a live update. -/
theorem State.dieReturn_follows (s : State) (d : Nat) : s.Follows (s.dieReturn d) := by
  unfold State.dieReturn
  split
  · exact .refl s
  · next obs _ =>
    dsimp only
    have hraise := (State.Follows.refl s).setM fun m => m.raiseDie d (pllOf obs d)
    have hmem := hraise.trans (State.trainMem_follows _ obs d)
    refine State.Follows.ite (.refl s) (State.Follows.ite hraise ?_)
    split
    · exact (hmem.trans (State.startDie_follows _ d)).setM _
    · exact (((hmem.setV rfl rfl).trans (State.startDie_follows _ d)).setM _).setM _

theorem State.pairMeasured_follows (s : State) (mi gi : Bytes) : s.Follows (s.pairMeasured mi gi) := by
  unfold State.pairMeasured
  split
  · exact (State.Follows.refl s).extend ..
  · exact ((State.Follows.refl s).withM _).extend ..

theorem State.pairCheck_follows (s : State) (mi gi : Bytes) : s.Follows (s.pairCheck mi gi).1 := by
  unfold State.pairCheck
  have h : s.Follows ((s.pairMeasured mi gi).setV fun v =>
    { v with waiver := if testedPair mi gi then [] else (s.v.flash.waiverFor mi gi).getD [], lapsed := none }) :=
    (s.pairMeasured_follows mi gi).setV rfl rfl
  exact State.Follows.ite h (h.setM _)

/-- The Gaffer firmware starts on the dies that are up. -/
theorem State.startDies_follows (s : State) :
    s.Follows ([0, 1].foldl (fun (s : State) d => if (s.m.die d).up then s.startDie d else s) s) :=
  (State.Follows.refl s).foldl (fun u d => State.Follows.ite (u.startDie_follows d) (.refl u)) _

theorem State.startGaffer_follows (s : State) : s.Follows s.startGaffer := by
  unfold State.startGaffer
  extract_lets was inh c
  split
  next f k hsel =>
  extract_lets fell f' s1 s2
  have hf : f'.ar = s.v.flash.ar := by
    have hsel' : f.ar = s.v.flash.ar := by simpa [hsel] using s.v.flash.selectSlot_ar 1 inh
    simp only [f']
    split <;> simp [hsel']
  have h1 : s.Follows s1 := .of_same rfl rfl hf
  have h2 : s.Follows s2 := by
    simp only [s2]
    exact State.Follows.ite (h1.setM _) h1
  split
  next s3 more hpair =>
  extract_lets now s4 s5
  have h3 : s.Follows s3 := by
    have hfst : _ = s3 := congrArg Prod.fst hpair
    rw [← hfst]
    split
    · exact h2
    · exact h2.trans (s2.pairCheck_follows ..)
  have h4 : s.Follows s4 := h3.setM _
  have h5 : s.Follows s5 := State.Follows.ite (h4.extend ..) (State.Follows.ite (h4.extend ..) h4)
  exact h5.trans s5.startDies_follows

theorem State.finishBoot_follows (s : State) (cause : Nat) (obs : BootObs) : s.Follows (s.finishBoot cause obs) :=
  State.Follows.ite ((State.Follows.refl s).setM _) ((State.Follows.refl s).setM _)

theorem State.bootDies_follows (s : State) (cause : Nat) (obs : BootObs) : s.Follows (s.bootDies cause obs) := by
  unfold State.bootDies
  extract_lets s1 s2
  have h1 : s.Follows s1 := (State.Follows.refl s).setM _
  have h2 : s.Follows s2 := (h1.trans (s1.trainMem_follows obs 0)).trans (State.trainMem_follows _ obs 1)
  exact (h2.trans s2.startGaffer_follows).trans (State.finishBoot_follows ..)

theorem State.bootControl_follows (s : State) (cause : Nat) (obs : BootObs) : s.Follows (s.bootControl cause obs) := by
  unfold State.bootControl
  extract_lets s1 s2 s3 s4 s5 s6 s7 causes
  have h1 : s.Follows s1 := (State.Follows.refl s).setM _
  have h2 : s.Follows s2 := State.Follows.ite (h1.setM _) h1
  have h5 : s.Follows s5 := ((h2.setM _).setV rfl rfl).setM _
  have h6 : s.Follows s6 := State.Follows.ite (h5.setM _) h5
  have h7 : s.Follows s7 := State.Follows.ite h6 (h6.setM _)
  exact State.Follows.ite h7 ((h7.setM _).extend ..)

theorem State.bootRom_follows (s : State) (cause : Nat) (obs : BootObs) : s.Follows (s.bootRom cause obs) := by
  unfold State.bootRom
  extract_lets inh c
  split
  next f k hsel =>
  extract_lets fell f'
  have hf : f'.ar = s.v.flash.ar := by
    have hsel' : f.ar = s.v.flash.ar := by simpa [hsel] using s.v.flash.selectSlot_ar 0 inh
    simp only [f']
    split <;> simp [hsel']
  split
  · next s1 s2 =>
    have h1 : s.Follows s1 := .of_same rfl rfl hf
    have h2 : s.Follows s2 := h1.setM _
    exact State.Follows.ite (h2.setM _) h2
  · next n _ _ =>
    extract_lets s1 s2 s3
    have h1 : s.Follows s1 := .of_same rfl rfl hf
    have h2 : s.Follows s2 := h1.setM _
    have h3 : s.Follows s3 := State.Follows.ite (h2.setM _) h2
    exact (h3.trans (s3.bootControl_follows cause obs)).trans (State.bootDies_follows ..)

theorem Vault.readPuf_held (v : Vault) (k : Option Bytes) : (v.readPuf k).held = v.held := by
  unfold Vault.readPuf
  split
  · rfl
  · split <;> rfl

theorem Vault.readPuf_flash (v : Vault) (k : Option Bytes) : (v.readPuf k).flash = v.flash := by
  unfold Vault.readPuf
  split
  · rfl
  · split <;> rfl

theorem Vault.readAr_ar (v : Vault) : v.readAr.flash.ar = v.flash.ar := rfl

theorem State.bringUp_follows (s : State) (obs : BootObs) : s.Follows (s.bringUp obs) := by
  unfold State.bringUp
  extract_lets cause s1
  have h1 : s.Follows s1 := ((State.Follows.refl s).setM _).setV (Vault.readPuf_held s.v obs.pufK) (by
    rw [State.setM_v]
    refine (Flash.readBoot_ar _).trans ?_
    rw [Vault.readAr_ar, Vault.readPuf_flash])
  exact h1.trans (s1.bootRom_follows cause obs)

theorem State.resumeBoot_follows (s : State) : s.Follows s.resumeBoot := by
  unfold State.resumeBoot
  split
  next s1 ok hpair =>
  have h1 : s.Follows s1 := by
    have := s.pairCheck_follows s.v.mgmtImage (s.v.gafferImage 0)
    rwa [hpair] at this
  extract_lets s2 s3
  have h3 : s.Follows s3 := ((h1.setM _).extend ..).trans s2.startDies_follows
  refine State.Follows.ite h1 ?_
  split
  · exact h3.trans (s3.finishBoot_follows ..)
  · exact h3

/-! ### Resets and Deep (R414 to R424) -/

/-- A cold reset keeps what the flash holds. -/
theorem State.coldReset_follows (s : State) (cause : Nat) : s.Follows (s.coldReset cause) :=
  ⟨rfl, Vault.Ahead.of_unheld rfl (AntiRollback.le_refl _)⟩

theorem State.warmReset_follows (s : State) : s.Follows s.warmReset := by
  unfold State.warmReset
  split
  · exact .refl s
  · exact State.Follows.ite (.refl s) (((State.Follows.refl s).setM _).trans (State.bootDies_follows ..))

theorem State.deepTrain_follows (s : State) (u : Nat) : s.Follows (s.deepTrain u) := by
  unfold State.deepTrain
  have h := State.Follows.refl s
  exact State.Follows.ite (h.withM _) ((h.withM _).trans ⟨rfl, Vault.write_ahead _ (AntiRollback.le_refl _)⟩)

theorem State.deepExit_follows (s : State) : s.Follows s.deepExit := by
  unfold State.deepExit
  extract_lets s1 s2 ver
  have h1 : s.Follows s1 := (State.Follows.refl s).setM _
  exact (h1.foldl State.deepTrain_follows _).setM _

theorem State.tick_follows (s : State) : s.Follows s.tick := by
  unfold State.tick
  extract_lets s1
  have h1 : s.Follows s1 := (State.Follows.refl s).setM _
  exact State.Follows.ite (h1.setM _)
    (State.Follows.ite (State.Follows.ite (h1.setM _) (h1.trans s1.deepExit_follows)) h1)

/-! ### The dictionary (R391, R393, R405, R420, R429 to R447) -/

theorem State.resetCtrl_follows (s : State) (old w : Nat) : s.Follows (s.resetCtrl old w) := by
  unfold State.resetCtrl
  extract_lets s1
  have h1 : s.Follows s1 := (State.Follows.refl s).foldl (fun u d =>
    State.Follows.ite ((State.Follows.refl u).setM _) (State.Follows.ite (u.dieReturn_follows d) (.refl u))) _
  exact State.Follows.ite (h1.trans s1.warmReset_follows) h1

theorem State.csrWrite_follows (s : State) (addr size w : Nat) : s.Follows (s.csrWrite addr size w) := by
  unfold State.csrWrite
  extract_lets a old s1
  have h1 : s.Follows s1 := (State.Follows.refl s).setM _
  exact State.Follows.ite (h1.trans (s1.resetCtrl_follows ..)) h1

theorem State.coolDie_follows (s : State) (d : Nat) : s.Follows (s.coolDie d) :=
  ((State.Follows.refl s).setM _).trans (State.dieReturn_follows ..)

/-- What a write answers follows from the state it is given. -/
def Written.Follows (s : State) (w : Written) : Prop := s.Follows w.2.1

theorem Written.Follows.ite {s : State} {t u : Written} {c : Prop} [Decidable c] (ht : Written.Follows s t)
    (hu : Written.Follows s u) : Written.Follows s (if c then t else u) :=
  iteInduction (fun _ => ht) fun _ => hu

theorem refuse_follows (s : State) (st : Nat) : Written.Follows s (refuse s st) := .refl s
theorem accept_follows (s : State) (st : Nat) (m : Mach) : Written.Follows s (accept s st m) := (State.Follows.refl s).withM m

theorem State.resetCmd_follows (s : State) (n : Nat) : Written.Follows s (s.resetCmd n) := by
  unfold State.resetCmd
  have h : ∀ a : After, Written.Follows s (osOk, s, a) := fun _ => .refl s
  exact Written.Follows.ite (Written.Follows.ite (h _) (refuse_follows ..)) (Written.Follows.ite
    (Written.Follows.ite (h _) (refuse_follows ..)) (Written.Follows.ite (h _) (refuse_follows ..)))

theorem State.writeImage_follows (s : State) (n : Nat) (bs : Bytes) : Written.Follows s (s.writeImage n bs) := by
  unfold State.writeImage
  have h : ∀ (st : Nat) (a : After) (g : Vault → Vault), (g s.v).flash.ar = s.v.flash.ar →
      Written.Follows s (st, s.writeVault g, a) := fun _ _ g hg => (State.Follows.refl s).writeSame hg
  have hno := refuse_follows s osBadState
  exact Written.Follows.ite
    (Written.Follows.ite hno (Written.Follows.ite (h _ _ _ rfl) (h _ _ _ rfl)))
    (Written.Follows.ite hno (Written.Follows.ite (h _ _ _ rfl) (h _ _ _ rfl)))

theorem State.activateMeasured_follows (s : State) (kind : Nat) : s.Follows (s.activateMeasured kind) :=
  State.Follows.ite (.refl s) (s.pairMeasured_follows ..)

theorem State.activated_follows (s : State) (kind : Nat) : Written.Follows s (s.activated kind) := by
  unfold State.activated
  extract_lets k im n st warm s1 s2
  have h2 : s.Follows s2 := ((State.Follows.refl s).writeSame rfl).setM _
  exact Written.Follows.ite h2 (Written.Follows.ite h2 (h2.setM _))

theorem State.activate_follows (s : State) (kind : Nat) : Written.Follows s (s.activate kind) := by
  unfold State.activate
  have h := s.activateMeasured_follows kind
  split
  · exact h
  · exact h.trans (State.activated_follows ..)

theorem State.confirm_follows (s : State) (kind : Nat) : Written.Follows s (s.confirm kind) := by
  unfold State.confirm
  extract_lets k n s'
  have h : s.Follows s' := (State.Follows.refl s).writeVault (Vault.raise_ar
    ({ s.v with flash := s.v.flash.updBoot kind fun _ => ⟨k, false, 0⟩ } : Vault) _ _ _)
  exact Written.Follows.ite (refuse_follows ..) (h.setM _)

theorem Vault.lapse_flash (v : Vault) (draw : Nat) : (v.lapse draw).flash = v.flash := by
  unfold Vault.lapse
  split <;> rfl

theorem State.writeKey_follows (s : State) (bs : Bytes) : Written.Follows s (s.writeKey bs) := by
  unfold State.writeKey
  extract_lets s'
  have h : s.Follows s' := (State.Follows.refl s).writeVault (by
    rw [Vault.lapse_flash]
    exact Vault.raise_ar ({ s.v with flash := { s.v.flash with keys := s.v.flash.keys ++ [bs] } } : Vault) _ _ _)
  exact Written.Follows.ite (refuse_follows ..) (h.setM _)

theorem State.writeWaiver_follows (s : State) (bs : Bytes) : Written.Follows s (s.writeWaiver bs) :=
  Written.Follows.ite (refuse_follows ..) ((State.Follows.refl s).writeSame rfl)

theorem State.writeNonce_follows (s : State) (who : Master) (bs : Bytes) : Written.Follows s (s.writeNonce who bs) :=
  (State.Follows.refl s).setV rfl rfl

theorem State.writeEntry_follows (s : State) (who : Master) (r : DictRow) (i sub : Nat) (bs : Bytes) :
    Written.Follows s (s.writeEntry who r i sub bs) := by
  unfold State.writeEntry
  extract_lets m n k plain onM
  have hno (st : Nat) := refuse_follows s st
  have hm (st : Nat) (m' : Mach) := accept_follows s st m'
  have hplain : Written.Follows s (plain ()) := hm ..
  have honM (q : Nat × Mach) : Written.Follows s (onM q) := hm ..
  split
  · exact .ite (hno _) <| .ite (hno _) <| .ite (hno _) <| .ite (hno _) <|
      .ite (hno _) hplain
  · exact .ite (.ite (hm ..) (hno _)) <| .ite (hm ..) <|
      .ite (.ite (hm ..) (hno _)) <| .ite (.ite (hm ..) (hno _)) <|
      .ite (honM _) <| .ite (honM _) <| .ite (honM _) <| .ite (honM _) <|
      .ite (.ite (hm ..) (hno _)) <| .ite (s.resetCmd_follows n) <|
      .ite (s.writeImage_follows ..) <| .ite (s.activate_follows _) <| .ite (s.confirm_follows _) <|
      .ite (s.writeWaiver_follows bs) <| .ite (s.writeKey_follows bs) <| .ite (s.writeNonce_follows ..) <|
      .ite (hm ..) <| .ite (honM _) <| .ite (hm ..) <|
      .ite (.ite (s.csrWrite_follows ..) (hno _)) hplain

theorem State.after_follows (s : State) (a : After) : s.Follows (s.after a) := by
  cases a with
  | nothing => exact .refl s
  | cold => exact s.coldReset_follows 5
  | warm => exact s.warmReset_follows
  | die d => exact ((State.Follows.refl s).setM _).trans (State.dieReturn_follows ..)
  | mgmt => exact (State.Follows.refl s).setM _
  | rom =>
    refine State.Follows.ite ((State.Follows.refl s).setM _) ?_
    split
    · exact s.bootRom_follows ..
    · exact .refl s
  | pair => exact s.resumeBoot_follows

/-! ### Requests (R389 to R392) -/

theorem State.readEntry_follows (s : State) (who : Master) (i sub : Nat) : s.Follows (s.readEntry who i sub).1 := by
  have h := State.Follows.refl s
  have ite {t u : State × Except Nat Bytes} {c : Prop} [Decidable c] (ht : s.Follows t.1) (hu : s.Follows u.1) :
      s.Follows (if c then t else u).1 := by split <;> assumption
  unfold State.readEntry
  refine ite h <| ite h <| ite h <| ite (ite h (h.withM _)) <| ite (h.withM _) <| ite (h.withM _) ?_
  split <;> exact h

theorem State.readValue_follows (s : State) (who : Master) (i sub off : Nat) : s.Follows (s.readValue who i sub off).1 := by
  unfold State.readValue
  have h := s.readEntry_follows who i sub
  extract_lets k
  split
  · exact .refl s
  · split
    · next hr => rwa [hr] at h
    · next hr =>
      rw [hr] at h
      split
      · exact h
      · exact h.setM _

theorem State.oapRead_follows (s : State) (who : Master) (q : OapReq) (r : DictRow) : s.Follows (s.oapRead who q r).1 := by
  unfold State.oapRead
  have h := State.Follows.refl s
  have hr := s.readEntry_follows who q.index q.sub
  have hv := s.readValue_follows who q.index q.sub q.rq.offset
  extract_lets t off
  split
  · exact h
  split
  · exact h
  split
  · split
    · exact h
    · split <;> next heq => rwa [heq] at hr
  · split
    · next heq => rwa [heq] at hv
    · next heq =>
      rw [heq] at hv
      split <;> exact hv

theorem State.writeFlash_follows (s : State) (bad : Bool) (who : Master) (r : DictRow) (i sub : Nat) (bs : Bytes) :
    Written.Follows s (s.writeFlash bad who r i sub bs) := by
  unfold State.writeFlash
  extract_lets w
  refine .ite ?_ (s.writeEntry_follows ..)
  split
  next m x _ =>
  extract_lets s1 s2
  have h1 : s.Follows s1 := (State.Follows.refl s).withM _
  have h2 : s.Follows s2 := State.Follows.ite (h1.trans (s1.activateMeasured_follows _)) h1
  exact State.Follows.ite (h2.setV rfl rfl) h2

theorem State.writeWhole_follows (s : State) (bad : Bool) (who : Master) (r : DictRow) (i sub : Nat) (bs : Bytes) :
    Written.Follows s (s.writeWhole bad who r i sub bs) := by
  have hno (st : Nat) := refuse_follows s st
  exact .ite (hno _) <| .ite (hno _) <| .ite (hno _) <| .ite (hno _) (s.writeFlash_follows ..)

theorem State.oapWrite_follows (s : State) (who : Master) (q : OapReq) (r : DictRow) : s.Follows (s.oapWrite who q r).1 := by
  unfold State.oapWrite
  have h := State.Follows.refl s
  extract_lets t no done
  split
  · exact h
  split
  · exact h
  split
  · exact h
  split
  · split
    · exact h
    · exact s.writeWhole_follows ..
  · split
    · exact h
    · split
      · exact h.withM _
      · next m bs _ =>
        split
        · exact (h.withM m).trans (State.writeWhole_follows ..)
        · exact h.withM m

theorem State.oapExec_follows (s : State) (who : Master) (q : OapReq) : s.Follows (s.oapExec who q).1 := by
  unfold State.oapExec
  have h := State.Follows.refl s
  extract_lets plain
  split
  · exact h
  split
  · exact h
  · next r _ =>
    split
    · exact s.oapRead_follows who q r
    split
    · exact s.oapWrite_follows who q r
    split <;> exact h

theorem State.oapServe_follows (s : State) (who : Master) (q : OapReq) : s.Follows (s.oapServe who q).1 := by
  unfold State.oapServe
  extract_lets req tag
  split
  · exact .refl s
  · exact (s.oapExec_follows who q).setM _

theorem State.oapMgmt_follows (s : State) (q : OapReq) : s.Follows (s.oapMgmt q) := by
  unfold State.oapMgmt
  have h := State.Follows.refl s
  exact State.Follows.ite h <| State.Follows.ite (h.setM _) <|
    (((h.setM _).trans (State.oapServe_follows _ .mgmt q)).setM _).trans (State.after_follows ..)

theorem State.oapHost_follows (s : State) (q : OapReq) : s.Follows (s.oapHost q) := by
  unfold State.oapHost
  have h := State.Follows.refl s
  exact State.Follows.ite h <| State.Follows.ite (h.setM _) <|
    ((s.oapServe_follows .host q).setM _).trans (State.after_follows ..)

theorem State.request_follows (s : State) (rq : DictReq) (op index sub : Nat) : s.Follows (s.request rq op index sub) := by
  unfold State.request
  extract_lets q
  split
  · exact s.oapMgmt_follows q
  · exact s.oapHost_follows q

theorem State.oapCommand_follows (s : State) (h : HostHdr) (respAddr bufLen : Nat) (frame : Bytes) :
    s.Follows (s.oapCommand h respAddr bufLen frame) := by
  unfold State.oapCommand
  have hs := State.Follows.refl s
  refine State.Follows.ite hs ?_
  split
  next m c _ =>
  split
  · exact hs.withM _
  · exact State.Follows.ite (hs.withM _) <| State.Follows.ite (hs.withM _) <|
      (((hs.withM m).trans (State.oapServe_follows ..)).setM _).trans (State.after_follows ..)

/-! ### The store, the supply, the clocks, the firmware -/

theorem State.storeDue_follows (s : State) (ok : Bool) : s.Follows (s.storeDue ok) := by
  have h := State.Follows.refl s
  have hcopy : s.Follows (s.writeCopy ok) := State.Follows.ite (h.withM _) (h.withM _)
  exact State.Follows.ite h (State.Follows.ite (h.setM _) hcopy)

/-- What the flash held aside takes its place: what it held was not ahead. -/
theorem State.inhibitEnd_follows (s : State) : s.Follows s.inhibitEnd := by
  unfold State.inhibitEnd
  extract_lets s1
  have h1 : s.Follows s1 := ⟨rfl, fun hv => Vault.Ahead.of_unheld rfl hv hv⟩
  exact (h1.withM _).trans (State.storeDue_follows ..)

theorem State.brownOut_follows (s : State) : s.Follows s.brownOut := (s.coldReset_follows 2).setM _

theorem State.pinReset_follows (s : State) : s.Follows s.pinReset :=
  (((State.Follows.refl s).setM _).trans (State.coldReset_follows ..)).setM _

theorem State.pinRelease_follows (s : State) : s.Follows s.pinRelease := by
  unfold State.pinRelease
  extract_lets s'
  have h : s.Follows s' := (State.Follows.refl s).setM _
  split
  · exact h.trans (s'.bringUp_follows _)
  · exact h

theorem State.clockFault_follows (s : State) (src : ClockSrc) : s.Follows (s.clockFault src) := by
  have h := State.Follows.refl s
  cases src with
  | die d => exact State.Follows.ite h ((h.setM _).trans (State.dieReturn_follows ..))
  | chan c => exact State.Follows.ite h (h.setM _)
  | port q => exact State.Follows.ite h (h.setM _)

theorem State.updateDie_follows (s : State) (d : Nat) : s.Follows (s.updateDie d) :=
  State.Follows.ite (.refl s) ((((State.Follows.refl s).setM _).trans (State.dieReturn_follows ..)).setM _)

theorem State.mgmtRestart_follows (s : State) : s.Follows s.mgmtRestart := by
  unfold State.mgmtRestart
  have h := State.Follows.refl s
  refine State.Follows.ite h ?_
  extract_lets c run fell s1 s2 s3
  have h1 : s.Follows s1 := State.Follows.ite (h.writeSame rfl) h
  have h2 : s.Follows s2 := h1.setV rfl rfl
  have h3 : s.Follows s3 := h2.setM _
  clear_value run
  split
  · exact (h3.setV rfl rfl).setM _
  · extract_lets s4
    have h4 : s.Follows s4 := (h3.setV rfl rfl).setM _
    exact State.Follows.ite (h4.setM _) h4

theorem quoteReady_flash (m : Mach) (v : Vault) (who : Master) : (quoteReady m v who).flash = v.flash := by
  unfold quoteReady
  dsimp only
  split
  · rfl
  · split <;> rfl

theorem quoteReady_held (m : Mach) (v : Vault) (who : Master) : (quoteReady m v who).held = v.held := by
  unfold quoteReady
  dsimp only
  split
  · rfl
  · split <;> rfl

/-! ### Every command -/

/-- A command answers, with a state that follows. -/
def Answers (s : State) (o : Host.Outcome State Fault Refusal) : Prop := ∃ t : State, o = .next t ∧ s.Follows t

theorem State.onMach_answers (s : State) (f : Mach → Mach) : Answers s (s.onMach f) :=
  ⟨_, s.onMach_eq f, (State.Follows.refl s).settled _⟩

theorem State.Follows.finish_answers {s t : State} (h : s.Follows t) : Answers s t.finish := ⟨_, t.finish_eq, h.atRest⟩

theorem State.writeRow_answers (s : State) (rq : DictReq) (index sub : Nat) : Answers s (s.writeRow rq index sub) :=
  (s.request_follows rq 2 index sub).finish_answers

theorem exec_answers (c : Instr) (s : State) : Answers s (exec c s) := by
  have h := State.Follows.refl s
  unfold exec
  cases c with
  | oap hdr respAddr bufLen frame => exact (s.oapCommand_follows hdr respAddr.toNat bufLen frame).finish_answers
  | csrWrite addr size w => exact (s.csrWrite_follows ..).finish_answers
  | aopmWarm w => exact (s.csrWrite_follows ..).finish_answers
  | dieHold w => exact (s.csrWrite_follows ..).finish_answers
  | oapRead rq index sub => exact (s.request_follows ..).finish_answers
  | oapWrite rq index sub => exact (s.request_follows ..).finish_answers
  | oapInfo rq index sub => exact (s.request_follows ..).finish_answers
  | csrDataRead rq => exact (s.request_follows ..).finish_answers
  | quoteRead rq => exact (s.request_follows ..).finish_answers
  | storeCopyWrite ok => exact (s.storeDue_follows ok).finish_answers
  | nvInhibitEnd => exact s.inhibitEnd_follows.finish_answers
  | supplyGood obs =>
    exact (State.Follows.ite h (State.Follows.ite (h.setM _) (s.bringUp_follows obs))).finish_answers
  | brownOut => exact s.brownOut_follows.finish_answers
  | auxLoss => exact (s.coldReset_follows 3).finish_answers
  | overvoltage => exact ((h.setM _).trans (State.coldReset_follows _ 11)).finish_answers
  | overvoltageEnd => exact (State.Follows.ite ((h.setM _).trans (State.coldReset_follows _ 11)) h).finish_answers
  | modResetN => exact s.pinReset_follows.finish_answers
  | modResetNRelease => exact s.pinRelease_follows.finish_answers
  | clockFault src => exact (s.clockFault_follows src).finish_answers
  | thermalResetEnd die => exact (State.Follows.ite (s.coolDie_follows die) h).finish_answers
  | liveUpdateDieHeld die => exact (s.updateDie_follows die).finish_answers
  | mgmtFwRestarted => exact s.mgmtRestart_follows.finish_answers
  | quoteReady who => exact (h.setV (quoteReady_held ..) (congrArg Flash.ar (quoteReady_flash ..))).finish_answers
  | selftestRolling | selftestWholeModule | unfence | portModeWrite | groupDefinitionWrite | partitionModeWrite
  | handleCountWrite | optSlotWrite | lrScheduleWrite | tableMapWrite | hbmInterleaveWrite | svcDrain | svcReturn
  | svcRecalibrate | svcMargin | controlTokenWrite | restoreDefaults | logClear | csrDataWrite | resetCmdCold
  | resetCmdWarm | resetCmdDie | deepCmd | fwImageWrite | fwActivateMgmt | fwActivateGaffer | fwConfirm
  | keyRecordWrite | waiverWrite | quoteNonceWrite | ringPairWrite => exact s.writeRow_answers ..
  | _ => exact s.onMach_answers _

/-- A step answers, and the anti-rollback record does not go back. -/
theorem step_ahead {s t : State} (h : step s = .next t) : s.v.Ahead t.v := by
  unfold step at h
  split at h
  · next c rest _ =>
    obtain ⟨u, hu, hf⟩ := exec_answers c { s with pending := rest }
    rw [hu] at h
    cases h
    exact hf.2
  · cases h
    exact s.tick_follows.2

end Sys2Proof.Machine
end

section
/-! The statements about every command in every state. -/

namespace Sys2Proof
open Machine

/-- Settles O3: each operation on the state was shown to leave the queue. -/
theorem everyCommandAnswers : Obligations.EveryCommandAnswers := by
  unfold Obligations.EveryCommandAnswers
  intro c s
  obtain ⟨t, ht, hf⟩ := exec_answers c s
  exact ⟨t, ht, hf.1⟩

/-- Settles O60: every operation on the vault keeps the flash's record at or below the one in force, and lowers neither. -/
theorem antiRollbackNeverFalls : Obligations.AntiRollbackNeverFalls := by
  unfold Obligations.AntiRollbackNeverFalls
  intro s t hb h
  exact step_ahead h hb

end Sys2Proof
end

section
/-! Hardware events and the counters of SYNC: what an event, a signal and a wait change, and what they leave. -/

namespace Sys2Proof.Machine

/-! ### Dies -/

theorem Mach.die_updDie_same (m : Mach) {d : Nat} (f : Die → Die) (h : d < m.dies.length) : (m.updDie d f).die d = f (m.die d) := by
  simp [Mach.die, Mach.updDie, updAt, List.getD, h]

theorem Mach.die_updDie_ne (m : Mach) {d e : Nat} (f : Die → Die) (h : e ≠ d) : (m.updDie d f).die e = m.die e := by
  simp [Mach.die, Mach.updDie, updAt, List.getD, h.symm]

@[simp] theorem Mach.csrAt_updDie (m : Mach) (d : Nat) (f : Die → Die) (a : Nat) : (m.updDie d f).csrAt a = m.csrAt a := rfl
@[simp] theorem Mach.reg_updDie (m : Mach) (d : Nat) (f : Die → Die) (b : Blk) (e i off : Nat) :
    (m.updDie d f).reg b e i off = m.reg b e i off := rfl

/-- A change of a die that leaves a part of it leaves that part of every die. -/
theorem Mach.part_updDie {α : Type} (g : Die → α) (m : Mach) (d e : Nat) (f : Die → Die) (h : ∀ x, g (f x) = g x) :
    g ((m.updDie d f).die e) = g (m.die e) := by
  by_cases hd : e = d
  · subst hd
    by_cases hl : e < m.dies.length
    · rw [m.die_updDie_same f hl, h]
    · simp [Mach.die, Mach.updDie, updAt, List.getD, hl]
  · rw [m.die_updDie_ne f hd]

/-! ### Counters and bits leave the dies, and the dictionary's counters the registers -/

@[simp] theorem Mach.count_dies (m : Mach) (b : Blk) (d i off n : Nat) : (m.count b d i off n).dies = m.dies := by
  obtain ⟨c, h⟩ := m.count_frame b d i off n
  rw [h]
@[simp] theorem Mach.count_die (m : Mach) (b : Blk) (d i off n e : Nat) : (m.count b d i off n).die e = m.die e := by
  simp [Mach.die]
@[simp] theorem Mach.setBit_die (m : Mach) (b : Blk) (d i off k e : Nat) : (m.setBit b d i off k).die e = m.die e := by
  simp only [Mach.die, Mach.setBit, Mach.putReg_dies]
@[simp] theorem Mach.clrBit_die (m : Mach) (b : Blk) (d i off k e : Nat) : (m.clrBit b d i off k).die e = m.die e := by
  simp only [Mach.die, Mach.clrBit, Mach.putReg_dies]
@[simp] theorem Mach.setCtr_die (m : Mach) (d i v e : Nat) : (m.setCtr d i v).die e = m.die e := by
  simp only [Mach.die, Mach.setCtr, Mach.putReg_dies]
@[simp] theorem Mach.dadd_dies (m : Mach) (i sub n : Nat) : (m.dadd i sub n).dies = m.dies := by
  obtain ⟨c, h⟩ := m.dadd_frame i sub n
  rw [h]
@[simp] theorem Mach.dadd_csr (m : Mach) (i sub n : Nat) : (m.dadd i sub n).csr = m.csr := by
  obtain ⟨c, h⟩ := m.dadd_frame i sub n
  rw [h]
@[simp] theorem Mach.dadd_die (m : Mach) (i sub n e : Nat) : (m.dadd i sub n).die e = m.die e := by simp [Mach.die]
@[simp] theorem Mach.csrAt_dadd (m : Mach) (i sub n a : Nat) : (m.dadd i sub n).csrAt a = m.csrAt a := by simp [Mach.csrAt]
@[simp] theorem Mach.reg_dadd (m : Mach) (i sub n : Nat) (b : Blk) (d j off : Nat) :
    (m.dadd i sub n).reg b d j off = m.reg b d j off := m.csrAt_dadd ..

/-! ### Registers of one instance -/

section
variable {b c : Blk} {d i j off o : Nat} (m : Mach) (h : regAddr c d j o ≠ regAddr b d i off)
include h

theorem Mach.reg_putReg_ne (v : Nat) : (m.putReg b d i off v).reg c d j o = m.reg c d j o := csrAt_putReg_ne m v h
theorem Mach.reg_count_ne (n : Nat) : (m.count b d i off n).reg c d j o = m.reg c d j o := csrAt_count_ne m h
theorem Mach.reg_setBit_ne (k : Nat) : (m.setBit b d i off k).reg c d j o = m.reg c d j o := csrAt_setBit_ne m h
end

/-! ### Hardware events (R381) -/

theorem Mach.hwEvent_room (m : Mach) (code slot detail : Nat) {d : Nat}
    (hr : m.bit .event d 0 0 0 = true ∧ (m.die d).evq.length < 256) :
    m.hwEvent code d slot detail
      = (m.count .event d 0 0x20 1).updDie d fun x => { x with evq := x.evq ++ [⟨code, slot, detail, x.time⟩] } := by
  obtain ⟨hen, hlen⟩ := hr
  have hbit : (m.count .event d 0 0x20 1).bit .event d 0 0 0 = true := by
    rw [Mach.bit, m.reg_count_ne (regAddr_ne_of_off (by omega) (by omega) (by omega))]
    exact hen
  simp [Mach.hwEvent, hbit, hlen]

theorem Mach.hwEvent_full (m : Mach) (code slot detail : Nat) {d : Nat}
    (hr : ¬ (m.bit .event d 0 0 0 = true ∧ (m.die d).evq.length < 256)) :
    m.hwEvent code d slot detail
      = (((m.count .event d 0 0x20 1).count .event d 0 0x24 1).setBit .event d 0 4 1).dadd 0xA001 3 1 := by
  have hbit : (m.count .event d 0 0x20 1).bit .event d 0 0 0 = m.bit .event d 0 0 0 := by
    rw [Mach.bit, m.reg_count_ne (regAddr_ne_of_off (by omega) (by omega) (by omega)), Mach.bit]
  have hr' : ¬ ((m.bit .event d 0 0 0 && decide ((m.die d).evq.length < 256)) = true) := by simpa using hr
  simp only [Mach.hwEvent, hbit, if_neg hr']

/-- An event touches the registers, the dies and the dictionary alone. -/
theorem Mach.hwEvent_frame (m : Mach) (code d slot detail : Nat) :
    ∃ c x q, m.hwEvent code d slot detail = { m with csr := c, dies := x, dict := q } := by
  obtain ⟨c1, h1⟩ := m.count_frame .event d 0 0x20 1
  by_cases hr : m.bit .event d 0 0 0 = true ∧ (m.die d).evq.length < 256
  · rw [m.hwEvent_room code slot detail hr, h1]
    exact ⟨_, _, _, rfl⟩
  · obtain ⟨c2, h2⟩ := (m.count .event d 0 0x20 1).count_frame .event d 0 0x24 1
    obtain ⟨q, h3⟩ := (((m.count .event d 0 0x20 1).count .event d 0 0x24 1).setBit .event d 0 4 1).dadd_frame 0xA001 3 1
    rw [m.hwEvent_full code slot detail hr, h3, h2, h1]
    exact ⟨_, _, _, rfl⟩

/-- Of the registers an event changes EVENT's alone. -/
theorem Mach.csrAt_hwEvent (m : Mach) (code d slot detail : Nat) {a : Nat} (h1 : a ≠ regAddr .event d 0 0x20)
    (h2 : a ≠ regAddr .event d 0 0x24) (h3 : a ≠ regAddr .event d 0 4) : (m.hwEvent code d slot detail).csrAt a = m.csrAt a := by
  by_cases hr : m.bit .event d 0 0 0 = true ∧ (m.die d).evq.length < 256
  · rw [m.hwEvent_room code slot detail hr, Mach.csrAt_updDie, csrAt_count_ne _ h1]
  · rw [m.hwEvent_full code slot detail hr, Mach.csrAt_dadd, csrAt_setBit_ne _ h3, csrAt_count_ne _ h2, csrAt_count_ne _ h1]

/-- Of a die an event changes the queue alone. -/
theorem Mach.hwEvent_part {α : Type} (g : Die → α) (m : Mach) (code d slot detail e : Nat)
    (hg : ∀ (x : Die) q, g { x with evq := q } = g x) : g ((m.hwEvent code d slot detail).die e) = g (m.die e) := by
  by_cases hr : m.bit .event d 0 0 0 = true ∧ (m.die d).evq.length < 256
  · rw [m.hwEvent_room code slot detail hr, Mach.part_updDie g _ _ _ _ (fun x => hg x _), Mach.count_die]
  · rw [m.hwEvent_full code slot detail hr]
    simp

@[simp] theorem Mach.hwEvent_waitsOf (m : Mach) (code d slot detail e j : Nat) :
    (m.hwEvent code d slot detail).waitsOf e j = m.waitsOf e j :=
  congrArg (fun s : SyncDie => mapGetD s.waits j []) (m.hwEvent_part (fun x => x.sync) code d slot detail e fun _ _ => rfl)

/-! ### Counters of SYNC (R279 to R284) -/

theorem Mach.ctrVal_of_csrAt {m t : Mach} {d i : Nat}
    (h : t.csrAt (regAddr .sync d 0 (ctrOff i)) = m.csrAt (regAddr .sync d 0 (ctrOff i))) : t.ctrVal d i = m.ctrVal d i := by
  unfold Mach.ctrVal Mach.reg
  rw [h]

theorem Mach.waitsOf_of_die {m t : Mach} {d : Nat} (i : Nat) (h : t.die d = m.die d) : t.waitsOf d i = m.waitsOf d i := by
  unfold Mach.waitsOf
  rw [h]

theorem ctrOff_lt {i : Nat} (h : i < 4096) : ctrOff i < 0x20000 := by unfold ctrOff; omega

/-- The counters lie apart from SYNC's other registers. -/
theorem ctrAddr_ne_sync {d e i o : Nat} (hi : i < 4096) (ho : o < 0x1000) : regAddr .sync d 0 (ctrOff i) ≠ regAddr .sync e 0 o :=
  regAddr_ne_of_off (ctrOff_lt hi) (by omega) (by unfold ctrOff; omega)

theorem ctrAddr_ne_event {d e i o : Nat} (hi : i < 4096) (ho : o < 0x20000) :
    regAddr .sync d 0 (ctrOff i) ≠ regAddr .event e 0 o :=
  regAddr_ne_of_slot (ctrOff_lt hi) ho (by simp [slotOf]) (by simp [slotOf]) (by simp [slotOf])

/-- And so do EVENT's registers from SYNC's. -/
theorem syncAddr_ne_event {d e o p : Nat} (ho : o < 0x20000) (hp : p < 0x20000) :
    regAddr .sync d 0 o ≠ regAddr .event e 0 p :=
  regAddr_ne_of_slot ho hp (by simp [slotOf]) (by simp [slotOf]) (by simp [slotOf])

/-- Counters whose names differ lie apart. -/
theorem ctrAddr_ne {d e i j : Nat} (hi : i < 4096) (hj : j < 4096) (h : (d, i) ≠ (e, j)) :
    regAddr .sync d 0 (ctrOff i) ≠ regAddr .sync e 0 (ctrOff j) := by
  by_cases hd : d = e
  · have hij : i ≠ j := fun hij => h (by rw [hd, hij])
    exact regAddr_ne_of_off (ctrOff_lt hi) (ctrOff_lt hj) (by unfold ctrOff; omega)
  · exact regAddr_ne_of_die (ctrOff_lt hi) (ctrOff_lt hj) (by simp [slotOf]) (by simp [slotOf]) hd

theorem Mach.csrAt_hwEvent_sync (m : Mach) (code d slot detail : Nat) {e o : Nat} (ho : o < 0x20000) :
    (m.hwEvent code d slot detail).csrAt (regAddr .sync e 0 o) = m.csrAt (regAddr .sync e 0 o) :=
  m.csrAt_hwEvent code d slot detail (syncAddr_ne_event ho (by omega)) (syncAddr_ne_event ho (by omega))
    (syncAddr_ne_event ho (by omega))

/-- The value of a counter lies below its flags. -/
theorem fld_setFld_above (v x k : Nat) (h : 8 ≤ k) : fld (setFld v k k x) 7 0 = fld v 7 0 := by
  apply Nat.eq_of_testBit_eq
  intro j
  have hb := bitAt_setFld v k x j (le_refl k)
  simp only [fld, Nat.shiftRight_zero, Nat.testBit_mod_two_pow]
  by_cases hj : j < 8
  · have hlt : ¬ (k ≤ j ∧ j ≤ k) := by omega
    rw [if_neg hlt] at hb
    simp only [bitAt] at hb
    rw [hb]
  · have : ¬ j < 7 + 1 - 0 := by omega
    simp [this]

theorem Mach.ctrVal_setBit_flag (m : Mach) {d e i j k : Nat} (hi : i < 4096) (hj : j < 4096) (hk : 8 ≤ k) :
    (m.setBit .sync d 0 (ctrOff i) k).ctrVal e j = m.ctrVal e j := by
  by_cases h : (e, j) = (d, i)
  · obtain ⟨rfl, rfl⟩ := Prod.mk.inj h
    unfold Mach.ctrVal Mach.setBit
    rw [reg_putReg_same, fld_setFld_above _ _ _ hk]
  · exact Mach.ctrVal_of_csrAt (csrAt_setBit_ne m (ctrAddr_ne hj hi h))

theorem Mach.ctrVal_setCtr (m : Mach) (d i v : Nat) (h : v < 256) : (m.setCtr d i v).ctrVal d i = v := by
  simp [Mach.ctrVal, Mach.setCtr, fld, setFld]
  omega

theorem Mach.waitsOf_setWaits (m : Mach) {d : Nat} (i : Nat) (w : List PWait) (h : d < m.dies.length) :
    (m.setWaits d i w).waitsOf d i = w := by
  unfold Mach.waitsOf Mach.setWaits
  rw [m.die_updDie_same _ h]
  by_cases hw : w = [] <;> simp [hw, mapGetD]

@[simp] theorem Mach.ctrVal_setWaits (m : Mach) (d i e j : Nat) (w : List PWait) :
    (m.setWaits d i w).ctrVal e j = m.ctrVal e j := rfl

theorem Mach.setWaits_held (m : Mach) (d i e : Nat) (w : List PWait) : (m.setWaits d i w).syncHeld e = m.syncHeld e := by
  have hup : ((m.setWaits d i w).die e).up = (m.die e).up := Mach.part_updDie (fun x => x.up) m d e _ fun _ => rfl
  unfold Mach.syncHeld
  rw [hup]
  rfl

/-! ### Signals and waits -/

/-- A signal that gives no other one is done when it is given. -/
theorem Mach.signal_of_last {m t : Mach} {d i : Nat} (h : m.signalOne d i = (t, [])) : m.signal d i = t := by
  unfold Mach.signal Mach.signals
  dsimp only
  generalize ((m.die 0).sync.waits.map fun q => q.2.length).sum = a
  generalize ((m.die 1).sync.waits.map fun q => q.2.length).sum = b
  have hfuel : ([(d, i)] : List (Nat × Nat)).length + a + b = a + b + 1 := by
    rw [List.length_singleton]
    omega
  rw [hfuel]
  simp only [signalAll, h, List.append_nil]
  cases a + b <;> rfl

@[simp] theorem Mach.signals_nil (m : Mach) : m.signals [] = m := by
  unfold Mach.signals
  dsimp only
  generalize ([] : List (Nat × Nat)).length + _ + _ = n
  cases n <;> rfl

theorem serveWaits_none (d i n : Nat) (m : Mach) (h : m.waitsOf d i = []) : serveWaits d i n m = (m, []) := by
  cases n <;> simp [serveWaits, h]

/-- A counter whose oldest wait asks for more than it holds serves none. -/
theorem serveWaits_short {d i : Nat} (n : Nat) {m : Mach} {w : PWait} {ws : List PWait} (h : m.waitsOf d i = w :: ws)
    (hv : m.ctrVal d i < w.count) : serveWaits d i n m = (m, []) := by
  cases n <;> simp [serveWaits, h, hv]

theorem Mach.syncOn_of {m : Mach} {d : Nat} (hh : m.syncHeld d = false) (hb : m.bit .sync d 0 0 0 = true) : m.syncOn d = true := by
  simp [Mach.syncOn, hh, hb]

/-- What a signal does that finds the counter at 255 (R281). -/
theorem Mach.signal_saturated {m : Mach} {d i : Nat} (hh : m.syncHeld d = false) (hb : m.bit .sync d 0 0 0 = true)
    (hv : m.ctrVal d i = 255) :
    let p := (logicalCtr m.mode d i).1
    let l := (logicalCtr m.mode d i).2
    let t := ((m.count .sync d 0 0x24 1).dadd (0x5040 + p) 0x10 1).setBit .sync d 0 4 2
    m.signal d i = if t.bit .sync d 0 (ctrOff i) 8 then t
      else (t.setBit .sync d 0 (ctrOff i) 8).hwEvent evSignalSaturated d 4 (l + 65536 * p) := by
  intro p l t
  apply Mach.signal_of_last
  unfold Mach.signalOne
  simp only [hh, Mach.syncOn_of hh hb, hv, Bool.not_true, Bool.false_eq_true, if_false, if_true]
  exact (apply_ite (fun x : Mach => (x, ([] : List (Nat × Nat)))) _ _ _).symm

/-- What a signal does on a counter that nobody waits for (R279). -/
theorem Mach.signal_kept {m : Mach} {d i : Nat} (hh : m.syncHeld d = false) (hb : m.bit .sync d 0 0 0 = true)
    (hw : m.waitsOf d i = []) (hv : m.ctrVal d i < 255) :
    m.signal d i = (m.setCtr d i (m.ctrVal d i + 1)).count .sync d 0 0x20 1 := by
  apply Mach.signal_of_last
  unfold Mach.signalOne
  have h255 : ¬ m.ctrVal d i = 255 := by omega
  simp only [hh, Mach.syncOn_of hh hb, h255, Bool.not_true, Bool.false_eq_true, if_false]
  exact serveWaits_none _ _ _ _ ((Mach.waitsOf_of_die i (by simp)).trans hw)

/-- A wait behind one that is not satisfied is only posted. -/
theorem Mach.postWait_behind {m : Mach} {d i : Nat} {w : PWait} {ws : List PWait} (x : PWait) (hd : d < m.dies.length)
    (hh : m.syncHeld d = false) (hw : m.waitsOf d i = w :: ws) (hv : m.ctrVal d i < w.count) :
    m.postWait d i x = m.setWaits d i (w :: ws ++ [x]) := by
  unfold Mach.postWait
  simp only [hh, hw, Bool.false_eq_true, if_false]
  rw [serveWaits_short _ (m.waitsOf_setWaits i (w :: ws ++ [x]) hd) (by simpa using hv)]
  exact Mach.signals_nil _

/-- A wait of the firmware that is satisfied when it is posted. -/
theorem Mach.postWait_fw {m : Mach} {d i : Nat} {x : PWait} (hd : d < m.dies.length) (hh : m.syncHeld d = false)
    (hb : m.bit .sync d 0 0 0 = true) (hw : m.waitsOf d i = []) (hx : x.who = .fw) (hv : x.count ≤ m.ctrVal d i) :
    m.postWait d i x
      = (((((m.setWaits d i [x]).setCtr d i (m.ctrVal d i - x.count)).setWaits d i []).count .sync d 0 0x30 1).clrBit .sync d 0
          0x48 0).setBit .sync d 0 0x48 1 := by
  have hposted := m.waitsOf_setWaits i [x] hd
  have hheld : (m.setWaits d i [x]).syncHeld d = false := (m.setWaits_held ..).trans hh
  have hon : (m.setWaits d i [x]).syncOn d = true := Mach.syncOn_of hheld hb
  have hnot : ¬ m.ctrVal d i < x.count := by omega
  unfold Mach.postWait
  simp only [hh, hw, Bool.false_eq_true, if_false, List.nil_append, hposted, List.length_singleton]
  unfold serveWaits
  simp only [hposted, Mach.ctrVal_setWaits, hnot, hx, Mach.servable, hon, decide_false, Bool.not_true, Bool.or_self,
    Bool.false_eq_true, if_false, Mach.releaseWaiter, List.nil_append]
  rw [serveWaits_none]
  · exact Mach.signals_nil _
  · refine (Mach.waitsOf_of_die i ?_).trans (Mach.waitsOf_setWaits ((m.setWaits d i [x]).setCtr d i (m.ctrVal d i - x.count)) i []
      (by simpa [Mach.setCtr, Mach.setWaits, Mach.updDie, updAt] using hd))
    simp

end Sys2Proof.Machine
end

section
/-! The statements about events, signals and waits. -/

namespace Sys2Proof
open Machine

/-- Settles O43: by cases whether the queue has room. -/
theorem eventsQueueOrAreCounted : Obligations.EventsQueueOrAreCounted := by
  unfold Obligations.EventsQueueOrAreCounted
  intro m code d slot detail hd hlen t room
  have hother : (t.die (1 - d)).evq = (m.die (1 - d)).evq := by
    have hne : 1 - d ≠ d := by omega
    by_cases hr : room
    · rw [show t = _ from m.hwEvent_room code slot detail hr, Mach.die_updDie_ne _ _ hne, Mach.count_die]
    · rw [show t = _ from m.hwEvent_full code slot detail hr]
      simp
  have h20 : regAddr .event d 0 0x20 ≠ regAddr .event d 0 0x24 := regAddr_ne_of_off (by omega) (by omega) (by omega)
  have h24 : regAddr .event d 0 0x24 ≠ regAddr .event d 0 4 := regAddr_ne_of_off (by omega) (by omega) (by omega)
  have h204 : regAddr .event d 0 0x20 ≠ regAddr .event d 0 4 := regAddr_ne_of_off (by omega) (by omega) (by omega)
  by_cases hr : room
  · have ht : t = _ := m.hwEvent_room code slot detail hr
    refine ⟨?_, fun _ => ⟨?_, ?_⟩, fun hn => absurd hr hn, hother⟩
    · rw [ht, Mach.reg_updDie, reg_count_one]
    · rw [ht, Mach.die_updDie_same _ _ (by simp; omega), Mach.count_die]
    · rw [ht, Mach.reg_updDie, Mach.reg_count_ne _ h20.symm]
  · have ht : t = _ := m.hwEvent_full code slot detail hr
    refine ⟨?_, fun hn => absurd hn hr, fun _ => ⟨?_, ?_, ?_⟩, hother⟩
    · rw [ht, Mach.reg_dadd, Mach.reg_setBit_ne _ h204, Mach.reg_count_ne _ h20, reg_count_one]
    · rw [ht]
      simp
    · rw [ht, Mach.reg_dadd, Mach.reg_setBit_ne _ h24, reg_count_one, Mach.reg_count_ne _ h20.symm]
    · rw [ht, Mach.bit, Mach.reg_dadd]
      exact bit_setBit_same ..

/-- Settles O44: the flag of the counter lies above its value, and nothing else of the counters is touched. -/
theorem refusedWaitConsumesNothing : Obligations.RefusedWaitConsumesNothing := by
  unfold Obligations.RefusedWaitConsumesNothing
  intro m d i hd hi hlen t
  have ht : t = ((((m.setBit .sync d 0 (ctrOff i) 9).setBit .sync d 0 4 3).count .sync d 0 0x2C 1).dadd
      (0x5040 + (logicalCtr m.mode d i).1) 0x11 1).hwEvent evSignalWaitRefused d 4
      ((logicalCtr m.mode d i).2 + 65536 * (logicalCtr m.mode d i).1) := rfl
  have h2C : regAddr .sync d 0 0x2C ≠ regAddr .sync d 0 4 := regAddr_ne_of_off (by omega) (by omega) (by omega)
  obtain ⟨c, x, q, hframe⟩ := ((((m.setBit .sync d 0 (ctrOff i) 9).setBit .sync d 0 4 3).count .sync d 0 0x2C 1).dadd
    (0x5040 + (logicalCtr m.mode d i).1) 0x11 1).hwEvent_frame evSignalWaitRefused d 4
    ((logicalCtr m.mode d i).2 + 65536 * (logicalCtr m.mode d i).1)
  obtain ⟨c1, hcount⟩ := ((m.setBit .sync d 0 (ctrOff i) 9).setBit .sync d 0 4 3).count_frame .sync d 0 0x2C 1
  obtain ⟨q1, hdadd⟩ := (((m.setBit .sync d 0 (ctrOff i) 9).setBit .sync d 0 4 3).count .sync d 0 0x2C 1).dadd_frame
    (0x5040 + (logicalCtr m.mode d i).1) 0x11 1
  refine ⟨fun e j he hj => ⟨?_, ?_⟩, ?_, ?_, ?_, ?_, ?_⟩
  · calc t.ctrVal e j = (m.setBit .sync d 0 (ctrOff i) 9).ctrVal e j := by
          apply Mach.ctrVal_of_csrAt
          rw [ht, Mach.csrAt_hwEvent_sync _ _ _ _ _ (ctrOff_lt hj), Mach.csrAt_dadd,
            csrAt_count_ne _ (ctrAddr_ne_sync hj (by omega)), csrAt_setBit_ne _ (ctrAddr_ne_sync hj (by omega))]
      _ = m.ctrVal e j := m.ctrVal_setBit_flag hi hj (by omega)
  · rw [ht, Mach.hwEvent_waitsOf]
    exact Mach.waitsOf_of_die j (by simp)
  · rw [ht, Mach.bit, Mach.reg, Mach.csrAt_hwEvent_sync _ _ _ _ _ (ctrOff_lt hi), Mach.csrAt_dadd,
      csrAt_count_ne _ (ctrAddr_ne_sync hi (by omega)), csrAt_setBit_ne _ (ctrAddr_ne_sync hi (by omega))]
    exact bit_setBit_same ..
  · rw [ht, Mach.reg, Mach.csrAt_hwEvent_sync _ _ _ _ _ (by omega), Mach.csrAt_dadd]
    refine (reg_count_one ..).trans ?_
    rw [Mach.reg_setBit_ne _ h2C, Mach.reg_setBit_ne _ (ctrAddr_ne_sync hi (by omega)).symm]
  all_goals
    rw [ht, hframe, hdadd, hcount]
    rfl

/-- Settles O45: by cases whether the loss is the counter's first. -/
theorem saturatedSignalIsLost : Obligations.SaturatedSignalIsLost := by
  unfold Obligations.SaturatedSignalIsLost
  intro m d i hd hi hlen hheld hon hval t
  set p := (logicalCtr m.mode d i).1
  set l := (logicalCtr m.mode d i).2
  set u := ((m.count .sync d 0 0x24 1).dadd (0x5040 + p) 0x10 1).setBit .sync d 0 4 2 with hu
  have ht : t = if u.bit .sync d 0 (ctrOff i) 8 then u
      else (u.setBit .sync d 0 (ctrOff i) 8).hwEvent evSignalSaturated d 4 (l + 65536 * p) := Mach.signal_saturated hheld hon hval
  have hucsr {a : Nat} (h1 : a ≠ regAddr .sync d 0 0x24) (h2 : a ≠ regAddr .sync d 0 4) : u.csrAt a = m.csrAt a := by
    rw [hu, csrAt_setBit_ne _ h2, Mach.csrAt_dadd, csrAt_count_ne _ h1]
  have hudie (e : Nat) : u.die e = m.die e := by simp [hu]
  have hctr : u.csrAt (regAddr .sync d 0 (ctrOff i)) = m.csrAt (regAddr .sync d 0 (ctrOff i)) :=
    hucsr (ctrAddr_ne_sync hi (by omega)) (ctrAddr_ne_sync hi (by omega))
  have hflag : u.bit .sync d 0 (ctrOff i) 8 = m.bit .sync d 0 (ctrOff i) 8 := congrArg (bitAt · 8) hctr
  have huval : u.ctrVal d i = 255 := (Mach.ctrVal_of_csrAt hctr).trans hval
  have hulost : u.reg .sync d 0 0x24 = min 0xFFFFFFFF (m.reg .sync d 0 0x24 + 1) := by
    rw [hu, Mach.reg_setBit_ne _ (regAddr_ne_of_off (by omega) (by omega) (by omega)), Mach.reg_dadd, reg_count_one]
  rw [hflag] at ht
  cases hfirst : m.bit .sync d 0 (ctrOff i) 8 with
  | true =>
    rw [hfirst, if_pos rfl] at ht
    rw [ht]
    exact ⟨huval, Mach.waitsOf_of_die i (hudie d), hflag.trans hfirst, hulost, fun _ => by rw [hudie], by simp⟩
  | false =>
    rw [hfirst, if_neg (by simp)] at ht
    rw [ht]
    refine ⟨?_, ?_, ?_, ?_, by simp, ?_⟩
    · rw [Mach.ctrVal_of_csrAt (Mach.csrAt_hwEvent_sync _ _ _ _ _ (ctrOff_lt hi)), u.ctrVal_setBit_flag hi hi le_rfl, huval]
    · rw [Mach.hwEvent_waitsOf]
      exact Mach.waitsOf_of_die i (by rw [Mach.setBit_die, hudie])
    · rw [Mach.bit, Mach.reg, Mach.csrAt_hwEvent_sync _ _ _ _ _ (ctrOff_lt hi)]
      exact bit_setBit_same ..
    · rw [Mach.reg, Mach.csrAt_hwEvent_sync _ _ _ _ _ (by omega), csrAt_setBit_ne _ (ctrAddr_ne_sync hi (by omega)).symm]
      exact hulost
    · intro _ hev hroom
      have hroom' : (u.setBit .sync d 0 (ctrOff i) 8).bit .event d 0 0 0 = true
          ∧ ((u.setBit .sync d 0 (ctrOff i) 8).die d).evq.length < 256 := by
        constructor
        · rw [Mach.bit, Mach.reg_setBit_ne _ (ctrAddr_ne_event hi (by omega)).symm, Mach.reg,
            hucsr (syncAddr_ne_event (by omega) (by omega)).symm (syncAddr_ne_event (by omega) (by omega)).symm]
          exact hev
        · rw [Mach.setBit_die, hudie]
          exact hroom
      rw [Mach.hwEvent_room _ _ _ _ hroom', Mach.die_updDie_same _ _ (by simp [hu, hlen, Mach.setBit]; omega), Mach.count_die,
        Mach.setBit_die, hudie]
      exact ⟨_, rfl, rfl⟩

/-- Settles O46. -/
theorem waitsAreServedInOrder : Obligations.WaitsAreServedInOrder := by
  unfold Obligations.WaitsAreServedInOrder
  intro m d i w x ws hd hi hlen hheld
  have hdl : d < m.dies.length := by omega
  refine ⟨fun hon hw hv => ?_, fun hw hv => ?_, fun hon hw hx hv => ?_⟩
  · rw [Mach.signal_kept hheld hon hw hv, Mach.ctrVal_of_csrAt (csrAt_count_ne _ (ctrAddr_ne_sync hi (by omega)))]
    exact m.ctrVal_setCtr d i _ (by omega)
  · rw [Mach.postWait_behind x hdl hheld hw hv]
    exact ⟨m.waitsOf_setWaits i _ hdl, rfl, rfl⟩
  · rw [Mach.postWait_fw hdl hheld hon hw hx hv]
    constructor
    · refine (Mach.waitsOf_of_die i ?_).trans (Mach.waitsOf_setWaits ((m.setWaits d i [x]).setCtr d i (m.ctrVal d i - x.count)) i []
        (by simpa [Mach.setCtr, Mach.setWaits, Mach.updDie, updAt] using hdl))
      simp
    · have hval : m.ctrVal d i < 256 := by
        unfold Mach.ctrVal fld
        exact Nat.mod_lt _ (by norm_num)
      calc _ = ((m.setWaits d i [x]).setCtr d i (m.ctrVal d i - x.count)).ctrVal d i := by
            apply Mach.ctrVal_of_csrAt
            rw [csrAt_setBit_ne _ (ctrAddr_ne_sync hi (by omega)), csrAt_clrBit_ne _ (ctrAddr_ne_sync hi (by omega)),
              csrAt_count_ne _ (ctrAddr_ne_sync hi (by omega))]
            rfl
        _ = _ := Mach.ctrVal_setCtr _ d i _ (by omega)

end Sys2Proof
end

section
/-! Writes of registers: which bits they change, and what the lock turns away. -/

namespace Sys2Proof.Machine

/-! ### The bits of a written word (R367, R368) -/

theorem bitAt_or (v w k : Nat) : bitAt (v ||| w) k = (bitAt v k || bitAt w k) := Nat.testBit_or ..
theorem bitAt_and (v w k : Nat) : bitAt (v &&& w) k = (bitAt v k && bitAt w k) := Nat.testBit_and ..
theorem bitAt_xor (v w k : Nat) : bitAt (v ^^^ w) k = (bitAt v k ^^ bitAt w k) := Nat.testBit_xor ..

/-- The complement of a word within its 32 bits. -/
theorem bitAt_complement (w : Nat) {k : Nat} (h : k < 32) : bitAt (0xFFFFFFFF ^^^ w) k = !bitAt w k := by
  have hones : bitAt 0xFFFFFFFF k = true := by
    have := Nat.testBit_two_pow_sub_one 32 k
    simpa [bitAt, h] using this
  rw [bitAt_xor, hones, Bool.true_xor]

theorem bitAt_newWord (m : Mach) (b : Blk) (d i off : Nat) (r : RegRow) (v : Nat) {k : Nat} (h : k < 32) :
    bitAt (m.newWord b d i off r v) k = if bitAt (rwMask b i off r) k then bitAt v k else bitAt (m.reg b d i off) k := by
  unfold Mach.newWord
  rw [bitAt_or, bitAt_and, bitAt_and, bitAt_complement _ h]
  cases bitAt (rwMask b i off r) k <;> simp

/-! ### The lock (R369) -/

theorem Mach.touch_frame (m : Mach) (d s : Nat) : ∃ p, m.touch d s = { m with power := p } := by
  unfold Mach.touch
  split
  · exact ⟨m.power, rfl⟩
  · split
    · exact ⟨_, rfl⟩
    · exact ⟨_, rfl⟩
    · split
      · exact ⟨_, rfl⟩
      · exact ⟨m.power, rfl⟩
    · exact ⟨m.power, rfl⟩

/-- A configuration write that meets the lock. -/
theorem rowUpd_locked {m : Mach} {b : Blk} {d i sl off v clr : Nat} {r : RegRow} (hc : r.cls = .config)
    (hl : m.locked b d i = true) : m.rowUpd b d i sl off r v clr = m.lockedWrite b d i := by
  unfold Mach.rowUpd
  rw [hc]
  simp [hl]

theorem regUpd_locked {m : Mach} {b : Blk} {d sl i off lb clr : Nat} {pb : Option Nat} {r : RegRow} {f : Nat → Nat}
    (hb : blockAt d sl = some (b, i)) (hr : regRow b off = some r) (hc : r.cls = .config) (hlb : lockBits b = some (lb, pb))
    (hl : m.locked b d i = true) : m.regUpd d sl off f clr = ((m.touch d sl).setBit b d i 4 lb).count .gcnt d 0 0x10 1 := by
  obtain ⟨p, hp⟩ := m.touch_frame d sl
  have hl' : (m.touch d sl).locked b d i = true := by
    rw [hp]
    exact hl
  rw [regUpd_listed m f clr hb hr, rowUpd_locked hc hl']
  simp only [Mach.lockedWrite, hlb]

/-- The map of a block reaches no further than its slot. -/
theorem regRow_off_lt {b : Blk} {off : Nat} {r : RegRow} (hr : regRow b off = some r) : off < 0x20000 := by
  have hlast : ∀ q ∈ blkMap b, q.last < 0x20000 := by
    cases b <;> decide
  unfold regRow at hr
  split at hr
  · cases hr
  · have hoff := List.find?_some hr
    have hq := hlast r (List.mem_of_find?_eq_some hr)
    simp only [Bool.and_eq_true, decide_eq_true_eq] at hoff
    omega

/-- The status register of a block that has a lock is no configuration register. -/
theorem regRow_status_class {b : Blk} (h : (lockBits b).isSome = true) :
    ((regRow b 4).all fun r => r.cls != .config) = true := by
  revert h
  cases b <;> decide

/-- Where a slot's block lies. -/
theorem slot_of_blockAt {d sl i : Nat} {b : Blk} (h : blockAt d sl = some (b, i)) : slotOf b i = sl ∧ sl < 512 := by
  let InSlot (o : Option (Blk × Nat)) : Prop := ∀ q ∈ o, slotOf q.1 q.2 = sl ∧ sl < 512
  have hall : InSlot (blockAt d sl) := by
    unfold blockAt
    repeat' refine iteInduction (motive := InSlot) (fun _ => ?_) (fun _ => ?_)
    all_goals
      intro q hq
      cases hq <;> exact ⟨by simp only [slotOf]; omega, by omega⟩
  exact hall _ h

end Sys2Proof.Machine
end

section
/-! The statements about written bits and locked registers. -/

namespace Sys2Proof
open Machine

/-- Settles O41: each window's word, bit for bit, through the mask of the RW bits. -/
theorem writesChangeOnlyWritableBits : Obligations.WritesChangeOnlyWritableBits := by
  unfold Obligations.WritesChangeOnlyWritableBits
  intro m b d i off k bit r w hk hbit old after rw'
  have hafter (v : Nat) : after v = if rw' then bitAt v k else bitAt old k := bitAt_newWord m b d i off r v hk
  refine ⟨hafter w, ?_, ?_, ?_, ?_⟩
  · rw [hafter, bitAt_or]
    cases rw' <;> simp
  · rw [hafter, bitAt_and, bitAt_complement _ hk]
    cases rw' <;> simp
  · rw [hafter, bitAt_xor]
    cases rw' <;> simp
  · rw [hafter, bitAt_setFld _ _ _ _ le_rfl]
    by_cases hkb : k = bit
    · subst hkb
      simp
    · have hne : ¬ (bit ≤ k ∧ k ≤ bit) := by omega
      rw [if_neg hne]
      simp [hkb]

/-- Settles O42: the two registers that the turned-away write changes are others than the one written. -/
theorem lockedRegisterKeepsItsValue : Obligations.LockedRegisterKeepsItsValue := by
  unfold Obligations.LockedRegisterKeepsItsValue
  intro m d sl off i lb pb b r f clr hd hb hr hcls hlb hlock t
  have ht : t = ((m.touch d sl).setBit b d i 4 lb).count .gcnt d 0 0x10 1 := regUpd_locked hb hr hcls hlb hlock
  obtain ⟨p, hp⟩ := m.touch_frame d sl
  have hoff := regRow_off_lt hr
  have hsl : slotOf b i < 512 := (slot_of_blockAt hb).1 ▸ (slot_of_blockAt hb).2
  have hne4 : off ≠ 4 := by
    rintro rfl
    have hst := regRow_status_class (b := b) (by rw [hlb]; rfl)
    rw [hr] at hst
    simp [hcls] at hst
  have hgcnt : slotOf b i ≠ 2 := by
    cases b <;> simp [lockBits] at hlb <;> simp only [slotOf] <;> omega
  have hself : regAddr b d i off ≠ regAddr b d i 4 := regAddr_ne_of_off hoff (by omega) hne4
  have hcount : regAddr b d i off ≠ regAddr .gcnt d 0 0x10 :=
    regAddr_ne_of_slot hoff (by omega) hsl (by simp [slotOf]) fun h => hgcnt (congrArg Prod.snd h)
  have hflag : regAddr b d i 4 ≠ regAddr .gcnt d 0 0x10 := regAddr_ne_of_off (by omega) (by omega) (by omega)
  have hother {a : Nat} (h4 : a ≠ regAddr b d i 4) (h10 : a ≠ regAddr .gcnt d 0 0x10) : t.csrAt a = m.csrAt a := by
    rw [ht, csrAt_count_ne _ h10, csrAt_setBit_ne _ h4, hp]
    rfl
  obtain ⟨c, hc⟩ := ((m.touch d sl).setBit b d i 4 lb).count_frame .gcnt d 0 0x10 1
  refine ⟨hother hself hcount, ?_, ?_, fun a => hother, ?_, ?_⟩
  · rw [ht, Mach.bit, Mach.reg, csrAt_count_ne _ hflag]
    exact bit_setBit_same ..
  · rw [ht, reg_count_one, Mach.reg, csrAt_setBit_ne _ hflag.symm, hp]
    rfl
  all_goals
    rw [ht, hc, hp]
    rfl

end Sys2Proof
end

section
/-! Memory: a store read back, and what a DMA stores. -/

namespace Sys2Proof.Machine

/-! ### Cells -/

theorem mapGet_append {α : Type} (l r : List (Nat × α)) (k : Nat) : mapGet (l ++ r) k = (mapGet l k).or (mapGet r k) := by
  induction l with
  | nil => simp [mapGet]
  | cons q l ih =>
    by_cases hq : q.1 = k
    · simp [mapGet, hq]
    · simp [mapGet, hq, ih]

/-- A filter that keeps the cells of a key keeps its value. -/
theorem mapGet_filter_of_keep {α : Type} (l : List (Nat × α)) (p : Nat × α → Bool) {k : Nat} (h : ∀ v, p (k, v) = true) :
    mapGet (l.filter p) k = mapGet l k := by
  induction l with
  | nil => rfl
  | cons q l ih =>
    obtain ⟨j, v⟩ := q
    by_cases hj : j = k
    · subst hj
      simp [h v, mapGet]
    · by_cases hp : p (j, v) = true
      · simp [hp, mapGet, hj, ih]
      · simp [hp, mapGet, hj, ih]

theorem mapGet_eq_none {α : Type} {l : List (Nat × α)} {k : Nat} (h : ∀ q ∈ l, q.1 ≠ k) : mapGet l k = none := by
  induction l with
  | nil => rfl
  | cons q l ih =>
    obtain ⟨hq, hl⟩ := List.forall_mem_cons.1 h
    simpa [mapGet, hq] using ih hl

theorem memByte_append (l r : List Host.Cell) {b : Nat} (h : mapGet l b = none) : memByte (l ++ r) b = memByte r b := by
  simp [memByte, mapGet_append, h]

theorem memByte_cellsOf (bs : Bytes) (a b : Nat) :
    memByte (cellsOf a bs) b = if a ≤ b ∧ b < a + bs.length then bs.getD (b - a) 0 else 0 := by
  induction bs generalizing a with
  | nil =>
    have : ¬ (a ≤ b ∧ b < a + ([] : Bytes).length) := by simp
    rw [if_neg this]
    rfl
  | cons x bs ih =>
    have hhead : memByte (cellsOf (a + 1) bs) a = 0 := by
      rw [memByte, mapGet_eq_none fun q hq => Nat.ne_of_gt ((cellsOf_sorted bs (a + 1)).2 q hq).1]
      rfl
    have hcons : memByte (cellsOf a (x :: bs)) b = if a = b then x else memByte (cellsOf (a + 1) bs) b := by
      rw [show cellsOf a (x :: bs) = if x = 0 then cellsOf (a + 1) bs else (a, x) :: cellsOf (a + 1) bs from rfl]
      by_cases hx : x = 0
      · rw [if_pos hx]
        by_cases hab : a = b
        · rw [if_pos hab, ← hab, hhead, hx]
        · rw [if_neg hab]
      · rw [if_neg hx]
        by_cases hab : a = b <;> simp [memByte, mapGet, hab]
    rw [hcons, ih]
    by_cases hab : a = b
    · subst hab
      simp
    · by_cases hin : a + 1 ≤ b ∧ b < a + 1 + bs.length
      · have h1 : a ≤ b ∧ b < a + (x :: bs).length := by
          rw [List.length_cons]
          omega
        have h2 : b - a = b - (a + 1) + 1 := by omega
        rw [if_neg hab, if_pos hin, if_pos h1, h2, List.getD_cons_succ]
      · have h1 : ¬ (a ≤ b ∧ b < a + (x :: bs).length) := by
          rw [List.length_cons]
          omega
        rw [if_neg hab, if_neg hin, if_neg h1]

/-- A store changes the bytes it names and no other. -/
theorem memByte_memStore (mem : List Host.Cell) (a b : Nat) (bs : Bytes) :
    memByte (memStore mem a bs) b = if a ≤ b ∧ b < a + bs.length then bs.getD (b - a) 0 else memByte mem b := by
  have hcells := (cellsOf_sorted bs a).2
  unfold memStore
  rw [List.append_assoc]
  by_cases hlow : b < a
  · have hkeep : mapGet (mem.filter fun c => c.1 < a) b = mapGet mem b := mapGet_filter_of_keep _ _ fun _ => by simpa using hlow
    have hrest : mapGet (cellsOf a bs ++ mem.filter fun c => a + bs.length ≤ c.1) b = none := by
      refine mapGet_eq_none fun q hq => ?_
      rcases List.mem_append.1 hq with hq | hq
      · have := (hcells q hq).1
        omega
      · have : a + bs.length ≤ q.1 := by simpa using (List.mem_filter.1 hq).2
        omega
    rw [if_neg (by omega)]
    simp [memByte, mapGet_append, hkeep, hrest]
  · have hfirst : mapGet (mem.filter fun c => c.1 < a) b = none := by
      refine mapGet_eq_none fun q hq => ?_
      have : q.1 < a := by simpa using (List.mem_filter.1 hq).2
      omega
    rw [memByte_append _ _ hfirst]
    by_cases hin : b < a + bs.length
    · have hlast : mapGet (mem.filter fun c => a + bs.length ≤ c.1) b = none := by
        refine mapGet_eq_none fun q hq => ?_
        have : a + bs.length ≤ q.1 := by simpa using (List.mem_filter.1 hq).2
        omega
      have hmid := memByte_cellsOf bs a b
      simp only [memByte, mapGet_append, hlast, Option.or_none] at hmid ⊢
      rw [hmid]
      simp [hin, show a ≤ b by omega]
    · have hmid : mapGet (cellsOf a bs) b = none := mapGet_eq_none fun q hq => by
        have := (hcells q hq).2
        omega
      rw [memByte_append _ _ hmid, if_neg (by omega), memByte,
        mapGet_filter_of_keep _ _ fun _ => by simpa using (show a + bs.length ≤ b by omega), memByte]

/-! ### Wide reads -/

theorem memBytes_eq (mem : List Host.Cell) (a n : Nat) : memBytes mem a n = (List.range n).map fun i => memByte mem (a + i) := by
  unfold memBytes
  refine List.map_congr_left fun i hi => ?_
  have hi : i < n := List.mem_range.1 hi
  rw [memByte, mapGet_filter_of_keep _ _ fun _ => by simpa using hi, memByte]

theorem memBytes_congr {mem mem' : List Host.Cell} {a n : Nat} (h : ∀ i < n, memByte mem (a + i) = memByte mem' (a + i)) :
    memBytes mem a n = memBytes mem' a n := by
  rw [memBytes_eq, memBytes_eq]
  exact List.map_congr_left fun i hi => h i (List.mem_range.1 hi)

theorem memBytes_memStore_same (mem : List Host.Cell) (a : Nat) (bs : Bytes) : memBytes (memStore mem a bs) a bs.length = bs := by
  rw [memBytes_eq]
  apply List.ext_getElem
  · simp
  · intro i hi hi'
    rw [List.getElem_map, List.getElem_range, memByte_memStore, if_pos (by omega), Nat.add_sub_cancel_left]
    simp [hi']

theorem memBytes_memStore_apart (mem : List Host.Cell) {a b n : Nat} (bs : Bytes) (h : b + n ≤ a ∨ a + bs.length ≤ b) :
    memBytes (memStore mem a bs) b n = memBytes mem b n :=
  memBytes_congr fun i hi => by rw [memByte_memStore, if_neg (by omega)]

/-! ### Units that have lost their contents -/

theorem Mach.over_length (m : Mach) (a : Nat) (bs : Bytes) : (m.over a bs).length = bs.length := by
  unfold Mach.over
  split <;> simp

/-- What is under the bytes is taken off again. -/
theorem Mach.over_over (m : Mach) (a : Nat) (bs : Bytes) : m.over a (m.over a bs) = bs := by
  unfold Mach.over
  split
  · rfl
  · apply List.ext_getElem
    · simp
    · intro i hi hi'
      simp

theorem Mach.over_getD (m : Mach) (a : Nat) (bs : Bytes) {i : Nat} (h : i < bs.length) :
    (m.over a bs).getD i 0 = (m.over (a + i) [bs.getD i 0]).headD 0 := by
  unfold Mach.over
  split <;> simp [h]

/-! ### A single byte of the machine's memory -/

theorem memBytes_one (mem : List Host.Cell) (b : Nat) : memBytes mem b 1 = [memByte mem b] := by simp [memBytes_eq]

theorem Mach.bytesAt_one (m : Mach) (b : Nat) : m.bytesAt b 1 = m.over b [memByte m.mem b] := by
  rw [Mach.bytesAt, memBytes_one]

/-- The bytes at `b` once `bs` lie at `a`. -/
def Mach.withBytes (m : Mach) (a b : Nat) (bs : Bytes) : Bytes :=
  if a ≤ b ∧ b < a + bs.length then [bs.getD (b - a) 0] else m.bytesAt b 1

/-- What is under the bytes goes by the lost units and the interleave. -/
theorem Mach.over_congr {m t : Mach} (hl : t.lost = m.lost) (hf : t.fineMode = m.fineMode) (a : Nat) (bs : Bytes) :
    t.over a bs = m.over a bs := by
  unfold Mach.over Mach.under
  rw [hl, hf]

/-- A machine whose memory is the old one with bytes stored. -/
theorem Mach.bytesAt_of_store {m t : Mach} {a : Nat} {bs : Bytes} (hl : t.lost = m.lost) (hf : t.fineMode = m.fineMode)
    (hm : t.mem = memStore m.mem a (m.over a bs)) (b : Nat) : t.bytesAt b 1 = m.withBytes a b bs := by
  rw [Mach.bytesAt_one, Mach.over_congr hl hf, hm, memByte_memStore, Mach.over_length]
  unfold Mach.withBytes
  by_cases h : a ≤ b ∧ b < a + bs.length
  · have hlen : b - a < bs.length := by omega
    have hat : a + (b - a) = b := by omega
    have hone : m.over b [bs.getD (b - a) 0] = [(m.over b [bs.getD (b - a) 0]).headD 0] := by
      obtain ⟨x, hx⟩ := List.length_eq_one_iff.1 (m.over_length b [bs.getD (b - a) 0])
      rw [hx]
      rfl
    rw [if_pos h, if_pos h, m.over_getD a bs hlen, hat, ← hone, m.over_over]
  · rw [if_neg h, if_neg h, Mach.bytesAt_one]

end Sys2Proof.Machine
end

section
/-! The statement about stores. -/

namespace Sys2Proof
open Machine

/-- Settles O47: byte for byte, then over what a lost unit holds. -/
theorem memoryReadsBackWhatWasStored : Obligations.MemoryReadsBackWhatWasStored := by
  unfold Obligations.MemoryReadsBackWhatWasStored
  intro mem a b bs
  refine ⟨memByte_memStore mem a b bs, memBytes_memStore_same mem a bs, fun h => memBytes_memStore_apart mem bs h, fun m => ⟨?_, fun h => ?_⟩⟩
  · calc (m.storeAt a bs).bytesAt a bs.length = m.over a (memBytes (memStore m.mem a (m.over a bs)) a (m.over a bs).length) := by
          rw [Mach.over_length]
          rfl
      _ = bs := by rw [memBytes_memStore_same, Mach.over_over]
  · calc (m.storeAt a bs).bytesAt b bs.length = m.over b (memBytes (memStore m.mem a (m.over a bs)) b bs.length) := rfl
      _ = m.bytesAt b bs.length := by
          rw [memBytes_memStore_apart _ _ (by rw [Mach.over_length]; exact h)]
          rfl

end Sys2Proof
end

section
/-! Writes of memory without damage, and what a DMA's write leaves: the streams, the link, and the groups but for their saves. -/

namespace Sys2Proof.Machine

/-! ### A write of memory without damage -/

/-- Rounds that touch the registers alone. -/
theorem foldl_csr {α : Type} {f : Mach → α → Mach} (h : ∀ m a, ∃ c, f m a = { m with csr := c }) (l : List α) (m : Mach) :
    ∃ c, l.foldl f m = { m with csr := c } :=
  foldl_keeps (fun t : Mach => ∃ c, t = { m with csr := c }) f (fun t a ⟨c, ht⟩ => by
    obtain ⟨c', hc⟩ := h t a
    exact ⟨c', by rw [hc, ht]⟩) l m ⟨m.csr, rfl⟩

theorem Mach.suspects_nil {m : Mach} (h : m.chk = []) (a n : Nat) : m.suspects a n = [] := by
  simp [Mach.suspects, h]

theorem Mach.shakyIn_nil {m : Mach} (h : m.shaky = []) (a n : Nat) : m.shakyIn a n = [] := by
  simp [Mach.shakyIn, h]

theorem Mach.parityLost_steady {m : Mach} (h : m.shaky = []) (source a n : Nat) : m.parityLost source a n = m := by
  have hhits : m.parityHits source a n = { m with shaky := [] } := by
    simp [Mach.parityHits, Mach.shakyIn_nil h, h]
  rw [Mach.parityLost, Mach.shakyIn_nil h, List.foldl_nil, hhits, ← h]

/-- What a write leaves where no codeword is damaged and no access fails parity: registers that count, and the bytes. -/
theorem Mach.memPut_sound {m : Mach} (hchk : m.chk = []) (hshaky : m.shaky = []) (source a : Nat) (bs : Bytes) :
    ∃ c l, m.memPut source a bs = { m with csr := c, mem := l }
      ∧ ∀ b, ({ m with csr := c, mem := l } : Mach).bytesAt b 1 = m.withBytes a b bs := by
  by_cases hn : bs.length = 0
  · refine ⟨m.csr, m.mem, by simp [Mach.memPut, Mach.memWrite, hn], fun b => ?_⟩
    rw [Mach.withBytes, if_neg (by omega)]
  · unfold Mach.memPut Mach.memWrite
    extract_lets n u m1 first last part ends m2 lo hi whole rmw
    obtain ⟨c1, hc1⟩ := m.countRange_frame 0x14 (a / u * u) (roundUp (a + n) u - a / u * u)
    obtain ⟨c2, hc2⟩ : ∃ c, m2 = { m1 with csr := c } := foldl_csr (fun t k => by
      split
      · exact ⟨t.csr, rfl⟩
      · next mu _ =>
        obtain ⟨x, hx⟩ := t.memCount_frame mu 0x18 1
        obtain ⟨y, hy⟩ := (t.memCount mu 0x18 1).memCount_frame mu 0x10 (u / 16)
        exact ⟨y, by rw [hy, hx]⟩) _ _
    have h2 : m2 = { m with csr := c2 } := by
      rw [hc2, show m1 = _ from hc1]
    have hsus : m2.suspects lo (hi - lo) = [] := Mach.suspects_nil (by rw [h2]; exact hchk) ..
    rw [if_neg hn, hsus]
    have hput : ({ m2.storeAt a bs with chk := m2.chk.filter fun q =>
        !((rmw q.1 && lo ≤ q.1 && q.1 < hi) || (a ≤ q.1 && q.1 < a + n)) } : Mach)
        = { m with csr := c2, mem := memStore m.mem a (m.over a bs) } := by
      rw [h2]
      simp only [hchk, List.filter_nil]
      rw [← hchk]
      rfl
    refine ⟨c2, memStore m.mem a (m.over a bs), ?_, fun b =>
      Mach.bytesAt_of_store (m := m) (t := { m with csr := c2, mem := memStore m.mem a (m.over a bs) }) rfl rfl rfl b⟩
    simp only [List.foldl_nil]
    rw [hput, Mach.parityLost_steady]
    exact hshaky

/-! ### What accesses of memory leave alone -/

/-- The contexts, the groups and the link stay. -/
def Mach.SameStreams (m t : Mach) : Prop := t.ctxs = m.ctxs ∧ t.groups = m.groups ∧ t.link = m.link

theorem Mach.SameStreams.refl (m : Mach) : m.SameStreams m := ⟨rfl, rfl, rfl⟩

theorem Mach.SameStreams.trans {m t u : Mach} (h : m.SameStreams t) (k : t.SameStreams u) : m.SameStreams u := by
  obtain ⟨h1, h2, h3⟩ := h
  obtain ⟨k1, k2, k3⟩ := k
  exact ⟨k1.trans h1, k2.trans h2, k3.trans h3⟩

theorem Mach.SameStreams.foldl {α : Type} {f : Mach → α → Mach} (h : ∀ (m : Mach) a, m.SameStreams (f m a)) (l : List α) (m : Mach) :
    m.SameStreams (l.foldl f m) :=
  foldl_keeps (fun t : Mach => m.SameStreams t) f (fun t a ht => ht.trans (h t a)) l m (.refl m)

theorem Mach.SameStreams.ite {m t u : Mach} {c : Prop} [Decidable c] (ht : m.SameStreams t) (hu : m.SameStreams u) :
    m.SameStreams (if c then t else u) :=
  iteInduction (fun _ => ht) fun _ => hu

theorem Mach.dadd_streams (m : Mach) (i sub n : Nat) : m.SameStreams (m.dadd i sub n) := by
  obtain ⟨c, h⟩ := m.dadd_frame i sub n
  rw [h]
  exact .refl m

theorem Mach.memCount_streams (m : Mach) (u : MemUnit) (off n : Nat) : m.SameStreams (m.memCount u off n) := by
  obtain ⟨c, h⟩ := m.memCount_frame u off n
  rw [h]
  exact .refl m

theorem Mach.countRange_streams (m : Mach) (off a n : Nat) : m.SameStreams (m.countRange off a n) := by
  obtain ⟨c, h⟩ := m.countRange_frame off a n
  rw [h]
  exact .refl m

theorem Mach.updChan_streams (m : Mach) (c : Chan) (f : ChanSt → ChanSt) : m.SameStreams (m.updChan c f) := ⟨rfl, rfl, rfl⟩
theorem Mach.fwEvent_streams (m : Mach) (code die slot : Nat) (part : Option Nat) (detail : Bytes) :
    m.SameStreams (m.fwEvent code die slot part detail) := ⟨rfl, rfl, rfl⟩
theorem Mach.putReg_streams (m : Mach) (b : Blk) (d i off v : Nat) : m.SameStreams (m.putReg b d i off v) := ⟨rfl, rfl, rfl⟩
theorem Mach.setBit_streams (m : Mach) (b : Blk) (d i off k : Nat) : m.SameStreams (m.setBit b d i off k) := ⟨rfl, rfl, rfl⟩
theorem Mach.fixCodeword_streams (m : Mach) (cw sym : Nat) (e : Gf) : m.SameStreams (m.fixCodeword cw sym e) := ⟨rfl, rfl, rfl⟩

theorem Mach.memError_streams (m : Mach) (a : Nat) (y : Syn) (cls sym source : Nat) :
    m.SameStreams (m.memError a y cls sym source) := by
  unfold Mach.memError
  split
  · exact .refl m
  · next u _ =>
    extract_lets er m1
    have h1 : m.SameStreams m1 := ⟨rfl, rfl, rfl⟩
    have hcount (off sub : Nat) : m.SameStreams ((m1.memCount u off 1).dadd 0x6002 sub 1) :=
      (h1.trans (m1.memCount_streams ..)).trans (Mach.dadd_streams ..)
    refine .ite (hcount 0x1C 0x10) (.ite h1 ?_)
    split
    · exact hcount 0x20 0x11
    · next c _ =>
      have hchan := (hcount 0x20 0x11).trans
        (Mach.updChan_streams _ c fun s => { s with ues := ((m1.memCount u 0x20 1).dadd 0x6002 0x11 1).power.aoMs :: s.ues })
      exact .ite hchan (((hchan.trans (Mach.setBit_streams ..)).trans (Mach.putReg_streams ..)).trans (Mach.putReg_streams ..))

theorem Mach.ceStorm_streams (m : Mach) (u : MemUnit) : m.SameStreams (m.ceStorm u) := by
  unfold Mach.ceStorm
  split
  · exact .refl m
  · extract_lets now m1 s
    have h1 : m.SameStreams m1 := m.updChan_streams ..
    exact .ite (.ite h1 ((h1.trans (Mach.updChan_streams ..)).trans (Mach.fwEvent_streams ..)))
      (h1.trans (Mach.updChan_streams ..))

theorem Mach.logBad_streams (m : Mach) (cw source : Nat) (poison : Bool) (y : Syn) :
    m.SameStreams (m.logBad cw source poison y) := by
  unfold Mach.logBad
  refine .ite (.refl m) (.ite (m.memError_streams ..) ?_)
  split
  · exact (m.memError_streams ..).trans (Mach.fwEvent_streams ..)
  · exact m.memError_streams ..

theorem Mach.parityHits_streams (m : Mach) (source a n : Nat) : m.SameStreams (m.parityHits source a n) :=
  Mach.SameStreams.trans (t := { m with shaky := _ }) ⟨rfl, rfl, rfl⟩
    (.foldl (fun t _ => Mach.SameStreams.trans (t := t.freeSyn.1) ⟨rfl, rfl, rfl⟩ (Mach.logBad_streams ..)) _ _)

theorem Mach.parityLost_streams (m : Mach) (source a n : Nat) : m.SameStreams (m.parityLost source a n) :=
  (m.parityHits_streams source a n).trans
    (.foldl (f := fun (m : Mach) x => m.freeBytes 32 |>.1.storeAt x (m.freeBytes 32).2) (fun _ _ => ⟨rfl, rfl, rfl⟩) _ _)

/-- A corrected error that is logged. -/
theorem Mach.logged_streams (m : Mach) (cw : Nat) (y : Syn) (i source : Nat) (u : MemUnit) :
    m.SameStreams ((m.memError cw y 0 i source).ceStorm u) :=
  (m.memError_streams ..).trans (Mach.ceStorm_streams ..)

theorem Mach.memRead_streams (m : Mach) (source a n : Nat) : m.SameStreams (m.memRead source a n).1 := by
  unfold Mach.memRead
  refine Mach.SameStreams.trans ?_ (Mach.parityHits_streams ..)
  refine foldl_keeps (fun acc : Mach × Bytes × Option Nat => m.SameStreams acc.1) _ ?_ _ _ (m.countRange_streams ..)
  rintro ⟨t, bs, bad⟩ cw ht
  dsimp only at ht ⊢
  split
  · exact ht
  · dsimp only
    split
    · exact ht
    · exact .ite (((ht.trans (t.logged_streams ..)).trans (Mach.memCount_streams ..)).trans (Mach.fixCodeword_streams ..))
        (ht.trans (t.logged_streams ..))
  · exact ht.trans (t.logBad_streams ..)
  · exact ht.trans (t.logBad_streams ..)

theorem Mach.memPut_streams (m : Mach) (source a : Nat) (bs : Bytes) : m.SameStreams (m.memPut source a bs) := by
  let P (x : Mach × List Nat) : Prop := m.SameStreams x.1
  unfold Mach.memPut Mach.memWrite
  dsimp only
  refine iteInduction (motive := P) (fun _ => .refl m) fun _ => ?_
  refine Mach.SameStreams.trans (t := { Mach.storeAt _ a bs with chk := _ }) ?_ (Mach.parityLost_streams ..)
  refine Mach.SameStreams.trans (t := Prod.fst _) ?_ ⟨rfl, rfl, rfl⟩
  refine foldl_keeps P _ ?_ _ _ ((m.countRange_streams ..).trans (.foldl (fun t k => ?_) _ _))
  · rintro ⟨t, bad⟩ cw ht
    refine iteInduction (motive := P) (fun _ => ht) fun _ => ?_
    dsimp only [P] at ht ⊢
    split
    · exact ht
    · refine .ite ?_ (.trans ?_ (Mach.fixCodeword_streams ..)) <;>
        (split; exacts [ht, ht.trans (t.logged_streams ..)])
    · exact ht.trans (t.logBad_streams ..)
    · exact ht.trans (t.logBad_streams ..)
  · split
    · exact .refl t
    · exact (t.memCount_streams ..).trans (Mach.memCount_streams ..)

/-! ### Tiles and ranges (R198, R267, R462) -/

theorem Mach.dict?_dadd_ne (m : Mach) {i sub j k n : Nat} (h : dictKey i sub ≠ dictKey j k) :
    (m.dadd j k n).dict? i sub = m.dict? i sub := by
  unfold Mach.dadd Mach.daddAny
  split
  · rfl
  · split
    · rfl
    · simp only [Mach.dict?, mapGet_mapSet_ne _ _ h]

/-- What a read of memory goes by stays. -/
def Mach.SameBytes (m t : Mach) : Prop :=
  t.chk = m.chk ∧ t.shaky = m.shaky ∧ t.mem = m.mem ∧ t.lost = m.lost ∧ t.fineMode = m.fineMode

theorem Mach.SameBytes.trans {m t u : Mach} (h : m.SameBytes t) (k : t.SameBytes u) : m.SameBytes u := by
  obtain ⟨h1, h2, h3, h4, h5⟩ := h
  obtain ⟨k1, k2, k3, k4, k5⟩ := k
  exact ⟨k1.trans h1, k2.trans h2, k3.trans h3, k4.trans h4, k5.trans h5⟩

theorem Mach.SameBytes.refl (m : Mach) : m.SameBytes m := ⟨rfl, rfl, rfl, rfl, rfl⟩

theorem Mach.SameBytes.bytesAt_one {m t : Mach} (h : m.SameBytes t) (b : Nat) : t.bytesAt b 1 = m.bytesAt b 1 := by
  obtain ⟨-, -, hmem, hlost, hfine⟩ := h
  rw [Mach.bytesAt_one, Mach.bytesAt_one, Mach.over_congr hlost hfine, hmem]

theorem Mach.SameBytes.withBytes {m t : Mach} (h : m.SameBytes t) (a b : Nat) (bs : Bytes) :
    t.withBytes a b bs = m.withBytes a b bs := by
  unfold Mach.withBytes
  rw [h.bytesAt_one]

theorem Mach.cancelMigration_bytes (m : Mach) (p h k : Nat) : m.SameBytes (m.cancelMigration p h k) := by
  unfold Mach.cancelMigration
  split
  · exact .refl m
  · refine iteInduction (motive := m.SameBytes) (fun _ => ?_) fun _ => .refl m
    generalize hu : m.updTensor p h _ = u
    have hb : m.SameBytes u := by rw [← hu]; exact ⟨rfl, rfl, rfl, rfl, rfl⟩
    refine hb.trans ?_
    have hfine : (u.dadd 0x6001 0x11 1).fineMode = u.fineMode :=
      congrArg (fun bs => ofLe bs == 1) (u.dict?_dadd_ne (i := 0x6001) (sub := 1) (by decide))
    obtain ⟨c, hc⟩ := u.dadd_frame 0x6001 0x11 1
    refine ⟨?_, ?_, ?_, ?_, hfine⟩ <;> rw [hc]

theorem Mach.cancelMigration_streams (m : Mach) (p h k : Nat) : m.SameStreams (m.cancelMigration p h k) := by
  unfold Mach.cancelMigration
  split
  · exact .refl m
  · exact .ite (Mach.SameStreams.trans (t := m.updTensor p h _) ⟨rfl, rfl, rfl⟩ (Mach.dadd_streams ..)) (.refl m)

/-- A group apart from the tiles that it keeps beyond their need (R198). -/
def Group.bare (g : Group) : Group := { g with saves := [] }

/-- The contexts and the link stay, and the groups but for their saves. -/
def Mach.SameBare (m t : Mach) : Prop :=
  t.ctxs = m.ctxs ∧ t.groups.map Group.bare = m.groups.map Group.bare ∧ t.link = m.link

theorem Mach.SameStreams.bare {m t : Mach} (h : m.SameStreams t) : m.SameBare t := by
  obtain ⟨h1, h2, h3⟩ := h
  exact ⟨h1, by rw [h2], h3⟩

theorem Mach.SameBare.trans {m t u : Mach} (h : m.SameBare t) (k : t.SameBare u) : m.SameBare u := by
  obtain ⟨h1, h2, h3⟩ := h
  obtain ⟨k1, k2, k3⟩ := k
  exact ⟨k1.trans h1, k2.trans h2, k3.trans h3⟩

theorem Mach.noteWrite_bare (m : Mach) (p h k : Nat) : m.SameBare (m.noteWrite p h k) := by
  refine ⟨rfl, ?_, rfl⟩
  simp only [Mach.noteWrite, List.map_map]
  refine List.map_congr_left fun g _ => ?_
  simp only [Function.comp]
  split <;> rfl

theorem Mach.noteWrite_bytes (m : Mach) (p h k : Nat) : m.SameBytes (m.noteWrite p h k) := ⟨rfl, rfl, rfl, rfl, rfl⟩
theorem Mach.updTensor_streams (m : Mach) (p h : Nat) (f : Tensor → Tensor) : m.SameStreams (m.updTensor p h f) := ⟨rfl, rfl, rfl⟩
theorem Mach.poisonRange_streams (m : Mach) (a n : Nat) : m.SameStreams (m.poisonRange a n) := ⟨rfl, rfl, rfl⟩

theorem Mach.unstring_streams (m : Mach) (source : Nat) (t : Tensor) (k : Nat) : m.SameStreams (m.unstring source t k) := by
  unfold Mach.unstring
  extract_lets a n
  have hput : m.SameStreams ((m.memRead source a n).1.memPut source a (stringerUnpack (t.geom k) t.desc.hotLimit (m.memRead source a n).2.1)) :=
    (m.memRead_streams ..).trans (Mach.memPut_streams ..)
  exact .ite ((hput.trans (Mach.poisonRange_streams ..)).trans (Mach.updTensor_streams ..)) hput

theorem Mach.writeTilePart_bare (m : Mach) (source p h k off : Nat) (bs : Bytes) :
    m.SameBare (m.writeTilePart source p h k off bs) := by
  unfold Mach.writeTilePart
  split
  · exact (Mach.SameStreams.refl m).bare
  · next t _ =>
    extract_lets m1 whole m2
    have h1 : m.SameStreams m1 := m.cancelMigration_streams ..
    have h2 : m.SameStreams m2 := .ite (h1.trans (m1.unstring_streams ..)) h1
    have hput := h2.trans (m2.memPut_streams source (t.tileAddr k + off) bs)
    exact (hput.bare.trans (Mach.noteWrite_bare _ p h k)).trans (Mach.updTensor_streams ..).bare

/-- A tile that is no Stringer image takes the bytes of a write from its offset. -/
theorem Mach.writeTilePart_stores {m : Mach} (hchk : m.chk = []) (hshaky : m.shaky = []) {p h : Nat} {t : Tensor}
    (ht : m.tensor? p h = some t) {k : Nat} (hs : (t.mark k).stringer = false) (source off b : Nat) (bs : Bytes) :
    (m.writeTilePart source p h k off bs).bytesAt b 1 = m.withBytes (t.tileAddr k + off) b bs := by
  have h1 := m.cancelMigration_bytes p h k
  obtain ⟨c, l, hput, hstored⟩ := Mach.memPut_sound (h1.1.trans hchk) (h1.2.1.trans hshaky) source (t.tileAddr k + off) bs
  unfold Mach.writeTilePart
  simp only [ht, hs, Bool.false_and, Bool.false_eq_true, if_false]
  rw [hput, ← h1.withBytes, ← hstored b]
  rfl

/-- The tiles that a range touches end their migrations, and are saves no longer. -/
def Mach.rawBegin (m : Mach) (a n : Nat) : Mach :=
  let touched := m.tensors.flatMap fun t =>
    (t.marks.filter fun q => q.2.migrating.isSome && t.tileAddr q.1 < a + n && a < t.tileAddr q.1 + t.tileLen q.1).map
      fun q => (t.part, t.handle, q.1)
  let m := touched.foldl (fun m q => m.cancelMigration q.1 q.2.1 q.2.2) m
  if m.groups.all fun g => g.saves.isEmpty then m else (m.tilesIn a n).foldl (fun m q => m.noteWrite q.1 q.2.1 q.2.2) m

/-- What a write of a range is made of. -/
theorem Mach.writeRaw_eq (m : Mach) (source a : Nat) (bs : Bytes) :
    ∃ ts, m.writeRaw source a bs = { (m.rawBegin a bs.length).memPut source a bs with tensors := ts } := ⟨_, rfl⟩

theorem Mach.rawBegin_bytes (m : Mach) (a n : Nat) : m.SameBytes (m.rawBegin a n) := by
  unfold Mach.rawBegin
  extract_lets touched m1
  have h1 : m.SameBytes m1 :=
    foldl_keeps (fun t : Mach => m.SameBytes t) _ (fun t _ ht => ht.trans (t.cancelMigration_bytes ..)) _ _ (.refl m)
  exact iteInduction (motive := m.SameBytes) (fun _ => h1) fun _ =>
    foldl_keeps (fun t : Mach => m.SameBytes t) _ (fun t _ ht => ht.trans (t.noteWrite_bytes ..)) _ _ h1

theorem Mach.rawBegin_bare (m : Mach) (a n : Nat) : m.SameBare (m.rawBegin a n) := by
  unfold Mach.rawBegin
  extract_lets touched m1
  have h1 : m.SameBare m1 := (Mach.SameStreams.foldl (fun t _ => t.cancelMigration_streams ..) touched m).bare
  exact iteInduction (motive := m.SameBare) (fun _ => h1) fun _ =>
    foldl_keeps (fun t : Mach => m.SameBare t) _ (fun t _ ht => ht.trans (t.noteWrite_bare ..)) _ _ h1

/-- A range takes the bytes of a write. -/
theorem Mach.writeRaw_stores {m : Mach} (hchk : m.chk = []) (hshaky : m.shaky = []) (source a b : Nat) (bs : Bytes) :
    (m.writeRaw source a bs).bytesAt b 1 = m.withBytes a b bs := by
  have h1 := m.rawBegin_bytes a bs.length
  obtain ⟨ts, hts⟩ := m.writeRaw_eq source a bs
  obtain ⟨c, l, hput, hstored⟩ := Mach.memPut_sound (h1.1.trans hchk) (h1.2.1.trans hshaky) source a bs
  rw [hts, hput, ← h1.withBytes, ← hstored b]
  rfl

theorem Mach.writeRaw_bare (m : Mach) (source a : Nat) (bs : Bytes) : m.SameBare (m.writeRaw source a bs) := by
  obtain ⟨ts, hts⟩ := m.writeRaw_eq source a bs
  rw [hts]
  exact ((m.rawBegin_bare a bs.length).trans (Mach.memPut_streams _ source a bs).bare).trans ⟨rfl, rfl, rfl⟩

theorem Mach.dmaStore_bare (m : Mach) (p : Nat) (c : HostCmd) (bs : Bytes) : m.SameBare (m.dmaStore p c bs) := by
  unfold Mach.dmaStore
  split
  · exact m.writeTilePart_bare ..
  · exact m.writeRaw_bare ..

end Sys2Proof.Machine
end

section
/-! The statement about DMA writes. -/

namespace Sys2Proof
open Machine

/-- Settles O51: a tile's record or a physical range, each written as one run of bytes of memory without damage. -/
theorem dmaStoresItsBytesAndNoOthers : Obligations.DmaStoresItsBytesAndNoOthers := by
  unfold Obligations.DmaStoresItsBytesAndNoOthers
  intro m p b c bs r t hchk hshaky stored rest
  obtain ⟨hctxs, hgroups, hlink⟩ := m.dmaStore_bare p c bs
  refine ⟨fun hc => ?_, fun hc ht hs => ?_, hctxs, hgroups, hlink⟩
  · rw [Mach.dmaStore, hc]
    exact Mach.writeRaw_stores hchk hshaky 2 c.off b bs
  · rw [Mach.dmaStore, hc]
    dsimp only
    rw [ht]
    exact Mach.writeTilePart_stores hchk hshaky ht hs 2 c.off b bs

end Sys2Proof
end

section
/-! Round trips: the words of a handle descriptor (R21) and the bytes of a request frame (R389). -/

namespace Sys2Proof

open Machine

/-! ### Handle descriptors -/

theorem bitAt_of_fld {n k : Nat} {b : Bool} (h : fld n k k = b.toNat) : bitAt n k = b := by
  rw [fld, Nat.shiftRight_eq_div_pow, Nat.add_sub_cancel_left, pow_one] at h
  rw [bitAt, Nat.testBit_eq_decide_div_mod_eq, h]
  cases b <;> rfl

/-- Settles O54: every field of a word stands above the lower ones and below the higher ones, each within its bits. -/
theorem handleDescriptorRoundTrip : Obligations.HandleDescriptorRoundTrip := by
  unfold Obligations.HandleDescriptorRoundTrip
  rintro ⟨handle, fmt, cls, rank, red, scale, fixed, valid, rot, ovf, hot, ⟨e0, e1, e2, e3⟩, ⟨t0, t1, t2, t3⟩, layer, seed, place, gen,
    hist⟩
  intro hhandle hfmt hcls hrank hred hscale hrot hovf hhot he0 he1 he2 he3 ht0 ht1 ht2 ht3 hlayer hseed hplace hgen hhist
  dsimp only at *
  have hfixed := fixed.toNat_lt
  have hvalid := valid.toNat_lt
  constructor
  · simp only [HDesc.ofWords, HDesc.toWords, List.getD_cons_zero, List.getD_cons_succ, HDesc.mk.injEq, Dim4.mk.injEq]
    refine ⟨?_, ?_, ?_, ?_, ?_, ?_, bitAt_of_fld ?_, bitAt_of_fld ?_, ?_, ?_, ?_, ⟨?_, ?_, ?_, ?_⟩, ⟨?_, ?_, ?_, ?_⟩, ?_, ?_, ?_, ?_,
      ?_⟩
    all_goals
      simp only [fld, Nat.shiftRight_eq_div_pow]
      omega
  · simp only [HDesc.toWords, List.forall_mem_cons, List.not_mem_nil, false_implies, implies_true, and_true]
    refine ⟨?_, ?_, ?_, ?_, ?_, ?_, ?_, ?_⟩
    all_goals omega

/-! ### Request frames -/

/-- The frame as its numbers, the bytes of the header numbers like the others. -/
theorem OapReq_bytes_eq (q : OapReq) :
    q.bytes = toLe 1 q.rq.version.toNat ++ (toLe 1 q.op ++ (toLe 1 q.status ++ (toLe 1 q.rq.flags.toNat ++
      (toLe 2 q.rq.tag.toNat ++ (toLe 2 q.index ++ (toLe 1 q.sub ++ (toLe 1 q.rq.typ.toNat ++ (toLe 2 q.length ++
        (toLe 4 q.rq.offset ++ q.rq.data))))))))) := by
  simp [OapReq.bytes, toLe]

/-- What follows the header is the data. -/
theorem subBytes_append_length {xs : Bytes} {o : Nat} (h : xs.length = o) (ys : Bytes) : subBytes (xs ++ ys) o ys.length = ys := by
  have hfit := fitBytes_length_append ys []
  rw [List.append_nil] at hfit
  rw [subBytes, List.drop_append, List.drop_of_length_le h.le, List.nil_append, h, Nat.sub_self, List.drop_zero, hfit]

/-- Settles O55: each field is reached by skipping those before it, and fits its width. -/
theorem oapFrameRoundTrip : Obligations.OapFrameRoundTrip := by
  unfold Obligations.OapFrameRoundTrip
  rintro ⟨op, status, index, sub, length, ⟨master, version, flags, tag, typ, offset, data, bcast, flashBad⟩⟩
  intro hop hstatus hindex hsub hoffset hdata hlength
  dsimp only at *
  subst hlength
  have hver := version.isLt
  have hflags := flags.isLt
  have htag := tag.isLt
  have htyp := typ.isLt
  rw [OapReq_bytes_eq]
  dsimp only
  set b := toLe 1 version.toNat ++ (toLe 1 op ++ (toLe 1 status ++ (toLe 1 flags.toNat ++ (toLe 2 tag.toNat ++ (toLe 2 index ++
    (toLe 1 sub ++ (toLe 1 typ.toNat ++ (toLe 2 data.length ++ (toLe 4 offset ++ data))))))))) with hb
  have h0 : leAt b 0 1 = version.toNat := by
    rw [hb, leAt_toLe_append]
    exact Nat.mod_eq_of_lt hver
  have h1 : leAt b 1 1 = op := by simpa [hb, leAt_append_of_le, leAt_toLe_append] using hop
  have h2 : leAt b 2 1 = status := by simpa [hb, leAt_append_of_le, leAt_toLe_append] using hstatus
  have h3 : leAt b 3 1 = flags.toNat := by simpa [hb, leAt_append_of_le, leAt_toLe_append] using hflags
  have h4 : leAt b 4 2 = tag.toNat := by simpa [hb, leAt_append_of_le, leAt_toLe_append] using htag
  have h6 : leAt b 6 2 = index := by simpa [hb, leAt_append_of_le, leAt_toLe_append] using hindex
  have h8 : leAt b 8 1 = sub := by simpa [hb, leAt_append_of_le, leAt_toLe_append] using hsub
  have h9 : leAt b 9 1 = typ.toNat := by simpa [hb, leAt_append_of_le, leAt_toLe_append] using htyp
  have h10 : leAt b 10 2 = data.length := by simpa [hb, leAt_append_of_le, leAt_toLe_append] using hdata
  have h12 : leAt b 12 4 = offset := by simpa [hb, leAt_append_of_le, leAt_toLe_append] using hoffset
  have hrest : subBytes b 16 data.length = data := by
    simp only [hb, ← List.append_assoc]
    exact subBytes_append_length (by simp) data
  simp [OapReq.ofBytes, h0, h1, h2, h3, h4, h6, h8, h9, h10, h12, hrest]

end Sys2Proof
end

section
/-! Requests of the object dictionary that are answered from what is kept, who may write, and the firmware slot to run. -/

namespace Sys2Proof.Machine

/-! ### Kept responses (R391, R392) -/

/-- The operations of the protocol are well formed in a frame that is. -/
theorem OapReq.malformed_of_framed {q : OapReq} (h : q.framed = true) (hop : q.op = 1 ∨ q.op = 2 ∨ q.op = 3) :
    q.malformed = false := by
  simp only [OapReq.framed, Bool.and_eq_true, beq_iff_eq] at h
  obtain ⟨⟨hver, hst⟩, hres⟩ := h
  rcases hop with hop | hop | hop <;> simp [OapReq.malformed, hver, hst, hres, hop]

theorem State.oapServe_kept {s : State} {who : Master} {q : OapReq} {k : Kept}
    (h : (s.m.kept.find? fun x => x.master == who && x.tag == q.rq.tag.toNat && x.request == q.bytes) = some k) :
    s.oapServe who q = (s, k.answer, .nothing) := by
  unfold State.oapServe
  dsimp only
  rw [h]

/-- A request that is answered already: the kept response goes out over its master's port. -/
theorem State.request_kept {s : State} {rq : DictReq} {op index sub : Nat} {k : Kept} (hop : op = 1 ∨ op = 2 ∨ op = 3)
    (hopen : s.portOpen rq.master = true) (hframe : rq.master = .mgmt → rq.bcast = true → (OapReq.ofRow op index sub rq).framed = true)
    (hk : ((s.counted rq).m.kept.find? fun y =>
      y.master == rq.master && y.tag == rq.tag.toNat && y.request == (OapReq.ofRow op index sub rq).bytes) = some k) :
    (s.request rq op index sub).finish = .next ((s.counted rq).settled (match rq.master with
      | .host => (s.counted rq).m.emit (.oap .host k.answer)
      | .mgmt => (s.counted rq).m.mgmtSend 0 k.answer)) := by
  have hserve : (s.counted rq).oapServe rq.master (OapReq.ofRow op index sub rq) = (s.counted rq, k.answer, .nothing) :=
    State.oapServe_kept hk
  cases hm : rq.master with
  | host =>
    have hc : s.counted rq = s := by simp [State.counted, hm]
    rw [hm] at hopen hserve
    rw [hc] at hserve ⊢
    rw [request_host s rq op index sub hm hopen hserve]
    rfl
  | mgmt =>
    rw [hm] at hopen hserve
    rw [request_mgmt s rq op index sub hm hopen (fun hb => OapReq.malformed_of_framed (hframe hm hb) hop) hserve]
    rfl

/-! ### Ownership (R393, R439) -/

theorem Mach.owner_eq (m : Mach) {k : Nat} (h1 : 1 ≤ k) (h2 : k ≤ 10) :
    m.owner k = if m.mgmt.takeover = true ∨ bitAt (m.dnum 0x9010 1) k = true then .mgmt else .host := by
  have hall : bitAt 0x7FE k = true := by interval_cases k <;> rfl
  unfold Mach.owner Mach.ownerMap
  by_cases ht : m.mgmt.takeover = true
  · simp [ht, hall]
  · simp [ht, bitAt_and, hall]

/-- The key of an entry tells its index and its sub-index apart. -/
theorem dictKey_eq_iff {i sub j t : Nat} (hs : sub < 256) (ht : t < 256) : dictKey i sub = dictKey j t ↔ i = j ∧ sub = t := by
  unfold dictKey
  omega

/-- A word whose bits are all bits of another is their meet. -/
theorem and_eq_left_iff {x y : Nat} : x &&& y = x ↔ ∀ b, bitAt x b = true → bitAt y b = true := by
  constructor
  · intro h b hb
    rw [← h, bitAt_and, Bool.and_eq_true] at hb
    exact hb.2
  · intro h
    refine Nat.eq_of_testBit_eq fun b => ?_
    rw [Nat.testBit_and]
    cases hb : x.testBit b with
    | false => rfl
    | true => rw [Bool.true_and]; exact h b hb

/-! ### The slot to run (R432) -/

/-- Counting a boot leaves the images and the record. -/
theorem Flash.slotOk_updBoot (f : Flash) (kind : Nat) (g : BootCtl → BootCtl) : (f.updBoot kind g).slotOk = f.slotOk := rfl

theorem Flash.boot_updBoot (f : Flash) {kind : Nat} (g : BootCtl → BootCtl) (h : kind < f.ctl.length) :
    (f.updBoot kind g).boot kind = g (f.boot kind) := by
  simp [Flash.boot, Flash.updBoot, updAt, List.getD, h]

/-- Does a boot of the kind count, and try the trial slot first? -/
def Flash.tries (f : Flash) (kind : Nat) (inhibit : Bool) : Bool :=
  (f.boot kind).trial && decide (0 < (f.boot kind).left) && !inhibit

theorem Flash.selectSlot_trying {f : Flash} {kind : Nat} {inhibit : Bool} (h : f.tries kind inhibit = true) :
    f.selectSlot kind inhibit
      = (f.updBoot kind fun c => { c with left := c.left - 1 },
        [1 - (f.boot kind).active, (f.boot kind).active, 1 - (f.boot kind).active].find? fun k => f.slotOk kind k) := by
  unfold Flash.tries at h
  simp only [Flash.selectSlot, h, if_true, Flash.slotOk_updBoot]
  rfl

theorem Flash.selectSlot_plain {f : Flash} {kind : Nat} {inhibit : Bool} (h : f.tries kind inhibit = false) :
    f.selectSlot kind inhibit
      = (f, [(f.boot kind).active, 1 - (f.boot kind).active].find? fun k => f.slotOk kind k) := by
  unfold Flash.tries at h
  simp only [Flash.selectSlot, h, Bool.false_eq_true, if_false]
  rfl

end Sys2Proof.Machine
end

section
/-! The statements about kept responses, ownership and slots. -/

namespace Sys2Proof
open Machine

/-- Settles O57: the kept response is found before the request is executed, over either port. -/
theorem keptResponsesAreRepeated : Obligations.KeptResponsesAreRepeated := by
  unfold Obligations.KeptResponsesAreRepeated
  intro s rq index sub k hopen x hx
  simp only [List.mem_cons, List.not_mem_nil, or_false] at hx
  rcases hx with rfl | rfl | rfl
  · exact fun hframe hk => State.request_kept (by omega) hopen hframe hk
  · exact fun hframe hk => State.request_kept (by omega) hopen hframe hk
  · exact fun hframe hk => State.request_kept (by omega) hopen hframe hk

/-- Settles O58: the token and the nonce are told from the other entries by their keys. -/
theorem ownershipRule : Obligations.OwnershipRule := by
  unfold Obligations.OwnershipRule
  intro m who i sub bs k h1 h2
  refine ⟨m.owner_eq h1 h2, fun hsub htok hnon => ?_, ?_, ?_, ?_⟩
  · have hn : ¬ dictKey i sub = 0x803001 := fun h =>
      let ⟨hi, hs⟩ := (dictKey_eq_iff (j := 0x8030) (t := 1) hsub (by decide)).1 h
      hnon.elim (· hi) (· hs)
    have ht : ¬ dictKey i sub = 0x901001 := fun h =>
      let ⟨hi, hs⟩ := (dictKey_eq_iff (j := 0x9010) (t := 1) hsub (by decide)).1 h
      htok.elim (· hi) (· hs)
    simp [Mach.mayWrite, hn, ht, k]
  · simp [Mach.mayWrite, dictKey]
  · have hmay : m.mayWrite .mgmt 0x9010 1 bs = (ofLe (bs.take 2) &&& m.dnum 0x9010 1 == ofLe (bs.take 2)) := by
      simp [Mach.mayWrite, dictKey]
    rw [hmay, beq_iff_eq]
    exact and_eq_left_iff
  · simp [Mach.mayWrite, dictKey]

/-- Settles O59: by cases whether the boot tries the trial slot. -/
theorem slotSelection : Obligations.SlotSelection := by
  unfold Obligations.SlotSelection
  intro f kind inhibit hkind c a ok tries
  have htries : tries ↔ f.tries kind inhibit = true := by
    simp [tries, Flash.tries, c, and_assoc]
  cases ht : f.tries kind inhibit with
  | true =>
    have htr : tries := htries.2 ht
    rw [Flash.selectSlot_trying ht]
    refine ⟨fun _ => ⟨?_, ?_⟩, fun hn => absurd htr hn, rfl, rfl⟩
    · rw [Flash.boot_updBoot _ _ hkind]
    · cases h1 : f.slotOk kind (1 - (f.boot kind).active) <;> cases h2 : f.slotOk kind (f.boot kind).active <;>
        simp [ok, a, c, h1, h2]
  | false =>
    have htr : ¬ tries := fun h => by simp [htries.1 h] at ht
    rw [Flash.selectSlot_plain ht]
    refine ⟨fun h => absurd h htr, fun _ => ⟨rfl, ?_⟩, rfl, rfl⟩
    cases h1 : f.slotOk kind (1 - (f.boot kind).active) <;> cases h2 : f.slotOk kind (f.boot kind).active <;>
      simp [ok, a, c, h1, h2]

end Sys2Proof
end

section
/-! A machine at rest: every part of the run that ends a command finds nothing to do. -/

namespace Sys2Proof.Machine

/-- Rounds none of which has anything to do. -/
theorem foldl_rests {α β : Type} {f : β → α → β} {b : β} {l : List α} (h : ∀ a ∈ l, f b a = b) : l.foldl f b = b := by
  induction l with
  | nil => rfl
  | cons a l ih =>
    rw [List.foldl_cons, h a List.mem_cons_self]
    exact ih fun x hx => h x (List.mem_cons_of_mem a hx)

/-- What holds of a list's elements and of the default holds at every index. -/
theorem getD_of_all {α : Type} {l : List α} {p : α → Bool} {x : α} (hl : l.all p = true) (hx : p x = true) (n : Nat) :
    p (l.getD n x) = true := by
  rw [List.getD_eq_getElem?_getD]
  cases hn : l[n]? with
  | none => exact hx
  | some y => exact List.all_eq_true.1 hl y (List.mem_of_getElem? hn)

/-- At rest but for the events that wait for the firmware's pass. -/
def Mach.still (m : Mach) : Bool :=
  m.loop.isEmpty && m.ports.all Port.idle && m.colls.isEmpty && (m.cgroups.all fun q => q.2.ahead.isEmpty)
  && ([0, 1].all fun d => (m.die d).sync.fbars.isEmpty) && (m.ctxs.all fun x => !x.passed)
  && (m.link.cmds.all fun h => h.kind != 0x25 && h.kind != 0x27)
  && (m.tensors.all fun t => t.marks.all fun q => !(q.2.copied && q.2.migrating.isSome))
  && m.gemms.isEmpty && m.fritWait.isEmpty && m.benchOffs.isEmpty && m.chans.isEmpty && m.power.insts.isEmpty
  && m.link.detaching.isNone && ([0, 1].all fun d => (m.die d).irq == m.eventIrq d)

theorem Mach.quiet_iff (m : Mach) : m.quiet = true ↔ m.still = true ∧ m.evPend = [] := by
  simp only [Mach.quiet, Mach.still, Bool.and_eq_true, List.isEmpty_iff]
  tauto

/-! ### Each part of the run -/

theorem pumpPort_idle {m : Mach} {q : Nat} (h : (m.port q).idle = true) (fuel : Nat) : pumpPort q fuel m = m := by
  cases fuel with
  | zero => rfl
  | succ n =>
    unfold pumpPort
    refine if_pos ?_
    unfold Port.idle at h
    cases hup : (m.port q).isUp with
    | false => simp
    | true =>
      simp only [hup, Bool.not_true, Bool.false_or, Bool.and_eq_true] at h
      simp [h.1.1.1, h.1.1.2]

theorem ackPort_idle {m : Mach} {q : Nat} (h : (m.port q).idle = true) (fuel : Nat) : ackPort q fuel m = m := by
  cases fuel with
  | zero => rfl
  | succ n =>
    unfold ackPort
    refine if_neg ?_
    unfold Port.idle at h
    cases hup : (m.port q).isUp with
    | false => simp
    | true =>
      simp only [hup, Bool.not_true, Bool.false_or, Bool.and_eq_true, Bool.not_eq_true', List.all_eq_true, beq_iff_eq] at h
      obtain ⟨⟨-, hack⟩, howed⟩ := h
      simp only [hack, Bool.false_or, Bool.true_and, List.any_eq_true, bne_iff_ne, not_exists, not_and, not_not]
      exact howed

theorem Mach.pumpPorts_idle {m : Mach} (h : m.ports.all Port.idle = true) : m.pumpPorts = m := by
  refine foldl_rests fun q _ => ?_
  have hidle : (m.port q).idle = true := getD_of_all h rfl q
  simp only [pumpPort_idle hidle, ackPort_idle hidle]

theorem Mach.takeAhead_none {m : Mach} (h : (m.cgroups.all fun q => q.2.ahead.isEmpty) = true) : m.takeAhead = m := by
  refine foldl_rests fun q hq => ?_
  have hnil : q.2.ahead = [] := List.isEmpty_iff.1 (List.all_eq_true.1 h q hq)
  simp [hnil]

theorem Mach.collWork_none {m : Mach} (h : m.colls = []) : m.collWork = 0 := by simp [Mach.collWork, h]

theorem Mach.fbarPump_none {m : Mach} (h : ([0, 1].all fun d => (m.die d).sync.fbars.isEmpty) = true) : m.fbarPump = m := by
  refine foldl_rests fun d hd => ?_
  have hnil : (m.die d).sync.fbars = [] := List.isEmpty_iff.1 (List.all_eq_true.1 h d hd)
  rw [hnil]
  rfl

theorem Mach.afterBarriers_none {m : Mach} (h : (m.ctxs.all fun x => !x.passed) = true) : m.afterBarriers = m := by
  refine foldl_rests fun c _ => ?_
  have hc : (!(m.ctx c).passed) = true := getD_of_all h rfl c
  simp only [hc, if_true]

theorem runOn_none {m : Mach} (hb : ([0, 1].all fun d => (m.die d).sync.fbars.isEmpty) = true)
    (hc : (m.ctxs.all fun x => !x.passed) = true) (fuel : Nat) : runOn fuel m = m := by
  cases fuel with
  | zero => rfl
  | succ n =>
    have hany : (m.ctxs.any fun x => x.passed) = false := by
      simpa using hc
    simp only [runOn, Mach.fbarPump_none hb, Mach.afterBarriers_none hc, hany, Bool.false_eq_true, if_false]

theorem Mach.pumpGroupCmds_none {m : Mach} (h : (m.link.cmds.all fun h => h.kind != 0x25 && h.kind != 0x27) = true) :
    m.pumpGroupCmds = m := by
  have hnil : (m.link.cmds.filter fun h => h.kind == 0x25 || h.kind == 0x27) = [] := by
    simpa [List.filter_eq_nil_iff] using h
  simp only [Mach.pumpGroupCmds, hnil, List.foldl_nil]

theorem quiesce_still {m : Mach} (h : m.still = true) : quiesce 64 m = m := by
  simp only [Mach.still, Bool.and_eq_true, List.isEmpty_iff] at h
  obtain ⟨⟨⟨⟨⟨⟨⟨⟨⟨⟨⟨⟨⟨⟨hloop, -⟩, hcolls⟩, hahead⟩, hfbars⟩, hpassed⟩, hcmds⟩, -⟩, -⟩, -⟩, -⟩, -⟩, -⟩, -⟩, -⟩ := h
  have hset : ({ m with loop := [] } : Mach) = m := by rw [← hloop]
  unfold quiesce
  simp only [hloop, List.foldl_nil, hset, Mach.takeAhead_none hahead, Mach.collWork_none hcolls, pumpColls, runOn_none hfbars hpassed,
    Mach.pumpGroupCmds_none hcmds, List.isEmpty_nil, if_true]

theorem Mach.pumpSwitch_none {m : Mach}
    (h : (m.tensors.all fun t => t.marks.all fun q => !(q.2.copied && q.2.migrating.isSome)) = true) : m.pumpSwitch = m := by
  have hnil : (m.tensors.flatMap fun t => (t.marks.filter fun q => q.2.copied && q.2.migrating.isSome).map fun q =>
      (t.part, t.handle, q.1)) = [] := by
    rw [List.flatMap_eq_nil_iff]
    intro t ht
    have hmarks := List.all_eq_true.1 h t ht
    rw [List.map_eq_nil_iff, List.filter_eq_nil_iff]
    intro q hq
    simpa only [Bool.not_eq_true', Bool.not_eq_true] using List.all_eq_true.1 hmarks q hq
  simp only [Mach.pumpSwitch, hnil, List.foldl_nil]

/-- A die whose interrupt line is as its queue has it stays. -/
theorem Mach.updDie_irq_same {m : Mach} {d : Nat} {b : Bool} (h : (m.die d).irq = b) :
    (m.updDie d fun x => { x with irq := b }) = m := by
  have hdies : updAt m.dies d (fun x => { x with irq := b }) = m.dies := by
    refine List.ext_getElem? fun n => ?_
    rw [updAt, List.getElem?_modify]
    by_cases hn : d = n
    · subst hn
      cases hx : m.dies[d]? with
      | none => simp
      | some x =>
        have hd : m.die d = x := by simp [Mach.die, List.getD, hx]
        rw [hd] at h
        simp [← h]
    · simp [hn]
  unfold Mach.updDie
  rw [hdies]

theorem Mach.noteIrqs_same {m : Mach} (h : ([0, 1].all fun d => (m.die d).irq == m.eventIrq d) = true) : m.noteIrqs = m :=
  foldl_rests fun d hd => Mach.updDie_irq_same (beq_iff_eq.1 (List.all_eq_true.1 h d hd))

theorem Mach.pollEvents_none {m : Mach} (h : m.evPend = []) : m.pollEvents = m := by
  have hset : ({ m with evPend := [] } : Mach) = m := by rw [← h]
  have hnone (n : Nat) : ((List.range n).flatMap fun k => m.evPend.filter fun e => e.turn == k) = [] :=
    List.flatMap_eq_nil_iff.2 fun k _ => by simp [h]
  unfold Mach.pollEvents
  dsimp only
  rw [hnone, List.foldl_nil, h]
  exact hset

/-- Of a machine that is at rest but for its events the run is the firmware's pass over them. -/
theorem Mach.rest_still {m : Mach} (h : m.still = true) : m.rest = m.pollEvents := by
  have hq := quiesce_still h
  simp only [Mach.still, Bool.and_eq_true, List.isEmpty_iff, Option.isNone_iff_eq_none] at h
  obtain ⟨⟨⟨⟨⟨⟨⟨⟨⟨⟨⟨⟨⟨⟨-, hports⟩, -⟩, -⟩, -⟩, -⟩, -⟩, hmarks⟩, hgemms⟩, hfrit⟩, hoffs⟩, hchans⟩, hinsts⟩, hdetach⟩, hirq⟩ := h
  have hsettle : m.settle = m := by rw [Mach.settle, hq, Mach.pumpPorts_idle hports]
  have hg : m.pumpGemms = m := by simp [Mach.pumpGemms, hgemms]
  have hl : m.pumpLoans = m := by simp [Mach.pumpLoans, hfrit]
  have hb : m.benchOff = m := by simp [Mach.benchOff, hoffs]
  have hf : m.fenceChans = m := by simp [Mach.fenceChans, hchans]
  have hr : m.pumpRecal = m := by simp [Mach.pumpRecal, hchans]
  have hw : m.wakeWanted = m := by simp [Mach.wakeWanted, hinsts]
  have hd : m.pumpDetach = m := by simp [Mach.pumpDetach, hdetach]
  simp only [Mach.rest, hsettle, Mach.pumpSwitch_none hmarks, hg, hl, hb, hf, hr, hw, hd, Mach.noteIrqs_same hirq]

end Sys2Proof.Machine
end

section
/-! The statement about a machine at rest. -/

namespace Sys2Proof
open Machine

/-- Settles O39: no part of the run has anything to do. -/
theorem quietMachineRests : Obligations.QuietMachineRests := by
  unfold Obligations.QuietMachineRests
  intro m h
  obtain ⟨hstill, hev⟩ := m.quiet_iff.1 h
  rw [Mach.rest_still hstill, Mach.pollEvents_none hev]

end Sys2Proof
end

section
/-! The frame of the board's events and of the doorbells: what concerns the host link, the dictionary, the records of events, the
management segment, the store and the supply leaves the rest of the machine. -/

namespace Sys2Proof.Machine

/-- The machine without what the board's events and the doorbells may change. -/
def Mach.board (m : Mach) : Mach :=
  { m with
    dict := [], log := [], logSeq := 0, evPend := [], out := [], mgmt := {}, staging := [], snaps := [], kept := [], store := {}
    freeCtr := 0, link := { cmds := m.link.cmds, detaching := m.link.detaching }, power := { insts := m.power.insts } }

/-- All of the machine that the board's events may not change stays. -/
def Mach.SameBoard (m t : Mach) : Prop := t.board = m.board

theorem Mach.SameBoard.refl (m : Mach) : m.SameBoard m := rfl
theorem Mach.SameBoard.trans {m t u : Mach} (h : m.SameBoard t) (k : t.SameBoard u) : m.SameBoard u := Eq.trans k h
theorem Mach.SameBoard.ite {m t u : Mach} {c : Prop} [Decidable c] (ht : m.SameBoard t) (hu : m.SameBoard u) :
    m.SameBoard (if c then t else u) :=
  iteInduction (fun _ => ht) fun _ => hu
theorem Mach.SameBoard.foldl {α : Type} {f : Mach → α → Mach} (h : ∀ (m : Mach) a, m.SameBoard (f m a)) (l : List α) (m : Mach) :
    m.SameBoard (l.foldl f m) :=
  foldl_keeps (fun t : Mach => m.SameBoard t) f (fun t a ht => ht.trans (h t a)) l m (.refl m)

/-- Whether the machine is at rest but for its events goes by the board. -/
theorem Mach.SameBoard.still {m t : Mach} (h : m.SameBoard t) : t.still = m.still := by
  have hb : t.board = m.board := h
  have hs : t.board.still = m.board.still := congrArg Mach.still hb
  exact hs

/-! ### Dictionary, events, outputs -/

theorem Mach.dadd_board (m : Mach) (i sub n : Nat) : m.SameBoard (m.dadd i sub n) := by
  obtain ⟨c, h⟩ := m.dadd_frame i sub n
  rw [h]
  rfl
theorem Mach.dset_board (m : Mach) (i sub n : Nat) : m.SameBoard (m.dset i sub n) := by
  obtain ⟨c, h⟩ := m.dset_frame i sub n
  rw [h]
  rfl
theorem Mach.dictPut_board (m : Mach) (i sub : Nat) (v : Bytes) : m.SameBoard (m.dictPut i sub v) := rfl
theorem Mach.emit_board (m : Mach) (o : Out) : m.SameBoard (m.emit o) := rfl
theorem Mach.moEvent_board (m : Mach) (code : Nat) (detail : Bytes) : m.SameBoard (m.moEvent code detail) := rfl
theorem Mach.updMgmt_board (m : Mach) (f : Mgmt → Mgmt) : m.SameBoard (m.updMgmt f) := rfl
theorem Mach.updRing_board (m : Mach) (r : Nat) (f : RingPair → RingPair) : m.SameBoard (m.updRing r f) := rfl
theorem Mach.updTimeLog_board (m : Mach) (f : TimeLog → TimeLog) : m.SameBoard (m.updTimeLog f) := rfl
theorem Mach.freeWord_board (m : Mach) : m.SameBoard m.freeWord.1 := rfl
theorem Mach.dropLosers_board (m : Mach) : m.SameBoard m.dropLosers := rfl

/-- A new link with the commands under way of the old one. -/
theorem Mach.withLink_board (m : Mach) {l : Link} (hc : l.cmds = m.link.cmds := by rfl)
    (hd : l.detaching = m.link.detaching := by rfl) : m.SameBoard { m with link := l } := by
  unfold Mach.SameBoard Mach.board
  simp only [hc, hd]
theorem Mach.updLink_board (m : Mach) {f : Link → Link} (hc : (f m.link).cmds = m.link.cmds := by rfl)
    (hd : (f m.link).detaching = m.link.detaching := by rfl) : m.SameBoard (m.updLink f) :=
  m.withLink_board hc hd
theorem Mach.staging_board (m : Mach) (l : List Staging) : m.SameBoard { m with staging := l } := rfl
theorem Mach.snaps_board (m : Mach) (l : List Snapshot) : m.SameBoard { m with snaps := l } := rfl
theorem Mach.kept_board (m : Mach) (l : List Kept) : m.SameBoard { m with kept := l } := rfl
/-- A change of the power state that leaves the gated instances. -/
theorem Mach.updPower_board (m : Mach) {f : Power → Power} (h : (f m.power).insts = m.power.insts := by rfl) : m.SameBoard (m.updPower f) := by
  unfold Mach.SameBoard Mach.board Mach.updPower
  simp only [h]

theorem hlPump_board (n : Nat) (m : Mach) : m.SameBoard (hlPump n m) := by
  induction n generalizing m with
  | zero => exact .refl m
  | succ n ih =>
    unfold hlPump
    extract_lets l
    split
    · exact .refl m
    · refine .ite (.refl m) (.trans (t := { m with link := _, out := _ }) ?_ (ih _))
      exact rfl

theorem Mach.hostWrite_board (m : Mach) (a : Nat) (bs : Bytes) : m.SameBoard (m.hostWrite a bs) := by
  unfold Mach.hostWrite
  extract_lets all ps
  exact ((m.emit_board (.hostWrite a bs)).trans (Mach.withLink_board _)).trans (hlPump_board ..)

theorem Mach.evWrite_board (m : Mach) (e : EvRec) : m.SameBoard (m.evWrite e) := by
  unfold Mach.evWrite
  exact m.withLink_board.trans (Mach.hostWrite_board ..)

theorem Mach.logRaw_board (m : Mach) (code source time : Nat) (detail : Bytes) :
    m.SameBoard (m.logRaw code source time detail).1 := by
  unfold Mach.logRaw
  extract_lets e m1 m2
  have h1 : m.SameBoard m1 := .refl m
  have h2 : m.SameBoard m2 := h1.trans (m1.dadd_board ..)
  split
  · exact (h2.trans (m2.emit_board _)).trans (Mach.dadd_board ..)
  · exact h2

theorem pumpEvents_board (n : Nat) (m : Mach) : m.SameBoard (pumpEvents n m) := by
  induction n generalizing m with
  | zero => exact .refl m
  | succ n ih =>
    unfold pumpEvents
    refine .ite (.refl m) ?_
    split
    · next first k _ =>
      extract_lets m1 l m2
      have hl : m.link = m1.link := by
        obtain ⟨c, hc⟩ := m.dadd_frame 0x9101 0x15 k
        exact (congrArg Mach.link hc).symm
      have h2 : m.SameBoard m2 :=
        (m.dadd_board 0x9101 0x15 k).trans (m1.withLink_board (show m.link.cmds = _ by rw [hl]) (show m.link.detaching = _ by rw [hl]))
      have h3 := h2.trans (m2.logRaw_board evEventRingOverflow 1024 (2 ^ 63 + m2.power.aoMs) (toLe 4 first ++ toLe 4 k))
      generalize m2.logRaw evEventRingOverflow 1024 (2 ^ 63 + m2.power.aoMs) (toLe 4 first ++ toLe 4 k) = r at h3 ⊢
      exact ((h3.trans (Mach.withLink_board _)).trans (Mach.evWrite_board ..)).trans (ih _)
    · split
      · exact .refl m
      · exact (m.withLink_board.trans (Mach.evWrite_board ..)).trans (ih _)

theorem Mach.logAppend_board (m : Mach) (code source time : Nat) (detail : Bytes) :
    m.SameBoard (m.logAppend code source time detail) := by
  have h := (m.logRaw_board code source time detail).trans (pumpEvents_board 300 _)
  unfold Mach.logAppend
  exact .ite h (h.trans (Mach.withLink_board _))

theorem Mach.pollEvents_board (m : Mach) : m.SameBoard m.pollEvents := by
  unfold Mach.pollEvents
  extract_lets ends
  exact .trans (t := { m with evPend := m.evPend.filter fun e => ends ≤ e.turn }) rfl
    (.foldl (fun m e => m.logAppend_board ..) _ _)

/-! ### Rings and the link -/

theorem pumpRing_board (r n : Nat) (m : Mach) : m.SameBoard (pumpRing r n m) := by
  induction n generalizing m with
  | zero => exact .refl m
  | succ n ih =>
    unfold pumpRing
    extract_lets q
    split
    · exact .refl m
    · exact .ite (.refl m) (((m.hostWrite_board ..).trans (Mach.updRing_board ..)).trans (ih _))
theorem Mach.ringDrained_board (m : Mach) (r : Nat) : m.SameBoard (m.ringDrained r) :=
  .ite ((m.dictPut_board ..).trans (Mach.updRing_board ..)) (.refl m)
theorem Mach.flushRing_board (m : Mach) (r : Nat) : m.SameBoard (m.flushRing r) :=
  (pumpRing_board r 600 m).trans (Mach.ringDrained_board ..)

theorem Mach.hlReplay_board (m : Mach) : m.SameBoard m.hlReplay := by
  unfold Mach.hlReplay
  extract_lets l m1
  exact .ite (.refl m) (((Mach.SameBoard.foldl (fun m f => m.emit_board _) l.replay m).trans (m1.dadd_board ..)).trans
    (Mach.updLink_board _))
theorem Mach.hlRetrained_board (m : Mach) : m.SameBoard m.hlRetrained := by
  unfold Mach.hlRetrained
  exact .ite (.refl m) ((((m.updLink_board.trans (Mach.dadd_board ..)).trans (Mach.moEvent_board ..)).trans
    (Mach.hlReplay_board _)).trans (hlPump_board ..))
theorem Mach.wake_board (m : Mach) (b : Nat) : m.SameBoard (m.wake b) :=
  .ite (.refl m) (.ite (.ite (.refl m) m.updPower_board) (.ite (m.updPower_board.trans (Mach.dset_board ..))
    (.ite (m.dset_board ..) (.refl m))))
theorem Mach.linkUp_board (m : Mach) (lanes : Nat) : m.SameBoard (m.linkUp lanes) := by
  unfold Mach.linkUp
  exact .ite (.refl m) (((((m.withLink_board.trans (Mach.moEvent_board ..)).trans (hlPump_board ..)).trans
    (.foldl (fun m r => m.flushRing_board r) _ _)).trans (pumpEvents_board ..)).trans (Mach.wake_board ..))
theorem Mach.restartRings_board (m : Mach) : m.SameBoard m.restartRings := by
  unfold Mach.restartRings
  extract_lets t m1 m2 m3
  have h1 : m.SameBoard m1 := .ite (m.updRing_board ..) (.refl m)
  have h2 : m.SameBoard m2 := h1.trans (.ite (m1.updRing_board ..) (.refl m1))
  have h3 : m.SameBoard m3 := h2.trans (.ite m2.updLink_board (.refl m2))
  exact h3.trans m3.updLink_board
theorem Mach.hlCtrl_board (m : Mach) (w : Nat) : m.SameBoard (m.hlCtrl w) := by
  unfold Mach.hlCtrl
  exact .ite (.refl m) (.ite m.updLink_board (.ite m.updLink_board (.ite m.updLink_board
    (((m.restartRings_board.trans (Mach.updLink_board _)).trans (Mach.flushRing_board ..)).trans (pumpEvents_board ..)))))

/-! ### The management segment, the store, the supply -/

theorem Mach.mgmtSend_board (m : Mach) (dst : Nat) (bs : Bytes) : m.SameBoard (m.mgmtSend dst bs) :=
  .ite (.refl m) ((m.emit_board _).trans (Mach.dadd_board ..))
theorem Mach.offered_board (m : Mach) (n : Nat) : m.SameBoard (m.offered n) := by
  unfold Mach.offered
  exact .ite (.refl m) (.ite (m.dadd_board ..) ((((m.dadd_board ..).trans (Mach.updMgmt_board ..)).trans
    (Mach.dadd_board ..)).trans (Mach.mgmtSend_board ..)))
theorem Mach.timeRecord_board (m : Mach) : m.SameBoard m.timeRecord := m.updTimeLog_board _
theorem Mach.powerTick_board (m : Mach) (n : Nat) : m.SameBoard (m.powerTick n) := by
  unfold Mach.powerTick
  exact .ite (.refl m) (m.freeWord_board.trans (Mach.updPower_board _))

end Sys2Proof.Machine
end

section
/-! The statement about the board's events. -/

namespace Sys2Proof.Machine

/-- On a machine at rest a command that keeps the board keeps it once the machine has run on. -/
theorem Mach.SameBoard.rest {m t : Mach} (h : m.SameBoard t) (hq : m.quiet = true) : m.SameBoard t.rest := by
  have hs : t.still = true := h.still.trans (m.quiet_iff.1 hq).1
  rw [Mach.rest_still hs]
  exact h.trans t.pollEvents_board

/-- The states whose board, vault and queue are those of `s`. -/
def State.SameBoard (s t : State) : Prop := s.m.SameBoard t.m ∧ t.v = s.v ∧ t.pending = s.pending

theorem State.onMach_board {s t : State} {f : Mach → Mach} (hf : s.m.SameBoard (f s.m)) (hq : s.m.quiet = true)
    (h : s.onMach f = .next t) : s.SameBoard t := by
  rw [State.onMach_eq] at h
  obtain rfl : s.settled (f s.m) = t := by injection h
  exact ⟨by simpa only [State.settled_m] using hf.rest hq, by simp, by simp⟩

/-! ### The commands, by what they concern -/

/-- The host link's events and its doorbells. -/
def linkEvents (n : Nat) (x : Half) (w : DWord) : List Instr :=
  [.sqDoorbell n x, .cqDoorbell n x, .eventHeadDoorbell x, .hlCtrlWrite w, .ctrlWrite n w, .ringPairDrained n,
      .hlReplayTimeout, .hostLinkRetrained, .hostLinkUp n]
/-- The events of the management segment, of its takeover and of the store. -/
def mgmtEvents (n : Nat) : List Instr :=
  [.sweepBegin, .addressOffer n, .mgmtBeaconLost, .mgmtBeaconResumed, .mgmtChainInLost, .mgmtChainInAsserted,
      .mgmtFrameDiscarded, .mgmtTakeover, .poweredTimeRecord, .nvInhibitBegin]
/-- The events of the supply and of the power limit, and the wake sources. -/
def supplyEvents (n : Nat) : List Instr :=
  [.supplyLow, .supplyWarnEnd, .modResetNRelease, .powerLimitTick n, .powerComparatorTrip, .powerComparatorRelease,
      .wake n]
/-- The expiries of what the dictionary holds. -/
def expiries (who : Master) (n sub : Nat) (x : Half) : List Instr :=
  [.oapStagingTimeout who n sub, .oapSnapshotExpire who n sub, .oapKeptResponseExpire who x]

theorem linkEvent_board {s t : State} {n : Nat} {x : Half} {w : DWord} {c : Instr} (hq : s.m.quiet = true)
    (hc : c ∈ linkEvents n x w)
    (h : exec c s = .next t) : s.SameBoard t := by
  simp only [linkEvents, List.mem_cons, List.not_mem_nil, or_false] at hc
  have keeps {f : Mach → Mach} (hf : ∀ m : Mach, m.SameBoard (f m)) (h : s.onMach f = .next t) := State.onMach_board (hf s.m) hq h
  obtain rfl | rfl | rfl | rfl | rfl | rfl | rfl | rfl | rfl := hc <;> unfold exec at h
  case _ => exact keeps (fun m => .ite (.refl m) (m.updRing_board ..)) h
  case _ => exact keeps (fun m => .ite (.refl m) ((m.updRing_board ..).trans (Mach.flushRing_board ..))) h
  case _ => exact keeps (fun m => .ite (.refl m) (m.updLink_board.trans (pumpEvents_board ..))) h
  case _ => exact keeps (fun m => m.hlCtrl_board _) h
  case _ =>
    exact keeps (fun m => .ite (.refl m) (m.updLink_board (by split_ifs <;> rfl) (by split_ifs <;> rfl))) h
  case _ => exact keeps (fun m => .ite (m.flushRing_board _) (.refl m)) h
  case _ => exact keeps Mach.hlReplay_board h
  case _ => exact keeps Mach.hlRetrained_board h
  case _ => exact keeps (fun m => .ite (.refl m) (m.linkUp_board _)) h

theorem mgmtEvent_board {s t : State} {n : Nat} {c : Instr} (hq : s.m.quiet = true)
    (hc : c ∈ mgmtEvents n)
    (h : exec c s = .next t) : s.SameBoard t := by
  simp only [mgmtEvents, List.mem_cons, List.not_mem_nil, or_false] at hc
  have keeps {f : Mach → Mach} (hf : ∀ m : Mach, m.SameBoard (f m)) (h : s.onMach f = .next t) := State.onMach_board (hf s.m) hq h
  obtain rfl | rfl | rfl | rfl | rfl | rfl | rfl | rfl | rfl | rfl := hc <;> unfold exec at h
  case _ => exact keeps (fun m => .ite (.refl m) ((m.dadd_board ..).trans (Mach.updMgmt_board ..))) h
  case _ => exact keeps (fun m => m.offered_board _) h
  case _ =>
    exact keeps (fun m => .ite (.refl m) (((m.updMgmt_board _).trans (Mach.dadd_board ..)).trans (Mach.moEvent_board ..))) h
  case _ => exact keeps (fun m => m.updMgmt_board _) h
  case _ =>
    exact keeps (fun m => .ite ((m.updMgmt_board _).trans (Mach.moEvent_board ..)) (m.updMgmt_board _)) h
  case _ => exact keeps (fun m => m.updMgmt_board _) h
  case _ => exact keeps (fun m => .ite (m.dadd_board ..) (.refl m)) h
  case _ =>
    exact keeps (fun m => .ite (.refl m) ((((m.updMgmt_board _).trans (Mach.dadd_board ..)).trans
      (Mach.moEvent_board ..)).trans (Mach.dropLosers_board _))) h
  case _ => exact keeps (fun m => .ite (.refl m) m.timeRecord_board) h
  case _ =>
    exact keeps (fun m => .ite (.refl m) (.ite (m.updPower_board (f := fun p => { p with nvInhibit := true }))
      ((m.updPower_board (f := fun p => { p with nvInhibit := true })).trans (Mach.timeRecord_board _)))) h

theorem supplyEvent_board {s t : State} {n : Nat} {c : Instr} (hq : s.m.quiet = true)
    (hc : c ∈ supplyEvents n)
    (hr : c = .modResetNRelease → s.m.power.supplied = none) (h : exec c s = .next t) : s.SameBoard t := by
  simp only [supplyEvents, List.mem_cons, List.not_mem_nil, or_false] at hc
  have keeps {f : Mach → Mach} (hf : ∀ m : Mach, m.SameBoard (f m)) (h : s.onMach f = .next t) := State.onMach_board (hf s.m) hq h
  obtain rfl | rfl | rfl | rfl | rfl | rfl | rfl := hc <;> unfold exec at h
  case _ =>
    exact keeps (fun m => .ite m.updPower_board (m.updPower_board.trans (Mach.moEvent_board ..))) h
  case _ => exact keeps (fun m => m.updPower_board) h
  case _ =>
    have hp : s.pinRelease = s.setM fun m => m.updPower fun x => { x with resetLow := false, supplied := none } := by
      unfold State.pinRelease
      rw [hr rfl]
      cases s.m.power.resetLow <;> cases s.m.power.boot <;> rfl
    unfold execModResetNRelease at h
    rw [hp] at h
    exact keeps (f := fun m => m.updPower fun x => { x with resetLow := false, supplied := none }) (fun m => m.updPower_board) h
  case _ => exact keeps (fun m => m.powerTick_board _) h
  case _ => exact keeps (fun m => m.updPower_board) h
  case _ => exact keeps (fun m => m.updPower_board) h
  case _ => exact keeps (fun m => m.wake_board _) h

theorem expiry_board {s t : State} {n sub : Nat} {x : Half} {who : Master} {c : Instr} (hq : s.m.quiet = true)
    (hc : c ∈ expiries who n sub x)
    (h : exec c s = .next t) : s.SameBoard t := by
  simp only [expiries, List.mem_cons, List.not_mem_nil, or_false] at hc
  have keeps {f : Mach → Mach} (hf : ∀ m : Mach, m.SameBoard (f m)) (h : s.onMach f = .next t) := State.onMach_board (hf s.m) hq h
  obtain rfl | rfl | rfl := hc <;> unfold exec at h
  case _ => exact keeps (fun m => m.staging_board _) h
  case _ => exact keeps (fun m => m.snaps_board _) h
  case _ => exact keeps (fun m => m.kept_board _) h

end Sys2Proof.Machine

namespace Sys2Proof
open Machine

/-- Settles O40: each of these commands changes nothing but what `Mach.board` leaves out, and after it there is nothing to run on with
but the firmware's pass over the events. -/
theorem boardEventsLeaveTheRest : Obligations.BoardEventsLeaveTheRest := by
  unfold Obligations.BoardEventsLeaveTheRest
  intro s t n sub x w who c hq hc hr h
  obtain ⟨hb, hv, hp⟩ : s.SameBoard t := by
    have hc : c ∈ linkEvents n x w ++ (mgmtEvents n ++ (supplyEvents n ++ expiries who n sub x)) := hc
    simp only [List.mem_append] at hc
    obtain hc | hc | hc | hc := hc
    · exact linkEvent_board hq hc h
    · exact mgmtEvent_board hq hc h
    · exact supplyEvent_board hq hc hr h
    · exact expiry_board hq hc h
  have hb : t.m.board = s.m.board := hb
  have field {α : Type} (f : Mach → α) : f t.m.board = f s.m.board := congrArg f hb
  have hmem : t.m.mem = s.m.mem := field Mach.mem
  exact ⟨fun a => by rw [hmem], field Mach.chk, field Mach.lost, field Mach.tensors, field Mach.progs, field Mach.groups,
    field Mach.ctxs, field Mach.csr, field Mach.dies, hv, hp⟩

end Sys2Proof
end

section
/-! A step, an idle step, and the host commands on handles, programs, groups and streams. -/

namespace Sys2Proof.Machine

/-! ### What keeps the books of the reserve leaves the rest -/

theorem Mach.syncLent_groups (m : Mach) (p : Nat) : (m.syncLent p).groups = m.groups := (m.dset_core ..).2.2.2.2.1
theorem Mach.syncLent_tensors (m : Mach) (p : Nat) : (m.syncLent p).tensors = m.tensors := (m.dset_core ..).2.2.1

/-! ### The commands of streams -/

/-- A PAUSE or STOP of a group that there is not. -/
theorem slowGroup_absent {s : State} {h : HostHdr} {k g : Nat} (ht : s.m.takes h k (some g) = true)
    (hg : (s.m.fetched h k).group? h.partition g = none) :
    s.onMach (fun m => m.slowGroup h k g) = .next (s.hostDone h k (s.m.fetched h k) stBadState 0) := by
  rw [State.onMach_eq, State.hostDone]
  unfold Mach.slowGroup
  rw [hostRun_takes ht]
  simp [(takes_iff ht).2.2, hg]
/-- A PAUSE or STOP of a group is kept, and begun where it may begin. -/
theorem slowGroup_kept {s : State} {h : HostHdr} {k g : Nat} (ht : s.m.takes h k (some g) = true)
    (hg : ((s.m.fetched h k).group? h.partition g).isSome = true) :
    s.onMach (fun m => m.slowGroup h k g) =
      .next (s.settled ((s.m.fetched h k).keepCmd (cmdOf h k) fun c => { c with extra := [g, 0] }).pumpGroupCmds) := by
  rw [State.onMach_eq]
  unfold Mach.slowGroup
  rw [hostRun_takes ht]
  simp [(takes_iff ht).2.2, Option.isSome_iff_ne_none.1 hg, Mach.keepCmd, cmdOf]

/-- START of a group whose contexts may start: the room, then the self-test, then the work. -/
theorem startGroup_of_ok {m : Mach} {p g : Nat} {x : Group} (hk : m.startOk p g = true) (hx : m.group? p g = some x) :
    m.startGroup p g =
      if x.kind == .training && !((m.startRoom p x).reserveFits p && (m.startRoom p x).journalFits p g)
      then (stNoSpace, m.startRoom p x)
      else if (m.startRoom p x).dnum 0x7010 6 = 2 then (stBusy, m.startRoom p x)
      else (stOk, (m.startRoom p x).startWork p g x) := by
  simp only [Mach.startGroup, hk, hx, Bool.not_true, Bool.false_eq_true, if_false]
/-- RESUME of a group without a fault. -/
theorem resumeGroup_of_ok {m : Mach} {p g : Nat} {x : Group} (hx : m.group? p g = some x) (hp : x.pausedBy ≠ 16)
    (hf : ((m.ctxsOf p g).any fun c => (m.ctx c).faulty) = false) :
    m.resumeGroup p g =
      if (m.ctxsOf p g).all fun c => (m.ctx c).st != .paused then (stOk, m)
      else if x.kind == .training && !m.reserveFits p then (stNoSpace, m)
      else if m.dnum 0x7010 6 = 2 || m.updHeld p g then (stBusy, m)
      else (stOk, m.resumeWork p g x) := by
  simp only [Mach.resumeGroup, hx, hf, hp, Bool.false_or, decide_false, Bool.false_eq_true, if_false]
/-- A group whose room is looked at has it. -/
theorem room_of_imp {x : Group} {b : Bool} (h : x.kind = .training → b = true) : (x.kind == .training && !b) = false := by
  by_cases hk : x.kind = .training
  · simp [h hk]
  · simp [hk]

end Sys2Proof.Machine

namespace Sys2Proof.Machine

/-! ### UNBIND and GROUP_DESTROY -/

/-- Is the context's group one of training? -/
def Mach.trains (m : Mach) (p c : Nat) : Bool :=
  match m.group? p (m.ctx c).group with | some g => g.kind == .training | none => false

/-- UNBIND of a context of the partition. -/
theorem unbindCtx_of_own {m : Mach} {p c : Nat} (hc : c < 32) (hp : (m.ctx c).part = p) (ho : ctxOwned m.mode p c = true) :
    m.unbindCtx p c =
      if (m.ctx c).st ≠ .done then (stBadState, m)
      else if m.trains p c && (m.ctxsOf p (m.ctx c).group).any fun k => (m.ctx k).st != .done then (stBadState, m)
      else (stOk, (match m.group? p (m.ctx c).group with
        | some y => if m.trains p c && y.slotted then m.untagLeaving p c y else m
        | none => m).updCtx c fun _ => {}) := by
  unfold Mach.unbindCtx
  exact if_pos ⟨hc, Or.inr hp, ho⟩

/-- GROUP_DESTROY of a group without contexts: the reserve is released with the last training group (R162). -/
theorem destroyGroup_of_empty {m : Mach} {p g : Nat} (hg : (m.group? p g).isSome = true) (hc : m.ctxsOf p g = []) :
    m.destroyGroup p g =
      if (m.groups.filter fun y => !(y.part == p && y.num == g)).any fun y => y.part == p && y.kind == .training
      then (stOk, ({ m with groups := m.groups.filter fun y => !(y.part == p && y.num == g) } : Mach).syncLent p)
      else (stOk, ({ ({ m with groups := m.groups.filter fun y => !(y.part == p && y.num == g) } : Mach).syncLent p with
        tensors := m.tensors.map fun t => if t.part ≠ p then t else
          { t with marks := t.marks.map fun q => (q.1, { q.2 with charged := false }) } } : Mach).dset (0x4110 + p) 0x10 0) := by
  have hthere : ((m.group? p g).isNone || !(m.ctxsOf p g).isEmpty) = false := by
    simp [hc, hg]
  unfold Mach.destroyGroup
  simp only [hthere, Bool.false_eq_true, if_false, Mach.syncLent_groups, Mach.syncLent_tensors]

end Sys2Proof.Machine

namespace Sys2Proof
open Machine

/-- Settles O1: the step takes the front of the queue off. -/
theorem stepRunsTheFrontCommand : Obligations.StepRunsTheFrontCommand := by
  unfold Obligations.StepRunsTheFrontCommand
  intro c q s
  rfl

/-- Settles O2: outside an entry to or an exit from Deep a tick is a nanosecond of the machine. -/
theorem idleStepLetsTimePass : Obligations.IdleStepLetsTimePass := by
  unfold Obligations.IdleStepLetsTimePass
  intro s hp h1 h3
  have hsteps : (s.setM Mach.nanosecond).m.power.deepSteps = s.m.power.deepSteps := rfl
  have htick : s.tick = s.setM Mach.nanosecond := by
    unfold State.tick
    simp only [hsteps, h1, h3, if_false]
  have hstep : step s = .next s.tick := by
    unfold step
    rw [hp]
  rw [hstep, htick]
  rfl

/-- Settles O4: each command's checks in their order, then its work. -/
theorem handleCommandsDoTheirWork : Obligations.HandleCommandsDoTheirWork := by
  unfold Obligations.HandleCommandsDoTheirWork
  intro s h handle words addr p ws
  refine ⟨fun ht => ?_, fun ht => ?_, fun ht => ?_⟩
  · intro m
    have run {st res m'} (hf : m.handleWrite p handle ws = (st, res, m')) :
        exec (.handleWrite h handle words) s = .next (s.hostDone h 0x10 m' st res) := done_of ht rfl hf
    refine ⟨fun hk => run ?_, fun hk hb => run ?_, fun hk hb hd => run ?_, fun hk hb hd hm => ?_⟩
    · simp [Mach.handleWrite, hk]
    · simp [Mach.handleWrite, hk, hb]
    · simp [Mach.handleWrite, hk, hb, hd]
    · cases hn : (m.freeHandle p handle).newTensor p (HDesc.ofWords ws) with
      | some m' => exact run (by simp [Mach.handleWrite, hk, hb, hd, hm, hn])
      | none => exact run (by simp [Mach.handleWrite, hk, hb, hd, hm, hn])
  · intro m
    have hout : (h.fault == .output) = false := by rw [(takes_iff ht).2.2]; rfl
    have run {st res m'} (hf : m.handleRead p handle addr.toNat (h.fault == .output) = (st, res, m')) :
        exec (.handleRead h handle addr) s = .next (s.hostDone h 0x11 m' st res) := done_of ht rfl hf
    refine ⟨fun hk => run ?_, fun hk => run ?_⟩
    · simp [Mach.handleRead, hk]
    · simp [Mach.handleRead, hk, hout] <;> rfl
  · intro m
    have run {st res m'} (hf : m.handleFree p handle = (st, res, m')) :
        exec (.handleFree h handle) s = .next (s.hostDone h 0x12 m' st res) := done_of ht rfl hf
    refine ⟨fun hk => run ?_, fun hk hb => run ?_, fun hk hb => run ?_⟩
    · simp [Mach.handleFree, hk]
    · simp [Mach.handleFree, hk, hb]
    · simp [Mach.handleFree, hk, hb, Mach.freeHandle]

/-- Settles O5: PROGRAM_LOAD is kept, the others answer by their checks. -/
theorem programsAndGroupsComplete : Obligations.ProgramsAndGroupsComplete := by
  unfold Obligations.ProgramsAndGroupsComplete
  intro s h n g kind pick len image seed first rpt p
  refine ⟨fun ht => kept_of ht rfl rfl, fun ht => ?_, fun ht => ?_, fun ht => ?_⟩
  · intro m
    have run {st res m'} (hf : m.programUnload p n = (st, res, m')) :
        exec (.programUnload h n) s = .next (s.hostDone h 0x21 m' st res) := done_of ht rfl hf
    refine ⟨fun hn => run ?_, fun q hq => ⟨fun hp => run ?_, fun hp hc => run ?_, fun hp hc => run ?_⟩⟩
    · simp only [Mach.programUnload, hn]
    · simp only [Mach.programUnload, hq, if_pos hp]
    · simp only [Mach.programUnload, hq, hp, ne_eq, not_true_eq_false, if_false, hc, if_true]
    · simp only [Mach.programUnload, hq, hp, ne_eq, not_true_eq_false, if_false, hc, Bool.false_eq_true]
  · intro m
    have run {st res m'} (hf : m.groupCreate p g kind seed.toNat first.toNat rpt.toNat = (st, res, m')) :
        exec (.groupCreate h g kind seed first rpt) s = .next (s.hostDone h 0x22 m' st res) := done_of ht rfl hf
    refine ⟨fun hk => run ?_, fun hk hg => run ?_, fun k hk hg => run ?_⟩
    · have hnone : groupKindOf kind = none := by
        match kind, hk with
        | n + 3, _ => rfl
      simp only [Mach.groupCreate, hnone]
    · have hsome : ∃ k, groupKindOf kind = some k := by
        match kind, hk with
        | 0, _ => exact ⟨_, rfl⟩
        | 1, _ => exact ⟨_, rfl⟩
        | 2, _ => exact ⟨_, rfl⟩
      obtain ⟨k, hkind⟩ := hsome
      simp only [Mach.groupCreate, hkind, hg, if_true]
    · simp only [Mach.groupCreate, hk, hg, Option.isSome_none, Bool.false_eq_true, if_false]
  · intro m q hq
    have run {st res m'} (hf : m.bindProg p g n pick = (st, res, m')) :
        exec (.bind h g n pick) s = .next (s.hostDone h 0x23 m' st res) := done_of ht rfl hf
    refine ⟨fun hp => run ?_, fun hp hg hb => ?_⟩
    · simp only [Mach.bindProg, hq, if_pos hp]
    · obtain ⟨y, hy⟩ := Option.isSome_iff_exists.1 hg
      have hbound : ((m.ctxsOf p g).any fun c => (m.ctx c).st != .bound) = false := by
        simpa using hb
      refine ⟨fun hc => run ?_, fun c cs hc => run ?_⟩
      · simp only [Mach.bindProg, hq, hp, ne_eq, not_true_eq_false, if_false, hy, hbound, Bool.false_eq_true, hc]
      · simp only [Mach.bindProg, hq, hp, ne_eq, not_true_eq_false, if_false, hy, hbound, Bool.false_eq_true, hc]

/-- Settles O6: the checks of each command in their order, then its work. -/
theorem streamCommandsComplete : Obligations.StreamCommandsComplete := by
  unfold Obligations.StreamCommandsComplete
  intro s h g c x p
  refine ⟨fun ht => ?_, fun ht => ?_, fun ht => ?_, fun ht => ?_, fun ht => ?_, fun ht => ?_⟩
  · intro m
    have run {st m'} (hf : m.startGroup p g = (st, m')) :
        exec (.start h g) s = .next (s.hostDone h 0x24 m' st 0) :=
      done_of ht rfl (show ((m.startGroup p g).1, 0, (m.startGroup p g).2) = _ by rw [hf])
    refine ⟨fun hk => run ?_, fun hk hx => ?_⟩
    · simp [Mach.startGroup, hk]
    · intro m1
      refine ⟨fun ht hr => run ?_, fun hr hb => run ?_, fun hr hb => run ?_⟩
      · have hroom : ((m.startRoom p x).reserveFits p && (m.startRoom p x).journalFits p g) = false := hr
        rw [startGroup_of_ok hk hx, hroom, ht]
        rfl
      · rw [startGroup_of_ok hk hx, room_of_imp (by simpa using hr), if_neg Bool.false_ne_true, if_pos hb]
      · rw [startGroup_of_ok hk hx, room_of_imp (by simpa using hr), if_neg Bool.false_ne_true, if_neg hb]
  · intro m hx hp hf
    have run {st m'} (hf : m.resumeGroup p g = (st, m')) :
        exec (.resume h g) s = .next (s.hostDone h 0x26 m' st 0) :=
      done_of ht rfl (show ((m.resumeGroup p g).1, 0, (m.resumeGroup p g).2) = _ by rw [hf])
    refine ⟨fun ha => run ?_, fun ha => ⟨fun ht hr => run ?_, fun hr hb => run ?_, fun hr hb hu => run ?_⟩⟩
    · rw [resumeGroup_of_ok hx hp hf, if_pos ha]
    · rw [resumeGroup_of_ok hx hp hf, ha, if_neg Bool.false_ne_true, if_pos (by simp [ht, hr])]
    · rw [resumeGroup_of_ok hx hp hf, ha, if_neg Bool.false_ne_true, room_of_imp hr, if_neg Bool.false_ne_true,
        if_pos (by simpa using hb)]
    · rw [resumeGroup_of_ok hx hp hf, ha, if_neg Bool.false_ne_true, room_of_imp hr, if_neg Bool.false_ne_true,
        if_neg (by simp [hb, hu])]
  · exact ⟨slowGroup_absent ht, slowGroup_kept ht⟩
  · exact ⟨slowGroup_absent ht, slowGroup_kept ht⟩
  · intro m train hc hp ho
    have run {st m'} (hf : m.unbindCtx p c = (st, m')) :
        exec (.unbind h c) s = .next (s.hostDone h 0x28 m' st 0) :=
      done_of ht rfl (show ((m.unbindCtx p c).1, 0, (m.unbindCtx p c).2) = _ by rw [hf])
    have htrain : m.trains p c = train := rfl
    refine ⟨fun hd => run ?_, fun hd ht => run ?_, fun hd ht ha => run ?_, fun hd ht ha => run ?_⟩
    · rw [unbindCtx_of_own hc hp ho, if_pos hd]
    · rw [unbindCtx_of_own hc hp ho, if_neg (not_not.2 hd), htrain, ht, Bool.false_and, if_neg Bool.false_ne_true]
      cases m.group? p (m.ctx c).group <;> rfl
    · rw [unbindCtx_of_own hc hp ho, if_neg (not_not.2 hd), htrain, ht, Bool.true_and, if_pos ha]
    · rw [unbindCtx_of_own hc hp ho, if_neg (not_not.2 hd), htrain, ht, Bool.true_and, ha, if_neg Bool.false_ne_true]
      simp only [Bool.true_and] <;> rfl
  · intro m left
    have run {st m'} (hf : m.destroyGroup p g = (st, m')) :
        exec (.groupDestroy h g) s = .next (s.hostDone h 0x29 m' st 0) :=
      done_of ht rfl (show ((m.destroyGroup p g).1, 0, (m.destroyGroup p g).2) = _ by rw [hf])
    refine ⟨fun hk => run (if_pos hk), fun hg hc => ⟨fun ha => run ?_, fun ha => run ?_⟩⟩
    · exact (destroyGroup_of_empty hg hc).trans (if_pos ha)
    · exact (destroyGroup_of_empty hg hc).trans (if_neg (by rw [ha]; exact Bool.false_ne_true))

end Sys2Proof
end

section
/-! The host commands that wait for something: transfers, waits, DETACH, and the completion of what was fetched. -/

namespace Sys2Proof.Machine

/-- What a command that acts on the machine alone answers, its effect worked out. -/
theorem ran_of {s : State} {i : Instr} {f : Mach → Mach} (he : exec i s = s.onMach f) {m : Mach} (hf : f s.m = m) :
    exec i s = .next (s.settled m) := by
  rw [he, State.onMach_eq, hf]

/-! ### WAIT -/

/-- A WAIT that is taken. -/
theorem hostWait_takes {m : Mach} {h : HostHdr} (ht : m.takes h 0x33 none = true) (ctr : Half) (count timeout : Nat) :
    m.hostWait h ctr count timeout =
      if timeout = 0 ∨ 600000 < timeout then (m.fetched h 0x33).finishHost (cmdOf h 0x33) stBadCommand 0
      else match extCtr (m.fetched h 0x33).mode h.partition ctr.toNat with
        | none => (m.fetched h 0x33).finishHost (cmdOf h 0x33) stBadCommand 0
        | some (d, i) =>
          if count = 0 ∨ 255 < count then ((m.fetched h 0x33).refuseWait d i).finishHost (cmdOf h 0x33) stWaitRefused 0
          else (m.fetched h 0x33).postWait d i ⟨.host h.ring h.tag, count⟩ := by
  unfold Mach.hostWait
  rw [hostRun_takes ht, (takes_iff ht).2.2] <;> rfl

end Sys2Proof.Machine

namespace Sys2Proof
open Machine

/-- Settles O7: a transfer is kept or turned away by its own check; the others do their work where they are fetched. -/
theorem transfersSignalsAndTimeComplete : Obligations.TransfersSignalsAndTimeComplete := by
  unfold Obligations.TransfersSignalsAndTimeComplete
  intro s h module part slot len group source count timeout off mode ring addr time ctr tag image data tile x d i p
  refine ⟨fun ht => ⟨fun hs => ?_, fun hs hw => ?_, fun hs hw => ?_⟩, fun ht => ⟨fun hs => ?_, fun hs hr => ?_, fun hs hr => ?_⟩,
    fun ht => done_of ht rfl rfl, fun ht => ⟨fun r hr => ?_, fun st res m' hr => ?_⟩,
    fun ht => ⟨fun r hr => ?_, fun st res m' hr => ?_⟩, fun ht => ⟨fun hc => ?_, fun hc => ?_⟩, fun ht => ?_, fun c hc hk => ?_,
    fun ht => ?_⟩
  · exact slow_of ht rfl (by rw [hs]; rfl)
  · exact slow_of ht rfl (by rw [hs]; exact if_pos hw)
  · exact kept_of ht rfl (by rw [hs]; exact if_neg (ne_true_of_eq_false hw))
  · exact slow_of ht rfl (if_pos hs)
  · exact slow_of ht rfl (by rw [if_neg (by omega), if_pos (by rw [hr]; rfl)])
  · exact kept_of ht rfl (by rw [if_neg (by omega), if_neg (by rw [hr]; exact Bool.false_ne_true)])
  · exact kept_of ht rfl (by rw [hr])
  · exact slow_of ht rfl (by rw [hr])
  · exact kept_of ht rfl (by rw [hr])
  · exact slow_of ht rfl (by rw [hr])
  · exact done_of ht rfl (by rw [hc])
  · exact done_of ht rfl (by rw [hc])
  · intro m
    have run {m'} (hf : s.m.hostWait h ctr count timeout = m') : exec (.wait h ctr count timeout) s = .next (s.settled m') :=
      ran_of (f := fun m => m.hostWait h ctr count timeout) rfl hf
    refine ⟨fun hb => ?_, fun h0 h1 hc => ?_, fun h0 h1 hc => ⟨fun hn => ?_, fun hn hm => ?_⟩⟩
    · exact run ((hostWait_takes ht ..).trans (if_pos hb))
    · exact run ((hostWait_takes ht ..).trans (by rw [if_neg (by omega), hc]))
    · exact run ((hostWait_takes ht ..).trans (by rw [if_neg (by omega), hc]; exact if_pos hn))
    · exact run ((hostWait_takes ht ..).trans (by rw [if_neg (by omega), hc]; exact if_neg (by omega)))
  · exact ran_of (f := fun m => m.hostWaitExpire ring tag) rfl (by unfold Mach.hostWaitExpire; rw [hc]; exact if_pos hk)
  · intro m
    have hout : (h.fault == .output) = false := by rw [(takes_iff ht).2.2]; rfl
    exact done_of ht rfl (by rw [hout]; rfl)

end Sys2Proof
end

section
/-! COMMAND_COMPLETE without a host fault, and the commands DETACH and OAP. -/

namespace Sys2Proof.Machine

/-! ### Reports of sectors that cross the Seam touch the dictionary alone -/

theorem Mach.farCount_frame (m : Mach) (die a n : Nat) : ∃ c, m.farCount die a n = { m with dict := c } := by
  unfold Mach.farCount
  split
  · split
    · exact ⟨m.dict, rfl⟩
    · exact m.dadd_frame ..
  · exact ⟨m.dict, rfl⟩

/-! ### The completion of each kind of work -/

/-- COMMAND_COMPLETE of a command under way. -/
theorem commandDone_of {m : Mach} {ring : Nat} {tag : Half} {c : HostCmd} (hc : m.hostCmd? ring tag = some c) (fault : Bool)
    (done : Nat) :
    m.commandDone ring tag fault done =
      if c.kind = 0x30 ∨ c.kind = 0x31 then m.dmaEnd c fault done
      else if c.kind = 0x20 then m.loadEnd c fault
      else if c.kind = 0x2A then m.ckptReadEnd c fault done
      else if c.kind = 0x2B then m.restoreEnd c fault
      else m := by
  unfold Mach.commandDone
  rw [hc]

/-- A DMA whose range holds ends when the link and the range serve it. -/
theorem dmaEnd_of_range {m : Mach} {c : HostCmd} {r : Option (Nat × Nat)} (done : Nat)
    (hr : m.dmaRange c.part (c.tile.getD ⟨0, 0, 0, 0, 0⟩) (if c.tile.isSome then 0 else 1) c.off c.len = .ok r) :
    m.dmaEnd c false done =
      if m.link.retraining then m
      else if c.len = 0 then m.finishHost c stOk 0
      else if !m.hostServed c.part (m.dmaAddr c) c.len then m
      else if c.kind = 0x30 then
        (((m.farCount 0 (m.dmaAddr c) c.len).dmaStore c.part c (c.data.take c.len)).dadd 0x9101 0x14 c.len).finishHost c stOk c.len
      else
        let got := (m.farCount 0 (m.dmaAddr c) c.len).dmaFetch c.part c c.len
        let good := match got.2.2 with | some b => min b c.len | none => c.len
        let m' := (got.1.toHost c.addr (got.2.1.take good)).dadd 0x9101 0x14 good
        if got.2.2.isSome then m'.finishHost c stPoison 0 else m'.finishHost c stOk c.len := by
  unfold Mach.dmaEnd
  rw [hr] <;> rfl

/-- A program that passes its checks is loaded when its place serves. -/
theorem loadEnd_of_ok {m : Mach} {c : HostCmd} {k : ProgKind} {lvl : Nat} {ops : List Op}
    (hl : m.loadCheck c.part c.len c.data = .ok k lvl ops) :
    m.loadEnd c false =
      if !m.hostServed c.part ((m.programRoom c.part c.len).getD 0) c.len then m
      else (({ m.farCount 0 ((m.programRoom c.part c.len).getD 0) c.len with
        progs := m.progs ++ [{ part := c.part, num := m.nextProg, kind := k, level := lvl, bytes := c.len, ops := ops
                               addr := (m.programRoom c.part c.len).getD 0 }]
        nextProg := (m.nextProg + 1) % 2 ^ 32
        tensors := m.tensors.map fun t =>
          if t.part == c.part && ((ops.filter fun o => o.kind == .update).map fun o => (o.ref 2).handle).contains t.handle
          then { t with copy := true } else t } : Mach).putIn c.part 2 ((m.programRoom c.part c.len).getD 0)
            (c.data.take c.len)).finishHost c stOk m.nextProg := by
  unfold Mach.loadEnd
  obtain ⟨d, hd⟩ := m.farCount_frame 0 ((m.programRoom c.part c.len).getD 0) c.len
  simp only [Bool.false_eq_true, if_false, hl, hd]

/-- A checkpoint read ends when the slot is whole and its places serve. -/
theorem ckptReadEnd_of_slot {m : Mach} {c : HostCmd} {x : HostedSlot} (done : Nat)
    (hx : m.hostedSlot (c.extra.getD 0 0) (c.extra.getD 1 0) (c.extra.getD 2 0) (some c.part) = some x) :
    m.ckptReadEnd c false done =
      if m.slotWriting x then m.finishHost c stBadState 0
      else if !m.areaServed c.part (areaPart x.places 0 (min c.len x.size)) then m
      else
        let got := (m.farArea 0 (areaPart x.places 0 (min c.len x.size))).collect 2 (areaPart x.places 0 (min c.len x.size))
        match got.2.2 with
        | some o => (got.1.toHost c.addr (got.2.1.take (min (min c.len x.size) o))).finishHost c stPoison 0
        | none => (got.1.toHost c.addr got.2.1).finishHost c stOk (min c.len x.size) := by
  unfold Mach.ckptReadEnd
  simp only [hx, Bool.false_eq_true, if_false]
  cases h : ((m.farArea 0 (areaPart x.places 0 (min c.len x.size))).collect 2 (areaPart x.places 0 (min c.len x.size))).2.2 <;> rfl

/-- An image from host memory is restored into a group that is ready. -/
theorem restoreEnd_of_image {m : Mach} {c : HostCmd} (hr : m.restoreReady c.part (c.extra.getD 0 0) = true)
    (h0 : c.extra.getD 1 0 = 0) :
    m.restoreEnd c false =
      if !m.restoreServed c.part (c.extra.getD 0 0) then m
      else if !m.slotOk c.part c.data then m.finishHost c stBadCheckpoint 0
      else if leAt c.data 24 4 ≠ m.level then m.finishHost c stNumerics 0
      else (((m.applySlot c.part (c.extra.getD 0 0) c.data).farArea 0
          ((m.applySlot c.part (c.extra.getD 0 0) c.data).restoredTiles c.part (c.extra.getD 0 0))).updGroup c.part
        (c.extra.getD 0 0) fun y => { y with first := min y.first y.step }).finishHost c stOk 0 := by
  unfold Mach.restoreEnd
  simp only [Bool.false_and, Bool.false_eq_true, if_false, hr, Bool.not_true, h0, if_true, decide_true, Bool.true_or]
  cases m.hostedSlot (c.extra.getD 3 0) (c.extra.getD 4 0) (c.extra.getD 2 0) none <;>
    simp only [Bool.not_true, Bool.or_false] <;> rfl

end Sys2Proof.Machine

namespace Sys2Proof
open Machine

/-- Settles O8: by the kind of the work, its waits and its checks in their order, then its end. -/
theorem commandCompleteEndsWork : Obligations.CommandCompleteEndsWork := by
  unfold Obligations.CommandCompleteEndsWork
  intro s ring tag c done r x hc m
  have run {m'} (hf : m.commandDone ring tag false done = m') :
      exec (.commandComplete ring tag .none done) s = .next (s.settled m') :=
    ran_of (f := fun m => m.commandDone ring tag (HostFault.none != .none) done) rfl hf
  refine ⟨fun hk hr => ?_, fun hk => ?_, fun hk hx => ?_, fun hk hr h0 => ?_⟩
  · intro m1
    have run {m'} (hf : m.dmaEnd c false done = m') :
        exec (.commandComplete ring tag .none done) s = .next (s.settled m') :=
      run (((commandDone_of hc false done).trans (if_pos hk)).trans hf)
    refine ⟨fun ht => run ?_, fun ht hl => run ?_, fun ht hl hs => run ?_, fun ht hl hs hw => run ?_, fun ht hl hs hw hg => run ?_⟩
    · simp only [dmaEnd_of_range done hr, ht, if_true]
    · simp only [dmaEnd_of_range done hr, ht, hl, Bool.false_eq_true, if_false, if_true]
    · simp only [dmaEnd_of_range done hr, ht, hl, hs, Bool.not_false, Bool.false_eq_true, if_false, if_true]
    · simp only [dmaEnd_of_range done hr, ht, hl, hs, hw, Bool.not_true, Bool.false_eq_true, if_false, if_true, m1]
    · have hw : c.kind ≠ 0x30 := by omega
      simp only [m1] at hg
      simp only [dmaEnd_of_range done hr, ht, hl, hs, hw, hg, Bool.not_true, Bool.false_eq_true, if_false, Option.isSome_none, m1]
  · have run {m'} (hf : m.loadEnd c false = m') : exec (.commandComplete ring tag .none done) s = .next (s.settled m') :=
      run ((commandDone_of hc false done).trans (by rw [if_neg (by omega), if_pos hk, hf]))
    refine ⟨fun st res hl => run ?_, fun k lvl ops hl => ?_⟩
    · simp only [Mach.loadEnd, Bool.false_eq_true, if_false, hl]
    · intro a copies m1
      refine ⟨fun hs => run ?_, fun hs => run ?_⟩
      · rw [loadEnd_of_ok hl, hs] <;> rfl
      · rw [loadEnd_of_ok hl, hs] <;> rfl
  · intro n at' got
    have run {m'} (hf : m.ckptReadEnd c false done = m') : exec (.commandComplete ring tag .none done) s = .next (s.settled m') :=
      run ((commandDone_of hc false done).trans (by rw [if_neg (by omega), if_neg (by omega), if_pos hk, hf]))
    refine ⟨fun hw => run ?_, fun hw hs => run ?_, fun hw hs hg => run ?_, fun b hw hs hg => run ?_⟩
    · rw [ckptReadEnd_of_slot done hx, if_pos hw]
    · rw [ckptReadEnd_of_slot done hx, hw, hs] <;> rfl
    · simp only [got, at', n] at hs hg
      simp only [ckptReadEnd_of_slot done hx, hw, hs, hg, Bool.not_true, Bool.false_eq_true, if_false, got, at', n]
    · simp only [got, at', n] at hs hg
      simp only [ckptReadEnd_of_slot done hx, hw, hs, hg, Bool.not_true, Bool.false_eq_true, if_false, got, at', n]
  · have run {m'} (hf : m.restoreEnd c false = m') : exec (.commandComplete ring tag .none done) s = .next (s.settled m') :=
      run ((commandDone_of hc false done).trans (by
        rw [if_neg (by omega), if_neg (by omega), if_neg (by omega), if_pos hk, hf]))
    refine ⟨fun hs => run ?_, fun hs ho => run ?_, fun hs ho hl => run ?_, fun hs ho hl => run ?_⟩
    · rw [restoreEnd_of_image hr h0, hs] <;> rfl
    · rw [restoreEnd_of_image hr h0, hs, ho] <;> rfl
    · rw [restoreEnd_of_image hr h0, hs, ho]
      exact if_pos hl
    · rw [restoreEnd_of_image hr h0, hs, ho]
      exact if_neg (not_not.2 hl)

/-- Settles O9: DETACH by its ring; OAP by the length of its buffer, then as the request answers. -/
theorem detachAndOapComplete : Obligations.DetachAndOapComplete := by
  unfold Obligations.DetachAndOapComplete
  intro s h respAddr bufLen frame hf
  refine ⟨fun ht => ?_, fun ht hg => ?_⟩
  · intro m
    have hdetach : s.m.detach h = if h.ring ≠ 0 then m.finishHost (cmdOf h 0x3F) stBadCommand 0 else
        (m.link.cmds.filter fun k => k.kind == 0x33).foldl (fun m k => (m.dropWaits (.host k.ring k.tag)).finishHost k stAborted 0)
          { m with link := { m.link with detaching := some h.tag } } := by
      unfold Mach.detach
      rw [hostRun_takes ht]
    have run {m'} (hf : s.m.detach h = m') : exec (.detach h) s = .next (s.settled m') :=
      ran_of (f := fun m => m.detach h) rfl hf
    exact ⟨fun hr => run (hdetach.trans (if_pos hr)), fun hr => run (hdetach.trans (if_neg (not_not.2 hr)))⟩
  · intro m
    have run : exec (.oap h respAddr bufLen frame) s = .next (s.oapCommand h respAddr.toNat bufLen frame).atRest :=
      (State.finish_eq _)
    have hcmd : s.oapCommand h respAddr.toNat bufLen frame =
        if bufLen < 4112 then { s with m := m.finishHost (cmdOf h 0x01) stBadCommand 0 }
        else if m.mgmt.restarting then { s with m := m.finishHost (cmdOf h 0x01) stBusy 0 }
        else
          let r := { s with m := m }.oapServe .host (OapReq.ofBytes .host frame)
          State.after { r.1 with m := (r.1.m.toHost respAddr.toNat r.2.1).finishHost (cmdOf h 0x01) stOk r.2.1.length } r.2.2 := by
      have hfetch : s.m.fetch h 0x01 = (m, cmdOf h 0x01) := rfl
      unfold State.oapCommand
      have hgate : m.hostGate h true = none := hg
      simp only [ht, hfetch, hgate, hf, Bool.not_true, Bool.false_eq_true, if_false, reduceCtorEq] <;> rfl
    rw [run, hcmd]
    refine ⟨fun hb => ?_, fun hb hr => ?_, fun hb hr => ?_⟩
    · rw [if_pos hb] <;> rfl
    · rw [if_neg (by omega), hr] <;> rfl
    · rw [if_neg (by omega), hr] <;> rfl

end Sys2Proof
end

section
/-! The operations of Gather, Marver, the bench and the Jacks engines as they issue: each reads its inputs or faults, and goes on by the
branches of its run. -/

namespace Sys2Proof.Machine

/-- The form that a copied tile takes: that of the source where the destination is of blocks, else the destination's own. -/
def Mach.copyForm (m : Mach) (p : Nat) (a w : Nat × Nat) : Fmt :=
  let form := match m.tensor? p a.1 with | some t => t.form a.2 | none => .q4
  match m.tensor? p w.1 with
  | some t => if t.desc.fmt.isBlock then form else t.desc.fmt
  | none => form

/-- COPY by what its reading gives and by the room of its destination. -/
theorem copyRun_eq {c p : Nat} {m : Mach} {o : Op} {i : Inst} {a w : Nat × Nat} {x : Mach × List Bytes × Option FaultInfo}
    (ha : m.refAt p (o.ref 0) = a) (hw : m.refAt p (o.ref 1) = w) (hx : (m.gatherReads i p [a]).fetchTiles p [a] = x) :
    Mach.copyRun c m o p i = match x.1.shapeTile p (x.1.ctx c).group w.1 w.2 (x.1.copyForm p a w) with
      | none => x.1.abortStep p (x.1.ctx c).group 3 (x.2.1.headD []).length true
      | some m' => match x.2.2 with
        | some e => (if e.code = fcPoison then m'.copyBad p a w else m').stationFault c (if e.code = fcPoison then [] else [w]) e
        | none => m'.takeOff c (some i) [w] [⟨w.1, w.2, x.2.1.headD [], false⟩] true := by
  subst ha hw hx
  rfl

/-- A bagged lookup in a local table, by its readings. -/
theorem bagLocal_eq {c p : Nat} {k : Pool} {m : Mach} {o : Op} {i : Inst} {ins outs : List (Nat × Nat)}
    {x : Mach × List Bytes × Option FaultInfo} {y : Mach × Bags} {z : Mach × List (Nat × List Word) × Option FaultInfo}
    (hi : [m.refAt p (o.ref 1), m.refAt p (o.ref 2)] = ins) (ho : m.bagOuts o p k = outs)
    (hx : (m.gatherReads i p ins).fetchTiles p ins = x) (hy : x.1.readBags c o p i (x.2.1.getD 0 []) (x.2.1.getD 1 []) = y)
    (hz : (y.1.checkRows i p (o.ref 0).handle (y.2.positions.map fun q => y.2.idx.getD q 0)).readRows i p (o.ref 0).handle
      (y.2.positions.map fun q => (q, y.2.idx.getD q 0)) = z) :
    Mach.bagLocal c k m o p i = match x.2.2 with
      | some e => x.1.stationFault c outs e
      | none =>
        if (y.2.idx.any fun v => !padIndex y.2.fmt v
            && (match y.1.tensor? p (o.ref 0).handle with | some t => t.desc.ext.d1 | none => 0) ≤ v) then
          y.1.stationFault c outs { code := fcIndex, handle := (o.ref 1).handle, coord := refCoord (o.ref 1) }
        else match z.2.2 with
          | some e => z.1.stationFault c outs e
          | none => (z.1.finishBags o p i k y.2 (z.2.1.foldl (fun a r => mapSet a r.1 r.2) [])).1.takeOff c (some i) outs
              (z.1.finishBags o p i k y.2 (z.2.1.foldl (fun a r => mapSet a r.1 r.2) [])).2 true := by
  subst hi ho
  obtain ⟨m1, bs, f⟩ := x
  obtain ⟨m2, b⟩ := y
  obtain ⟨m3, rows, g⟩ := z
  unfold Mach.bagLocal Mach.gatherInputs Mach.withInputs
  dsimp only at hy hz ⊢
  rw [hx]
  dsimp only
  rw [hy]
  dsimp only
  rw [hz] <;> rfl

/-- A GRAD_MERGE on one module, by its reading. -/
theorem mergeLocal_eq {c p : Nat} {m : Mach} {o : Op} {i : Inst} {wr wi : Nat × Nat} {x : Mach × List Bytes × Option FaultInfo}
    {m1 : Mach} {b : Mach × List TileWrite} (hr : m.refAt p (o.ref 2) = wr) (hi : m.refAt p (o.ref 3) = wi)
    (hx : (m.gatherReads i p ([m.refAt p (o.ref 0), m.refAt p (o.ref 1)] ++ accIns o.acc wr ++ accIns o.acc wi)).fetchTiles p
      ([m.refAt p (o.ref 0), m.refAt p (o.ref 1)] ++ accIns o.acc wr ++ accIns o.acc wi) = x)
    (hm : x.1.count .gather i.die i.idx 0x30 (x.1.mergePads o p (x.2.1.getD 1 [])) = m1)
    (hb : m1.writeMerged c o p i (if o.acc then mergeUnion (m1.priorMerged o p (x.2.1.getD 2 []) (x.2.1.getD 3 []))
      (mergeRows (x.1.mergeIns o p (x.2.1.getD 0 []) (x.2.1.getD 1 []))) else
      mergeRows (x.1.mergeIns o p (x.2.1.getD 0 []) (x.2.1.getD 1 []))) = b) :
    Mach.mergeLocal c m o p i = match x.2.2 with
      | some e => x.1.stationFault c [wr, wi] e
      | none => b.1.takeOff c (some i) [wr, wi] b.2 true := by
  subst hr hi hx hm hb
  unfold Mach.mergeLocal Mach.gatherInputs Mach.withInputs
  rfl

end Sys2Proof.Machine

namespace Sys2Proof
open Machine

/-- Settles O10: the branches of each Gather operation's run. -/
theorem gatherOperationsIssue : Obligations.GatherOperationsIssue := by
  unfold Obligations.GatherOperationsIssue
  intro s c n o p i m0
  refine ⟨fun h => ?_, fun k hk h => ?_, fun h => ?_⟩
  · intro a w x f0 f
    have run {m'} (hf : Mach.copyRun c m0 o p i = m') : exec (.copy c n) s = .next (s.settled m') := issue_of h rfl hf
    have hrun := copyRun_eq (c := c) (m := m0) (o := o) (p := p) (i := i) (a := a) (w := w) (x := x) rfl rfl rfl
    refine ⟨fun hs => run ?_, fun m' e he hs => ⟨fun hc => run ?_, fun hc => run ?_⟩, fun m' he hs => run ?_⟩
    · rw [hrun, show x.1.shapeTile p (x.1.ctx c).group w.1 w.2 (x.1.copyForm p a w) = none from hs]
    · rw [hrun, show x.1.shapeTile p (x.1.ctx c).group w.1 w.2 (x.1.copyForm p a w) = some m' from hs, he]
      dsimp only
      rw [if_pos hc, if_pos hc]
    · rw [hrun, show x.1.shapeTile p (x.1.ctx c).group w.1 w.2 (x.1.copyForm p a w) = some m' from hs, he]
      dsimp only
      rw [if_neg hc, if_neg hc]
    · rw [hrun, show x.1.shapeTile p (x.1.ctx c).group w.1 w.2 (x.1.copyForm p a w) = some m' from hs, he]
  · have run {m'} (hf : Mach.bagRun c k.2.1 m0 o p i = m') : exec k.2.2 s = .next (s.settled m') := by
      simp only [List.mem_cons, List.not_mem_nil, or_false] at hk
      obtain rfl | rfl | rfl := hk
      · exact issue_of h rfl hf
      · exact issue_of h rfl hf
      · exact issue_of h rfl hf
    intro outs ins x y hh ext ps out z b
    refine ⟨fun r tm hr => run ?_, fun hr => ?_⟩
    · simp only [Mach.bagRun, hr]
    · have hlocal : Mach.bagRun c k.2.1 m0 o p i = Mach.bagLocal c k.2.1 m0 o p i := by simp only [Mach.bagRun, hr]
      have hrun := hlocal.trans (bagLocal_eq (ins := ins) (outs := outs) (x := x) (y := y) (z := z) rfl rfl rfl rfl rfl)
      refine ⟨fun e he => run ?_, fun he ho => run ?_, fun e he ho hz => run ?_, fun he ho hz => run ?_⟩
      · rw [hrun, he]
      · rw [hrun, he]
        exact if_pos ho
      · rw [hrun, he]
        refine (if_neg (ne_true_of_eq_false ho)).trans ?_
        rw [hz]
      · rw [hrun, he]
        refine (if_neg (ne_true_of_eq_false ho)).trans ?_
        rw [hz]
  · intro wr wi ins x new m1 all b
    have run {m'} (hf : Mach.mergeRun c m0 o p i = m') : exec (.gradMerge c n) s = .next (s.settled m') := issue_of h rfl hf
    refine ⟨fun r tm hr => run ?_, fun hr => ?_⟩
    · simp only [Mach.mergeRun, hr]
    · have hlocal : Mach.mergeRun c m0 o p i = Mach.mergeLocal c m0 o p i := by simp only [Mach.mergeRun, hr]
      have hrun := hlocal.trans (mergeLocal_eq (x := x) (m1 := m1) (b := b) rfl rfl rfl rfl rfl)
      refine ⟨fun e he => run ?_, fun he => run ?_⟩
      · rw [hrun, he]
      · rw [hrun, he]

/-- Settles O11: a Marver operation faults where its input can not be read, else it goes on with the tensors that it names. -/
theorem marverOperationsIssue : Obligations.MarverOperationsIssue := by
  unfold Obligations.MarverOperationsIssue
  intro s c n o t u p i m0 a w x
  refine ⟨fun h => ?_, fun h => ?_, fun h => ?_⟩
  · have run {m'} (hf : Mach.quantRun c m0 o p i = m') : exec (.quant c n) s = .next (s.settled m') := issue_of h rfl hf
    refine ⟨fun e he => run (by unfold Mach.quantRun; rw [withInputs_bad he]), fun he ht => ?_⟩
    intro use y
    have hrun : Mach.quantRun c m0 o p i = match y.2 with
        | none => y.1
        | some r => (y.1.noteRep c w.1).takeOff c (some i) [w] [r] true := by
      unfold Mach.quantRun
      rw [withInputs_ok he, ht] <;> rfl
    refine ⟨fun hy => run ?_, fun r hy => run ?_⟩
    · rw [hrun, hy]
    · rw [hrun, hy]
  · have run {m'} (hf : Mach.measureRun c m0 o p i = m') : exec (.measure c n) s = .next (s.settled m') := issue_of h rfl hf
    refine ⟨fun e he => run (by unfold Mach.measureRun; rw [withInputs_bad he]), fun he ht => run ?_⟩
    unfold Mach.measureRun
    rw [withInputs_ok he, ht]
  · have run {m'} (hf : Mach.dequantRun c m0 o p i = m') : exec (.dequant c n) s = .next (s.settled m') := issue_of h rfl hf
    refine ⟨fun e he => run (by unfold Mach.dequantRun; rw [withInputs_bad he]), fun he ht hu => run ?_⟩
    unfold Mach.dequantRun
    rw [withInputs_ok he, ht, hu]

/-- Settles O12: the reading, the bench's cap, the fault. -/
theorem gemmIssues : Obligations.GemmIssues := by
  unfold Obligations.GemmIssues
  intro s c n cuts fault o r t p i m0 w x h
  have run {f m'} (hf : Mach.gemmStart c cuts f m0 o p i = m') : exec (.gemm c n cuts f) s = .next (s.settled m') :=
    issue_of h rfl hf
  refine ⟨fun e he => run (by unfold Mach.gemmStart; rw [withInputs_bad he]), fun he hr ht hb => run ?_, fun he hr ht hb => ?_⟩
  · unfold Mach.gemmStart
    rw [withInputs_ok he, hr, ht]
    exact if_pos (by rw [hb]; rfl)
  · intro m1 op g m2
    have hrun : Mach.gemmStart c cuts fault m0 o p i = match fault with
        | some f => if f.red < r.k ∧ f.row < r.rows then m2.meetFault c op r t w.2 (m2.prior p w x.2.1 o.acc (2 * r.k)) f
                    else Mach.runPlan c op r.k r (r.k + 1) m2
        | none => Mach.runPlan c op r.k r (r.k + 1) m2 := by
      unfold Mach.gemmStart
      rw [withInputs_ok he, hr, ht]
      dsimp only
      rw [if_neg (by rw [hb]; exact Bool.false_ne_true)] <;> rfl
    refine ⟨fun hf => run ?_, fun f hf hd hw => run ?_⟩
    · rw [hrun]
      cases fault with
      | none => rfl
      | some f => exact if_neg (hf f rfl)
    · subst hf
      exact hrun.trans (if_pos ⟨hd, hw⟩)

/-- Settles O13: the Jacks operations of one output by their common run, the two of a winner by theirs. -/
theorem jacksOperationsIssue : Obligations.JacksOperationsIssue := by
  unfold Obligations.JacksOperationsIssue
  intro s c n o t u v p i m0
  refine ⟨fun k hk h => ?_, fun k hk h => ?_⟩
  · have run {m'} (hf : Mach.jacksRun c k.2.1 k.2.2.1 m0 o p i = m') : exec k.2.2.2 s = .next (s.settled m') := by
      simp only [List.mem_cons, List.not_mem_nil, or_false] at hk
      obtain rfl | rfl | rfl | rfl := hk
      · exact issue_of (run := fun m o p i => Mach.jacksRun c (o.refs.length - 1) ewRun m o p i) h rfl hf
      · exact issue_of h rfl hf
      · exact issue_of h rfl hf
      · exact issue_of h rfl hf
    intro ins w x
    refine ⟨fun e he => run (by unfold Mach.jacksRun; rw [withInputs_bad he]), fun he ht => ?_⟩
    intro srcs r g val old accN
    apply run
    unfold Mach.jacksRun
    rw [withInputs_ok he, ht]
  · have run {m'} (hf : Mach.winnerRun c k.2.1 m0 o p i = m') : exec k.2.2 s = .next (s.settled m') := by
      simp only [List.mem_cons, List.not_mem_nil, or_false] at hk
      obtain rfl | rfl := hk
      · exact issue_of h rfl hf
      · exact issue_of h rfl hf
    intro a w l x
    refine ⟨fun e he => run (by unfold Mach.winnerRun; rw [withInputs_bad he]), fun he ht hu hv => ?_⟩
    intro src
    apply run
    unfold Mach.winnerRun
    rw [withInputs_ok he, ht, hu, hv]

end Sys2Proof
end

section
/-! The operations of Lehr and of the fabric as they issue. -/

namespace Sys2Proof.Machine

/-- UPDATE by its reading and by what it comes to. -/
theorem updateRun_eq {c p : Nat} {m : Mach} {o : Op} {i : Inst} {x : Mach × List Bytes × Option FaultInfo} {r : Mach × LehrOut}
    (hx : m.updateFetch o p = x) (hr : x.1.updateWith c o p i x.2.1 = r) :
    Mach.updateRun c m o p i = match x.2.2 with
      | some e => x.1.lehrFault c p i (m.updateKinds o p) e
      | none => r.1.lehrOff c i (m.updateOuts o p) r.2 := by
  obtain ⟨m1, bs, f⟩ := x
  obtain ⟨m2, q⟩ := r
  unfold Mach.updateRun
  dsimp only at hr ⊢
  rw [hx]
  dsimp only
  rw [hr] <;> cases f <;> rfl

end Sys2Proof.Machine

namespace Sys2Proof
open Machine

/-- Settles O14: the reading of each Lehr operation, then what it comes to. -/
theorem lehrOperationsIssue : Obligations.LehrOperationsIssue := by
  unfold Obligations.LehrOperationsIssue
  intro s c n o t g p i m0
  refine ⟨fun h => ?_, fun h => ?_, fun h hg => ?_⟩
  · intro x r
    have run {m'} (hf : Mach.updateRun c m0 o p i = m') : exec (.update c n) s = .next (s.settled m') := issue_of h rfl hf
    have hrun := updateRun_eq (c := c) (i := i) (x := x) (r := r) rfl rfl
    refine ⟨fun e he => run ?_, fun ws he hr => run ?_, fun he hr => run ?_, fun he hr => run ?_⟩
    · rw [hrun, he]
    · rw [hrun, he]
      dsimp only
      rw [hr] <;> rfl
    · rw [hrun, he]
      dsimp only
      rw [hr] <;> rfl
    · rw [hrun, he]
      dsimp only
      rw [hr]
  · intro th x list fine tiles outs kinds y r
    have run {m'} (hf : Mach.rowUpdateRun c m0 o p i = m') : exec (.rowUpdate c n) s = .next (s.settled m') := issue_of h rfl hf
    refine ⟨fun e he => run (by unfold Mach.rowUpdateRun; rw [withInputs_bad he]), fun he ht => ?_⟩
    have hrun : Mach.rowUpdateRun c m0 o p i =
        if fine.length < list.length then
          x.1.lehrFault c p i kinds { code := fcIndex, handle := (o.ref 1).handle, coord := refCoord (o.ref 1) }
        else match y.2.2 with
          | some e => y.1.lehrFault c p i kinds e
          | none => r.1.lehrOff c i outs r.2 := by
      unfold Mach.rowUpdateRun
      rw [withInputs_ok he]
      dsimp only
      rw [ht] <;> rfl
    refine ⟨fun hl => run ?_, fun hl => ⟨fun e he => run ?_, fun he => run ?_⟩⟩
    · rw [hrun, if_pos hl]
    · rw [hrun, if_neg (by omega), he]
    · rw [hrun, if_neg (by omega), he]
  · intro a w old bad
    have run {m'} (hf : Mach.snapshotRun c m0 o p i = m') : exec (.snapshot c n) s = .next (s.settled m') := issue_of h rfl hf
    refine ⟨fun hk hi => run ?_, fun hn ht => ⟨fun hs => run ?_, fun m1 hs => run ?_⟩⟩
    · unfold Mach.snapshotRun
      dsimp only
      rw [hg]
      exact if_pos ⟨hk, hi⟩
    · unfold Mach.snapshotRun
      dsimp only
      rw [hg]
      dsimp only
      rw [if_neg hn, ht]
      dsimp only [Option.bind_some]
      rw [hs]
    · unfold Mach.snapshotRun
      dsimp only
      rw [hg]
      dsimp only
      rw [if_neg hn, ht]
      dsimp only [Option.bind_some]
      rw [hs] <;> rfl

/-- Settles O15: a PUT and a GET read their tiles and their descriptor, then send. -/
theorem fabricTransfersIssue : Obligations.FabricTransfersIssue := by
  unfold Obligations.FabricTransfersIssue
  intro s c n o d p i m0
  refine ⟨fun k hk h => ?_, fun h => ?_⟩
  · have run {m'} (hf : Mach.putRun c k.2.1 m0 o p i = m') : exec k.2.2 s = .next (s.settled m') := by
      simp only [List.mem_cons, List.not_mem_nil, or_false] at hk
      obtain rfl | rfl := hk
      · exact issue_of h rfl hf
      · exact issue_of h rfl hf
    intro x
    refine ⟨fun e he => run (by unfold Mach.putRun; rw [withInputs_bad he]), fun he hb hd => ?_⟩
    intro data ps
    apply run
    unfold Mach.putRun Mach.withFabDesc
    rw [withInputs_ok he]
    dsimp only
    rw [hb, hd] <;> rfl
  · have run {m'} (hf : Mach.getRun c m0 o p i = m') : exec (.get c n) s = .next (s.settled m') := issue_of h rfl hf
    intro w x
    refine ⟨fun e he => run (by unfold Mach.getRun; rw [withInputs_bad he]), fun he hb hd => ?_⟩
    intro len
    apply run
    unfold Mach.getRun Mach.withFabDesc
    rw [withInputs_ok he]
    dsimp only
    rw [hb, hd] <;> rfl

/-- Settles O16: the reading of a COLLECTIVE, then its place among the group's; the oldest exchange that waits for engines. -/
theorem collectivesIssue : Obligations.CollectivesIssue := by
  unfold Obligations.CollectivesIssue
  intro s c n faults o g cg0 k0 ks p i m0
  refine ⟨fun h => ?_, fun hk => ?_⟩
  · intro cg kind root r hs pairs all ins outs x
    have run {m'} (hf : Mach.collRun c faults m0 o p i = m') : exec (.collective c ⟨n, faults⟩) s = .next (s.settled m') :=
      issue_of h rfl hf
    refine ⟨fun e he => run (by unfold Mach.collRun; exact withInputs_bad he), fun he hg => ?_⟩
    intro bucket k m1 m2 m3
    apply run
    unfold Mach.collRun
    dsimp only
    erw [withInputs_ok he]
    rw [hg] <;> rfl
  · refine ran_of (f := fun m => m.jacksGrant cg0) rfl ?_
    unfold Mach.jacksGrant
    rw [hk]

end Sys2Proof
end

section
/-! Control operations, completions, watchdogs, and the events of training steps. -/

namespace Sys2Proof.Machine

/-- The issue of an operation of a station kind: elided, turned away by a damaged record, or run. -/
theorem issue_outcomes {s : State} {c n q bad : Nat} {k : OpKind} {st : StKind} {o : Op} {i : Instr}
    (he : ∃ run, exec i s = s.onMach fun m => m.issueOp c n k st run) (h : s.m.issuable c k = some o) :
    (s.m.elidable c o = true →
      exec i s = .next (s.settled ((s.m.dadd (0x2030 + (s.m.ctx c).part) 0x15 1).takeOff c none [] [] true)))
    ∧ (s.m.elidable c o = false → s.m.instReady (s.m.ctx c).part (instOf st n) = true →
      s.m.instPart (instOf st n) = (s.m.ctx c).part → s.m.usesBad (s.m.ctx c).part o = some (q, bad) →
      exec i s = .next (s.settled ((s.m.metaFault (s.m.ctx c).part q 0 bad).1.opFault c []
        (s.m.metaFault (s.m.ctx c).part q 0 bad).2))) := by
  obtain ⟨run, hrun⟩ := he
  exact ⟨fun hl => elided_of h hl hrun, fun hl hr hp hb => damaged_of h hl hr hp hb hrun⟩

/-- A context with nothing in flight. -/
theorem flights_isEmpty {m : Mach} {c : Nat} (h : (m.ctx c).flights = []) : (!(m.ctx c).flights.isEmpty) = false := by
  rw [h] <;> rfl

/-- The completion of an operation in flight that needs nothing more from outside. -/
theorem opComplete_of {m : Mach} {c op : Nat} {f : Flight} (hf : ((m.ctx c).flights.find? fun f => f.op == op) = some f)
    (hr : f.ready = true) (hg : m.gemmEnds c op = true)
    (hs : (f.outs.all fun w => m.tileServed (m.ctx c).part w.1 w.2) = true) :
    m.opComplete c op = match m.endsOn c f with
      | none => m
      | some e => match e.filter m.withholds with
        | some i => (m.parityFound i.die (slotOf i.kind.blk i.idx)).reissue c op f
        | none => match (m.opsOf c)[op]? with
          | some q => ((((m.tookTime e).opDone e).gemmLand c op).landFlight c op).releaseRead c q f.outs
          | none => (((m.tookTime e).opDone e).gemmLand c op).landFlight c op := by
  unfold Mach.opComplete
  rw [hf]
  dsimp only
  rw [if_neg (by simp [hr, hg, hs])] <;> rfl

/-- A STEP_BOUNDARY that is ready issues; in a step that is aborted its group gives up its exchanges and places first (R290). -/
theorem stepBoundary_of {m : Mach} {c pc : Nat} {o : Op} {g : Group} (hb : m.boundaryReady c = some (pc, o))
    (hg : m.group? (m.ctx c).part (m.ctx c).group = some g) :
    m.stepBoundary c = if g.abortCode ≠ 0 then
        ((((((m.abandonColls (m.ctx c).part (m.ctx c).group).abandonBars (m.ctx c).part (m.ctx c).group).dropWaits
          (.ctx c)).barStop c).updCtx c fun y =>
            { y with st := .running, waitFor := none, waitOk := false, passed := false, pc := pc, want := .nothing }).issueBoundary
              c pc o)
      else m.issueBoundary c pc o := by
  unfold Mach.stepBoundary
  rw [hb]
  dsimp only
  rw [hg]
  dsimp only
  by_cases h0 : g.abortCode = 0
  · simp [h0]
  · simp [h0]

end Sys2Proof.Machine

namespace Sys2Proof
open Machine

/-- Settles O17: elision and damage as for every operation of a station; the control operations and the completion by their checks. -/
theorem streamControlCompletes : Obligations.StreamControlCompletes := by
  unfold Obligations.StreamControlCompletes
  intro s c n op q bad cuts fault faults o g f x
  refine ⟨fun k hk hi => issue_outcomes ?_ hi, ?_⟩
  · simp only [List.mem_cons, List.not_mem_nil, or_false] at hk
    obtain rfl | rfl | rfl | rfl | rfl | rfl | rfl | rfl | rfl | rfl | rfl | rfl | rfl | rfl | rfl | rfl | rfl | rfl | rfl | rfl |
      rfl | rfl := hk
    · exact ⟨Mach.gemmStart c cuts fault, rfl⟩
    · exact ⟨fun m o p i => Mach.jacksRun c (o.refs.length - 1) ewRun m o p i, rfl⟩
    · exact ⟨Mach.jacksRun c 2 normRun, rfl⟩
    · exact ⟨Mach.jacksRun c 1 softmaxRun, rfl⟩
    · exact ⟨Mach.jacksRun c 1 reduceSumRun, rfl⟩
    · exact ⟨Mach.winnerRun c true, rfl⟩
    · exact ⟨Mach.winnerRun c false, rfl⟩
    · exact ⟨Mach.quantRun c, rfl⟩
    · exact ⟨Mach.dequantRun c, rfl⟩
    · exact ⟨Mach.measureRun c, rfl⟩
    · exact ⟨Mach.copyRun c, rfl⟩
    · exact ⟨Mach.bagRun c .sum, rfl⟩
    · exact ⟨Mach.bagRun c .mean, rfl⟩
    · exact ⟨Mach.bagRun c .max, rfl⟩
    · exact ⟨Mach.mergeRun c, rfl⟩
    · exact ⟨Mach.updateRun c, rfl⟩
    · exact ⟨Mach.rowUpdateRun c, rfl⟩
    · exact ⟨Mach.snapshotRun c, rfl⟩
    · exact ⟨Mach.putRun c false, rfl⟩
    · exact ⟨Mach.putRun c true, rfl⟩
    · exact ⟨Mach.getRun c, rfl⟩
    · exact ⟨Mach.collRun c faults, rfl⟩
  intro sig
  refine ⟨fun hi hf => ?_, fun hi hf hs => ?_, fun hi hg hf => ?_, fun pc hb hg => ?_, fun hf hr hg hs => ?_⟩
  · refine ran_of (f := fun m => m.syncOp c) rfl ?_
    unfold Mach.syncOp
    rw [hi]
    dsimp only
    rw [flights_isEmpty hf] <;> rfl
  · refine ran_of (f := fun m => m.barrierOp c) rfl ?_
    unfold Mach.barrierOp
    rw [hi]
    dsimp only
    rw [flights_isEmpty hf, hs] <;> rfl
  · have run {m'} (hf : s.m.endOp c = m') : exec (.opEnd c) s = .next (s.settled m') := ran_of (f := fun m => m.endOp c) rfl hf
    have hend : s.m.endOp c = (if g.rpt ≠ 0 ∧ g.rpt ≤ x.rep + 1 then
          (sig s.m).updCtx c fun y => { y with st := .done, waitOk := false, waitFor := none }
        else ((sig s.m).updCtx c fun y => { y with pc := 0, rep := y.rep + 1, waitOk := false, passed := false }).enterRep
          c).closeReps x.part x.group := by
      unfold Mach.endOp
      rw [hi]
      dsimp only
      rw [hg]
      dsimp only
      rw [flights_isEmpty hf] <;> rfl
    refine ⟨fun hl => run ?_, fun hl => run ?_⟩
    · rw [hend, if_pos hl]
    · rw [hend, if_neg hl]
  · have run {m'} (hf : s.m.stepBoundary c = m') : exec (.stepBoundary c) s = .next (s.settled m') :=
      ran_of (f := fun m => m.stepBoundary c) rfl hf
    exact ⟨fun h0 => run ((stepBoundary_of hb hg).trans (if_neg (not_not.2 h0))),
      fun h0 => run ((stepBoundary_of hb hg).trans (if_pos h0))⟩
  · have run {m'} (hf : s.m.opComplete c op = m') : exec (.opComplete c op) s = .next (s.settled m') :=
      ran_of (f := fun m => m.opComplete c op) rfl hf
    refine ⟨fun he => run ?_, fun e he => ?_⟩
    · rw [opComplete_of hf hr hg hs, he]
    · intro m1
      refine ⟨fun hw => run ?_, fun i hw => run ?_⟩
      · rw [opComplete_of hf hr hg hs, he]
        dsimp only
        rw [hw] <;> rfl
      · rw [opComplete_of hf hr hg hs, he]
        dsimp only
        rw [hw]

/-- Settles O18: what each watchdog watches. -/
theorem watchdogsFault : Obligations.WatchdogsFault := by
  unfold Obligations.WatchdogsFault
  intro s c op p g k o o' x pc m wd
  have run {w m'} (hf : m.collWatchdog w = m') : exec (.collectiveWatchdogExpire w) s = .next (s.settled m') :=
    ran_of (f := fun m => m.collWatchdog w) rfl hf
  refine ⟨fun hc hs hf hw => ?_, fun hk => run ?_, fun hk ho hm hf => run ?_, fun hx hb hg => ⟨fun ha => run ?_, fun ha hw => run ?_⟩,
    fun cg hx hb hg => ⟨fun ha => run ?_, fun ha hw => run ?_⟩⟩
  · refine ran_of (f := fun m => m.waitWatchdog c) rfl ?_
    unfold Mach.waitWatchdog
    dsimp only
    refine if_pos ?_
    obtain hw | hw | hw := hw
    · simp [hc, hs, hf, hw, m]
    · simp [hc, hs, hf, hw, m]
    · simp [hc, hs, hf, hw, m]
  · unfold Mach.collWatchdog
    dsimp only
    rw [hk]
  · unfold Mach.collWatchdog
    dsimp only
    rw [hk]
    dsimp only
    rw [ho]
    refine if_pos ?_
    rw [hf, Bool.and_true]
    simpa [or_assoc] using hm
  · unfold Mach.collWatchdog
    dsimp only
    rw [hx, hb]
    dsimp only
    rw [if_pos ha, hg]
  · unfold Mach.collWatchdog
    dsimp only
    rw [hx, hb]
    dsimp only
    rw [if_neg ha, if_pos hw, hg]
  · unfold Mach.collWatchdog
    dsimp only
    rw [hx, hb]
    dsimp only
    rw [if_pos ha, hg]
  · unfold Mach.collWatchdog
    dsimp only
    rw [hx, hb]
    dsimp only
    rw [if_neg ha, if_pos hw, hg]

end Sys2Proof
end

section
/-! The events of training steps, checkpoints and digest rounds. -/

namespace Sys2Proof.Machine

/-- Writing one entry leaves what another holds. -/
theorem Mach.dict?_dictPut_ne (m : Mach) {i sub j t : Nat} (v : Bytes) (h : dictKey i sub ≠ dictKey j t) :
    (m.dictPut j t v).dict? i sub = m.dict? i sub := by
  have hget : mapGet (m.dictPut j t v).dict (dictKey i sub) = mapGet m.dict (dictKey i sub) := by
    unfold Mach.dictPut
    dsimp only
    split
    · exact mapGet_mapDel_ne _ h
    · exact mapGet_mapSet_ne _ _ h
  unfold Mach.dict?
  rw [hget]

/-- The collective group of a partition's rounds does not change with the digest that the module itself has entered. -/
theorem Mach.digestCg_dictPut (m : Mach) (p : Nat) (v : Bytes) (l : List DigestRound) :
    (({ m with digest := l } : Mach).dictPut (0x7020 + p) 0x15 v).digestCg p = m.digestCg p := by
  have hcg : (({ m with digest := l } : Mach).dictPut (0x7020 + p) 0x15 v).dict? (0x7020 + p) 2 = m.dict? (0x7020 + p) 2 :=
    Mach.dict?_dictPut_ne _ _ (by unfold dictKey; omega)
  have hrec (c : Nat) (hc : c < 32) : (({ m with digest := l } : Mach).dictPut (0x7020 + p) 0x15 v).cgRec c = m.cgRec c :=
    Mach.dict?_dictPut_ne _ _ (by unfold dictKey; omega)
  unfold Mach.digestCg Mach.dnum
  rw [hcg]
  by_cases hc : ofLe (m.dict? (0x7020 + p) 2) < 32
  · simp only [hrec _ hc]
  · simp only [hc, false_and, if_false]

/-- AGREED_STATUS with every member's tile held. -/
theorem agreedStatus_of {m : Mach} {p g c pc : Nat} {o : Op} {x : Group} (hx : m.group? p g = some x)
    (hb : m.boundaryOp p g = some (c, pc, o)) (hp : x.phase = .agreeing)
    (ha : (List.range (m.agreeRanks p g).1).all (fun j => (mapGet x.statuses j).isSome) = true) :
    m.agreedStatus p g = m.agreeWith p g c pc o
      (foldStatus ((List.range (m.agreeRanks p g).1).map fun j => wordsOfBytes (mapGetD x.statuses j []))) := by
  unfold Mach.agreedStatus
  rw [hx, hb]
  refine if_neg ?_
  simpa [hp, Option.isSome_iff_ne_none] using ha

/-- JOURNAL_ROOM_RESUME of an UPDATE whose group goes on. -/
theorem journalResume_update {m : Mach} {c : Nat} {f : Flight} {o : Op} {i : Inst} {x : Group} {y : Mach × List Bytes × Option FaultInfo}
    {r : Mach × LehrOut} (hf : ((m.ctx c).flights.find? fun f => f.jwait) = some f) (ho : (m.opsOf c)[f.op]? = some o)
    (hi : f.inst = some i) (hk : o.kind = .update) (hx : m.group? (m.ctx c).part (m.ctx c).group = some x) (ha : x.abortCode = 0)
    (hy : m.updateFetch o (m.ctx c).part = y) (hr : y.1.updateWith c o (m.ctx c).part i y.2.1 = r) :
    m.journalResume c = match y.2.2 with
      | some e => y.1.lehrLate c f.op (m.ctx c).part i (y.1.updateKinds o (m.ctx c).part) e
      | none => r.1.lehrAgain c f.op i r.2 := by
  obtain ⟨m1, bs, e⟩ := y
  obtain ⟨m2, q⟩ := r
  unfold Mach.journalResume
  dsimp only at hr ⊢
  rw [hf]
  dsimp only
  rw [ho, hi]
  dsimp only [Option.orElse]
  rw [hx]
  dsimp only
  rw [if_neg (by simp [ha]), if_pos hk, hy]
  dsimp only
  rw [hr] <;> cases e <;> rfl

end Sys2Proof.Machine

namespace Sys2Proof
open Machine

/-- Settles O19: each event finds what it needs and does its work. -/
theorem stepEventsComplete : Obligations.StepEventsComplete := by
  unfold Obligations.StepEventsComplete
  intro s p g c pc o x k b d f i m
  refine ⟨fun hx hb hp ha => ?_, fun hk hb => ?_, fun hd => ?_, fun hd hc => ?_, fun cg hd hc => ?_,
    fun hf ho hi hk hx ha => ?_⟩
  · exact ran_of (f := fun m => m.agreedStatus p g) rfl (agreedStatus_of hx hb hp ha)
  · intro m1
    have run {m'} (hf : m.shipped p = m') : exec (.ckptShipped p) s = .next (s.settled m') := ran_of (f := fun m => m.shipped p) rfl hf
    have hrun : m.shipped p = if m1.buddyLost p b then (m1.ckptFailed p k.step 1).dropHeld p
        else (match k.clean with | some r => (m1.shipSlot p k).commitSlots p r | none => m1.shipSlot p k).dropHeld p := by
      unfold Mach.shipped
      rw [hk, hb] <;> rfl
    exact ⟨fun hl => run (hrun.trans (if_pos hl)), fun hl => run (hrun.trans (if_neg (ne_true_of_eq_false hl)))⟩
  · refine ran_of (f := fun m => m.digestExpire p) rfl ?_
    unfold Mach.digestExpire
    rw [hd] <;> rfl
  · refine ran_of (f := fun m => m.digestsDone p) rfl ?_
    unfold Mach.digestsDone
    rw [hd]
    dsimp only
    rw [m.digestCg_dictPut, hc]
  · intro m1 h1
    refine ran_of (f := fun m => m.digestsDone p) rfl ?_
    unfold Mach.digestsDone
    rw [hd]
    dsimp only
    rw [m.digestCg_dictPut, hc] <;> rfl
  · intro y r
    have hrun : m.journalResume c = _ := journalResume_update (y := y) (r := r) hf ho hi hk hx ha rfl rfl
    have run {m'} (hf : m.journalResume c = m') : exec (.journalRoomResume c) s = .next (s.settled m') :=
      ran_of (f := fun m => m.journalResume c) rfl hf
    refine ⟨fun e he => run ?_, fun he => run ?_⟩
    · rw [hrun, he]
    · rw [hrun, he]

end Sys2Proof
end

section
/-! Packets that arrive, the transport's timers, the links. -/

namespace Sys2Proof.Machine

/-- A packet of a transfer or of a group for this module, by its distance from the one expected (R311). -/
theorem rxPacket_data {m : Mach} {q : Nat} {pk : Packet} (ht : m.rxTakes pk = true) (h1 : pk.typ ≠ ptTack) (h2 : pk.typ ≠ ptRefuse) :
    m.rxPacket (some q) pk =
      if (pk.hdr.tseq + 2 ^ 24 - (m.rxFlow pk.hdr).expect) % 2 ^ 24 = 0 then m.rxExpected (some q) pk
      else if (pk.hdr.tseq + 2 ^ 24 - (m.rxFlow pk.hdr).expect) % 2 ^ 24 ≤ 256 then m.rxEarly (some q) pk
      else if 2 ^ 23 ≤ (pk.hdr.tseq + 2 ^ 24 - (m.rxFlow pk.hdr).expect) % 2 ^ 24 then m.ackRx pk.hdr (m.rxFlow pk.hdr)
      else m := by
  unfold Mach.rxPacket
  dsimp only
  rw [ht, Bool.not_true, if_neg Bool.false_ne_true, if_neg h1, if_neg h2]

/-- A packet that arrives at a port that is up is received. -/
theorem arrivePkt_up {m : Mach} {q typ : Nat} {h : PktHdr} {e : Option ExtHdr} {data : Bytes} (hq : q < m.portCount)
    (hu : (m.port q).isUp = true) : m.arrivePkt q typ h e data = m.rxPacket (some q) ⟨typ, h, e, data⟩ := by
  unfold Mach.arrivePkt
  simp [hq, hu]

/-- A TACK that is for this module: it goes to the sending flow, unless it comes by another partition's port (R300). -/
theorem rxPacket_tack {m : Mach} {q : Nat} {h : PktHdr} {data : Bytes} (ht : m.rxTakes ⟨ptTack, h, none, data⟩ = true) :
    m.rxPacket (some q) ⟨ptTack, h, none, data⟩ =
      if h.resv || m.portPart q != fld h.flags.toNat 1 0 then m else m.takeTack (fld h.flags.toNat 1 0) h := by
  unfold Mach.rxPacket
  dsimp only
  rw [ht] <;> rfl
/-- And a REFUSE. -/
theorem rxPacket_refuse {m : Mach} {q : Nat} {h : PktHdr} {data : Bytes} (ht : m.rxTakes ⟨ptRefuse, h, none, data⟩ = true) :
    m.rxPacket (some q) ⟨ptRefuse, h, none, data⟩ =
      if h.resv || m.portPart q != fld h.flags.toNat 1 0 then m
      else m.takeRefuse (fld h.flags.toNat 1 0) h (leAt data 0 1) := by
  unfold Mach.rxPacket
  dsimp only
  rw [ht] <;> rfl

/-- A port that is not up, with a die that is, comes up with the lanes that its module gives it or with half of them. -/
theorem portUp_of {m : Mach} {o : PortObs} (hq : o.port < m.portCount) (hu : (m.port o.port).isUp = false)
    (hd : (m.die (portDie m o.port)).up = true) (hl : o.lanes = m.portLanes ∨ 2 * o.lanes = m.portLanes) :
    m.portUp o =
      let q := o.port
      let full := o.lanes = m.portLanes
      let again := (m.port q).st == .retraining
      let st : PortSt := if full then .up else .degraded
      let peer : Option (Nat × Nat × Nat) := some (o.module % 4096, o.part % 4, o.peer % 16)
      let m1 := m.updPort q fun p =>
        if again then { p with st := st, lanes := o.lanes, peer := peer, replays := 0 }
        else { st := st, lanes := o.lanes, peer := peer, credits := [0, 1, 2].map fun c => o.credits.getD c 0 }
      let m2 : Mach := { m1 with peers := mapSet m1.peers (4096 * m1.portPart q + o.module % 4096) q }
      let detail := toLe 1 q ++ toLe 1 o.lanes ++ toLe 2 (o.module % 4096) ++ toLe 1 (o.part % 4) ++ toLe 1 (o.peer % 16)
      let m3 := m2.fwEvent evPortUp (portDie m2 q) 0 (some (m2.portPart q)) detail
      let m4 := if full then m3 else m3.fwEvent evPortDegraded (portDie m3 q) 0 (some (m3.portPart q)) detail
      if again then m4.replayPort q else m4 := by
  unfold Mach.portUp
  exact if_neg (by simp [hu, hd, hl, Nat.not_le.mpr hq])

/-- The machine that has counted the codewords of a flit that were corrected and those that were not. -/
def Mach.codewordsCounted (m : Mach) (cws : List Bytes) : Mach :=
  (m.dadd 0x5001 0x13 ((cws.map rsDecode).countP fun d => match d with | some x => x.2 != 0 | none => false)).dadd 0x5001 0x14
    ((cws.map rsDecode).countP Option.isNone)
/-- The data of the codewords of a flit that decode. -/
def codewordsData (cws : List Bytes) : Bytes := (cws.map rsDecode).flatMap fun d => match d with | some x => x.1 | none => []
/-- A codeword that does not decode costs the flit. -/
theorem rxCodewords_bad (m : Mach) (q : Nat) (cws : List Bytes) (h : (cws.map rsDecode).countP Option.isNone ≠ 0) :
    m.rxCodewords q cws = (m.codewordsCounted cws).nakPort q := if_pos h
/-- So does a checksum that is wrong, or a reserved bit. -/
theorem rxCodewords_nak {m : Mach} {q : Nat} {cws : List Bytes} (h : (cws.map rsDecode).countP Option.isNone = 0)
    (hg : ¬ (leAt (codewordsData cws) 508 4 = (crc32c ((codewordsData cws).take 508)).toNat ∧ fld (leAt (codewordsData cws) 0 8) 63 57 = 0)) :
    m.rxCodewords q cws = (m.codewordsCounted cws).nakPort q :=
  (if_neg (not_not_intro h)).trans (if_pos (Decidable.not_and_iff_or_not.mp hg))
/-- Else it is taken. -/
theorem rxCodewords_good {m : Mach} {q : Nat} {cws : List Bytes} (h : (cws.map rsDecode).countP Option.isNone = 0)
    (hg : leAt (codewordsData cws) 508 4 = (crc32c ((codewordsData cws).take 508)).toNat ∧ fld (leAt (codewordsData cws) 0 8) 63 57 = 0) :
    m.rxCodewords q cws = (m.codewordsCounted cws).takeFlit q (codewordsData cws) :=
  (if_neg (not_not_intro h)).trans (if_neg fun hn => hn.elim (· hg.1) (· hg.2))

end Sys2Proof.Machine

namespace Sys2Proof
open Machine

/-- Settles O20: what the transport does with a packet goes by its type and its distance from the one expected. -/
theorem packetsAreTaken : Obligations.PacketsAreTaken := by
  unfold Obligations.PacketsAreTaken
  intro s q h e data m p notice rx d hq hu hm hd hp hl
  have takes (typ : Nat) (ext : Option ExtHdr) (bs : Bytes) (h0 : typ ≠ 0) (h8 : typ ≤ 8) (hb : bs.length ≤ 2048) :
      m.rxTakes ⟨typ, h, ext, bs⟩ = true := by
    simp [Mach.rxTakes, hm, hd, h0, h8, hb, show m.partOk (fld h.flags.toNat 1 0) = true from hp]
  have tack := takes ptTack none [] (by decide) (by decide) (by simp)
  have refuse := takes ptRefuse none data (by decide) (by decide) hl
  have runTack {m'} (hf : m.rxPacket (some q) ⟨ptTack, h, none, []⟩ = m') : exec (.pktTack q h) s = .next (s.settled m') :=
    ran_of (f := fun m => m.arrivePkt q ptTack h none []) rfl ((arrivePkt_up hq hu).trans hf)
  have runRefuse {m'} (hf : m.rxPacket (some q) ⟨ptRefuse, h, none, data⟩ = m') :
      exec (.pktRefuse q h data) s = .next (s.settled m') :=
    ran_of (f := fun m => m.arrivePkt q ptRefuse h none data) rfl ((arrivePkt_up hq hu).trans hf)
  refine ⟨fun hr hpart => ⟨runTack ((rxPacket_tack tack).trans (if_neg ?_)), runRefuse ((rxPacket_refuse refuse).trans (if_neg ?_))⟩,
    fun hpart => ⟨runTack ((rxPacket_tack tack).trans (if_pos ?_)), runRefuse ((rxPacket_refuse refuse).trans (if_pos ?_))⟩,
    fun r hr => ?_⟩
  · simp [hr, hpart, p]
  · simp [hr, hpart, p]
  · simp [hpart, p]
  · simp [hpart, p]
  · have hrow : exec r.1 s = .next (s.settled (m.rxPacket (some q) r.2)) ∧ m.rxTakes r.2 = true ∧ r.2.typ ≠ ptTack
        ∧ r.2.typ ≠ ptRefuse ∧ r.2.hdr = h := by
      have row {i : Instr} {typ : Nat} {ext : Option ExtHdr} {bs : Bytes} (he : exec i s = s.onMach fun m => m.arrivePkt q typ h ext bs)
          (h0 : typ ≠ 0) (h8 : typ ≤ 8) (hb : bs.length ≤ 2048) (h1 : typ ≠ ptTack) (h2 : typ ≠ ptRefuse) :
          exec i s = .next (s.settled (m.rxPacket (some q) ⟨typ, h, ext, bs⟩)) ∧ m.rxTakes ⟨typ, h, ext, bs⟩ = true ∧ typ ≠ ptTack
            ∧ typ ≠ ptRefuse ∧ h = h :=
        ⟨ran_of he (arrivePkt_up hq hu), takes typ ext bs h0 h8 hb, h1, h2, rfl⟩
      simp only [List.mem_cons, List.not_mem_nil, or_false] at hr
      obtain rfl | rfl | rfl | rfl | rfl | rfl | rfl | rfl | rfl | rfl | rfl := hr
      · exact row rfl (by decide) (by decide) hl (by decide) (by decide)
      · exact row rfl (by decide) (by decide) hl (by decide) (by decide)
      · exact row rfl (by decide) (by decide) hl (by decide) (by decide)
      · exact row rfl (by decide) (by decide) hl (by decide) (by decide)
      · exact row rfl (by decide) (by decide) hl (by decide) (by decide)
      · exact row rfl (by decide) (by decide) hl (by decide) (by decide)
      · exact row rfl (by decide) (by decide) hl (by decide) (by decide)
      · exact row rfl (by decide) (by decide) hl (by decide) (by decide)
      · exact row rfl (by decide) (by decide) hl (by decide) (by decide)
      · exact row rfl (by decide) (by decide) hl (by decide) (by decide)
      · exact row rfl (by decide) (by decide) (by simp) (by decide) (by decide)
    obtain ⟨hexec, htakes, h1, h2, hhdr⟩ := hrow
    have hrun := rxPacket_data (q := q) htakes h1 h2
    rw [hhdr] at hrun
    have run {m'} (hf : m.rxPacket (some q) r.2 = m') : exec r.1 s = .next (s.settled m') := by rw [hexec, hf]
    refine ⟨fun h0 m' rx' ht => ?_, fun h0 ht => run (hrun.trans ((if_pos h0).trans ?_)),
      fun h0 hle => run (hrun.trans ((if_neg h0).trans ((if_pos hle).trans ?_))),
      fun hge => run (hrun.trans ((if_neg ?_).trans ((if_neg ?_).trans (if_pos hge)))),
      fun hgt hlt => run (hrun.trans ((if_neg ?_).trans ((if_neg ?_).trans (if_neg ?_))))⟩
    · intro y
      refine run (hrun.trans ((if_pos h0).trans ?_))
      unfold Mach.rxExpected
      rw [hhdr]
      dsimp only
      rw [ht]
    · unfold Mach.rxExpected
      rw [hhdr]
      dsimp only
      rw [ht]
    · unfold Mach.rxEarly
      rw [hhdr]
    · exact show ¬ d = 0 by omega
    · exact show ¬ d ≤ 256 by omega
    · exact show ¬ d = 0 by omega
    · exact show ¬ d ≤ 256 by omega
    · exact show ¬ 2 ^ 23 ≤ d by omega

/-- Settles O21: each event by its checks. -/
theorem linksAndTimersComplete : Obligations.LinksAndTimersComplete := by
  unfold Obligations.LinksAndTimersComplete
  intro s q n p module dp f symbols o m i m1
  refine ⟨fun hf hu => ?_, fun hn ha => ?_, fun hq hu hl hs => ?_, fun hq hu hr => ?_, fun hq hu => ?_, fun hq hs => ?_,
    fun hq hd hl => ?_⟩
  · have run {m'} (hf : m.retx n = m') : exec (.retxTimerExpire n) s = .next (s.settled m') := ran_of (f := fun m => m.retx n) rfl hf
    have hrun : m.retx n = if f.module = m1.modNum then { m1 with loop := m1.loop ++ f.unacked }
        else match m1.flowPort f.part f.engine f.channel f.module f.dpart f.port with
          | none => m1
          | some k => f.unacked.foldl (fun m pk => m.putPort k pk)
              { m1 with tx := m1.tx.set n { f with retries := f.retries + 1, port := some k } } := by
      unfold Mach.retx
      rw [hf]
      dsimp only
      rw [if_neg (by simpa using hu)] <;> rfl
    refine ⟨fun hm => run (hrun.trans (if_pos hm)), fun hm k hk => run (hrun.trans ((if_neg hm).trans ?_)),
      fun hm hk => run (hrun.trans ((if_neg hm).trans ?_))⟩
    · rw [hk]
    · rw [hk]
  · intro gone m2 m3
    refine ran_of (f := fun m => m.destLost p module dp) rfl ?_
    unfold Mach.destLost
    dsimp only
    refine if_neg ?_
    show ¬ (m.unreach.contains (module, dp) || _) = true
    rw [hn, ha, Bool.or_true]
    exact Bool.false_ne_true
  · intro m0 ds bad m2 bs good
    have run {m'} (hf : m0.rxCodewords q (m.lineCodewords q symbols).2 = m') : exec (.flitReceive q symbols) s = .next (s.settled m') := by
      refine ran_of (f := fun m => m.rxFlit q symbols) rfl ?_
      unfold Mach.rxFlit
      rw [if_neg]
      · exact hf
      · have hs' : (symbols.any fun c => c.length != 544) = false := by simpa using hs
        simp [hu, hl, hs', Nat.not_le.mpr hq, m]
    exact ⟨fun hb => run (rxCodewords_bad _ _ _ hb), fun hb hg => run (rxCodewords_nak hb hg), fun hb hg => run (rxCodewords_good hb hg)⟩
  · intro m2
    have run {m'} (hf : m.replayPort q = m') : exec (.flitReplayTimeout q) s = .next (s.settled m') :=
      ran_of (f := fun m => if q < m.portCount then m.replayPort q else m) rfl ((if_pos hq).trans hf)
    have hrun : m.replayPort q = if 32 ≤ (m.port q).replays + 1 then m2.retrainPort q else m2 := by
      unfold Mach.replayPort
      dsimp only
      exact if_neg (by simp [hu, hr])
    exact ⟨fun h => run (hrun.trans (if_neg (by omega))), fun h => run (hrun.trans (if_pos h))⟩
  · refine ran_of (f := fun m => m.retrainPort q) rfl ?_
    unfold Mach.retrainPort
    exact if_neg (by simp [hu, m, hq])
  · intro m2
    refine ran_of (f := fun m => m.dropPort q) rfl ?_
    unfold Mach.dropPort
    exact if_neg (by simp [hs, m, hq])
  · intro st peer detail tell
    have run {m'} (hs : ((m.port o.port).st == .down) = false) (hf : m.portUp o = m') :
        exec (.portTrained o.port o.lanes o.module o.part ⟨o.peer, o.credits⟩) s = .next (s.settled m') :=
      ran_of (f := fun m => if (m.port o.port).st == .down then m
        else m.portUp ⟨o.port, o.lanes, o.module, o.part, o.peer, o.credits⟩) rfl ((if_neg (ne_true_of_eq_false hs)).trans hf)
    refine ⟨fun hst => run (by rw [hst]; rfl) ?_, fun hst => run (by rw [hst]; rfl) ?_⟩
    · rw [portUp_of hq (by simp [Port.isUp, hst]) hd hl]
      simp only [hst] <;> rfl
    · rw [portUp_of hq (by simp [Port.isUp, hst]) hd hl]
      simp only [hst] <;> rfl

end Sys2Proof
end

section
/-! Silent errors: reruns, Frit tests, known answers. -/

namespace Sys2Proof.Machine

/-- A rerun whose operand tiles can not be read faults the stream (R342). -/
theorem rerunDone_unread {m m0 : Mach} {b q : Nat} {fault : Option BenchFault} {orig : Bool} {d : Dispute} {tiles : List Bytes}
    {f : FaultInfo} (hd : (m.disputes.find? fun d => m.rerunOk d b && d.runs.length == q) = some d)
    (ht : m.rerunTiles d = (m0, tiles, some f)) :
    m.rerunDone b q fault orig = (({ m0 with disputes := m0.disputes.filter fun e => !(e.ctx == d.ctx && e.op == d.op) } :
      Mach).dropGemm d.ctx d.op).pumpFences.flightBounds d.ctx d.op f := by
  unfold Mach.rerunDone
  simp only [hd, ht]

/-- The cause that a Strain which errs itself gives, 0 without one. -/
def checkerOf : Option BenchFault → Nat
  | some f => f.checker
  | none => 0

/-- A rerun that is computed joins the runs of the dispute, which is settled where they suffice. -/
theorem rerunDone_ran {m m0 : Mach} {b q found : Nat} {fault : Option BenchFault} {orig : Bool} {d : Dispute} {tiles : List Bytes}
    {value : List Word} (hd : (m.disputes.find? fun d => m.rerunOk d b && d.runs.length == q) = some d)
    (ht : m.rerunTiles d = (m0, tiles, none)) (hu : m0.rerunUnit d (fault.getD noFault) tiles = some (value, found)) :
    let cause := if found = 0 then checkerOf fault else found
    let agrees := if d.checker then orig else found == 0
    let d' := { d with runs := d.runs ++ [(b, (value, (cause == 0, agrees)))] }
    let ran := m0.count .strain (b / 32) (b % 32) 4 1
    let m1 := if cause = 0 then ran else ran.strainFail b cause
    m.rerunDone b q fault orig = ({ m1 with disputes := m1.disputes.map fun e => if e = d then d' else e } :
      Mach).settleUnit d d' value (cause == 0) agrees := by
  intro cause agrees d' ran m1
  unfold Mach.rerunDone
  simp only [hd, ht, hu] <;> rfl

section
variable {m : Mach} {d d' : Dispute} {value : List Word}

/-- The second run gives the first value, and its own Strain passes it: the checks of the original were wrong (R343). -/
theorem settleUnit_same (agrees : Bool) (h1 : d.runs.length = 1)
    (hv : value = match d.runs with | r :: _ => r.2.1 | [] => []) :
    m.settleUnit d d' value true agrees =
      ((m.charge (instIdent (benchInst d.bench) true) d.cause (m.ctxStep d.ctx) (m.opHandle d.ctx d.op)).tellDispute d' 1).adopt d' value :=
  (if_pos ⟨h1, hv, rfl⟩).trans (congrArg _ hv.symm)
/-- It gives another one that both Strains pass: the bench was wrong. -/
theorem settleUnit_other (h1 : d.runs.length = 1) (hv : value ≠ match d.runs with | r :: _ => r.2.1 | [] => []) :
    m.settleUnit d d' value true true =
      ((m.charge (instIdent (benchInst d.bench) false) d.cause (m.ctxStep d.ctx) (m.opHandle d.ctx d.op)).tellDispute d' 2).adopt d' value := by
  unfold Mach.settleUnit
  rw [if_neg fun h => hv h.2.1, if_pos ⟨h1, hv, rfl, rfl⟩]
/-- Else a third run is needed. -/
theorem settleUnit_open {strain agrees : Bool} (h1 : d.runs.length = 1)
    (h : strain = false ∨ (value ≠ (match d.runs with | r :: _ => r.2.1 | [] => []) ∧ agrees = false)) :
    m.settleUnit d d' value strain agrees = m := by
  unfold Mach.settleUnit
  rw [if_neg, if_neg, if_pos h1]
  · rintro ⟨-, -, hs, ha⟩
    rcases h with h | ⟨-, h⟩
    · exact Bool.false_ne_true (h.symm.trans hs)
    · exact Bool.false_ne_true (h.symm.trans ha)
  · rintro ⟨-, hv, hs⟩
    rcases h with h | ⟨h, -⟩
    · exact Bool.false_ne_true (h.symm.trans hs)
    · exact h hv
/-- From the third run on, they vote. -/
theorem settleUnit_vote (strain agrees : Bool) (h1 : d.runs.length ≠ 1) :
    m.settleUnit d d' value strain agrees = match voteOf d'.runs with
      | some v => ((m.chargeVote d'.runs v d.cause (m.ctxStep d.ctx) (m.opHandle d.ctx d.op)).tellDispute d' 3).adopt d' v
      | none => if m.dnum 0x7001 3 ≤ d'.runs.length then (m.tellDispute d' 3).unresolved d' else m :=
  (if_neg fun h => h1 h.1).trans ((if_neg fun h => h1 h.1).trans (if_neg h1))
end

/-- A part of a test that its first two runs pass is counted on both benches. -/
theorem fritPart_pass {m : Mach} {seed n k a b : Nat} {runs : List FritRun} (more : List Nat)
    (h : fritPass (fritRuns seed n k runs [a, b]) = true) :
    m.fritPart seed n k runs [a, b] more = [a, b].foldl (fun m x => m.fritCount seed n k runs x) m := if_pos h

/-- The loan of a test is over: what its end counts, part by part. -/
theorem fritDone_of {m : Mach} {b : Nat} {l : Loan} (runs : List FritRun) (hl : (m.loans.find? fun l => l.bench == b) = some l) :
    let seed := m.dnum 0x7010 4
    let n := m.fritNum
    let free := (List.range 64).filter fun x => x != b && x != l.partner
      && instOwned m.mode (m.ownerOf (benchInst b)) (benchInst x) && m.inService (benchInst x) && !m.lent x
    let named := dedup (runs.map fun r => r.bench)
    let more := (named.filter free.contains) ++ free.filter fun x => !named.contains x
    let m1 := ({ m with loans := m.loans.filter (fun l => l.bench != b), fritNum := m.fritNum + 1 } : Mach).dadd 0x7010 0x10 1
    m.fritDone b runs = (List.range 4).foldl (fun m k => m.fritPart seed n k runs [b, l.partner] more)
      (if (List.range 4).all fun k => fritPass (fritRuns seed n k runs [b, l.partner]) then m1 else m1.dadd 0x7010 0x11 1) := by
  intro seed n free named more m1
  unfold Mach.fritDone
  rw [hl]

/-- Known-answer vectors of an instance that may be lent for them. -/
theorem knownAnswer_of {m : Mach} {i : Inst} (got again : KavResult) (second : Nat) (got2 : KavResult) (hi : m.kavFree i = true) :
    m.knownAnswer i got again second got2 =
      let j := instOf i.kind second
      let w := m.wakeInst i
      if kavSame got ∨ j = i ∨ !w.kavFree j then w
      else
        let kav (m : Mach) (x : Inst) : Mach := if x.kind = .jacks then m.count .jacks x.die x.idx 0x1C 1 else m
        let m1 := kav (w.wakeInst j) i
        let m2 := if kavSame again then m1 else kav m1 i
        if kavSame got2 then m2.charge (instIdent i false) 6 0 0
        else (kav m2 j).fwEvent evFritSuspect i.die (slotOf i.kind.blk i.idx) none
          (toLe 2 (instIdent i false) ++ toLe 2 (instIdent j false)) := by
  unfold Mach.knownAnswer
  dsimp only
  rw [hi, Bool.not_true, if_neg Bool.false_ne_true]

end Sys2Proof.Machine

namespace Sys2Proof
open Machine

/-- Settles O22: a rerun by the verdicts it adds to the earlier ones, a test by its four parts, a known answer by its comparisons. -/
theorem silentErrorEventsComplete : Obligations.SilentErrorEventsComplete := by
  unfold Obligations.SilentErrorEventsComplete
  intro s b q fault orig d runs l i got again got2 second rs m
  refine ⟨fun hd => ?_, ran_of (f := fun m => m.expireStrikes) rfl rfl, fun hb hq hn ho hsb hsq hlb hlq hany hc => ?_, fun hl => ?_,
    ran_of (f := fun m => m.fritExpire b) rfl rfl, fun hk hd hx hs ha hj => ?_, fun hst => ?_⟩
  · intro y done
    have run {x} (hf : m.rerunDone b q fault orig = x) : done x :=
      ran_of (f := fun m => m.rowsDone (m.rerunDone b q fault orig)) rfl (congrArg m.rowsDone hf)
    have tiles {e} (he : y.2.2 = e) : m.rerunTiles d = (y.1, y.2.1, e) := he ▸ rfl
    refine ⟨fun e he => run (rerunDone_unread hd (tiles he)), fun value found he hu => ?_⟩
    intro cause agrees first d' ran m1 m2 step h
    have hunit : m.rerunDone b q fault orig = m2.settleUnit d d' value (cause == 0) agrees :=
      rerunDone_ran hd (tiles he) hu
    refine ⟨fun h1 hv hc => run (hunit.trans ?_), fun h1 hv hc ha => run (hunit.trans ?_), fun h1 ho => run (hunit.trans ?_),
      fun h1 v hv => run (hunit.trans ?_), fun h1 hv => run (hunit.trans ?_)⟩
    · rw [hc, ← hv]
      exact settleUnit_same agrees h1 hv
    · rw [hc, ha]
      exact settleUnit_other h1 hv
    · refine settleUnit_open h1 (ho.imp_left fun hc => beq_eq_false_iff_ne.mpr hc)
    · rw [settleUnit_vote _ _ h1, hv]
    · rw [settleUnit_vote _ _ h1, hv]
  · intro m1 m2
    refine ran_of (f := fun m => m.fritStart b q) rfl ?_
    have hok : m.loanOk b q = true := by
      simp only [Mach.loanOk, hsb, hsq, ho, hlb, hlq, hany, bne_iff_ne.mpr hn, decide_eq_true hb, decide_eq_true hq, decide_eq_true hc,
        Bool.not_false, Bool.and_true]
    unfold Mach.fritStart
    exact if_neg (by rw [hok]; exact Bool.false_ne_true)
  · intro seed n m1 free named more pass
    have run {m'} (hf : m.fritDone b runs = m') : exec (.fritTestDone b runs) s = .next (s.settled m') :=
      ran_of (f := fun m => m.fritDone b runs) rfl hf
    have hrun : m.fritDone b runs = (List.range 4).foldl (fun m k => m.fritPart seed n k runs [b, l.partner] more)
        (if (List.range 4).all pass then m1 else m1.dadd 0x7010 0x11 1) := fritDone_of runs hl
    refine ⟨fun hp => run (hrun.trans ?_), fun hp => run (hrun.trans ?_)⟩
    · rw [if_pos hp]
      exact List.foldl_ext _ _ _ fun x k hk => fritPart_pass more (List.all_eq_true.mp hp k hk)
    · rw [hp, if_neg Bool.false_ne_true]
  · intro j w kav m1 m2
    have hi : m.kavFree i = true := by
      have hjacks : (i.kind == .jacks && m.colls.any fun k => k.jacks.contains i) = false := by
        by_cases h : i.kind = .jacks
        · rw [hj h, Bool.and_false]
        · rw [beq_eq_false_iff_ne.mpr h, Bool.false_and]
      simp only [Mach.kavFree, hs, ha, hjacks, decide_eq_true hd, decide_eq_true hx, Bool.not_false, Bool.and_true]
      rcases hk with h | h | h | h <;> rw [h]
    have run {m'} (hf : m.knownAnswer i got again second got2 = m') :
        exec (.knownAnswerTest i got again second got2) s = .next (s.settled m') :=
      ran_of (f := fun m => m.knownAnswer i got again second got2) rfl hf
    have hrun := knownAnswer_of got again second got2 hi
    have hmis (hg : kavSame got = false) (hji : j ≠ i) (hf : w.kavFree j = true) :
        ¬ (kavSame got = true ∨ j = i ∨ (!w.kavFree j) = true) := by simp [hg, hji, hf]
    refine ⟨fun hg => run (hrun.trans (if_pos (.inl hg))), fun hg hji hf h2 => run (hrun.trans ((if_neg (hmis hg hji hf)).trans (if_pos h2))),
      fun hg hji hf h2 => run (hrun.trans ((if_neg (hmis hg hji hf)).trans (if_neg (ne_true_of_eq_false h2))))⟩
  · refine ran_of (f := fun m => m.selftestDone rs) rfl ?_
    unfold Mach.selftestDone
    exact if_neg fun h => hst.elim h.1 h.2

end Sys2Proof
end

section
/-! The planner, the patrol, the channels, and stations that are put aside. -/

namespace Sys2Proof.Machine

/-- The end of a patrol that has read its codeword: one error found in it is written back corrected (R261). -/
def Mach.patrolled (m : Mach) (a : Nat) (u : MemUnit) (c : CwClass) : Mach :=
  match c with
  | .fix i e => if (mapGet m.chk a).isSome then (m.memCount u 0x14 (writeUnit u.tier / 16)).fixCodeword a i e else m
  | _ => m

/-- There is nothing to write back where no error is found, or the codeword is listed no more. -/
theorem patrolled_same {m : Mach} {a : Nat} {u : MemUnit} {c : CwClass} (h : ∀ i e, c = .fix i e → (mapGet m.chk a).isSome = false) :
    m.patrolled a u c = m := by
  cases c with
  | fix i e => exact if_neg (ne_true_of_eq_false (h i e rfl))
  | clean | poison | bad => rfl

/-- A patrol of a codeword whose channel is on and serves requests. -/
theorem scrub_of {m m0 : Mach} {addr par : Nat} {ups : List (Nat × Nat)} {later : List Nat} {u : MemUnit}
    (hu : memUnitOf m.fineMode (addr / 16 * 16) = some u)
    (h0 : ({ m with shaky := m.shaky ++ later } : Mach).upset (addr / 16 * 16) ups = m0) (hup : m0.memUp (addr / 16 * 16) 16 = true)
    (hon : ∀ c, u.chan? = some c → m0.bit .memc c.die c.memc 0 1 = true) :
    let a := addr / 16 * 16
    let m1 := if par = 2 ∧ u.tier = .hbm then { m0 with shaky := a :: m0.shaky } else m0
    let m3 := (m1.memRead 1 a 16).1.patrolled a u (m1.cwClass a)
    m.scrub addr ups par later = if a = m3.lastCodeword u then m3.memCount u 0x24 1 else m3 := by
  intro a m1 m3
  have hu' : memUnitOf (Mach.fineMode { m with shaky := m.shaky ++ later }) (addr / 16 * 16) = some u := hu
  unfold Mach.scrub
  cases hc : u.chan? with
  | none => simp only [hu', hc, h0, hup, Bool.not_true, Bool.or_false, Bool.false_eq_true, if_false] <;> rfl
  | some c => simp only [hu', hc, h0, hup, hon c hc, Bool.not_true, Bool.or_false, Bool.false_eq_true, if_false] <;> rfl

end Sys2Proof.Machine

namespace Sys2Proof
open Machine

/-- Settles O23: each event by the checks before its work. -/
theorem memoryServiceCompletes : Obligations.MemoryServiceCompletes := by
  unfold Obligations.MemoryServiceCompletes
  intro s p h k addr par ns later ups c t u result m
  refine ⟨fun h0 h2 hd => ?_, fun hp hw => ?_, ran_of (f := fun m => m.halveCounters p) rfl rfl, fun ht hm => ?_, ?_, fun hc hr => ?_,
    fun hc h1 h2 h4 => ?_, fun hc h2 => ?_, fun hc hs hh => ?_, fun hc hs => ?_⟩
  · intro m1 m2
    refine ran_of (f := Mach.plannerTick) rfl ?_
    unfold Mach.plannerTick
    exact if_neg (by simp [m, h0, h2, hd])
  · refine ran_of (f := fun m => m.countersWarm p) rfl ?_
    unfold Mach.countersWarm
    exact if_neg (by simp only [hp, hw, m, Bool.not_true, Bool.or_false, Bool.false_eq_true, not_false_eq_true])
  · refine ran_of (f := fun m => m.copyDone p h k) rfl ?_
    unfold Mach.copyDone
    rw [ht]
    exact if_pos hm
  · intro a hu m0 hup hon m1 m2 close
    have run {m'} (hf : m.scrub addr ups par later = m') : exec (.scrubPatrol ⟨addr, ups, par, later⟩) s = .next (s.settled m') :=
      ran_of (f := fun m => m.scrub addr ups par later) rfl hf
    have hrun := scrub_of (par := par) hu rfl hup hon
    refine ⟨fun i e hf hk => run (hrun.trans ?_), fun hf => run (hrun.trans ?_)⟩
    · rw [show m2.patrolled a u (m1.cwClass a) = (m2.memCount u 0x14 (writeUnit u.tier / 16)).fixCodeword a i e by
        rw [hf]
        exact if_pos hk]
    · rw [show m2.patrolled a u (m1.cwClass a) = m2 from patrolled_same hf]
  · intro held
    have run {m'} (hf : m.recalAnnounce c = m') : exec (.recalibrationTrigger c) s = .next (s.settled m') :=
      ran_of (f := fun m => m.recalAnnounce c) rfl hf
    have hrun : m.recalAnnounce c = if held then m.updChan c fun x => { x with recalDue := true }
        else (m.updChan c fun x => { x with recalDue := false }).setBit .memc c.die c.memc 4 1 := by
      unfold Mach.recalAnnounce
      rw [hc, hr]
      exact if_neg Bool.false_ne_true
    exact ⟨fun hh => run (hrun.trans (if_neg (ne_true_of_eq_false hh))), fun hh => run (hrun.trans (if_pos hh))⟩
  · refine ran_of (f := fun m => m.recalHold c) rfl ?_
    unfold Mach.recalHold
    rw [hc, h1, h2, h4]
    exact if_neg Bool.false_ne_true
  · intro m1
    refine ran_of (f := fun m => m.recalEnd c ns) rfl ?_
    unfold Mach.recalEnd
    rw [hc, h2]
    exact if_neg Bool.false_ne_true
  · intro m1
    have run {m'} (hf : m.chanDrained c = m') : exec (.channelDrained c) s = .next (s.settled m') :=
      ran_of (f := fun m => m.chanDrained c) rfl hf
    have hrun : m.chanDrained c = if (m1.die c.die).persistent.contains (160 + c.memc) then m1.clrBit .memc c.die c.memc 0 0 else m1 := by
      unfold Mach.chanDrained
      rw [hc, hs, hh]
      exact if_neg Bool.false_ne_true
    exact ⟨fun hp => run (hrun.trans (if_neg (ne_true_of_eq_false hp))), fun hp => run (hrun.trans (if_pos hp))⟩
  · refine ran_of (f := fun m => m.marginDone c result) rfl ?_
    unfold Mach.marginDone
    rw [hc, hs]
    exact if_neg Bool.false_ne_true

/-- Settles O24: a drain goes by the kind of the station, the others by the power state of the instance. -/
theorem stationPowerCompletes : Obligations.StationPowerCompletes := by
  unfold Obligations.StationPowerCompletes
  intro s i m b put woken
  refine ⟨fun hd hx h1 h0 => ?_, fun ho hg ha hw hn => ?_, fun hg => ?_, fun hr => ?_, fun hg hd hq hb => ?_⟩
  · have run {m'} (hf : m.stationDrained i = m') : exec (.stationDrained i) s = .next (s.settled m') :=
      ran_of (f := fun m => m.stationDrained i) rfl hf
    have hrun : m.stationDrained i =
        if i.kind = .pontil then
          match m.pontilHeir i with
          | some j => ((m.moveEngines i j).clrBit b i.die i.idx 0 0).setService i false
          | none => if m.pontilWork i then m else (m.clrBit b i.die i.idx 0 0).setService i false
        else if m.instActive i then m else (m.clrBit b i.die i.idx 0 0).setService i false := by
      unfold Mach.stationDrained
      dsimp only
      rw [decide_eq_true hd, decide_eq_true hx, h1, h0]
      exact if_neg Bool.false_ne_true
    refine ⟨fun hk ha => run (hrun.trans ((if_neg hk).trans (if_neg (ne_true_of_eq_false ha)))),
      fun j hk hj => run (hrun.trans ((if_pos hk).trans ?_)), fun hk hj hw => run (hrun.trans ((if_pos hk).trans ?_))⟩
    · rw [hj]
    · rw [hj]
      exact if_neg (ne_true_of_eq_false hw)
  · refine ran_of (f := fun m => m.stationGate i) rfl ?_
    unfold Mach.stationGate
    exact if_pos (by simp only [m, ho, hg, ha, hw, hn, Bool.not_false, Option.isNone_none, Bool.and_self])
  · exact ran_of (f := fun m => if mapGet m.power.insts (Inst.id' i) = some .gated then m.wakeInst i else m) rfl (if_pos hg)
  · exact ran_of (f := fun m => if mapGet m.power.insts (Inst.id' i) = some .retained then m.wakeInst i else m) rfl (if_pos hr)
  · refine ran_of (f := fun m => m.stationRetain i) rfl ?_
    have hrow : (i.kind == .bench && m.holdsRow (benchNum i)) = false := by
      by_cases h : i.kind = .bench
      · rw [hb h, Bool.and_false]
      · rw [beq_eq_false_iff_ne.mpr h, Bool.false_and]
    unfold Mach.stationRetain
    refine if_pos ?_
    rw [show (decide (mapGet m.power.insts (Inst.id' i) = some .gated)) = true from decide_eq_true hg, hd, hrow, Bool.not_false, Bool.and_true]
    exact hq

end Sys2Proof
end

section
/-! Configuration parity: what a scan reports. -/

namespace Sys2Proof.Machine

/-- A module that is up, with wrong parity on two configuration registers of
GATHER instance 0, offsets 8 and 12, whose EVENT block takes events. -/
def twoBadParities : Mach :=
  ({ dies := [{ up := true }, { up := true }], power := { ready := true }, badPar := [csrAddr 0 20 8, csrAddr 0 20 12] } :
    Mach).putReg .event 0 0 0 1

/-- The events that wait in die 0's queue after a command. -/
def queued : Host.Outcome State Fault Refusal → List HwEv
  | .next t => (t.m.die 0).evq
  | _ => []

end Sys2Proof.Machine

namespace Sys2Proof
open Machine

/-- Refutes O27: a scan that visits a register with wrong parity names the lowest offset of the instance whose parity is wrong, which
need not be the one visited: here it visits offset 12 and the event names offset 8. -/
theorem not_parityAndResetRowsComplete : ¬ Obligations.ParityAndResetRowsComplete := by
  unfold Obligations.ParityAndResetRowsComplete
  intro h
  have hscan := (h { m := twoBadParities } 0 20 12 0 0 3 2 0 .gather ⟨.gather, 0, 0⟩).1 (by decide) (by decide +kernel) (by decide)
    (by decide) (by decide +kernel) (by decide +kernel) (by decide +kernel)
  have hqueue := congrArg queued hscan
  revert hqueue
  decide +kernel

end Sys2Proof
end

section
/-! Accesses to registers, by block and by address. -/

namespace Sys2Proof.Machine

/-- A write of a control register: what the block makes of the word, by what the word asks for (R146, R367, R370). -/
theorem rowUpd_control {t : Mach} {b : Blk} {e i sl off : Nat} {r : RegRow} (v clr : Nat) (hc : r.cls = .control) :
    let new := t.newWord b e i off r v
    let put (x : Nat) : Mach := (t.putReg b e i off x).noteOn b e i off (t.atWork b e i)
    (noBlock b off new = true → t.rowUpd b e i sl off r v clr = t.badAccess 0)
    ∧ (t.stillBusy b e i off new = false → noBlock b off new = false → t.rowUpd b e i sl off r v clr =
        (((put new).noteOff b e i off false).clearBits b e i off clr r).writeEffect b e i off v)
    ∧ (t.stillBusy b e i off new = true → noBlock b off new = false → t.rowUpd b e i sl off r v clr =
        (((put (new ||| 3)).noteOff b e i off true).clearBits b e i off clr r).writeEffect b e i off v) := by
  intro new put
  have hrun : t.rowUpd b e i sl off r v clr =
      if noBlock b off new then t.badAccess 0 else
      (((put (if t.stillBusy b e i off new then new ||| 3 else new)).noteOff b e i off (t.stillBusy b e i off new)).clearBits b e i off
        clr r).writeEffect b e i off v := by
    unfold Mach.rowUpd
    rw [hc]
  refine ⟨fun hn => hrun.trans (if_pos hn), fun hb hn => hrun.trans ((if_neg (ne_true_of_eq_false hn)).trans ?_),
    fun hb hn => hrun.trans ((if_neg (ne_true_of_eq_false hn)).trans ?_)⟩
  · rw [hb, if_neg Bool.false_ne_true]
  · rw [hb, if_pos rfl]

/-! ### Where the registers of the rows of their own lie -/

theorem blockAt_bench {d i : Nat} (h : i < 32) : blockAt d (slotOf .bench i) = some (.bench, i) := by
  unfold blockAt slotOf
  dsimp only
  repeat rw [if_neg (by omega)]
  rw [if_pos (by omega), Nat.add_sub_cancel_left]
theorem blockAt_memc {d i : Nat} (h : i < 96) : blockAt d (slotOf .memc i) = some (.memc, i) := by
  unfold blockAt slotOf
  dsimp only
  repeat rw [if_neg (by omega)]
  rw [if_pos (by omega), Nat.add_sub_cancel_left]

/-! ### Accesses by address -/

@[simp] theorem Mach.reg_touch (m : Mach) (d sl : Nat) (b : Blk) (e i off : Nat) : (m.touch d sl).reg b e i off = m.reg b e i off := by
  unfold Mach.touch
  split
  · rfl
  · split
    · rfl
    · rfl
    · split <;> rfl
    · rfl

/-- An access wakes the instance first, which changes no alias mode. -/
theorem Mach.bitMode_touch (m : Mach) (d sl e s : Nat) : (m.touch d sl).bitMode e s = m.bitMode e s := by
  unfold Mach.bitMode
  rw [Mach.reg_touch]

/-- GCNT is no station: an access to it wakes nothing. -/
theorem Mach.touch_gcnt (m : Mach) (d : Nat) : m.touch d 2 = m := by
  unfold Mach.touch
  split
  · rfl
  · rfl

section
variable {m : Mach} {addr d sl o : Nat} (ha : csrSplit addr = some (d, sl, o)) (hup : m.csrUp d sl = true)
include ha hup

theorem csrWrite_bad {size : Nat} (w : Nat) (hs : size ≠ 4 ∨ addr % 4 ≠ 0) : m.csrWrite addr size w = m.badAccess d := by
  unfold Mach.csrWrite
  rw [ha]
  dsimp only
  rw [hup, Bool.not_true, if_neg Bool.false_ne_true, if_pos hs]

theorem csrWrite_register (w : Nat) (h4 : addr % 4 = 0) (ho : o < 0x10000) :
    m.csrWrite addr 4 w = m.regUpd d sl o (fun _ => w) w := by
  unfold Mach.csrWrite
  rw [ha]
  dsimp only
  rw [hup, Bool.not_true, if_neg Bool.false_ne_true, if_neg (by omega), if_pos ho]

theorem csrWrite_alias (w : Nat) (h4 : addr % 4 = 0) (ho : 0x10000 ≤ o) :
    m.csrWrite addr 4 w = m.aliasWrite d sl (o - 0x10000) w := by
  unfold Mach.csrWrite
  rw [ha]
  dsimp only
  rw [hup, Bool.not_true, if_neg Bool.false_ne_true, if_neg (by omega), if_neg (by omega)]

theorem csrRead_register (h4 : addr % 4 = 0) (ho : o < 0x10000) : m.csrRead addr 4 = (m.touch d sl).regRead d sl o := by
  unfold Mach.csrRead
  rw [ha]
  dsimp only
  rw [hup, Bool.not_true, if_neg Bool.false_ne_true, if_neg (by omega), if_pos ho]

theorem csrRead_alias (h4 : addr % 4 = 0) (ho : 0x10000 ≤ o) : m.csrRead addr 4 = (m.touch d sl).aliasRead d sl (o - 0x10000) := by
  unfold Mach.csrRead
  rw [ha]
  dsimp only
  rw [hup, Bool.not_true, if_neg Bool.false_ne_true, if_neg (by omega), if_neg (by omega)]
end

/-- A read whose value goes out, its register found. -/
theorem csrReadOut_of {m : Mach} {addr : Nat} {x : Mach × Nat} (h : m.csrRead addr 4 = x) :
    m.csrReadOut addr 4 = x.1.emit (.csrRead addr x.2) := by
  unfold Mach.csrReadOut
  rw [h]

section
variable {m : Mach} {d sl i : Nat} {b : Blk} (hb : blockAt d sl = some (b, i))
include hb

theorem regRead_counter {o : Nat} {r : RegRow} (hr : regRow b o = some r) (hc : r.cls = .counter) :
    m.regRead d sl o = (m.putReg b d i o 0, m.regView b d i o) := by
  unfold Mach.regRead
  rw [hb]
  dsimp only
  rw [hr]
  exact if_pos hc

theorem regRead_other {o : Nat} {r : RegRow} (hr : regRow b o = some r) (hc : r.cls ≠ .counter) :
    m.regRead d sl o = m.regFound b d i o := by
  unfold Mach.regRead
  rw [hb]
  dsimp only
  rw [hr]
  exact if_neg hc

/-- The set region reads as the register does (R372). -/
theorem aliasRead_set {a : Nat} (ha : a < 0x4000) (hm : m.bitMode d sl = false) (hr : (regRow b a).isSome = true) :
    m.aliasRead d sl a = m.regFound b d i a := by
  have hmod : a % 0x4000 = a := Nat.mod_eq_of_lt ha
  unfold Mach.aliasRead
  rw [hb, hm]
  dsimp only
  rw [if_neg Bool.false_ne_true, hmod]
  exact (if_neg (by simp [Option.isSome_iff_ne_none.mp hr]; omega)).trans ((if_neg Bool.false_ne_true).trans (if_pos ha))

/-- A write through the alias window, not bit-addressed, by its region (R372). -/
theorem aliasWrite_region {a : Nat} (w : Nat) (hm : m.bitMode d sl = false) (ha : a < 0xC000)
    (hr : (regRow b (a % 0x4000)).isSome = true) (hn : noAlias b (a % 0x4000) = false) :
    m.aliasWrite d sl a w =
      if a < 0x4000 then m.regUpd d sl (a % 0x4000) (fun old => old ||| w) 0
      else if a < 0x8000 then m.regUpd d sl (a % 0x4000) (fun old => old &&& (0xFFFFFFFF ^^^ w)) w
      else m.regUpd d sl (a % 0x4000) (fun old => old ^^^ w) 0 := by
  unfold Mach.aliasWrite
  rw [hb, hm]
  dsimp only
  rw [if_neg Bool.false_ne_true, if_neg]
  simp [Option.isSome_iff_ne_none.mp hr, hn, ha]

/-- And bit-addressed (R373). -/
theorem aliasWrite_bit {a : Nat} (w : Nat) (hm : m.bitMode d sl = true) (hr : (regRow b (a / 128 * 4)).isSome = true)
    (hn : noAlias b (a / 128 * 4) = false) :
    m.aliasWrite d sl a w = m.regUpd d sl (a / 128 * 4) (fun old => setFld old (a / 4 % 32) (a / 4 % 32) w)
      (if w % 2 = 1 then 2 ^ (a / 4 % 32) else 0) := by
  unfold Mach.aliasWrite
  rw [hb, hm]
  dsimp only
  rw [if_pos rfl, if_neg]
  simp [Option.isSome_iff_ne_none.mp hr, hn]
end

/-- The time counter of a die: its LO word, whose read latches the HI word (R382). -/
theorem csrReadOut_time {m : Mach} {d : Nat} (hd : d < 2) (hu : (m.die d).up = true) :
    m.csrReadOut (regAddr .gcnt d 0 0) 4 =
      (m.updDie d fun x => { x with latch := fld x.time 63 32 }).emit (.csrRead (regAddr .gcnt d 0 0) (fld (m.die d).time 31 0)) := by
  have hsplit : csrSplit (regAddr .gcnt d 0 0) = some (d, 2, 0) := by
    obtain rfl | rfl : d = 0 ∨ d = 1 := by omega
    · rfl
    · rfl
  have hread := csrRead_register hsplit (m := m) (by simp [Mach.csrUp, hu]) (by unfold regAddr csrAddr csrBase slotOf; omega) (by decide)
  rw [Mach.touch_gcnt, regRead_other (b := .gcnt) (i := 0) rfl (r := regRow .gcnt 0 |>.get rfl) rfl (by decide)] at hread
  have hfound : m.regFound .gcnt d 0 0 = (m.updDie d fun x => { x with latch := fld x.time 63 32 }, fld (m.die d).time 31 0) := by
    unfold Mach.regFound
    exact if_pos ⟨rfl, rfl⟩
  exact csrReadOut_of (hread.trans hfound)

/-- The always-on counter. -/
theorem csrReadOut_aoTime {m : Mach} (hu : (m.die 0).up = true) :
    m.csrReadOut (regAddr .gcnt 0 0 8) 4 =
      (m.updDie 0 fun x => { x with aoLatch := fld m.power.aoMs 63 32 }).emit (.csrRead (regAddr .gcnt 0 0 8) (fld m.power.aoMs 31 0)) := by
  have hread := csrRead_register (addr := regAddr .gcnt 0 0 8) (d := 0) (sl := 2) (o := 8) rfl (m := m) (by simp [Mach.csrUp, hu])
    (by decide) (by decide)
  rw [Mach.touch_gcnt, regRead_other (b := .gcnt) (i := 0) rfl (r := regRow .gcnt 8 |>.get rfl) rfl (by decide)] at hread
  have hfound : m.regFound .gcnt 0 0 8 = (m.updDie 0 fun x => { x with aoLatch := fld m.power.aoMs 63 32 }, fld m.power.aoMs 31 0) := by
    unfold Mach.regFound
    exact (if_neg (by decide)).trans (if_pos ⟨rfl, rfl, rfl⟩)
  exact csrReadOut_of (hread.trans hfound)

/-- A write of a register that resets nothing concerns the machine alone. -/
theorem exec_csrWrite {s : State} {addr size : Nat} {w : Word} {m : Mach} (h : addr ≠ regAddr .aopm 0 0 0 ∨ size ≠ 4)
    (hf : s.m.csrWrite addr size w.toNat = m) : exec (.csrWrite addr size w) s = .next (s.settled m) := by
  have hw : s.csrWrite addr size w.toNat = s.setM fun m => m.csrWrite addr size w.toNat := by
    unfold State.csrWrite
    exact if_neg (by tauto)
  rw [show exec (.csrWrite addr size w) s = (s.csrWrite addr size w.toNat).finish from rfl, State.finish_eq, hw, ← hf]
  rfl

end Sys2Proof.Machine

namespace Sys2Proof
open Machine

/-- Settles O25: each row is a write of a register of a block that is there, and the write goes by what the word asks for. -/
theorem registerRowsComplete : Obligations.RegisterRowsComplete := by
  unfold Obligations.RegisterRowsComplete
  intro s d bench chan mode w r m hd hb hc hm x hx b e i off t new put hup hr
  have hrow : exec x.1 s = .next (s.settled (m.regWrite b e i off w)) ∧ e < 2 ∧ blockAt e (slotOf b i) = some (b, i) := by
    simp only [List.mem_cons, List.not_mem_nil, or_false] at hx
    obtain rfl | rfl | rfl | rfl | rfl | rfl | rfl | rfl | rfl := hx
    · exact ⟨ran_of (f := fun m => m.regWrite .sync d 0 0x40 w) rfl rfl, hd, rfl⟩
    · exact ⟨ran_of (f := fun m => m.regWrite .sync d 0 0x44 w) rfl rfl, hd, rfl⟩
    · exact ⟨ran_of (f := fun m => if chan < 96 then m.regWrite .memc d chan 0 w else m) rfl (if_pos hc), hd, blockAt_memc hc⟩
    · exact ⟨ran_of (f := fun m => if bench < 32 then m.regWrite .bench d bench 0 w else m) rfl (if_pos hb), hd, blockAt_bench hb⟩
    · exact ⟨ran_of (f := fun m => if 32 ≤ bench then m else m.regWrite .bench d bench 0 w) rfl (if_neg (by omega)), hd, blockAt_bench hb⟩
    · exact ⟨ran_of (f := fun m => if mode < 16 then m.regWrite .csrmap d 0 (4 * mode) w else m) rfl (if_pos hm), hd, rfl⟩
    · exact ⟨ran_of (f := fun m => m.regWrite .gcnt d 0 0x1C w) rfl rfl, hd, rfl⟩
    · exact ⟨ran_of (f := fun m => m.regWrite .event d 0 0 w) rfl rfl, hd, rfl⟩
    · exact ⟨ran_of (f := fun m => m.regWrite .aopm 0 0 8 w) rfl rfl, Nat.zero_lt_two, rfl⟩
  obtain ⟨hexec, he, hblock⟩ := hrow
  have run {m'} (hf : t.rowUpd b e i (slotOf b i) off r w.toNat w.toNat = m') : exec x.1 s = .next (s.settled m') := by
    rw [hexec, regWrite_up m w he hup, regUpd_listed m _ _ hblock hr, hf]
  exact ⟨fun hcl hs hn => run ((rowUpd_control _ _ hcl).2.1 hs hn), fun hcl hs hn => run ((rowUpd_control _ _ hcl).2.2 hs hn),
    fun hcl hn => run ((rowUpd_control _ _ hcl).1 hn)⟩

/-- Settles O26: an access goes by its size, its window and the class of the register. -/
theorem registerAccessesComplete : Obligations.RegisterAccessesComplete := by
  unfold Obligations.RegisterAccessesComplete
  intro s addr size d sl o i w b r m a t ha hup hb
  refine ⟨fun hs => exec_csrWrite ?_ (csrWrite_bad ha hup w.toNat hs), fun h4 => ⟨fun ho hn => ?_, fun ho hr hc => ?_, fun ho hr hc => ?_,
    fun ho ha4 hm hr => ?_, fun ho hm hr hn => ?_, fun ho hm hr hn => ?_⟩, fun hd hu => ?_, fun hu => ?_⟩
  · exact hs.elim .inr fun h => .inl fun he => h (by rw [he]; decide)
  · have run {m'} (hf : m.regUpd d sl o (fun _ => w.toNat) w.toNat = m') : exec (.csrWrite addr 4 w) s = .next (s.settled m') :=
      exec_csrWrite (.inl hn) ((csrWrite_register ha hup w.toNat h4 ho).trans hf)
    have listed (hr : regRow b o = some r) := regUpd_listed m (fun _ => w.toNat) w.toNat hb hr
    refine ⟨fun hr => run ?_, fun hr hc => run ((listed hr).trans ?_), fun hr hc => run ((listed hr).trans ?_),
      fun hr hc hl => run ((listed hr).trans ?_), fun hr hc hl => run ((listed hr).trans ?_), run rfl⟩
    · unfold Mach.regUpd
      rw [hb]
      dsimp only
      rw [hr]
    · unfold Mach.rowUpd
      rw [hc]
    · unfold Mach.rowUpd
      rw [hc]
    · unfold Mach.rowUpd
      rw [hc]
      exact if_pos hl
    · unfold Mach.rowUpd
      rw [hc]
      exact if_neg (ne_true_of_eq_false hl)
  · exact ran_of (f := fun m => m.csrReadOut addr 4) rfl (csrReadOut_of ((csrRead_register ha hup h4 ho).trans (regRead_counter hb hr hc)))
  · exact ran_of (f := fun m => m.csrReadOut addr 4) rfl (csrReadOut_of ((csrRead_register ha hup h4 ho).trans (regRead_other hb hr hc)))
  · exact ran_of (f := fun m => m.csrReadOut addr 4) rfl (csrReadOut_of ((csrRead_alias ha hup h4 ho).trans
      (aliasRead_set hb ha4 ((m.bitMode_touch ..).trans hm) hr)))
  · have run {m'} (hf : m.aliasWrite d sl a w.toNat = m') : exec (.aliasSetClearToggle addr w) s = .next (s.settled m') := by
      refine ran_of (f := fun m => match csrSplit addr with
        | some (d, sl, o) => if 0x10000 ≤ o && !m.bitMode d sl then m.csrWrite addr 4 w.toNat else m
        | none => m) rfl ?_
      rw [ha]
      exact (if_pos (by simp [ho, hm, m])).trans ((csrWrite_alias ha hup w.toNat h4 ho).trans hf)
    have region (h : a < 0xC000) := aliasWrite_region hb w.toNat hm h hr hn
    refine ⟨fun h1 => run ((region (by omega)).trans ?_), fun h1 h2 => run ((region (by omega)).trans ?_),
      fun h1 h2 => run ((region h2).trans ?_)⟩
    · rw [if_pos h1, Nat.mod_eq_of_lt h1]
    · rw [if_neg (by omega), if_pos h2]
    · rw [if_neg (by omega), if_neg (by omega)]
  · refine ran_of (f := fun m => match csrSplit addr with
      | some (d, sl, o) => if 0x10000 ≤ o && m.bitMode d sl then m.csrWrite addr 4 w.toNat else m
      | none => m) rfl ?_
    rw [ha]
    exact (if_pos (by simp [ho, hm, m])).trans ((csrWrite_alias ha hup w.toNat h4 ho).trans (aliasWrite_bit hb w.toNat hm hr hn))
  · exact ran_of (f := fun m => if d < 2 then m.csrReadOut (regAddr .gcnt d 0 0) 4 else m) rfl ((if_pos hd).trans (csrReadOut_time hd hu))
  · exact ran_of (f := fun m => m.csrReadOut (regAddr .gcnt 0 0 8) 4) rfl (csrReadOut_aoTime hu)

end Sys2Proof
end

section
/-! Requests of the object dictionary that are executed. -/

namespace Sys2Proof.Machine

/-- A request that is served is answered with what its execution gives. -/
theorem State.request_serves {s s1 : State} {rq : DictReq} {op index sub : Nat} {a : Bytes} {f : After} (hop : op = 1 ∨ op = 2 ∨ op = 3)
    (hs : s.serves (OapReq.ofRow op index sub rq) = true)
    (he : (s.counted rq).oapExec rq.master (OapReq.ofRow op index sub rq) = (s1, a, f)) :
    (s.request rq op index sub).finish = .next (s1.answered (OapReq.ofRow op index sub rq) a f) := by
  simp only [State.serves, Bool.and_eq_true, Option.isNone_iff_eq_none] at hs
  obtain ⟨⟨hopen, hframed⟩, hkept⟩ := hs
  have hserve : (s.counted rq).oapServe rq.master (OapReq.ofRow op index sub rq) =
      (s1.setM fun m => m.keep rq.master rq.tag.toNat (OapReq.ofRow op index sub rq).bytes a, a, f) := by
    unfold State.oapServe
    dsimp only
    rw [show ((s.counted rq).m.kept.find? fun x => x.master == rq.master && x.tag == (OapReq.ofRow op index sub rq).rq.tag.toNat
      && x.request == (OapReq.ofRow op index sub rq).bytes) = none from hkept, he] <;> rfl
  cases hm : rq.master with
  | host =>
    have hc : s.counted rq = s := by simp [State.counted, hm]
    rw [hc, hm] at hserve
    rw [request_host s rq op index sub hm (hm ▸ hopen) hserve, State.finish_eq]
    unfold State.answered
    rw [show (OapReq.ofRow op index sub rq).rq = rq from rfl, hm]
  | mgmt =>
    rw [hm] at hserve
    rw [request_mgmt s rq op index sub hm (hm ▸ hopen) (fun _ => OapReq.malformed_of_framed hframed hop) hserve, State.finish_eq]
    unfold State.answered
    rw [show (OapReq.ofRow op index sub rq).rq = rq from rfl, hm]

section
variable {s : State} {rq : DictReq} {index sub : Nat} {r : DictRow}

theorem State.serves_framed {op : Nat} (hs : s.serves (OapReq.ofRow op index sub rq) = true) :
    (OapReq.ofRow op index sub rq).framed = true := by
  simp only [State.serves, Bool.and_eq_true] at hs
  exact hs.1.2

/-- What INFO answers. -/
theorem State.oapExec_info {who : Master} (hf : (OapReq.ofRow 3 index sub rq).framed = true)
    (hr : s.entryRow (index % 65536) (sub % 256) = some r) (ht : rq.typ = 0 ∨ rq.typ.toNat = r.typ.code) :
    s.oapExec who (OapReq.ofRow 3 index sub rq) = (s, (OapReq.ofRow 3 index sub rq).answer
      { status := osOk, typ := r.typ.code, data := r.info }, .nothing) := by
  unfold State.oapExec
  dsimp only
  rw [OapReq.malformed_of_framed hf (.inr (.inr rfl)), if_neg Bool.false_ne_true,
    show s.entryRow (OapReq.ofRow 3 index sub rq).index (OapReq.ofRow 3 index sub rq).sub = some r from hr]
  exact (if_neg (show ¬ (3 = 1) by decide)).trans ((if_neg (show ¬ (3 = 2) by decide)).trans (if_neg (by tauto)))

/-- What READ answers. -/
theorem State.oapExec_read {who : Master} {s1 : State} {a : OapAns} (hf : (OapReq.ofRow 1 index sub rq).framed = true)
    (hr : s.entryRow (index % 65536) (sub % 256) = some r) (ha : s.oapRead who (OapReq.ofRow 1 index sub rq) r = (s1, a)) :
    s.oapExec who (OapReq.ofRow 1 index sub rq) = (s1, (OapReq.ofRow 1 index sub rq).answer a, .nothing) := by
  unfold State.oapExec
  dsimp only
  rw [OapReq.malformed_of_framed hf (.inl rfl), if_neg Bool.false_ne_true,
    show s.entryRow (OapReq.ofRow 1 index sub rq).index (OapReq.ofRow 1 index sub rq).sub = some r from hr]
  dsimp only
  rw [ha] <;> rfl

/-- What WRITE answers. -/
theorem State.oapExec_write {who : Master} {x : State × OapAns × After} (hf : (OapReq.ofRow 2 index sub rq).framed = true)
    (hr : s.entryRow (index % 65536) (sub % 256) = some r) (ha : s.oapWrite who (OapReq.ofRow 2 index sub rq) r = x) :
    s.oapExec who (OapReq.ofRow 2 index sub rq) = (x.1, (OapReq.ofRow 2 index sub rq).answer x.2.1, x.2.2) := by
  unfold State.oapExec
  dsimp only
  rw [OapReq.malformed_of_framed hf (.inr (.inl rfl)), if_neg Bool.false_ne_true,
    show s.entryRow (OapReq.ofRow 2 index sub rq).index (OapReq.ofRow 2 index sub rq).sub = some r from hr]
  dsimp only
  rw [ha] <;> rfl
end

section
variable {s s1 : State} {who : Master} {q : OapReq} {r : DictRow} {bs : Bytes}

/-- A READ of an entry of a fixed size. -/
theorem State.oapRead_fixed (hw : r.acc ≠ .wo) (ht : q.rq.typ = 0 ∨ q.rq.typ.toNat = r.typ.code) (hz : r.typ.size.isSome = true)
    (h0 : q.rq.offset = 0) (hv : s.readEntry who q.index q.sub = (s1, .ok bs)) :
    s.oapRead who q r = (s1, { status := osOk, typ := r.typ.code, data := bs }) := by
  unfold State.oapRead
  dsimp only
  rw [if_neg hw, if_neg (by tauto), if_pos hz, if_neg (not_not_intro h0), hv] <;> rfl

/-- A READ of one of a variable size, from an offset. -/
theorem State.oapRead_variable (hw : r.acc ≠ .wo) (ht : q.rq.typ = 0 ∨ q.rq.typ.toNat = r.typ.code) (hz : r.typ.size = none)
    (hl : q.rq.offset ≤ bs.length) (hv : s.readValue who q.index q.sub q.rq.offset = (s1, .ok bs)) :
    s.oapRead who q r = (s1,
      { status := osOk, typ := r.typ.code, offset := q.rq.offset, data := (bs.drop q.rq.offset).take (segLimit who)
        flags := (if bs.length ≤ q.rq.offset + segLimit who then 1 else 0) + (if q.rq.offset = 0 then 2 else 0) }) := by
  have hlast : bs.length ≤ q.rq.offset + ((bs.drop q.rq.offset).take (segLimit who)).length ↔ bs.length ≤ q.rq.offset + segLimit who := by
    simp only [List.length_take, List.length_drop]
    omega
  unfold State.oapRead
  dsimp only
  rw [if_neg hw, if_neg (by tauto), if_neg (by simp [hz]), hv]
  dsimp only
  rw [if_neg (by omega)]
  simp only [hlast]

/-- The write of a value that meets the checks 6 to 8 (R391). -/
theorem State.writeWhole_of {i sub : Nat} (bad : Bool) (hr : s.m.rangeOk r i sub bs = true)
    (hi : r.acc = .rwIdle → s.m.entryIdle i bs = true) (ha : s.m.absent i = false)
    (hd : s.m.power.deepSteps < 2 ∨ (i / 4096 ≠ 2 ∧ ¬ (4 ≤ i / 4096 ∧ i / 4096 ≤ 7))) :
    s.writeWhole bad who r i sub bs = s.writeFlash bad who r i sub bs := by
  have hidle : ¬ (r.acc = .rwIdle ∧ s.m.absent i = false ∧ s.m.entryIdle i bs = false) :=
    fun h => Bool.false_ne_true (h.2.2.symm.trans (hi h.1))
  unfold State.writeWhole
  dsimp only
  rw [if_neg (by simp [hr]), if_neg hidle, if_neg (by simp [ha]), if_neg (by omega)]

/-- A WRITE that is admitted is answered with what the entry's rule says. -/
theorem State.oapWrite_admits (h : s.admits q r s1 bs) :
    s.oapWrite q.rq.master q r =
      ((s1.writeFlash q.rq.flashBad q.rq.master r q.index q.sub bs).2.1,
        { status := (s1.writeFlash q.rq.flashBad q.rq.master r q.index q.sub bs).1, flags := fld q.rq.flags.toNat 1 0
          typ := r.typ.code, offset := q.rq.offset }, (s1.writeFlash q.rq.flashBad q.rq.master r q.index q.sub bs).2.2) := by
  obtain ⟨-, hacc, hown, htyp, hwhole, hrange, hidle, habsent, hdeep⟩ := h
  have hw := writeWhole_of (who := q.rq.master) q.rq.flashBad hrange hidle habsent hdeep
  unfold State.oapWrite
  dsimp only
  rw [if_neg hacc, if_neg (by simp [hown]), if_neg (not_not_intro htyp)]
  unfold State.whole at hwhole
  cases hz : r.typ.size with
  | some n =>
    rw [hz] at hwhole
    dsimp only at hwhole ⊢
    split at hwhole
    next hc =>
      obtain ⟨h0, hfl, hlen⟩ := hc
      obtain ⟨rfl, rfl⟩ := Prod.mk.inj (Option.some.inj hwhole)
      rw [if_neg (by simp [h0, hfl, hlen]), hw]
    next => exact absurd hwhole (by simp)
  | none =>
    rw [hz] at hwhole
    dsimp only at hwhole ⊢
    split at hwhole
    next => exact absurd hwhole (by simp)
    next hlen =>
      rw [if_neg hlen]
      generalize hst : s.m.stage q.rq.master q r = x at hwhole ⊢
      obtain ⟨m, e⟩ := x
      cases e with
      | error st => exact absurd hwhole (by simp)
      | ok all =>
        dsimp only at hwhole ⊢
        split at hwhole
        next hb =>
          obtain ⟨rfl, rfl⟩ := Prod.mk.inj (Option.some.inj hwhole)
          rw [if_pos hb, hw]
        next => exact absurd hwhole (by simp)

/-- A segment that is not the last is staged. -/
theorem State.oapWrite_staged {m : Mach} (hacc : r.acc ≠ .ro) (hown : s.m.mayWrite who q.index q.sub q.rq.data = true)
    (htyp : q.rq.typ.toNat = r.typ.code) (hz : r.typ.size = none) (hlen : q.length ≤ segLimit who)
    (hst : s.m.stage who q r = (m, .error osOk)) :
    s.oapWrite who q r = ({ s with m := m },
      { status := osOk, flags := fld q.rq.flags.toNat 1 0, typ := r.typ.code, offset := q.rq.offset }, .nothing) := by
  unfold State.oapWrite
  dsimp only
  rw [if_neg hacc, if_neg (by simp [hown]), if_neg (not_not_intro htyp), hz]
  dsimp only
  rw [if_neg (by omega), hst] <;> rfl
end

/-- A WRITE that is served and admitted. -/
theorem State.write_serves {s s1 : State} {rq : DictReq} {index sub : Nat} {r : DictRow} {bs : Bytes}
    (hs : s.serves (OapReq.ofRow 2 index sub rq) = true) (ha : (s.counted rq).admits (OapReq.ofRow 2 index sub rq) r s1 bs) :
    let w := s1.writeFlash rq.flashBad rq.master r (index % 65536) (sub % 256) bs
    (s.request rq 2 index sub).finish =
      .next (w.2.1.answered (OapReq.ofRow 2 index sub rq) ((OapReq.ofRow 2 index sub rq).wrote r w.1) w.2.2) :=
  State.request_serves (.inr (.inl rfl)) hs (State.oapExec_write (State.serves_framed hs) ha.1 (State.oapWrite_admits ha))

end Sys2Proof.Machine

namespace Sys2Proof
open Machine

/-- Settles O28: a request that is served is answered with what its operation gives. -/
theorem dictionaryRequestsComplete : Obligations.DictionaryRequestsComplete := by
  unfold Obligations.DictionaryRequestsComplete
  intro s s1 rq index sub r bs who tag s0 wr inf
  refine ⟨fun hs hr ht => ?_, fun x hx => ?_, fun hs ha => ?_, fun m hs hr hacc hown htyp hz hlen hst => ?_,
    ran_of (f := fun m => { m with staging := m.staging.filter fun x => !(x.master == who && x.key == dictKey index sub) }) rfl rfl,
    ran_of (f := fun m => { m with snaps := m.snaps.filter fun x => !(x.master == who && x.key == dictKey index sub) }) rfl rfl,
    ran_of (f := fun m => { m with kept := m.kept.filter fun x => !(x.master == who && x.tag == tag.toNat) }) rfl rfl⟩
  · exact State.request_serves (.inr (.inr rfl)) hs (State.oapExec_info (State.serves_framed hs) hr ht)
  · intro q hs hr hw ht
    have hexec : exec x.1 s = (s.request rq 1 x.2.1 x.2.2).finish := by
      simp only [List.mem_cons, List.not_mem_nil, or_false] at hx
      obtain rfl | rfl | rfl := hx <;> rfl
    have run {t : State} {a : OapAns} (ha : s0.oapRead rq.master q r = (t, a)) :
        exec x.1 s = .next (t.answered q (q.answer a) .nothing) :=
      hexec.trans (State.request_serves (.inl rfl) hs (State.oapExec_read (State.serves_framed hs) hr ha))
    exact ⟨fun hz h0 hv => run (State.oapRead_fixed hw ht hz h0 hv), fun hz hl hv => run (State.oapRead_variable hw ht hz hl hv)⟩
  · exact State.write_serves hs ha
  · exact State.request_serves (.inr (.inl rfl)) hs (State.oapExec_write (State.serves_framed hs) hr
      (State.oapWrite_staged hacc hown htyp hz hlen hst))

end Sys2Proof
end

section
/-! Writes of entries that are admitted: the rule and the effect of each entry, and what answers. -/

namespace Sys2Proof.Machine

/-! ### The write of a row -/

section
variable {s s1 : State} {rq : DictReq} {i sub : Nat} {r : DictRow} {bs : Bytes}

theorem OapReq.ofRow_index (op : Nat) (hi : i < 65536) : (OapReq.ofRow op i sub rq).index = i := Nat.mod_eq_of_lt hi
theorem OapReq.ofRow_sub (op : Nat) (hsub : sub < 256) : (OapReq.ofRow op i sub rq).sub = sub := Nat.mod_eq_of_lt hsub

/-- A write that is served and admitted is answered with what the entry's rule says, and what it begins happens. -/
theorem State.writeRow_of {w : Written} (hi : i < 65536) (hsub : sub < 256) (hs : s.serves (OapReq.ofRow 2 i sub rq) = true)
    (ha : (s.counted rq).admits (OapReq.ofRow 2 i sub rq) r s1 bs) (hw : s1.writeFlash rq.flashBad rq.master r i sub bs = w) :
    s.writeRow rq i sub = .next (w.2.1.answered (OapReq.ofRow 2 i sub rq) ((OapReq.ofRow 2 i sub rq).wrote r w.1) w.2.2) := by
  have h := State.write_serves hs ha
  rw [Nat.mod_eq_of_lt hi, Nat.mod_eq_of_lt hsub, hw] at h
  exact h

theorem State.writeFlash_plain (bad : Bool) {who : Master} (h : waitsForFlash i sub = false) :
    s.writeFlash bad who r i sub bs = s.writeEntry who r i sub bs := by
  unfold State.writeFlash
  dsimp only
  rw [h, if_neg (by simp)]
theorem State.writeFlash_good {who : Master} : s.writeFlash false who r i sub bs = s.writeEntry who r i sub bs := by
  unfold State.writeFlash
  exact if_neg (by simp)

/-- The entries whose writes wait for the flash are those of the firmware, its keys and its waivers. -/
theorem waitsForFlash_other (hi : i / 32 ≠ 0x8000 / 32) (hsub : sub < 256) : waitsForFlash i sub = false := by
  have hkey : dictKey i sub / 8192 ≠ 0x8000 / 32 := by
    unfold dictKey
    omega
  simp only [waitsForFlash, Bool.or_eq_false_iff, beq_eq_false_iff_ne, List.contains_eq_mem, decide_eq_false_iff_not, List.mem_cons,
    List.not_mem_nil, or_false]
  omega

/-- An entry other than the count of its index has the row that the map gives it. -/
theorem State.dictRow_of_entryRow (h : s.entryRow i sub = some r) (h0 : sub ≠ 0) : dictRow i sub = some r := by
  unfold State.entryRow at h
  split at h
  · exact absurd h (by simp)
  · split at h
    · exact absurd h (by simp)
    · exact h

/-- The whole value of an entry of a fixed size is what its one frame carries. -/
theorem State.admits_fixed {n : Nat} (ha : s.admits (OapReq.ofRow 2 i sub rq) r s1 bs) (hi : i < 65536) (hsub : sub < 256)
    (h0 : sub ≠ 0) (hn : (dictRow i sub).bind (·.typ.size) = some n) : bs = rq.data := by
  obtain ⟨hrow, -, -, -, hwhole, -⟩ := ha
  rw [OapReq.ofRow_index _ hi, OapReq.ofRow_sub _ hsub] at hrow
  rw [State.dictRow_of_entryRow hrow h0] at hn
  have hz : r.typ.size = some n := hn
  unfold State.whole at hwhole
  rw [hz] at hwhole
  dsimp only at hwhole
  split at hwhole
  · exact (Prod.mk.inj (Option.some.inj hwhole)).2.symm
  · exact absurd hwhole (by simp)
end

/-! ### The rule and the effect of each entry -/

section
variable {s : State} {who : Master} {r : DictRow} {bs : Bytes}

theorem writeEntry_partitionMode (h : (s.m.tensors.isEmpty && s.m.groups.isEmpty) = true) :
    s.writeEntry who r 0x2001 1 bs = accept s (s.m.entryStatus r) (s.m.applyEntry r 0x2001 1 bs).newMode := by
  rw [show s.writeEntry who r 0x2001 1 bs = if s.m.tensors.isEmpty && s.m.groups.isEmpty then
      accept s (s.m.entryStatus r) (s.m.applyEntry r 0x2001 1 bs).newMode else refuse s osBadState from rfl, if_pos h]

theorem writeEntry_handleCount {p : Nat} (hp : p < 4) (h : (s.m.tensors.all fun t => t.part != p) = true) :
    s.writeEntry who r (0x2010 + p) 1 bs = accept s (s.m.entryStatus r) (s.m.applyEntry r (0x2010 + p) 1 bs) := by
  have hpart : partIndex (0x2010 + p) = some (0x2010, p) := by interval_cases p <;> rfl
  have hany : (s.m.tensors.any fun t => t.part == p) = false := by simpa using h
  simp only [State.writeEntry, hpart, hany]
  rfl

theorem writeEntry_optSlot {p slot : Nat} (hp : p < 4) (hs : slot < 16) (h : s.m.slotRule p slot bs = true) :
    s.writeEntry who r (0x4130 + p) (1 + slot) bs =
      accept s (s.m.entryStatus r) (s.m.applyEntry r (0x4130 + p) (1 + slot) bs) := by
  have hpart : partIndex (0x4130 + p) = some (0x4130, p) := by interval_cases p <;> rfl
  have hsched : ¬ 0x21 ≤ 1 + slot := by omega
  simp only [State.writeEntry, hpart, Nat.add_sub_cancel_left, h, hsched]
  simp

theorem writeEntry_lrSchedule {p slot : Nat} (hp : p < 4) (h : s.m.schedRule p bs = true) :
    s.writeEntry who r (0x4130 + p) (0x21 + slot) bs =
      accept s (s.m.entryStatus r) (s.m.applyEntry r (0x4130 + p) (0x21 + slot) bs) := by
  have hpart : partIndex (0x4130 + p) = some (0x4130, p) := by interval_cases p <;> rfl
  have hslot : ¬ 0x21 + slot ≤ 0x10 := by omega
  simp only [State.writeEntry, hpart, h, hslot]
  simp

theorem writeEntry_tableMap {p sub : Nat} (hp : p < 4) (h : s.m.tableRule p bs = true) :
    s.writeEntry who r (0x2040 + p) sub bs = accept s (s.m.entryStatus r) (s.m.applyEntry r (0x2040 + p) sub bs) := by
  have hpart : partIndex (0x2040 + p) = some (0x2040, p) := by interval_cases p <;> rfl
  simp only [State.writeEntry, hpart, h]
  simp

theorem writeEntry_hbmInterleave (h : s.m.tensors.isEmpty = true) :
    s.writeEntry who r 0x6001 1 bs = accept s (s.m.entryStatus r) ((s.m.applyEntry r 0x6001 1 bs).reinterleave s.m.fineMode) := by
  rw [show s.writeEntry who r 0x6001 1 bs = if s.m.tensors.isEmpty then
      accept s (s.m.entryStatus r) ((s.m.applyEntry r 0x6001 1 bs).reinterleave s.m.fineMode) else refuse s osBadState from rfl, if_pos h]

theorem writeEntry_portMode :
    s.writeEntry who r 0x5001 1 bs = accept s (s.m.entryStatus r) (s.m.applyEntry r 0x5001 1 bs).retrainAll := rfl

theorem writeEntry_groupDefinition {g : Nat} (hg : g < 32) (h : s.m.groupRule g bs = true) :
    s.writeEntry who r (0x5100 + g) 1 bs = accept s (s.m.entryStatus r) (s.m.defineGroup r g bs) := by
  have hrun : s.writeEntry who r (0x5100 + g) 1 bs = if s.m.groupRule g bs then accept s (s.m.entryStatus r) (s.m.defineGroup r g bs)
      else refuse s osBadState := by interval_cases g <;> rfl
  rw [hrun, if_pos h]

section
variable {st : Nat} {t : Mach}
theorem writeEntry_service {n : Nat} (hn : ofLe bs = n) (h : s.m.service n = (st, t)) :
    s.writeEntry who r 0x6010 2 bs = accept s st t := by
  rw [show s.writeEntry who r 0x6010 2 bs = accept s (s.m.service (ofLe bs)).1 (s.m.service (ofLe bs)).2 from rfl, hn, h]
theorem writeEntry_unfence (h : s.m.unfence (ofLe bs) = (st, t)) : s.writeEntry who r 0x7002 2 bs = accept s st t := by
  rw [show s.writeEntry who r 0x7002 2 bs = accept s (s.m.unfence (ofLe bs)).1 (s.m.unfence (ofLe bs)).2 from rfl, h]
theorem writeEntry_selftest {n : Nat} (hn : ofLe bs = n) (h : s.m.selftest n = (st, t)) :
    s.writeEntry who r 0x7010 5 bs = accept s st t := by
  rw [show s.writeEntry who r 0x7010 5 bs = accept s (s.m.selftest (ofLe bs)).1 (s.m.selftest (ofLe bs)).2 from rfl, hn, h]
theorem writeEntry_restoreDefaults (h : s.m.restoreAll = (st, t)) : s.writeEntry who r 0x1004 0x10 bs = accept s st t := by
  rw [show s.writeEntry who r 0x1004 0x10 bs = accept s s.m.restoreAll.1 s.m.restoreAll.2 from rfl, h]
theorem writeEntry_ringPair {ring : Nat} (h1 : 1 ≤ ring) (h2 : ring < 16) (h : s.m.ringWrite (0x9120 + ring) bs = (st, t)) :
    s.writeEntry who r (0x9120 + ring) 1 bs = accept s st t := by
  have hrun : s.writeEntry who r (0x9120 + ring) 1 bs =
      accept s (s.m.ringWrite (0x9120 + ring) bs).1 (s.m.ringWrite (0x9120 + ring) bs).2 := by interval_cases ring <;> rfl
  rw [hrun, h]
end
theorem writeEntry_controlToken : s.writeEntry who r 0x9010 1 bs = accept s osOk (s.m.writeToken who bs) := rfl
theorem writeEntry_logClear : s.writeEntry who r 0xA001 4 bs = accept s osOk { s.m with log := [] } := rfl
theorem writeEntry_deepCmd (h : s.m.deepOk = true) : s.writeEntry who r 0x3004 5 bs = accept s osOk s.m.deepBegin := by
  rw [show s.writeEntry who r 0x3004 5 bs = if s.m.deepOk then accept s osOk s.m.deepBegin else refuse s osBusy from rfl, if_pos h]
end

/-! ### What they do -/

section
variable {m : Mach}

theorem service_deferred {n : Nat} (h : (m.restricted != 0) = true) : m.service n = m.defer 0x601002 (65536 * m.dnum 0x6010 1 + n) :=
  if_pos (bne_iff_ne.mp h)
/-- A service command on the channel that svc_channel names, no other being in progress on it. -/
theorem service_on {n : Nat} {c : Chan} (h : (m.restricted == 0 && svcChan (m.dnum 0x6010 1) == some c && !m.svcBusy c) = true) :
    m.service n = (osOk, if n = 1 then m.svcDrain c else if n = 2 then m.svcReturn c else if n = 3 then m.svcRecal c else m.svcMargin c) := by
  simp only [Bool.and_eq_true, beq_iff_eq, Bool.not_eq_true'] at h
  obtain ⟨⟨hr, hc⟩, hb⟩ := h
  unfold Mach.service Mach.serviceOn
  rw [if_neg (not_not_intro hr), hc]
  simp only [Option.bind_some, hb, Bool.false_eq_true, if_false]

theorem selftest_deferred {n : Nat} (h : (m.restricted != 0) = true) : m.selftest n = m.defer 0x701005 n := if_pos (bne_iff_ne.mp h)
theorem selftest_on {n : Nat} (hr : (m.restricted == 0) = true) (h : n = 2 → m.allIdle = true) : m.selftest n = (osOk, m.selftestOn n) := by
  unfold Mach.selftest
  rw [if_neg (not_not_intro (beq_iff_eq.mp hr)), if_neg]
  rintro ⟨h2, hn⟩
  simp [h h2] at hn
theorem selftest_rolling (h : (m.restricted == 0 && m.dnum 0x7010 6 != 2) = true) : m.selftest 1 = (osOk, m.dset 0x7010 6 1) := by
  simp only [Bool.and_eq_true, bne_iff_ne] at h
  rw [selftest_on h.1 (fun h => absurd h (by decide))]
  unfold Mach.selftestOn
  rw [if_pos rfl, if_neg h.2]
theorem selftest_again (h : (m.restricted == 0 && m.dnum 0x7010 6 == 2) = true) : m.selftest 1 = (osOk, m) := by
  simp only [Bool.and_eq_true, beq_iff_eq] at h
  rw [selftest_on (beq_iff_eq.mpr h.1) (fun h => absurd h (by decide))]
  unfold Mach.selftestOn
  rw [if_pos rfl, if_pos h.2]
theorem selftest_module (h : (m.restricted == 0 && m.allIdle) = true) : m.selftest 2 = (osOk, m.dset 0x7010 6 2) := by
  simp only [Bool.and_eq_true] at h
  rw [selftest_on h.1 fun _ => h.2]
  unfold Mach.selftestOn
  rw [if_neg (by decide)]

theorem unfence_deferred {n : Nat} (h : (m.restricted != 0) = true) : m.unfence n = m.defer 0x700202 n := if_pos (bne_iff_ne.mp h)
theorem unfence_on {n : Nat} {t : Mach} (h : (m.restricted == 0 && m.unfenceInst n == some t) = true) : m.unfence n = (t.nvStatus, t) := by
  simp only [Bool.and_eq_true, beq_iff_eq] at h
  obtain ⟨hr, ht⟩ := h
  unfold Mach.unfence
  rw [if_neg (not_not_intro hr), ht]

theorem restoreAll_of (h : (m.allIdle && (m.mode == 1 || (m.tensors.isEmpty && m.groups.isEmpty)) && (!m.fineMode || m.tensors.isEmpty))
    = true) : m.restoreAll = (m.restored.nvStatus, m.restored) := by
  simp only [Bool.and_eq_true, Bool.or_eq_true, beq_iff_eq, Bool.not_eq_true'] at h
  obtain ⟨⟨hidle, hmode⟩, hfine⟩ := h
  unfold Mach.restoreAll
  rw [if_neg (by simp [hidle]), if_neg]
  rintro (⟨h1, h2⟩ | ⟨h1, h2⟩)
  · rcases hmode with hm | ⟨ht, hg⟩
    · exact h1 hm
    · simp [ht, hg] at h2
  · rcases hfine with hf | ht
    · rw [h1] at hf
      exact absurd hf (by decide)
    · rw [ht] at h2
      exact absurd h2 (by decide)

variable {ring : Nat} {bs : Bytes}

/-- A ring-pair record by the enable that stands and the one written (R488). -/
theorem ringWrite_eq (m : Mach) (ring : Nat) (bs : Bytes) :
    m.ringWrite (0x9120 + ring) bs =
      if leAt (m.ringRec ring) 19 1 = 0 then
        if leAt bs 19 1 = 1 then
          if m.ringRecOk bs then (osOk, (m.dictPut (0x9120 + ring) 1 bs).updRing ring fun _ => {}) else (osOutOfRange, m)
        else (osOk, m.dictPut (0x9120 + ring) 1 bs)
      else if overlay (m.ringRec ring) 19 [0] != overlay bs 19 [0] then (osBadState, m)
      else if leAt (m.ringRec ring) 19 1 = 1 then
        if leAt bs 19 1 = 1 then (osOk, m)
        else (osOk, (m.dictPut (0x9120 + ring) 1 (overlay (m.ringRec ring) 19 [2])).flushRing ring)
      else (osOk, m.updRing ring fun q => { q with again := leAt bs 19 1 == 1 }) := by
  unfold Mach.ringWrite
  rw [Nat.add_sub_cancel_left]

theorem ringWrite_store (h : (leAt (m.ringRec ring) 19 1 == 0 && leAt bs 19 1 != 1) = true) :
    m.ringWrite (0x9120 + ring) bs = (osOk, m.dictPut (0x9120 + ring) 1 bs) := by
  simp only [Bool.and_eq_true, beq_iff_eq, bne_iff_ne] at h
  rw [ringWrite_eq, if_pos h.1, if_neg h.2]
theorem ringWrite_enable (h : (leAt (m.ringRec ring) 19 1 == 0 && leAt bs 19 1 == 1 && m.ringRecOk bs) = true) :
    m.ringWrite (0x9120 + ring) bs = (osOk, (m.dictPut (0x9120 + ring) 1 bs).updRing ring fun _ => {}) := by
  simp only [Bool.and_eq_true, beq_iff_eq] at h
  obtain ⟨⟨h0, h1⟩, hok⟩ := h
  rw [ringWrite_eq, if_pos h0, if_pos h1, if_pos hok]
theorem ringWrite_disable (h : (leAt (m.ringRec ring) 19 1 == 1 && leAt bs 19 1 != 1
    && overlay (m.ringRec ring) 19 [0] == overlay bs 19 [0]) = true) :
    m.ringWrite (0x9120 + ring) bs = (osOk, (m.dictPut (0x9120 + ring) 1 (overlay (m.ringRec ring) 19 [2])).flushRing ring) := by
  simp only [Bool.and_eq_true, beq_iff_eq, bne_iff_ne] at h
  obtain ⟨⟨h1, hn⟩, ho⟩ := h
  rw [ringWrite_eq, if_neg (by omega), if_neg (by rw [ho, bne_self_eq_false]; exact Bool.false_ne_true), if_pos h1, if_neg hn]
end

/-- What the statement says of a row: where the write is served and admitted and its rule holds, it is answered so. -/
theorem State.config_row {s s1 : State} {rq : DictReq} {c : Instr} {i sub st : Nat} {d : Bytes} {rule : Bool} {r : DictRow} {bs : Bytes}
    {t : Mach} (hi : i < 65536) (hsub : sub < 256) (hw : waitsForFlash i sub = false)
    (hc : exec c s = s.writeRow { rq with data := d } i sub)
    (hr : (s.counted rq).admits (OapReq.ofRow 2 i sub { rq with data := d }) r s1 bs → rule = true →
      s1.writeEntry rq.master r i sub bs = accept s1 st t) :
    s.serves (OapReq.ofRow 2 i sub { rq with data := d }) = true →
      (s.counted rq).admits (OapReq.ofRow 2 i sub { rq with data := d }) r s1 bs → rule = true →
      exec c s = .next ({ s1 with m := t }.answered (OapReq.ofRow 2 i sub { rq with data := d })
        ((OapReq.ofRow 2 i sub { rq with data := d }).wrote r st) .nothing) := fun hs ha hrule =>
  hc.trans (State.writeRow_of (rq := { rq with data := d }) hi hsub hs ha
    ((State.writeFlash_plain rq.flashBad hw).trans (hr ha hrule)))

end Sys2Proof.Machine

namespace Sys2Proof
open Machine

/-- Settles O29: each row is a write of its entry, and the entry's rule and effect are those listed. -/
theorem configurationWritesComplete : Obligations.ConfigurationWritesComplete := by
  unfold Obligations.ConfigurationWritesComplete
  intro s s1 rq p slot n g ring r bs c t s0 m stored put hp hslot hn hg h1 hr x hx
  have number {i sub v : Nat} {d : Bytes} (hi : i < 65536) (hsub : sub < 256) (h0 : sub ≠ 0)
      (hz : (dictRow i sub).bind (·.typ.size) = some 1) (hd : ofLe d = v)
      (ha : s0.admits (OapReq.ofRow 2 i sub { rq with data := d }) r s1 bs) : ofLe bs = v := by
    rw [State.admits_fixed ha hi hsub h0 hz]
    exact hd
  have service {c : Instr} {v st : Nat} {d : Bytes} {rule : Bool} {t : Mach} (hd : ofLe d = v)
      (hc : exec c s = s.writeRow { rq with data := d } 0x6010 2) (h : rule = true → m.service v = (st, t)) :=
    State.config_row (i := 0x6010) (sub := 2) (s1 := s1) (r := r) (bs := bs) (by decide) (by decide) (by decide) hc fun ha hr =>
      writeEntry_service (number (by decide) (by decide) (by decide) rfl hd ha) (h hr)
  have selftest {c : Instr} {v st : Nat} {d : Bytes} {rule : Bool} {t : Mach} (hd : ofLe d = v)
      (hc : exec c s = s.writeRow { rq with data := d } 0x7010 5) (h : rule = true → m.selftest v = (st, t)) :=
    State.config_row (i := 0x7010) (sub := 5) (s1 := s1) (r := r) (bs := bs) (by decide) (by decide) (by decide) hc fun ha hr =>
      writeEntry_selftest (number (by decide) (by decide) (by decide) rfl hd ha) (h hr)
  have ringPair {rule : Bool} {st : Nat} {t : Mach} (h : rule = true → m.ringWrite (0x9120 + ring) bs = (st, t)) :=
    State.config_row (s := s) (i := 0x9120 + ring) (sub := 1) (c := .ringPairWrite ring rq) (rq := rq) (d := rq.data) (r := r) (by omega)
      (by decide) (waitsForFlash_other (by omega) (by decide)) rfl fun _ hrule => writeEntry_ringPair h1 hr (h hrule)
  simp only [List.mem_cons, List.not_mem_nil, or_false] at hx
  obtain rfl | rfl | rfl | rfl | rfl | rfl | rfl | rfl | rfl | rfl | rfl | rfl | rfl | rfl | rfl | rfl | rfl | rfl | rfl | rfl | rfl
    | rfl | rfl | rfl | rfl | rfl | rfl | rfl | rfl | rfl := hx
  · exact State.config_row (i := 0x2001) (sub := 1) (by decide) (by decide) (by decide) rfl fun _ h => writeEntry_partitionMode h
  · exact State.config_row (i := 0x2010 + p) (sub := 1) (by omega) (by decide) (waitsForFlash_other (by omega) (by decide))
      (congrArg (fun k => s.writeRow rq (0x2010 + k) 1) (Nat.mod_eq_of_lt hp)) fun _ h => writeEntry_handleCount hp h
  · exact State.config_row (i := 0x4130 + p) (sub := 1 + slot) (by omega) (by omega) (waitsForFlash_other (by omega) (by omega))
      (congrArg₂ (fun k l => s.writeRow rq (0x4130 + k) (1 + l)) (Nat.mod_eq_of_lt hp) (Nat.mod_eq_of_lt hslot))
      fun _ h => writeEntry_optSlot hp hslot h
  · exact State.config_row (i := 0x4130 + p) (sub := 0x21 + slot) (by omega) (by omega) (waitsForFlash_other (by omega) (by omega))
      (congrArg₂ (fun k l => s.writeRow rq (0x4130 + k) (0x21 + l)) (Nat.mod_eq_of_lt hp) (Nat.mod_eq_of_lt hslot))
      fun _ h => writeEntry_lrSchedule hp h
  · exact State.config_row (i := 0x2040 + p) (sub := 1 + n) (by omega) (by omega) (waitsForFlash_other (by omega) (by omega))
      (congrArg₂ (fun k l => s.writeRow rq (0x2040 + k) (1 + l)) (Nat.mod_eq_of_lt hp) (Nat.mod_eq_of_lt hn))
      fun _ h => writeEntry_tableMap hp h
  · exact State.config_row (i := 0x6001) (sub := 1) (by decide) (by decide) (by decide) rfl fun _ h => writeEntry_hbmInterleave h
  · exact State.config_row (i := 0x5001) (sub := 1) (by decide) (by decide) (by decide) rfl fun _ _ => writeEntry_portMode
  · exact State.config_row (i := 0x5100 + g) (sub := 1) (by omega) (by decide) (waitsForFlash_other (by omega) (by decide))
      (congrArg (fun k => s.writeRow rq (0x5100 + k) 1) (Nat.mod_eq_of_lt hg)) fun _ h => writeEntry_groupDefinition hg h
  · exact service rfl rfl service_on
  · exact service rfl rfl service_deferred
  · exact service rfl rfl service_on
  · exact service rfl rfl service_deferred
  · exact service rfl rfl service_on
  · exact service rfl rfl service_deferred
  · exact service rfl rfl service_on
  · exact service rfl rfl service_deferred
  · exact selftest rfl rfl selftest_rolling
  · exact selftest rfl rfl selftest_again
  · exact selftest rfl rfl selftest_deferred
  · exact selftest rfl rfl selftest_module
  · exact selftest rfl rfl selftest_deferred
  · exact State.config_row (i := 0x7002) (sub := 2) (by decide) (by decide) (by decide) rfl fun _ h => writeEntry_unfence (unfence_on h)
  · exact State.config_row (i := 0x7002) (sub := 2) (by decide) (by decide) (by decide) rfl fun _ h =>
      writeEntry_unfence (unfence_deferred h)
  · exact State.config_row (i := 0x9010) (sub := 1) (by decide) (by decide) (by decide) rfl fun _ _ => writeEntry_controlToken
  · exact State.config_row (i := 0x1004) (sub := 0x10) (by decide) (by decide) (by decide) rfl fun _ h =>
      writeEntry_restoreDefaults (restoreAll_of h)
  · exact State.config_row (i := 0xA001) (sub := 4) (by decide) (by decide) (by decide) rfl fun _ _ => writeEntry_logClear
  · exact State.config_row (i := 0x3004) (sub := 5) (by decide) (by decide) (by decide) rfl fun _ h => writeEntry_deepCmd h
  · exact ringPair ringWrite_store
  · exact ringPair ringWrite_enable
  · exact ringPair ringWrite_disable

end Sys2Proof
end

section
/-! Writes of the reset, firmware, key, waiver and nonce entries, and what a failing flash leaves. -/

namespace Sys2Proof.Machine

/-! ### What is held, and what a pairing check leaves -/

theorem Mach.dict?_dictPut_same (m : Mach) (i sub : Nat) (v : Bytes) : (m.dictPut i sub v).dict? i sub = v := by
  unfold Mach.dict? Mach.dictPut
  dsimp only
  split
  · next h =>
    rw [mapGet_mapDel_same, h]
    rfl
  · rw [mapGet_mapSet_same]
    rfl

/-- A pairing check extends M3 alone (R440): the flash and the dictionary stay. -/
theorem State.pairMeasured_same (s : State) (mi gi : Bytes) :
    (s.pairMeasured mi gi).v.flash = s.v.flash ∧ (s.pairMeasured mi gi).m.dict = s.m.dict := by
  unfold State.pairMeasured
  split
  · exact ⟨rfl, rfl⟩
  · exact ⟨rfl, rfl⟩
theorem State.activateMeasured_same (s : State) (kind : Nat) :
    (s.activateMeasured kind).v.flash = s.v.flash ∧ (s.activateMeasured kind).m.dict = s.m.dict := by
  unfold State.activateMeasured
  split
  · exact ⟨rfl, rfl⟩
  · exact s.pairMeasured_same _ _

section
variable {s : State} {who : Master} {r : DictRow} {i sub : Nat} {bs : Bytes}

/-- A write whose flash operation fails is answered with NV_ERROR: what the flash held stands, but for an image's slot (R405). -/
theorem State.writeFlash_failed (hinhibit : s.m.power.nvInhibit = false) (hwaits : waitsForFlash i sub = true)
    (hok : (s.writeEntry who r i sub bs).1 = osOk) :
    ∃ t : State, s.writeFlash true who r i sub bs = (osNvError, t, .nothing) ∧ (i ≠ 0x8002 → t.v.flash = s.v.flash)
      ∧ t.v.flash.ctl = s.v.flash.ctl ∧ t.v.flash.ar = s.v.flash.ar ∧ t.m.dnum 0x1004 5 = 2 := by
  let failed : State := { s with m := (((s.m.freeBytes 64).1.dset 0x1004 5 2).moEvent evStoreWriteFailed) }
  let held : State := if dictKey i sub = 0x800301 then failed.activateMeasured (ofLe bs - 1) else failed
  have hheld : held.v.flash = s.v.flash ∧ held.m.dict = failed.m.dict := by
    by_cases h : dictKey i sub = 0x800301
    · rw [show held = failed.activateMeasured (ofLe bs - 1) from if_pos h]
      exact failed.activateMeasured_same _
    · rw [show held = failed from if_neg h]
      exact ⟨rfl, rfl⟩
  obtain ⟨hflash, hdict⟩ := hheld
  have hcount (t : State) (ht : t.m.dict = failed.m.dict) : t.m.dnum 0x1004 5 = 2 := by
    have h : failed.m.dict? 0x1004 5 = toLe 1 2 := Mach.dict?_dictPut_same (s.m.freeBytes 64).1 0x1004 5 (toLe 1 2)
    unfold Mach.dnum Mach.dict?
    rw [ht]
    exact congrArg ofLe h
  have hrun : s.writeFlash true who r i sub bs = (osNvError,
      if i = 0x8002 then held.setV fun v => { v with flash := v.flash.updSlot ((sub - 1) / 2) ((sub - 1) % 2) fun _ => ⟨(s.m.freeBytes 64).2, 4⟩ }
      else held, .nothing) := by
    unfold State.writeFlash
    dsimp only
    rw [hinhibit, hwaits, hok, if_pos (by decide)] <;> rfl
  by_cases hi : i = 0x8002
  · rw [if_pos hi] at hrun
    exact ⟨_, hrun, fun h => absurd hi h, (congrArg Flash.ctl hflash :), (congrArg Flash.ar hflash :), hcount _ hdict⟩
  · rw [if_neg hi] at hrun
    exact ⟨_, hrun, fun _ => hflash, congrArg Flash.ctl hflash, congrArg Flash.ar hflash, hcount _ hdict⟩

/-! ### The rule and the effect of each entry -/

theorem writeEntry_resetCmd : s.writeEntry who r 0x3006 1 bs = s.resetCmd (ofLe bs) := rfl
theorem writeEntry_image {slot : Nat} (h : slot < 4) : s.writeEntry who r 0x8002 (1 + slot) bs = s.writeImage slot bs := by
  interval_cases slot <;> rfl
theorem writeEntry_activate {n : Nat} (hn : ofLe bs = n) : s.writeEntry who r 0x8003 1 bs = s.activate (n - 1) := hn ▸ rfl
theorem writeEntry_confirm {n : Nat} (hn : ofLe bs = n) : s.writeEntry who r 0x8003 2 bs = s.confirm (n - 1) := hn ▸ rfl
theorem writeEntry_waiver : s.writeEntry who r 0x8004 2 bs = s.writeWaiver bs := rfl
theorem writeEntry_key : s.writeEntry who r 0x8010 1 bs = s.writeKey bs := rfl
theorem writeEntry_nonce : s.writeEntry who r 0x8030 1 bs = s.writeNonce who bs := rfl
theorem writeEntry_csrData (h : (s.m.dnum 0xA003 3 == 1) = true) :
    s.writeEntry who r 0xA003 2 bs = (osOk, s.csrWrite (s.m.dnum 0xA003 1) 4 (ofLe bs), .nothing) := by
  rw [show s.writeEntry who r 0xA003 2 bs = if s.m.dnum 0xA003 3 = 1 then (osOk, s.csrWrite (s.m.dnum 0xA003 1) 4 (ofLe bs), .nothing)
    else refuse s osBadState from rfl, if_pos (beq_iff_eq.mp h)]
end

/-! ### What they do -/

section
variable {s : State}

theorem resetCmd_cold {n : Nat} (h : (n == 0x434F4C44 && s.m.allIdle) = true) : s.resetCmd n = (osOk, s, .cold) := by
  simp only [Bool.and_eq_true, beq_iff_eq] at h
  unfold State.resetCmd
  rw [if_pos h.1, if_pos h.2]
theorem resetCmd_warm {n : Nat} (h : (n == 0x5741524D && s.m.allIdle) = true) : s.resetCmd n = (osOk, s, .warm) := by
  simp only [Bool.and_eq_true, beq_iff_eq] at h
  unfold State.resetCmd
  rw [if_neg (by omega), if_pos h.1, if_pos h.2]
theorem resetCmd_die {n d : Nat} (hd : d < 2) (h : (n == 0x44494530 + d && s.m.dieQuiet d) = true) : s.resetCmd n = (osOk, s, .die d) := by
  simp only [Bool.and_eq_true, beq_iff_eq] at h
  obtain ⟨rfl, hq⟩ := h
  unfold State.resetCmd
  rw [if_neg (by omega), if_neg (by omega), Nat.add_sub_cancel_left]
  exact if_pos hq

/-- An image goes into a slot that neither runs nor is active (R431, R443). -/
theorem writeImage_free {n : Nat} {bs : Bytes} (hr : s.v.recovery = false) (ha : (s.v.flash.boot (n / 2)).active ≠ n % 2)
    (hrun : (if n / 2 = 0 then s.v.slotRunning 0 == some (n % 2)
      else s.v.slotRunning 1 == some (n % 2) || s.v.slotRunning 2 == some (n % 2)) = false) (hok : s.v.flash.imageOk (n / 2) bs = true) :
    s.writeImage n bs =
      (s.m.nvStatus, s.writeVault fun v => { v with flash := v.flash.updSlot (n / 2) (n % 2) fun _ => ⟨bs, 1⟩ }, .nothing) := by
  unfold State.writeImage
  dsimp only
  rw [if_neg (ne_true_of_eq_false hr), if_neg, if_pos hok]
  rintro (h | h)
  · exact ha h
  · exact Bool.false_ne_true (hrun.symm.trans h)
/-- In recovery the boot ROM takes a management image and tries it (R433). -/
theorem writeImage_recovery {n : Nat} {bs : Bytes} (hr : s.v.recovery = true) (hk : n / 2 = 0) (hok : s.v.flash.imageOk 0 bs = true) :
    s.writeImage n bs = (s.m.nvStatus, s.writeVault fun v => { v with flash := (v.flash.updSlot 0 (n % 2) fun _ => ⟨bs, 1⟩).updBoot 0 fun _ =>
      ⟨1 - n % 2, true, s.m.dnum 0x8003 3⟩ }, .rom) := by
  unfold State.writeImage
  dsimp only
  rw [if_pos hr, if_neg (by omega), hok, Bool.not_true, if_neg Bool.false_ne_true]

theorem activate_of {kind : Nat} (h : (s.activateCheck kind).isNone = true) : s.activate kind = (s.activateMeasured kind).activated kind := by
  unfold State.activate
  rw [Option.isNone_iff_eq_none.mp h]

/-- A confirmation of the trial that runs (R447). -/
theorem confirm_of {kind : Nat} (h : s.trialRuns kind = true) :
    s.confirm kind =
      let k := 1 - (s.v.flash.boot kind).active
      let n := imgSvn (s.v.flash.slot kind k).image
      (s.m.nvStatus, (s.writeVault fun v => ({ v with flash := v.flash.updBoot kind fun _ => ⟨k, false, 0⟩ } : Vault).raise
        (if kind = 0 then n else 0) (if kind = 1 then n else 0) 0).setM fun m => m.moEvent evFwConfirmed (toLe 1 kind ++ toLe 1 k),
        .nothing) := by
  unfold State.confirm
  rw [h, Bool.not_true, if_neg Bool.false_ne_true]

theorem writeKey_of {bs : Bytes} (h : (decide (s.v.flash.keys.length < 15) && s.v.flash.keyOk bs) = true) :
    s.writeKey bs = (s.m.nvStatus, (s.writeVault fun v =>
      (({ v with flash := { v.flash with keys := v.flash.keys ++ [bs] } } : Vault).raise 0 0 (v.flash.chain.length + 1)).lapse
        s.m.freeCtr).setM fun m => ({ m with freeCtr := m.freeCtr + 1 } : Mach).moEvent evKeyRotated (toLe 2 (leAt bs 4 2)),
      .nothing) := by
  simp only [Bool.and_eq_true, decide_eq_true_eq] at h
  unfold State.writeKey
  rw [if_neg]
  rintro (hl | hk)
  · omega
  · exact Bool.false_ne_true (hk.symm.trans h.2)

theorem writeWaiver_of {bs : Bytes} (h : s.v.flash.waiverOk bs = true) :
    s.writeWaiver bs = (s.m.nvStatus, s.writeVault fun v => { v with flash := s.v.flash.addWaiver bs },
      if s.m.restricted = 1 ∧ s.v.flash.covers s.v.mgmtImage (s.v.gafferImage 0) bs then .pair else .nothing) := by
  unfold State.writeWaiver
  rw [if_neg (by simp [h])]
  simp only [Bool.and_eq_true, beq_iff_eq]
  rfl
end

/-- What the statement says of a row: the answer of a good flash, and of one that fails. -/
theorem State.security_row {s s1 : State} {rq : DictReq} {c : Instr} {i sub : Nat} {d : Bytes} {rule : Bool} {r : DictRow} {bs : Bytes}
    {w : Written} (hi : i < 65536) (hsub : sub < 256) (hc : exec c s = s.writeRow { rq with data := d } i sub)
    (hr : rule = true → s1.writeEntry rq.master r i sub bs = w) :
    let q := OapReq.ofRow 2 i sub { rq with data := d }
    s.serves q = true → (s.counted rq).admits q r s1 bs → rule = true →
      (rq.flashBad = false → exec c s = .next (w.2.1.answered q (q.wrote r w.1) w.2.2))
      ∧ (rq.flashBad = true → s1.m.power.nvInhibit = false → waitsForFlash q.index q.sub = true → w.1 = osOk →
        ∃ t : State, exec c s = .next (t.answered q (q.wrote r osNvError) .nothing) ∧ (q.index ≠ 0x8002 → t.v.flash = s1.v.flash)
          ∧ t.v.flash.ctl = s1.v.flash.ctl ∧ t.v.flash.ar = s1.v.flash.ar ∧ t.m.dnum 0x1004 5 = 2) := by
  intro q hs ha hrule
  have run {x : Written} (h : s1.writeFlash rq.flashBad rq.master r i sub bs = x) :
      exec c s = .next (x.2.1.answered q (q.wrote r x.1) x.2.2) :=
    hc.trans (State.writeRow_of (rq := { rq with data := d }) hi hsub hs ha h)
  refine ⟨fun hb => run ?_, fun hb hn hw hok => ?_⟩
  · rw [hb, State.writeFlash_good]
    exact hr hrule
  · rw [OapReq.ofRow_index _ hi, OapReq.ofRow_sub _ hsub] at hw
    rw [OapReq.ofRow_index _ hi]
    obtain ⟨t, ht, hrest⟩ := State.writeFlash_failed (who := rq.master) (r := r) (bs := bs) hn hw (by rw [hr hrule]; exact hok)
    exact ⟨t, run (by rw [hb, ht]), hrest⟩

end Sys2Proof.Machine

namespace Sys2Proof
open Machine

/-- Settles O30: each row is a write of its entry, with the entry's rule and effect; where the flash fails only the answer, the count of
failures and an image's slot tell. -/
theorem securityAndResetWritesComplete : Obligations.SecurityAndResetWritesComplete := by
  unfold Obligations.SecurityAndResetWritesComplete
  intro s s1 rq slot r bs s0 m f kind k n nv event free hslot x hx
  simp only [List.mem_cons, List.not_mem_nil, or_false] at hx
  obtain rfl | rfl | rfl | rfl | rfl | rfl | rfl | rfl | rfl | rfl | rfl | rfl | rfl | rfl := hx
  · exact State.security_row (i := 0x3006) (sub := 1) (by decide) (by decide) rfl resetCmd_cold
  · exact State.security_row (i := 0x3006) (sub := 1) (by decide) (by decide) rfl resetCmd_warm
  · exact State.security_row (i := 0x3006) (sub := 1) (by decide) (by decide) rfl (resetCmd_die (d := 0) (by decide))
  · exact State.security_row (i := 0x3006) (sub := 1) (by decide) (by decide) rfl (resetCmd_die (d := 1) (by decide))
  · refine State.security_row (i := 0x8002) (sub := 1 + slot) (by decide) (by omega)
      (congrArg (fun k => s.writeRow rq 0x8002 (1 + k)) (Nat.mod_eq_of_lt hslot)) fun h => (writeEntry_image hslot).trans ?_
    simp only [Bool.and_eq_true, Bool.not_eq_true', free, bne_iff_ne] at h
    obtain ⟨⟨hrec, hact, hrun⟩, hok⟩ := h
    exact writeImage_free hrec hact (by split at hrun <;> simp_all [k, kind]) hok
  · refine State.security_row (i := 0x8002) (sub := 1 + slot) (by decide) (by omega)
      (congrArg (fun k => s.writeRow rq 0x8002 (1 + k)) (Nat.mod_eq_of_lt hslot)) fun h => (writeEntry_image hslot).trans ?_
    simp only [Bool.and_eq_true, beq_iff_eq] at h
    obtain ⟨⟨hrec, hkind⟩, hok⟩ := h
    exact writeImage_recovery hrec hkind hok
  · refine State.security_row (i := 0x8003) (sub := 1) (by decide) (by decide) rfl fun h => ?_
    obtain ⟨hn, hc⟩ := Bool.and_eq_true_iff.mp h
    exact (writeEntry_activate (beq_iff_eq.mp hn)).trans (activate_of hc)
  · refine State.security_row (i := 0x8003) (sub := 1) (by decide) (by decide) rfl fun h => ?_
    obtain ⟨hn, hc⟩ := Bool.and_eq_true_iff.mp h
    exact (writeEntry_activate (beq_iff_eq.mp hn)).trans (activate_of hc)
  · refine State.security_row (i := 0x8003) (sub := 2) (by decide) (by decide) rfl fun h => ?_
    obtain ⟨hn, hc⟩ := Bool.and_eq_true_iff.mp h
    exact (writeEntry_confirm (beq_iff_eq.mp hn)).trans (confirm_of hc)
  · refine State.security_row (i := 0x8003) (sub := 2) (by decide) (by decide) rfl fun h => ?_
    obtain ⟨hn, hc⟩ := Bool.and_eq_true_iff.mp h
    exact (writeEntry_confirm (beq_iff_eq.mp hn)).trans (confirm_of hc)
  · exact State.security_row (i := 0x8010) (sub := 1) (by decide) (by decide) rfl writeKey_of
  · exact State.security_row (i := 0x8004) (sub := 2) (by decide) (by decide) rfl writeWaiver_of
  · exact State.security_row (i := 0x8030) (sub := 1) (by decide) (by decide) rfl fun _ => rfl
  · exact State.security_row (i := 0xA003) (sub := 2) (by decide) (by decide) rfl writeEntry_csrData

end Sys2Proof
end

section
/-! The management segment, the configuration store, the supply, the sensors, clocks, wakes and restarts. -/

namespace Sys2Proof.Machine

/-- What a command that concerns more than the machine answers, its effect worked out. -/
theorem finished_of {s t : State} {c : Instr} {x : State} (he : exec c s = x.finish) (hx : x = t) : exec c s = .next t.atRest := by
  rw [he, State.finish_eq, hx]

/-- Counting in the dictionary leaves the rest of the machine. -/
theorem Mach.dadd_mgmt (m : Mach) (i sub n : Nat) : (m.dadd i sub n).mgmt = m.mgmt := by
  obtain ⟨c, h⟩ := m.dadd_frame i sub n
  rw [h]

/-- An offer that the module hears (R398). -/
theorem offered_of {m : Mach} (n : Nat) (hs : m.mgmtServes = true) :
    let heard := m.dadd 0x9001 0x10 1
    m.offered n = if (!m.mgmt.sweeping || !m.mgmt.chainIn || n = 0 || 32 < n) = true then heard else
      let id := if m.mgmt.nodeId = 255 then n else m.mgmt.nodeId
      (({ heard with mgmt := { m.mgmt with nodeId := id, sweeping := false, chainOut := true } } : Mach).dadd 0x9001 0x13 1).mgmtSend 0
        (ackBytes id m.mgmt.nodeId) := by
  intro heard
  unfold Mach.offered
  rw [hs, Bool.not_true, if_neg Bool.false_ne_true]
  dsimp only
  rw [m.dadd_mgmt]
  rfl

/-- A copy that the flash takes goes into the region that is not in force (R404). -/
theorem writeCopy_ok (s : State) :
    s.writeCopy true =
      let inA := s.m.store.inForce ≠ 0
      let copy := storeCopy (s.m.store.version + 1) s.v.mgmtVersion s.m.storeRecs
      { s with m := (({ s.m with store := { s.m.store with copyA := if inA then copy else s.m.store.copyA
                                                           copyB := if inA then s.m.store.copyB else copy
                                                           inForce := if inA then 0 else 1, version := s.m.store.version + 1
                                                           pending := [] } } : Mach).dadd 0x1004 3 1).dset 0x1004 5 0 } := by
  by_cases h : s.m.store.inForce = 0
  · simp only [State.writeCopy, h, ne_eq, not_true, if_false, beq_self_eq_true, if_true, Bool.toNat_true]
  · simp only [State.writeCopy, h, ne_eq, not_false_eq_true, if_false, if_true, beq_eq_false_iff_ne.mpr h, Bool.false_eq_true,
      Bool.toNat_false]

/-- One that it does not take leaves anything in that region, and the copy in force (R405). -/
theorem writeCopy_failed (s : State) :
    s.writeCopy false =
      let y := s.m.freeBytes 64
      { s with m := (({ y.1 with store := if s.m.store.inForce ≠ 0 then { y.1.store with copyA := y.2 }
                                          else { y.1.store with copyB := y.2 } } : Mach).dset 0x1004 5 2).moEvent evStoreWriteFailed } := by
  by_cases h : s.m.store.inForce = 0
  · simp only [State.writeCopy, h, ne_eq, not_true, if_false, beq_self_eq_true, if_true, Bool.false_eq_true]
  · simp only [State.writeCopy, h, ne_eq, not_false_eq_true, if_false, if_true, beq_eq_false_iff_ne.mpr h, Bool.false_eq_true]

/-- Whether the store's write delay has work to do. -/
theorem storeDue_idle {s : State} (ok : Bool) (h : ¬ (s.m.power.boot.isSome = true ∧ s.v.recovery = false ∧ s.m.store.pending ≠ [])) :
    s.storeDue ok = s := by
  unfold State.storeDue
  refine if_pos ?_
  by_cases hb : s.m.power.boot.isSome = true
  · by_cases hr : s.v.recovery = false
    · exact (by simpa [hb, hr] using h : s.m.store.pending = []) ▸ by simp
    · simp [eq_true_of_ne_false hr]
  · simp [Option.not_isSome_iff_eq_none.mp hb]
theorem storeDue_due {s : State} (ok : Bool) (h : s.m.power.boot.isSome = true ∧ s.v.recovery = false ∧ s.m.store.pending ≠ []) :
    s.storeDue ok = if s.m.power.nvInhibit then s.setM fun m => m.dset 0x1004 5 1 else s.writeCopy ok := by
  obtain ⟨hb, hr, hp⟩ := h
  unfold State.storeDue
  refine if_neg ?_
  simp [hr, hp, Option.isSome_iff_ne_none.mp hb]

/-- The write delay's command, once what it does to the machine is known. -/
theorem storeCopy_of {s : State} {ok : Bool} {m' : Mach} (h : s.storeDue ok = { s with m := m' }) :
    exec (.storeCopyWrite ok) s = .next (s.settled m') := by
  have run : exec (.storeCopyWrite ok) s = (s.storeDue ok).finish := rfl
  rw [run, State.finish_eq, h]
  rfl

/-- The state in which the end of the inhibit looks at the store: nothing is held, and the free word is drawn. -/
def State.afterInhibit (s : State) : State × Word :=
  let quiet := (({ s.m with power := { s.m.power with nvInhibit := false } } : Mach).updTimeLog TimeLog.turn).freeWord
  ({ s with m := quiet.1, v := { s.v with held := none } }, quiet.2)

/-- What it changes does not make a copy due. -/
theorem afterInhibit_boot (s : State) : s.afterInhibit.1.m.power.boot = s.m.power.boot := rfl
theorem afterInhibit_recovery (s : State) : s.afterInhibit.1.v.recovery = s.v.recovery := rfl
theorem afterInhibit_pending (s : State) : s.afterInhibit.1.m.store.pending = s.m.store.pending := rfl

/-- The end of the inhibit gives the store's write delay its turn. -/
theorem inhibitEnd_of {s t : State} (h : s.afterInhibit.1.storeDue (bitAt s.afterInhibit.2.toNat 0) = t) :
    exec .nvInhibitEnd s = .next t.atRest := by
  have run : exec .nvInhibitEnd s = (s.afterInhibit.1.storeDue (bitAt s.afterInhibit.2.toNat 0)).finish := rfl
  rw [run, State.finish_eq, h]

end Sys2Proof.Machine

namespace Sys2Proof
open Machine

/-- Settles O31: each event by what the segment's state lets it do. -/
theorem managementEventsComplete : Obligations.ManagementEventsComplete := by
  unfold Obligations.ManagementEventsComplete
  intro s n m heard
  refine ⟨fun hs => ⟨?_, ?_, fun hw hc h1 h2 => ?_, fun hn => ?_⟩, fun hb hl => ?_,
    ran_of (f := fun m => m.updMgmt fun x => { x with lost := false }) rfl rfl, fun hb hc => ?_,
    ran_of (f := fun m => m.updMgmt fun x => { x with chainIn := true }) rfl rfl, fun hb ht hl => ?_⟩
  · refine ran_of (f := fun m => if !m.mgmtServes then m else
      (m.dadd 0x9001 0x10 1).updMgmt fun x => { x with chainOut := false, sweeping := true }) rfl ?_
    refine (if_neg (by rw [hs]; exact Bool.false_ne_true)).trans ?_
    unfold Mach.updMgmt
    rw [s.m.dadd_mgmt]
  · exact ran_of (f := fun m => if m.mgmtServes then m.dadd 0x9001 0x12 1 else m) rfl (if_pos hs)
  · intro id
    exact ran_of (f := fun m => m.offered n) rfl ((offered_of n hs).trans (if_neg (by simp [hw, hc]; omega)))
  · exact ran_of (f := fun m => m.offered n) rfl ((offered_of n hs).trans (if_pos (by rcases hn with h | h <;> simp [h])))
  · refine ran_of (f := fun m => if m.mgmt.lost || m.power.boot.isNone then m else
      ((m.updMgmt fun x => { x with lost := true }).dadd 0x9001 0x14 1).moEvent evMgmtBeaconLost) rfl ?_
    exact if_neg (by simp [show s.m.mgmt.lost = false from hl, Option.isSome_iff_ne_none.mp (show s.m.power.boot.isSome = true from hb)])
  · exact ran_of (f := fun m => if m.mgmt.chainIn && m.power.boot.isSome
      then (m.updMgmt fun x => { x with chainIn := false }).moEvent evMgmtChainInLost
      else m.updMgmt fun x => { x with chainIn := false }) rfl (if_pos (by
        rw [show s.m.mgmt.chainIn = true from hc, show s.m.power.boot.isSome = true from hb]; rfl))
  · refine ran_of (f := fun m => if m.power.boot.isNone || m.mgmt.takeover || (m.link.up && !m.link.retraining) then m else
      (((m.updMgmt fun x => { x with takeover := true }).dadd 0x9010 4 1).moEvent evMgmtTakeover).dropLosers) rfl ?_
    refine if_neg ?_
    rcases hl with h | h <;> simp [show s.m.mgmt.takeover = false from ht, Option.isSome_iff_ne_none.mp hb, h, m]

/-- Settles O32: a copy is due or not, and deferred, taken or lost. -/
theorem storeEventsComplete : Obligations.StoreEventsComplete := by
  unfold Obligations.StoreEventsComplete
  intro s m wrote lost quiet freed due
  have written (x : State) (hv : x.v.mgmtVersion = s.v.mgmtVersion) : x.writeCopy true = { x with m := wrote x.m } := by
    rw [writeCopy_ok, hv]
  have failed (x : State) : x.writeCopy false = { x with m := lost x.m } := writeCopy_failed x
  have stored {ok : Bool} (hd : due) (hn : m.power.nvInhibit = false) : s.storeDue ok = s.writeCopy ok :=
    (storeDue_due ok hd).trans (if_neg (ne_true_of_eq_false hn))
  refine ⟨fun hd hn => ?_, fun hd hn => ?_, fun ok hd hn => ?_, fun hb hn => ⟨?_, ?_⟩, fun hd => ?_, fun hd => ?_⟩
  · exact storeCopy_of ((stored hd hn).trans (written s rfl))
  · exact storeCopy_of ((stored hd hn).trans (failed s))
  · exact storeCopy_of ((storeDue_due ok hd).trans (if_pos hn))
  · exact ran_of (f := fun m => if m.power.boot.isNone || m.power.nvInhibit then m else m.timeRecord) rfl
      (if_neg (by simp [show s.m.power.nvInhibit = false from hn, Option.isSome_iff_ne_none.mp (show s.m.power.boot.isSome = true from hb)]))
  · refine ran_of (f := fun m => if m.power.nvInhibit then m else if m.power.boot.isNone
      then ({ m with power := { m.power with nvInhibit := true } } : Mach)
      else ({ m with power := { m.power with nvInhibit := true } } : Mach).timeRecord) rfl ?_
    exact (if_neg (ne_true_of_eq_false hn)).trans (if_neg (by simp [Option.isSome_iff_ne_none.mp (show s.m.power.boot.isSome = true from hb)]))
  · have idle := storeDue_idle (s := s.afterInhibit.1) (bitAt s.afterInhibit.2.toNat 0) (by
      rw [afterInhibit_boot, afterInhibit_recovery, afterInhibit_pending]; exact hd)
    exact (inhibitEnd_of idle).trans rfl
  · have hdue : s.afterInhibit.1.storeDue (bitAt s.afterInhibit.2.toNat 0) = s.afterInhibit.1.writeCopy (bitAt s.afterInhibit.2.toNat 0) :=
      (storeDue_due _ (by rw [afterInhibit_boot, afterInhibit_recovery, afterInhibit_pending]; exact hd)).trans (if_neg Bool.false_ne_true)
    cases hq : bitAt s.afterInhibit.2.toNat 0 with
    | true =>
      rw [hq] at hdue
      refine (inhibitEnd_of ((congrArg _ hq).trans (hdue.trans (written s.afterInhibit.1 rfl)))).trans ?_
      rw [show bitAt quiet.2.toNat 0 = true from hq]
      rfl
    | false =>
      rw [hq] at hdue
      refine (inhibitEnd_of ((congrArg _ hq).trans (hdue.trans (failed s.afterInhibit.1)))).trans ?_
      rw [show bitAt quiet.2.toNat 0 = false from hq]
      rfl

/-- Settles O33: each event by what holds the module down. -/
theorem supplyEventsComplete : Obligations.SupplyEventsComplete := by
  unfold Obligations.SupplyEventsComplete
  intro s obs m power
  refine ⟨fun ho hr hb => finished_of rfl ?_, fun ho hr hb => finished_of rfl ?_, fun hb hw => ?_, finished_of (x := power fun x => { x with warn := false }) rfl rfl,
    finished_of (x := s.brownOut) rfl rfl, finished_of (x := s.coldReset 3) rfl rfl,
    finished_of (x := (power fun x => { x with overvolt := true }).coldReset 11) rfl rfl,
    fun ho => finished_of (x := if s.m.power.overvolt then (power fun x => { x with overvolt := false }).coldReset 11 else s) rfl (if_pos ho),
    finished_of (x := s.pinReset) rfl rfl, fun hr hb hs => finished_of (x := s.pinRelease) rfl ?_,
    fun h => finished_of (x := s.pinRelease) rfl ?_⟩
  · exact (if_neg (by simp [show s.m.power.overvolt = false from ho, show s.m.power.boot = none from hb])).trans
      (if_neg (ne_true_of_eq_false hr))
  · exact (if_neg (by simp [show s.m.power.overvolt = false from ho, show s.m.power.boot = none from hb])).trans (if_pos hr)
  · exact ran_of (f := fun m => if m.power.warn || m.power.boot.isNone then m.updPower fun x => { x with warn := true }
      else (m.updPower fun x => { x with warn := true }).moEvent evSupplyLow) rfl
      (if_neg (by simp [show s.m.power.warn = false from hw, Option.isSome_iff_ne_none.mp (show s.m.power.boot.isSome = true from hb)]))
  · unfold State.pinRelease
    rw [show s.m.power.resetLow = true from hr, show s.m.power.boot = none from hb, show s.m.power.supplied = some obs from hs]
    rfl
  · have hm : s.m.power.resetLow = false ∨ s.m.power.boot.isSome = true ∨ s.m.power.supplied = none := h
    unfold State.pinRelease
    dsimp only
    split
    · next h1 h2 h3 => simp [h1, h2, h3] at hm
    · rfl

end Sys2Proof
end

section
/-! The sensors and the power limit, clock faults, wakes, and the restarts of a live update and of the management controller. -/

namespace Sys2Proof.Machine

/-- A sensor is heard on a die that is up while the module is not restricted (R411). -/
theorem thermal_heard {m : Mach} {d : Nat} (t : Int) :
    let seen := m.updDie d fun x => { x with temp := t }
    (seen.die d).up = true → m.restricted = 0 →
      m.thermal d t = if (seen.die d).throttled then (if t ≤ 8 * (m.dnum 0x3002 1 : Int) - 24
          then seen.updDie d fun x => { x with throttled := false } else seen)
        else if 8 * (m.dnum 0x3002 1 : Int) < t then
          ((seen.updDie d fun x => { x with throttled := true }).dadd 0x3002 4 1).fwEvent evThermalThrottle d 0 none
        else seen := by
  intro seen hup hr
  refine (if_neg ?_).trans rfl
  simp [show ((m.updDie d fun x => { x with temp := t }).die d).up = true from hup,
    show (m.updDie d fun x => { x with temp := t }).restricted = 0 from hr]

/-- A monitored channel whose PLL fails is reported, and then drained (R419). -/
theorem clockFault_chan {s : State} {c : Chan} (hc : c.ok = true) (hu : (s.m.die c.die).up = true) :
    s.clockFault (.chan c) = { s with m := (s.m.fwEvent evClockFault c.die (160 + c.memc) none
      (toLe 1 1 ++ toLe 2 (c.idx + 16384 * c.die + 32768 * c.lp.toNat))).chanClock c } :=
  if_neg (by simp [hc, hu])

/-- A port whose PLL fails is reported, and retrained (R419). -/
theorem clockFault_port {s : State} {q : Nat} (hq : q < s.m.portCount) (hu : (s.m.die (portDie s.m q)).up = true) :
    s.clockFault (.port q) = { s with m := (s.m.fwEvent evClockFault (portDie s.m q) 0 (some (s.m.portPart q))
      (toLe 1 2 ++ toLe 1 q)).retrainPort q } :=
  if_neg (by simp [hu]; omega)

/-- A channel that can be drained, by the state it is in. -/
theorem chanClock_drainable {m : Mach} {c : Chan} (hf : m.fineMode = false ∨ c.lp = true) (h4 : (m.chan c).state ≠ 4) :
    m.chanClock c =
      if (m.chan c).state = 1 then m.updChan c fun x => { x with clock := true }
      else if (m.chan c).state = 2 then (m.updChan c fun x => { x with clock := true }).retrainChan c
      else match m.beginDrain c with
        | some k => k.updChan c fun x => { x with clock := true }
        | none => m := by
  refine (if_neg ?_).trans rfl
  rcases hf with h | h <;> simp [h, h4]

/-- One that cannot, or whose unit is being margined, stays in service. -/
theorem chanClock_stays {m : Mach} {c : Chan} (h : (m.fineMode = true ∧ c.lp = false) ∨ (m.chan c).state = 4) : m.chanClock c = m :=
  if_pos (by rcases h with ⟨hf, hl⟩ | h4 <;> simp [*])

/-- A wake source that is not masked, by the stage of Deep. -/
theorem wake_unmasked {m : Mach} {b : Nat} (hb : b < 3) (hm : bitAt (m.dnum 0x3005 1) b = true) :
    m.wake b =
      if m.power.deepSteps = 1 then
        (if m.power.wakeLatched.isSome then m else { m with power := { m.power with wakeLatched := some b } })
      else if m.power.deepSteps = 2 then ({ m with power := { m.power with deepSteps := 3 } } : Mach).dset 0x3005 4 b
      else if m.power.deepSteps = 3 then m.dset 0x3005 4 (setFld (m.dnum 0x3005 4) 7 7 1)
      else m :=
  if_neg (by simp [hm]; omega)

/-! ### The restart of the management controller -/

/-- The slot that the ROM runs (R432). -/
def State.restartSlot (s : State) : Option Nat :=
  let c := s.v.flash.boot 0
  ((if c.trial then [1 - c.active] else []) ++ [c.active, 1 - c.active]).find? fun k => s.v.flash.slotOk 0 k

/-- The vault after the ROM has run a slot, or none. -/
def Vault.restarted (v : Vault) (run : Option Nat) : Vault :=
  { v with running := updAt v.running 0 fun _ => run, nonces := v.nonces.filter fun q => (mapGet v.quotes q.1).isSome }

/-- The machine after it. -/
def Mach.restarted (m : Mach) (stop : Nat) : Mach :=
  { m with mgmt := { m.mgmt with restarting := false }, power := { m.power with stopAt := stop } }

/-- The state after slot `k` runs. -/
def State.restartedOn (s : State) (v : Vault) (k : Nat) : State :=
  { s with v := ({ v.restarted (some k) with recovery := false } : Vault).measureMgmt k
           m := s.m.restarted (if s.m.restricted = 0 then 0 else 8) }

/-- No slot verifies: recovery (R433). -/
theorem mgmtRestart_none {s : State} (hr : s.m.mgmt.restarting = true) (hs : s.restartSlot = none) :
    s.mgmtRestart = { s with v := { s.v.restarted none with recovery := true }, m := s.m.restarted 3 } := by
  have hs' : ((if (s.v.flash.boot 0).trial then [1 - (s.v.flash.boot 0).active] else []) ++
    [(s.v.flash.boot 0).active, 1 - (s.v.flash.boot 0).active]).find? (fun k => s.v.flash.slotOk 0 k) = none := hs
  unfold State.mgmtRestart
  rw [hr, Bool.not_true, if_neg Bool.false_ne_true]
  dsimp only
  rw [hs', Option.isSome_none, Bool.and_false, Bool.false_and, if_neg Bool.false_ne_true]
  rfl

/-- A slot runs that is the trial slot or in no trial. -/
theorem mgmtRestart_runs {s : State} {k : Nat} (hr : s.m.mgmt.restarting = true) (hs : s.restartSlot = some k)
    (hf : (s.v.flash.boot 0).trial = false ∨ k = 1 - (s.v.flash.boot 0).active) : s.mgmtRestart = s.restartedOn s.v k := by
  have hs' : ((if (s.v.flash.boot 0).trial then [1 - (s.v.flash.boot 0).active] else []) ++
    [(s.v.flash.boot 0).active, 1 - (s.v.flash.boot 0).active]).find? (fun k => s.v.flash.slotOk 0 k) = some k := hs
  have fell : ((s.v.flash.boot 0).trial && (some k).isSome && some k != some (1 - (s.v.flash.boot 0).active)) = false := by
    rcases hf with h | h <;> simp [h]
  unfold State.mgmtRestart
  rw [hr, Bool.not_true, if_neg Bool.false_ne_true]
  dsimp only
  rw [hs', fell, if_neg Bool.false_ne_true]
  rfl

/-- Another slot runs than the trial slot: the trial is over, and reported. -/
theorem mgmtRestart_fell {s : State} {k : Nat} (hr : s.m.mgmt.restarting = true) (hs : s.restartSlot = some k)
    (ht : (s.v.flash.boot 0).trial = true) (hk : k ≠ 1 - (s.v.flash.boot 0).active) :
    s.mgmtRestart = (s.restartedOn (s.v.write s.m.power.nvInhibit fun v => { v with flash := v.flash.fallBack 0 }) k).setM fun m =>
      m.moEvent evFwFallback (toLe 1 0) := by
  have hs' : ((if (s.v.flash.boot 0).trial then [1 - (s.v.flash.boot 0).active] else []) ++
    [(s.v.flash.boot 0).active, 1 - (s.v.flash.boot 0).active]).find? (fun k => s.v.flash.slotOk 0 k) = some k := hs
  have fell : ((s.v.flash.boot 0).trial && (some k).isSome && some k != some (1 - (s.v.flash.boot 0).active)) = true := by
    simp [ht, hk]
  unfold State.mgmtRestart
  rw [hr, Bool.not_true, if_neg Bool.false_ne_true]
  dsimp only
  rw [hs', fell, if_pos rfl]
  rfl

/-- The slot that runs, by which images verify. -/
theorem restartSlot_trial {s : State} (ht : (s.v.flash.boot 0).trial = true)
    (hk : s.v.flash.slotOk 0 (1 - (s.v.flash.boot 0).active) = true) : s.restartSlot = some (1 - (s.v.flash.boot 0).active) := by
  simp [State.restartSlot, ht, hk]
theorem restartSlot_active {s : State} (ht : (s.v.flash.boot 0).trial = false ∨ s.v.flash.slotOk 0 (1 - (s.v.flash.boot 0).active) = false)
    (ha : s.v.flash.slotOk 0 (s.v.flash.boot 0).active = true) : s.restartSlot = some (s.v.flash.boot 0).active := by
  rcases ht with h | h <;> cases hb : (s.v.flash.boot 0).trial <;> simp_all [State.restartSlot]
theorem restartSlot_other {s : State} (ht : (s.v.flash.boot 0).trial = false) (ha : s.v.flash.slotOk 0 (s.v.flash.boot 0).active = false)
    (hk : s.v.flash.slotOk 0 (1 - (s.v.flash.boot 0).active) = true) : s.restartSlot = some (1 - (s.v.flash.boot 0).active) := by
  simp [State.restartSlot, ht, ha, hk]
theorem restartSlot_none {s : State} (ha : s.v.flash.slotOk 0 (s.v.flash.boot 0).active = false)
    (hk : s.v.flash.slotOk 0 (1 - (s.v.flash.boot 0).active) = false) : s.restartSlot = none := by
  cases hb : (s.v.flash.boot 0).trial <;> simp [State.restartSlot, hb, ha, hk]

end Sys2Proof.Machine

namespace Sys2Proof
open Machine

/-- Settles O34: each event by the guard that lets it act. -/
theorem powerAndSensorEventsComplete : Obligations.PowerAndSensorEventsComplete := by
  unfold Obligations.PowerAndSensorEventsComplete
  intro s mean d t m lim on w share hot seen
  refine ⟨fun hr => ?_, ran_of (f := fun m => m.updPower fun x => { x with comparator := m.dies.any fun y => y.up }) rfl rfl,
    ran_of (f := fun m => m.updPower fun x => { x with comparator := false }) rfl rfl, fun hd hup hr => ?_,
    fun hd hup => ran_of (f := fun m => m.dieReset d 8) rfl rfl, fun hh => ?_⟩
  · refine ran_of (f := fun m => m.powerTick mean) rfl ((if_neg ?_).trans rfl)
    simp [show s.m.power.ready = true from hr]
  · have run {m'} (h : s.m.thermal d t = m') : exec (.thermalSample d t) s = .next (s.settled m') :=
      ran_of (f := fun m => if d < 2 then m.thermal d t else m) rfl ((if_pos hd).trans h)
    have heard := thermal_heard t hup hr
    refine ⟨fun hth ht => ?_, fun hth ht => ?_, fun hth ht => ?_, fun hth ht => ?_⟩
    · exact run (heard.trans ((if_neg (ne_true_of_eq_false hth)).trans (if_pos ht)))
    · exact run (heard.trans ((if_pos hth).trans (if_pos ht)))
    · exact run (heard.trans ((if_neg (ne_true_of_eq_false hth)).trans (if_neg (Int.not_lt.mpr ht))))
    · exact run (heard.trans ((if_pos hth).trans (if_neg (Int.not_le.mpr ht))))
  · exact finished_of (x := if (s.m.die d).hot then s.coolDie d else s) rfl (if_pos hh)

/-- Settles O35: each event by what it finds: a die, a channel or a port that is up, the stage of Deep, the slots that verify. -/
theorem clockWakeAndUpdateEventsComplete : Obligations.ClockWakeAndUpdateEventsComplete := by
  unfold Obligations.ClockWakeAndUpdateEventsComplete
  intro s d q b c who m k chanBytes m1
  refine ⟨fun hd hu => ?_, fun hc hu => ?_, fun hq hu => ?_, fun hb hm => ?_, fun hl hu hg => ?_, fun hr => ?_, fun x hx hp hr hq => ?_⟩
  · exact finished_of (x := s.clockFault (.die d)) rfl (if_neg (by simp [show (s.m.die d).up = true from hu]; omega))
  · intro mark
    have run {m'} (h : m1.chanClock c = m') : exec (.clockFault (.chan c)) s = .next (s.settled m') :=
      finished_of (x := s.clockFault (.chan c)) (t := { s with m := m' }) rfl
        ((clockFault_chan hc hu).trans (congrArg (fun k => { s with m := k }) h))
    refine ⟨fun h => run (chanClock_stays h), fun hf => ⟨fun h1 => ?_, fun h2 => ?_, fun h1 h2 h4 => ?_⟩⟩
    · exact run ((chanClock_drainable hf (by omega)).trans (if_pos h1))
    · exact run ((chanClock_drainable hf (by omega)).trans ((if_neg (by omega)).trans (if_pos h2)))
    · exact run ((chanClock_drainable hf h4).trans ((if_neg h1).trans (if_neg h2)))
  · exact (finished_of (x := s.clockFault (.port q)) rfl (clockFault_port hq hu)).trans rfl
  · have run {m'} (h : s.m.wake b = m') : exec (.wake b) s = .next (s.settled m') := ran_of (f := fun m => m.wake b) rfl h
    have unmasked := wake_unmasked hb hm
    refine ⟨fun h1 hw => ?_, fun h2 => ?_, fun h3 => ?_⟩
    · exact run (unmasked.trans ((if_pos h1).trans (if_neg (by rw [show s.m.power.wakeLatched = none from hw]; exact Bool.false_ne_true))))
    · exact run (unmasked.trans ((if_neg (by omega)).trans (if_pos h2)))
    · exact run (unmasked.trans ((if_neg (by omega)).trans ((if_neg (by omega)).trans (if_pos h3))))
  · refine finished_of (x := s.updateDie d) rfl ((if_neg ?_).trans rfl)
    simp [show s.m.liveDie = some d from hl, show (s.m.die d).up = true from hu, show (s.m.groupsOn d).any s.m.groupActive = false from hg]
  · intro act ok after back open_ runs
    have run {x} (h : s.mgmtRestart = x) : exec .mgmtFwRestarted s = .next x.atRest := finished_of (x := s.mgmtRestart) rfl h
    refine ⟨fun ht hk => ?_, fun ht ha => ?_, fun ht ha hk => ?_, fun ht hk ha => ?_, fun hk ha => ?_⟩
    · exact (run (mgmtRestart_runs hr (restartSlot_trial ht hk) (.inr rfl))).trans rfl
    · exact (run (mgmtRestart_runs hr (restartSlot_active (.inl ht) ha) (.inl ht))).trans rfl
    · exact (run (mgmtRestart_runs hr (restartSlot_other ht ha hk) (.inl ht))).trans rfl
    · exact (run (mgmtRestart_fell hr (restartSlot_active (.inr hk) ha) ht (by omega))).trans rfl
    · exact (run (mgmtRestart_none hr (restartSlot_none ha hk))).trans rfl
  · refine finished_of (x := s.setV fun v => quoteReady s.m v who) rfl (congrArg (fun v => { s with v := v }) ?_)
    unfold quoteReady
    dsimp only
    rw [hx, hp, show s.m.mgmt.restarting = false from hr, hq]
    rfl

end Sys2Proof
end

section
/-! The host link's flits, loss and return, its doorbells and control words; the module right after reset. -/

namespace Sys2Proof.Machine

/-! ### Flits and replays -/

/-- A replay of what is not acknowledged (R452). -/
theorem hlReplay_sends {m : Mach} (hu : m.link.up = true) (hr : m.link.retraining = false) (hn : m.link.replay ≠ []) :
    m.hlReplay =
      let x := m.link.replay.foldl (fun (k : Mach) f => k.emit (.hlFlit (hlFlitBytes 1 f.1 m.link.rxSeq false f.2))) m
      let y := x.dadd 0x9101 0x10 m.link.replay.length
      { y with link := { y.link with replays := y.link.replays + 1, retraining := decide (16 ≤ y.link.replays + 1) } } :=
  (if_neg (by simp [hu, hr, hn])).trans rfl

/-- The first nak of a flit that is discarded, and those that follow it. -/
theorem hlNak_first {m : Mach} (h : m.link.nakOut = false) :
    m.hlNak = ({ m with link := { m.link with nakOut := true } } : Mach).emit (.hlFlit (hlFlitBytes 2 0 m.link.rxSeq true [])) :=
  (if_neg (ne_true_of_eq_false h)).trans rfl
theorem hlNak_again {m : Mach} (h : m.link.nakOut = true) : m.hlNak = m := if_pos h

/-! ### The link control space -/

/-- A word written to the control space while enable is 0 (R454). -/
theorem ctrlWrite_taken {s : State} {off : Nat} (w : DWord) (hu : s.m.link.up = true) (he : s.m.link.enable = false)
    (ho : [8, 0x10, 0x18, 0x20].contains off = true) :
    exec (.ctrlWrite off w) s = .next (s.settled (s.m.updLink fun l =>
      let l := { l with touched := if l.touched.contains off then l.touched else l.touched ++ [off] }
      if off = 8 then { l with adminSq := w } else if off = 0x10 then { l with adminCq := w }
      else if off = 0x18 then { l with evRing := w } else { l with sizes := w })) := by
  have run : exec (.ctrlWrite off w) s = s.onMach fun m =>
      if !m.link.up || m.link.enable || !([8, 0x10, 0x18, 0x20].contains off) then m else
      m.updLink fun l =>
        let l := { l with touched := if l.touched.contains off then l.touched else l.touched ++ [off] }
        if off = 8 then { l with adminSq := w } else if off = 0x10 then { l with adminCq := w }
        else if off = 0x18 then { l with evRing := w } else { l with sizes := w } := rfl
  refine ran_of run ((if_neg ?_).trans rfl)
  rw [hu, he, ho]
  exact Bool.false_ne_true

/-- While enable is 1 it is ignored. -/
theorem ctrlWrite_ignored {s : State} (off : Nat) (w : DWord) (he : s.m.link.enable = true) :
    exec (.ctrlWrite off w) s = .next (s.settled s.m) := by
  have run : exec (.ctrlWrite off w) s = s.onMach fun m =>
      if !m.link.up || m.link.enable || !([8, 0x10, 0x18, 0x20].contains off) then m else
      m.updLink fun l =>
        let l := { l with touched := if l.touched.contains off then l.touched else l.touched ++ [off] }
        if off = 8 then { l with adminSq := w } else if off = 0x10 then { l with adminCq := w }
        else if off = 0x18 then { l with evRing := w } else { l with sizes := w } := rfl
  exact ran_of run (if_pos (by rw [he, Bool.or_true, Bool.true_or]))

/-! ### Doorbells -/

/-- The doorbells of a ring while the link is up. -/
theorem sqDoorbell_taken {s : State} {ring : Nat} (i : Half) (hu : s.m.link.up = true) (hr : ring < 16) :
    exec (.sqDoorbell ring i) s = .next (s.settled (s.m.updRing ring fun q => { q with sqTail := i.toNat % s.m.sqSize ring })) :=
  ran_of (f := fun m => if !m.link.up || 16 ≤ ring then m else m.updRing ring fun q => { q with sqTail := i.toNat % m.sqSize ring }) rfl
    (if_neg (by simp [hu]; omega))
theorem cqDoorbell_taken {s : State} {ring : Nat} (i : Half) (hu : s.m.link.up = true) (hr : ring < 16) :
    exec (.cqDoorbell ring i) s = .next (s.settled ((s.m.updRing ring fun q =>
      { q with cqHead := ringHead q.cqTail q.cqHead (s.m.cqSize ring) i.toNat }).flushRing ring)) :=
  ran_of (f := fun m => if !m.link.up || 16 ≤ ring then m else
    (m.updRing ring fun q => { q with cqHead := ringHead q.cqTail q.cqHead (m.cqSize ring) i.toNat }).flushRing ring) rfl
    (if_neg (by simp [hu]; omega))
theorem eventHeadDoorbell_taken {s : State} (i : Half) (hu : s.m.link.up = true) :
    exec (.eventHeadDoorbell i) s = .next (s.settled (pumpEvents 300 { s.m with
      link := { s.m.link with evHead := ringHead s.m.link.evTail s.m.link.evHead s.m.link.evSize i.toNat } })) :=
  ran_of (f := fun m => if !m.link.up then m else pumpEvents 300 (m.updLink fun l =>
      { l with evHead := ringHead l.evTail l.evHead l.evSize i.toNat })) rfl ((if_neg (by simp [hu])).trans rfl)

/-- A pair that is looked at for the end of its drain. -/
theorem ringPairDrained_flushes (s : State) {ring : Nat} (hr : ring < 16) :
    exec (.ringPairDrained ring) s = .next (s.settled (s.m.flushRing ring)) :=
  ran_of (f := fun m => if ring < 16 then m.flushRing ring else m) rfl (if_pos hr)

/-- A ring that holds no completion has none to write. -/
theorem pumpRing_empty {m : Mach} {r : Nat} (n : Nat) (h : (m.ring r).held = []) : pumpRing r n m = m := by
  cases n with
  | zero => rfl
  | succ n =>
    unfold pumpRing
    dsimp only
    rw [h]

/-- A drained pair reads enable 0, or starts afresh (R488). -/
theorem flushRing_drained {m : Mach} {r : Nat} (h0 : 0 < r) (h2 : leAt (m.ringRec r) 19 1 = 2) (hh : (m.ring r).held = [])
    (hc : (m.link.cmds.all fun c => c.ring != r) = true) :
    m.flushRing r = (m.dictPut (0x9120 + r) 1
      (overlay (m.ringRec r) 19 [if (m.ring r).again then 1 else 0])).updRing r fun _ => {} := by
  unfold Mach.flushRing
  rw [pumpRing_empty 600 hh]
  exact if_pos ⟨by omega, h2, hh, hc⟩

/-! ### Reset -/

/-- After reset nothing is under way. -/
theorem reset_quiet : State.reset.m.quiet = true := by decide

end Sys2Proof.Machine

namespace Sys2Proof
open Machine

/-- Settles O36: each event on a link that is up, or comes up. -/
theorem hostLinkEventsComplete : Obligations.HostLinkEventsComplete := by
  unfold Obligations.HostLinkEventsComplete
  intro s flit lanes ring off i w m good low
  refine ⟨fun hu hr => ?_, fun hu => ?_, fun hu => ?_, fun hb hd hl => ?_, fun hu hr => ⟨sqDoorbell_taken i hu, cqDoorbell_taken i hu,
    eventHeadDoorbell_taken i hu, ran_of (f := fun m => m.hlCtrl w.toNat) rfl rfl, ctrlWrite_ignored off w, ringPairDrained_flushes s⟩⟩
  · have run {m'} (h : (if !s.m.link.up || s.m.link.retraining then s.m
        else if flit.length ≠ 256 ∨ leAt flit 252 4 ≠ (crc32c (flit.take 252)).toNat then s.m.hlNak
        else s.m.hlTake (leAt flit 0 4)) = m') : exec (.hlFlitReceive flit) s = .next (s.settled m') :=
      ran_of (f := fun m => if !m.link.up || m.link.retraining then m
        else if flit.length ≠ 256 ∨ leAt flit 252 4 ≠ (crc32c (flit.take 252)).toNat then m.hlNak
        else m.hlTake (leAt flit 0 4)) rfl h
    have heard : ¬ (!s.m.link.up || s.m.link.retraining) = true := by
      simp [show s.m.link.up = true from hu, show s.m.link.retraining = false from hr]
    have bad (hg : ¬ good) : flit.length ≠ 256 ∨ leAt flit 252 4 ≠ (crc32c (flit.take 252)).toNat := not_and_or.mp hg
    refine ⟨fun hg hn => ?_, fun hg hn => ?_, fun hg => ?_, fun hn => ?_⟩
    · exact run ((if_neg heard).trans ((if_pos (bad hg)).trans (hlNak_again hn)))
    · exact run ((if_neg heard).trans ((if_pos (bad hg)).trans (hlNak_first hn)))
    · exact run ((if_neg heard).trans (if_neg (not_or.mpr ⟨not_not.mpr hg.1, not_not.mpr hg.2⟩)))
    · exact ran_of (f := Mach.hlReplay) rfl (hlReplay_sends hu hr hn)
  · exact ran_of (f := Mach.hlRetrained) rfl ((if_neg (by simp [show s.m.link.up = true from hu])).trans rfl)
  · exact ran_of (f := Mach.linkLost) rfl ((if_neg (by simp [show s.m.link.up = true from hu])).trans rfl)
  · exact ran_of (f := fun m => if m.power.boot.isNone then m else m.linkUp lanes) rfl
      (if_neg (by simp [Option.isSome_iff_ne_none.mp (show s.m.power.boot.isSome = true from hb)]))

/-- Settles O37: each write by what the link's enable and configuration let it do. -/
theorem doorbellsAndLinkControlComplete : Obligations.DoorbellsAndLinkControlComplete := by
  unfold Obligations.DoorbellsAndLinkControlComplete
  intro s ring off i w m touch rings
  have run {m'} (h : s.m.hlCtrl w.toNat = m') : exec (.hlCtrlWrite w) s = .next (s.settled m') :=
    ran_of (f := fun m => m.hlCtrl w.toNat) rfl h
  have up (hu : m.link.up = true) : ¬ (!s.m.link.up) = true := by simp [show s.m.link.up = true from hu]
  have set (hb : bitAt w.toNat 0 = true) : ¬ (!bitAt w.toNat 0) = true := by simp [hb]
  refine ⟨sqDoorbell_taken i, cqDoorbell_taken i, eventHeadDoorbell_taken i, fun hu hb => ?_, fun hu hb he => ?_, fun hu hb he hc => ?_,
    fun hu hb he hc => ?_, fun hu he ho => ?_, fun hu he ho => ?_, fun hu he ho => ?_, fun hu he ho => ?_,
    fun _ he => ctrlWrite_ignored off w he, ringPairDrained_flushes s, fun h0 hr h2 hh hc => ?_⟩
  · exact run ((if_neg (up hu)).trans (if_pos (by rw [hb]; rfl)))
  · exact run ((if_neg (up hu)).trans ((if_neg (set hb)).trans (if_pos he)))
  · exact run ((if_neg (up hu)).trans ((if_neg (set hb)).trans ((if_neg (ne_true_of_eq_false he)).trans (if_pos (by rw [hc]; rfl)))))
  · exact run ((if_neg (up hu)).trans ((if_neg (set hb)).trans ((if_neg (ne_true_of_eq_false he)).trans
      ((if_neg (by rw [hc]; exact Bool.false_ne_true)).trans rfl))))
  · subst ho
    exact ctrlWrite_taken w hu he rfl
  · subst ho
    exact ctrlWrite_taken w hu he rfl
  · subst ho
    exact ctrlWrite_taken w hu he rfl
  · subst ho
    exact ctrlWrite_taken w hu he rfl
  · rw [ringPairDrained_flushes s hr, flushRing_drained h0 h2 hh hc]

/-- Settles O38: each part of the state by its default. -/
theorem resetState : Obligations.ResetState := by
  unfold Obligations.ResetState
  intro s
  have die (d : Nat) : s.m.die d = {} := by
    rw [Mach.die, show s.m.dies = List.replicate 2 {} from rfl, List.getD_eq_getElem?_getD, List.getElem?_getD_replicate_default_eq]
  have port (q : Nat) : s.m.port q = {} := by
    rw [Mach.port, show s.m.ports = List.replicate 16 {} from rfl, List.getD_eq_getElem?_getD, List.getElem?_getD_replicate_default_eq]
  have ctx (c : Nat) : s.m.ctx c = {} := by
    rw [Mach.ctx, show s.m.ctxs = List.replicate 32 {} from rfl, List.getD_eq_getElem?_getD, List.getElem?_getD_replicate_default_eq]
  exact ⟨rfl, rfl, fun d => by rw [die d], rfl, fun q => by rw [port q]; rfl, by decide, by decide, rfl, fun _ _ => rfl, rfl, rfl, rfl,
    fun c => by rw [ctx c], reset_wf, fun _ => rfl, reset_quiet, rfl, ⟨le_rfl, le_rfl, le_rfl, le_rfl⟩⟩

end Sys2Proof
end
